-- ==== Sys2Proof/Word.lean ====
section
/-! DEFINITION. The plainest data of the GK8: octets, addresses, pair and class numbers, sequences,
pair maps and counters, with the arithmetic that the manual's Conventions give them. -/

namespace Sys2Proof

/-- Eight bits; every length in the manual is counted in octets. -/
abbrev Octet := BitVec 8

/-- An Ethernet address, its first octet in the most significant place. -/
abbrev Addr := BitVec 48

/-- An Ethernet frame as received or sent at the trunk, first octet first. -/
abbrev Frame := List Octet

/-- A pair and its pair unit, 0-7. -/
abbrev PairNo := Fin 8

/-- A traffic class: 0 control, 1 live, 2 bulk. -/
abbrev ClassNo := Fin 3

/-- A fragment's number within its class, 0-16383; addition wraps as R112 gives. -/
abbrev Seq := BitVec 14

/-- The bond's restart number, 0-3; addition is modulo 4 as R39 gives. -/
abbrev Epoch := BitVec 2

/-- A set of pairs: pair p is a member when bit p is set. -/
abbrev PairMap := BitVec 8

/-- A set of sort table indices: index i is a member when bit i is set. -/
abbrev EntrySet := BitVec 32

/-- A counter, 32 bits wide and wrapping. -/
abbrev Count := BitVec 32

/-- Every pair, in increasing pair number. -/
def allPairs : List PairNo := [0, 1, 2, 3, 4, 5, 6, 7]

/-- Every class, in increasing class number. -/
def allClasses : List ClassNo := [0, 1, 2]

/-- The map that holds every pair. -/
def everyPair : PairMap := 0xFF

/-- Pair `p` is a member of the map. -/
def PairMap.holds (m : PairMap) (p : PairNo) : Bool := m.getLsbD p.val

/-- The map of the pairs that pass a test. -/
def PairMap.ofPred (f : PairNo → Bool) : PairMap :=
  allPairs.foldl (fun m p => if f p then m ||| (1#8 <<< p.val) else m) 0

/-- Index `i` is a member of the set of sort table indices. -/
def EntrySet.holds (m : EntrySet) (i : Fin 32) : Bool := m.getLsbD i.val

/-- `dist a b` is the distance from sequence `b` to sequence `a`, (a − b) mod 16384 (R112). -/
def dist (a b : Seq) : Nat := (a - b).toNat

/-- `a` is ahead of `b`: the distance is 1-8191 (R112). -/
def ahead (a b : Seq) : Bool := 1 ≤ dist a b && dist a b ≤ 8191

/-- `n` brought into the range `lo`-`hi` (Conventions, Arithmetic). -/
def clampTo (lo hi n : Nat) : Nat := if n < lo then lo else if hi < n then hi else n

/-- Whole microseconds in `n` milliseconds. -/
def ms (n : Nat) : Nat := n * 1000

/-- Whole microseconds in `n` seconds. -/
def seconds (n : Nat) : Nat := n * 1000000

/-- The most significant and the least significant octet of a 16-bit number, in the order sent. -/
def octets16 (w : BitVec 16) : List Octet := [w.extractLsb' 8 8, w.extractLsb' 0 8]

/-- The six octets of an Ethernet address, in the order sent. -/
def octets48 (a : Addr) : List Octet :=
  [a.extractLsb' 40 8, a.extractLsb' 32 8, a.extractLsb' 24 8,
   a.extractLsb' 16 8, a.extractLsb' 8 8, a.extractLsb' 0 8]

/-- The number that a run of octets spells, most significant octet first. -/
def bigEndian (os : List Octet) : Nat := os.foldl (fun n o => n * 256 + o.toNat) 0

end Sys2Proof
end

