-- ==== Sys2Proof/Syntax.lean ====
section
/-! DEFINITION. The commands of the GK8, one constructor of `Instr` for each row of
spec/opcode_table.json, and the types of their operands. The table's rows carry no fields, so the
operands are those that the row's rules read (log entry 1). -/

namespace Sys2Proof

/-- The end of the bond that a part plays. -/
inductive Role where
  | cabinet | homestead
deriving DecidableEq, Repr

/-- The path by which a request reaches the management agent (R183). -/
inductive ServicePath where
  | trunk | bond
deriving DecidableEq, Repr

/-- The allotment of a pair (1.1). -/
inductive Allotment where
  | bond | reserved
deriving DecidableEq, Repr

/-- The values of the *gate window* setting (4.1). -/
inductive GateWindow where
  | ms2 | ms8 | ms16 | trained
deriving DecidableEq, Repr

/-- The notice path (11.1). -/
inductive NoticePath where
  | trunk | bond
deriving DecidableEq, Repr

/-- The level of a notice source (11.1). -/
inductive Level where
  | urgent | routine
deriving DecidableEq, Repr

/-- The eleven notice sources (11.1), in the order of their numbers. -/
inductive Source where
  | restarted | pairDown | pairBarred | pairUp | provingDone | strike | wakeError
  | tableMatch | epochChanged | queueDrop | gapLoss
deriving DecidableEq, Repr

/-- The kinds of a sort table entry (R47). -/
inductive EntryKind where
  | unused | link | net | port
deriving DecidableEq, Repr

/-- The side of a frame that a match field is compared with (R46). -/
inductive Side where
  | source | destination
deriving DecidableEq, Repr

/-- The port modes of a PORT entry (R51). -/
inductive PortMode where
  | off | either | inside | outside
deriving DecidableEq, Repr

/-- The urgency modes of an action (R54). -/
inductive UrgencyMode where
  | keep | raise | lower | set
deriving DecidableEq, Repr

/-- The map modes of an action (R55). -/
inductive MapMode where
  | keep | union | intersect | replace
deriving DecidableEq, Repr

/-- The full resets that begin and complete by a physical event (R194). -/
inductive PhysicalReset where
  | powerOn | supplyLow | pin
deriving DecidableEq, Repr

/-- The actions of PAIR-COMMAND (R20). -/
inductive PairAction where
  | admitPair | withdraw | bar | clear | prove | release | reset | wake
deriving DecidableEq, Repr

/-- One item of a WRITE-SETTINGS of the BOND group. A value outside an enumeration is `none`. -/
inductive BondItem where
  | aliveInterval (n : Nat)
  | supervisionMultiple (n : Nat)
  | autoProve (v : Option Bool)
  | barOnFail (v : Option Bool)
  | gateWindow (v : Option GateWindow)
  | classOrderCode (n : Nat)
  | wakeThreshold (n : Nat)
  | stepTimeout (n : Nat)
  | quietProbe (n : Nat)
  | wakeLimit (n : Nat)
  | wakeErrorLimit (n : Nat)
  | minimumAwake (n : Nat)
  | stationAddress (a : Addr)
  | trunkWrites (v : Option Bool)
  | bondWrites (v : Option Bool)
deriving DecidableEq, Repr

/-- One item of a WRITE-SETTINGS of a CLASS group. A default map names pairs, any of which may be
above 7 and is then refused (R189 b). -/
inductive ClassItem where
  | classLimit (n : Nat)
  | fragmentSize (n : Nat)
  | spill (v : Option Bool)
  | defaultMap (pairs : List Nat)
  | quota (n : Nat)
  | holdTime (n : Nat)
deriving DecidableEq, Repr

/-- One item of a WRITE-SETTINGS of a PAIR group. -/
inductive PairItem where
  | allotment (v : Option Allotment)
  | errorPeriod (n : Nat)
  | errorLimit (n : Nat)
  | strikeLimit (n : Nat)
  | settlePeriod (n : Nat)
  | delayFigure (n : Nat)
  | echoConsent (v : Option Bool)
  | quietWait (n : Nat)
deriving DecidableEq, Repr

/-- One item of a WRITE-SETTINGS of the NOTICE group. The destination NONE is `none`. -/
inductive NoticeItem where
  | destination (a : Option Addr)
  | path (v : Option NoticePath)
  | enable (src : Source) (v : Option Bool)
  | level (src : Source) (v : Option Level)
deriving DecidableEq, Repr

/-- The body of a WRITE-SETTINGS: a group, its index and a list of items. -/
inductive SettingsWrite where
  | bond (items : List BondItem)
  | cls (c : Octet) (items : List ClassItem)
  | pair (p : Octet) (items : List PairItem)
  | notice (items : List NoticeItem)
  | unknown (group : Octet)
deriving DecidableEq, Repr

/-- The group named by a READ-SETTINGS. -/
inductive SettingsGroup where
  | bond
  | cls (c : Octet)
  | pair (p : Octet)
  | notice
  | unknown (group : Octet)
deriving DecidableEq, Repr

/-- The group named by a READ-COUNTERS. -/
inductive CounterGroup where
  | trunk
  | cls (c : Octet)
  | pair (p : Octet)
  | unknown (group : Octet)
deriving DecidableEq, Repr

/-- The 25 fields of a sort table entry that can be staged (R59), in the order of R46. -/
inductive Field where
  | kind | primary | companions | linkAddress | linkSide | linkTest | frameType | frameTypeTest
  | vlanId | vlanTest | netAddress | netMask | netSide | protocol | protocolTest | portMode
  | portMin | portMax | portSide | cls | urgencyMode | urgencyValue | mapMode | pairMap | threshold
deriving DecidableEq, Repr

/-- One item of a TABLE-STAGE: a field name and a value, which may lie outside the field's values.
A name that is no field of the image is `unknown`. -/
inductive StageItem where
  | kind (v : Option EntryKind)
  | primary (v : Option Bool)
  | companions (indices : List Nat)
  | linkAddress (a : Addr)
  | linkSide (v : Option Side)
  | linkTest (v : Option Bool)
  | frameType (n : Nat)
  | frameTypeTest (v : Option Bool)
  | vlanId (n : Nat)
  | vlanTest (v : Option Bool)
  | netAddress (a : BitVec 32)
  | netMask (a : BitVec 32)
  | netSide (v : Option Side)
  | protocol (n : Nat)
  | protocolTest (v : Option Bool)
  | portMode (v : Option PortMode)
  | portMin (n : Nat)
  | portMax (n : Nat)
  | portSide (v : Option Side)
  | cls (n : Nat)
  | urgencyMode (v : Option UrgencyMode)
  | urgencyValue (n : Nat)
  | mapMode (v : Option MapMode)
  | pairMap (pairs : List Nat)
  | threshold (n : Nat)
  | unknown (name : Octet)
deriving DecidableEq, Repr

/-- The body of a request, as the run of named fields that section 10.3 gives for its kind. -/
inductive ReqBody where
  | readIdentity
  | readSettings (g : SettingsGroup)
  | writeSettings (w : SettingsWrite)
  | readPair (p : Octet)
  | pairCommand (p : Octet) (action : Option PairAction)
  | tableStage (items : List StageItem)
  | tableCommit (i : Octet)
  | tableFetch (i : Octet)
  | tableClear (i : Octet)
  | readStage
  | readTableCounters
  | readCounters (g : CounterGroup) (clear : Bool)
  | readNotices
  | clearNotices (sources : List Nat)
  | bondRestart
  | resetPart
  /-- A request whose kind field is `kind` and whose body gives none of the forms above. -/
  | raw (kind : Octet)
deriving DecidableEq, Repr

/-- What the agent reads of a request besides its kind and body: the service path, the source
address, the version, the tag, the body length field, the octets present after the fixed part and
whether the body has the form that its kind requires (R184 b and d). -/
structure ReqHead where
  path    : ServicePath
  source  : Addr
  version : Octet
  tag     : BitVec 16
  bodyLen : Nat
  present : Nat
  formed  : Bool
deriving DecidableEq, Repr

/-- The fields read of a good DATA fragment (R24). The class field is two bits wide on the line. -/
structure DataFields where
  epoch   : Epoch
  cls     : BitVec 2
  seq     : Seq
  first   : Bool
  last    : Bool
  payload : List Octet
deriving DecidableEq, Repr

/-- The fields read of every good control fragment: its epoch and its payload length. -/
structure CtlHead where
  epoch : Epoch
  len   : Nat
deriving DecidableEq, Repr

/-- The payload of a JOIN (R26): role code, pair number and FRESH flag, as carried. -/
structure JoinFields where
  role  : Octet
  pair  : Octet
  fresh : Bool
deriving DecidableEq, Repr

/-- The payload of an ALIVE (R26): one horizon of two octets for each class, as carried. -/
structure AliveFields where
  h0 : BitVec 16
  h1 : BitVec 16
  h2 : BitVec 16
deriving DecidableEq, Repr

/-- The payload of a PROVE-END (R26): the verdict code and the delay figure, as carried. -/
structure EndFields where
  verdict : Octet
  delay   : BitVec 16
deriving DecidableEq, Repr

/-- A PROVE-PATTERN or PROVE-ECHO: the epoch, the step index in the sequence field, the octets. -/
structure ProbeFields where
  epoch  : Epoch
  step   : Seq
  octets : List Octet
deriving DecidableEq, Repr

/-- The commands: one constructor for each row of spec/opcode_table.json, in the table's order. -/
inductive Instr where
  | lineUp (p : PairNo) (rate : Nat)
  | lineDown (p : PairNo)
  | handoverComplete (p : PairNo)
  | damaged (p : PairNo)
  | unknownKind (p : PairNo) (kind : BitVec 4) (len : Nat)
  | data (p : PairNo) (f : DataFields)
  | join (p : PairNo) (h : CtlHead) (j : JoinFields)
  | alive (p : PairNo) (h : CtlHead) (a : AliveFields)
  | restart (p : PairNo) (h : CtlHead)
  | restartAsk (p : PairNo) (h : CtlHead)
  | quietOffer (p : PairNo) (h : CtlHead)
  | quietAgree (p : PairNo) (h : CtlHead)
  | proveRequest (p : PairNo) (h : CtlHead)
  | proveAccept (p : PairNo) (h : CtlHead)
  | proveDecline (p : PairNo) (h : CtlHead) (reason : Octet)
  | provePattern (p : PairNo) (f : ProbeFields)
  | proveEcho (p : PairNo) (f : ProbeFields)
  | proveEnd (p : PairNo) (h : CtlHead) (e : EndFields)
  | supervisionExpiry (p : PairNo)
  | errorPeriodEnd (p : PairNo)
  | settleTimerExpiry (p : PairNo)
  | aliveTimerExpiry (p : PairNo)
  | gateWindowEnd (p : PairNo)
  | answerTimerExpiry
  | stepTimerExpiry
  | haltTimerExpiry (p : PairNo)
  | askTimerExpiry
  | holdTimerExpiry (c : ClassNo)
  | idleTimerExpiry (p : PairNo)
  | offerTimerExpiry (p : PairNo)
  | probeTimerExpiry (p : PairNo)
  | wakeTimeout (p : PairNo)
  | resetWaitExpiry
  | trunkFrameIn (f : Frame)
  | trunkReady
  | trunkSendComplete (ready : Bool)
  | readIdentity (q : ReqHead)
  | badKind (q : ReqHead) (kind : Octet)
  | readSettings (q : ReqHead) (g : SettingsGroup)
  | writeSettings (q : ReqHead) (w : SettingsWrite)
  | allotmentWrite (q : ReqHead) (p : Octet) (v : Option Allotment)
  | quotaWrite (q : ReqHead) (c : Octet) (n : Nat)
  | gateWindowWrite (q : ReqHead) (v : Option GateWindow)
  | quietWaitWrite (q : ReqHead) (p : Octet) (n : Nat)
  | delayFigureWrite (q : ReqHead) (p : Octet) (n : Nat)
  | wakeThresholdWrite (q : ReqHead) (n : Nat)
  | readPair (q : ReqHead) (p : Octet)
  | admitPair (q : ReqHead) (p : Octet)
  | withdraw (q : ReqHead) (p : Octet)
  | bar (q : ReqHead) (p : Octet)
  | clear (q : ReqHead) (p : Octet)
  | prove (q : ReqHead) (p : Octet)
  | release (q : ReqHead) (p : Octet)
  | reset (q : ReqHead) (p : Octet)
  | wake (q : ReqHead) (p : Octet)
  | tableStage (q : ReqHead) (items : List StageItem)
  | tableCommit (q : ReqHead) (i : Octet)
  | tableFetch (q : ReqHead) (i : Octet)
  | tableClear (q : ReqHead) (i : Octet)
  | readStage (q : ReqHead)
  | readTableCounters (q : ReqHead)
  | readCounters (q : ReqHead) (g : CounterGroup) (clear : Bool)
  | readNotices (q : ReqHead)
  | clearNotices (q : ReqHead) (sources : List Nat)
  | bondRestart (q : ReqHead)
  | resetPart (q : ReqHead)
  | powerOn
  | supplyLow
  | pin
  | fullResetComplete (cause : PhysicalReset) (role : Role) (straps : BitVec 16)
deriving DecidableEq, Repr

end Sys2Proof
end

