-- ==== Sys2Proof/Decode.lean ====
section
/-! DEFINITION. The reading of a table word as a command. No row of spec/opcode_table.json gives its command any
bits: the commands are events at the part's ports and requests, whose own layouts (R195, R196) are read in
Machine/Fragment.lean and Machine/Management.lean. So no word spells a command. -/

namespace Sys2Proof

/-- The command that a word of the table spells: none, since the table's rows carry no bits.
DESIGN CHOICE: log entry 34. -/
def decodeTableWord (_nbits _w : Nat) : Option Instr := none

end Sys2Proof
end

