-- ==== Sys2Proof/Machine/State.lean ====
section
/-! DEFINITION. The state of the GK8 as plain data, block by block, and its values after reset. The
backlog B (R80), the waiting octets (R102), the holdings (R85) and the free slots are sums over what
is stored here and are computed in Machine/Ops.lean, never stored a second time. -/

namespace Sys2Proof.Machine
open Sys2Proof

/-! ## Time -/

/-- A running timer: the moment it started and its duration, in microseconds of `State.now`. A
stopped timer is the absence of one. -/
structure Timer where
  start : Nat
  dur   : Nat
deriving DecidableEq, Repr

/-! ## Fragments -/

/-- The link control kinds that wait in the pending control set: kinds 1-9 and 12 (R26, R29). -/
inductive Ctl where
  | join | alive | restart | restartAsk | quietOffer | quietAgree
  | proveRequest | proveAccept | proveDecline | proveEnd
deriving DecidableEq, Repr

/-- The verdicts of a PROVE-END (R26). -/
inductive Verdict where
  | passed | failed | aborted | released
deriving DecidableEq, Repr

/-- The reasons of a PROVE-DECLINE (R26). -/
inductive DeclineReason where
  | noConsent | state | crossedWin
deriving DecidableEq, Repr

/-- A fragment as formed or received: the header fields of R24 and the payload. -/
structure Fragment where
  kind    : BitVec 4
  epoch   : Epoch
  first   : Bool
  last    : Bool
  cls     : BitVec 2
  seq     : Seq
  payload : List Octet
deriving DecidableEq, Repr

/-- The handover in progress on a pair (R4): the fragment formed at its start and its check word. -/
structure Handover where
  frag  : Fragment
  check : BitVec 16
deriving DecidableEq, Repr

/-- An entry of a transmit queue: the descriptor of R1 and R93 c. -/
structure Desc where
  cls        : ClassNo
  seq        : Seq
  first      : Bool
  last       : Bool
  payload    : List Octet
  allowed    : PairMap
  resetReply : Bool
deriving DecidableEq, Repr

/-- The message waiting in a prove slot (R31): a pattern, or an echo when `echo` is set. -/
structure ProveMsg where
  echo   : Bool
  step   : Fin 16
  octets : List Octet
deriving DecidableEq, Repr

/-! ## Pair units -/

/-- The ten pair states (1.5). -/
inductive PairState where
  | absent | down | standby | proving | halted | joining | serving | quiet | waking | barred
deriving DecidableEq, Repr

/-- The controls that a pair unit gives its transceiver (R3). -/
inductive Control where
  | train | retrain | lowPower | wake | holdOff
deriving DecidableEq, Repr

/-- The meaning of a running supervision timer (R10). -/
inductive SupMeaning where
  | heard | probe | wakeTimeout
deriving DecidableEq, Repr

/-- The cause of a wake (R170); NONE is the absence of one. -/
inductive WakeCause where
  | demand | probe | command | line
deriving DecidableEq, Repr

/-- The PAIR p settings (10.5), but for the delay figure, which is the record's D (R75, R189). -/
structure PairSettings where
  allotment    : Allotment := .bond
  /-- milliseconds -/
  errorPeriod  : Nat := 1000
  errorLimit   : Nat := 20
  strikeLimit  : Nat := 3
  /-- seconds -/
  settlePeriod : Nat := 600
  echoConsent  : Bool := true
  /-- units of 100 ms -/
  quietWait    : Nat := 3000
deriving DecidableEq, Repr

/-- The pair counters, in the order of R19, R26, R27, R82, R169 and R182. -/
structure PairCounters where
  fragOut           : Count := 0
  octetOut          : Count := 0
  fragIn            : Count := 0
  octetIn           : Count := 0
  damaged           : Count := 0
  cutOff            : Count := 0
  movedDiscard      : Count := 0
  flushed           : Count := 0
  lineUp            : Count := 0
  lineDown          : Count := 0
  supervisionExpiry : Count := 0
  strike            : Count := 0
  epochMismatch     : Count := 0
  unknownKind       : Count := 0
  notServing        : Count := 0
  wakeError         : Count := 0
  badField          : Count := 0
  roleClash         : Count := 0
  rateSample        : Count := 0
  rateHold          : Count := 0
  proveStray        : Count := 0
  quietEntry        : Count := 0
  wakeDone          : Count := 0
deriving DecidableEq, Repr

/-- The status of a proving record (R153). -/
inductive ProveStatus where
  | never | requesting | running | passed | failed | aborted
deriving DecidableEq, Repr

/-- The cause of an abort (R165); NONE is the absence of one. -/
inductive AbortCause where
  | line | write | released | crossed | declined | noAnswer
deriving DecidableEq, Repr

/-- The kind of a failed step (R153). -/
inductive FailKind where
  | mismatch | timeout | damaged
deriving DecidableEq, Repr

/-- The first failure of a run (R153, R159 b). -/
structure FirstFailure where
  step     : Fin 16
  kind     : FailKind
  offset   : Option Nat
  expected : Option Octet
  received : Option Octet
deriving DecidableEq, Repr

/-- A verdict with a delay figure: the content of a PROVE-END (R162). -/
structure EndContent where
  verdict : Verdict
  delay   : Nat
deriving DecidableEq, Repr

/-- The proving record of a pair (R153), at its full reset values. -/
structure ProvingRecord where
  status        : ProveStatus := .never
  abortCause    : Option AbortCause := none
  declineReason : Option DeclineReason := none
  stepsDone     : Nat := 0
  failures      : Nat := 0
  firstFailure  : Option FirstFailure := none
  minTrip       : Option Nat := none
  maxTrip       : Option Nat := none
  resultD       : Option Nat := none
  lastVerdict   : Option Verdict := none
  receivedD     : Option Nat := none
  endSlot       : Option EndContent := none
deriving DecidableEq, Repr

/-- A pair unit: the pair record (R6), the transmit queue (R1), the pending control set and the prove
slot (R29, R31), the rate gauge (R68), the quiet state (R170), the proving record, the settings and
the counters of the pair. Each default is the value after a full reset. -/
structure PairUnit where
  state        : PairState := .down
  /-- The line flag: up when set. -/
  line         : Bool := false
  /-- kb/s -/
  trained      : Nat := 0
  /-- The smoothed rate R, octets per millisecond. -/
  rate         : Nat := 0
  /-- The delay figure D, microseconds. -/
  delay        : Nat := 0
  farPair      : Option PairNo := none
  farRole      : Option Role := none
  supervision  : Option (SupMeaning × Timer) := none
  errCount     : Nat := 0
  /-- The running error period (R14). -/
  errTimer     : Option Timer := none
  strikes      : Nat := 0
  settleTimer  : Option Timer := none
  wakeErrors   : Nat := 0
  noQuiet      : Bool := false
  offering     : Bool := false
  proveWanted  : Bool := false
  /-- seconds since the last full reset -/
  quietEntry   : Nat := 0
  idleTimer    : Option Timer := none
  idle         : Bool := false
  offerSpent   : Bool := false
  offerTimer   : Option Timer := none
  wakeCause    : Option WakeCause := none
  /-- microseconds since the last full reset -/
  wakeStart    : Nat := 0
  aliveTimer   : Option Timer := none
  haltTimer    : Option Timer := none
  /-- The transmit queue, head first. -/
  queue        : List Desc := []
  /-- The pending control set, in increasing kind number, no kind twice. -/
  ctl          : List Ctl := []
  /-- The reason that a pending PROVE-DECLINE carries. -/
  declineOut   : Option DeclineReason := none
  proveSlot    : Option ProveMsg := none
  handover     : Option Handover := none
  /-- The running gate window. -/
  window       : Option Timer := none
  windowCount  : Nat := 0
  busy         : Bool := false
  record       : ProvingRecord := {}
  /-- The control last given to the transceiver. -/
  control      : Control := .train
  cfg          : PairSettings := {}
  n            : PairCounters := {}
deriving DecidableEq, Repr

/-! ## Classes: distributor, collector and reassembler -/

/-- The CLASS c settings (10.5). -/
structure ClassSettings where
  classLimit   : Nat
  fragmentSize : Nat
  spill        : Bool
  defaultMap   : PairMap
  quota        : Nat
  /-- milliseconds -/
  holdTime     : Nat
deriving DecidableEq, Repr

/-- The class counters, in the order of R108, R132 and R141. -/
structure ClassCounters where
  admitted   : Count := 0
  queueDrop  : Count := 0
  noPath     : Count := 0
  spill      : Count := 0
  wakeAsk    : Count := 0
  fragPlaced : Count := 0
  moved      : Count := 0
  flushed    : Count := 0
  accepted   : Count := 0
  released   : Count := 0
  late       : Count := 0
  beyond     : Count := 0
  duplicate  : Count := 0
  gapLost    : Count := 0
  holdLoss   : Count := 0
  cleared    : Count := 0
  frameBuilt : Count := 0
  mgmtBond   : Count := 0
  tornFrame  : Count := 0
  lostFrame  : Count := 0
  oversize   : Count := 0
  orphan     : Count := 0
  skipped    : Count := 0
  emptyFrame : Count := 0
deriving DecidableEq, Repr

/-- A frame record of the frame buffer (R84). The class and the standing are the place it is held in:
the queue of its class (QUEUED) or the class's frame in progress. -/
structure FrameRec where
  octets     : Frame
  urgency    : Nat
  map        : PairMap
  order      : Nat
  resetReply : Bool
deriving DecidableEq, Repr

/-- A frame in progress (R90). -/
structure InProgress where
  frame  : FrameRec
  size   : Nat
  offset : Nat
deriving DecidableEq, Repr

/-- A held fragment of the reorder store (R113); its class is the context that holds it. -/
structure Held where
  seq     : Seq
  first   : Bool
  last    : Bool
  payload : List Octet
deriving DecidableEq, Repr

/-- A reassembly context (R135). The partial frame exists in BUILDING alone. -/
inductive Reasm where
  | idle
  | building (partialFrame : List Octet)
  | discarding
deriving DecidableEq, Repr

/-- The state of a reassembly context, without its partial frame (R135). -/
inductive ReasmState where
  | idle | building | discarding
deriving DecidableEq, Repr

/-- What the distributor, the collector and the reassembler keep for one class. -/
structure ClassUnit where
  cfg      : ClassSettings
  /-- The class queue, head first (R85). -/
  queue    : List FrameRec := []
  current  : Option InProgress := none
  /-- The distributor's next sequence (R93). -/
  nextSeq  : Seq := 0
  /-- The collector's next (R114). -/
  next     : Seq := 0
  held     : List Held := []
  horizons : Vector (Option Seq) 8 := Vector.replicate 8 none
  hold     : Option Timer := none
  reasm    : Reasm := .idle
  n        : ClassCounters := {}
deriving DecidableEq, Repr

/-! ## Bond controller and proving engine -/

/-- The bond controller (R38). -/
structure BondCtl where
  role     : Role
  /-- NONE, at a HOMESTEAD alone, is `none`. -/
  epoch    : Option Epoch
  carried  : Bool := false
  /-- The restart state: ASKING when set, IDLE when clear. -/
  asking   : Bool := false
  askTimer : Option Timer := none
deriving DecidableEq, Repr

/-- The run of the proving engine (R150). -/
structure Run where
  pair        : PairNo
  /-- The stage: RUNNING when set, REQUESTING when clear. -/
  running     : Bool
  step        : Fin 16
  outstanding : Bool
  /-- The handover start of the current step's pattern, microseconds. -/
  started     : Option Nat
  answerTimer : Option Timer
  stepTimer   : Option Timer
deriving DecidableEq, Repr

/-! ## Classifier -/

/-- The 25 fields of a sort table entry that can be staged (R46), at their blank values. -/
structure EntryFields where
  kind          : EntryKind := .unused
  primary       : Bool := false
  companions    : EntrySet := 0
  linkAddress   : Addr := 0
  linkSide      : Side := .destination
  linkTest      : Bool := false
  frameType     : Nat := 0
  frameTypeTest : Bool := false
  vlanId        : Nat := 0
  vlanTest      : Bool := false
  netAddress    : BitVec 32 := 0
  netMask       : BitVec 32 := 0
  netSide       : Side := .destination
  protocol      : Nat := 0
  protocolTest  : Bool := false
  portMode      : PortMode := .off
  portMin       : Nat := 0
  portMax       : Nat := 0
  portSide      : Side := .destination
  cls           : Nat := 2
  urgencyMode   : UrgencyMode := .keep
  urgencyValue  : Nat := 0
  mapMode       : MapMode := .keep
  pairMap       : PairMap := 0
  threshold     : Nat := 0
deriving DecidableEq, Repr

/-- A sort table entry: its fields and its match counter (R46). -/
structure Entry where
  f       : EntryFields := {}
  matched : Nat := 0
deriving DecidableEq, Repr

/-- The classifier: the sort table (R46) and the staging record (R59). -/
structure Classifier where
  table  : Vector Entry 32 := Vector.replicate 32 {}
  image  : EntryFields := {}
  /-- The enable set, no name twice, in the order of first staging. -/
  enable : List Field := []
deriving DecidableEq, Repr

/-! ## Notices -/

/-- The cause of a full reset (R194). -/
inductive ResetCause where
  | powerOn | supplyLow | pin | management
deriving DecidableEq, Repr

/-- A notice argument: the two octets of R198. -/
structure NoticeArg where
  hi : Octet
  lo : Octet
deriving DecidableEq, Repr

/-- A notice source: its settings (11.1) and its state (R197). -/
structure SourceUnit where
  enable  : Bool := true
  level   : Level := .routine
  isPending : Bool := false
  due     : Bool := false
  repeats : Nat := 0
  arg     : Option NoticeArg := none
deriving DecidableEq, Repr

/-- The reset cause record (R201). -/
structure CauseRecord where
  last       : ResetCause
  powerOn    : Nat
  supplyLow  : Nat
  pin        : Nat
  management : Nat
deriving DecidableEq, Repr

/-- The notice unit: sources 1-11 at places 0-10, the destination and path settings, the notice
number (R198) and the reset cause record. -/
structure NoticeUnit where
  sources     : Vector SourceUnit 11
  destination : Option Addr := none
  path        : NoticePath := .trunk
  number      : BitVec 16 := 0
  record      : CauseRecord
deriving DecidableEq, Repr

/-! ## Trunk port and management agent -/

/-- The source of a frame in the trunk egress queue (R147). -/
inductive EgressSource where
  | bondTraffic | reply | notice
deriving DecidableEq, Repr

/-- An entry of the trunk egress queue. `resetReply` marks the reply of a RESET-PART, whose report
R193 a waits on. -/
structure EgressEntry where
  frame      : Frame
  source     : EgressSource
  resetReply : Bool
deriving DecidableEq, Repr

/-- The trunk counter group, in the order of R58, R149 and R183. -/
structure TrunkCounters where
  classified    : Count := 0
  noWinner      : Count := 0
  trunkIn       : Count := 0
  trunkOctetIn  : Count := 0
  oversizeIn    : Count := 0
  mgmtIn        : Count := 0
  malformedDrop : Count := 0
  trunkOut      : Count := 0
  trunkOctetOut : Count := 0
  egressFull    : Count := 0
  mgmtServed    : Count := 0
  mgmtDiscard   : Count := 0
deriving DecidableEq, Repr

/-- The trunk port: the egress queue (R147), whether a send is in progress and whether the trunk
interface is ready (R148), and the trunk counters. -/
structure TrunkPort where
  egress  : List EgressEntry := []
  sending : Bool := false
  ready   : Bool := false
  n       : TrunkCounters := {}
deriving DecidableEq, Repr

/-- A request that has reached the agent and waits for its service (R183): in a frame, with the path that it came by,
or as the fields of a request command, whose head names its path. -/
inductive Request where
  | framed (path : ServicePath) (frame : Frame)
  | fields (q : ReqHead) (b : ReqBody)
deriving DecidableEq, Repr

/-- A pending RESET-PART (R193): its service path, the reset wait, and whether the report that ends
the wait has been made. -/
structure PendingReset where
  path     : ServicePath
  wait     : Timer
  reported : Bool
deriving DecidableEq, Repr

/-- The management agent: the requests in arrival order and the pending RESET-PART. -/
structure Agent where
  requests : List Request := []
  reset    : Option PendingReset := none
deriving DecidableEq, Repr

/-- The BOND settings (10.5). -/
structure BondSettings where
  /-- milliseconds -/
  aliveInterval   : Nat := 10
  supervision     : Nat := 4
  autoProve       : Bool
  barOnFail       : Bool := true
  gateWindow      : GateWindow := .ms8
  classOrder      : Nat := 1
  wakeThreshold   : Nat := 4096
  /-- milliseconds -/
  stepTimeout     : Nat := 100
  /-- seconds -/
  quietProbe      : Nat := 60
  /-- milliseconds -/
  wakeLimit       : Nat := 250
  wakeErrorLimit  : Nat := 4
  minimumAwake    : Nat := 1
  stationAddress  : Addr
  trunkWrites     : Bool := true
  bondWrites      : Bool := false
deriving DecidableEq, Repr

/-! ## Replies -/

/-- The reply statuses (10.3). -/
inductive Status where
  | ok | clamped | badKind | badValue | badIndex | busy | notPermitted | provingAborted | malformed
deriving DecidableEq, Repr

/-- The names of the BOND settings. -/
inductive BondName where
  | aliveInterval | supervisionMultiple | autoProve | barOnFail | gateWindow | classOrderCode
  | wakeThreshold | stepTimeout | quietProbe | wakeLimit | wakeErrorLimit | minimumAwake
  | stationAddress | trunkWrites | bondWrites
deriving DecidableEq, Repr

/-- The names of the CLASS settings. -/
inductive ClassName where
  | classLimit | fragmentSize | spill | defaultMap | quota | holdTime
deriving DecidableEq, Repr

/-- The names of the PAIR settings. -/
inductive PairName where
  | allotment | errorPeriod | errorLimit | strikeLimit | settlePeriod | delayFigure | echoConsent
  | quietWait
deriving DecidableEq, Repr

/-- The names of the NOTICE settings. -/
inductive NoticeName where
  | destination | path | enable (src : Source) | level (src : Source)
deriving DecidableEq, Repr

/-- A setting's name, in any group. -/
inductive SettingName where
  | bond (n : BondName)
  | cls (n : ClassName)
  | pair (n : PairName)
  | notice (n : NoticeName)
deriving DecidableEq, Repr

/-- The four commit checks a.-d. of R61. -/
inductive CommitCheck where
  | unusedPrimary | ownCompanion | portRange | classThree
deriving DecidableEq, Repr

/-- What a reply with status BAD-VALUE names (R185): the refused field or the failed check. -/
inductive Refused where
  | setting (n : SettingName)
  | field (f : Field)
  | fieldName (name : Octet)
  | check (c : CommitCheck)
  | group
  | action
  | source
deriving DecidableEq, Repr

/-- The report of READ-IDENTITY (10.3, code 1). -/
structure IdentityReport where
  vendor    : Nat := 0x4E4B
  part      : Nat := 0x6708
  revision  : Nat := 1
  role      : Role
  station   : Addr
  epoch     : Option Epoch
  carried   : Bool
  asking    : Bool
  record    : CauseRecord
deriving DecidableEq, Repr

/-- The counters of the pair record (R19), which READ-PAIR reports with it (R6). -/
structure RecordCounters where
  fragOut           : Count
  octetOut          : Count
  fragIn            : Count
  octetIn           : Count
  damaged           : Count
  cutOff            : Count
  movedDiscard      : Count
  flushed           : Count
  lineUp            : Count
  lineDown          : Count
  supervisionExpiry : Count
  strike            : Count
  epochMismatch     : Count
  unknownKind       : Count
  notServing        : Count
  wakeError         : Count
deriving DecidableEq, Repr

/-- The report of READ-PAIR (10.3, code 4): every field of the pair record (R6) and of the quiet state (R170), the
proving record with its end slot (R153), and the horizon in each class (R134). The gauge's window, count and busy
flag are not reported (R68). -/
structure PairReport where
  state        : PairState
  line         : Bool
  trained      : Nat
  rate         : Nat
  backlog      : Nat
  delay        : Nat
  farPair      : Option PairNo
  farRole      : Option Role
  /-- stopped, or running with its meaning -/
  supervision  : Option SupMeaning
  errCount     : Nat
  strikes      : Nat
  /-- the settle timer runs -/
  settling     : Bool
  wakeErrors   : Nat
  noQuiet      : Bool
  offering     : Bool
  proveWanted  : Bool
  quietEntry   : Nat
  counters     : RecordCounters
  /-- stopped, or running with its duration in microseconds -/
  idleTimer    : Option Nat
  idle         : Bool
  offerSpent   : Bool
  /-- the offer timer runs -/
  offerRunning : Bool
  wakeCause    : Option WakeCause
  wakeStart    : Nat
  record       : ProvingRecord
  horizons     : List (Option Seq)
deriving DecidableEq, Repr

/-- The present values that READ-COUNTERS reports of a class (R109, R134, R135). The time remaining on
the hold timer is in milliseconds. Of the reassembly context it reports the state and the number of octets of the
partial frame, and none of those octets (R190). -/
structure ClassPresent where
  queued     : Nat
  holding    : Nat
  waiting    : Nat
  progress   : Option (Nat × Nat × Nat × PairMap)
  nextSeq    : Seq
  next       : Seq
  held       : Nat
  gap        : Bool
  holdRemain : Option Nat
  horizons   : Vector (Option Seq) 8
  reasm      : ReasmState
  octets     : Nat
deriving DecidableEq, Repr

/-- The named fields of a reply body (10.3). -/
inductive ReplyBody where
  | empty
  | identity (r : IdentityReport)
  | bondSettings (b : BondSettings)
  | classSettings (b : ClassSettings)
  | pairSettings (b : PairSettings) (delay : Nat)
  | noticeSettings (destination : Option Addr) (path : NoticePath) (sources : List (Bool × Level))
  | clampedNames (names : List SettingName)
  | refused (r : Refused)
  | pair (r : PairReport)
  | enableSet (names : List Field)
  | image (f : EntryFields)
  | stage (f : EntryFields) (names : List Field)
  | tableCounters (rows : List (EntryKind × Bool × Nat × Nat))
  | trunkCounters (n : TrunkCounters) (egress : Nat)
  | classCounters (n : ClassCounters) (v : ClassPresent)
  | pairCounters (n : PairCounters)
  | notices (u : NoticeUnit)
deriving DecidableEq, Repr

/-- A reply as the agent forms it (R185), with its service path. -/
structure Reply where
  path        : ServicePath
  destination : Addr
  source      : Addr
  kind        : Octet
  tag         : BitVec 16
  status      : Status
  body        : ReplyBody
deriving DecidableEq, Repr

/-! ## What the part puts out -/

/-- What the part puts out at its ports, and the replies and notices it forms, in order. -/
inductive Output where
  | control (p : PairNo) (c : Control)
  | handover (p : PairNo) (h : Handover)
  | cutOff (p : PairNo)
  | trunkSend (f : Frame)
  | trunkCut
  | reply (r : Reply)
  | notice (src : Source) (f : Frame)
deriving DecidableEq, Repr

/-! ## Reset in progress -/

/-- The physical resets that have begun and not completed, and the cause that began last (R194). -/
structure ResetProgress where
  powerOn   : Bool := false
  supplyLow : Bool := false
  pin       : Bool := false
  last      : ResetCause := .powerOn
deriving DecidableEq, Repr

/-! ## The state -/

/-- The whole part. -/
structure State where
  /-- The model's clock: microseconds since the completion of the last full reset (log entry 2). -/
  now         : Nat
  /-- The role strap, as last read (R194). -/
  strapRole   : Role
  /-- The sixteen station-address straps, as last read (R146). -/
  straps      : BitVec 16
  /-- How often a MANAGEMENT reset has read the straps (log entry 4). -/
  strapReads  : Nat
  resets      : ResetProgress
  pairs       : Vector PairUnit 8
  classes     : Vector ClassUnit 3
  /-- The admission order given to the next admitted frame (R84). -/
  nextOrder   : Nat
  bond        : BondCtl
  /-- The run of the proving engine; the engine is free when there is none (R150). -/
  engine      : Option Run
  classifier  : Classifier
  trunk       : TrunkPort
  agent       : Agent
  cfg         : BondSettings
  notices     : NoticeUnit
  /-- What the last command put out, first first (log entry 3). -/
  out         : List Output
  /-- The commands that wait, first in, first out. -/
  pending     : List Instr
deriving DecidableEq, Repr

/-- The faults of the model. There is none: the manual names no event that stops the part, so no
command ends in a fault. -/
inductive Fault where
deriving DecidableEq, Repr

/-- The refusals of the model. `notModelled` is raised by the dispatch alone, for a command that has no
meaning yet; it is safe, since the model stops there. -/
inductive Refusal where
  | notModelled (mnemonic : String)
deriving DecidableEq, Repr

/-! ## Values after a full reset -/

/-- The defaults of the CLASS c settings (10.5). -/
def ClassSettings.default (c : ClassNo) : ClassSettings :=
  match c with
  | 0 => { classLimit := 32, fragmentSize := 128, spill := true, defaultMap := everyPair
           quota := 128, holdTime := 20 }
  | 1 => { classLimit := 48, fragmentSize := 256, spill := true, defaultMap := everyPair
           quota := 192, holdTime := 40 }
  | 2 => { classLimit := 96, fragmentSize := 512, spill := false, defaultMap := everyPair
           quota := 448, holdTime := 250 }

/-- The station address that the straps give: 0A-4E-4B-00-ss-ss (R146 a). -/
def strapAddress (straps : BitVec 16) : Addr := (0x0A4E4B00#32) ++ straps

/-- The three classes after a full reset. -/
def ClassUnit.resetAll : Vector ClassUnit 3 :=
  #v[{ cfg := .default 0 }, { cfg := .default 1 }, { cfg := .default 2 }]

/-- The eleven sources after a full reset, at their default levels (11.1), none pending. -/
def SourceUnit.resetAll : Vector SourceUnit 11 :=
  #v[{ level := .urgent }, { level := .urgent }, { level := .urgent }, {}, {}, {}, {}, {}, {}, {}, {}]

/-- The part with every block at its full reset values, the straps read, the reset cause record as
given and RESTARTED not yet raised (R194). The waiting commands and the count of strap readings are kept: they
are outside the part. DESIGN CHOICE: log entry 30. -/
def State.blank (role : Role) (straps : BitVec 16) (reads : Nat) (record : CauseRecord)
    (pending : List Instr) : State where
  now := 0
  strapRole := role
  straps := straps
  strapReads := reads
  resets := {}
  pairs := Vector.replicate 8 {}
  classes := ClassUnit.resetAll
  nextOrder := 0
  bond := { role := role, epoch := if role = .cabinet then some 0 else none }
  engine := none
  classifier := {}
  trunk := {}
  agent := {}
  cfg := { autoProve := role = .cabinet, stationAddress := strapAddress straps }
  notices := { sources := SourceUnit.resetAll, record := record }
  out := []
  pending := pending

/-- The part right after the completion of a POWER-ON reset (R194, R201), with the role strap at CABINET
and the address straps at 0x0000 (log entry 4), RESTARTED pending and due with cause POWER-ON, and
no command waiting. -/
def State.reset : State :=
  let s := State.blank .cabinet 0 0
    { last := .powerOn, powerOn := 1, supplyLow := 0, pin := 0, management := 0 } []
  { s with notices := { s.notices with
      sources := s.notices.sources.set 0
        { level := .urgent, isPending := true, due := true, arg := some { hi := 0, lo := 0 } } } }

end Sys2Proof.Machine
end

