-- ==== Sys2Proof/Config.lean ====
section
/-! DEFINITION. What the manual leaves open, as constants without a body: nothing can be proved of
their values, so a statement that holds of the model holds whatever they are. -/

namespace Sys2Proof

/-- The octets of a reply body. The manual gives bodies as named fields and fixes no octets for them
(10.3, 10.7). Free value: log entry 5. -/
opaque Config.bodyOctets : Machine.ReplyBody → List Octet

/-- The fields that a request body of a kind spells, or none when it has not the form that the kind
requires (R184 d). The manual fixes no octets for them. Free value: log entry 5. -/
opaque Config.readBody : Octet → List Octet → Option ReqBody

/-- The two payload octets of a JOIN for a sender role, pair number and FRESH flag: R26 gives the fields
and the length of 2, and no places in the two octets. Free value: log entry 6. -/
opaque Config.joinOctets : Role → PairNo → Bool → Octet × Octet

/-- The round trip of a step whose good echo is taken before its pattern's handover has begun, for
the time at which it is taken: R159 a measures from a handover start that does not exist. Free
value: log entry 7. -/
opaque Config.tripWithoutStart : Nat → BitVec 16

/-- The quiet-entry time when the seconds since the last full reset pass its range (R6). Free value:
log entry 8. -/
opaque Config.quietEntryBeyond : Nat → BitVec 32

/-- Whether a PROVE-DECLINE that is still pending carries the later reason after it has been raised again
with another one: R29 says that the second raise changes nothing, R30 that the payload is formed
from the state at the handover. For the first reason and the second. Free value: log entry 9. -/
opaque Config.declineTakesLater : Machine.DeclineReason → Machine.DeclineReason → Bool

/-- Whether the role strap stands at HOMESTEAD when a MANAGEMENT reset reads it, by the number of such readings before:
the straps are inputs of the part, and no command presents them there (R194). Free value: log entry 4. -/
opaque Config.strappedHomestead : Nat → Bool

/-- The station-address straps as a MANAGEMENT reset reads them, by the number of such readings before (R194). Free
value: log entry 4. -/
opaque Config.strapsRead : Nat → BitVec 16

/-- Whether a time remaining on a hold timer that is no whole number of milliseconds is reported rounded up, for
its microseconds: R134 states no rounding. Free value: log entry 25. -/
opaque Config.roundsUp : Nat → Bool

end Sys2Proof
end

