-- ==== Sys2Proof/Machine/Ops.lean ====
section
/-! DEFINITION. The shared operations over the state: reading and writing one pair unit or one class,
timers, the outputs, raising a notice source, raising a link control kind, and entering a pair state. -/

namespace Sys2Proof.Machine
open Sys2Proof

/-! ## One pair, one class -/

/-- The pair unit of pair `p`. -/
def State.pair (s : State) (p : PairNo) : PairUnit := s.pairs.get p

/-- The state with pair `p`'s unit changed. -/
def modPair (p : PairNo) (f : PairUnit → PairUnit) (s : State) : State :=
  { s with pairs := s.pairs.set p.val (f (s.pair p)) p.isLt }

/-- What the distributor, collector and reassembler keep for class `c`. -/
def State.cls (s : State) (c : ClassNo) : ClassUnit := s.classes.get c

/-- The state with class `c` changed. -/
def modClass (c : ClassNo) (f : ClassUnit → ClassUnit) (s : State) : State :=
  { s with classes := s.classes.set c.val (f (s.cls c)) c.isLt }

/-- The state with pair `p`'s counters changed. -/
def countPair (p : PairNo) (f : PairCounters → PairCounters) (s : State) : State :=
  modPair p (fun u => { u with n := f u.n }) s

/-- The state with class `c`'s counters changed. -/
def countClass (c : ClassNo) (f : ClassCounters → ClassCounters) (s : State) : State :=
  modClass c (fun u => { u with n := f u.n }) s

/-- The state with the trunk counters changed. -/
def countTrunk (f : TrunkCounters → TrunkCounters) (s : State) : State :=
  { s with trunk := { s.trunk with n := f s.trunk.n } }

/-- The state with the pair numbers in a list treated in turn. -/
def eachPair (ps : List PairNo) (f : PairNo → State → State) (s : State) : State :=
  ps.foldl (fun s p => f p s) s

/-- The state with the three classes treated in turn: 0, 1, 2. Where one event makes the loss tests of all three or
completes frames of several, this is their order. DESIGN CHOICE: log entry 41. -/
def eachClass (f : ClassNo → State → State) (s : State) : State :=
  f 2 (f 1 (f 0 s))

/-! ## Outputs and timers -/

/-- Puts something out. -/
def emit (o : Output) (s : State) : State := { s with out := s.out ++ [o] }

/-- Gives a control to pair `p`'s transceiver (R3). -/
def tell (p : PairNo) (c : Control) (s : State) : State :=
  emit (.control p c) (modPair p (fun u => { u with control := c }) s)

/-- The moment at which a timer's duration has passed. -/
def Timer.deadline (t : Timer) : Nat := t.start + t.dur

/-- The time left on a timer. -/
def Timer.remaining (now : Nat) (t : Timer) : Nat := t.deadline - now

/-- The clock brought up to the moment at which a timer expires: its expiry is taken then or later
(Conventions, Time; log entry 2). -/
def reach (t : Timer) (s : State) : State := { s with now := max s.now t.deadline }

/-! ## What is computed from the record -/

/-- The fragment length L of a transmit queue entry (R1). -/
def Desc.len (e : Desc) : Nat := e.payload.length + 7

/-- The fragment length L of a fragment. -/
def Fragment.len (f : Fragment) : Nat := f.payload.length + 7

/-- The backlog B: the sum of L over the transmit queue (R1, R80). -/
def PairUnit.backlog (u : PairUnit) : Nat := (u.queue.map Desc.len).sum

/-- The heard time: supervision multiple times alive interval (1.1). -/
def BondSettings.heardTime (b : BondSettings) : Nat := ms (b.supervision * b.aliveInterval)

/-- The length of a gate window, or none under TRAINED (4.1). -/
def windowLength : GateWindow → Option Nat
  | .ms2 => some 2
  | .ms8 => some 8
  | .ms16 => some 16
  | .trained => none

/-- The initial value of R: floor(trained rate ÷ 8), clamped to 16-16383 (R69). -/
def initialRate (trained : Nat) : Nat := clampTo 16 16383 (trained / 8)

/-- The awake count: the SERVING pairs with the offering flag clear (R170). -/
def State.awakeCount (s : State) : Nat :=
  (allPairs.filter fun p => (s.pair p).state = .serving && !(s.pair p).offering).length

/-- The pair is in the collector's horizon set: SERVING or WAKING (R115). -/
def PairUnit.inHorizonSet (u : PairUnit) : Bool := u.state = .serving || u.state = .waking

/-- Waiting octets of a class: its queued frames and the unplaced remainder of its frame in progress
(R102). -/
def ClassUnit.waiting (k : ClassUnit) : Nat :=
  (k.queue.map fun f => f.octets.length).sum +
    match k.current with
    | none => 0
    | some g => g.frame.octets.length - g.offset

/-- The waiting octets of the distributor (R102). -/
def State.waiting (s : State) : Nat := (allClasses.map fun c => (s.cls c).waiting).sum

/-- The holding of a class (R85). -/
def ClassUnit.holding (k : ClassUnit) : Nat := k.queue.length + if k.current.isSome then 1 else 0

/-- The slots of the frame buffer in use (R84, R85). -/
def State.slotsInUse (s : State) : Nat := (allClasses.map fun c => (s.cls c).holding).sum

/-! ## Notices -/

/-- The place of a source in the notice unit; its number is one more (11.1). -/
def sourceIndex : Source → Fin 11
  | .restarted => 0
  | .pairDown => 1
  | .pairBarred => 2
  | .pairUp => 3
  | .provingDone => 4
  | .strike => 5
  | .wakeError => 6
  | .tableMatch => 7
  | .epochChanged => 8
  | .queueDrop => 9
  | .gapLoss => 10

/-- The state with one notice source changed. -/
def modSource (src : Source) (f : SourceUnit → SourceUnit) (s : State) : State :=
  { s with notices := { s.notices with
      sources := s.notices.sources.set (sourceIndex src).val (f (s.notices.sources.get (sourceIndex src)))
        (sourceIndex src).isLt } }

/-- What a raise does to its source (R197). -/
def SourceUnit.raised (arg : NoticeArg) (u : SourceUnit) : SourceUnit :=
  if u.isPending then { u with repeats := min 255 (u.repeats + 1) }
  else { u with isPending := true, due := true, repeats := 0, arg := some arg }

/-- Raises a notice source with its argument (R197). -/
def raiseNotice (src : Source) (arg : NoticeArg) (s : State) : State :=
  modSource src (SourceUnit.raised arg) s

/-- The argument of every source but PROVING-DONE: 0 then the value (R198). -/
def valueArg (n : Nat) : NoticeArg := { hi := 0, lo := BitVec.ofNat 8 n }

/-- Raises a source whose argument is a pair number (R18). -/
def raiseForPair (src : Source) (p : PairNo) (s : State) : State :=
  raiseNotice src (valueArg p.val) s

/-! ## The pending control set -/

/-- The kind number of a link control kind of the pending set (R26). -/
def Ctl.code : Ctl → Nat
  | .join => 1
  | .alive => 2
  | .restart => 3
  | .restartAsk => 4
  | .quietOffer => 5
  | .quietAgree => 6
  | .proveRequest => 7
  | .proveAccept => 8
  | .proveDecline => 9
  | .proveEnd => 12

/-- The states that permit a kind (R29). -/
def Ctl.permitted (k : Ctl) (st : PairState) : Bool :=
  match k, st with
  | .join, .joining => true
  | .alive, .serving => true
  | .alive, .waking => true
  | .restart, .joining => true
  | .restart, .serving => true
  | .restart, .waking => true
  | .restartAsk, .serving => true
  | .quietOffer, .serving => true
  | .quietAgree, .serving => true
  | .proveRequest, .proving => true
  | .proveAccept, st | .proveDecline, st | .proveEnd, st =>
      st = .standby || st = .proving || st = .halted || st = .joining || st = .serving ||
        st = .waking
  | _, _ => false

/-- Adds a kind to a pending set: at most once, in the order of the kind numbers (R29). -/
def addCtl (k : Ctl) : List Ctl → List Ctl
  | [] => [k]
  | x :: xs => if k = x then x :: xs else if k.code < x.code then k :: x :: xs else x :: addCtl k xs

/-- Raises a link control kind on a pair unit: only in a state that permits it (R29). -/
def PairUnit.raise (k : Ctl) (u : PairUnit) : PairUnit :=
  if k.permitted u.state then { u with ctl := addCtl k u.ctl } else u

/-- Raises a link control kind on pair `p`. -/
def raiseCtl (k : Ctl) (p : PairNo) (s : State) : State := modPair p (PairUnit.raise k) s

/-- Removes kinds from a pair's pending set unsent. -/
def dropCtl (ks : List Ctl) (u : PairUnit) : PairUnit :=
  { u with ctl := u.ctl.filter fun k => !ks.contains k }

/-! ## Entering a pair state -/

/-- The supervision timer that a state starts at its entry (R10). -/
def supervisionFor (now : Nat) (b : BondSettings) : PairState → Option (SupMeaning × Timer)
  | .serving => some (.heard, ⟨now, b.heardTime⟩)
  | .quiet => some (.probe, ⟨now, seconds b.quietProbe⟩)
  | .waking => some (.wakeTimeout, ⟨now, ms (4 * b.wakeLimit)⟩)
  | _ => none

/-- The pending set after a state entry: emptied on DOWN, ABSENT and BARRED, which permit no kind,
and filtered by what the new state permits otherwise (R29 a-c). -/
def keepPermitted (st : PairState) (ks : List Ctl) : List Ctl := ks.filter fun k => k.permitted st

/-- The idle timer as it starts: not while *quiet wait* is 0 (R172). -/
def PairUnit.idleStart (now : Nat) (u : PairUnit) : Option Timer :=
  if u.cfg.quietWait = 0 then none else some ⟨now, ms (100 * u.cfg.quietWait)⟩

/-- A gate window as it starts: count 0, the busy flag from the queue (R70 a), none under TRAINED. -/
def PairUnit.startWindow (now : Nat) (b : BondSettings) (u : PairUnit) : PairUnit :=
  match windowLength b.gateWindow with
  | none => { u with window := none, windowCount := 0, busy := false }
  | some n => { u with window := some ⟨now, ms n⟩, windowCount := 0, busy := !u.queue.isEmpty }

/-- A gate window as it stops, with its count discarded (R70 c). -/
def PairUnit.stopWindow (u : PairUnit) : PairUnit :=
  { u with window := none, windowCount := 0, busy := false }

/-- The kind that an entry raises: JOIN in JOINING, ALIVE in SERVING (R32). -/
def raisedAtEntry : PairState → List Ctl → List Ctl
  | .joining, ks => addCtl .join ks
  | .serving, ks => addCtl .alive ks
  | _, ks => ks

/-- The effects of entering a state on the pair record, after any withdrawal (R7, R10, R14, R16, R29, R31,
R32, R35 a-c, R70, R162, R163 b-c, R164, R170, R172). The prove-wanted flag is set in STANDBY alone, by what
follows the entry (R8 a, R15 a), so a pair enters STANDBY with it clear as well (R22). A handover in progress
is dealt with by `cutHandover`. DEDUCED: log entry 32. -/
def PairUnit.enter (now : Nat) (b : BondSettings) (st : PairState) (u : PairUnit) : PairUnit :=
  let u : PairUnit := { u with
    state := st
    line := if st = .absent || st = .down || st = .quiet then false else u.line
    trained := if st = .absent then 0 else u.trained
    rate := if st = .absent || st = .down then 0 else u.rate
    farPair := if st = .absent then none else u.farPair
    farRole := if st = .absent then none else u.farRole
    supervision := supervisionFor now b st
    errCount := 0
    errTimer := if st = .serving then some ⟨now, ms u.cfg.errorPeriod⟩ else none
    settleTimer := if st = .serving then some ⟨now, seconds u.cfg.settlePeriod⟩ else none
    offering := false
    proveWanted := false
    idleTimer := if st = .serving then u.idleStart now else none
    idle := false
    offerSpent := false
    offerTimer := none
    aliveTimer := if st = .joining || st = .serving then some ⟨now, ms b.aliveInterval⟩ else none
    haltTimer := if st = .halted then some ⟨now, ms (4 * b.stepTimeout)⟩ else none
    ctl := raisedAtEntry st (keepPermitted st u.ctl)
    proveSlot := none
    record := { u.record with
      endSlot := if st = .absent || st = .down || st = .barred then none else u.record.endSlot } }
  if st = .serving then u.startWindow now b else u.stopWindow

/-- Pair `p` enters a state. -/
def enterState (p : PairNo) (st : PairState) (s : State) : State :=
  modPair p (PairUnit.enter s.now s.cfg st) s

/-- The handover in progress on pair `p`, if there is one, is cut off (R4): a DATA entry leaves the queue
with it. It is counted CUT-OFF where R12 and R13 cut it (log entry 10). -/
def cutHandover (counted : Bool) (p : PairNo) (s : State) : State :=
  match (s.pair p).handover with
  | none => s
  | some h =>
    emit (.cutOff p) (modPair p (fun u => { u with
      handover := none
      queue := if h.frag.kind = 0 then u.queue.tail else u.queue
      n := if counted then { u.n with cutOff := u.n.cutOff + 1 } else u.n }) s)

end Sys2Proof.Machine
end

