-- ==== Sys2Proof/Machine/Fragment.lean ====
section
/-! DEFINITION. The fragment on the line (R24-R26, R30, R36, R195): its octets and check word, the
forming of the next fragment that a pair hands over, and the reading of delivered octets. -/

namespace Sys2Proof.Machine
open Sys2Proof

/-! ## Layout and check word -/

/-- The five header octets of a fragment (R195). -/
def Fragment.header (f : Fragment) : List Octet :=
  [f.kind ++ f.epoch ++ (BitVec.ofBool f.first) ++ (BitVec.ofBool f.last)] ++
    octets16 (f.cls ++ f.seq) ++ octets16 (BitVec.ofNat 16 f.payload.length)

/-- One bit through the check word register (R25). -/
def crcBit (reg : BitVec 16) (bit : Bool) : BitVec 16 :=
  if reg.msb != bit then (reg <<< 1) ^^^ 0x1021 else reg <<< 1

/-- One octet through the check word register, most significant bit first (R25). -/
def crcOctet (reg : BitVec 16) (o : Octet) : BitVec 16 :=
  crcBit (crcBit (crcBit (crcBit (crcBit (crcBit (crcBit (crcBit reg
    (o.getLsbD 7)) (o.getLsbD 6)) (o.getLsbD 5)) (o.getLsbD 4)) (o.getLsbD 3)) (o.getLsbD 2))
    (o.getLsbD 1)) (o.getLsbD 0)

/-- The check word over a run of octets (R25). -/
def checkWord (os : List Octet) : BitVec 16 := os.foldl crcOctet 0xFFFF

/-- The check word of a fragment: over its header and its payload (R25). -/
def Fragment.check (f : Fragment) : BitVec 16 := checkWord (f.header ++ f.payload)

/-- The octets of a fragment as they cross the pair: header, payload, check word (2.1). -/
def Fragment.octets (f : Fragment) : List Octet := f.header ++ f.payload ++ octets16 f.check

/-! ## Codes of payload fields (R26) -/

/-- The role that a code stands for; none is a code with no meaning (R26). -/
def roleOf (o : Octet) : Option Role :=
  if o = 0 then some .cabinet else if o = 1 then some .homestead else none

/-- The pair that a pair number names; none is a number above 7. -/
def pairOf (o : Octet) : Option PairNo := if h : o.toNat < 8 then some ⟨o.toNat, h⟩ else none

/-- The decline reason that a code stands for (R26). -/
def reasonOf (o : Octet) : Option DeclineReason :=
  if o = 0 then some .noConsent else if o = 1 then some .state
  else if o = 2 then some .crossedWin else none

/-- The verdict that a code stands for (R26). -/
def verdictOf (o : Octet) : Option Verdict :=
  if o = 0 then some .passed else if o = 1 then some .failed
  else if o = 2 then some .aborted else if o = 3 then some .released else none

/-- The code of a role. -/
def roleCode : Role → Octet
  | .cabinet => 0
  | .homestead => 1

/-- The code of a decline reason. -/
def reasonCode : DeclineReason → Octet
  | .noConsent => 0
  | .state => 1
  | .crossedWin => 2

/-- The code of a verdict. -/
def verdictCode : Verdict → Octet
  | .passed => 0
  | .failed => 1
  | .aborted => 2
  | .released => 3

/-! ## Forming the next fragment -/

/-- FRESH: no pair of the part is SERVING (R33). -/
def State.fresh (s : State) : Bool := allPairs.all fun p => (s.pair p).state != .serving

/-- The epoch that a part puts in what it sends: 0 where it is NONE (R24). -/
def State.sentEpoch (s : State) : Epoch := s.bond.epoch.getD 0

/-- The entry of a queue that lies farthest behind `nextSeq`, among those of class `c` (R36 b). -/
def farthestBehind (nextSeq : Seq) (c : ClassNo) (q : List Desc) : Option Seq :=
  q.foldl (fun best e =>
    if e.cls = c then
      match best with
      | none => some e.seq
      | some b => if dist nextSeq b < dist nextSeq e.seq then some e.seq else some b
    else best) none

/-- The horizon of class `c` that an ALIVE on pair `p` carries (R36). -/
def aliveHorizon (s : State) (p : PairNo) (c : ClassNo) : Seq :=
  (farthestBehind (s.cls c).nextSeq c (s.pair p).queue).getD (s.cls c).nextSeq

/-- The payload of a control kind on pair `p`, formed from the state at the moment (R26, R33, R36,
R162). A PROVE-END whose end slot is NONE does not arise (R162); its verdict then reads ABORTED, 0.
DESIGN CHOICE: log entry 31. -/
def ctlPayload (s : State) (p : PairNo) : Ctl → List Octet
  | .join =>
      let o := Config.joinOctets s.bond.role p s.fresh
      [o.1, o.2]
  | .alive => (allClasses.map fun c => octets16 ((0#2) ++ aliveHorizon s p c)).flatten
  | .proveDecline => [reasonCode ((s.pair p).declineOut.getD .state)]
  | .proveEnd =>
      let e := (s.pair p).record.endSlot.getD ⟨.aborted, 0⟩
      verdictCode e.verdict :: octets16 (BitVec.ofNat 16 e.delay)
  | _ => []

/-- The fragment of a control kind (R24): first and last set, class 0, sequence 0. -/
def ctlFragment (s : State) (p : PairNo) (k : Ctl) : Fragment :=
  { kind := BitVec.ofNat 4 k.code, epoch := s.sentEpoch, first := true, last := true, cls := 0, seq := 0
    payload := ctlPayload s p k }

/-- The fragment of the prove slot's message (R24): its sequence field is the step index. -/
def proveFragment (s : State) (m : ProveMsg) : Fragment :=
  { kind := if m.echo then 11 else 10, epoch := s.sentEpoch, first := true, last := true, cls := 0
    seq := BitVec.ofNat 14 m.step.val, payload := m.octets }

/-- The fragment of a transmit queue entry (R24). -/
def dataFragment (s : State) (e : Desc) : Fragment :=
  { kind := 0, epoch := s.sentEpoch, first := e.first, last := e.last, cls := BitVec.ofNat 2 e.cls.val
    seq := e.seq, payload := e.payload }

/-- A handover can begin on the pair (R30). -/
def PairUnit.canBegin (u : PairUnit) : Bool :=
  u.handover.isNone && u.line &&
    (u.state = .standby || u.state = .proving || u.state = .halted || u.state = .joining ||
      u.state = .serving || u.state = .waking)

/-- Pair `p` begins the handover of a fragment. -/
def startHandover (p : PairNo) (f : Fragment) (s : State) : State :=
  let h : Handover := { frag := f, check := f.check }
  emit (.handover p h) (modPair p (fun u => { u with handover := some h }) s)

/-- The handover of a control kind begins: it leaves the pending set, and PROVE-END empties the end
slot (R29, R162). -/
def beginCtl (p : PairNo) (k : Ctl) (s : State) : State :=
  let f := ctlFragment s p k
  startHandover p f (modPair p (fun u => { u with
    ctl := u.ctl.erase k
    declineOut := if k = .proveDecline then none else u.declineOut
    record := if k = .proveEnd then { u.record with endSlot := none } else u.record }) s)

/-- The engine records the handover start of the current step's pattern on pair `p` and starts the step
timer (R158). -/
def patternStarts (p : PairNo) (s : State) : State :=
  match s.engine with
  | some r =>
    if r.pair = p && r.running && r.outstanding then
      { s with engine := some { r with
          started := some s.now, stepTimer := some ⟨s.now, ms s.cfg.stepTimeout⟩ } }
    else s
  | none => s

/-- The handover of the prove slot's message begins: the slot empties (R31). -/
def beginProve (p : PairNo) (m : ProveMsg) (s : State) : State :=
  let s := startHandover p (proveFragment s m) (modPair p (fun u => { u with proveSlot := none }) s)
  if m.echo then s else patternStarts p s

/-- The choice of the next handover on pair `p` (R30): the lowest pending kind, then the prove slot,
then, in SERVING, the head of the transmit queue. -/
def chooseHandover (p : PairNo) (s : State) : State :=
  let u := s.pair p
  if u.canBegin then
    match u.ctl, u.proveSlot, u.queue with
    | k :: _, _, _ => beginCtl p k s
    | [], some m, _ => beginProve p m s
    | [], none, e :: _ => if u.state = .serving then startHandover p (dataFragment s e) s else s
    | [], none, [] => s
  else s

/-- Every idle pair makes its choice, in increasing pair number (R30; log entry 11). -/
def chooseHandovers (s : State) : State := eachPair allPairs chooseHandover s

/-! ## Reading delivered octets -/

/-- The header fields in the five header octets (R195), with the payload; the payload length field is
returned beside them. -/
def readHeader (a b c d e : Octet) (payload : List Octet) : Fragment × Nat :=
  let cs : BitVec 16 := b ++ c
  let ln : BitVec 16 := d ++ e
  ({ kind := a.extractLsb' 4 4, epoch := a.extractLsb' 2 2, first := a.getLsbD 1, last := a.getLsbD 0
     cls := cs.extractLsb' 14 2, seq := cs.extractLsb' 0 14, payload := payload },
   (ln.extractLsb' 0 10).toNat)

/-- The tests of R5, and the bound of 512 that R195 gives the payload length: none is a damaged
fragment. -/
def readFragment (os : List Octet) : Option Fragment :=
  match os with
  | a :: b :: c :: d :: e :: rest =>
    if os.length < 7 then none
    else
      let n := os.length - 7
      let (f, len) := readHeader a b c d e (rest.take n)
      if len + 7 ≠ os.length || 512 < len then none
      else if octets16 (checkWord (os.take (n + 5))) ≠ rest.drop n then none
      else some f
  | _ => none

/-- The octet of a payload at an offset. A payload too short for its kind is ill-formed by its length,
and what is read here is then not used. -/
def octetAt (os : List Octet) (i : Nat) : Octet := os.getD i 0

/-- A 16-bit number in a payload at an offset, most significant octet first. -/
def wordAt (os : List Octet) (i : Nat) : BitVec 16 := octetAt os i ++ octetAt os (i + 1)

/-- Every content that a JOIN can carry. -/
def allJoins : List (Role × PairNo × Bool) :=
  ([Role.cabinet, Role.homestead].map fun r =>
    (allPairs.map fun p => [(r, p, false), (r, p, true)]).flatten).flatten

/-- The JOIN fields in a payload of two octets: those whose octets they are, and fields that mean
nothing where they are the octets of none (R26; log entry 6). -/
def readJoin (os : List Octet) : JoinFields :=
  match allJoins.find? fun j =>
      let o := Config.joinOctets j.1 j.2.1 j.2.2
      os = [o.1, o.2] with
  | some (r, p, fr) => { role := roleCode r, pair := BitVec.ofNat 8 p.val, fresh := fr }
  | none => { role := 0xFF, pair := 0xFF, fresh := false }

/-- The command of a good fragment taken on pair `p`, by its kind (R26, R28). -/
def commandOf (p : PairNo) (f : Fragment) : Instr :=
  let h : CtlHead := { epoch := f.epoch, len := f.payload.length }
  let pr : ProbeFields := { epoch := f.epoch, step := f.seq, octets := f.payload }
  match f.kind.toNat with
  | 0 => .data p { epoch := f.epoch, cls := f.cls, seq := f.seq, first := f.first, last := f.last
                   payload := f.payload }
  | 1 => .join p h (readJoin f.payload)
  | 2 => .alive p h { h0 := wordAt f.payload 0, h1 := wordAt f.payload 2, h2 := wordAt f.payload 4 }
  | 3 => .restart p h
  | 4 => .restartAsk p h
  | 5 => .quietOffer p h
  | 6 => .quietAgree p h
  | 7 => .proveRequest p h
  | 8 => .proveAccept p h
  | 9 => .proveDecline p h (octetAt f.payload 0)
  | 10 => .provePattern p pr
  | 11 => .proveEcho p pr
  | 12 => .proveEnd p h { verdict := octetAt f.payload 0, delay := wordAt f.payload 1 }
  | _ => .unknownKind p f.kind f.payload.length

/-- The command that the octets delivered on pair `p` are (R5, R25, R26, R195). -/
def deliver (p : PairNo) (os : List Octet) : Instr :=
  match readFragment os with
  | none => .damaged p
  | some f => commandOf p f

end Sys2Proof.Machine
end

