-- ==== Sys2Proof/Machine/Reassembly.lean ====
section
/-! DEFINITION. The trunk egress queue's offers (R147), what a management frame is (R140, R143, R196),
and the reassembler (R135-R141). -/

namespace Sys2Proof.Machine
open Sys2Proof

/-! ## Management frames -/

/-- The type of management frames. -/
def mgmtType : List Octet := [0x9C, 0x5B]

/-- The units group address 0B-4E-4B-00-00-01 (R146 b). -/
def unitsGroup : Addr := 0x0B4E4B000001

/-- A frame is management-typed: at least 14 octets, and 0x9C5B after the source address (R140). -/
def mgmtTyped (f : Frame) : Bool := 14 ≤ f.length && (f.drop 12).take 2 = mgmtType

/-- A management-typed frame holds the fixed part of the header (R196). -/
def holdsFixedPart (f : Frame) : Bool := 22 ≤ f.length

/-- The destination address of a frame of at least 6 octets. -/
def destinationOf (f : Frame) : Addr := BitVec.ofNat 48 (bigEndian (f.take 6))

/-- The source address of a frame of at least 12 octets. -/
def sourceOf (f : Frame) : Addr := BitVec.ofNat 48 (bigEndian ((f.drop 6).take 6))

/-- The reply flag of the management header (R196). -/
def replyFlag (f : Frame) : Bool := (f.getD 15 0).getLsbD 7

/-- The target flag of the management header: FAR when set (R196). -/
def targetFar (f : Frame) : Bool := (f.getD 15 0).getLsbD 6

/-! ## Offers to the trunk egress queue -/

/-- The report of a RESET-PART's reply, which ends the wait of a pending RESET-PART (R193 a, b). -/
def reportReset (s : State) : State :=
  match s.agent.reset with
  | none => s
  | some r => { s with agent := { s.agent with reset := some { r with reported := true } } }

/-- An offer to the trunk egress queue: appended, or dropped as EGRESS-FULL at 64 frames (R147). -/
def offerEgress (e : EgressEntry) (s : State) : State :=
  if s.trunk.egress.length < 64 then
    { s with trunk := { s.trunk with egress := s.trunk.egress ++ [e] } }
  else
    let s := countTrunk (fun n => { n with egressFull := n.egressFull + 1 }) s
    if e.resetReply then reportReset s else s

/-- A request reaches the agent and waits for its service in arrival order (R183). -/
def handToAgent (r : Request) (s : State) : State :=
  { s with agent := { s.agent with requests := s.agent.requests ++ [r] } }

/-! ## Completed frames -/

/-- A completed frame of class `c` is passed on by its content (R140). -/
def passOn (c : ClassNo) (f : Frame) (s : State) : State :=
  if f = [] then countClass c (fun n => { n with emptyFrame := n.emptyFrame + 1 }) s
  else if mgmtTyped f && holdsFixedPart f && !replyFlag f && targetFar f then
    handToAgent (.framed .bond f) (countClass c (fun n => { n with mgmtBond := n.mgmtBond + 1 }) s)
  else if mgmtTyped f && !holdsFixedPart f then
    countTrunk (fun n => { n with malformedDrop := n.malformedDrop + 1 }) s
  else
    offerEgress { frame := f, source := .bondTraffic, resetReply := false }
      (countClass c (fun n => { n with frameBuilt := n.frameBuilt + 1 }) s)

/-! ## Reassembly contexts -/

/-- Sets the reassembly context of class `c`. -/
def setReasm (c : ClassNo) (r : Reasm) (s : State) : State := modClass c (fun k => { k with reasm := r }) s

/-- A partial frame of class `c`, if there is one, is dropped as TORN-FRAME (R136 b and d). -/
def tear (c : ClassNo) (s : State) : State :=
  match (s.cls c).reasm with
  | .building _ => countClass c (fun n => { n with tornFrame := n.tornFrame + 1 }) s
  | _ => s

/-- A fragment reaches the reassembly context of class `c` (R136, R137, R139). -/
def reassemble (c : ClassNo) (first last : Bool) (payload : List Octet) (s : State) : State :=
  match first, last with
  | true, false => setReasm c (.building payload) (tear c s)
  | true, true => passOn c payload (setReasm c .idle (tear c s))
  | false, last =>
    match (s.cls c).reasm with
    | .idle => countClass c (fun n => { n with orphan := n.orphan + 1 }) s
    | .discarding =>
        setReasm c (if last then .idle else .discarding)
          (countClass c (fun n => { n with skipped := n.skipped + 1 }) s)
    | .building part =>
        if 1600 < part.length + payload.length then
          setReasm c .discarding (countClass c (fun n => { n with oversize := n.oversize + 1 }) s)
        else if last then passOn c (part ++ payload) (setReasm c .idle s)
        else setReasm c (.building (part ++ payload)) s

/-- A loss marker reaches the reassembly context of class `c` (R138). -/
def reassembleLoss (c : ClassNo) (s : State) : State :=
  match (s.cls c).reasm with
  | .building _ =>
      setReasm c .discarding (countClass c (fun n => { n with lostFrame := n.lostFrame + 1 }) s)
  | _ => setReasm c .discarding s

end Sys2Proof.Machine
end

