-- ==== Sys2Proof/Machine/Collector.lean ====
section
/-! DEFINITION. The collector (R110-R134): DATA arrival, horizons, the delivery pass, loss declaration
and the hold timer. -/

namespace Sys2Proof.Machine
open Sys2Proof

/-! ## Horizons -/

/-- Pair `p`'s horizon in class `c`. -/
def State.horizon (s : State) (c : ClassNo) (p : PairNo) : Option Seq := (s.cls c).horizons.get p

/-- Sets pair `p`'s horizon in class `c`. -/
def setHorizon (c : ClassNo) (p : PairNo) (h : Option Seq) (s : State) : State :=
  modClass c (fun k => { k with horizons := k.horizons.set p.val h p.isLt }) s

/-- Pair `p`'s horizons in every class become NONE. -/
def clearHorizons (p : PairNo) (s : State) : State := eachClass (fun c => setHorizon c p none) s

/-- A pair does not block the horizon rule for a sequence: it is outside the horizon set, or its horizon
is ahead of the sequence (R125 b). -/
def horizonPasses (s : State) (c : ClassNo) (p : PairNo) : Bool :=
  !(s.pair p).inHorizonSet ||
    match s.horizon c p with
    | none => false
    | some h => ahead h (s.cls c).next

/-- The horizon rule of class `c` holds for its next (R125). -/
def horizonRule (c : ClassNo) (s : State) : Bool :=
  (allPairs.any fun p => (s.pair p).inHorizonSet) && allPairs.all (horizonPasses s c)

/-! ## Delivery -/

/-- Sets the bond controller's carried flag (R38). -/
def setCarried (s : State) : State := { s with bond := { s.bond with carried := true } }

/-- The held fragment of sequence `q`. -/
def heldAt (q : Seq) (hs : List Held) : Option Held := hs.find? fun f => f.seq = q

/-- A held fragment is released to the reassembler (R119): its slot is freed, it is counted RELEASED, next
advances, and the reassembly context takes it. -/
def releaseHeld (c : ClassNo) (f : Held) (s : State) : State :=
  reassemble c f.first f.last f.payload (modClass c (fun k => { k with
    held := k.held.filter fun g => g.seq ≠ f.seq
    next := k.next + 1
    n := { k.n with released := k.n.released + 1 } }) s)

/-- The delivery pass, at most `n` releases (R119). -/
def deliverUpTo : Nat → ClassNo → State → State
  | 0, _, s => s
  | n + 1, c, s =>
    match heldAt (s.cls c).next (s.cls c).held with
    | none => s
    | some f => deliverUpTo n c (releaseHeld c f s)

/-- The delivery pass of class `c`: every held fragment is released at most once, so as many releases
as are held suffice (R119). -/
def deliveryPass (c : ClassNo) (s : State) : State := deliverUpTo (s.cls c).held.length c s

/-! ## Loss declaration -/

/-- One declaration of next, steps 1 to 4 (R126). -/
def declareLost (c : ClassNo) (s : State) : State :=
  let s := reassembleLoss c s
  let s := countClass c (fun n => { n with gapLost := n.gapLost + 1 }) s
  let s := raiseNotice .gapLoss (valueArg c.val) s
  let s := setCarried (modClass c (fun k => { k with next := k.next + 1 }) s)
  deliveryPass c s

/-- The run of declarations that the horizon rule makes, at most `n` of them (R125, R126 step 6). -/
def declareUpTo : Nat → ClassNo → State → State
  | 0, _, s => s
  | n + 1, c, s => if horizonRule c s then declareUpTo n c (declareLost c s) else s

/-- The loss tests of class `c` (R127). Each declaration brings next nearer to every horizon of the set,
which are at most 8191 ahead, so 8192 suffice. -/
def lossTests (c : ClassNo) (s : State) : State := declareUpTo 8192 c s

/-- The context has a gap (R123). -/
def ClassUnit.gap (k : ClassUnit) : Bool := !k.held.isEmpty && (heldAt k.next k.held).isNone

/-- The hold timer follows the gap at the end of an event that found the context's next at `before`
(R123). -/
def followGap (before : Seq) (c : ClassNo) (s : State) : State :=
  modClass c (fun k =>
    if !k.gap then { k with hold := none }
    else if k.next ≠ before || k.hold.isNone then
      { k with hold := some ⟨s.now, ms k.cfg.holdTime⟩ }
    else k) s

/-- The loss tests of class `c` and the hold timer after them. -/
def testLosses (c : ClassNo) (s : State) : State :=
  followGap (s.cls c).next c (lossTests c s)

/-- Pair `p` has left the horizon set: the collector acts in each class (R128), in the order of `eachClass`. DESIGN
CHOICE: log entry 41. -/
def pairExit (p : PairNo) (s : State) : State :=
  eachClass (fun c s => testLosses c (setHorizon c p none s)) s

/-! ## Arrivals -/

/-- Pair `p`'s horizon after a fragment of sequence `q` is stored from it (R118). -/
def horizonAfter (q : Seq) : Option Seq → Option Seq
  | none => some (q + 1)
  | some h => if ahead (q + 1) h then some (q + 1) else some h

/-- A fragment is stored from pair `p` (R117 d): it joins the held set, ACCEPTED is counted, the carried
flag is set and the pair's horizon is updated. -/
def storeData (c : ClassNo) (p : PairNo) (f : Held) (s : State) : State :=
  setCarried (modClass c (fun k => { k with
    held := k.held ++ [f]
    horizons := k.horizons.set p.val (horizonAfter f.seq (k.horizons.get p)) p.isLt
    n := { k.n with accepted := k.n.accepted + 1 } }) s)

/-- A DATA fragment of class `c` is classified against its context (R117), and the delivery pass and the
loss tests follow a store. -/
def collectData (c : ClassNo) (p : PairNo) (f : Held) (s : State) : State :=
  let k := s.cls c
  let d := dist f.seq k.next
  if 8192 ≤ d then countClass c (fun n => { n with late := n.late + 1 }) s
  else if k.cfg.quota ≤ d then countClass c (fun n => { n with beyond := n.beyond + 1 }) s
  else if (heldAt f.seq k.held).isSome then
    countClass c (fun n => { n with duplicate := n.duplicate + 1 }) s
  else followGap k.next c (lossTests c (deliveryPass c (storeData c p f s)))

/-- A DATA fragment reaches the collector from pair `p` (R116). -/
def takeData (c : ClassNo) (p : PairNo) (f : Held) (s : State) : State :=
  if (s.pair p).inHorizonSet then collectData c p f s
  else countPair p (fun n => { n with notServing := n.notServing + 1 }) s

/-- An ALIVE taken on pair `p` sets its horizon in each class and the loss tests follow (R121), class by class in the
order of `eachClass`. DESIGN CHOICE: log entry 41. -/
def takeHorizons (p : PairNo) (h : ClassNo → Seq) (s : State) : State :=
  let s := eachClass (fun c => setHorizon c p (some (h c))) s
  if (s.pair p).inHorizonSet then eachClass testLosses s else s

/-- The hold timer of class `c` expires: next is declared lost by the hold rule (R124). -/
def holdExpires (c : ClassNo) (s : State) : State :=
  let before := (s.cls c).next
  let s := modClass c (fun k => { k with
    hold := none, n := { k.n with holdLoss := k.n.holdLoss + 1 } }) s
  followGap before c (lossTests c (declareLost c s))

/-- The collector and the reassembler at a local restart (R44 steps 3 and 4, R130). -/
def restartClass (c : ClassNo) (s : State) : State :=
  modClass c (fun k => { k with
    n := { k.n with cleared := k.n.cleared + BitVec.ofNat 32 k.held.length }
    held := []
    next := 0
    horizons := Vector.replicate 8 none
    hold := none
    reasm := .idle }) s

end Sys2Proof.Machine
end

