-- ==== Sys2Proof/Machine/Placement.lean ====
section
/-! DEFINITION. Eligibility, the arrival estimate and the choice of pair (R77-R80), and the re-placement
of entries given back by a withdrawal (R104). -/

namespace Sys2Proof.Machine
open Sys2Proof

/-- Pair `p` is eligible for a fragment whose allowed-pairs set is `m` (R77). -/
def eligible (s : State) (m : PairMap) (p : PairNo) : Bool :=
  let u := s.pair p
  u.state = .serving && !u.offering && m.holds p && u.queue.length < 32

/-- The arrival estimate of a fragment of length `l` on a pair unit, in microseconds: D plus the ceiling
of (B + L) × 1000 ÷ R (R78). -/
def PairUnit.estimate (l : Nat) (u : PairUnit) : Nat :=
  u.delay + ((u.backlog + l) * 1000 + (u.rate - 1)) / u.rate

/-- Of two pairs, the first taken when the second is not strictly better: a smaller estimate, or an equal
one and a larger R (R79). -/
def betterPair (s : State) (l : Nat) (p q : PairNo) : PairNo :=
  let a := (s.pair p).estimate l
  let b := (s.pair q).estimate l
  if b < a || (b = a && (s.pair p).rate < (s.pair q).rate) then q else p

/-- The pair choice among the eligible pairs of a map: the smallest estimate, then the largest R, then the
lowest pair number (R79); none where no pair is eligible. -/
def choosePair (s : State) (m : PairMap) (l : Nat) : Option PairNo :=
  (allPairs.filter (eligible s m)).foldl (fun best q =>
    match best with
    | none => some q
    | some p => some (betterPair s l p q)) none

/-- Appends a descriptor at the tail of pair `p`'s transmit queue (R79, R80 a). -/
def append (p : PairNo) (e : Desc) (s : State) : State :=
  modPair p (fun u => { u with queue := u.queue ++ [e] }) s

/-- An entry given back by the withdrawal of pair `w` is placed again by pair choice, or discarded and
counted MOVED-DISCARD on `w` (R104). -/
def giveBack (w : PairNo) (e : Desc) (s : State) : State :=
  match choosePair s e.allowed e.len with
  | some q => countClass e.cls (fun n => { n with moved := n.moved + 1 }) (append q e s)
  | none => countPair w (fun n => { n with movedDiscard := n.movedDiscard + 1 }) s

/-- The entries given back by one withdrawal, in queue order (R12 b, R104). -/
def giveBackAll (w : PairNo) (es : List Desc) (s : State) : State :=
  es.foldl (fun s e => giveBack w e s) s

/-- Of the pairs that pass a test, the one with the largest R, and among equal R the lowest-numbered (R99,
R103). -/
def fastestPair (s : State) (f : PairNo → Bool) : Option PairNo :=
  (allPairs.filter f).foldl (fun best q =>
    match best with
    | none => some q
    | some p => if (s.pair p).rate < (s.pair q).rate then some q else some p) none

end Sys2Proof.Machine
end

