-- ==== Sys2Proof/Machine/Pairs.lean ====
section
/-! DEFINITION. The pair state machine's shared moves: withdrawal (R12), leaving one state for another,
entering SERVING (R35), QUIET (R177) and WAKING (R179), completing a wake (R180), wake errors (R182),
offers of quiet and their lapse (R173, R176). -/

namespace Sys2Proof.Machine
open Sys2Proof

/-! ## Leaving a state -/

/-- Withdrawal of pair `p`, which takes its new state first (R12): its handover is cut off and counted, its
queue is given back, and the collector is told of the exit. The offer of an offering pair lapses with it: its
QUIET-OFFER or QUIET-AGREE is cut off like any handover and removed like any kind that the new state does not
permit, and no other pair is tested (R176 c). DEDUCED: log entry 39. -/
def withdrawTo (p : PairNo) (st : PairState) (s : State) : State :=
  let s := cutHandover true p (modPair p (fun u => { u with state := st }) s)
  let back := (s.pair p).queue
  let s := modPair p (fun u => { u with queue := [], offering := false }) s
  pairExit p (giveBackAll p back s)

/-- Pair `p` leaves its state for `st`: by withdrawal from SERVING and WAKING (R12); with its handover cut
off from HALTED and on entry to DOWN and ABSENT (R4, R7 c); then it enters `st`. -/
def moveTo (p : PairNo) (st : PairState) (s : State) : State :=
  let old := (s.pair p).state
  let s :=
    if old = .serving || old = .waking then withdrawTo p st s
    else if old = .halted || st = .down || st = .absent then cutHandover false p s
    else s
  enterState p st s

/-! ## Offers of quiet -/

/-- The tests a., c., d. and e. of R173, and the idle flag of b. -/
def mayAgree (s : State) (p : PairNo) : Bool :=
  let u := s.pair p
  u.state = .serving && u.queue.isEmpty && u.idle && !u.offering && !u.noQuiet &&
    u.cfg.quietWait != 0 && s.cfg.minimumAwake < s.awakeCount

/-- The offer test of pair `p` (R173). -/
def offerPasses (s : State) (p : PairNo) : Bool := mayAgree s p && !(s.pair p).offerSpent

/-- The offer timer as it starts: 2 × alive interval (R173). -/
def offerTime (s : State) : Timer := ⟨s.now, ms (2 * s.cfg.aliveInterval)⟩

/-- The offer test is made on pair `p`, and the pair offers where it passes (R173). -/
def testOffer (p : PairNo) (s : State) : State :=
  if offerPasses s p then
    raiseCtl .quietOffer p (modPair p (fun u => { u with
      offering := true, offerSpent := true, offerTimer := some (offerTime s) }) s)
  else s

/-- The offer test is made on every pair of a list, in increasing pair number (R173). -/
def testOffers (ps : List PairNo) (s : State) : State := eachPair ps testOffer s

/-- The pair has raised QUIET-AGREE: it is agreeing (R174). -/
def PairUnit.agreeing (u : PairUnit) : Bool :=
  u.ctl.contains .quietAgree || u.handover.any fun h => h.frag.kind = 6

/-- The handover of the pair's QUIET-AGREE has begun (R176). -/
def PairUnit.agreeBegun (u : PairUnit) : Bool := u.handover.any fun h => h.frag.kind = 6

/-- The offer of pair `p` lapses (R176): the flag clears, the timer stops, the pending quiet kinds are
removed, and the offer test runs on the other pairs. The offer-spent flag is left as it is, also where the pair has
agreed with the flag clear (R174 b). DEDUCED: log entry 45. -/
def lapse (p : PairNo) (s : State) : State :=
  let s := modPair p (fun u => dropCtl [.quietOffer, .quietAgree]
    { u with offering := false, offerTimer := none }) s
  testOffers (allPairs.filter (· ≠ p)) s

/-- The idle timer of a SERVING pair restarts and its idle and offer-spent flags clear (R172). -/
def PairUnit.restartIdle (now : Nat) (u : PairUnit) : PairUnit :=
  if u.state = .serving then
    { u with idleTimer := u.idleStart now, idle := false, offerSpent := false }
  else u

/-! ## Entering SERVING, QUIET and WAKING -/

/-- Pair `p` enters SERVING from JOINING or WAKING (R35 a-d and f, R180 b and c): with the idle flag set
and the idle timer stopped where `idle` says so. The awake count rises, so the offer test is made on
every pair (R173). DEDUCED: log entries 22 and 29. -/
def enterServing (idle : Bool) (p : PairNo) (s : State) : State :=
  let s := enterState p .serving s
  let s := if s.bond.role = .homestead && s.bond.asking then raiseCtl .restartAsk p s else s
  let s := if idle then modPair p (fun u => { u with idleTimer := none, idle := u.cfg.quietWait != 0 }) s
    else s
  testOffers allPairs s

/-- Pair `p` enters SERVING from JOINING and raises PAIR-UP (R35). -/
def joinServing (p : PairNo) (s : State) : State := raiseForPair .pairUp p (enterServing false p s)

/-- A wake error of pair `p` (R182). -/
def wakeError (p : PairNo) (s : State) : State :=
  raiseForPair .wakeError p (modPair p (fun u => { u with
    wakeErrors := min 15 (u.wakeErrors + 1)
    noQuiet := u.noQuiet || s.cfg.wakeErrorLimit ≤ min 15 (u.wakeErrors + 1)
    n := { u.n with wakeError := u.n.wakeError + 1 } }) s)

/-- The wake of pair `p` completes (R180). A handover in progress is cut off, since the pair leaves WAKING (R4); it
is no withdrawal, so it is not counted. DEDUCED: log entries 10 and 38. Test a. reads the *wake limit* as it stands at
the completion. DESIGN CHOICE: log entry 44. -/
def completeWake (p : PairNo) (s : State) : State :=
  let u := s.pair p
  let s := if ms s.cfg.wakeLimit < s.now - u.wakeStart then wakeError p s else s
  let s := cutHandover false p s
  let idle := u.wakeCause = some .probe || u.wakeCause = some .line
  raiseForPair .pairUp p
    (countPair p (fun n => { n with wakeDone := n.wakeDone + 1 }) (enterServing idle p s))

/-- The quiet-entry time now: the time since the last full reset, taken down to whole seconds (R6, R177 e). DESIGN
CHOICE: log entry 8. -/
def quietEntryTime (now : Nat) : Nat :=
  let sec := now / 1000000
  if sec < 4294967296 then sec else (Config.quietEntryBeyond sec).toNat

/-- Pair `p` enters QUIET (R177). A handover in progress is cut off (R4, R175). -/
def enterQuiet (p : PairNo) (s : State) : State :=
  let s := enterState p .quiet (cutHandover false p s)
  let s := modPair p (fun u => { u with
    quietEntry := quietEntryTime s.now
    n := { u.n with quietEntry := u.n.quietEntry + 1 } }) s
  pairExit p (tell p .lowPower s)

/-- Pair `p` enters WAKING with a cause (R179). -/
def enterWaking (p : PairNo) (cause : WakeCause) (s : State) : State :=
  let s := modPair p (fun u => { u with wakeCause := some cause, wakeStart := s.now })
    (enterState p .waking s)
  if cause = .line then raiseCtl .alive p s else tell p .wake s

/-- The pair unit takes a wake request of the distributor: a wake cause while QUIET, ignored in any other
state (R99, R178 a). It takes it in the event that makes it. DESIGN CHOICE: log entry 40. -/
def wakeRequest (p : PairNo) (s : State) : State :=
  if (s.pair p).state = .quiet then enterWaking p .demand s else s

end Sys2Proof.Machine
end

