-- ==== Sys2Proof/Machine/Proving.lean ====
section
/-! DEFINITION. The proving engine: the start of a run (R151), the grant to waiting pairs (R152), the step
list (R154), steps and their outcomes (R158, R159), the verdict (R161), aborts (R165), and the raising
of PROVE-DECLINE and PROVE-END. -/

namespace Sys2Proof.Machine
open Sys2Proof

/-! ## The step list -/

/-- The octets of a stepped pattern: each is (previous × 29 + 41) mod 256 (R154). -/
def steppedPattern : Nat → Octet → List Octet
  | 0, _ => []
  | n + 1, o => o :: steppedPattern n (o * 29 + 41)

/-- The pattern of a step (R154). -/
def stepPattern (k : Fin 16) : List Octet :=
  match k.val with
  | 0 => List.replicate 64 0x00
  | 1 => List.replicate 64 0xFF
  | 2 => List.replicate 256 0x55
  | 3 => List.replicate 256 0xAA
  | 4 => (List.range 64).map fun i => 1#8 <<< (i % 8)
  | 5 => (List.range 64).map fun i => ~~~(1#8 <<< (i % 8))
  | 6 => (List.range 256).map fun i => BitVec.ofNat 8 (i % 256)
  | 7 => (List.range 512).map fun i => BitVec.ofNat 8 (i % 256)
  | 8 => steppedPattern 512 0x01
  | 9 => steppedPattern 512 0x5A
  | 10 => steppedPattern 512 0xC3
  | 11 => List.replicate 512 0x00
  | 12 => List.replicate 512 0xFF
  | 13 => (List.range 512).map fun i => if i % 2 = 0 then 0x0F else 0xF0
  | 14 => steppedPattern 512 0x3C
  | _ => (List.range 512).map fun i => BitVec.ofNat 8 (255 - i % 256)

/-! ## Records and answers -/

/-- Pair `p`'s proving record changed. -/
def modRecord (p : PairNo) (f : ProvingRecord → ProvingRecord) (s : State) : State :=
  modPair p (fun u => { u with record := f u.record }) s

/-- The end slot is written and PROVE-END is raised on pair `p` (R162). -/
def raiseEnd (p : PairNo) (v : Verdict) (d : Nat) (s : State) : State :=
  raiseCtl .proveEnd p (modRecord p (fun r => { r with endSlot := some ⟨v, d⟩ }) s)

/-- The reason that a PROVE-DECLINE carries once it is raised with `r` (R156; log entry 9). -/
def PairUnit.declineWith (r : DeclineReason) (u : PairUnit) : Option DeclineReason :=
  match u.ctl.contains .proveDecline, u.declineOut with
  | true, some r0 => if r0 ≠ r && Config.declineTakesLater r0 r then some r else some r0
  | _, _ => some r

/-- PROVE-DECLINE is raised on pair `p` with a reason (R156); a raise in a state that does not permit it
changes nothing (R29). -/
def raiseDecline (p : PairNo) (r : DeclineReason) (s : State) : State :=
  if Ctl.permitted .proveDecline (s.pair p).state then
    raiseCtl .proveDecline p (modPair p (fun u => { u with declineOut := u.declineWith r }) s)
  else s

/-- A proving message that the receiving state does not expect is counted (R160, R169). -/
def countStray (p : PairNo) (s : State) : State :=
  countPair p (fun n => { n with proveStray := n.proveStray + 1 }) s

/-! ## Start and grant -/

/-- The record at the start of a run (R153). -/
def ProvingRecord.started (r : ProvingRecord) : ProvingRecord :=
  { status := .requesting, lastVerdict := r.lastVerdict, receivedD := r.receivedD, endSlot := r.endSlot }

/-- A run starts on pair `p` (R151): the pair enters PROVING, the engine takes the run with stage
REQUESTING, and PROVE-REQUEST is raised with the answer timer running (R155). -/
def startRun (p : PairNo) (s : State) : State :=
  let s := modRecord p ProvingRecord.started (moveTo p .proving s)
  raiseCtl .proveRequest p { s with engine := some {
    pair := p, running := false, step := 0, outstanding := false, started := none
    answerTimer := some ⟨s.now, ms (4 * s.cfg.stepTimeout)⟩, stepTimer := none } }

/-- The lowest-numbered pair that waits for the engine: in STANDBY with the prove-wanted flag (R152). -/
def waitingPair (s : State) : Option PairNo :=
  allPairs.find? fun p => (s.pair p).state = .standby && (s.pair p).proveWanted

/-- The engine becomes free and serves the waiting pairs (R152). -/
def freeEngine (s : State) : State :=
  let s := { s with engine := none }
  match waitingPair s with
  | some p => startRun p s
  | none => s

/-- The pair's own run is REQUESTING or RUNNING (R150). -/
def State.runOn (s : State) (p : PairNo) : Bool := s.engine.any fun r => r.pair = p

/-- Pair `p` wants proving: it enters PROVING with a run when the engine is free, and STANDBY with the
prove-wanted flag otherwise (R8 a, R15 a). -/
def proveOrWait (p : PairNo) (s : State) : State :=
  match s.engine with
  | none => startRun p s
  | some _ => modPair p (fun u => { u with proveWanted := true }) (moveTo p .standby s)

/-! ## Aborts -/

/-- The state after an abort (R165). -/
def AbortCause.stateAfter : AbortCause → PairState
  | .line => .down
  | .crossed => .halted
  | _ => .standby

/-- The argument of PROVING-DONE: the verdict code then the pair (R198). -/
def doneArg (v : Verdict) (p : PairNo) : NoticeArg :=
  { hi := verdictCode v, lo := BitVec.ofNat 8 p.val }

/-- The run on pair `p` is aborted (R165, steps a-f). -/
def abortRun (p : PairNo) (cause : AbortCause) (s : State) : State :=
  let s := { s with engine := none }
  let s := modRecord p (fun r => { r with status := .aborted, abortCause := some cause }) s
  let s := if cause = .write || cause = .noAnswer then raiseEnd p .aborted 0 s else s
  let s := moveTo p cause.stateAfter s
  freeEngine (raiseNotice .provingDone (doneArg .aborted p) s)

/-! ## Steps -/

/-- A step begins (R158): its pattern is put in the prove slot and is outstanding. -/
def beginStep (k : Fin 16) (s : State) : State :=
  match s.engine with
  | none => s
  | some r =>
    let s := { s with engine := some { r with
      running := true, step := k, outstanding := true, started := none, stepTimer := none } }
    modPair r.pair (fun u => { u with
      proveSlot := some { echo := false, step := k, octets := stepPattern k } }) s

/-- The run on pair `p` ends with its verdict (R161). -/
def endRun (p : PairNo) (s : State) : State :=
  let r := (s.pair p).record
  let v : Verdict := if r.failures = 0 then .passed else .failed
  let d := r.minTrip.map (· / 2)
  let s := modRecord p (fun r => { r with
    status := if r.failures = 0 then .passed else .failed, resultD := d }) s
  let s := modPair p (fun u => { u with delay := d.getD u.delay }) s
  let s := raiseEnd p v (d.getD 0) s
  let s :=
    if r.failures = 0 then moveTo p .joining s
    else if s.cfg.barOnFail then raiseForPair .pairBarred p (moveTo p .barred s)
    else moveTo p .standby s
  freeEngine (raiseNotice .provingDone (doneArg v p) s)

/-- The outcome of a step: a pass with its round trip, or a failure (R159). -/
inductive StepOutcome where
  | pass (trip : Nat)
  | fail (kind : FailKind) (offset : Option Nat) (expected received : Option Octet)
deriving DecidableEq, Repr

/-- The record after the outcome of step `k` (R159 a and b). -/
def ProvingRecord.afterStep (k : Fin 16) (o : StepOutcome) (r : ProvingRecord) : ProvingRecord :=
  match o with
  | .pass t => { r with
      stepsDone := r.stepsDone + 1
      minTrip := some (match r.minTrip with | none => t | some m => min m t)
      maxTrip := some (match r.maxTrip with | none => t | some m => max m t) }
  | .fail kind off e g => { r with
      stepsDone := r.stepsDone + 1
      failures := r.failures + 1
      firstFailure := if r.failures = 0 then
          some { step := k, kind := kind, offset := off, expected := e, received := g }
        else r.firstFailure }

/-- The current step of the run ends with an outcome: the step timer stops, the record takes it, and the
next step begins or the run ends at 16 steps done (R158, R159). -/
def endStep (o : StepOutcome) (s : State) : State :=
  match s.engine with
  | none => s
  | some r =>
    let s := { s with engine := some { r with outstanding := false, started := none, stepTimer := none } }
    let s := modRecord r.pair (ProvingRecord.afterStep r.step o) s
    if 16 ≤ ((s.pair r.pair).record).stepsDone then endRun r.pair s
    else beginStep (r.step + 1) s

/-- The lowest offset at which two runs of octets differ, counted from `i`, with the octet of each side
there; none where they are equal (R159 b). -/
def firstDifference : Nat → List Octet → List Octet → Option (Nat × Option Octet × Option Octet)
  | _, [], [] => none
  | i, [], g :: _ => some (i, none, some g)
  | i, e :: _, [] => some (i, some e, none)
  | i, e :: es, g :: gs => if e = g then firstDifference (i + 1) es gs else some (i, some e, some g)

/-- The round trip of a step whose pattern's handover began at `started`, in whole microseconds,
saturating at 65535 (R159 a; log entry 7). -/
def roundTrip (now : Nat) (started : Option Nat) : Nat :=
  match started with
  | some t => min 65535 (now - t)
  | none => (Config.tripWithoutStart now).toNat

/-- The outcome that a good echo gives its step (R159). -/
def echoOutcome (now : Nat) (r : Run) (octets : List Octet) : StepOutcome :=
  match firstDifference 0 (stepPattern r.step) octets with
  | none => .pass (roundTrip now r.started)
  | some (i, e, g) => .fail .mismatch (some i) e g

end Sys2Proof.Machine
end

