-- ==== Sys2Proof/Machine/Bond.lean ====
section
/-! DEFINITION. The bond controller: the local restart (R13, R44, R106, R130), the bond restart of a
CABINET (R39), and the adoption and FRESH tests of a HOMESTEAD (R41, R42). -/

namespace Sys2Proof.Machine
open Sys2Proof

/-- The local restart acts on a pair in this state (R13, R44 step 1). -/
def restartsPair (st : PairState) : Bool := st = .serving || st = .waking || st = .quiet

/-- Pair `p` at a local restart (R13, R44 step 1): its handover is cut off and counted, its queue is
discarded and counted FLUSHED, its pending set is emptied, a QUIET pair's transceiver is told wake,
and it enters JOINING. Its exit finds the collector's contexts cleared (R130), so it tests nothing. -/
def restartPair (p : PairNo) (s : State) : State :=
  let old := (s.pair p).state
  if restartsPair old then
    let s := cutHandover true p s
    let s := modPair p (fun u => { u with
      n := { u.n with flushed := u.n.flushed + BitVec.ofNat 32 u.queue.length }
      queue := [], ctl := [] }) s
    let s := if old = .quiet then tell p .wake s else s
    enterState p .joining s
  else s

/-- The distributor's part of a class at a local restart (R44 step 2, R106): the next sequence becomes 0
and the frame in progress is dropped and counted FLUSHED. -/
def restartDistributor (c : ClassNo) (s : State) : State :=
  match (s.cls c).current with
  | none => modClass c (fun k => { k with nextSeq := 0 }) s
  | some g =>
    let s := modClass c (fun k => { k with
      nextSeq := 0, current := none, n := { k.n with flushed := k.n.flushed + 1 } }) s
    if g.frame.resetReply then reportReset s else s

/-- The local restart (R44), after the epoch has been set. DEDUCED: log entry 23. -/
def localRestart (s : State) : State :=
  let s := eachPair allPairs restartPair s
  let s := eachClass restartDistributor s
  let s := eachClass restartClass s
  let s := { s with bond := { s.bond with carried := false, asking := false, askTimer := none } }
  raiseNotice .epochChanged (valueArg (s.bond.epoch.getD 0).toNat) s

/-- Sets the epoch. -/
def setEpoch (e : Option Epoch) (s : State) : State := { s with bond := { s.bond with epoch := e } }

/-- The bond restart of a CABINET (R39): the next epoch, the local restart, and RESTART raised on every pair
that the local restart moved to JOINING. -/
def bondRestart (s : State) : State :=
  let moved := allPairs.filter fun p => restartsPair (s.pair p).state
  let s := localRestart (setEpoch (s.bond.epoch.map (· + 1)) s)
  eachPair moved (raiseCtl .restart) s

/-- A HOMESTEAD's adoption test of a message that carries epoch `e` (R41). -/
def adopt (e : Epoch) (s : State) : State :=
  if s.bond.epoch = some e then s else localRestart (setEpoch (some e) s)

/-- A HOMESTEAD's FRESH test (R42). -/
def freshTest (fresh : Bool) (s : State) : State :=
  if fresh && (!s.fresh || s.bond.carried) then localRestart s else s

end Sys2Proof.Machine
end

