-- ==== Sys2Proof/Machine/Distributor.lean ====
section
/-! DEFINITION. The distributor: admission and displacement (R87, R88), the path decision (R97-R101), class
arbitration and placement (R93-R95), wake requests (R99) and demand wake (R103). -/

namespace Sys2Proof.Machine
open Sys2Proof

/-! ## Admission -/

/-- Inserts a frame behind every frame of its urgency or higher, and ahead of every frame of lower urgency
(R87). -/
def insertFrame (f : FrameRec) : List FrameRec → List FrameRec
  | [] => [f]
  | g :: gs => if f.urgency ≤ g.urgency then g :: insertFrame f gs else f :: g :: gs

/-- A frame takes a slot and its place in the queue of its class, and is counted ADMITTED (R87). -/
def takeSlot (c : ClassNo) (f : FrameRec) (s : State) : State :=
  let s := modClass c (fun k => { k with
    queue := insertFrame { f with order := s.nextOrder } k.queue
    n := { k.n with admitted := k.n.admitted + 1 } }) s
  { s with nextOrder := s.nextOrder + 1 }

/-- A QUEUE-DROP of class `c` is counted and raises its notice source (R88). -/
def countQueueDrop (c : ClassNo) (s : State) : State :=
  raiseNotice .queueDrop (valueArg c.val)
    (countClass c (fun n => { n with queueDrop := n.queueDrop + 1 }) s)

/-- A frame is offered to the distributor (R87, R88). Its record's admission order is given here. -/
def offerFrame (c : ClassNo) (f : FrameRec) (s : State) : State :=
  let k := s.cls c
  if k.holding < k.cfg.classLimit && s.slotsInUse < 128 then takeSlot c f s
  else
    match k.queue.getLast? with
    | some victim =>
      if victim.urgency < f.urgency then
        takeSlot c f (countQueueDrop c (modClass c (fun k => { k with queue := k.queue.dropLast }) s))
      else
        let s := countQueueDrop c s
        if f.resetReply then reportReset s else s
    | none =>
        let s := countQueueDrop c s
        if f.resetReply then reportReset s else s

/-- A frame of the agent or of the notice unit: class 0, urgency 7, every pair (R86). -/
def offerOwnFrame (f : Frame) (resetReply : Bool) (s : State) : State :=
  offerFrame 0 { octets := f, urgency := 7, map := everyPair, order := 0, resetReply := resetReply } s

/-! ## Demand wake -/

/-- The demand wake test (R103), and the wake request it makes. -/
def demandWake (s : State) : State :=
  if s.cfg.wakeThreshold ≤ s.waiting && allPairs.all fun p => (s.pair p).state != .waking then
    match fastestPair s fun p => (s.pair p).state = .quiet with
    | some p => wakeRequest p s
    | none => s
  else s

/-! ## The path decision -/

/-- The map of the frame that a path decision looks at: the frame in progress if the class has one, and
otherwise the head of its queue (5.5). -/
def ClassUnit.decisionMap (k : ClassUnit) : Option PairMap :=
  match k.current, k.queue with
  | some g, _ => some g.frame.map
  | none, f :: _ => some f.map
  | none, [] => none

/-- Replaces the map of that frame (R100). -/
def ClassUnit.setDecisionMap (m : PairMap) (k : ClassUnit) : ClassUnit :=
  match k.current, k.queue with
  | some g, _ => { k with current := some { g with frame := { g.frame with map := m } } }
  | none, f :: fs => { k with queue := { f with map := m } :: fs }
  | none, [] => k

/-- Spill: the map becomes the set of pairs that are SERVING, and SPILL is counted (R100). -/
def spillFrame (c : ClassNo) (s : State) : State :=
  let m := PairMap.ofPred fun p => (s.pair p).state = .serving
  modClass c (fun k => { k.setDecisionMap m with n := { k.n with spill := k.n.spill + 1 } }) s

/-- NO-PATH: the frame in progress, or else the head, is dropped and counted (R101). -/
def dropNoPath (c : ClassNo) (s : State) : State :=
  let k := s.cls c
  let flagged := match k.current, k.queue with
    | some g, _ => g.frame.resetReply
    | none, f :: _ => f.resetReply
    | none, [] => false
  let s := modClass c (fun k => { k with
    current := none
    queue := if k.current.isSome then k.queue else k.queue.tail
    n := { k.n with noPath := k.n.noPath + 1 } }) s
  if flagged then reportReset s else s

/-- The wake request of a path decision that waits (R99): to the QUIET member of the map with the largest R,
where no member is WAKING; counted WAKE-ASK. The pair is WAKING before the next class is tested. DESIGN CHOICE:
log entry 40. -/
def askWake (c : ClassNo) (m : PairMap) (s : State) : State :=
  if allPairs.any fun p => m.holds p && (s.pair p).state = .waking then s
  else
    match fastestPair s fun p => m.holds p && (s.pair p).state = .quiet with
    | some p => wakeRequest p (countClass c (fun n => { n with wakeAsk := n.wakeAsk + 1 }) s)
    | none => s

/-- The path decision of a class (R97, R98), over at most `n` frames and maps of the class: whether the
result is PLACE, and the state with the spills, NO-PATH drops and wake request that it makes. -/
def pathDecision : Nat → ClassNo → State → Bool × State
  | 0, _, s => (false, s)
  | n + 1, c, s =>
    match (s.cls c).decisionMap with
    | none => (false, s)
    | some m =>
      if allPairs.any (eligible s m) then (true, s)
      else if allPairs.any fun p => m.holds p && (s.pair p).state = .serving then (false, s)
      else if allPairs.any fun p =>
          m.holds p && ((s.pair p).state = .quiet || (s.pair p).state = .waking) then
        (false, askWake c m s)
      else if (s.cls c).cfg.spill then pathDecision n c (spillFrame c s)
      else pathDecision n c (dropNoPath c s)

/-- Every frame of the class can be spilled once and dropped once. -/
def decisionsOf (k : ClassUnit) : Nat := 2 * (k.queue.length + 1) + 1

/-! ## Placement and selection -/

/-- The head becomes the frame in progress of a class that has none, with the fragment size read (R90). -/
def ClassUnit.startFrame (k : ClassUnit) : ClassUnit :=
  match k.current, k.queue with
  | none, f :: fs => { k with
      queue := fs, current := some { frame := f, size := k.cfg.fragmentSize, offset := 0 } }
  | _, _ => k

/-- The next fragment of a frame in progress (R91, R93 a-c). -/
def InProgress.descriptor (c : ClassNo) (q : Seq) (g : InProgress) : Desc :=
  let payload := (g.frame.octets.drop g.offset).take g.size
  { cls := c, seq := q, first := g.offset = 0
    last := g.frame.octets.length ≤ g.offset + payload.length
    payload := payload, allowed := g.frame.map, resetReply := g.frame.resetReply }

/-- The frame in progress after its next fragment of `n` octets is placed: gone when that was the last
(R90, R93 e). -/
def InProgress.advance (n : Nat) (g : InProgress) : Option InProgress :=
  if g.frame.octets.length ≤ g.offset + n then none else some { g with offset := g.offset + n }

/-- The next fragment of a class is placed by pair choice (R93). -/
def placeFragment (c : ClassNo) (s : State) : State :=
  let s := modClass c ClassUnit.startFrame s
  match (s.cls c).current with
  | none => s
  | some g =>
    let e := g.descriptor c (s.cls c).nextSeq
    match choosePair s e.allowed e.len with
    | none => s
    | some p =>
      append p e (setCarried (modClass c (fun k => { k with
        current := g.advance e.payload.length
        nextSeq := k.nextSeq + 1
        n := { k.n with fragPlaced := k.n.fragPlaced + 1 } }) s))

/-- The class order of a class order code (R95). -/
def classOrder : Nat → List ClassNo
  | 1 => [0, 1, 2]
  | 2 => [0, 2, 1]
  | 3 => [1, 0, 2]
  | 4 => [1, 2, 0]
  | 5 => [2, 0, 1]
  | 6 => [2, 1, 0]
  | _ => [0, 1, 2]

/-- One selection over the classes in their order (R95): the first whose path decision gives PLACE has one
fragment placed. The result says whether one was. -/
def selectFrom : List ClassNo → State → Bool × State
  | [], s => (false, s)
  | c :: cs, s =>
    match pathDecision (decisionsOf (s.cls c)) c s with
    | (true, s) => (true, placeFragment c s)
    | (false, s) => selectFrom cs s

/-- A pair is open (R94). -/
def PairUnit.isOpen (u : PairUnit) : Bool :=
  u.state = .serving && !u.offering && u.queue.length < 32

/-- Selections run while a pair is open and a class holds a frame (R94). -/
def selectionRuns (s : State) : Bool :=
  (allPairs.any fun p => (s.pair p).isOpen) && allClasses.any fun c => (s.cls c).decisionMap.isSome

/-- Selections, at most `n` of them, each with the demand wake test that its changes start (R94, R95,
R103). DESIGN CHOICE: log entry 36. -/
def selectUpTo : Nat → State → State
  | 0, s => s
  | n + 1, s =>
    if selectionRuns s then
      match selectFrom (classOrder s.cfg.classOrder) s with
      | (true, s) => selectUpTo n (demandWake s)
      | (false, s) => demandWake s
    else s

/-- The demand wake test and the selections that follow an event of R94. The transmit queues take at most
256 fragments between two handovers, so 257 selections suffice. -/
def distribute (s : State) : State := selectUpTo 257 (demandWake s)

end Sys2Proof.Machine
end

