-- ==== Sys2Proof/Machine/Notices.lean ====
section
/-! DEFINITION. The notice sender (R198, R199) and the trunk port's sends (R148). -/

namespace Sys2Proof.Machine
open Sys2Proof

/-- Every source, in the order of the source numbers (11.1). -/
def allSources : List Source :=
  [.restarted, .pairDown, .pairBarred, .pairUp, .provingDone, .strike, .wakeError, .tableMatch,
   .epochChanged, .queueDrop, .gapLoss]

/-- The unit of a source. -/
def State.source (s : State) (src : Source) : SourceUnit := s.notices.sources.get (sourceIndex src)

/-- A source is sendable (R198). -/
def sendable (s : State) (src : Source) : Bool :=
  (s.source src).due && (s.source src).enable && s.notices.destination.isSome

/-- The source that the sender takes: an urgent one before a routine one, then the lowest number (R198). -/
def nextNotice (s : State) : Option Source :=
  match allSources.find? fun src => sendable s src && (s.source src).level = .urgent with
  | some src => some src
  | none => allSources.find? (sendable s)

/-- The code of a reset cause (R198). -/
def causeCode : ResetCause → Nat
  | .powerOn => 0
  | .supplyLow => 1
  | .pin => 2
  | .management => 3

/-- The ten octets of a notice body (R198). -/
def noticeBody (s : State) (src : Source) : List Octet :=
  let u := s.source src
  let a := u.arg.getD ⟨0, 0⟩
  let r := s.notices.record
  [BitVec.ofNat 8 ((sourceIndex src).val + 1), if u.level = .urgent then 0 else 1, a.hi, a.lo,
   BitVec.ofNat 8 u.repeats, BitVec.ofNat 8 (causeCode r.last), BitVec.ofNat 8 r.powerOn,
   BitVec.ofNat 8 r.supplyLow, BitVec.ofNat 8 r.pin, BitVec.ofNat 8 r.management]

/-- A management frame of the part (R185, R196, R198): its flags octet carries the reply flag. -/
def ownFrame (destination station : Addr) (far : Bool) (kind status : Octet) (tag : BitVec 16)
    (body : List Octet) : Frame :=
  octets48 destination ++ octets48 station ++ mgmtType ++
    [1, if far then 0xC0 else 0x80, kind, status] ++ octets16 tag ++
    octets16 (BitVec.ofNat 16 body.length) ++ body

/-- The frame of a source's notice (R198). -/
def noticeFrame (s : State) (src : Source) (destination : Addr) : Frame :=
  ownFrame destination s.cfg.stationAddress (s.notices.path = .bond) 32 0 s.notices.number
    (noticeBody s src)

/-- The sender forms the notice of one source, clears its due flag and offers the frame on the notice path
(R198, R199). An offer to the distributor is followed by its selections (R87). DEDUCED: log entry 24. -/
def sendNotice (src : Source) (destination : Addr) (s : State) : State :=
  let f := noticeFrame s src destination
  let s := modSource src (fun u => { u with due := false }) s
  let s := emit (.notice src f) { s with notices := { s.notices with number := s.notices.number + 1 } }
  match s.notices.path with
  | .trunk => offerEgress { frame := f, source := .notice, resetReply := false } s
  | .bond => distribute (offerOwnFrame f false s)

/-- The sender sends while a source is sendable, at most `n` notices (R198). -/
def sendUpTo : Nat → State → State
  | 0, s => s
  | n + 1, s =>
    match nextNotice s, s.notices.destination with
    | some src, some d => sendUpTo n (sendNotice src d s)
    | _, _ => s

/-- The sender's choices after an event (R198). Each notice clears a due flag that only a first raise sets
again, so no source sends twice. -/
def sendNotices (s : State) : State := sendUpTo 12 s

/-- The head of the trunk egress queue begins its send when the conditions hold (R148). -/
def beginSend (s : State) : State :=
  match s.trunk.egress with
  | [] => s
  | e :: _ =>
    if s.trunk.ready && !s.trunk.sending then
      emit (.trunkSend e.frame) { s with trunk := { s.trunk with sending := true } }
    else s

end Sys2Proof.Machine
end

