-- ==== Sys2Proof/Machine/Reset.lean ====
section
/-! DEFINITION. Full resets (R194, R201), the pending RESET-PART (R193), and what follows an event in the
other blocks. -/

namespace Sys2Proof.Machine
open Sys2Proof

/-- The reset cause record after a full reset of a cause (R201 a-c). -/
def CauseRecord.after (r : CauseRecord) : ResetCause → CauseRecord
  | .powerOn => { last := .powerOn, powerOn := 1, supplyLow := 0, pin := 0, management := 0 }
  | .supplyLow => { r with last := .supplyLow, supplyLow := min 255 (r.supplyLow + 1) }
  | .pin => { r with last := .pin, pin := min 255 (r.pin + 1) }
  | .management => { r with last := .management, management := min 255 (r.management + 1) }

/-- What a full reset cuts off: a trunk send and the handovers in progress (R4, R148, R194). -/
def cutAll (s : State) : State :=
  let s := eachPair allPairs (cutHandover false) s
  if s.trunk.sending then emit .trunkCut { s with trunk := { s.trunk with sending := false } } else s

/-- The straps as a reset of a cause reads them at its completion (R194): a physical reset as the command presents
them, which `fullResetComplete` has stored, and a MANAGEMENT reset as they stand then, which no command presents.
DESIGN CHOICE: log entry 4. -/
def readStraps (cause : ResetCause) (s : State) : State :=
  match cause with
  | .management => { s with
      strapRole := if Config.strappedHomestead s.strapReads then .homestead else .cabinet
      straps := Config.strapsRead s.strapReads
      strapReads := s.strapReads + 1 }
  | .powerOn | .supplyLow | .pin => s

/-- The completion of a full reset (R194, R201): the straps are read, every block takes its full reset
values, the cause is recorded, RESTARTED is raised and the transceivers are told train. -/
def completeReset (cause : ResetCause) (s : State) : State :=
  let s := readStraps cause s
  let b := State.blank s.strapRole s.straps s.strapReads (s.notices.record.after cause) s.pending
  let b := raiseNotice .restarted (valueArg (causeCode cause)) { b with out := s.out }
  eachPair allPairs (fun p => tell p .train) b

/-- A frame with its reset-reply flag set is in the distributor (R84). -/
def ClassUnit.holdsResetReply (k : ClassUnit) : Bool :=
  k.queue.any (·.resetReply) || k.current.any (·.frame.resetReply)

/-- The reply of a RESET-PART, or a fragment of it, is still in the distributor or in a transmit queue
(R193 b). -/
def resetReplyHeld (s : State) : Bool :=
  (allClasses.any fun c => (s.cls c).holdsResetReply) ||
    allPairs.any fun p => (s.pair p).queue.any (·.resetReply)

/-- The pending RESET-PART is performed once its report has come (R193 a, b). -/
def checkReset (s : State) : State :=
  match s.agent.reset with
  | none => s
  | some r =>
    if r.reported || (r.path = .bond && !resetReplyHeld s) then completeReset .management (cutAll s)
    else s

/-- What follows an event that has raised a notice or put something in a queue, but started no selection:
the notice sender, the pairs' choices, the trunk send and the pending RESET-PART. -/
def finish (s : State) : State := checkReset (beginSend (chooseHandovers (sendNotices s)))

/-- What follows an event of R94 (log entry 11): the pairs' choices, the distributor's demand wake test and
selections, and then `finish`. -/
def settle (s : State) : State := finish (distribute (chooseHandovers s))

/-- A physical reset has begun and not completed: the part sends nothing and takes nothing (R194). -/
def ResetProgress.held (r : ResetProgress) : Bool := r.powerOn || r.supplyLow || r.pin

/-- A command taken by the part: its effect while no reset is in progress, and none while one is (R194).
The outputs are those of this command alone. -/
def takeCommand (f : State → State) (s : State) : Host.Outcome State Fault Refusal :=
  let s := { s with out := [] }
  .next (if s.resets.held then s else f s)

end Sys2Proof.Machine
end

