-- ==== Sys2Proof/Machine/LineCommands.lean ====
section
/-! DEFINITION. The transceiver's reports and the events of the line: LINE_UP, LINE_DOWN, HANDOVER_COMPLETE and
DAMAGED (R4, R5, R8, R9, R14, R15, R158 b). -/

namespace Sys2Proof.Machine
open Sys2Proof

/-- A line-up report is recorded: the line flag is up, the trained rate is written and R takes its initial value
(R8, R69 a-c). -/
def PairUnit.lineReport (rate : Nat) (u : PairUnit) : PairUnit :=
  { u with line := true, trained := rate, rate := initialRate rate }

/-- A line-up report on pair `p`, by its state (R8, R69, R70 a, R178 d, R179). The report in ABSENT is discarded;
it is counted as every line-up report is (log entry 12). -/
def lineUp (p : PairNo) (rate : Nat) (s : State) : State :=
  let s := countPair p (fun n => { n with lineUp := n.lineUp + 1 }) s
  let up := modPair p (PairUnit.lineReport rate)
  match (s.pair p).state with
  | .absent => s
  | .down => settle (if s.cfg.autoProve then proveOrWait p (up s) else moveTo p .joining (up s))
  | .quiet => settle (enterWaking p .line (up s))
  | .waking => chooseHandover p (raiseCtl .alive p (up s))
  | .serving => chooseHandover p (modPair p (PairUnit.startWindow s.now s.cfg) (up s))
  | .standby | .proving | .halted | .joining | .barred => chooseHandover p (up s)

/-- LINE_UP. -/
def execLineUp (p : PairNo) (rate : Nat) (s : State) : Host.Outcome State Fault Refusal :=
  takeCommand (lineUp p rate) s

/-- A line-down report on pair `p`, by its state (R9). -/
def lineDown (p : PairNo) (s : State) : State :=
  let counted := countPair p (fun n => { n with lineDown := n.lineDown + 1 }) s
  match (s.pair p).state with
  | .absent | .quiet => s
  | .down => counted
  | .barred => modPair p (fun u => { u with line := false }) (cutHandover false p counted)
  | .serving => settle (raiseForPair .pairDown p (moveTo p .down counted))
  | .proving => settle (abortRun p .line counted)
  | .waking | .standby | .joining | .halted => settle (moveTo p .down counted)

/-- LINE_DOWN. -/
def execLineDown (p : PairNo) (s : State) : Host.Outcome State Fault Refusal :=
  takeCommand (lineDown p) s

/-- The pair unit after a completed handover (R4, R19, R71, R72, R172): counted and added to the window, and a
DATA entry leaves the queue, which clears the busy flag when it leaves it empty and restarts the idle timer. -/
def PairUnit.handedOver (now : Nat) (f : Fragment) (u : PairUnit) : PairUnit :=
  let u : PairUnit := { u with
    handover := none
    windowCount := if u.window.isSome then u.windowCount + f.len else u.windowCount
    n := { u.n with
      fragOut := u.n.fragOut + 1, octetOut := u.n.octetOut + BitVec.ofNat 32 f.len } }
  if f.kind = 0 then
    PairUnit.restartIdle now { u with queue := u.queue.tail, busy := u.busy && !u.queue.tail.isEmpty }
  else u

/-- A handover completes on pair `p` (R4). A completed QUIET-AGREE makes its pair enter QUIET (R174). A completion
on a pair that hands nothing over has no effect (log entry 13). -/
def handoverComplete (p : PairNo) (s : State) : State :=
  match (s.pair p).handover with
  | none => s
  | some h =>
    let s := modPair p (PairUnit.handedOver s.now h.frag) s
    settle (if h.frag.kind = 6 && (s.pair p).state = .serving then enterQuiet p s else s)

/-- HANDOVER_COMPLETE. -/
def execHandoverComplete (p : PairNo) (s : State) : Host.Outcome State Fault Refusal :=
  takeCommand (handoverComplete p) s

/-- A strike of pair `p` (R15): strikes rise, and the pair leaves SERVING for BARRED at the strike limit, and
otherwise for PROVING or STANDBY by *auto-prove* and the engine. DEDUCED: log entry 28. -/
def strike (p : PairNo) (s : State) : State :=
  let s := raiseForPair .strike p (modPair p (fun u => { u with
    strikes := min 15 (u.strikes + 1), n := { u.n with strike := u.n.strike + 1 } }) s)
  let s :=
    if (s.pair p).cfg.strikeLimit ≤ (s.pair p).strikes then raiseForPair .pairBarred p (moveTo p .barred s)
    else if s.cfg.autoProve then proveOrWait p s
    else moveTo p .standby s
  raiseForPair .pairDown p s

/-- A damaged fragment is received on pair `p` (R5, R14, R158 b). -/
def damaged (p : PairNo) (s : State) : State :=
  let counted := countPair p (fun n => { n with damaged := n.damaged + 1 }) s
  match (s.pair p).state with
  | .absent | .down => s
  | .serving =>
    let s := modPair p (fun u => { u with errCount := u.errCount + 1 }) counted
    if (s.pair p).cfg.errorLimit < (s.pair p).errCount then settle (strike p s) else s
  | .proving =>
    if s.engine.any fun r => r.pair = p && r.outstanding then
      settle (endStep (.fail .damaged none none none) counted)
    else counted
  | .standby | .halted | .joining | .quiet | .waking | .barred => counted

/-- DAMAGED. -/
def execDamaged (p : PairNo) (s : State) : Host.Outcome State Fault Refusal :=
  takeCommand (damaged p) s

end Sys2Proof.Machine
end

