-- ==== Sys2Proof/Machine/ReceiveCommands.lean ====
section
/-! DEFINITION. The good fragments by kind: UNKNOWN_KIND, DATA and the link control kinds (R5, R10, R26-R28, R34,
R37-R42, R155-R167, R174-R176, R180). -/

namespace Sys2Proof.Machine
open Sys2Proof

/-! ## What every good fragment meets -/

/-- The pair unit after a good fragment of payload length `len` (R5, R10, R19): counted, and in SERVING the heard
timer restarts. -/
def PairUnit.heard (now : Nat) (b : BondSettings) (len : Nat) (u : PairUnit) : PairUnit :=
  { u with
    supervision := if u.state = .serving then some (.heard, ⟨now, b.heardTime⟩) else u.supervision
    n := { u.n with
      fragIn := u.n.fragIn + 1, octetIn := u.n.octetIn + BitVec.ofNat 32 (len + 7) } }

/-- A good fragment on pair `p`: discarded without test or count in DOWN and ABSENT, and otherwise counted and then
taken (R5). -/
def receive (p : PairNo) (len : Nat) (f : State → State) (s : State) : State :=
  if (s.pair p).state = .absent || (s.pair p).state = .down then s
  else f (modPair p (PairUnit.heard s.now s.cfg len) s)

/-- An ill-formed fragment (R26). -/
def countBadField (p : PairNo) (s : State) : State :=
  countPair p (fun n => { n with badField := n.badField + 1 }) s

/-- A fragment of another epoch (R27). -/
def countEpochMismatch (p : PairNo) (s : State) : State :=
  countPair p (fun n => { n with epochMismatch := n.epochMismatch + 1 }) s

/-- A message at the wrong role (R27). -/
def countRoleClash (p : PairNo) (s : State) : State :=
  countPair p (fun n => { n with roleClash := n.roleClash + 1 }) s

/-- A fragment of the current epoch is taken; one of another epoch is counted EPOCH-MISMATCH (R27). -/
def inEpoch (p : PairNo) (e : Epoch) (f : State → State) (s : State) : State :=
  if s.bond.epoch = some e then f s else countEpochMismatch p s

/-- UNKNOWN_KIND (R26). -/
def execUnknownKind (p : PairNo) (_kind : BitVec 4) (len : Nat) (s : State) :
    Host.Outcome State Fault Refusal :=
  takeCommand (receive p len (countPair p fun n => { n with unknownKind := n.unknownKind + 1 })) s

/-! ## DATA -/

/-- The class that the class field of a DATA fragment names; none is class value 3 (R26 a). -/
def classOf (c : BitVec 2) : Option ClassNo := if h : c.toNat < 3 then some ⟨c.toNat, h⟩ else none

/-- A DATA fragment taken on pair `p` restarts its idle timer (R172), and lapses its offer unless the handover of
its QUIET-AGREE has begun (R176 a). -/
def dataOnPair (p : PairNo) (s : State) : State :=
  let s := modPair p (PairUnit.restartIdle s.now) s
  let u := s.pair p
  if u.state = .serving && u.offering && !u.agreeBegun then lapse p s else s

/-- A DATA fragment of the current epoch is taken on pair `p` (R28): a JOINING pair enters SERVING, a WAKING pair's
wake completes, and then the collector takes it (R116). An entry to SERVING and a lapsed offer start selections
(R94 c and d). -/
def takeDataFragment (p : PairNo) (c : ClassNo) (f : DataFields) (s : State) : State :=
  let held : Held := { seq := f.seq, first := f.first, last := f.last, payload := f.payload }
  let take := fun s => takeData c p held (dataOnPair p s)
  match (s.pair p).state with
  | .joining => settle (take (joinServing p s))
  | .waking => settle (take (completeWake p s))
  | .serving => if (s.pair p).offering then settle (take s) else finish (take s)
  | _ => take s

/-- DATA. -/
def execData (p : PairNo) (f : DataFields) (s : State) : Host.Outcome State Fault Refusal :=
  takeCommand (receive p f.payload.length fun s =>
    match classOf f.cls with
    | none => countBadField p s
    | some c => inEpoch p f.epoch (takeDataFragment p c f) s) s

/-! ## JOIN, ALIVE, RESTART, RESTART-ASK -/

/-- The effect of a JOIN in the current epoch on a SERVING pair (R34 c): ALIVE is raised and the pair's horizons
become NONE. -/
def joinOnServing (p : PairNo) (s : State) : State := clearHorizons p (raiseCtl .alive p s)

/-- The effect of a JOIN by the pair's state, once it is recorded and the tests on FRESH and adoption are made
(R34 a-d, R180). -/
def joinByState (p : PairNo) (e : Epoch) (s : State) : State :=
  let current : Bool := s.bond.epoch = some e
  match (s.pair p).state with
  | .joining => if current then joinServing p s else raiseCtl .restart p s
  | .serving => if current then joinOnServing p s else raiseCtl .restart p s
  | .waking => if current then joinOnServing p (completeWake p s) else raiseCtl .restart p s
  | _ => s

/-- A well-formed JOIN from the other role is taken on pair `p` (R34, R39 c, R41, R42). -/
def takeJoin (p : PairNo) (e : Epoch) (role : Role) (far : PairNo) (fresh : Bool) (s : State) : State :=
  let s := modPair p (fun u => { u with farPair := some far, farRole := some role }) s
  let s :=
    match s.bond.role with
    | .cabinet => if fresh && s.bond.carried then bondRestart s else s
    | .homestead => freshTest fresh (adopt e s)
  settle (joinByState p e s)

/-- JOIN. None is taken on a QUIET pair (R178; log entry 14). -/
def execJoin (p : PairNo) (h : CtlHead) (j : JoinFields) (s : State) : Host.Outcome State Fault Refusal :=
  takeCommand (receive p h.len fun s =>
    match roleOf j.role, pairOf j.pair with
    | some role, some far =>
      if h.len ≠ 2 then countBadField p s
      else if role = s.bond.role then countRoleClash p s
      else if (s.pair p).state = .quiet then s
      else takeJoin p h.epoch role far j.fresh s
    | _, _ => countBadField p s) s

/-- The horizons that an ALIVE carries, class by class. -/
def aliveHorizons (a : AliveFields) : ClassNo → BitVec 16
  | 0 => a.h0
  | 1 => a.h1
  | 2 => a.h2

/-- An ALIVE's fields are well formed: every horizon is at most 16383 (R26 c). -/
def aliveFormed (a : AliveFields) : Bool := allClasses.all fun c => (aliveHorizons a c).toNat ≤ 16383

/-- An ALIVE in the current epoch acts by the pair's state (R37). -/
def aliveByState (p : PairNo) (a : AliveFields) (s : State) : State :=
  let set := takeHorizons p fun c => (aliveHorizons a c).setWidth 14
  match (s.pair p).state with
  | .serving => finish (set s)
  | .joining => settle (set (joinServing p s))
  | .waking => settle (set (completeWake p s))
  | _ => settle s

/-- ALIVE. A HOMESTEAD first makes the adoption test (R27, R41). None is taken on a QUIET pair (R178; log entry
14). -/
def execAlive (p : PairNo) (h : CtlHead) (a : AliveFields) (s : State) : Host.Outcome State Fault Refusal :=
  takeCommand (receive p h.len fun s =>
    if h.len ≠ 6 || !aliveFormed a then countBadField p s
    else if (s.pair p).state = .quiet then s
    else
      match s.bond.role with
      | .cabinet => inEpoch p h.epoch (aliveByState p a) s
      | .homestead => aliveByState p a (adopt h.epoch s)) s

/-- RESTART (R27, R41). None is taken on a QUIET pair (R178; log entry 14). -/
def execRestart (p : PairNo) (h : CtlHead) (s : State) : Host.Outcome State Fault Refusal :=
  takeCommand (receive p h.len fun s =>
    if h.len ≠ 0 then countBadField p s
    else
      match s.bond.role with
      | .cabinet => countRoleClash p s
      | .homestead => if (s.pair p).state = .quiet then s else settle (adopt h.epoch s)) s

/-- RESTART-ASK (R27, R39 b, R40 a). None is taken on a QUIET pair (R178; log entry 14). -/
def execRestartAsk (p : PairNo) (h : CtlHead) (s : State) : Host.Outcome State Fault Refusal :=
  takeCommand (receive p h.len fun s =>
    if h.len ≠ 0 then countBadField p s
    else
      match s.bond.role with
      | .homestead => countRoleClash p s
      | .cabinet =>
        if (s.pair p).state = .quiet then s
        else if s.bond.epoch = some h.epoch then settle (bondRestart s)
        else chooseHandover p (raiseCtl .restart p s)) s

/-! ## QUIET-OFFER and QUIET-AGREE -/

/-- A QUIET-OFFER in the current epoch is taken on pair `p` (R174). -/
def takeOffer (p : PairNo) (s : State) : State :=
  let u := s.pair p
  if u.state = .serving && u.offering && !u.agreeing then
    chooseHandover p (raiseCtl .quietAgree p (modPair p (dropCtl [.quietOffer]) s))
  else if mayAgree s p then
    chooseHandover p (raiseCtl .quietAgree p (modPair p (fun u => { u with
      offering := true, offerTimer := some (offerTime s) }) s))
  else s

/-- QUIET-OFFER. -/
def execQuietOffer (p : PairNo) (h : CtlHead) (s : State) : Host.Outcome State Fault Refusal :=
  takeCommand (receive p h.len fun s =>
    if h.len ≠ 0 then countBadField p s else inEpoch p h.epoch (takeOffer p) s) s

/-- A QUIET-AGREE in the current epoch is taken on pair `p`: an offering SERVING pair enters QUIET (R175). -/
def takeAgree (p : PairNo) (s : State) : State :=
  if (s.pair p).state = .serving && (s.pair p).offering then settle (enterQuiet p s) else s

/-- QUIET-AGREE. -/
def execQuietAgree (p : PairNo) (h : CtlHead) (s : State) : Host.Outcome State Fault Refusal :=
  takeCommand (receive p h.len fun s =>
    if h.len ≠ 0 then countBadField p s else inEpoch p h.epoch (takeAgree p) s) s

/-! ## The proving messages -/

/-- A PROVE-REQUEST is taken on pair `p`, by the first case that applies (R156). -/
def takeProveRequest (p : PairNo) (s : State) : State :=
  let u := s.pair p
  let halt := fun s => settle (raiseCtl .proveAccept p (moveTo p .halted s))
  if !u.cfg.echoConsent then chooseHandover p (raiseDecline p .noConsent s)
  else
    match u.state with
    | .proving =>
      match s.bond.role with
      | .homestead => settle (raiseCtl .proveAccept p (abortRun p .crossed s))
      | .cabinet => chooseHandover p (raiseDecline p .crossedWin s)
    | .standby | .joining => halt s
    | .serving => settle (raiseForPair .pairDown p (raiseCtl .proveAccept p (moveTo p .halted s)))
    | .halted =>
      chooseHandover p (raiseCtl .proveAccept p (modPair p (fun u => { u with
        haltTimer := some ⟨s.now, ms (4 * s.cfg.stepTimeout)⟩, proveSlot := none }) s))
    | .waking => chooseHandover p (raiseDecline p .state s)
    | .absent | .down | .quiet | .barred => countStray p s

/-- PROVE-REQUEST. -/
def execProveRequest (p : PairNo) (h : CtlHead) (s : State) : Host.Outcome State Fault Refusal :=
  takeCommand (receive p h.len fun s =>
    if h.len ≠ 0 then countBadField p s else takeProveRequest p s) s

/-- The run of this part's engine on pair `p` is REQUESTING, with the pair in PROVING. -/
def State.requestingOn (s : State) (p : PairNo) : Bool :=
  (s.pair p).state = .proving && s.engine.any fun r => r.pair = p && !r.running

/-- A PROVE-ACCEPT is taken on pair `p` (R155 a, R160 a). -/
def takeAccept (p : PairNo) (s : State) : State :=
  if s.requestingOn p then
    let s := { s with engine := s.engine.map fun r => { r with answerTimer := none } }
    chooseHandover p (beginStep 0 (modRecord p (fun r => { r with status := .running }) s))
  else countStray p s

/-- PROVE-ACCEPT. -/
def execProveAccept (p : PairNo) (h : CtlHead) (s : State) : Host.Outcome State Fault Refusal :=
  takeCommand (receive p h.len fun s =>
    if h.len ≠ 0 then countBadField p s else takeAccept p s) s

/-- A PROVE-DECLINE is taken on pair `p` (R155 b, R160 a). -/
def takeDecline (p : PairNo) (reason : DeclineReason) (s : State) : State :=
  if s.requestingOn p then
    settle (abortRun p .declined (modRecord p (fun r => { r with declineReason := some reason }) s))
  else countStray p s

/-- PROVE-DECLINE. -/
def execProveDecline (p : PairNo) (h : CtlHead) (reason : Octet) (s : State) :
    Host.Outcome State Fault Refusal :=
  takeCommand (receive p h.len fun s =>
    match reasonOf reason with
    | some r => if h.len ≠ 1 then countBadField p s else takeDecline p r s
    | none => countBadField p s) s

/-- The step that a sequence field names; none is a step index above 15 (R26 d). -/
def stepOf (q : Seq) : Option (Fin 16) := if h : q.toNat < 16 then some ⟨q.toNat, h⟩ else none

/-- A PROVE-PATTERN is taken on pair `p`: a HALTED pair echoes it (R163, R160 c). -/
def takePattern (p : PairNo) (k : Fin 16) (os : List Octet) (s : State) : State :=
  if (s.pair p).state = .halted then
    chooseHandover p (modPair p (fun u => { u with
      proveSlot := some { echo := true, step := k, octets := os }
      haltTimer := some ⟨s.now, ms (4 * s.cfg.stepTimeout)⟩ }) s)
  else countStray p s

/-- PROVE-PATTERN. -/
def execProvePattern (p : PairNo) (f : ProbeFields) (s : State) : Host.Outcome State Fault Refusal :=
  takeCommand (receive p f.octets.length fun s =>
    match stepOf f.step with
    | some k => takePattern p k f.octets s
    | none => countBadField p s) s

/-- A PROVE-ECHO of step `k` is taken on pair `p` (R158 a, R159, R160 b). -/
def takeEcho (p : PairNo) (k : Fin 16) (os : List Octet) (s : State) : State :=
  match s.engine with
  | some r =>
    if (s.pair p).state = .proving && r.pair = p && r.running && r.outstanding && r.step = k then
      settle (endStep (echoOutcome s.now r os) s)
    else countStray p s
  | none => countStray p s

/-- PROVE-ECHO. -/
def execProveEcho (p : PairNo) (f : ProbeFields) (s : State) : Host.Outcome State Fault Refusal :=
  takeCommand (receive p f.octets.length fun s =>
    match stepOf f.step with
    | some k => takeEcho p k f.octets s
    | none => countBadField p s) s

/-- A PROVE-END on a HALTED pair (R164 a, R75 b). -/
def endHalt (p : PairNo) (v : Verdict) (delay : Nat) (s : State) : State :=
  let s := modRecord p (fun r => { r with lastVerdict := some v, receivedD := some delay }) s
  if v = .passed then moveTo p .joining (modPair p (fun u => { u with delay := delay }) s)
  else moveTo p .standby s

/-- A PROVE-END is taken on pair `p` (R160 d, R164 a, R167). A HALTED pair takes one of any verdict, RELEASED among
them. DEDUCED: log entry 43. -/
def takeEnd (p : PairNo) (v : Verdict) (delay : Nat) (s : State) : State :=
  match (s.pair p).state with
  | .halted => settle (endHalt p v delay s)
  | .proving => if v = .released && s.runOn p then settle (abortRun p .released s) else countStray p s
  | _ => countStray p s

/-- PROVE-END. -/
def execProveEnd (p : PairNo) (h : CtlHead) (e : EndFields) (s : State) : Host.Outcome State Fault Refusal :=
  takeCommand (receive p h.len fun s =>
    match verdictOf e.verdict with
    | some v => if h.len ≠ 3 then countBadField p s else takeEnd p v e.delay.toNat s
    | none => countBadField p s) s

end Sys2Proof.Machine
end

