-- ==== Sys2Proof/Machine/Classifier.lean ====
section
/-! DEFINITION. The classifier: the frame fields (R48), the match tests (R49-R52), classification (R53-R57),
and the staging record's operations (R59-R64). -/

namespace Sys2Proof.Machine
open Sys2Proof

/-! ## Frame fields -/

/-- The IPv4 fields of a frame (R48 d) and its ports (R48 e). -/
structure Ip where
  source      : BitVec 32
  destination : BitVec 32
  protocol    : Nat
  ports       : Option (Nat × Nat)
deriving DecidableEq, Repr

/-- The fields that the classifier reads from a frame (R48); an absent field is `none`. -/
structure FrameFields where
  addresses : Option (Addr × Addr)
  /-- The tag: priority and VLAN id. -/
  tag       : Option (Nat × Nat)
  frameType : Option Nat
  ip        : Option Ip
deriving DecidableEq, Repr

/-- The number in the `n` octets of a frame from an offset. -/
def numberAt (f : Frame) (off n : Nat) : Nat := bigEndian ((f.drop off).take n)

/-- The ports that follow an IPv4 header of `hl` octets (R48 e). -/
def readPorts (h : Frame) (hl protocol : Nat) : Option (Nat × Nat) :=
  if (protocol = 6 || protocol = 17) && numberAt h 6 2 % 8192 = 0 && hl + 4 ≤ h.length then
    some (numberAt h hl 2, numberAt h (hl + 2) 2)
  else none

/-- The IPv4 fields of the octets after the frame type (R48 d): none where they begin no well-formed header. -/
def readIp (h : Frame) : Option Ip :=
  let o0 := numberAt h 0 1
  let hl := 4 * (o0 % 16)
  if 20 ≤ h.length && o0 / 16 = 4 && 5 ≤ o0 % 16 && hl ≤ h.length then
    let protocol := numberAt h 9 1
    some { source := BitVec.ofNat 32 (numberAt h 12 4), destination := BitVec.ofNat 32 (numberAt h 16 4)
           protocol := protocol, ports := readPorts h hl protocol }
  else none

/-- The tag of a frame (R48 b). -/
def readTag (f : Frame) : Option (Nat × Nat) :=
  if 16 ≤ f.length && numberAt f 12 2 = 0x8100 then
    some (numberAt f 14 2 / 8192, numberAt f 14 2 % 4096)
  else none

/-- The frame fields (R48). The frame type stands after the source address, or after the tag of a tagged
frame, where the frame holds its two octets. -/
def readFields (f : Frame) : FrameFields :=
  let tag := readTag f
  let off := if tag.isSome then 16 else 12
  let ty := if off + 2 ≤ f.length then some (numberAt f off 2) else none
  { addresses := if 12 ≤ f.length then
        some (BitVec.ofNat 48 (numberAt f 0 6), BitVec.ofNat 48 (numberAt f 6 6)) else none
    tag := tag
    frameType := ty
    ip := if ty = some 0x0800 then readIp (f.drop (off + 2)) else none }

/-- A frame's initial urgency (R48). -/
def FrameFields.urgency (x : FrameFields) : Nat :=
  match x.tag with
  | some (priority, _) => priority
  | none => 0

/-! ## Match tests -/

/-- A LINK entry's tests (R49). -/
def matchLink (e : EntryFields) (x : FrameFields) : Bool :=
  (!e.linkTest || (x.addresses.any fun (d, s) =>
      (match e.linkSide with | .destination => d | .source => s) = e.linkAddress)) &&
  (!e.frameTypeTest || x.frameType = some e.frameType) &&
  (!e.vlanTest || x.tag.any fun (_, vlan) => vlan = e.vlanId)

/-- A NET entry's tests (R50). -/
def matchNet (e : EntryFields) (x : FrameFields) : Bool :=
  x.ip.any fun i =>
    (match e.netSide with | .destination => i.destination | .source => i.source) &&& e.netMask =
      e.netAddress &&& e.netMask &&
    (!e.protocolTest || i.protocol = e.protocol)

/-- The port test of an entry's port mode (R51 c). -/
def matchPorts (e : EntryFields) (i : Ip) : Bool :=
  let port := i.ports.map fun (s, d) => match e.portSide with | .destination => d | .source => s
  match e.portMode with
  | .off => true
  | .either => port.any fun n => n = e.portMin || n = e.portMax
  | .inside => port.any fun n => e.portMin ≤ n && n ≤ e.portMax
  | .outside => port.any fun n => n < e.portMin || e.portMax < n

/-- A PORT entry's tests (R51). -/
def matchPort (e : EntryFields) (x : FrameFields) : Bool :=
  x.ip.any fun i =>
    (i.protocol = 6 || i.protocol = 17) && (!e.protocolTest || i.protocol = e.protocol) && matchPorts e i

/-- An entry matches a frame by its own fields (R47). -/
def matchOwn (e : EntryFields) (x : FrameFields) : Bool :=
  match e.kind with
  | .unused => false
  | .link => matchLink e x
  | .net => matchNet e x
  | .port => matchPort e x

/-- The companions of an entry all match by their own fields (R52). -/
def companionsPass (t : Vector Entry 32) (e : EntryFields) (x : FrameFields) : Bool :=
  (List.finRange 32).all fun j => !e.companions.holds j || matchOwn (t.get j).f x

/-- The entry of an index wins a frame if no lower one does (R53 a-c). -/
def candidatePasses (t : Vector Entry 32) (x : FrameFields) (i : Fin 32) : Bool :=
  let e := (t.get i).f
  e.primary && matchOwn e x && companionsPass t e x

/-- The winner of a frame (R53). -/
def winner (t : Vector Entry 32) (x : FrameFields) : Option (Fin 32) :=
  (List.finRange 32).find? (candidatePasses t x)

/-! ## Actions -/

/-- The urgency that an action gives (R54). -/
def actionUrgency (e : EntryFields) (initial : Nat) : Nat :=
  match e.urgencyMode with
  | .keep => initial
  | .raise => max e.urgencyValue initial
  | .lower => min e.urgencyValue initial
  | .set => e.urgencyValue

/-- The final pair map that an action gives (R55). -/
def actionMap (e : EntryFields) (default : PairMap) : PairMap :=
  match e.mapMode with
  | .keep => default
  | .union => e.pairMap ||| default
  | .intersect => e.pairMap &&& default
  | .replace => e.pairMap

/-- The class that an action gives; class 3 is refused at commit (R54, R61 d), and reads as 2 here.
DESIGN CHOICE: log entry 35. -/
def actionClass (e : EntryFields) : ClassNo :=
  match e.cls with
  | 0 => 0
  | 1 => 1
  | _ => 2

/-- What the classifier hands to the distributor with a frame (R58). -/
structure Classified where
  cls     : ClassNo
  urgency : Nat
  map     : PairMap
  winner  : Option (Fin 32)
deriving DecidableEq, Repr

/-- The classification of a frame (R53-R56). -/
def classification (s : State) (f : Frame) : Classified :=
  let x := readFields f
  match winner s.classifier.table x with
  | none => { cls := 2, urgency := x.urgency, map := (s.cls 2).cfg.defaultMap, winner := none }
  | some i =>
    let e := (s.classifier.table.get i).f
    let c := actionClass e
    { cls := c, urgency := actionUrgency e x.urgency, map := actionMap e (s.cls c).cfg.defaultMap
      winner := some i }

/-- The state with one entry of the sort table changed. -/
def modEntry (i : Fin 32) (f : Entry → Entry) (s : State) : State :=
  { s with classifier := { s.classifier with
      table := s.classifier.table.set i.val (f (s.classifier.table.get i)) i.isLt } }

/-- The winner's match counter and TABLE-MATCH (R57). -/
def countMatch (i : Fin 32) (s : State) : State :=
  let e := s.classifier.table.get i
  if 0 < e.f.threshold then
    if e.f.threshold ≤ e.matched + 1 then
      raiseNotice .tableMatch (valueArg i.val) (modEntry i (fun e => { e with matched := 0 }) s)
    else modEntry i (fun e => { e with matched := e.matched + 1 }) s
  else modEntry i (fun e => { e with matched := min 65535 (e.matched + 1) }) s

/-- The counting of one classification (R56-R58). -/
def countClassified (w : Option (Fin 32)) (s : State) : State :=
  let s := countTrunk (fun n => { n with classified := n.classified + 1 }) s
  match w with
  | some i => countMatch i s
  | none => countTrunk (fun n => { n with noWinner := n.noWinner + 1 }) s

/-! ## The staging record -/

/-- The field that an item names, or the unknown name. -/
def stageName : StageItem → Field ⊕ Octet
  | .kind _ => .inl .kind
  | .primary _ => .inl .primary
  | .companions _ => .inl .companions
  | .linkAddress _ => .inl .linkAddress
  | .linkSide _ => .inl .linkSide
  | .linkTest _ => .inl .linkTest
  | .frameType _ => .inl .frameType
  | .frameTypeTest _ => .inl .frameTypeTest
  | .vlanId _ => .inl .vlanId
  | .vlanTest _ => .inl .vlanTest
  | .netAddress _ => .inl .netAddress
  | .netMask _ => .inl .netMask
  | .netSide _ => .inl .netSide
  | .protocol _ => .inl .protocol
  | .protocolTest _ => .inl .protocolTest
  | .portMode _ => .inl .portMode
  | .portMin _ => .inl .portMin
  | .portMax _ => .inl .portMax
  | .portSide _ => .inl .portSide
  | .cls _ => .inl .cls
  | .urgencyMode _ => .inl .urgencyMode
  | .urgencyValue _ => .inl .urgencyValue
  | .mapMode _ => .inl .mapMode
  | .pairMap _ => .inl .pairMap
  | .threshold _ => .inl .threshold
  | .unknown n => .inr n

/-- The set that a list of indices below 32 names. -/
def entrySetOf (is : List Nat) : EntrySet := is.foldl (fun m i => m ||| (1#32 <<< i)) 0

/-- The map that a list of pairs below 8 names. -/
def pairMapOf (ps : List Nat) : PairMap := ps.foldl (fun m p => m ||| (1#8 <<< p)) 0

/-- Writes an item into the image; none where the name is no field of the image or the value lies outside
the field's values (R46, R60). -/
def stageInto (e : EntryFields) : StageItem → Option EntryFields
  | .kind v => v.map fun v => { e with kind := v }
  | .primary v => v.map fun v => { e with primary := v }
  | .companions is => if is.all (· < 32) then some { e with companions := entrySetOf is } else none
  | .linkAddress a => some { e with linkAddress := a }
  | .linkSide v => v.map fun v => { e with linkSide := v }
  | .linkTest v => v.map fun v => { e with linkTest := v }
  | .frameType n => if n < 65536 then some { e with frameType := n } else none
  | .frameTypeTest v => v.map fun v => { e with frameTypeTest := v }
  | .vlanId n => if n < 4096 then some { e with vlanId := n } else none
  | .vlanTest v => v.map fun v => { e with vlanTest := v }
  | .netAddress a => some { e with netAddress := a }
  | .netMask a => some { e with netMask := a }
  | .netSide v => v.map fun v => { e with netSide := v }
  | .protocol n => if n < 256 then some { e with protocol := n } else none
  | .protocolTest v => v.map fun v => { e with protocolTest := v }
  | .portMode v => v.map fun v => { e with portMode := v }
  | .portMin n => if n < 65536 then some { e with portMin := n } else none
  | .portMax n => if n < 65536 then some { e with portMax := n } else none
  | .portSide v => v.map fun v => { e with portSide := v }
  | .cls n => if n < 4 then some { e with cls := n } else none
  | .urgencyMode v => v.map fun v => { e with urgencyMode := v }
  | .urgencyValue n => if n < 8 then some { e with urgencyValue := n } else none
  | .mapMode v => v.map fun v => { e with mapMode := v }
  | .pairMap ps => if ps.all (· < 8) then some { e with pairMap := pairMapOf ps } else none
  | .threshold n => if n < 65536 then some { e with threshold := n } else none
  | .unknown _ => none

/-- Copies one field of the image into an entry (R61). -/
def copyField (img e : EntryFields) : Field → EntryFields
  | .kind => { e with kind := img.kind }
  | .primary => { e with primary := img.primary }
  | .companions => { e with companions := img.companions }
  | .linkAddress => { e with linkAddress := img.linkAddress }
  | .linkSide => { e with linkSide := img.linkSide }
  | .linkTest => { e with linkTest := img.linkTest }
  | .frameType => { e with frameType := img.frameType }
  | .frameTypeTest => { e with frameTypeTest := img.frameTypeTest }
  | .vlanId => { e with vlanId := img.vlanId }
  | .vlanTest => { e with vlanTest := img.vlanTest }
  | .netAddress => { e with netAddress := img.netAddress }
  | .netMask => { e with netMask := img.netMask }
  | .netSide => { e with netSide := img.netSide }
  | .protocol => { e with protocol := img.protocol }
  | .protocolTest => { e with protocolTest := img.protocolTest }
  | .portMode => { e with portMode := img.portMode }
  | .portMin => { e with portMin := img.portMin }
  | .portMax => { e with portMax := img.portMax }
  | .portSide => { e with portSide := img.portSide }
  | .cls => { e with cls := img.cls }
  | .urgencyMode => { e with urgencyMode := img.urgencyMode }
  | .urgencyValue => { e with urgencyValue := img.urgencyValue }
  | .mapMode => { e with mapMode := img.mapMode }
  | .pairMap => { e with pairMap := img.pairMap }
  | .threshold => { e with threshold := img.threshold }

/-- Adds a name to the enable set: at most once (R59 b). -/
def addField (f : Field) (fs : List Field) : List Field := if fs.contains f then fs else fs ++ [f]

/-- Stages a list of items (R60): every item is tested, in order, before any is written. The error is what
the first offending item names. -/
def stageAll : List StageItem → EntryFields → List Field → Except Refused (EntryFields × List Field)
  | [], img, en => .ok (img, en)
  | x :: xs, img, en =>
    match stageName x, stageInto img x with
    | .inl f, some img' => stageAll xs img' (addField f en)
    | .inl f, none => .error (.field f)
    | .inr n, _ => .error (.fieldName n)

/-- The result of a commit of the staging record onto an entry (R61). -/
def commitResult (k : Classifier) (i : Fin 32) : EntryFields :=
  k.enable.foldl (copyField k.image) (k.table.get i).f

/-- The first commit check that a result fails (R61 a-d). -/
def failedCheck (i : Fin 32) (r : EntryFields) : Option CommitCheck :=
  if r.kind = .unused && r.primary then some .unusedPrimary
  else if r.companions.holds i then some .ownCompanion
  else if (r.portMode = .inside || r.portMode = .outside) && r.portMax < r.portMin then some .portRange
  else if r.cls = 3 then some .classThree
  else none

/-- The commit of a result that passes its checks (R62). -/
def commitEntry (i : Fin 32) (r : EntryFields) (s : State) : State :=
  let s := modEntry i (fun _ => { f := r, matched := 0 }) s
  { s with classifier := { s.classifier with enable := [] } }

/-- The fetch of an entry into the image (R63). -/
def fetchEntry (i : Fin 32) (s : State) : State :=
  { s with classifier := { s.classifier with image := (s.classifier.table.get i).f, enable := [] } }

/-- The clear of an entry (R64). -/
def clearEntry (i : Fin 32) (s : State) : State := modEntry i (fun _ => {}) s

end Sys2Proof.Machine
end

