-- ==== Sys2Proof/Machine/PairCommands.lean ====
section
/-! DEFINITION. What the pair unit does with each action of PAIR-COMMAND (R20-R23, R151 c, R164 b, R178 c). -/

namespace Sys2Proof.Machine
open Sys2Proof

/-- ADMIT of a STANDBY pair (R21). -/
def admitStandby (p : PairNo) (s : State) : State := moveTo p .joining s

/-- WITHDRAW (R21 a-c): a QUIET pair's transceiver is told wake. -/
def withdrawPair (p : PairNo) (s : State) : State :=
  let s := if (s.pair p).state = .quiet then tell p .wake s else s
  moveTo p .standby s

/-- BAR (R22, R69 d): a QUIET pair's transceiver is told wake, and a pair barred in DOWN takes its initial R. -/
def barPair (p : PairNo) (s : State) : State :=
  let old := (s.pair p).state
  if old = .barred then s
  else
    let s := if old = .quiet then tell p .wake s else s
    let s := moveTo p .barred s
    let s := if old = .down then modPair p (fun u => { u with rate := initialRate u.trained }) s else s
    raiseForPair .pairBarred p s

/-- CLEAR of a BARRED pair (R22): to STANDBY or DOWN by its line flag; strikes, wake errors and the no-quiet
flag are cleared, and a cleared no-quiet flag starts the offer tests (R173). -/
def clearPair (p : PairNo) (s : State) : State :=
  let had := (s.pair p).noQuiet
  let s := moveTo p (if (s.pair p).line then .standby else .down) s
  let s := modPair p (fun u => { u with strikes := 0, wakeErrors := 0, noQuiet := false }) s
  if had then testOffers allPairs s else s

/-- RELEASE of a HALTED pair (R164 b). -/
def releasePair (p : PairNo) (s : State) : State := moveTo p .standby (raiseEnd p .released 0 s)

/-- The record fields at their pair RESET values (R6, R68, R153, R170). The entry to DOWN has already stopped
the timers, emptied the sets and cleared the flags of the pair. -/
def PairUnit.resetRecord (u : PairUnit) : PairUnit :=
  { u with
    delay := 0, farPair := none, farRole := none, strikes := 0, wakeErrors := 0, noQuiet := false
    quietEntry := 0, wakeCause := none, wakeStart := 0, record := {} }

/-- RESET (R23). -/
def resetPair (p : PairNo) (s : State) : State :=
  let old := (s.pair p).state
  let had := (s.pair p).noQuiet
  let s := clearHorizons p (modPair p PairUnit.resetRecord (moveTo p .down s))
  let s := tell p (if old = .quiet then .wake else .retrain) s
  if had then testOffers allPairs s else s

/-- An action is accepted in a state, the engine being free or not (R20). -/
def actionAccepted (a : PairAction) (st : PairState) (engineFree : Bool) : Bool :=
  match a with
  | .admitPair => st = .standby
  | .withdraw => st = .serving || st = .joining || st = .waking || st = .quiet
  | .bar => st ≠ .absent
  | .clear => st = .barred
  | .prove => (st = .standby || st = .serving || st = .joining) && engineFree
  | .release => st = .halted
  | .reset => st ≠ .absent
  | .wake => st = .quiet

/-- The result of an accepted action (R20 e). -/
def applyAction (a : PairAction) (p : PairNo) (s : State) : State :=
  match a with
  | .admitPair => admitStandby p s
  | .withdraw => withdrawPair p s
  | .bar => barPair p s
  | .clear => clearPair p s
  | .prove => startRun p s
  | .release => releasePair p s
  | .reset => resetPair p s
  | .wake => enterWaking p .command s

end Sys2Proof.Machine
end

