-- ==== Sys2Proof/Machine/Settings.lean ====
section
/-! DEFINITION. The settings: the validation of a WRITE-SETTINGS item by item (R189) and the effect of each
applied value on the block that reads it (R2, R17, R74, R76, R89, R92, R96, R103, R110, R111, R171). -/

namespace Sys2Proof.Machine
open Sys2Proof

/-! ## Names -/

/-- The name of a BOND item. -/
def bondName : BondItem → BondName
  | .aliveInterval _ => .aliveInterval
  | .supervisionMultiple _ => .supervisionMultiple
  | .autoProve _ => .autoProve
  | .barOnFail _ => .barOnFail
  | .gateWindow _ => .gateWindow
  | .classOrderCode _ => .classOrderCode
  | .wakeThreshold _ => .wakeThreshold
  | .stepTimeout _ => .stepTimeout
  | .quietProbe _ => .quietProbe
  | .wakeLimit _ => .wakeLimit
  | .wakeErrorLimit _ => .wakeErrorLimit
  | .minimumAwake _ => .minimumAwake
  | .stationAddress _ => .stationAddress
  | .trunkWrites _ => .trunkWrites
  | .bondWrites _ => .bondWrites

/-- The name of a CLASS item. -/
def className : ClassItem → ClassName
  | .classLimit _ => .classLimit
  | .fragmentSize _ => .fragmentSize
  | .spill _ => .spill
  | .defaultMap _ => .defaultMap
  | .quota _ => .quota
  | .holdTime _ => .holdTime

/-- The name of a PAIR item. -/
def pairName : PairItem → PairName
  | .allotment _ => .allotment
  | .errorPeriod _ => .errorPeriod
  | .errorLimit _ => .errorLimit
  | .strikeLimit _ => .strikeLimit
  | .settlePeriod _ => .settlePeriod
  | .delayFigure _ => .delayFigure
  | .echoConsent _ => .echoConsent
  | .quietWait _ => .quietWait

/-- The name of a NOTICE item. -/
def noticeName : NoticeItem → NoticeName
  | .destination _ => .destination
  | .path _ => .path
  | .enable src _ => .enable src
  | .level src _ => .level src

/-! ## Validation -/

/-- What the tests of R189 make of one item: refused with a status, or accepted with the value to apply and
whether it was clamped. -/
inductive Checked (α : Type) where
  | refuse (st : Status)
  | accept (value : α) (clamped : Bool)
deriving DecidableEq, Repr

/-- A Qty item: the value brought into its range, marked clamped when that changes it (R189 d). -/
def checkQty {α : Type} (mk : Nat → α) (lo hi n : Nat) : Checked α :=
  .accept (mk (clampTo lo hi n)) (clampTo lo hi n != n)

/-- An Enum item: a value outside the field's values is refused BAD-VALUE (R189 a). -/
def checkEnum {α β : Type} (mk : Option β → α) (v : Option β) : Checked α :=
  if v.isSome then .accept (mk v) false else .refuse .badValue

/-- The tests of a BOND item (R189, R146 a). -/
def checkBond : BondItem → Checked BondItem
  | .aliveInterval n => checkQty .aliveInterval 1 100 n
  | .supervisionMultiple n => checkQty .supervisionMultiple 2 16 n
  | .autoProve v => checkEnum .autoProve v
  | .barOnFail v => checkEnum .barOnFail v
  | .gateWindow v => checkEnum .gateWindow v
  | .classOrderCode n => if 1 ≤ n && n ≤ 6 then .accept (.classOrderCode n) false else .refuse .badValue
  | .wakeThreshold n => checkQty .wakeThreshold 64 65535 n
  | .stepTimeout n => checkQty .stepTimeout 10 500 n
  | .quietProbe n => checkQty .quietProbe 1 3600 n
  | .wakeLimit n => checkQty .wakeLimit 10 2000 n
  | .wakeErrorLimit n => checkQty .wakeErrorLimit 1 15 n
  | .minimumAwake n => checkQty .minimumAwake 1 8 n
  | .stationAddress a => if a.getLsbD 40 then .refuse .badValue else .accept (.stationAddress a) false
  | .trunkWrites v => checkEnum .trunkWrites v
  | .bondWrites v => checkEnum .bondWrites v

/-- A fragment size as applied: clamped to 64-512, then taken down to a multiple of 32 (R92). -/
def roundFragmentSize (n : Nat) : Nat := clampTo 64 512 n / 32 * 32

/-- The quotas of the two classes other than `c`. -/
def otherQuotas (s : State) (c : ClassNo) : Nat :=
  ((allClasses.filter (· ≠ c)).map fun d => (s.cls d).cfg.quota).sum

/-- The tests of a quota after its clamp (R110). -/
def checkQuota (s : State) (c : ClassNo) (n : Nat) : Checked ClassItem :=
  let v := clampTo 16 752 n
  let k := s.cls c
  if v = k.cfg.quota then .accept (.quota v) (v != n)
  else if k.cfg.quota < v then
    if v + otherQuotas s c ≤ 768 then .accept (.quota v) (v != n) else .refuse .badValue
  else if k.held.isEmpty then .accept (.quota v) (v != n) else .refuse .busy

/-- The tests of an item of CLASS `c` (R189, R92, R110). -/
def checkClass (s : State) (c : ClassNo) : ClassItem → Checked ClassItem
  | .classLimit n => checkQty .classLimit 1 128 n
  | .fragmentSize n => .accept (.fragmentSize (roundFragmentSize n)) (roundFragmentSize n != n)
  | .spill v => checkEnum .spill v
  | .defaultMap ps => if ps.all (· < 8) then .accept (.defaultMap ps) false else .refuse .badValue
  | .quota n => checkQuota s c n
  | .holdTime n => checkQty .holdTime 1 1000 n

/-- The tests of a PAIR item (R189). -/
def checkPair : PairItem → Checked PairItem
  | .allotment v => checkEnum .allotment v
  | .errorPeriod n => checkQty .errorPeriod 50 5000 n
  | .errorLimit n => checkQty .errorLimit 1 1000 n
  | .strikeLimit n => checkQty .strikeLimit 1 15 n
  | .settlePeriod n => checkQty .settlePeriod 1 3600 n
  | .delayFigure n => checkQty .delayFigure 0 65535 n
  | .echoConsent v => checkEnum .echoConsent v
  | .quietWait n => checkQty .quietWait 0 65535 n

/-- The tests of a NOTICE item (R189). -/
def checkNotice : NoticeItem → Checked NoticeItem
  | .destination a => .accept (.destination a) false
  | .path v => checkEnum .path v
  | .enable src v => checkEnum (.enable src) v
  | .level src v => checkEnum (.level src) v

/-- Validates a list of items in order (R189): the first refused item ends the validation with its status
and name; otherwise the values to apply and the names of the clamped fields, a name as often as its field is clamped in
the list. DESIGN CHOICE: log entry 46. -/
def validateItems {α : Type} (check : α → Checked α) (name : α → SettingName) :
    List α → Except (Status × SettingName) (List α × List SettingName)
  | [] => .ok ([], [])
  | x :: xs =>
    match check x with
    | .refuse st => .error (st, name x)
    | .accept v clamped =>
      match validateItems check name xs with
      | .error e => .error e
      | .ok (vs, names) => .ok (v :: vs, if clamped then name x :: names else names)

/-- Of a list of items, the last of each name: the value that is applied (R189 f). -/
def lastOfEach {α : Type} (name : α → SettingName) : List α → List α
  | [] => []
  | x :: xs =>
    if xs.any fun y => name y = name x then lastOfEach name xs else x :: lastOfEach name xs

/-- Applies the items of a validated list, the last of each name (R189), and then makes the offer tests of R173, once,
where an item is one of those that `tests` names: they are made when every value of the request stands (R183).
DEDUCED: log entry 42. -/
def applyItems {α : Type} (name : α → SettingName) (apply : α → State → State) (tests : α → Bool)
    (xs : List α) (s : State) : State :=
  let s := (lastOfEach name xs).foldl (fun s x => apply x s) s
  if xs.any tests then testOffers allPairs s else s

/-! ## Applied values -/

/-- Changes the BOND settings. -/
def modCfg (f : BondSettings → BondSettings) (s : State) : State := { s with cfg := f s.cfg }

/-- Pair `p` at a write of *gate window* (R74): under TRAINED its window stops and R takes its initial value;
from TRAINED a SERVING pair starts a window. -/
def gateWindowPair (old new : GateWindow) (p : PairNo) (s : State) : State :=
  if new = .trained then
    modPair p (fun u =>
      let u := u.stopWindow
      if u.state = .absent || u.state = .down then u else { u with rate := initialRate u.trained }) s
  else if old = .trained && (s.pair p).state = .serving then
    modPair p (PairUnit.startWindow s.now s.cfg) s
  else s

/-- A write of *gate window* (R74). -/
def writeGateWindow (g : GateWindow) (s : State) : State :=
  let old := s.cfg.gateWindow
  if g = old then s
  else eachPair allPairs (gateWindowPair old g) (modCfg (fun b => { b with gateWindow := g }) s)

/-- The effect of an applied BOND item. -/
def applyBond (x : BondItem) (s : State) : State :=
  match x with
  | .aliveInterval n => modCfg (fun b => { b with aliveInterval := n }) s
  | .supervisionMultiple n => modCfg (fun b => { b with supervision := n }) s
  | .autoProve v => modCfg (fun b => { b with autoProve := v.getD b.autoProve }) s
  | .barOnFail v => modCfg (fun b => { b with barOnFail := v.getD b.barOnFail }) s
  | .gateWindow v => writeGateWindow (v.getD s.cfg.gateWindow) s
  | .classOrderCode n => modCfg (fun b => { b with classOrder := n }) s
  | .wakeThreshold n => modCfg (fun b => { b with wakeThreshold := n }) s
  | .stepTimeout n => modCfg (fun b => { b with stepTimeout := n }) s
  | .quietProbe n => modCfg (fun b => { b with quietProbe := n }) s
  | .wakeLimit n => modCfg (fun b => { b with wakeLimit := n }) s
  | .wakeErrorLimit n => modCfg (fun b => { b with wakeErrorLimit := n }) s
  | .minimumAwake n => modCfg (fun b => { b with minimumAwake := n }) s
  | .stationAddress a => modCfg (fun b => { b with stationAddress := a }) s
  | .trunkWrites v => modCfg (fun b => { b with trunkWrites := v.getD b.trunkWrites }) s
  | .bondWrites v => modCfg (fun b => { b with bondWrites := v.getD b.bondWrites }) s

/-- The BOND items whose write starts the offer tests: *minimum awake* (R173). -/
def bondTests : BondItem → Bool
  | .minimumAwake _ => true
  | _ => false

/-- Changes the settings of a class. -/
def modClassCfg (c : ClassNo) (f : ClassSettings → ClassSettings) (s : State) : State :=
  modClass c (fun k => { k with cfg := f k.cfg }) s

/-- The effect of an applied item of CLASS `c`. -/
def applyClass (c : ClassNo) (x : ClassItem) (s : State) : State :=
  match x with
  | .classLimit n => modClassCfg c (fun b => { b with classLimit := n }) s
  | .fragmentSize n => modClassCfg c (fun b => { b with fragmentSize := n }) s
  | .spill v => modClassCfg c (fun b => { b with spill := v.getD b.spill }) s
  | .defaultMap ps => modClassCfg c (fun b => { b with defaultMap := pairMapOf ps }) s
  | .quota n => modClassCfg c (fun b => { b with quota := n }) s
  | .holdTime n => modClassCfg c (fun b => { b with holdTime := n }) s

/-- Changes the settings of a pair. -/
def modPairCfg (p : PairNo) (f : PairSettings → PairSettings) (s : State) : State :=
  modPair p (fun u => { u with cfg := f u.cfg }) s

/-- A write of pair `p`'s *allotment* (R2). -/
def writeAllotment (p : PairNo) (a : Allotment) (s : State) : State :=
  let s := modPairCfg p (fun b => { b with allotment := a }) s
  match a, (s.pair p).state with
  | .reserved, .absent => s
  | .reserved, _ => tell p .holdOff (moveTo p .absent s)
  | .bond, .absent => tell p .train (moveTo p .down s)
  | .bond, _ => s

/-- A write of pair `p`'s *quiet wait* (R171). -/
def writeQuietWait (p : PairNo) (n : Nat) (s : State) : State :=
  modPair p (fun u => { u with cfg := { u.cfg with quietWait := n }, wakeErrors := 0, noQuiet := false }) s

/-- The PAIR items whose write starts the offer tests: *quiet wait* (R173). -/
def pairTests : PairItem → Bool
  | .quietWait _ => true
  | _ => false

/-- The effect of an applied item of PAIR `p`. -/
def applyPair (p : PairNo) (x : PairItem) (s : State) : State :=
  match x with
  | .allotment v => writeAllotment p (v.getD (s.pair p).cfg.allotment) s
  | .errorPeriod n => modPairCfg p (fun b => { b with errorPeriod := n }) s
  | .errorLimit n => modPairCfg p (fun b => { b with errorLimit := n }) s
  | .strikeLimit n => modPairCfg p (fun b => { b with strikeLimit := n }) s
  | .settlePeriod n => modPairCfg p (fun b => { b with settlePeriod := n }) s
  | .delayFigure n => modPair p (fun u => { u with delay := n }) s
  | .echoConsent v => modPairCfg p (fun b => { b with echoConsent := v.getD b.echoConsent }) s
  | .quietWait n => writeQuietWait p n s

/-- The effect of an applied NOTICE item. -/
def applyNotice (x : NoticeItem) (s : State) : State :=
  match x with
  | .destination a => { s with notices := { s.notices with destination := a } }
  | .path v => { s with notices := { s.notices with path := v.getD s.notices.path } }
  | .enable src v => modSource src (fun u => { u with enable := v.getD u.enable }) s
  | .level src v => modSource src (fun u => { u with level := v.getD u.level }) s

end Sys2Proof.Machine
end

