-- ==== Sys2Proof/Machine/Management.lean ====
section
/-! DEFINITION. The management agent (chapter 10): the tests of a request in their order (R184, R187, R188),
the reports of the reads, the service of each request kind, and the reply (R185, R186). -/

namespace Sys2Proof.Machine
open Sys2Proof

/-! ## Codes -/

/-- The code of a status (10.3). -/
def statusCode : Status → Octet
  | .ok => 0
  | .clamped => 1
  | .badKind => 2
  | .badValue => 3
  | .badIndex => 4
  | .busy => 5
  | .notPermitted => 6
  | .provingAborted => 7
  | .malformed => 8

/-- The kind code of a request (10.3). -/
def kindCode : ReqBody → Octet
  | .readIdentity => 1
  | .readSettings _ => 2
  | .writeSettings _ => 3
  | .readPair _ => 4
  | .pairCommand _ _ => 5
  | .tableStage _ => 6
  | .tableCommit _ => 7
  | .tableFetch _ => 8
  | .tableClear _ => 9
  | .readStage => 10
  | .readTableCounters => 11
  | .readCounters _ _ => 12
  | .readNotices => 13
  | .clearNotices _ => 14
  | .bondRestart => 15
  | .resetPart => 16
  | .raw k => k

/-- A kind field is a request kind of section 10.3: 1-16. -/
def isRequestKind (k : Octet) : Bool := 1 ≤ k.toNat && k.toNat ≤ 16

/-- The number of items that a WRITE-SETTINGS lists. -/
def itemCount : SettingsWrite → Nat
  | .bond xs => xs.length
  | .cls _ xs => xs.length
  | .pair _ xs => xs.length
  | .notice xs => xs.length
  | .unknown _ => 0

/-- The list bounds of R184 d. -/
def countsWell : ReqBody → Bool
  | .writeSettings w => itemCount w ≤ 40
  | .tableStage xs => 1 ≤ xs.length && xs.length ≤ 25
  | _ => true

/-- The header and form tests of a request, in their order (R184 a-d): the status of the first that fails. -/
def headerFails (q : ReqHead) (b : ReqBody) : Option Status :=
  if q.version ≠ 1 then some .malformed
  else if q.present < q.bodyLen then some .malformed
  else
    match b with
    | .raw k => if isRequestKind k then some .malformed else some .badKind
    | b => if q.formed && countsWell b then none else some .malformed

/-! ## Access -/

/-- The access settings govern the request's path (R187 a and b). -/
def pathGoverned (s : State) (path : ServicePath) : Bool :=
  (s.bond.role = .homestead && path = .trunk && !s.cfg.trunkWrites) ||
    (s.bond.role = .cabinet && path = .bond && !s.cfg.bondWrites)

/-- The kinds that change state (R187). -/
def changesState : ReqBody → Bool
  | .writeSettings _ => true
  | .pairCommand _ _ => true
  | .tableStage _ => true
  | .tableCommit _ => true
  | .tableFetch _ => true
  | .tableClear _ => true
  | .clearNotices _ => true
  | .readCounters _ clear => clear
  | .bondRestart => true
  | .resetPart => true
  | _ => false

/-! ## Indices -/

/-- The class that an index names. -/
def classIndex (o : Octet) : Option ClassNo := if h : o.toNat < 3 then some ⟨o.toNat, h⟩ else none

/-- The pair that an index names. -/
def pairIndex (o : Octet) : Option PairNo := if h : o.toNat < 8 then some ⟨o.toNat, h⟩ else none

/-- The sort table entry that an index names. -/
def entryIndex (o : Octet) : Option (Fin 32) := if h : o.toNat < 32 then some ⟨o.toNat, h⟩ else none

/-! ## Reports -/

/-- The report of READ-IDENTITY. -/
def identityReport (s : State) : IdentityReport :=
  { role := s.bond.role, station := s.cfg.stationAddress, epoch := s.bond.epoch, carried := s.bond.carried
    asking := s.bond.asking, record := s.notices.record }

/-- The counters of the pair record (R19). -/
def PairCounters.ofRecord (n : PairCounters) : RecordCounters :=
  { fragOut := n.fragOut, octetOut := n.octetOut, fragIn := n.fragIn, octetIn := n.octetIn
    damaged := n.damaged, cutOff := n.cutOff, movedDiscard := n.movedDiscard, flushed := n.flushed
    lineUp := n.lineUp, lineDown := n.lineDown, supervisionExpiry := n.supervisionExpiry, strike := n.strike
    epochMismatch := n.epochMismatch, unknownKind := n.unknownKind, notServing := n.notServing
    wakeError := n.wakeError }

/-- The report of READ-PAIR (R6, R68, R134, R153, R170). -/
def pairReport (s : State) (p : PairNo) : PairReport :=
  let u := s.pair p
  { state := u.state, line := u.line, trained := u.trained, rate := u.rate, backlog := u.backlog
    delay := u.delay, farPair := u.farPair, farRole := u.farRole, supervision := u.supervision.map (·.1)
    errCount := u.errCount, strikes := u.strikes, settling := u.settleTimer.isSome
    wakeErrors := u.wakeErrors, noQuiet := u.noQuiet, offering := u.offering, proveWanted := u.proveWanted
    quietEntry := u.quietEntry, counters := u.n.ofRecord, idleTimer := u.idleTimer.map (·.dur)
    idle := u.idle, offerSpent := u.offerSpent, offerRunning := u.offerTimer.isSome
    wakeCause := u.wakeCause, wakeStart := u.wakeStart, record := u.record
    horizons := allClasses.map fun c => s.horizon c p }

/-- A time of some microseconds as a report gives it in milliseconds (R134). Where it is no whole number of them it
is rounded down or up. DESIGN CHOICE: log entry 25. -/
def reportMs (us : Nat) : Nat := us / 1000 + if us % 1000 ≠ 0 && Config.roundsUp us then 1 else 0

/-- The state of a reassembly context (R135). -/
def Reasm.state : Reasm → ReasmState
  | .idle => .idle
  | .building _ => .building
  | .discarding => .discarding

/-- The number of octets in a context's partial frame (R135). -/
def Reasm.octets : Reasm → Nat
  | .building part => part.length
  | .idle | .discarding => 0

/-- The present values of a class (R109, R134, R135). -/
def classPresent (now : Nat) (k : ClassUnit) : ClassPresent :=
  { queued := k.queue.length
    holding := k.holding
    waiting := k.waiting
    progress := k.current.map fun g => (g.frame.octets.length, g.offset, g.frame.urgency, g.frame.map)
    nextSeq := k.nextSeq
    next := k.next
    held := k.held.length
    gap := k.gap
    holdRemain := k.hold.map fun t => reportMs (t.remaining now)
    horizons := k.horizons
    reasm := k.reasm.state
    octets := k.reasm.octets }

/-- The rows of READ-TABLE-COUNTERS (R65 b). -/
def tableRows (s : State) : List (EntryKind × Bool × Nat × Nat) :=
  s.classifier.table.toList.map fun e => (e.f.kind, e.f.primary, e.f.threshold, e.matched)

/-! ## Service -/

/-- What serving a request gives: its status, its reply body and the state after it. -/
structure Served where
  status : Status
  body   : ReplyBody
  state  : State
deriving DecidableEq, Repr

/-- A request refused with a status and an empty body. -/
def refuse (st : Status) (s : State) : Served := ⟨st, .empty, s⟩

/-- A request refused BAD-VALUE, naming what was refused (R185). -/
def badValue (r : Refused) (s : State) : Served := ⟨.badValue, .refused r, s⟩

/-- READ-SETTINGS (R189). -/
def serveReadSettings (g : SettingsGroup) (s : State) : Served :=
  match g with
  | .bond => ⟨.ok, .bondSettings s.cfg, s⟩
  | .cls o =>
    match classIndex o with
    | some c => ⟨.ok, .classSettings (s.cls c).cfg, s⟩
    | none => refuse .badIndex s
  | .pair o =>
    match pairIndex o with
    | some p => ⟨.ok, .pairSettings (s.pair p).cfg (s.pair p).delay, s⟩
    | none => refuse .badIndex s
  | .notice => ⟨.ok, .noticeSettings s.notices.destination s.notices.path
      (s.notices.sources.toList.map fun u => (u.enable, u.level)), s⟩
  | .unknown _ => badValue .group s

/-- The end of a WRITE-SETTINGS: the refusal of its first refused item, with its status and its name (R110, R189;
log entry 19), or the application of all. -/
def serveItems {α : Type} (check : α → Checked α) (name : α → SettingName) (apply : α → State → State)
    (tests : α → Bool) (xs : List α) (s : State) : Served :=
  match validateItems check name xs with
  | .error (st, n) => ⟨st, .refused (.setting n), s⟩
  | .ok (vs, names) =>
    ⟨if names.isEmpty then .ok else .clamped, .clampedNames names, applyItems name apply tests vs s⟩

/-- WRITE-SETTINGS after its access test (R188 b-e, R166 a, R189). -/
def serveWriteSettings (w : SettingsWrite) (s : State) : Served :=
  match w with
  | .bond xs => serveItems checkBond (fun x => .bond (bondName x)) applyBond bondTests xs s
  | .cls o xs =>
    match classIndex o with
    | some c => serveItems (checkClass s c) (fun x => .cls (className x)) (applyClass c) (fun _ => false) xs s
    | none => refuse .badIndex s
  | .pair o xs =>
    match pairIndex o with
    | some p =>
      if s.runOn p then refuse .provingAborted (abortRun p .write s)
      else serveItems checkPair (fun x => .pair (pairName x)) (applyPair p) pairTests xs s
    | none => refuse .badIndex s
  | .notice xs => serveItems checkNotice (fun x => .notice (noticeName x)) applyNotice (fun _ => false) xs s
  | .unknown _ => badValue .group s

/-- READ-PAIR. -/
def serveReadPair (o : Octet) (s : State) : Served :=
  match pairIndex o with
  | some p => ⟨.ok, .pair (pairReport s p), s⟩
  | none => refuse .badIndex s

/-- PAIR-COMMAND after its access test (R20 b-e, R166 b and c, R188). An action that is none of the eight is
refused BAD-VALUE. -/
def servePairCommand (o : Octet) (action : Option PairAction) (s : State) : Served :=
  match pairIndex o with
  | none => refuse .badIndex s
  | some p =>
    if s.runOn p then
      if action = some .prove then refuse .busy s else refuse .provingAborted (abortRun p .write s)
    else
      match action with
      | none => badValue .action s
      | some a =>
        if actionAccepted a (s.pair p).state s.engine.isNone then ⟨.ok, .empty, applyAction a p s⟩
        else refuse .busy s

/-- TABLE-STAGE (R60). -/
def serveTableStage (xs : List StageItem) (s : State) : Served :=
  match stageAll xs s.classifier.image s.classifier.enable with
  | .error r => badValue r s
  | .ok (img, en) =>
    ⟨.ok, .enableSet en, { s with classifier := { s.classifier with image := img, enable := en } }⟩

/-- TABLE-COMMIT (R61, R62). -/
def serveTableCommit (o : Octet) (s : State) : Served :=
  match entryIndex o with
  | none => refuse .badIndex s
  | some i =>
    let r := commitResult s.classifier i
    match failedCheck i r with
    | some c => badValue (.check c) s
    | none => ⟨.ok, .empty, commitEntry i r s⟩

/-- TABLE-FETCH (R63). -/
def serveTableFetch (o : Octet) (s : State) : Served :=
  match entryIndex o with
  | none => refuse .badIndex s
  | some i => let s := fetchEntry i s; ⟨.ok, .image s.classifier.image, s⟩

/-- TABLE-CLEAR (R64). -/
def serveTableClear (o : Octet) (s : State) : Served :=
  match entryIndex o with
  | none => refuse .badIndex s
  | some i => ⟨.ok, .empty, clearEntry i s⟩

/-- READ-COUNTERS (R190). -/
def serveReadCounters (g : CounterGroup) (clear : Bool) (s : State) : Served :=
  match g with
  | .trunk =>
    ⟨.ok, .trunkCounters s.trunk.n s.trunk.egress.length, if clear then countTrunk (fun _ => {}) s else s⟩
  | .cls o =>
    match classIndex o with
    | some c => ⟨.ok, .classCounters (s.cls c).n (classPresent s.now (s.cls c)),
        if clear then countClass c (fun _ => {}) s else s⟩
    | none => refuse .badIndex s
  | .pair o =>
    match pairIndex o with
    | some p => ⟨.ok, .pairCounters (s.pair p).n, if clear then countPair p (fun _ => {}) s else s⟩
    | none => refuse .badIndex s
  | .unknown _ => badValue .group s

/-- A source after it is cleared (R200). -/
def SourceUnit.cleared (u : SourceUnit) : SourceUnit :=
  { u with isPending := false, due := false, repeats := 0, arg := none }

/-- CLEAR-NOTICES (R200): sources by their numbers 1-11. -/
def serveClearNotices (ns : List Nat) (s : State) : Served :=
  if ns.all fun n => 1 ≤ n && n ≤ 11 then
    ⟨.ok, .empty, allSources.foldl (fun s src =>
      if ns.contains ((sourceIndex src).val + 1) then modSource src SourceUnit.cleared s else s) s⟩
  else badValue .source s

/-- BOND-RESTART (R39 a, R43, R191 d and e). -/
def serveBondRestart (s : State) : Served :=
  match s.bond.role with
  | .cabinet => ⟨.ok, .empty, bondRestart s⟩
  | .homestead =>
    let up := allPairs.filter fun p => (s.pair p).state = .serving
    if up.isEmpty then refuse .busy s
    else
      let s := eachPair up (raiseCtl .restartAsk) s
      ⟨.ok, .empty, { s with bond := { s.bond with asking := true, askTimer := some ⟨s.now, ms 1000⟩ } }⟩

/-- The service of a request after its header and access tests (R188 b-e). RESET-PART is answered OK, and what
follows its reply is in `afterReply`. -/
def serveBody (b : ReqBody) (s : State) : Served :=
  match b with
  | .readIdentity => ⟨.ok, .identity (identityReport s), s⟩
  | .readSettings g => serveReadSettings g s
  | .writeSettings w => serveWriteSettings w s
  | .readPair o => serveReadPair o s
  | .pairCommand o a => servePairCommand o a s
  | .tableStage xs => serveTableStage xs s
  | .tableCommit o => serveTableCommit o s
  | .tableFetch o => serveTableFetch o s
  | .tableClear o => serveTableClear o s
  | .readStage => ⟨.ok, .stage s.classifier.image s.classifier.enable, s⟩
  | .readTableCounters => ⟨.ok, .tableCounters (tableRows s), s⟩
  | .readCounters g clear => serveReadCounters g clear s
  | .readNotices => ⟨.ok, .notices s.notices, s⟩
  | .clearNotices ns => serveClearNotices ns s
  | .bondRestart => serveBondRestart s
  | .resetPart => ⟨.ok, .empty, s⟩
  | .raw _ => refuse .malformed s

/-- A request through its tests and its service (R184, R187, R188). -/
def serveTested (q : ReqHead) (b : ReqBody) (s : State) : Served :=
  match headerFails q b with
  | some st => refuse st s
  | none =>
    if changesState b && pathGoverned s q.path then refuse .notPermitted s else serveBody b s

/-! ## The reply -/

/-- The octets of a reply body: none where it is empty, and at most 1578 (10.3, R196; log entry 5). -/
def replyOctets : ReplyBody → List Octet
  | .empty => []
  | b => (Config.bodyOctets b).take 1578

/-- The reply to a request (R185). -/
def replyTo (q : ReqHead) (b : ReqBody) (v : Served) : Reply :=
  { path := q.path, destination := q.source, source := v.state.cfg.stationAddress, kind := kindCode b
    tag := q.tag, status := v.status, body := v.body }

/-- The frame of a reply (R185, R196). Its target flag is the request's: NEAR on path TRUNK, FAR on path BOND
(R183). -/
def replyFrame (r : Reply) : Frame :=
  ownFrame r.destination r.source (r.path = .bond) r.kind (statusCode r.status) r.tag (replyOctets r.body)

/-- The reply is handed to its path (R186), marked where it is that of a RESET-PART (R193). -/
def offerReply (r : Reply) (resetReply : Bool) (s : State) : State :=
  let s := emit (.reply r) s
  match r.path with
  | .trunk => offerEgress { frame := replyFrame r, source := .reply, resetReply := resetReply } s
  | .bond => offerOwnFrame (replyFrame r) resetReply s

/-- A RESET-PART that was answered OK makes the full reset pending, with its reset wait (R193). -/
def pendReset (path : ServicePath) (s : State) : State :=
  { s with agent := { s.agent with
      reset := some { path := path, wait := ⟨s.now, ms 1000⟩, reported := false } } }

/-- A request is served: counted, tested, served and answered (R183-R188). DESIGN CHOICE: log entry 20. -/
def serve (q : ReqHead) (b : ReqBody) (s : State) : Served :=
  serveTested q b (countTrunk (fun n => { n with mgmtServed := n.mgmtServed + 1 }) s)

/-- What follows a served request: its reply, and the reset wait of a RESET-PART. The wait is set before the
offer so that a report of the offer finds it. -/
def answer (q : ReqHead) (b : ReqBody) (v : Served) : State :=
  if b = .resetPart && v.status = .ok then
    offerReply (replyTo q b v) true (pendReset q.path v.state)
  else offerReply (replyTo q b v) false v.state

/-- A served request has started events in other blocks: an applied or aborting WRITE-SETTINGS or
PAIR-COMMAND, an accepted BOND-RESTART, an accepted RESET-PART. Every other request changes nothing that a
pair's choice, a selection or the notice sender reads. -/
def startsEvents (b : ReqBody) (st : Status) : Bool :=
  match b with
  | .writeSettings _ | .pairCommand _ _ => st = .ok || st = .clamped || st = .provingAborted
  | .bondRestart | .resetPart => st = .ok
  | _ => false

/-- What follows the reply of a request: a reply on path BOND is an admission (R86) and starts selections,
and so does a request that has started events; otherwise the reply is sent when the trunk takes it. -/
def afterReply (path : ServicePath) (b : ReqBody) (st : Status) (s : State) : State :=
  if path = .bond || startsEvents b st then settle s else beginSend s

/-- The agent takes a request (R183): it is discarded while a RESET-PART is pending, and otherwise served and
answered. -/
def takeRequest (q : ReqHead) (b : ReqBody) (s : State) : State :=
  if s.agent.reset.isSome then countTrunk (fun n => { n with mgmtDiscard := n.mgmtDiscard + 1 }) s
  else
    let v := serve q b s
    afterReply q.path b v.status (answer q b v)

/-- A request reaches the agent as a command (R183). Behind requests that wait it waits for its turn, in the order of
arrival; where none waits the agent takes it at once. While a RESET-PART is pending it is discarded at its arrival.
DESIGN CHOICE: log entry 21. -/
def requestArrives (q : ReqHead) (b : ReqBody) (s : State) : State :=
  if s.agent.reset.isNone && !s.agent.requests.isEmpty then handToAgent (.fields q b) s else takeRequest q b s

/-! ## Requests in frames -/

/-- The kinds whose request body is none (10.3). -/
def emptyRequest (k : Octet) : Option ReqBody :=
  match k.toNat with
  | 1 => some .readIdentity
  | 10 => some .readStage
  | 11 => some .readTableCounters
  | 13 => some .readNotices
  | 15 => some .bondRestart
  | 16 => some .resetPart
  | _ => none

/-- The body of a request frame of kind `k` (10.3; log entry 5). -/
def readRequestBody (k : Octet) (os : List Octet) : ReqBody :=
  match os, emptyRequest k with
  | [], some b => b
  | _, _ =>
    match Config.readBody k os with
    | some b => if kindCode b = k && isRequestKind k then b else .raw k
    | none => .raw k

/-- The header and body of a request frame that came by a path, read from the places of R196. -/
def readFrame (path : ServicePath) (f : Frame) : ReqHead × ReqBody :=
  let len := (bigEndian ((f.drop 20).take 2))
  ({ path := path, source := sourceOf f, version := f.getD 14 0
     tag := BitVec.ofNat 16 (bigEndian ((f.drop 18).take 2)), bodyLen := len, present := f.length - 22
     formed := true },
   readRequestBody (f.getD 16 0) ((f.drop 22).take len))

/-- The header and body of a request that waits. -/
def readRequest : Request → ReqHead × ReqBody
  | .framed path f => readFrame path f
  | .fields q b => (q, b)

/-- The frame of a request that arrived in one at the trunk. -/
def Request.trunkFrame : Request → Option Frame
  | .framed .trunk f => some f
  | .framed .bond _ | .fields _ _ => none

/-- The frame of a request that is to be served at the far part: it arrived at the trunk with target FAR (R144 b). -/
def Request.farFrame (r : Request) : Option Frame := r.trunkFrame.filter targetFar

/-- A request for the far part is taken (R144 b, R183): discarded while a RESET-PART is pending, and otherwise offered
to the distributor unchanged. DEDUCED: log entry 15. -/
def forwardRequest (f : Frame) (s : State) : State :=
  if s.agent.reset.isSome then countTrunk (fun n => { n with mgmtDiscard := n.mgmtDiscard + 1 }) s
  else settle (offerOwnFrame f false s)

/-- The agent takes the next of the requests that wait, in arrival order (R144, R183). -/
def serveNext (s : State) : State :=
  match s.agent.requests with
  | [] => s
  | r :: rs =>
    let s := { s with agent := { s.agent with requests := rs } }
    match r.farFrame with
    | some f => forwardRequest f s
    | none => takeRequest (readRequest r).1 (readRequest r).2 s

end Sys2Proof.Machine
end

