-- ==== Sys2Proof/Machine/RequestCommands.lean ====
section
/-! DEFINITION. The requests, one definition for each row: each is a request that reaches the agent with the body that
its row names, and arrives by `requestArrives` (R183-R193, R200). The rows that name one setting are WRITE-SETTINGS
with that one item. -/

namespace Sys2Proof.Machine
open Sys2Proof

/-- READ_IDENTITY (R191, R192). -/
def execReadIdentity (q : ReqHead) (s : State) : Host.Outcome State Fault Refusal :=
  takeCommand (requestArrives q .readIdentity) s

/-- BAD_KIND: a request whose kind field is no request kind (R184 c). -/
def execBadKind (q : ReqHead) (kind : Octet) (s : State) : Host.Outcome State Fault Refusal :=
  takeCommand (requestArrives q (.raw kind)) s

/-- READ_SETTINGS (R188, R189). -/
def execReadSettings (q : ReqHead) (g : SettingsGroup) (s : State) : Host.Outcome State Fault Refusal :=
  takeCommand (requestArrives q (.readSettings g)) s

/-- WRITE_SETTINGS (R188, R189). -/
def execWriteSettings (q : ReqHead) (w : SettingsWrite) (s : State) : Host.Outcome State Fault Refusal :=
  takeCommand (requestArrives q (.writeSettings w)) s

/-- ALLOTMENT_WRITE: a WRITE-SETTINGS of one pair's allotment (R2). -/
def execAllotmentWrite (q : ReqHead) (p : Octet) (v : Option Allotment) (s : State) : Host.Outcome State Fault Refusal :=
  takeCommand (requestArrives q (.writeSettings (.pair p [.allotment v]))) s

/-- QUOTA_WRITE: a WRITE-SETTINGS of one class's quota (R110). -/
def execQuotaWrite (q : ReqHead) (c : Octet) (n : Nat) (s : State) : Host.Outcome State Fault Refusal :=
  takeCommand (requestArrives q (.writeSettings (.cls c [.quota n]))) s

/-- GATE_WINDOW_WRITE: a WRITE-SETTINGS of the gate window (R74). -/
def execGateWindowWrite (q : ReqHead) (v : Option GateWindow) (s : State) : Host.Outcome State Fault Refusal :=
  takeCommand (requestArrives q (.writeSettings (.bond [.gateWindow v]))) s

/-- QUIET_WAIT_WRITE: a WRITE-SETTINGS of one pair's quiet wait (R171). -/
def execQuietWaitWrite (q : ReqHead) (p : Octet) (n : Nat) (s : State) : Host.Outcome State Fault Refusal :=
  takeCommand (requestArrives q (.writeSettings (.pair p [.quietWait n]))) s

/-- DELAY_FIGURE_WRITE: a WRITE-SETTINGS of one pair's delay figure (R76). -/
def execDelayFigureWrite (q : ReqHead) (p : Octet) (n : Nat) (s : State) : Host.Outcome State Fault Refusal :=
  takeCommand (requestArrives q (.writeSettings (.pair p [.delayFigure n]))) s

/-- WAKE_THRESHOLD_WRITE: a WRITE-SETTINGS of the wake threshold (R103). -/
def execWakeThresholdWrite (q : ReqHead) (n : Nat) (s : State) : Host.Outcome State Fault Refusal :=
  takeCommand (requestArrives q (.writeSettings (.bond [.wakeThreshold n]))) s

/-- READ_PAIR (R6, R134). -/
def execReadPair (q : ReqHead) (p : Octet) (s : State) : Host.Outcome State Fault Refusal :=
  takeCommand (requestArrives q (.readPair p)) s

/-- ADMIT (R20, R21). -/
def execAdmitPair (q : ReqHead) (p : Octet) (s : State) : Host.Outcome State Fault Refusal :=
  takeCommand (requestArrives q (.pairCommand p (some .admitPair))) s

/-- WITHDRAW (R20, R21). -/
def execWithdraw (q : ReqHead) (p : Octet) (s : State) : Host.Outcome State Fault Refusal :=
  takeCommand (requestArrives q (.pairCommand p (some .withdraw))) s

/-- BAR (R20, R22). -/
def execBar (q : ReqHead) (p : Octet) (s : State) : Host.Outcome State Fault Refusal :=
  takeCommand (requestArrives q (.pairCommand p (some .bar))) s

/-- CLEAR (R20, R22). -/
def execClear (q : ReqHead) (p : Octet) (s : State) : Host.Outcome State Fault Refusal :=
  takeCommand (requestArrives q (.pairCommand p (some .clear))) s

/-- PROVE (R20, R151). -/
def execProve (q : ReqHead) (p : Octet) (s : State) : Host.Outcome State Fault Refusal :=
  takeCommand (requestArrives q (.pairCommand p (some .prove))) s

/-- RELEASE (R20, R164 b). -/
def execRelease (q : ReqHead) (p : Octet) (s : State) : Host.Outcome State Fault Refusal :=
  takeCommand (requestArrives q (.pairCommand p (some .release))) s

/-- RESET (R20, R23). -/
def execReset (q : ReqHead) (p : Octet) (s : State) : Host.Outcome State Fault Refusal :=
  takeCommand (requestArrives q (.pairCommand p (some .reset))) s

/-- WAKE (R20, R178 c). -/
def execWake (q : ReqHead) (p : Octet) (s : State) : Host.Outcome State Fault Refusal :=
  takeCommand (requestArrives q (.pairCommand p (some .wake))) s

/-- TABLE_STAGE (R60). -/
def execTableStage (q : ReqHead) (items : List StageItem) (s : State) : Host.Outcome State Fault Refusal :=
  takeCommand (requestArrives q (.tableStage items)) s

/-- TABLE_COMMIT (R61, R62). -/
def execTableCommit (q : ReqHead) (i : Octet) (s : State) : Host.Outcome State Fault Refusal :=
  takeCommand (requestArrives q (.tableCommit i)) s

/-- TABLE_FETCH (R63). -/
def execTableFetch (q : ReqHead) (i : Octet) (s : State) : Host.Outcome State Fault Refusal :=
  takeCommand (requestArrives q (.tableFetch i)) s

/-- TABLE_CLEAR (R64). -/
def execTableClear (q : ReqHead) (i : Octet) (s : State) : Host.Outcome State Fault Refusal :=
  takeCommand (requestArrives q (.tableClear i)) s

/-- READ_STAGE (R65 a). -/
def execReadStage (q : ReqHead) (s : State) : Host.Outcome State Fault Refusal :=
  takeCommand (requestArrives q .readStage) s

/-- READ_TABLE_COUNTERS (R65 b). -/
def execReadTableCounters (q : ReqHead) (s : State) : Host.Outcome State Fault Refusal :=
  takeCommand (requestArrives q .readTableCounters) s

/-- READ_COUNTERS (R190). -/
def execReadCounters (q : ReqHead) (g : CounterGroup) (clear : Bool) (s : State) : Host.Outcome State Fault Refusal :=
  takeCommand (requestArrives q (.readCounters g clear)) s

/-- READ_NOTICES (R200). -/
def execReadNotices (q : ReqHead) (s : State) : Host.Outcome State Fault Refusal :=
  takeCommand (requestArrives q .readNotices) s

/-- CLEAR_NOTICES (R200). -/
def execClearNotices (q : ReqHead) (sources : List Nat) (s : State) : Host.Outcome State Fault Refusal :=
  takeCommand (requestArrives q (.clearNotices sources)) s

/-- BOND_RESTART (R39 a, R43, R191). -/
def execBondRestart (q : ReqHead) (s : State) : Host.Outcome State Fault Refusal :=
  takeCommand (requestArrives q .bondRestart) s

/-- RESET_PART (R193). -/
def execResetPart (q : ReqHead) (s : State) : Host.Outcome State Fault Refusal :=
  takeCommand (requestArrives q .resetPart) s

end Sys2Proof.Machine
end

