-- ==== Sys2Proof/Machine/ResetCommands.lean ====
section
/-! DEFINITION. The physical full resets: POWER_ON, SUPPLY_LOW and PIN begin one, FULL_RESET_COMPLETE completes one
(R194). -/

namespace Sys2Proof.Machine
open Sys2Proof

/-- The cause that a physical reset records. -/
def PhysicalReset.cause : PhysicalReset → ResetCause
  | .powerOn => .powerOn
  | .supplyLow => .supplyLow
  | .pin => .pin

/-- A physical reset is marked as begun or completed. -/
def ResetProgress.mark (r : ResetProgress) (c : PhysicalReset) (v : Bool) : ResetProgress :=
  match c with
  | .powerOn => { r with powerOn := v }
  | .supplyLow => { r with supplyLow := v }
  | .pin => { r with pin := v }

/-- A physical reset is in progress. -/
def ResetProgress.inProgress (r : ResetProgress) : PhysicalReset → Bool
  | .powerOn => r.powerOn
  | .supplyLow => r.supplyLow
  | .pin => r.pin

/-- A physical reset begins (R194): the part is held from now on, what it was sending is cut off (R4, R148), and a
pending RESET-PART ends (R193). DEDUCED: log entry 26. -/
def beginReset (c : PhysicalReset) (s : State) : State :=
  let s := cutAll { s with out := [] }
  { s with
    resets := { s.resets.mark c true with last := PhysicalReset.cause c }
    agent := { s.agent with reset := none } }

/-- POWER_ON: the supply first rises. -/
def execPowerOn (s : State) : Host.Outcome State Fault Refusal := .next (beginReset .powerOn s)

/-- SUPPLY_LOW: the supply monitor finds the supply low. -/
def execSupplyLow (s : State) : Host.Outcome State Fault Refusal := .next (beginReset .supplyLow s)

/-- PIN: the reset line is asserted. -/
def execPin (s : State) : Host.Outcome State Fault Refusal := .next (beginReset .pin s)

/-- A physical reset completes (R194). When it is the last in progress, the straps are read and the part takes its
full reset values, with the cause that began last. The completion of a reset that has not begun has no effect
(log entry 13). -/
def fullResetComplete (c : PhysicalReset) (role : Role) (straps : BitVec 16) (s : State) : State :=
  if s.resets.inProgress c then
    let r := s.resets.mark c false
    let s := { s with resets := r }
    if r.held then s else completeReset r.last { s with strapRole := role, straps := straps }
  else s

/-- FULL_RESET_COMPLETE. -/
def execFullResetComplete (c : PhysicalReset) (role : Role) (straps : BitVec 16) (s : State) :
    Host.Outcome State Fault Refusal :=
  .next (fullResetComplete c role straps { s with out := [] })

end Sys2Proof.Machine
end

