-- ==== Sys2Proof/Machine/TimerCommands.lean ====
section
/-! DEFINITION. The expiries of the part's timers. A timer that is stopped does not expire, so the expiry of one has
no effect; the expiry of a running one brings the clock up to its deadline (Conventions, Time; log entry 2). -/

namespace Sys2Proof.Machine
open Sys2Proof

/-- The effect of a timer's expiry, where the timer runs. -/
def expire (t : Option Timer) (f : State → State) (s : State) : State :=
  match t with
  | none => s
  | some t => f (reach t s)

/-- The supervision timer of a pair unit, where it runs with a meaning. -/
def PairUnit.supervisionAs (m : SupMeaning) (u : PairUnit) : Option Timer :=
  match u.supervision with
  | some (m', t) => if m' = m then some t else none
  | none => none

/-- The heard timer of pair `p` expires (R11). -/
def supervisionExpiry (p : PairNo) (s : State) : State :=
  let s := countPair p (fun n => { n with supervisionExpiry := n.supervisionExpiry + 1 }) s
  settle (raiseForPair .pairDown p (tell p .retrain (moveTo p .down s)))

/-- SUPERVISION_EXPIRY. -/
def execSupervisionExpiry (p : PairNo) (s : State) : Host.Outcome State Fault Refusal :=
  takeCommand (fun s => expire ((s.pair p).supervisionAs .heard) (supervisionExpiry p) s) s

/-- An error period of pair `p` ends and the next starts at once (R14). -/
def errorPeriodEnd (p : PairNo) (s : State) : State :=
  modPair p (fun u => { u with errCount := 0, errTimer := some ⟨s.now, ms u.cfg.errorPeriod⟩ }) s

/-- ERROR_PERIOD_END. -/
def execErrorPeriodEnd (p : PairNo) (s : State) : Host.Outcome State Fault Refusal :=
  takeCommand (fun s => expire (s.pair p).errTimer (errorPeriodEnd p) s) s

/-- The settle timer of pair `p` expires (R16). -/
def settleTimerExpiry (p : PairNo) (s : State) : State :=
  modPair p (fun u => { u with strikes := 0, settleTimer := none }) s

/-- SETTLE_TIMER_EXPIRY. -/
def execSettleTimerExpiry (p : PairNo) (s : State) : Host.Outcome State Fault Refusal :=
  takeCommand (fun s => expire (s.pair p).settleTimer (settleTimerExpiry p) s) s

/-- The kind that an expiry of the alive timer raises, by state (R32). -/
def aliveKind : PairState → Option Ctl
  | .joining => some .join
  | .serving => some .alive
  | _ => none

/-- The alive timer of pair `p` expires: it starts again and its kind is raised (R32). -/
def aliveTimerExpiry (p : PairNo) (s : State) : State :=
  let s := modPair p (fun u => { u with aliveTimer := some ⟨s.now, ms s.cfg.aliveInterval⟩ }) s
  match aliveKind (s.pair p).state with
  | some k => chooseHandover p (raiseCtl k p s)
  | none => s

/-- ALIVE_TIMER_EXPIRY. -/
def execAliveTimerExpiry (p : PairNo) (s : State) : Host.Outcome State Fault Refusal :=
  takeCommand (fun s => expire (s.pair p).aliveTimer (aliveTimerExpiry p) s) s

/-- The new R after a sample S (R73): a quarter of the way, truncated toward zero, clamped to 16-16383. -/
def sampleRate (sample rate : Nat) : Nat :=
  clampTo 16 16383 ((rate : Int) + ((sample : Int) - (rate : Int)).tdiv 4).toNat

/-- The sample of a window of `len` milliseconds (R73). -/
def windowSample (count len : Nat) : Nat := min 16383 (count / len)

/-- The pair unit after a window of `dur` microseconds ends, before the next one starts (R73, R82). -/
def PairUnit.endWindow (dur : Nat) (u : PairUnit) : PairUnit :=
  if u.busy then { u with
    rate := sampleRate (windowSample u.windowCount (dur / 1000)) u.rate
    n := { u.n with rateSample := u.n.rateSample + 1 } }
  else { u with n := { u.n with rateHold := u.n.rateHold + 1 } }

/-- A gate window of pair `p` ends and a new one starts (R70 b, R73). -/
def gateWindowEnd (p : PairNo) (t : Timer) (s : State) : State :=
  modPair p (fun u => PairUnit.startWindow s.now s.cfg (u.endWindow t.dur)) s

/-- GATE_WINDOW_END. -/
def execGateWindowEnd (p : PairNo) (s : State) : Host.Outcome State Fault Refusal :=
  takeCommand (fun s =>
    match (s.pair p).window with
    | none => s
    | some t => gateWindowEnd p t (reach t s)) s

/-- The answer timer of a run expires (R155 c). -/
def answerTimerExpiry (r : Run) (s : State) : State := settle (abortRun r.pair .noAnswer s)

/-- ANSWER_TIMER_EXPIRY. -/
def execAnswerTimerExpiry (s : State) : Host.Outcome State Fault Refusal :=
  takeCommand (fun s =>
    match s.engine with
    | none => s
    | some r => expire r.answerTimer (answerTimerExpiry r) s) s

/-- The step timer of a run expires (R158 c). -/
def stepTimerExpiry (s : State) : State := settle (endStep (.fail .timeout none none none) s)

/-- STEP_TIMER_EXPIRY. -/
def execStepTimerExpiry (s : State) : Host.Outcome State Fault Refusal :=
  takeCommand (fun s =>
    match s.engine with
    | none => s
    | some r => expire r.stepTimer stepTimerExpiry s) s

/-- The halt timer of pair `p` expires (R164 c). -/
def haltTimerExpiry (p : PairNo) (s : State) : State := settle (moveTo p .standby s)

/-- HALT_TIMER_EXPIRY. -/
def execHaltTimerExpiry (p : PairNo) (s : State) : Host.Outcome State Fault Refusal :=
  takeCommand (fun s => expire (s.pair p).haltTimer (haltTimerExpiry p) s) s

/-- The ask timer expires (R43). -/
def askTimerExpiry (s : State) : State :=
  { s with bond := { s.bond with asking := false, askTimer := none } }

/-- ASK_TIMER_EXPIRY. -/
def execAskTimerExpiry (s : State) : Host.Outcome State Fault Refusal :=
  takeCommand (fun s => expire s.bond.askTimer askTimerExpiry s) s

/-- HOLD_TIMER_EXPIRY (R124). -/
def execHoldTimerExpiry (c : ClassNo) (s : State) : Host.Outcome State Fault Refusal :=
  takeCommand (fun s => expire (s.cls c).hold (fun s => finish (holdExpires c s)) s) s

/-- The idle timer of pair `p` expires and the offer test is made on it (R172, R173). While *quiet wait* is 0 the
idle flag stays clear (R172). -/
def idleTimerExpiry (p : PairNo) (s : State) : State :=
  chooseHandover p (testOffer p (modPair p (fun u => { u with
    idleTimer := none, idle := u.cfg.quietWait != 0 }) s))

/-- IDLE_TIMER_EXPIRY. -/
def execIdleTimerExpiry (p : PairNo) (s : State) : Host.Outcome State Fault Refusal :=
  takeCommand (fun s => expire (s.pair p).idleTimer (idleTimerExpiry p) s) s

/-- The offer timer of pair `p` expires: the offer lapses, unless the handover of the pair's QUIET-AGREE has begun
(R176 b). -/
def offerTimerExpiry (p : PairNo) (s : State) : State :=
  if (s.pair p).agreeBegun then modPair p (fun u => { u with offerTimer := none }) s
  else settle (lapse p s)

/-- OFFER_TIMER_EXPIRY. -/
def execOfferTimerExpiry (p : PairNo) (s : State) : Host.Outcome State Fault Refusal :=
  takeCommand (fun s => expire (s.pair p).offerTimer (offerTimerExpiry p) s) s

/-- PROBE_TIMER_EXPIRY: the probe is a wake cause (R178 b). -/
def execProbeTimerExpiry (p : PairNo) (s : State) : Host.Outcome State Fault Refusal :=
  takeCommand (fun s => expire ((s.pair p).supervisionAs .probe)
    (fun s => settle (enterWaking p .probe s)) s) s

/-- The wake timeout of pair `p` expires (R181 a). -/
def wakeTimeout (p : PairNo) (s : State) : State :=
  settle (wakeError p (tell p .retrain (moveTo p .down s)))

/-- WAKE_TIMEOUT. -/
def execWakeTimeout (p : PairNo) (s : State) : Host.Outcome State Fault Refusal :=
  takeCommand (fun s => expire ((s.pair p).supervisionAs .wakeTimeout) (wakeTimeout p) s) s

/-- RESET_WAIT_EXPIRY: the pending RESET-PART is performed (R193 c). -/
def execResetWaitExpiry (s : State) : Host.Outcome State Fault Refusal :=
  takeCommand (fun s =>
    expire (s.agent.reset.map (·.wait)) (fun s => completeReset .management (cutAll s)) s) s

end Sys2Proof.Machine
end

