-- ==== Sys2Proof/Machine/TrunkCommands.lean ====
section
/-! DEFINITION. The trunk interface's events: TRUNK_FRAME_IN, TRUNK_READY and TRUNK_SEND_COMPLETE (R142-R145, R148). -/

namespace Sys2Proof.Machine
open Sys2Proof

/-- The frame is addressed to the part's management (R143 a and b). -/
def toManagement (s : State) (f : Frame) : Bool :=
  mgmtTyped f && (destinationOf f = s.cfg.stationAddress || destinationOf f = unitsGroup)

/-- A frame goes to the classifier and on to the distributor (R58, R86 a, R145). -/
def classifyFrame (f : Frame) (s : State) : State :=
  let v := classification s f
  settle (offerFrame v.cls
    { octets := f, urgency := v.urgency, map := v.map, order := 0, resetReply := false }
    (countClassified v.winner s))

/-- A management request for this part reaches the agent, which takes it among its requests in arrival order, whether
its target is NEAR or FAR (R144). -/
def takeManagement (f : Frame) (s : State) : State :=
  handToAgent (.framed .trunk f) (countTrunk (fun n => { n with mgmtIn := n.mgmtIn + 1 }) s)

/-- The trunk interface delivers a frame (R142, R143). A frame of no octets is counted and is nothing that the
rules take further (log entry 16). -/
def trunkFrameIn (f : Frame) (s : State) : State :=
  let s := countTrunk (fun n => { n with
    trunkIn := n.trunkIn + 1, trunkOctetIn := n.trunkOctetIn + BitVec.ofNat 32 f.length }) s
  if f = [] then s
  else if 1600 < f.length then countTrunk (fun n => { n with oversizeIn := n.oversizeIn + 1 }) s
  else if toManagement s f then
    if !holdsFixedPart f then countTrunk (fun n => { n with malformedDrop := n.malformedDrop + 1 }) s
    else if replyFlag f then classifyFrame f s
    else takeManagement f s
  else classifyFrame f s

/-- TRUNK_FRAME_IN. -/
def execTrunkFrameIn (f : Frame) (s : State) : Host.Outcome State Fault Refusal :=
  takeCommand (trunkFrameIn f) s

/-- The trunk interface is ready to take a frame, or not. -/
def setReady (ready : Bool) (s : State) : State := { s with trunk := { s.trunk with ready := ready } }

/-- TRUNK_READY: the trunk interface is ready to take a frame (R148). -/
def execTrunkReady (s : State) : Host.Outcome State Fault Refusal :=
  takeCommand (fun s => beginSend (setReady true s)) s

/-- The trunk interface has taken the last octet of the frame being sent (R148): the entry leaves the queue and is
counted, and a REPLY of a RESET-PART is reported (R193 a). The interface then is ready for the next frame or not
(log entry 17). A completion without a send has no effect (log entry 13). -/
def trunkSendComplete (ready : Bool) (s : State) : State :=
  match s.trunk.sending, s.trunk.egress with
  | true, e :: rest =>
    let s := setReady ready { s with trunk := { s.trunk with
      egress := rest, sending := false
      n := { s.trunk.n with
        trunkOut := s.trunk.n.trunkOut + 1
        trunkOctetOut := s.trunk.n.trunkOctetOut + BitVec.ofNat 32 e.frame.length } } }
    checkReset (beginSend (if e.resetReply then reportReset s else s))
  | _, _ => s

/-- TRUNK_SEND_COMPLETE. -/
def execTrunkSendComplete (ready : Bool) (s : State) : Host.Outcome State Fault Refusal :=
  takeCommand (trunkSendComplete ready) s

end Sys2Proof.Machine
end

