-- ==== Sys2Proof/Machine/Dispatch.lean ====
section
/-! DEFINITION. The dispatch: one arm for each command, in the order of spec/opcode_table.json. -/

namespace Sys2Proof.Machine
open Sys2Proof

/-- The effect of a command on everything but the queue of commands that wait. DEDUCED: log entry 33. -/
def exec (i : Instr) (s : State) : Host.Outcome State Fault Refusal :=
  match i with
  | .lineUp p rate => Sys2Proof.Machine.execLineUp p rate s
  | .lineDown p => Sys2Proof.Machine.execLineDown p s
  | .handoverComplete p => Sys2Proof.Machine.execHandoverComplete p s
  | .damaged p => Sys2Proof.Machine.execDamaged p s
  | .unknownKind p kind len => Sys2Proof.Machine.execUnknownKind p kind len s
  | .data p f => Sys2Proof.Machine.execData p f s
  | .join p h j => Sys2Proof.Machine.execJoin p h j s
  | .alive p h a => Sys2Proof.Machine.execAlive p h a s
  | .restart p h => Sys2Proof.Machine.execRestart p h s
  | .restartAsk p h => Sys2Proof.Machine.execRestartAsk p h s
  | .quietOffer p h => Sys2Proof.Machine.execQuietOffer p h s
  | .quietAgree p h => Sys2Proof.Machine.execQuietAgree p h s
  | .proveRequest p h => Sys2Proof.Machine.execProveRequest p h s
  | .proveAccept p h => Sys2Proof.Machine.execProveAccept p h s
  | .proveDecline p h reason => Sys2Proof.Machine.execProveDecline p h reason s
  | .provePattern p f => Sys2Proof.Machine.execProvePattern p f s
  | .proveEcho p f => Sys2Proof.Machine.execProveEcho p f s
  | .proveEnd p h e => Sys2Proof.Machine.execProveEnd p h e s
  | .supervisionExpiry p => Sys2Proof.Machine.execSupervisionExpiry p s
  | .errorPeriodEnd p => Sys2Proof.Machine.execErrorPeriodEnd p s
  | .settleTimerExpiry p => Sys2Proof.Machine.execSettleTimerExpiry p s
  | .aliveTimerExpiry p => Sys2Proof.Machine.execAliveTimerExpiry p s
  | .gateWindowEnd p => Sys2Proof.Machine.execGateWindowEnd p s
  | .answerTimerExpiry => Sys2Proof.Machine.execAnswerTimerExpiry s
  | .stepTimerExpiry => Sys2Proof.Machine.execStepTimerExpiry s
  | .haltTimerExpiry p => Sys2Proof.Machine.execHaltTimerExpiry p s
  | .askTimerExpiry => Sys2Proof.Machine.execAskTimerExpiry s
  | .holdTimerExpiry c => Sys2Proof.Machine.execHoldTimerExpiry c s
  | .idleTimerExpiry p => Sys2Proof.Machine.execIdleTimerExpiry p s
  | .offerTimerExpiry p => Sys2Proof.Machine.execOfferTimerExpiry p s
  | .probeTimerExpiry p => Sys2Proof.Machine.execProbeTimerExpiry p s
  | .wakeTimeout p => Sys2Proof.Machine.execWakeTimeout p s
  | .resetWaitExpiry => Sys2Proof.Machine.execResetWaitExpiry s
  | .trunkFrameIn f => Sys2Proof.Machine.execTrunkFrameIn f s
  | .trunkReady => Sys2Proof.Machine.execTrunkReady s
  | .trunkSendComplete ready => Sys2Proof.Machine.execTrunkSendComplete ready s
  | .readIdentity q => Sys2Proof.Machine.execReadIdentity q s
  | .badKind q kind => Sys2Proof.Machine.execBadKind q kind s
  | .readSettings q g => Sys2Proof.Machine.execReadSettings q g s
  | .writeSettings q w => Sys2Proof.Machine.execWriteSettings q w s
  | .allotmentWrite q p v => Sys2Proof.Machine.execAllotmentWrite q p v s
  | .quotaWrite q c n => Sys2Proof.Machine.execQuotaWrite q c n s
  | .gateWindowWrite q v => Sys2Proof.Machine.execGateWindowWrite q v s
  | .quietWaitWrite q p n => Sys2Proof.Machine.execQuietWaitWrite q p n s
  | .delayFigureWrite q p n => Sys2Proof.Machine.execDelayFigureWrite q p n s
  | .wakeThresholdWrite q n => Sys2Proof.Machine.execWakeThresholdWrite q n s
  | .readPair q p => Sys2Proof.Machine.execReadPair q p s
  | .admitPair q p => Sys2Proof.Machine.execAdmitPair q p s
  | .withdraw q p => Sys2Proof.Machine.execWithdraw q p s
  | .bar q p => Sys2Proof.Machine.execBar q p s
  | .clear q p => Sys2Proof.Machine.execClear q p s
  | .prove q p => Sys2Proof.Machine.execProve q p s
  | .release q p => Sys2Proof.Machine.execRelease q p s
  | .reset q p => Sys2Proof.Machine.execReset q p s
  | .wake q p => Sys2Proof.Machine.execWake q p s
  | .tableStage q items => Sys2Proof.Machine.execTableStage q items s
  | .tableCommit q index => Sys2Proof.Machine.execTableCommit q index s
  | .tableFetch q index => Sys2Proof.Machine.execTableFetch q index s
  | .tableClear q index => Sys2Proof.Machine.execTableClear q index s
  | .readStage q => Sys2Proof.Machine.execReadStage q s
  | .readTableCounters q => Sys2Proof.Machine.execReadTableCounters q s
  | .readCounters q g clear => Sys2Proof.Machine.execReadCounters q g clear s
  | .readNotices q => Sys2Proof.Machine.execReadNotices q s
  | .clearNotices q sources => Sys2Proof.Machine.execClearNotices q sources s
  | .bondRestart q => Sys2Proof.Machine.execBondRestart q s
  | .resetPart q => Sys2Proof.Machine.execResetPart q s
  | .powerOn => Sys2Proof.Machine.execPowerOn s
  | .supplyLow => Sys2Proof.Machine.execSupplyLow s
  | .pin => Sys2Proof.Machine.execPin s
  | .fullResetComplete cause role straps => Sys2Proof.Machine.execFullResetComplete cause role straps s

end Sys2Proof.Machine
end

