-- ==== Sys2Proof/Machine/Step.lean ====
section
/-! DEFINITION. One step of the part: the command at the front of the queue, or, where none waits, the agent's next
request or the passing of a microsecond. -/

namespace Sys2Proof.Machine
open Sys2Proof

/-- What the part does where no command waits (log entry 18): the agent serves the next request that has reached it
(R183), unless a physical reset holds the part; otherwise a microsecond passes. -/
def idle (s : State) : State :=
  let s := { s with out := [] }
  if !s.resets.held && !s.agent.requests.isEmpty then serveNext s else { s with now := s.now + 1 }

/-- One step: the command at the front of the queue is taken, with the rest of the queue left. -/
def step (s : State) : Host.Outcome State Fault Refusal :=
  match s.pending with
  | [] => .next (idle s)
  | c :: rest => exec c { s with pending := rest }

/-- The state with the command that a table word spells put at the front of the queue. -/
def State.withFetchWord (s : State) (nbits w : Nat) : State :=
  match decodeTableWord nbits w with
  | none => s
  | some c => { s with pending := c :: s.pending }

end Sys2Proof.Machine
end

