-- ==== Sys2Proof/WellFormed.lean ====
section
/-! DEFINITION. The commands whose operands lie within what the manual lets reach the part. -/

namespace Sys2Proof

/-- A trained rate lies within 1-200000 kb/s (R3). -/
def rateFormed (rate : Nat) : Bool := 1 ≤ rate && rate ≤ 200000

/-- A fragment's payload holds at most 512 octets (2.1, R195). -/
def payloadFormed (len : Nat) : Bool := len ≤ 512

/-- A delivered frame holds at least one octet (R142). -/
def frameFormed (f : Frame) : Bool := f ≠ []

/-- A request's body length is a 16-bit field, and a request frame of at most 1600 octets holds at most 1578
after the fixed part (R196). -/
def headFormed (q : ReqHead) : Bool := q.bodyLen < 65536 && q.present ≤ 1578

/-- A kind of section 10.3: the codes 1-16. -/
def requestKind (k : Octet) : Bool := 1 ≤ k.toNat && k.toNat ≤ 16

/-- The operands of a command are well formed. -/
def Instr.wellFormed : Instr → Bool
  | .lineUp _ rate => rateFormed rate
  | .lineDown _ => true
  | .handoverComplete _ => true
  | .damaged _ => true
  | .unknownKind _ kind len => 13 ≤ kind.toNat && payloadFormed len
  | .data _ f => payloadFormed f.payload.length
  | .join _ h _ => payloadFormed h.len
  | .alive _ h _ => payloadFormed h.len
  | .restart _ h => payloadFormed h.len
  | .restartAsk _ h => payloadFormed h.len
  | .quietOffer _ h => payloadFormed h.len
  | .quietAgree _ h => payloadFormed h.len
  | .proveRequest _ h => payloadFormed h.len
  | .proveAccept _ h => payloadFormed h.len
  | .proveDecline _ h _ => payloadFormed h.len
  | .provePattern _ f => payloadFormed f.octets.length
  | .proveEcho _ f => payloadFormed f.octets.length
  | .proveEnd _ h _ => payloadFormed h.len
  | .supervisionExpiry _ => true
  | .errorPeriodEnd _ => true
  | .settleTimerExpiry _ => true
  | .aliveTimerExpiry _ => true
  | .gateWindowEnd _ => true
  | .answerTimerExpiry => true
  | .stepTimerExpiry => true
  | .haltTimerExpiry _ => true
  | .askTimerExpiry => true
  | .holdTimerExpiry _ => true
  | .idleTimerExpiry _ => true
  | .offerTimerExpiry _ => true
  | .probeTimerExpiry _ => true
  | .wakeTimeout _ => true
  | .resetWaitExpiry => true
  | .trunkFrameIn f => frameFormed f
  | .trunkReady => true
  | .trunkSendComplete _ => true
  | .readIdentity q => headFormed q
  | .badKind q kind => headFormed q && !requestKind kind
  | .readSettings q _ => headFormed q
  | .writeSettings q _ => headFormed q
  | .allotmentWrite q _ _ => headFormed q
  | .quotaWrite q _ _ => headFormed q
  | .gateWindowWrite q _ => headFormed q
  | .quietWaitWrite q _ _ => headFormed q
  | .delayFigureWrite q _ _ => headFormed q
  | .wakeThresholdWrite q _ => headFormed q
  | .readPair q _ => headFormed q
  | .admitPair q _ => headFormed q
  | .withdraw q _ => headFormed q
  | .bar q _ => headFormed q
  | .clear q _ => headFormed q
  | .prove q _ => headFormed q
  | .release q _ => headFormed q
  | .reset q _ => headFormed q
  | .wake q _ => headFormed q
  | .tableStage q _ => headFormed q
  | .tableCommit q _ => headFormed q
  | .tableFetch q _ => headFormed q
  | .tableClear q _ => headFormed q
  | .readStage q => headFormed q
  | .readTableCounters q => headFormed q
  | .readCounters q _ _ => headFormed q
  | .readNotices q => headFormed q
  | .clearNotices q _ => headFormed q
  | .bondRestart q => headFormed q
  | .resetPart q => headFormed q
  | .powerOn => true
  | .supplyLow => true
  | .pin => true
  | .fullResetComplete _ _ _ => true

end Sys2Proof
end

