-- ==== Sys2Proof/Safety.lean ====
section
/-! DEFINITION. What claims about the part speak of: when it takes a command, the invariants that its rules state, and
what a command leaves as it was. -/

namespace Sys2Proof.Machine
open Sys2Proof

/-! ## When a command is taken -/

/-- No physical reset is in progress: the part takes commands (R194). -/
abbrev State.taking (s : State) : Prop := s.resets.held = false

/-- The part takes commands and no RESET-PART is pending, so no full reset follows the command (R193). -/
abbrev State.open (s : State) : Prop := s.taking ∧ s.agent.reset = none

/-- The state as a command leaves it that has no effect: its outputs are empty. -/
def State.silent (s : State) : State := { s with out := [] }

/-! ## Invariants -/

/-- The trunk egress queue holds at most 64 frames (R147). -/
def EgressBounded (s : State) : Prop := s.trunk.egress.length ≤ 64

/-- While the part takes commands and no RESET-PART is pending, none of the frames, descriptors and egress entries
that wait belongs to the reply of a RESET-PART (R193, R194). -/
def ResetRepliesGone (s : State) : Prop :=
  s.open → resetReplyHeld s = false ∧ ∀ e ∈ s.trunk.egress, e.resetReply = false

/-- Every entry of the sort table meets the commit checks (R46). -/
def TableChecked (s : State) : Prop :=
  ∀ i : Fin 32, failedCheck i (s.classifier.table.get i).f = none

/-- Each quota lies within 16-752, and they sum to at most 768 (R110, R113). -/
def QuotasHeld (s : State) : Prop :=
  (∀ c : ClassNo, 16 ≤ (s.cls c).cfg.quota ∧ (s.cls c).cfg.quota ≤ 752) ∧
    (s.cls 0).cfg.quota + (s.cls 1).cfg.quota + (s.cls 2).cfg.quota ≤ 768

/-- In each reorder context every held fragment is ahead of next by less than the quota, no two share a sequence,
and next is not held (R117, R119). -/
def ContextsOrdered (s : State) : Prop :=
  ∀ c : ClassNo,
    (∀ f ∈ (s.cls c).held, 1 ≤ dist f.seq (s.cls c).next ∧ dist f.seq (s.cls c).next < (s.cls c).cfg.quota) ∧
      ((s.cls c).held.map (·.seq)).Nodup

/-- While the carried flag is clear, every next sequence and every reorder context's next is 0 (R38). -/
def CarriedMarks (s : State) : Prop :=
  s.bond.carried = false → ∀ c : ClassNo, (s.cls c).nextSeq = 0 ∧ (s.cls c).next = 0

/-- The frame buffer holds at most 128 frames, frames in progress counted, none of them empty or longer than 1600
octets (R84), and neither is a request that arrived at the trunk and waits for the agent (R142). -/
def BufferBounded (s : State) : Prop :=
  s.slotsInUse ≤ 128 ∧
    (∀ c : ClassNo,
      (∀ f ∈ (s.cls c).queue, 1 ≤ f.octets.length ∧ f.octets.length ≤ 1600) ∧
        ∀ g ∈ (s.cls c).current, 1 ≤ g.frame.octets.length ∧ g.frame.octets.length ≤ 1600) ∧
    ∀ r ∈ s.agent.requests, ∀ f ∈ r.trunkFrame, 1 ≤ f.length ∧ f.length ≤ 1600

/-- Each class queue stands in order of urgency, highest first (R85). -/
def QueuesByUrgency (s : State) : Prop :=
  ∀ c : ClassNo, (s.cls c).queue.Pairwise fun f g => g.urgency ≤ f.urgency

/-- A transmit queue holds at most 32 fragments and is empty outside SERVING; a pair that offers is SERVING with an
empty queue; a pair whose QUIET-AGREE is pending or being handed over is offering (R1, R77, R173, R174). -/
def PairUnit.QueueKept (u : PairUnit) : Prop :=
  u.queue.length ≤ 32 ∧ (u.state ≠ .serving → u.queue = []) ∧
    (u.offering = true → u.state = .serving ∧ u.queue = []) ∧
    (u.agreeing = true → u.offering = true)

/-- Every transmit queue is kept so. -/
def QueuesKept (s : State) : Prop := ∀ p : PairNo, (s.pair p).QueueKept

/-- The pending control set holds each kind at most once, in increasing kind number, and only kinds that the state
permits (R29). -/
def PairUnit.ControlKept (u : PairUnit) : Prop :=
  (u.ctl.map Ctl.code).Pairwise (· < ·) ∧ ∀ k ∈ u.ctl, k.permitted u.state = true

/-- Every pending control set is kept so. -/
def ControlSetsKept (s : State) : Prop := ∀ p : PairNo, (s.pair p).ControlKept

/-- A pair's R is 0 in ABSENT and DOWN and within 16-16383 in every other state (R68); its supervision timer runs
with the meaning of its state, and in no other state (R10); its error period, settle timer, gate window, idle timer
and offer timer run in SERVING alone (R14, R16, R70, R172, R173), its alive timer in JOINING and SERVING alone (R32),
its halt timer in HALTED alone (R163), and it wants proving in STANDBY alone (R7, R152). -/
def PairUnit.Coherent (u : PairUnit) : Prop :=
  (if u.state = .absent ∨ u.state = .down then u.rate = 0 else 16 ≤ u.rate ∧ u.rate ≤ 16383) ∧
    u.supervision.map (·.1) =
      (match u.state with
        | .serving => some .heard
        | .quiet => some .probe
        | .waking => some .wakeTimeout
        | _ => none) ∧
    (u.errTimer.isSome = true → u.state = .serving) ∧ (u.settleTimer.isSome = true → u.state = .serving) ∧
    (u.aliveTimer.isSome = true → u.state = .joining ∨ u.state = .serving) ∧
    (u.window.isSome = true → u.state = .serving) ∧ (u.idleTimer.isSome = true → u.state = .serving) ∧
    (u.offerTimer.isSome = true → u.state = .serving) ∧ (u.haltTimer.isSome = true → u.state = .halted) ∧
    (u.proveWanted = true → u.state = .standby)

/-- Every pair unit is coherent, and a pair is PROVING exactly while the engine holds a run on it (R150). -/
def PairsCoherent (s : State) : Prop :=
  (∀ p : PairNo, (s.pair p).Coherent) ∧
    ∀ p : PairNo, (s.pair p).state = .proving ↔ s.runOn p = true

/-! ## What a command leaves as it was -/

/-- What a pair unit keeps through the choices of the next handover and the placements that follow an event: all but
the transmit queue, the pending control set with its decline reason, the prove slot, the handover in progress and
the end slot. -/
def PairUnit.steady (u : PairUnit) : PairUnit :=
  { u with queue := [], ctl := [], declineOut := none, proveSlot := none, handover := none
           record := { u.record with endSlot := none } }

/-- A QUIET pair that a wake request of the distributor has moved to WAKING (R99, R103, R178 a, R179). -/
def PairUnit.Woken (u v : PairUnit) : Prop :=
  u.state = .quiet ∧ v.state = .waking ∧ v.wakeCause = some .demand ∧ v.control = .wake ∧
    v.n = u.n ∧ v.cfg = u.cfg ∧ v.line = u.line ∧ v.rate = u.rate ∧ v.delay = u.delay ∧ v.strikes = u.strikes

/-- A SERVING pair with an empty queue that has begun to offer quiet (R173). -/
def PairUnit.Offered (u v : PairUnit) : Prop :=
  u.state = .serving ∧ u.offering = false ∧ u.queue = [] ∧ v.queue = [] ∧
    v.steady = { u.steady with offering := true, offerSpent := true, offerTimer := v.offerTimer }

/-- A pair unit that is left as it was but for the fields that `steady` leaves out; a QUIET pair may have been asked
to wake. -/
def PairUnit.LeftBy (u v : PairUnit) : Prop := v.steady = u.steady ∨ u.Woken v

/-- Every pair but `p` is left so. -/
def OthersLeft (p : PairNo) (s t : State) : Prop :=
  ∀ q : PairNo, q ≠ p → (s.pair q).LeftBy (t.pair q)

/-- Every pair but `p` is left so, or has begun to offer quiet. -/
def OthersMayOffer (p : PairNo) (s t : State) : Prop :=
  ∀ q : PairNo, q ≠ p → (s.pair q).LeftBy (t.pair q) ∨ (s.pair q).Offered (t.pair q)

/-- Every pair is left so. -/
def AllLeft (s t : State) : Prop := ∀ q : PairNo, (s.pair q).LeftBy (t.pair q)

/-- The settings of every group, the straps, the sort table's fields, the staging record, the reset cause record, the
resets in progress and the queue of commands (R1, R46, R59, R189, R201). -/
def SettingsKept (s t : State) : Prop :=
  t.strapRole = s.strapRole ∧ t.straps = s.straps ∧ t.strapReads = s.strapReads ∧ t.resets = s.resets ∧
    t.pending = s.pending ∧
    t.bond.role = s.bond.role ∧ t.cfg = s.cfg ∧
    (∀ p : PairNo, (t.pair p).cfg = (s.pair p).cfg) ∧ (∀ c : ClassNo, (t.cls c).cfg = (s.cls c).cfg) ∧
    t.notices.destination = s.notices.destination ∧ t.notices.path = s.notices.path ∧
    t.notices.record = s.notices.record ∧
    (∀ i : Fin 11, (t.notices.sources.get i).enable = (s.notices.sources.get i).enable ∧
      (t.notices.sources.get i).level = (s.notices.sources.get i).level) ∧
    (∀ i : Fin 32, (t.classifier.table.get i).f = (s.classifier.table.get i).f) ∧
    t.classifier.image = s.classifier.image ∧ t.classifier.enable = s.classifier.enable

/-- What the collector and the reassembler hold of a class: next, the held set, the horizons, the hold timer and the
reassembly context (R114, R135). -/
def ClassUnit.context (k : ClassUnit) :
    Seq × List Held × Vector (Option Seq) 8 × Option Timer × Reasm :=
  (k.next, k.held, k.horizons, k.hold, k.reasm)

/-- The collector and the reassembler are left as they were. -/
def ContextsLeft (s t : State) : Prop := ∀ c : ClassNo, (t.cls c).context = (s.cls c).context

/-- The bond controller keeps its role, epoch, restart state and ask timer; its carried flag may have been set (R38). -/
def BondLeft (s t : State) : Prop :=
  t.bond = { s.bond with carried := t.bond.carried } ∧ (s.bond.carried = true → t.bond.carried = true)

/-- The proving engine keeps its run, but for the handover start and the step timer of a pattern that has waited
(R158). -/
def EngineLeft (s t : State) : Prop :=
  t.engine.map (fun r => (r.pair, r.running, r.step, r.outstanding, r.answerTimer)) =
    s.engine.map fun r => (r.pair, r.running, r.step, r.outstanding, r.answerTimer)

/-- What an event on pair `p` leaves, with the choices and selections that follow it: the other pairs, the settings,
the bond controller but for its carried flag, and the sort table; no RESET-PART becomes pending. -/
def Beside (p : PairNo) (s t : State) : Prop :=
  OthersLeft p s t ∧ SettingsKept s t ∧ BondLeft s t ∧ t.classifier = s.classifier ∧ t.agent.reset = none

/-- The same for an event after which other pairs may begin to offer quiet. -/
def BesideOffers (p : PairNo) (s t : State) : Prop :=
  OthersMayOffer p s t ∧ SettingsKept s t ∧ BondLeft s t ∧ t.classifier = s.classifier ∧ t.agent.reset = none

/-- Nothing but pair `p`'s unit, the outputs and the proving engine's timers has changed. -/
def OnlyPair (p : PairNo) (s t : State) : Prop :=
  (∀ q : PairNo, q ≠ p → t.pair q = s.pair q) ∧ t.classes = s.classes ∧ t.bond = s.bond ∧
    t.engine.map (·.pair) = s.engine.map (·.pair) ∧ t.classifier = s.classifier ∧ t.trunk = s.trunk ∧
    t.agent = s.agent ∧ t.cfg = s.cfg ∧ t.notices = s.notices ∧ t.now = s.now ∧
    t.nextOrder = s.nextOrder ∧ t.resets = s.resets ∧ t.strapRole = s.strapRole ∧ t.straps = s.straps ∧
    t.strapReads = s.strapReads ∧ t.pending = s.pending

/-- Nothing but the trunk port and the outputs has changed. -/
def OnlyTrunk (s t : State) : Prop := { t with trunk := s.trunk, out := s.out } = s

/-- A control kind waits on the pair or is being handed over. -/
def PairUnit.sends (k : Ctl) (u : PairUnit) : Prop :=
  k ∈ u.ctl ∨ (u.handover.any fun h => h.frag.kind = BitVec.ofNat 4 k.code) = true

/-- A pair unit right after it enters a state, at time `now` and with the BOND settings `b`: the timers, the error
window and the flags as R7, R10, R14, R16, R32, R70, R163 c and R172 give them. A SERVING pair may already be
offering quiet. -/
def PairUnit.Entered (now : Nat) (b : BondSettings) (st : PairState) (v : PairUnit) : Prop :=
  v.state = st ∧
    v.supervision =
      (match st with
        | .serving => some (.heard, ⟨now, b.heardTime⟩)
        | .quiet => some (.probe, ⟨now, seconds b.quietProbe⟩)
        | .waking => some (.wakeTimeout, ⟨now, ms (4 * b.wakeLimit)⟩)
        | _ => none) ∧
    v.errCount = 0 ∧
    v.errTimer = (if st = .serving then some ⟨now, ms v.cfg.errorPeriod⟩ else none) ∧
    v.settleTimer = (if st = .serving then some ⟨now, seconds v.cfg.settlePeriod⟩ else none) ∧
    v.aliveTimer = (if st = .joining ∨ st = .serving then some ⟨now, ms b.aliveInterval⟩ else none) ∧
    v.haltTimer = (if st = .halted then some ⟨now, ms (4 * b.stepTimeout)⟩ else none) ∧
    v.window = (if st = .serving then (windowLength b.gateWindow).map fun n => ⟨now, ms n⟩ else none) ∧
    v.windowCount = 0 ∧
    (st ≠ .serving → v.offering = false ∧ v.offerTimer = none ∧ v.idleTimer = none ∧ v.idle = false) ∧
    (st ≠ .standby → v.proveWanted = false)

/-- The fields of the pair record that no change of state but a reset and an allotment write touches (R6). -/
def PairUnit.RecordKept (u v : PairUnit) : Prop :=
  v.trained = u.trained ∧ v.delay = u.delay ∧ v.farPair = u.farPair ∧ v.farRole = u.farRole ∧
    v.strikes = u.strikes ∧ v.wakeErrors = u.wakeErrors ∧ v.noQuiet = u.noQuiet ∧
    v.quietEntry = u.quietEntry ∧ v.cfg = u.cfg

/-- The pair unit as it is in DOWN after it was in another state (R4, R7, R29 a, R162). -/
def PairUnit.WentDown (v : PairUnit) : Prop :=
  v.line = false ∧ v.rate = 0 ∧ v.ctl = [] ∧ v.handover = none ∧ v.proveSlot = none ∧ v.record.endSlot = none

/-- Pair `p` has been withdrawn (R12): its queue is empty, a handover that was in progress is counted CUT-OFF, and
its horizons are NONE. -/
def Withdrawn (p : PairNo) (s t : State) : Prop :=
  (t.pair p).queue = [] ∧ (∀ c : ClassNo, t.horizon c p = none) ∧
    (t.pair p).n.cutOff =
      (s.pair p).n.cutOff + (if (s.pair p).handover.isSome = true then 1 else 0)

/-- A notice source that one event has raised once (R197): a pending source counts a repeat and keeps its argument,
and another becomes pending with the argument `a`. -/
def RaisedOnce (src : Source) (a : NoticeArg) (s t : State) : Prop :=
  (t.source src).isPending = true ∧
    if (s.source src).isPending = true then
      (t.source src).repeats = min 255 ((s.source src).repeats + 1) ∧ (t.source src).arg = (s.source src).arg
    else (t.source src).repeats = 0 ∧ (t.source src).arg = some a

/-- A notice source that has not been raised. -/
def Unraised (src : Source) (s t : State) : Prop :=
  (t.source src).isPending = (s.source src).isPending ∧ (t.source src).repeats = (s.source src).repeats ∧
    (t.source src).arg = (s.source src).arg

/-- A run has started on pair `p` (R151, R153, R155): the engine holds it, REQUESTING, with its answer timer, the
record is at its start values, and PROVE-REQUEST is raised. -/
def RunStarted (p : PairNo) (s t : State) : Prop :=
  t.engine = some {
      pair := p, running := false, step := 0, outstanding := false, started := none
      answerTimer := some ⟨t.now, ms (4 * s.cfg.stepTimeout)⟩, stepTimer := none } ∧
    (t.pair p).record.status = .requesting ∧ (t.pair p).record.abortCause = none ∧
    (t.pair p).record.declineReason = none ∧ (t.pair p).record.stepsDone = 0 ∧
    (t.pair p).record.failures = 0 ∧ (t.pair p).record.firstFailure = none ∧
    (t.pair p).record.minTrip = none ∧ (t.pair p).record.maxTrip = none ∧
    (t.pair p).record.resultD = none ∧ (t.pair p).record.lastVerdict = (s.pair p).record.lastVerdict ∧
    (t.pair p).record.receivedD = (s.pair p).record.receivedD ∧ (t.pair p).sends .proveRequest

/-- The engine has become free (R152): it holds no run, or one that it has started on the lowest-numbered of the pairs
that waited in `s`. -/
def EngineFreed (s t : State) : Prop :=
  match waitingPair s with
  | none => t.engine = none
  | some q => t.engine.map (fun r => (r.pair, r.running)) = some (q, false) ∧ (t.pair q).state = .proving

/-- The pairs other than `p` and the one that waited lowest are left. -/
def WaitersLeft (p : PairNo) (s t : State) : Prop :=
  ∀ q : PairNo, q ≠ p → waitingPair s ≠ some q → (s.pair q).LeftBy (t.pair q)

/-- The pattern of step `k` waits on the pair or is being handed over (R158). -/
def PairUnit.PatternPut (k : Fin 16) (v : PairUnit) : Prop :=
  v.proveSlot = some { echo := false, step := k, octets := stepPattern k } ∨
    (v.handover.any fun h =>
      h.frag.kind = 10 && h.frag.seq = BitVec.ofNat 14 k.val && h.frag.payload = stepPattern k) = true

/-- A completed frame of class `c` has been passed on by its content (R140). -/
def PassedOn (c : ClassNo) (f : Frame) (s t : State) : Prop :=
  if f = [] then (t.cls c).n.emptyFrame = (s.cls c).n.emptyFrame + 1
  else if mgmtTyped f = true ∧ f.length < 22 then
    t.trunk.n.malformedDrop = s.trunk.n.malformedDrop + 1
  else if mgmtTyped f = true ∧ replyFlag f = false ∧ targetFar f = true then
    (t.cls c).n.mgmtBond = (s.cls c).n.mgmtBond + 1 ∧
      t.agent.requests = s.agent.requests ++ [.framed .bond f]
  else
    (t.cls c).n.frameBuilt = (s.cls c).n.frameBuilt + 1 ∧
      if s.trunk.egress.length < 64 then
        s.trunk.egress ++ [{ frame := f, source := .bondTraffic, resetReply := false }] <+: t.trunk.egress
      else t.trunk.egress = s.trunk.egress

/-- What an offer to class `c` at urgency `u` comes to (R87, R88): admitted, admitted in the place of the victim at the
tail, or dropped. -/
def AdmissionTaken (c : ClassNo) (u : Nat) (s t : State) : Prop :=
  if (s.cls c).holding < (s.cls c).cfg.classLimit ∧ s.slotsInUse < 128 then
    (t.cls c).n.admitted = (s.cls c).n.admitted + 1 ∧ (t.cls c).n.queueDrop = (s.cls c).n.queueDrop
  else
    (t.cls c).n.queueDrop = (s.cls c).n.queueDrop + 1 ∧ RaisedOnce .queueDrop (valueArg c.val) s t ∧
      (t.cls c).n.admitted = (s.cls c).n.admitted +
        (if ((s.cls c).queue.getLast?.any fun v => v.urgency < u) = true then 1 else 0)

/-- An offer of frame record `f` to class `c` has been decided and `u` is the state right after it (R87, R88), before
any selection: the frame stands in the class queue behind every frame of its urgency or higher and ahead of every
other, after the victim at the tail has gone where one is displaced; or it is dropped and the queue left. The
frames in progress, the other classes and the pairs are as they were. -/
def OfferDecided (c : ClassNo) (f : FrameRec) (s u : State) : Prop :=
  let inserted := fun q : List FrameRec =>
    u.nextOrder = s.nextOrder + 1 ∧ ∃ pre post : List FrameRec,
      q = pre ++ post ∧ (u.cls c).queue = pre ++ { f with order := s.nextOrder } :: post ∧
        (∀ g ∈ pre, f.urgency ≤ g.urgency) ∧ ∀ g ∈ post, g.urgency < f.urgency
  u.pairs = s.pairs ∧ u.cfg = s.cfg ∧ u.bond = s.bond ∧ (u.cls c).current = (s.cls c).current ∧
    (∀ d : ClassNo, d ≠ c → u.cls d = s.cls d) ∧
    if (s.cls c).holding < (s.cls c).cfg.classLimit ∧ s.slotsInUse < 128 then inserted (s.cls c).queue
    else if ((s.cls c).queue.getLast?.any fun v => v.urgency < f.urgency) = true then
      inserted (s.cls c).queue.dropLast
    else (u.cls c).queue = (s.cls c).queue ∧ u.nextOrder = s.nextOrder

/-- The reset cause record after a full reset of a cause (R201 a-c). -/
def CauseRecorded (cause : ResetCause) (r r' : CauseRecord) : Prop :=
  r'.last = cause ∧
    match cause with
    | .powerOn => r'.powerOn = 1 ∧ r'.supplyLow = 0 ∧ r'.pin = 0 ∧ r'.management = 0
    | .supplyLow => r'.supplyLow = min 255 (r.supplyLow + 1) ∧ r'.powerOn = r.powerOn ∧ r'.pin = r.pin ∧
        r'.management = r.management
    | .pin => r'.pin = min 255 (r.pin + 1) ∧ r'.powerOn = r.powerOn ∧ r'.supplyLow = r.supplyLow ∧
        r'.management = r.management
    | .management => r'.management = min 255 (r.management + 1) ∧ r'.powerOn = r.powerOn ∧
        r'.supplyLow = r.supplyLow ∧ r'.pin = r.pin

/-- The part right after a full reset (R194): every block at its full reset values, the straps read, RESTARTED pending
and due with the cause. That the trunk interface is not ready is the model's choice (log entry 17). -/
def FullyReset (role : Role) (straps : BitVec 16) (cause : ResetCause) (t : State) : Prop :=
  (∀ p : PairNo, (t.pair p).state = .down ∧ (t.pair p).line = false ∧ (t.pair p).trained = 0 ∧
      (t.pair p).rate = 0 ∧ (t.pair p).delay = 0 ∧ (t.pair p).farPair = none ∧ (t.pair p).farRole = none ∧
      (t.pair p).supervision = none ∧ (t.pair p).errCount = 0 ∧ (t.pair p).errTimer = none ∧
      (t.pair p).strikes = 0 ∧ (t.pair p).settleTimer = none ∧ (t.pair p).wakeErrors = 0 ∧ (t.pair p).noQuiet = false ∧
      (t.pair p).offering = false ∧ (t.pair p).proveWanted = false ∧ (t.pair p).quietEntry = 0 ∧
      (t.pair p).idleTimer = none ∧ (t.pair p).idle = false ∧ (t.pair p).offerSpent = false ∧
      (t.pair p).offerTimer = none ∧ (t.pair p).wakeCause = none ∧ (t.pair p).wakeStart = 0 ∧
      (t.pair p).queue = [] ∧ (t.pair p).ctl = [] ∧ (t.pair p).declineOut = none ∧
      (t.pair p).proveSlot = none ∧ (t.pair p).handover = none ∧ (t.pair p).window = none ∧
      (t.pair p).windowCount = 0 ∧ (t.pair p).busy = false ∧ (t.pair p).aliveTimer = none ∧
      (t.pair p).haltTimer = none ∧ (t.pair p).record = {} ∧ (t.pair p).cfg = {} ∧ (t.pair p).n = {} ∧
      (t.pair p).control = .train) ∧
    (∀ c : ClassNo, (t.cls c).cfg = ClassSettings.default c ∧ (t.cls c).queue = [] ∧ (t.cls c).current = none ∧
      (t.cls c).nextSeq = 0 ∧ (t.cls c).n = {} ∧
      (t.cls c).context = (0, [], Vector.replicate 8 none, none, .idle)) ∧
    t.bond = { role := role, epoch := if role = .cabinet then some 0 else none, carried := false
               asking := false, askTimer := none } ∧
    t.engine = none ∧ t.classifier = {} ∧ t.trunk.egress = [] ∧ t.trunk.sending = false ∧ t.trunk.ready = false ∧
    t.trunk.n = {} ∧ t.agent = {} ∧ t.strapRole = role ∧ t.straps = straps ∧
    t.cfg = { autoProve := role = .cabinet, stationAddress := (0x0A4E4B00#32) ++ straps } ∧
    t.notices.destination = none ∧ t.notices.path = .trunk ∧ t.notices.number = 0 ∧ t.notices.record.last = cause ∧
    (∀ i : Fin 11, (t.notices.sources.get i).enable = true ∧
      ((t.notices.sources.get i).level = .urgent ↔ i.val < 3) ∧
      (t.notices.sources.get i).isPending = (i = 0) ∧ (t.notices.sources.get i).due = (i = 0) ∧
      (t.notices.sources.get i).repeats = 0 ∧ (i ≠ 0 → (t.notices.sources.get i).arg = none)) ∧
    (t.source .restarted).arg = some (valueArg (causeCode cause)) ∧
    t.resets.held = false ∧ t.now = 0

/-- A MANAGEMENT reset has been performed (R193, R194, R201 b), with the straps as they were then read, which the model
leaves open (log entry 4). -/
def ManagementReset (s t : State) : Prop :=
  FullyReset t.strapRole t.straps .management t ∧
    t.strapRole = (if Config.strappedHomestead s.strapReads = true then .homestead else .cabinet) ∧
    t.straps = Config.strapsRead s.strapReads ∧ t.strapReads = s.strapReads + 1 ∧
    CauseRecorded .management s.notices.record t.notices.record ∧ t.pending = s.pending

/-- A local restart into epoch `e` has been performed (R13, R44). -/
def LocallyRestarted (e : Option Epoch) (s t : State) : Prop :=
  (∀ p : PairNo,
      if (s.pair p).state = .serving ∨ (s.pair p).state = .waking ∨ (s.pair p).state = .quiet then
        (t.pair p).Entered s.now s.cfg .joining ∧ (s.pair p).RecordKept (t.pair p) ∧
          (t.pair p).rate = (s.pair p).rate ∧ (t.pair p).queue = [] ∧ (t.pair p).sends .join ∧
          (t.pair p).n.flushed = (s.pair p).n.flushed + BitVec.ofNat 32
            ((s.pair p).queue.drop (if ((s.pair p).handover.any fun h => h.frag.kind = 0) = true then 1 else 0)).length ∧
          (t.pair p).n.cutOff = (s.pair p).n.cutOff + (if (s.pair p).handover.isSome = true then 1 else 0) ∧
          ((s.pair p).state = .quiet → (t.pair p).control = .wake)
      else (t.pair p).steady = (s.pair p).steady) ∧
    (∀ c : ClassNo, (t.cls c).nextSeq = 0 ∧ (t.cls c).current = none ∧
      (t.cls c).context = (0, [], Vector.replicate 8 none, none, .idle) ∧
      (t.cls c).n.cleared = (s.cls c).n.cleared + BitVec.ofNat 32 (s.cls c).held.length ∧
      (t.cls c).n.flushed = (s.cls c).n.flushed + (if (s.cls c).current.isSome = true then 1 else 0) ∧
      (c ≠ 0 → (t.cls c).queue = (s.cls c).queue)) ∧
    t.bond = { role := s.bond.role, epoch := e, carried := false, asking := false, askTimer := none } ∧
    RaisedOnce .epochChanged (valueArg (e.getD 0).toNat) s t ∧
    EngineLeft s t ∧ SettingsKept s t ∧ t.classifier = s.classifier ∧ s.trunk.egress <+: t.trunk.egress ∧
    t.agent.reset = none

/-- A notice source is pending. -/
def Raised (src : Source) (s : State) : Prop := (s.source src).isPending = true

/-- Pair `p`'s horizon is NONE in every class. -/
def NoHorizon (p : PairNo) (s : State) : Prop := ∀ c : ClassNo, s.horizon c p = none

/-! ## Commands -/

/-- The command begins or completes a physical reset. -/
def isResetCommand : Instr → Bool
  | .powerOn => true
  | .supplyLow => true
  | .pin => true
  | .fullResetComplete _ _ _ => true
  | _ => false

/-- The command that begins a physical reset. -/
def PhysicalReset.begins : PhysicalReset → Instr
  | .powerOn => .powerOn
  | .supplyLow => .supplyLow
  | .pin => .pin

/-- The command is a DATA fragment. -/
def isData : Instr → Bool
  | .data _ _ => true
  | _ => false

/-- The pair that a good fragment arrives on, with its payload length and whether it is ill-formed (R26 a-d). -/
def goodFragment : Instr → Option (PairNo × Nat × Bool)
  | .unknownKind p _ len => some (p, len, false)
  | .data p f => some (p, f.payload.length, f.cls = 3)
  | .join p h j => some (p, h.len, h.len ≠ 2 || 1 < j.role.toNat || 7 < j.pair.toNat)
  | .alive p h a =>
      some (p, h.len, h.len ≠ 6 || 16383 < a.h0.toNat || 16383 < a.h1.toNat || 16383 < a.h2.toNat)
  | .restart p h => some (p, h.len, h.len ≠ 0)
  | .restartAsk p h => some (p, h.len, h.len ≠ 0)
  | .quietOffer p h => some (p, h.len, h.len ≠ 0)
  | .quietAgree p h => some (p, h.len, h.len ≠ 0)
  | .proveRequest p h => some (p, h.len, h.len ≠ 0)
  | .proveAccept p h => some (p, h.len, h.len ≠ 0)
  | .proveDecline p h r => some (p, h.len, h.len ≠ 1 || 2 < r.toNat)
  | .provePattern p f => some (p, f.octets.length, 15 < f.step.toNat)
  | .proveEcho p f => some (p, f.octets.length, 15 < f.step.toNat)
  | .proveEnd p h e => some (p, h.len, h.len ≠ 3 || 3 < e.verdict.toNat)
  | _ => none

/-- Pair `p` receives fragments: it is neither ABSENT nor DOWN (R5). -/
abbrev Receives (p : PairNo) (s : State) : Prop := (s.pair p).state ≠ .absent ∧ (s.pair p).state ≠ .down

/-- The state after a good fragment of payload length `len` is counted on pair `p` and, in SERVING, has restarted the
heard timer (R5, R10). -/
def Heard (p : PairNo) (len : Nat) (s : State) : State := modPair p (PairUnit.heard s.now s.cfg len) s.silent

/-- The timer whose expiry a command is: none inside when that timer is stopped. -/
def expiryTimer (s : State) : Instr → Option (Option Timer)
  | .supervisionExpiry p => some ((s.pair p).supervisionAs .heard)
  | .errorPeriodEnd p => some (s.pair p).errTimer
  | .settleTimerExpiry p => some (s.pair p).settleTimer
  | .aliveTimerExpiry p => some (s.pair p).aliveTimer
  | .gateWindowEnd p => some (s.pair p).window
  | .answerTimerExpiry => some (s.engine.bind (·.answerTimer))
  | .stepTimerExpiry => some (s.engine.bind (·.stepTimer))
  | .haltTimerExpiry p => some (s.pair p).haltTimer
  | .askTimerExpiry => some s.bond.askTimer
  | .holdTimerExpiry c => some (s.cls c).hold
  | .idleTimerExpiry p => some (s.pair p).idleTimer
  | .offerTimerExpiry p => some (s.pair p).offerTimer
  | .probeTimerExpiry p => some ((s.pair p).supervisionAs .probe)
  | .wakeTimeout p => some ((s.pair p).supervisionAs .wakeTimeout)
  | .resetWaitExpiry => some (s.agent.reset.map (·.wait))
  | _ => none

/-- The request that a command is: its header and its body. -/
def requestOf : Instr → Option (ReqHead × ReqBody)
  | .readIdentity q => some (q, .readIdentity)
  | .badKind q kind => some (q, .raw kind)
  | .readSettings q g => some (q, .readSettings g)
  | .writeSettings q w => some (q, .writeSettings w)
  | .allotmentWrite q p v => some (q, .writeSettings (.pair p [.allotment v]))
  | .quotaWrite q c n => some (q, .writeSettings (.cls c [.quota n]))
  | .gateWindowWrite q v => some (q, .writeSettings (.bond [.gateWindow v]))
  | .quietWaitWrite q p n => some (q, .writeSettings (.pair p [.quietWait n]))
  | .delayFigureWrite q p n => some (q, .writeSettings (.pair p [.delayFigure n]))
  | .wakeThresholdWrite q n => some (q, .writeSettings (.bond [.wakeThreshold n]))
  | .readPair q p => some (q, .readPair p)
  | .admitPair q p => some (q, .pairCommand p (some .admitPair))
  | .withdraw q p => some (q, .pairCommand p (some .withdraw))
  | .bar q p => some (q, .pairCommand p (some .bar))
  | .clear q p => some (q, .pairCommand p (some .clear))
  | .prove q p => some (q, .pairCommand p (some .prove))
  | .release q p => some (q, .pairCommand p (some .release))
  | .reset q p => some (q, .pairCommand p (some .reset))
  | .wake q p => some (q, .pairCommand p (some .wake))
  | .tableStage q items => some (q, .tableStage items)
  | .tableCommit q i => some (q, .tableCommit i)
  | .tableFetch q i => some (q, .tableFetch i)
  | .tableClear q i => some (q, .tableClear i)
  | .readStage q => some (q, .readStage)
  | .readTableCounters q => some (q, .readTableCounters)
  | .readCounters q g clear => some (q, .readCounters g clear)
  | .readNotices q => some (q, .readNotices)
  | .clearNotices q sources => some (q, .clearNotices sources)
  | .bondRestart q => some (q, .bondRestart)
  | .resetPart q => some (q, .resetPart)
  | _ => none

/-- A request meets the header tests and the access test (R184, R187), and none that reached the agent before it waits
(R183), so that it is served at once. -/
abbrev Admits (q : ReqHead) (b : ReqBody) (s : State) : Prop :=
  headerFails q b = none ∧ (changesState b = true → pathGoverned s q.path = false) ∧ s.agent.requests = []

/-- A reply to request `q` of kind `kind` with a status and body is among the outputs, with the station address
`station` as its source (R185). -/
def Answers (q : ReqHead) (kind : Octet) (st : Status) (body : ReplyBody) (station : Addr) (t : State) : Prop :=
  Output.reply { path := q.path, destination := q.source, source := station, kind := kind
                 tag := q.tag, status := st, body := body } ∈ t.out

/-- A served request that changes nothing but leaves its reply (R183, R186): on path TRUNK nothing but the trunk port
changes, and on path BOND the reply is admitted to class 0 and selections follow. -/
def OnlyReply (q : ReqHead) (s t : State) : Prop :=
  (q.path = .trunk → OnlyTrunk s t) ∧ t.trunk.n.mgmtServed = s.trunk.n.mgmtServed + 1 ∧ AllLeft s t ∧
    SettingsKept s t ∧ ContextsLeft s t ∧ BondLeft s t ∧ EngineLeft s t ∧ t.classifier = s.classifier ∧
    t.agent = s.agent ∧ t.now = s.now

/-- The report of a read, as the state stands when it is served (10.3, R189-R191, R200). -/
def reportOf (s : State) : ReqBody → Option ReplyBody
  | .readIdentity => some (.identity {
      vendor := 0x4E4B, part := 0x6708, revision := 1, role := s.bond.role, station := s.cfg.stationAddress
      epoch := s.bond.epoch, carried := s.bond.carried, asking := s.bond.asking, record := s.notices.record })
  | .readSettings .bond => some (.bondSettings s.cfg)
  | .readSettings (.cls o) => (classIndex o).map fun c => .classSettings (s.cls c).cfg
  | .readSettings (.pair o) => (pairIndex o).map fun p => .pairSettings (s.pair p).cfg (s.pair p).delay
  | .readSettings .notice => some (.noticeSettings s.notices.destination s.notices.path
      (s.notices.sources.toList.map fun u => (u.enable, u.level)))
  | .readPair o => (pairIndex o).map fun p =>
      let u := s.pair p
      .pair {
        state := u.state, line := u.line, trained := u.trained, rate := u.rate
        backlog := (u.queue.map fun e => e.payload.length + 7).sum, delay := u.delay, farPair := u.farPair
        farRole := u.farRole, supervision := u.supervision.map (·.1), errCount := u.errCount
        strikes := u.strikes, settling := u.settleTimer.isSome, wakeErrors := u.wakeErrors
        noQuiet := u.noQuiet, offering := u.offering, proveWanted := u.proveWanted
        quietEntry := u.quietEntry
        counters := {
          fragOut := u.n.fragOut, octetOut := u.n.octetOut, fragIn := u.n.fragIn, octetIn := u.n.octetIn
          damaged := u.n.damaged, cutOff := u.n.cutOff, movedDiscard := u.n.movedDiscard
          flushed := u.n.flushed, lineUp := u.n.lineUp, lineDown := u.n.lineDown
          supervisionExpiry := u.n.supervisionExpiry, strike := u.n.strike
          epochMismatch := u.n.epochMismatch, unknownKind := u.n.unknownKind
          notServing := u.n.notServing, wakeError := u.n.wakeError }
        idleTimer := u.idleTimer.map (·.dur), idle := u.idle, offerSpent := u.offerSpent
        offerRunning := u.offerTimer.isSome, wakeCause := u.wakeCause, wakeStart := u.wakeStart
        record := u.record, horizons := [s.horizon 0 p, s.horizon 1 p, s.horizon 2 p] }
  | .readStage => some (.stage s.classifier.image s.classifier.enable)
  | .readTableCounters => some (.tableCounters
      (s.classifier.table.toList.map fun e => (e.f.kind, e.f.primary, e.f.threshold, e.matched)))
  | .readCounters .trunk _ => some (.trunkCounters
      { s.trunk.n with mgmtServed := s.trunk.n.mgmtServed + 1 } s.trunk.egress.length)
  | .readCounters (.cls o) _ => (classIndex o).map fun c =>
      .classCounters (s.cls c).n (classPresent s.now (s.cls c))
  | .readCounters (.pair o) _ => (pairIndex o).map fun p => .pairCounters (s.pair p).n
  | .readNotices => some (.notices s.notices)
  | _ => none

/-- The part's run on pair `p` is aborted by a command, with its cause (R165). -/
def abortedBy (s : State) : Instr → Option (PairNo × AbortCause)
  | .lineDown p => some (p, .line)
  | .proveDecline p h r =>
      if h.len = 1 ∧ r.toNat ≤ 2 ∧ s.requestingOn p = true then some (p, .declined) else none
  | .answerTimerExpiry => s.engine.bind fun r => if r.answerTimer.isSome = true then some (r.pair, .noAnswer) else none
  | .proveEnd p h e => if h.len = 3 ∧ e.verdict = 3 then some (p, .released) else none
  | .proveRequest p h =>
      if h.len = 0 ∧ (s.pair p).cfg.echoConsent = true ∧ s.bond.role = .homestead then some (p, .crossed) else none
  | c =>
    match requestOf c with
    | some (_, .writeSettings (.pair o _)) => (pairIndex o).map fun p => (p, .write)
    | some (_, .pairCommand o a) => if a = some .prove then none else (pairIndex o).map fun p => (p, .write)
    | _ => none

/-- The outcome that a command gives the step that is outstanding on pair `p` in run `r` (R158 a-c, R159). -/
def stepOutcome (s : State) (r : Run) : Instr → Option StepOutcome
  | .proveEcho p f =>
      if p = r.pair ∧ f.step.toNat = r.step.val ∧ r.running = true then some (echoOutcome s.now r f.octets) else none
  | .damaged p => if p = r.pair then some (.fail .damaged none none none) else none
  | .stepTimerExpiry => if r.stepTimer.isSome = true then some (.fail .timeout none none none) else none
  | _ => none

/-- A proving message that the receiving state does not expect, with its pair and its payload length (R156 g, R160). -/
def strayMessage (s : State) : Instr → Option (PairNo × Nat)
  | .proveAccept p h => if h.len = 0 ∧ s.requestingOn p = false then some (p, 0) else none
  | .proveDecline p h r => if h.len = 1 ∧ r.toNat ≤ 2 ∧ s.requestingOn p = false then some (p, 1) else none
  | .proveEcho p f =>
      if f.step.toNat ≤ 15 ∧ ¬ ((s.pair p).state = .proving ∧
          (s.engine.any fun r => r.pair = p && r.running && r.outstanding && r.step.val = f.step.toNat) = true) then
        some (p, f.octets.length)
      else none
  | .provePattern p f =>
      if f.step.toNat ≤ 15 ∧ (s.pair p).state ≠ .halted then some (p, f.octets.length) else none
  | .proveEnd p h e =>
      if h.len = 3 ∧ e.verdict.toNat ≤ 3 ∧ (s.pair p).state ≠ .halted ∧
          ((s.pair p).state ≠ .proving ∨ e.verdict ≠ 3 ∨ s.runOn p = false) then
        some (p, 3)
      else none
  | .proveRequest p h =>
      if h.len = 0 ∧ (s.pair p).cfg.echoConsent = true ∧
          ((s.pair p).state = .barred ∨ (s.pair p).state = .quiet) then
        some (p, 0)
      else none
  | _ => none

/-- A well-formed fragment that R27 takes in the current epoch alone, with its pair, length and epoch. -/
def epochBound (s : State) : Instr → Option (PairNo × Nat × Epoch)
  | .data p f => if f.cls ≠ 3 then some (p, f.payload.length, f.epoch) else none
  | .quietOffer p h => if h.len = 0 then some (p, 0, h.epoch) else none
  | .quietAgree p h => if h.len = 0 then some (p, 0, h.epoch) else none
  | .alive p h a =>
      if h.len = 6 ∧ aliveFormed a = true ∧ s.bond.role = .cabinet ∧ (s.pair p).state ≠ .quiet then
        some (p, 6, h.epoch)
      else none
  | _ => none

/-- A well-formed message that R27 discards by the part's role, with its pair and length. -/
def roleClash (s : State) : Instr → Option (PairNo × Nat)
  | .join p h j =>
      if h.len = 2 ∧ j.pair.toNat ≤ 7 ∧ j.role = roleCode s.bond.role then some (p, 2) else none
  | .restart p h => if h.len = 0 ∧ s.bond.role = .cabinet then some (p, 0) else none
  | .restartAsk p h => if h.len = 0 ∧ s.bond.role = .homestead then some (p, 0) else none
  | _ => none

/-- A JOIN of two octets from the other role (R26, R27) on a pair that is neither QUIET, DOWN nor ABSENT, which is
followed by no bond restart, adoption or local restart (R39 c, R41, R42). -/
abbrev PlainJoin (p : PairNo) (h : CtlHead) (role : Role) (fresh : Bool) (s : State) : Prop :=
  h.len = 2 ∧ role ≠ s.bond.role ∧ Receives p s ∧ (s.pair p).state ≠ .quiet ∧
    (fresh = true → s.bond.carried = false) ∧
    (s.bond.role = .homestead → s.bond.epoch = some h.epoch ∧
      (fresh = true → ∀ q : PairNo, (s.pair q).state ≠ .serving))

/-- The fields of a JOIN that carry a role, a pair and a FRESH flag (R26). -/
def joinCarries (role : Role) (far : PairNo) (fresh : Bool) : JoinFields :=
  { role := roleCode role, pair := BitVec.ofNat 8 far.val, fresh := fresh }

/-! ## Choices -/

/-- A pair unit passes the tests a. to d. of the offer test (R173). -/
def PairUnit.ReadyToOffer (u : PairUnit) : Bool :=
  u.state = .serving && u.queue.isEmpty && u.idle && !u.offerSpent && !u.offering && !u.noQuiet &&
    u.cfg.quietWait != 0

/-- With `n` pairs awake, pair `q` begins to offer when the pairs of a list are tested in increasing pair number
(R173): it passes the tests a. to d., and the count, less one for each lower-numbered pair of the list that has begun
to offer, exceeds *minimum awake*. -/
def OffersAmong (ps : List PairNo) (n : Nat) (s : State) (q : PairNo) : Prop :=
  q ∈ ps ∧ (s.pair q).ReadyToOffer = true ∧
    s.cfg.minimumAwake + (ps.filter fun r => r < q && (s.pair r).ReadyToOffer).length < n

/-- Pair `p` is the one that a wake request goes to among the pairs that pass a test: the QUIET one with the largest
R, and among equal R the lowest-numbered (R99, R103). -/
def WakeChoice (s : State) (test : PairNo → Bool) (p : PairNo) : Prop :=
  test p = true ∧ (s.pair p).state = .quiet ∧
    ∀ q : PairNo, test q = true → (s.pair q).state = .quiet → q ≠ p →
      (s.pair q).rate < (s.pair p).rate ∨ ((s.pair q).rate = (s.pair p).rate ∧ p < q)

/-- Pair `p` has taken a wake request and nothing else has changed (R99, R178 a, R179). -/
def AskedToWake (p : PairNo) (s t : State) : Prop :=
  OnlyPair p s t ∧ (t.pair p).Entered s.now s.cfg .waking ∧ (t.pair p).wakeCause = some .demand ∧
    (t.pair p).wakeStart = s.now ∧ (t.pair p).control = .wake

/-- The source is due and enabled, and the notices have a destination (R198). -/
def Sendable (s : State) (src : Source) : Prop :=
  (s.source src).due = true ∧ (s.source src).enable = true ∧ s.notices.destination ≠ none

/-- The notice sender takes one source before another: an urgent one before a routine one, and within a level the
lower number (R198). -/
def SentBefore (s : State) (a b : Source) : Prop :=
  ((s.source a).level = .urgent ∧ (s.source b).level = .routine) ∨
    ((s.source a).level = (s.source b).level ∧ (sourceIndex a).val < (sourceIndex b).val)

/-! ## Staged and written values -/

/-- A field of type Qty is clamped to `lo`-`hi`, and marked clamped when that changes it (R189 d). -/
def Clamps {α : Type} (check : α → Checked α) (field : Nat → α) (lo hi : Nat) : Prop :=
  ∀ n : Nat, check (field n) =
    .accept (field (if n < lo then lo else if hi < n then hi else n)) (decide (n < lo ∨ hi < n))

/-- A field of type Enum takes each of its values as it is, and a value outside them is refused BAD-VALUE (R189 a). -/
def Enumerated {α β : Type} (check : α → Checked α) (field : Option β → α) : Prop :=
  check (field none) = .refuse .badValue ∧ ∀ v : β, check (field (some v)) = .accept (field (some v)) false

/-- A numbered field of the staged image takes 0 to `hi` and refuses what lies above (R46, R60). -/
def StagesTo (field : Nat → StageItem) (write : Nat → EntryFields → EntryFields) (hi : Nat) : Prop :=
  ∀ (e : EntryFields) (n : Nat), stageInto e (field n) = if n ≤ hi then some (write n e) else none

/-- An enumerated field of the staged image takes each of its values and refuses any other (R46, R60). -/
def StagesEach {β : Type} (field : Option β → StageItem) (write : β → EntryFields → EntryFields) : Prop :=
  ∀ e : EntryFields, stageInto e (field none) = none ∧ ∀ v : β, stageInto e (field (some v)) = some (write v e)

/-- A sort table entry after a commit of the staging record (R61): each field in the enable set comes from the image,
and each other field from the entry. -/
def committed (k : Classifier) (i : Fin 32) : EntryFields :=
  let a := k.image
  let b := (k.table.get i).f
  let on := fun f => k.enable.contains f
  { kind := if on .kind then a.kind else b.kind
    primary := if on .primary then a.primary else b.primary
    companions := if on .companions then a.companions else b.companions
    linkAddress := if on .linkAddress then a.linkAddress else b.linkAddress
    linkSide := if on .linkSide then a.linkSide else b.linkSide
    linkTest := if on .linkTest then a.linkTest else b.linkTest
    frameType := if on .frameType then a.frameType else b.frameType
    frameTypeTest := if on .frameTypeTest then a.frameTypeTest else b.frameTypeTest
    vlanId := if on .vlanId then a.vlanId else b.vlanId
    vlanTest := if on .vlanTest then a.vlanTest else b.vlanTest
    netAddress := if on .netAddress then a.netAddress else b.netAddress
    netMask := if on .netMask then a.netMask else b.netMask
    netSide := if on .netSide then a.netSide else b.netSide
    protocol := if on .protocol then a.protocol else b.protocol
    protocolTest := if on .protocolTest then a.protocolTest else b.protocolTest
    portMode := if on .portMode then a.portMode else b.portMode
    portMin := if on .portMin then a.portMin else b.portMin
    portMax := if on .portMax then a.portMax else b.portMax
    portSide := if on .portSide then a.portSide else b.portSide
    cls := if on .cls then a.cls else b.cls
    urgencyMode := if on .urgencyMode then a.urgencyMode else b.urgencyMode
    urgencyValue := if on .urgencyValue then a.urgencyValue else b.urgencyValue
    mapMode := if on .mapMode then a.mapMode else b.mapMode
    pairMap := if on .pairMap then a.pairMap else b.pairMap
    threshold := if on .threshold then a.threshold else b.threshold }

/-- The value that a settings item is accepted with (R189). -/
def Checked.value {α : Type} : Checked α → Option α
  | .accept v _ => some v
  | .refuse _ => none

/-- A settings item is accepted with its value clamped (R189 d). -/
def Checked.clamped {α : Type} : Checked α → Bool
  | .accept _ b => b
  | .refuse _ => false

/-- The reply of a WRITE-SETTINGS whose items are all accepted: OK, or CLAMPED with the names of the clamped fields in
the order of the list (R189). -/
def writeReply {α : Type} (check : α → Checked α) (name : α → SettingName) (xs : List α) : Status × ReplyBody :=
  let names := (xs.filter fun x => (check x).clamped).map name
  (if names.isEmpty then .ok else .clamped, .clampedNames names)

/-- The BOND settings with one of them written. -/
def writeBond (b : BondSettings) : BondItem → BondSettings
  | .aliveInterval n => { b with aliveInterval := n }
  | .supervisionMultiple n => { b with supervision := n }
  | .autoProve v => { b with autoProve := v.getD b.autoProve }
  | .barOnFail v => { b with barOnFail := v.getD b.barOnFail }
  | .gateWindow v => { b with gateWindow := v.getD b.gateWindow }
  | .classOrderCode n => { b with classOrder := n }
  | .wakeThreshold n => { b with wakeThreshold := n }
  | .stepTimeout n => { b with stepTimeout := n }
  | .quietProbe n => { b with quietProbe := n }
  | .wakeLimit n => { b with wakeLimit := n }
  | .wakeErrorLimit n => { b with wakeErrorLimit := n }
  | .minimumAwake n => { b with minimumAwake := n }
  | .stationAddress a => { b with stationAddress := a }
  | .trunkWrites v => { b with trunkWrites := v.getD b.trunkWrites }
  | .bondWrites v => { b with bondWrites := v.getD b.bondWrites }

/-- The settings of a class with one of them written. -/
def writeClass (b : ClassSettings) : ClassItem → ClassSettings
  | .classLimit n => { b with classLimit := n }
  | .fragmentSize n => { b with fragmentSize := n }
  | .spill v => { b with spill := v.getD b.spill }
  | .defaultMap ps => { b with defaultMap := PairMap.ofPred fun p => ps.contains p.val }
  | .quota n => { b with quota := n }
  | .holdTime n => { b with holdTime := n }

/-- The settings of a pair, with its delay figure, with one of them written. -/
def writePair (b : PairSettings × Nat) : PairItem → PairSettings × Nat
  | .allotment v => ({ b.1 with allotment := v.getD b.1.allotment }, b.2)
  | .errorPeriod n => ({ b.1 with errorPeriod := n }, b.2)
  | .errorLimit n => ({ b.1 with errorLimit := n }, b.2)
  | .strikeLimit n => ({ b.1 with strikeLimit := n }, b.2)
  | .settlePeriod n => ({ b.1 with settlePeriod := n }, b.2)
  | .delayFigure n => (b.1, n)
  | .echoConsent v => ({ b.1 with echoConsent := v.getD b.1.echoConsent }, b.2)
  | .quietWait n => ({ b.1 with quietWait := n }, b.2)

end Sys2Proof.Machine
end

