-- ==== Sys2Proof/Certificates/Slice0/Obligations.lean ====
section
/-! DEFINITION. The statements about the GK8 that are to be proved. Each is about one command or one operation over
every state and every operand that meet its hypotheses; what a statement reads of the vocabulary of claims stands in
Safety.lean. -/

open Sys2Proof Sys2Proof.Machine

/-! ## Steps, and commands without effect -/

/-- A step takes the command at the front of the queue and leaves the rest (log entry 18). -/
def Obligations.StepTakesFront : Prop :=
  ∀ (c : Instr) (s : State) (rest : List Instr),
    s.pending = c :: rest → step s = exec c { s with pending := rest }

/-- A request that comes as a command is taken at once where no other waits, and waits behind those that reached the
agent before it otherwise (R183). Where no command waits, a microsecond passes, or the agent takes the oldest of the
requests that wait (R144, R183): it discards it while a RESET-PART is pending; it offers a FAR request from the trunk
to class 0 at urgency 7 with every pair in its map, unserved; and it serves any other by its header and body, so that
a framed request has the effect of the command that its frame spells. That the agent takes a waiting request in a step
of its own, in the order of arrival over both paths, and that a FAR request is discarded with the others, is the
model's choice (log entries 15, 18 and 21). -/
def Obligations.IdleStep : Prop :=
  ∀ (s : State),
    (∀ (c : Instr) (q : ReqHead) (b : ReqBody), requestOf c = some (q, b) → s.open →
      if s.agent.requests = [] then exec c s = .next (takeRequest q b s.silent)
      else exec c s = .next { s.silent with
        agent := { s.agent with requests := s.agent.requests ++ [.fields q b] } }) ∧
    (s.pending = [] → s.resets.held = true ∨ s.agent.requests = [] → step s = .next { s.silent with now := s.now + 1 }) ∧
    (∀ (r : Request) (rs : List Request), s.pending = [] → s.agent.requests = r :: rs → s.taking →
      (s.agent.reset ≠ none → step s = .next { s.silent with
        agent := { s.agent with requests := rs }
        trunk := { s.trunk with n := { s.trunk.n with mgmtDiscard := s.trunk.n.mgmtDiscard + 1 } } }) ∧
      (∀ f : Frame, s.agent.reset = none → r = .framed .trunk f → targetFar f = true →
        ∃ u, step s = .next (settle u) ∧ u.agent = { s.agent with requests := rs } ∧
          (settle u).trunk.n.mgmtServed = s.trunk.n.mgmtServed ∧ SettingsKept s (settle u) ∧
          AllLeft s (settle u) ∧ ContextsLeft s (settle u) ∧
          (QueuesByUrgency s → OfferDecided 0 {
            octets := f, urgency := 7, map := everyPair, order := 0, resetReply := false } s u)) ∧
      (s.agent.reset = none → (∀ f : Frame, r = .framed .trunk f → targetFar f = false) →
        step s = .next (takeRequest (readRequest r).1 (readRequest r).2
          { s.silent with agent := { s.agent with requests := rs } }) ∧
        (∀ c : Instr, requestOf c = some (readRequest r) → rs = [] →
          step s = exec c { s with agent := { s.agent with requests := rs } }) ∧
        ((readRequest r).2 ≠ .resetPart → (readRequest r).2 ≠ .readCounters .trunk true →
          ∃ t, step s = .next t ∧ t.trunk.n.mgmtServed = s.trunk.n.mgmtServed + 1 ∧ rs <+: t.agent.requests ∧
            t.pending = [])))

/-- Between a physical reset's beginning and its completion the part takes nothing (R194); a stopped timer does not
expire (log entry 2); and a fragment delivered in ABSENT or DOWN is discarded without test or count (R5). -/
def Obligations.NothingTaken : Prop :=
  ∀ (c : Instr) (s : State),
    (s.resets.held = true → isResetCommand c = false → exec c s = .next s.silent) ∧
    (expiryTimer s c = some none → exec c s = .next s.silent) ∧
    (∀ (p : PairNo), (s.pair p).state = .absent ∨ (s.pair p).state = .down →
      c = .damaged p ∨ (goodFragment c).map (·.1) = some p → exec c s = .next s.silent)

/-! ## Resets -/

/-- The reset state has every block at its full reset values (R194), and all eleven invariants hold in it. That its
role is CABINET, its straps 0x0000 and its cause POWER-ON, and that the trunk interface is not ready, is the model's
choice (log entries 4 and 17). -/
def Obligations.ResetIsFullReset : Prop :=
  FullyReset .cabinet 0 .powerOn State.reset ∧ State.reset.pending = [] ∧
    CauseRecorded .powerOn State.reset.notices.record State.reset.notices.record ∧
    EgressBounded State.reset ∧ TableChecked State.reset ∧ ResetRepliesGone State.reset ∧ QuotasHeld State.reset ∧
    ContextsOrdered State.reset ∧ CarriedMarks State.reset ∧ BufferBounded State.reset ∧
    QueuesByUrgency State.reset ∧ QueuesKept State.reset ∧ ControlSetsKept State.reset ∧
    PairsCoherent State.reset

/-- POWER_ON, SUPPLY_LOW and PIN begin a physical reset: the part is held from then on, its trunk send and its
handovers are cut off, a pending RESET-PART ends, and the cause is the one that began last (R4, R148, R193, R194).
That the cut-off handovers are not counted CUT-OFF and that everything else stays as it was until the completion is
the model's choice (log entries 10 and 26). -/
def Obligations.PhysicalResetBegins : Prop :=
  ∀ (c : PhysicalReset) (s : State),
    ∃ t, exec (PhysicalReset.begins c) s = .next t ∧ t.resets.held = true ∧
      t.resets.inProgress c = true ∧
      (∀ d : PhysicalReset, d ≠ c → t.resets.inProgress d = s.resets.inProgress d) ∧
      t.resets.last = PhysicalReset.cause c ∧ t.trunk = { s.trunk with sending := false } ∧
      t.agent = { s.agent with reset := none } ∧
      (∀ p : PairNo, (t.pair p).handover = none ∧
        { t.pair p with queue := [] } = { s.pair p with queue := [], handover := none } ∧
        (t.pair p).queue =
          (s.pair p).queue.drop (if ((s.pair p).handover.any fun h => h.frag.kind = 0) = true then 1 else 0)) ∧
      t.classes = s.classes ∧ t.bond = s.bond ∧ t.engine = s.engine ∧ t.classifier = s.classifier ∧
      t.cfg = s.cfg ∧ t.notices = s.notices ∧ t.now = s.now ∧ t.nextOrder = s.nextOrder ∧
      t.strapRole = s.strapRole ∧ t.straps = s.straps ∧ t.strapReads = s.strapReads ∧ t.pending = s.pending

/-- The completion of a physical reset (R194): with no other in progress, the straps are read, every block takes its
full reset values and the cause that began last is recorded (R201 a-c); with another in progress, the part stays held;
and a reset that has not begun does not complete. That last point, and that the trunk interface is not ready after a
reset, is the model's choice (log entries 13 and 17). -/
def Obligations.PhysicalResetCompletes : Prop :=
  ∀ (c : PhysicalReset) (role : Role) (straps : BitVec 16) (s : State),
    (s.resets.inProgress c = true → (∀ d : PhysicalReset, d ≠ c → s.resets.inProgress d = false) →
      ∃ t, exec (.fullResetComplete c role straps) s = .next t ∧ FullyReset role straps s.resets.last t ∧
        CauseRecorded s.resets.last s.notices.record t.notices.record ∧ t.pending = s.pending) ∧
    (∀ d : PhysicalReset, s.resets.inProgress c = true → d ≠ c → s.resets.inProgress d = true →
      exec (.fullResetComplete c role straps) s =
        .next { s.silent with resets := s.resets.mark c false }) ∧
    (s.resets.inProgress c = false → exec (.fullResetComplete c role straps) s = .next s.silent)

/-! ## Fragments -/

/-- A good fragment on a pair that is neither ABSENT nor DOWN is counted FRAG-IN and its length is added to OCTET-IN,
whatever it is and whatever it brings about (R5, R19). -/
def Obligations.GoodFragmentsCounted : Prop :=
  ∀ (c : Instr) (p : PairNo) (len : Nat) (illFormed : Bool) (s : State),
    goodFragment c = some (p, len, illFormed) → Receives p s → s.open →
    ∃ t, exec c s = .next t ∧ (t.pair p).n.fragIn = (s.pair p).n.fragIn + 1 ∧
      (t.pair p).n.octetIn = (s.pair p).n.octetIn + BitVec.ofNat 32 (len + 7) ∧ SettingsKept s t

/-- What is discarded by its form, its kind, its epoch or its role: an ill-formed fragment is counted BAD-FIELD, a
kind 13-15 UNKNOWN-KIND (R26), one of another epoch EPOCH-MISMATCH, and one at the wrong role ROLE-CLASH (R27), each
after R5 has counted it; nothing else changes. -/
def Obligations.DiscardsCounted : Prop :=
  ∀ (c : Instr) (p : PairNo) (len : Nat) (kind : BitVec 4) (e : Epoch) (s : State), Receives p s → s.taking →
    (goodFragment c = some (p, len, true) →
      exec c s = .next (countPair p (fun n => { n with badField := n.badField + 1 }) (Heard p len s))) ∧
    (exec (.unknownKind p kind len) s =
      .next (countPair p (fun n => { n with unknownKind := n.unknownKind + 1 }) (Heard p len s))) ∧
    (epochBound s c = some (p, len, e) → s.bond.epoch ≠ some e →
      exec c s = .next (countPair p (fun n => { n with epochMismatch := n.epochMismatch + 1 }) (Heard p len s))) ∧
    (roleClash s c = some (p, len) →
      exec c s = .next (countPair p (fun n => { n with roleClash := n.roleClash + 1 }) (Heard p len s)))

/-- A proving message that the receiving state does not expect is counted PROVE-STRAY and changes no state and no
record field (R156 g, R160). -/
def Obligations.StrayProvingDiscarded : Prop :=
  ∀ (c : Instr) (p : PairNo) (len : Nat) (s : State), Receives p s → s.taking → strayMessage s c = some (p, len) →
    exec c s = .next (countPair p (fun n => { n with proveStray := n.proveStray + 1 }) (Heard p len s))

/-- A damaged fragment is counted DAMAGED (R5). In SERVING it raises the error period count (R14), and the one that
takes the count above the *error limit* causes a strike (R15): the strikes rise, STRIKE and PAIR-DOWN are raised, the
pair is withdrawn, and it enters BARRED at the strike limit, raising PAIR-BARRED, and otherwise PROVING or STANDBY by
*auto-prove* and the engine. That strikes at 15 stay there is the model's choice (log entry 28). -/
def Obligations.DamagedTaken : Prop :=
  ∀ (p : PairNo) (s : State), Receives p s → s.open →
    ((s.pair p).state ≠ .serving →
      ((s.pair p).state ≠ .proving ∨ (s.engine.any fun r => r.pair = p && r.outstanding) = false) →
      exec (.damaged p) s = .next (countPair p (fun n => { n with damaged := n.damaged + 1 }) s.silent)) ∧
    ((s.pair p).state = .serving → (s.pair p).errCount + 1 ≤ (s.pair p).cfg.errorLimit →
      exec (.damaged p) s = .next (modPair p (fun u => { u with
        errCount := u.errCount + 1, n := { u.n with damaged := u.n.damaged + 1 } }) s.silent)) ∧
    ((s.pair p).state = .serving → (s.pair p).cfg.errorLimit < (s.pair p).errCount + 1 →
      ∃ t, exec (.damaged p) s = .next t ∧ Beside p s t ∧ Withdrawn p s t ∧
        (t.pair p).n.damaged = (s.pair p).n.damaged + 1 ∧ (t.pair p).n.strike = (s.pair p).n.strike + 1 ∧
        (t.pair p).strikes = min 15 ((s.pair p).strikes + 1) ∧
        RaisedOnce .strike (valueArg p.val) s t ∧ RaisedOnce .pairDown (valueArg p.val) s t ∧
        (if (s.pair p).cfg.strikeLimit ≤ (t.pair p).strikes then
          (t.pair p).Entered s.now s.cfg .barred ∧ RaisedOnce .pairBarred (valueArg p.val) s t ∧ EngineLeft s t
        else Unraised .pairBarred s t ∧
          if s.cfg.autoProve = true ∧ s.engine = none then
            (t.pair p).Entered s.now s.cfg .proving ∧ RunStarted p s t
          else (t.pair p).Entered s.now s.cfg .standby ∧
            (s.cfg.autoProve = true → (t.pair p).proveWanted = true) ∧ EngineLeft s t))

/-! ## DATA -/

/-- The collector's case for a DATA fragment on a pair that is or becomes SERVING (R117), and the horizons after it
(R118): LATE, BEYOND and DUPLICATE change no context; a stored fragment is counted ACCEPTED, sets the carried flag and
moves its pair's horizon to s + 1 where that was NONE or s + 1 is ahead of it, and no other horizon. In the states
that are in service for no class it is counted NOT-SERVING and changes no horizon (R116 b). -/
def Obligations.DataClassified : Prop :=
  ∀ (p : PairNo) (f : DataFields) (c : ClassNo) (s : State),
    s.open → s.bond.epoch = some f.epoch → classOf f.cls = some c →
    ((s.pair p).state = .serving ∨ (s.pair p).state = .joining ∨ (s.pair p).state = .waking →
      ∃ t, exec (.data p f) s = .next t ∧ BesideOffers p s t ∧
        (8192 ≤ dist f.seq (s.cls c).next →
          (t.cls c).n.late = (s.cls c).n.late + 1 ∧ ContextsLeft s t) ∧
        (dist f.seq (s.cls c).next < 8192 → (s.cls c).cfg.quota ≤ dist f.seq (s.cls c).next →
          (t.cls c).n.beyond = (s.cls c).n.beyond + 1 ∧ ContextsLeft s t) ∧
        (dist f.seq (s.cls c).next < 8192 → dist f.seq (s.cls c).next < (s.cls c).cfg.quota →
          f.seq ∈ (s.cls c).held.map (·.seq) →
          (t.cls c).n.duplicate = (s.cls c).n.duplicate + 1 ∧ ContextsLeft s t) ∧
        (dist f.seq (s.cls c).next < 8192 → dist f.seq (s.cls c).next < (s.cls c).cfg.quota →
          f.seq ∉ (s.cls c).held.map (·.seq) →
          (t.cls c).n.accepted = (s.cls c).n.accepted + 1 ∧ t.bond.carried = true ∧
          t.horizon c p =
            (if ((s.horizon c p).all fun h => ahead (f.seq + 1) h) = true then some (f.seq + 1)
              else s.horizon c p) ∧
          (∀ q : PairNo, q ≠ p → t.horizon c q = s.horizon c q) ∧
          (∀ d : ClassNo, d ≠ c → (t.cls d).context = (s.cls d).context) ∧
          ((∃ q : PairNo, q ≠ p ∧ (s.pair q).inHorizonSet = true ∧ s.horizon c q = none) →
            f.seq ≠ (s.cls c).next → (s.cls c).next ∉ (s.cls c).held.map (·.seq) →
            (t.cls c).next = (s.cls c).next ∧ (t.cls c).held = (s.cls c).held ++
              [{ seq := f.seq, first := f.first, last := f.last, payload := f.payload }]))) ∧
    ((s.pair p).state = .standby ∨ (s.pair p).state = .proving ∨ (s.pair p).state = .halted ∨
      (s.pair p).state = .barred ∨ (s.pair p).state = .quiet →
      exec (.data p f) s = .next (countPair p (fun n => { n with notServing := n.notServing + 1 })
        (Heard p f.payload.length s)))

/-- A DATA fragment of sequence next is released at once and reaches the reassembly context of its class, where its
form and the context's state give the outcome (R119, R136, R137, R139). -/
def Obligations.DataReassembled : Prop :=
  ∀ (p : PairNo) (f : DataFields) (c : ClassNo) (s : State),
    s.open → s.bond.epoch = some f.epoch → classOf f.cls = some c →
    (s.pair p).state = .serving ∨ (s.pair p).state = .joining ∨ (s.pair p).state = .waking →
    f.seq = (s.cls c).next → (s.cls c).held = [] → 0 < (s.cls c).cfg.quota →
    s.horizon c p = none ∨ s.horizon c p = some (s.cls c).next →
    ∃ t, exec (.data p f) s = .next t ∧
      (t.cls c).next = (s.cls c).next + 1 ∧ (t.cls c).held = [] ∧ (t.cls c).hold = none ∧
      (t.cls c).n.released = (s.cls c).n.released + 1 ∧
      (match f.first, (s.cls c).reasm with
        | true, r =>
            (t.cls c).n.tornFrame = (s.cls c).n.tornFrame + (match r with | .building _ => 1 | _ => 0) ∧
            if f.last = true then (t.cls c).reasm = .idle ∧ PassedOn c f.payload s t
            else (t.cls c).reasm = .building f.payload
        | false, .idle => (t.cls c).reasm = .idle ∧ (t.cls c).n.orphan = (s.cls c).n.orphan + 1
        | false, .discarding =>
            (t.cls c).reasm = (if f.last = true then .idle else .discarding) ∧
              (t.cls c).n.skipped = (s.cls c).n.skipped + 1
        | false, .building part =>
            if 1600 < part.length + f.payload.length then
              (t.cls c).reasm = .discarding ∧ (t.cls c).n.oversize = (s.cls c).n.oversize + 1
            else if f.last = true then (t.cls c).reasm = .idle ∧ PassedOn c (part ++ f.payload) s t
            else (t.cls c).reasm = .building (part ++ f.payload))

/-! ## Joining, ALIVE and the epoch -/

/-- A pair in JOINING enters SERVING, and a pair in WAKING completes its wake, on a DATA fragment, an ALIVE or a JOIN
taken in the current epoch (R34 a and d, R35, R37 b and c, R172, R180). That a wake by probe or line leaves the idle
flag clear while *quiet wait* is 0, and that the wake limit is read as it stands at the completion, is the model's
choice (log entries 29 and 44). -/
def Obligations.ServiceEntered : Prop :=
  ∀ (c : Instr) (p : PairNo) (s : State), s.open →
    (s.pair p).state = .joining ∨ (s.pair p).state = .waking →
    (∃ f : DataFields, c = .data p f ∧ f.cls ≠ 3 ∧ s.bond.epoch = some f.epoch) ∨
      (∃ (h : CtlHead) (a : AliveFields),
        c = .alive p h a ∧ h.len = 6 ∧ aliveFormed a = true ∧ s.bond.epoch = some h.epoch) ∨
      (∃ (h : CtlHead) (role : Role) (far : PairNo) (fresh : Bool),
        c = .join p h (joinCarries role far fresh) ∧ s.bond.epoch = some h.epoch ∧ PlainJoin p h role fresh s) →
    ∃ t, exec c s = .next t ∧ (t.pair p).Entered s.now s.cfg .serving ∧ (t.pair p).rate = (s.pair p).rate ∧
      (t.pair p).delay = (s.pair p).delay ∧ (t.pair p).strikes = (s.pair p).strikes ∧
      (t.pair p).sends .alive ∧
      (s.bond.role = .homestead → s.bond.asking = true → (t.pair p).sends .restartAsk) ∧
      RaisedOnce .pairUp (valueArg p.val) s t ∧ BesideOffers p s t ∧ EngineLeft s t ∧
      (if (s.pair p).state = .waking ∧
          ((s.pair p).wakeCause = some .probe ∨ (s.pair p).wakeCause = some .line) ∧
          isData c = false then
        (t.pair p).idleTimer = none ∧ (t.pair p).idle = ((s.pair p).cfg.quietWait != 0)
      else (t.pair p).idle = false ∧ (t.pair p).idleTimer =
        (if (s.pair p).cfg.quietWait = 0 then none else some ⟨s.now, ms (100 * (s.pair p).cfg.quietWait)⟩)) ∧
      (if (s.pair p).state = .waking then
        (t.pair p).n.wakeDone = (s.pair p).n.wakeDone + 1 ∧
        (if ms s.cfg.wakeLimit < s.now - (s.pair p).wakeStart then
          (t.pair p).wakeErrors = min 15 ((s.pair p).wakeErrors + 1) ∧
          (t.pair p).n.wakeError = (s.pair p).n.wakeError + 1 ∧ RaisedOnce .wakeError (valueArg p.val) s t ∧
          ((t.pair p).noQuiet = true ↔
            (s.pair p).noQuiet = true ∨ s.cfg.wakeErrorLimit ≤ min 15 ((s.pair p).wakeErrors + 1))
        else (t.pair p).wakeErrors = (s.pair p).wakeErrors ∧ (t.pair p).noQuiet = (s.pair p).noQuiet ∧
          Unraised .wakeError s t)
      else (t.pair p).wakeErrors = (s.pair p).wakeErrors ∧ Unraised .wakeError s t)

/-- An ALIVE in the current epoch on a SERVING, JOINING or WAKING pair sets the pair's horizon in each class to the
carried value, whether that is ahead of it, equal to it or behind it, and no other pair's (R37, R121); a class whose
horizon rule another pair blocks keeps the rest of its context (R125). In STANDBY, PROVING, HALTED and BARRED it is
discarded. -/
def Obligations.AliveSetsHorizons : Prop :=
  ∀ (p : PairNo) (h : CtlHead) (a : AliveFields) (s : State),
    s.open → h.len = 6 → aliveFormed a = true → s.bond.epoch = some h.epoch →
    ((s.pair p).state = .serving ∨ (s.pair p).state = .joining ∨ (s.pair p).state = .waking →
      ∃ t, exec (.alive p h a) s = .next t ∧ BesideOffers p s t ∧
        ((s.pair p).state = .serving → OthersLeft p s t ∧
          (t.pair p).steady = ((Heard p 6 s).pair p).steady) ∧
        (∀ c : ClassNo, t.horizon c p = some ((aliveHorizons a c).setWidth 14) ∧
          (∀ q : PairNo, q ≠ p → t.horizon c q = s.horizon c q) ∧
          ((∃ q : PairNo, q ≠ p ∧ (s.pair q).inHorizonSet = true ∧ s.horizon c q = none) →
            (t.cls c).next = (s.cls c).next ∧ (t.cls c).held = (s.cls c).held ∧
              (t.cls c).reasm = (s.cls c).reasm))) ∧
    ((s.pair p).state = .standby ∨ (s.pair p).state = .proving ∨ (s.pair p).state = .halted ∨
      (s.pair p).state = .barred →
      ∃ t, exec (.alive p h a) s = .next t ∧ Beside p s t ∧ ContextsLeft s t ∧ EngineLeft s t ∧
        (t.pair p).steady = ((Heard p 6 s).pair p).steady)

/-- A JOIN that no restart accompanies records the far pair and the far role in every state (R34). In SERVING, in the
current epoch, it raises ALIVE and makes the pair's horizons NONE (R34 c). At a CABINET, a JOIN of another epoch on a
JOINING, SERVING or WAKING pair and a RESTART-ASK of another epoch raise RESTART on their pair and leave the epoch
(R34 b, R40). -/
def Obligations.JoinTaken : Prop :=
  ∀ (p : PairNo) (h : CtlHead) (role : Role) (far : PairNo) (fresh : Bool) (s : State), s.open →
    (PlainJoin p h role fresh s →
      ∃ t, exec (.join p h (joinCarries role far fresh)) s = .next t ∧
        (t.pair p).farPair = some far ∧ (t.pair p).farRole = some role ∧ t.bond.epoch = s.bond.epoch ∧
        ((s.pair p).state = .serving → s.bond.epoch = some h.epoch →
          (t.pair p).state = .serving ∧ (t.pair p).sends .alive ∧ Beside p s t ∧
          ∀ c : ClassNo, t.horizon c p = none ∧ (∀ q : PairNo, q ≠ p → t.horizon c q = s.horizon c q) ∧
            (t.cls c).next = (s.cls c).next ∧ (t.cls c).held = (s.cls c).held) ∧
        ((s.pair p).state = .joining ∨ (s.pair p).state = .serving ∨ (s.pair p).state = .waking →
          s.bond.epoch ≠ some h.epoch →
          (t.pair p).state = (s.pair p).state ∧ (t.pair p).sends .restart ∧ Beside p s t ∧ ContextsLeft s t) ∧
        ((s.pair p).state = .standby ∨ (s.pair p).state = .proving ∨ (s.pair p).state = .halted ∨
          (s.pair p).state = .barred →
          (t.pair p).steady =
            { ((Heard p 2 s).pair p).steady with farPair := some far, farRole := some role } ∧
          Beside p s t ∧ ContextsLeft s t)) ∧
    (Receives p s → (s.pair p).state ≠ .quiet → h.len = 0 → s.bond.role = .cabinet →
      s.bond.epoch ≠ some h.epoch →
      ∃ t, exec (.restartAsk p h) s = .next t ∧ OnlyPair p s t ∧
        (t.pair p).steady = ((Heard p 0 s).pair p).steady ∧
        ((s.pair p).state = .joining ∨ (s.pair p).state = .serving ∨ (s.pair p).state = .waking →
          (t.pair p).sends .restart))

/-- A HOMESTEAD adopts the epoch of a RESTART, an ALIVE or a JOIN that differs from its own, with a local restart
(R41, R44), and adopts nothing from a RESTART whose epoch is equal. A FRESH JOIN of the same epoch restarts it locally
where a pair is SERVING or the carried flag is set (R42). The pair of an ALIVE or a JOIN then enters SERVING where it
was JOINING, SERVING or WAKING. -/
def Obligations.AdoptionRestarts : Prop :=
  ∀ (p : PairNo) (h : CtlHead) (a : AliveFields) (far : PairNo) (fresh : Bool) (s : State),
    s.open → s.bond.role = .homestead → Receives p s → (s.pair p).state ≠ .quiet →
    (h.len = 0 → s.bond.epoch ≠ some h.epoch →
      ∃ t, exec (.restart p h) s = .next t ∧ LocallyRestarted (some h.epoch) (Heard p 0 s) t) ∧
    (h.len = 0 → s.bond.epoch = some h.epoch →
      ∃ t, exec (.restart p h) s = .next t ∧ Beside p s t ∧ ContextsLeft s t ∧ EngineLeft s t ∧
        (t.pair p).steady = ((Heard p 0 s).pair p).steady) ∧
    (∀ c : Instr, c = .alive p { h with len := 6 } a ∧ aliveFormed a = true ∨
        c = .join p { h with len := 2 } (joinCarries .cabinet far fresh) →
      s.bond.epoch ≠ some h.epoch ∨
        (c = .join p { h with len := 2 } (joinCarries .cabinet far fresh) ∧ fresh = true ∧
          (s.bond.carried = true ∨ ∃ q : PairNo, (s.pair q).state = .serving)) →
      ∃ t, exec c s = .next t ∧ t.bond.epoch = some h.epoch ∧ t.bond.asking = false ∧ t.bond.askTimer = none ∧
        RaisedOnce .epochChanged (valueArg h.epoch.toNat) s t ∧ SettingsKept s t ∧
        (∀ q : PairNo, q ≠ p → (s.pair q).state = .serving ∨ (s.pair q).state = .waking ∨
          (s.pair q).state = .quiet → (t.pair q).state = .joining ∧ (t.pair q).queue = []) ∧
        (if (s.pair p).state = .joining ∨ (s.pair p).state = .serving ∨ (s.pair p).state = .waking then
          (t.pair p).Entered s.now s.cfg .serving ∧ RaisedOnce .pairUp (valueArg p.val) s t
        else (t.pair p).state = (s.pair p).state))

/-- A CABINET restarts the bond on a RESTART-ASK of the current epoch, on a BOND-RESTART request, and on a FRESH JOIN
taken while the carried flag is set (R39): the next epoch, the local restart (R44), and RESTART raised on every pair
that it moved. A JOIN that already carries the epoch of the restart then takes its pair into SERVING, and one of
another epoch raises RESTART on a JOINING pair too (R34). A HOMESTEAD answers BOND-RESTART by asking on every SERVING
pair, or BUSY where none is SERVING (R43). -/
def Obligations.BondRestarted : Prop :=
  ∀ (p : PairNo) (h : CtlHead) (far : PairNo) (q : ReqHead) (s : State) (e : Epoch), s.open →
    (s.bond.role = .cabinet → s.bond.epoch = some e → Receives p s → (s.pair p).state ≠ .quiet →
      (h.len = 0 → h.epoch = e →
        ∃ t, exec (.restartAsk p h) s = .next t ∧ LocallyRestarted (some (e + 1)) (Heard p 0 s) t ∧
          ∀ r : PairNo, (s.pair r).state = .serving ∨ (s.pair r).state = .waking ∨ (s.pair r).state = .quiet →
            (t.pair r).sends .restart) ∧
      (h.len = 2 → h.epoch ≠ e + 1 → s.bond.carried = true →
        ∃ t, exec (.join p h (joinCarries .homestead far true)) s = .next t ∧
          LocallyRestarted (some (e + 1))
            (modPair p (fun u => { u with farPair := some far, farRole := some .homestead }) (Heard p 2 s)) t ∧
          (∀ r : PairNo, (s.pair r).state = .serving ∨ (s.pair r).state = .waking ∨ (s.pair r).state = .quiet →
            (t.pair r).sends .restart) ∧
          ((s.pair p).state = .joining ∨ (s.pair p).state = .serving ∨ (s.pair p).state = .waking →
            (t.pair p).sends .restart)) ∧
      (h.len = 2 → h.epoch = e + 1 → s.bond.carried = true →
        ∃ t, exec (.join p h (joinCarries .homestead far true)) s = .next t ∧ t.bond.epoch = some (e + 1) ∧
          t.bond.asking = false ∧ t.bond.askTimer = none ∧ SettingsKept s t ∧ EngineLeft s t ∧
          RaisedOnce .epochChanged (valueArg (e + 1).toNat) s t ∧
          (t.pair p).farPair = some far ∧ (t.pair p).farRole = some .homestead ∧
          (∀ r : PairNo, (s.pair r).state = .serving ∨ (s.pair r).state = .waking ∨ (s.pair r).state = .quiet →
            (t.pair r).sends .restart ∧ (r ≠ p → (t.pair r).Entered s.now s.cfg .joining ∧
              (t.pair r).queue = [] ∧ (t.pair r).sends .join)) ∧
          (if (s.pair p).state = .joining ∨ (s.pair p).state = .serving ∨ (s.pair p).state = .waking then
            (t.pair p).Entered s.now s.cfg .serving ∧ RaisedOnce .pairUp (valueArg p.val) s t
          else (t.pair p).state = (s.pair p).state))) ∧
    (s.bond.role = .cabinet → s.bond.epoch = some e → Admits q .bondRestart s →
      ∃ t, exec (.bondRestart q) s = .next t ∧ LocallyRestarted (some (e + 1)) s t ∧
        Answers q 15 .ok .empty s.cfg.stationAddress t ∧
        ∀ r : PairNo, (s.pair r).state = .serving ∨ (s.pair r).state = .waking ∨ (s.pair r).state = .quiet →
          (t.pair r).sends .restart) ∧
    (s.bond.role = .homestead → Admits q .bondRestart s →
      ((∃ r : PairNo, (s.pair r).state = .serving) →
        ∃ t, exec (.bondRestart q) s = .next t ∧ Answers q 15 .ok .empty s.cfg.stationAddress t ∧
          t.bond = { s.bond with
            carried := t.bond.carried, asking := true, askTimer := some ⟨s.now, 1000000⟩ } ∧
          AllLeft s t ∧ SettingsKept s t ∧ ContextsLeft s t ∧
          ∀ r : PairNo, (s.pair r).state = .serving → (t.pair r).sends .restartAsk) ∧
      ((∀ r : PairNo, (s.pair r).state ≠ .serving) →
        ∃ t, exec (.bondRestart q) s = .next t ∧ Answers q 15 .busy .empty s.cfg.stationAddress t ∧
          OnlyReply q s t))

/-! ## Quiet pairs and handovers -/

/-- A QUIET-OFFER in the current epoch (R174): a SERVING pair that is itself offering and not yet agreeing drops its
own pending offer and raises QUIET-AGREE; one that is idle and passes the tests a., c., d. and e. of R173 begins to
agree; in every other case nothing changes. -/
def Obligations.QuietOfferAnswered : Prop :=
  ∀ (p : PairNo) (h : CtlHead) (s : State),
    s.taking → Receives p s → h.len = 0 → s.bond.epoch = some h.epoch →
    if (s.pair p).state = .serving ∧ (s.pair p).offering = true ∧ (s.pair p).agreeing = false then
      ∃ t, exec (.quietOffer p h) s = .next t ∧ OnlyPair p s t ∧
        (t.pair p).steady = ((Heard p 0 s).pair p).steady ∧ (t.pair p).sends .quietAgree ∧
        Ctl.quietOffer ∉ (t.pair p).ctl
    else if (s.pair p).state = .serving ∧ (s.pair p).queue = [] ∧ (s.pair p).idle = true ∧
        (s.pair p).offering = false ∧ (s.pair p).noQuiet = false ∧ (s.pair p).cfg.quietWait ≠ 0 ∧
        s.cfg.minimumAwake < s.awakeCount then
      ∃ t, exec (.quietOffer p h) s = .next t ∧ OnlyPair p s t ∧
        (t.pair p).steady = { ((Heard p 0 s).pair p).steady with
          offering := true, offerTimer := some ⟨s.now, ms (2 * s.cfg.aliveInterval)⟩ } ∧
        (t.pair p).sends .quietAgree
    else exec (.quietOffer p h) s = .next (Heard p 0 s)

/-- An offering SERVING pair enters QUIET when it takes a QUIET-AGREE of the current epoch (R175) and when the
handover of its own QUIET-AGREE completes (R174), with the effects of R177 and no PAIR-DOWN; the distributor may ask
it to wake in the same event (R103). A QUIET-AGREE on a pair that is not offering is ignored. That the quiet-entry
time leaves out the part of a second is the model's choice (log entry 8). -/
def Obligations.PairFallsQuiet : Prop :=
  ∀ (c : Instr) (p : PairNo) (h : CtlHead) (s : State), s.open →
    (Receives p s → h.len = 0 → s.bond.epoch = some h.epoch →
      (s.pair p).state ≠ .serving ∨ (s.pair p).offering = false →
      exec (.quietAgree p h) s = .next (Heard p 0 s)) ∧
    ((s.pair p).state = .serving →
      (c = .quietAgree p h ∧ h.len = 0 ∧ s.bond.epoch = some h.epoch ∧ (s.pair p).offering = true) ∨
        (c = .handoverComplete p ∧ ∃ f : Handover, (s.pair p).handover = some f ∧ f.frag.kind = 6) →
      ∃ t, exec c s = .next t ∧ Beside p s t ∧
        (((t.pair p).Entered s.now s.cfg .quiet ∧ (t.pair p).control = .lowPower) ∨
          ((t.pair p).Entered s.now s.cfg .waking ∧ (t.pair p).control = .wake ∧
            (t.pair p).wakeCause = some .demand)) ∧
        (t.pair p).line = false ∧ (t.pair p).ctl = [] ∧ (t.pair p).handover = none ∧
        (t.pair p).rate = (s.pair p).rate ∧ (t.pair p).delay = (s.pair p).delay ∧
        (t.pair p).strikes = (s.pair p).strikes ∧ (t.pair p).wakeErrors = (s.pair p).wakeErrors ∧
        (s.now < 4294967296000000 → (t.pair p).quietEntry = s.now / 1000000) ∧
        (t.pair p).n.quietEntry = (s.pair p).n.quietEntry + 1 ∧ Unraised .pairDown s t ∧
        (∀ d : ClassNo, t.horizon d p = none))

/-- A completed handover is counted FRAG-OUT and OCTET-OUT and added to the running gate window (R4, R19, R71). A DATA
entry leaves the queue, which restarts the idle timer of a SERVING pair and clears the busy flag when it leaves the
queue empty (R72, R172); entries placed by the selection that follows stand behind the others. A completion on a pair
that hands nothing over has no effect (log entry 13). -/
def Obligations.HandoverCounted : Prop :=
  ∀ (p : PairNo) (s : State), s.open →
    ((s.pair p).handover = none → exec (.handoverComplete p) s = .next s.silent) ∧
    (∀ h : Handover, (s.pair p).handover = some h → (s.pair p).state ≠ .quiet →
      (h.frag.kind ≠ 6 ∨ (s.pair p).state ≠ .serving) →
      ∃ t, exec (.handoverComplete p) s = .next t ∧ Beside p s t ∧ ContextsLeft s t ∧
        (t.pair p).state = (s.pair p).state ∧ (s.pair p).RecordKept (t.pair p) ∧
        (t.pair p).rate = (s.pair p).rate ∧ (t.pair p).supervision = (s.pair p).supervision ∧
        (t.pair p).n = { (s.pair p).n with
          fragOut := (s.pair p).n.fragOut + 1
          octetOut := (s.pair p).n.octetOut + BitVec.ofNat 32 (h.frag.payload.length + 7) } ∧
        (t.pair p).window = (s.pair p).window ∧
        ((s.pair p).window.isSome = true →
          (t.pair p).windowCount = (s.pair p).windowCount + (h.frag.payload.length + 7)) ∧
        (if h.frag.kind = 0 then
          (s.pair p).queue.tail <+: (t.pair p).queue ∧
          ((t.pair p).busy = true ↔ (s.pair p).busy = true ∧ (s.pair p).queue.tail ≠ []) ∧
          ((s.pair p).state = .serving → (t.pair p).idle = false ∧ (t.pair p).offerSpent = false ∧
            (t.pair p).idleTimer =
              (if (s.pair p).cfg.quietWait = 0 then none
                else some ⟨s.now, ms (100 * (s.pair p).cfg.quietWait)⟩))
        else (s.pair p).queue <+: (t.pair p).queue ∧ (t.pair p).busy = (s.pair p).busy ∧
          (t.pair p).idle = (s.pair p).idle ∧ (t.pair p).idleTimer = (s.pair p).idleTimer))

/-- A QUIET pair enters WAKING on the expiry of its probe timer, on a line-up report and on the WAKE command (R178,
R179), each with its wake cause; the line-up also sets R (R69 c) and raises ALIVE. A WAKING pair whose wake timeout
expires enters DOWN with a wake error and no PAIR-DOWN (R181 a, R182). -/
def Obligations.WakeBeginsAndFails : Prop :=
  ∀ (p : PairNo) (tm : Timer) (rate : Nat) (q : ReqHead) (o : Octet) (s : State), s.open →
    ((s.pair p).state = .quiet →
      ((s.pair p).supervision = some (.probe, tm) →
        ∃ t, exec (.probeTimerExpiry p) s = .next t ∧ t.now = max s.now (tm.start + tm.dur) ∧
          (t.pair p).Entered t.now s.cfg .waking ∧ (t.pair p).wakeCause = some .probe ∧
          (t.pair p).wakeStart = t.now ∧ (t.pair p).control = .wake ∧ (t.pair p).line = (s.pair p).line ∧
          (t.pair p).rate = (s.pair p).rate ∧ (s.pair p).RecordKept (t.pair p) ∧ Beside p s t ∧
          ContextsLeft s t) ∧
      (∃ t, exec (.lineUp p rate) s = .next t ∧ (t.pair p).Entered s.now s.cfg .waking ∧
          (t.pair p).wakeCause = some .line ∧ (t.pair p).wakeStart = s.now ∧
          (t.pair p).control = (s.pair p).control ∧ (t.pair p).line = true ∧ (t.pair p).trained = rate ∧
          (t.pair p).rate = clampTo 16 16383 (rate / 8) ∧ (t.pair p).sends .alive ∧
          (t.pair p).n.lineUp = (s.pair p).n.lineUp + 1 ∧ Beside p s t ∧ ContextsLeft s t) ∧
      (pairIndex o = some p → s.runOn p = false → Admits q (.pairCommand o (some .wake)) s →
        ∃ t, exec (.wake q o) s = .next t ∧ Answers q 5 .ok .empty s.cfg.stationAddress t ∧
          (t.pair p).Entered s.now s.cfg .waking ∧ (t.pair p).wakeCause = some .command ∧
          (t.pair p).wakeStart = s.now ∧ (t.pair p).control = .wake ∧ (t.pair p).line = (s.pair p).line ∧
          (t.pair p).rate = (s.pair p).rate ∧ (s.pair p).RecordKept (t.pair p) ∧ Beside p s t ∧
          ContextsLeft s t)) ∧
    ((s.pair p).state = .waking → (s.pair p).supervision = some (.wakeTimeout, tm) →
      ∃ t, exec (.wakeTimeout p) s = .next t ∧ t.now = max s.now (tm.start + tm.dur) ∧
        (t.pair p).Entered t.now s.cfg .down ∧ (t.pair p).WentDown ∧ (t.pair p).control = .retrain ∧
        (t.pair p).wakeErrors = min 15 ((s.pair p).wakeErrors + 1) ∧
        ((t.pair p).noQuiet = true ↔
          (s.pair p).noQuiet = true ∨ s.cfg.wakeErrorLimit ≤ min 15 ((s.pair p).wakeErrors + 1)) ∧
        (t.pair p).n.wakeError = (s.pair p).n.wakeError + 1 ∧ (t.pair p).strikes = (s.pair p).strikes ∧
        RaisedOnce .wakeError (valueArg p.val) s t ∧ Unraised .pairDown s t ∧ Withdrawn p s t ∧ Beside p s t)

/-- The idle timer of a SERVING pair expires: the idle flag is set, but for a pair whose *quiet wait* is 0, and the
pair offers quiet where the offer test passes (R172, R173). Its offer timer expires: the offer lapses with its pending
kinds, the idle and offer-spent flags stay, and the other pairs are tested in increasing number with the awake count
that the lapse has raised, each that passes beginning to offer, unless the handover of its QUIET-AGREE has begun
(R173, R176 b). That an offer-spent flag that is clear stays clear there is the model's choice (log entry 45). -/
def Obligations.IdleAndOfferExpiry : Prop :=
  ∀ (p : PairNo) (tm : Timer) (s : State), s.open → (s.pair p).state = .serving →
    ((s.pair p).idleTimer = some tm →
      ∃ t, exec (.idleTimerExpiry p) s = .next t ∧ OnlyPair p (reach tm s) t ∧
        if (s.pair p).queue = [] ∧ (s.pair p).offerSpent = false ∧ (s.pair p).offering = false ∧
            (s.pair p).noQuiet = false ∧ (s.pair p).cfg.quietWait ≠ 0 ∧
            s.cfg.minimumAwake < s.awakeCount then
          (t.pair p).steady = { (s.pair p).steady with
            idle := true, idleTimer := none, offering := true, offerSpent := true
            offerTimer := some ⟨max s.now (tm.start + tm.dur), ms (2 * s.cfg.aliveInterval)⟩ } ∧
          (t.pair p).sends .quietOffer
        else (t.pair p).steady = { (s.pair p).steady with
          idle := (s.pair p).cfg.quietWait != 0, idleTimer := none }) ∧
    ((s.pair p).offerTimer = some tm →
      ((s.pair p).agreeBegun = true →
        exec (.offerTimerExpiry p) s =
          .next (modPair p (fun u => { u with offerTimer := none }) (reach tm s.silent))) ∧
      ((s.pair p).agreeBegun = false →
        ∃ t, exec (.offerTimerExpiry p) s = .next t ∧ BesideOffers p s t ∧ ContextsLeft s t ∧
          (t.pair p).steady = { (s.pair p).steady with offering := false, offerTimer := none } ∧
          Ctl.quietOffer ∉ (t.pair p).ctl ∧ Ctl.quietAgree ∉ (t.pair p).ctl ∧
          ∀ q : PairNo, q ≠ p → (s.pair q).state = .serving →
            ((t.pair q).offering = true ↔ (s.pair q).offering = true ∨
              OffersAmong (allPairs.filter (· ≠ p))
                (allPairs.filter fun r => (s.pair r).state = .serving && (!(s.pair r).offering || r = p)).length
                s q) ∧
            ((s.pair q).offering = false → (t.pair q).offering = true → (t.pair q).sends .quietOffer ∧
              (t.pair q).offerTimer = some ⟨t.now, ms (2 * s.cfg.aliveInterval)⟩)))

/-! ## Proving -/

/-- A PROVE-REQUEST by the first case of R156 that applies, but for the crossing at a HOMESTEAD: declined with its
reason, accepted by a STANDBY, JOINING or SERVING pair that enters HALTED (R163), with PAIR-DOWN from SERVING, and
accepted again by a HALTED one. -/
def Obligations.ProveRequestAnswered : Prop :=
  ∀ (p : PairNo) (h : CtlHead) (s : State), s.open → Receives p s → h.len = 0 →
    (∀ r : DeclineReason,
      (r = .noConsent ∧ (s.pair p).cfg.echoConsent = false) ∨
        ((s.pair p).cfg.echoConsent = true ∧
          ((r = .crossedWin ∧ (s.pair p).state = .proving ∧ s.bond.role = .cabinet) ∨
            (r = .state ∧ (s.pair p).state = .waking))) →
      ∃ t, exec (.proveRequest p h) s = .next t ∧ OnlyPair p s t ∧ EngineLeft s t ∧
        (t.pair p).steady = ((Heard p 0 s).pair p).steady ∧
        ((s.pair p).state ≠ .barred → (s.pair p).state ≠ .quiet →
          (t.pair p).sends .proveDecline ∧
          (Ctl.proveDecline ∉ (s.pair p).ctl →
            (t.pair p).declineOut = some r ∨
              ((t.pair p).handover.any fun x => x.frag.payload = [reasonCode r]) = true))) ∧
    ((s.pair p).cfg.echoConsent = true →
      (s.pair p).state = .standby ∨ (s.pair p).state = .joining ∨ (s.pair p).state = .serving →
      ∃ t, exec (.proveRequest p h) s = .next t ∧ Beside p s t ∧ EngineLeft s t ∧
        (t.pair p).Entered s.now s.cfg .halted ∧ (s.pair p).RecordKept (t.pair p) ∧
        (t.pair p).rate = (s.pair p).rate ∧ (t.pair p).proveSlot = none ∧ (t.pair p).sends .proveAccept ∧
        (if (s.pair p).state = .serving then
          Withdrawn p s t ∧ RaisedOnce .pairDown (valueArg p.val) s t
        else ContextsLeft s t ∧ Unraised .pairDown s t)) ∧
    ((s.pair p).cfg.echoConsent = true → (s.pair p).state = .halted →
      ∃ t, exec (.proveRequest p h) s = .next t ∧ OnlyPair p s t ∧
        (t.pair p).steady = { ((Heard p 0 s).pair p).steady with
          haltTimer := some ⟨s.now, ms (4 * s.cfg.stepTimeout)⟩ } ∧
        (t.pair p).proveSlot = none ∧ (t.pair p).sends .proveAccept)

/-- A PROVE-ACCEPT on the pair of a REQUESTING run begins step 0 (R155 a, R158): the run is RUNNING, its answer timer
stops, and the pattern of step 0 is put on the pair; where its handover begins at once, the handover start is now and
the step timer runs. -/
def Obligations.AcceptBeginsRun : Prop :=
  ∀ (p : PairNo) (h : CtlHead) (s : State), s.taking → h.len = 0 → s.requestingOn p = true →
    ∃ t, exec (.proveAccept p h) s = .next t ∧ OnlyPair p s t ∧
      (t.pair p).steady = { ((Heard p 0 s).pair p).steady with
        record := { ((Heard p 0 s).pair p).steady.record with status := .running } } ∧
      (t.pair p).PatternPut 0 ∧
      (t.engine = some { pair := p, running := true, step := 0, outstanding := true, started := none
                         answerTimer := none, stepTimer := none } ∨
        t.engine = some { pair := p, running := true, step := 0, outstanding := true, started := some s.now
                          answerTimer := none, stepTimer := some ⟨s.now, ms s.cfg.stepTimeout⟩ })

/-- A run is aborted by any of the six causes of R165: a line-down, a write or command for its pair (R166), a RELEASED
PROVE-END (R167), a crossing request at a HOMESTEAD (R156 b), a decline and the expiry of the answer timer (R155). The
record takes the cause and keeps what the run left, PROVE-END is raised for WRITE and NO-ANSWER alone, the pair goes
where the cause sends it, PROVING-DONE is raised, and the engine becomes free and serves the waiting pairs. -/
def Obligations.RunAborted : Prop :=
  ∀ (c : Instr) (p : PairNo) (cause : AbortCause) (s : State), s.open →
    (s.pair p).state = .proving → s.runOn p = true → abortedBy s c = some (p, cause) →
    (∀ (q : ReqHead) (b : ReqBody), requestOf c = some (q, b) → Admits q b s) →
    ∃ t, exec c s = .next t ∧ (t.pair p).Entered t.now s.cfg cause.stateAfter ∧
      (t.pair p).delay = (s.pair p).delay ∧ (t.pair p).strikes = (s.pair p).strikes ∧
      (t.pair p).record.status = .aborted ∧ (t.pair p).record.abortCause = some cause ∧
      (t.pair p).record.stepsDone = (s.pair p).record.stepsDone ∧
      (t.pair p).record.failures = (s.pair p).record.failures ∧
      (t.pair p).record.firstFailure = (s.pair p).record.firstFailure ∧
      (t.pair p).record.minTrip = (s.pair p).record.minTrip ∧
      (t.pair p).record.maxTrip = (s.pair p).record.maxTrip ∧
      (t.pair p).record.resultD = (s.pair p).record.resultD ∧
      (∀ (h : CtlHead) (r : Octet), c = .proveDecline p h r → (t.pair p).record.declineReason = reasonOf r) ∧
      RaisedOnce .provingDone { hi := 2, lo := BitVec.ofNat 8 p.val } s t ∧
      ((t.pair p).state = .down → (t.pair p).WentDown) ∧
      (cause = .write ∨ cause = .noAnswer → (t.pair p).sends .proveEnd ∧
        ((t.pair p).record.endSlot = some ⟨.aborted, 0⟩ ∨
          ((t.pair p).handover.any fun x => x.frag.payload = [2, 0, 0]) = true ∨
          ((s.pair p).handover.any fun x => x.frag.kind = 12) = true)) ∧
      (cause = .crossed → (t.pair p).sends .proveAccept) ∧
      (∀ (q : ReqHead) (b : ReqBody), requestOf c = some (q, b) →
        Answers q (kindCode b) .provingAborted .empty s.cfg.stationAddress t) ∧
      EngineFreed s t ∧ WaitersLeft p s t ∧ SettingsKept s t ∧ ContextsLeft s t ∧ BondLeft s t

/-- A step's outcome that is not the run's last (R158, R159): steps done rises, a pass moves the round trips, a first
failure is recorded with the lowest offset at which a MISMATCH differs, and the next step's pattern is put on the
pair. -/
def Obligations.StepEnds : Prop :=
  ∀ (c : Instr) (p : PairNo) (r : Run) (s : State), s.open → (s.pair p).state = .proving →
    s.engine = some r → r.pair = p → r.outstanding = true → (stepOutcome s r c).isSome = true →
    (s.pair p).record.stepsDone < 15 →
    ∃ t, exec c s = .next t ∧ (t.pair p).state = .proving ∧ (s.pair p).RecordKept (t.pair p) ∧
      Beside p s t ∧ ContextsLeft s t ∧ (t.pair p).record.status = (s.pair p).record.status ∧
      (t.pair p).record.stepsDone = (s.pair p).record.stepsDone + 1 ∧
      t.engine.map (fun x => (x.pair, x.running, x.step, x.outstanding)) = some (p, true, r.step + 1, true) ∧
      (t.pair p).PatternPut (r.step + 1) ∧
      (∀ f : ProbeFields, c = .proveEcho p f → f.octets = stepPattern r.step →
        (t.pair p).record.failures = (s.pair p).record.failures ∧
        (t.pair p).record.firstFailure = (s.pair p).record.firstFailure ∧
        ∀ started : Nat, r.started = some started →
          (t.pair p).record.minTrip = some (min ((s.pair p).record.minTrip.getD (min 65535 (s.now - started)))
            (min 65535 (s.now - started))) ∧
          (t.pair p).record.maxTrip = some (max ((s.pair p).record.maxTrip.getD (min 65535 (s.now - started)))
            (min 65535 (s.now - started)))) ∧
      ((∀ f : ProbeFields, c = .proveEcho p f → f.octets ≠ stepPattern r.step) →
        (t.pair p).record.failures = (s.pair p).record.failures + 1 ∧
        (t.pair p).record.minTrip = (s.pair p).record.minTrip ∧
        (t.pair p).record.maxTrip = (s.pair p).record.maxTrip ∧
        if (s.pair p).record.failures ≠ 0 then
          (t.pair p).record.firstFailure = (s.pair p).record.firstFailure
        else ∃ e : FirstFailure, (t.pair p).record.firstFailure = some e ∧ e.step = r.step ∧
          (c = .damaged p → e.kind = .damaged ∧ e.offset = none ∧ e.expected = none ∧ e.received = none) ∧
          (c = .stepTimerExpiry →
            e.kind = .timeout ∧ e.offset = none ∧ e.expected = none ∧ e.received = none) ∧
          (∀ f : ProbeFields, c = .proveEcho p f → e.kind = .mismatch ∧
            ∃ k : Nat, e.offset = some k ∧ f.octets.take k = (stepPattern r.step).take k ∧
              e.expected = (stepPattern r.step)[k]? ∧ e.received = f.octets[k]? ∧ e.expected ≠ e.received))

/-- The sixteenth outcome ends the run (R161): the verdict is PASSED where failures is 0 and FAILED otherwise, the
resulting D is half the minimum round trip and becomes the pair's D where a step has passed, PROVE-END is raised and
survives the exit from PROVING but for an entry to BARRED, PROVING-DONE is raised, and the engine becomes free. -/
def Obligations.RunEnds : Prop :=
  ∀ (c : Instr) (p : PairNo) (r : Run) (o : StepOutcome) (s : State), s.open → (s.pair p).state = .proving →
    s.engine = some r → r.pair = p → r.outstanding = true → stepOutcome s r c = some o →
    (s.pair p).record.stepsDone = 15 →
    ∃ t, exec c s = .next t ∧ (t.pair p).record.stepsDone = 16 ∧
      (t.pair p).record.failures = ((s.pair p).record.afterStep r.step o).failures ∧
      (t.pair p).record.minTrip = ((s.pair p).record.afterStep r.step o).minTrip ∧
      (t.pair p).record.resultD = (t.pair p).record.minTrip.map (· / 2) ∧
      (t.pair p).delay = (t.pair p).record.resultD.getD (s.pair p).delay ∧
      (t.pair p).strikes = (s.pair p).strikes ∧
      (if (t.pair p).record.failures = 0 then
        (t.pair p).record.status = .passed ∧ (t.pair p).Entered t.now s.cfg .joining ∧
        (t.pair p).sends .join ∧ (t.pair p).sends .proveEnd ∧
        RaisedOnce .provingDone { hi := 0, lo := BitVec.ofNat 8 p.val } s t ∧ Unraised .pairBarred s t
      else (t.pair p).record.status = .failed ∧
        RaisedOnce .provingDone { hi := 1, lo := BitVec.ofNat 8 p.val } s t ∧
        if s.cfg.barOnFail = true then
          (t.pair p).Entered t.now s.cfg .barred ∧ (t.pair p).ctl = [] ∧ (t.pair p).record.endSlot = none ∧
          RaisedOnce .pairBarred (valueArg p.val) s t
        else (t.pair p).Entered t.now s.cfg .standby ∧ (t.pair p).sends .proveEnd ∧
          Unraised .pairBarred s t) ∧
      EngineFreed s t ∧ WaitersLeft p s t ∧ SettingsKept s t ∧ ContextsLeft s t ∧ BondLeft s t

/-- A HALTED pair echoes a PROVE-PATTERN of any step index 0-15 and any length: the echo, with the index and the
octets as received, is put in the prove slot, or is handed over at once, and the halt timer restarts (R163). -/
def Obligations.PatternEchoed : Prop :=
  ∀ (p : PairNo) (f : ProbeFields) (k : Fin 16) (s : State),
    s.taking → (s.pair p).state = .halted → f.step.toNat = k.val →
    ∃ t, exec (.provePattern p f) s = .next t ∧ OnlyPair p s t ∧
      (t.pair p).steady = { ((Heard p f.octets.length s).pair p).steady with
        haltTimer := some ⟨s.now, ms (4 * s.cfg.stepTimeout)⟩ } ∧
      ((t.pair p).proveSlot = some { echo := true, step := k, octets := f.octets } ∨
        ((t.pair p).handover.any fun x =>
          x.frag.kind = 11 && x.frag.seq = f.step && x.frag.payload = f.octets) = true)

/-- A HALTED pair leaves HALTED (R164): on a PROVE-END, whose verdict and figure are recorded, for JOINING with the
figure as its D where the verdict is PASSED, and for STANDBY otherwise; for STANDBY when its halt timer expires, and
on the RELEASE command, which raises a PROVE-END RELEASED. That a PROVE-END of verdict RELEASED ends the halt as well
is the model's choice (log entry 43). -/
def Obligations.HaltEnds : Prop :=
  ∀ (p : PairNo) (h : CtlHead) (e : EndFields) (v : Verdict) (tm : Timer) (q : ReqHead) (o : Octet) (s : State),
    s.open → (s.pair p).state = .halted → s.runOn p = false →
    (h.len = 3 → e.verdict = verdictCode v →
      ∃ t, exec (.proveEnd p h e) s = .next t ∧ Beside p s t ∧ ContextsLeft s t ∧ EngineLeft s t ∧
        (t.pair p).record.lastVerdict = some v ∧ (t.pair p).record.receivedD = some e.delay.toNat ∧
        (t.pair p).record.status = (s.pair p).record.status ∧
        (if v = .passed then (t.pair p).Entered s.now s.cfg .joining ∧ (t.pair p).sends .join ∧
          (t.pair p).delay = e.delay.toNat
        else (t.pair p).Entered s.now s.cfg .standby ∧ (t.pair p).delay = (s.pair p).delay)) ∧
    ((s.pair p).haltTimer = some tm →
      ∃ t, exec (.haltTimerExpiry p) s = .next t ∧ t.now = max s.now (tm.start + tm.dur) ∧
        (t.pair p).Entered t.now s.cfg .standby ∧ (s.pair p).RecordKept (t.pair p) ∧ Beside p s t ∧
        ContextsLeft s t ∧ EngineLeft s t) ∧
    (pairIndex o = some p → Admits q (.pairCommand o (some .release)) s →
      ∃ t, exec (.release q o) s = .next t ∧ Answers q 5 .ok .empty s.cfg.stationAddress t ∧
        (t.pair p).Entered s.now s.cfg .standby ∧ (s.pair p).RecordKept (t.pair p) ∧
        (t.pair p).sends .proveEnd ∧
        ((t.pair p).record.endSlot = some ⟨.released, 0⟩ ∨
          ((t.pair p).handover.any fun x => x.frag.payload = [3, 0, 0]) = true) ∧
        Beside p s t ∧ ContextsLeft s t ∧ EngineLeft s t)

/-! ## Line reports and timers -/

/-- A line-up report in DOWN (R8 a, R69 a): the line flag, the trained rate and R are set, and the pair enters JOINING
with *auto-prove* off, PROVING with a run where the engine is free, and STANDBY with the prove-wanted flag where it is
not. -/
def Obligations.LineUpFromDown : Prop :=
  ∀ (p : PairNo) (rate : Nat) (s : State), s.open → (s.pair p).state = .down →
    ∃ t, exec (.lineUp p rate) s = .next t ∧ Beside p s t ∧ ContextsLeft s t ∧
      (t.pair p).line = true ∧ (t.pair p).trained = rate ∧
      (t.pair p).rate = clampTo 16 16383 (rate / 8) ∧ (t.pair p).delay = (s.pair p).delay ∧
      (t.pair p).strikes = (s.pair p).strikes ∧ (t.pair p).n.lineUp = (s.pair p).n.lineUp + 1 ∧
      (if s.cfg.autoProve = false then
        (t.pair p).Entered s.now s.cfg .joining ∧ (t.pair p).sends .join ∧ EngineLeft s t
      else if s.engine = none then (t.pair p).Entered s.now s.cfg .proving ∧ RunStarted p s t
      else (t.pair p).Entered s.now s.cfg .standby ∧ (t.pair p).proveWanted = true ∧ EngineLeft s t)

/-- A line-up report in STANDBY, PROVING, HALTED, JOINING, SERVING, WAKING and BARRED is a retrain: R is set from the
new rate and the state does not change (R8 b, R69 b); SERVING restarts its gate window at 0 (R70 a) and WAKING raises
ALIVE (R179). In ABSENT it is counted and discarded (R8 d; log entry 12). -/
def Obligations.LineUpRetrains : Prop :=
  ∀ (p : PairNo) (rate : Nat) (s : State), s.taking →
    ((s.pair p).state = .absent →
      exec (.lineUp p rate) s = .next (countPair p (fun n => { n with lineUp := n.lineUp + 1 }) s.silent)) ∧
    ((s.pair p).state ≠ .absent → (s.pair p).state ≠ .down → (s.pair p).state ≠ .quiet →
      ∃ t, exec (.lineUp p rate) s = .next t ∧ OnlyPair p s t ∧ EngineLeft s t ∧
        ((s.pair p).state = .waking → (t.pair p).sends .alive) ∧
        (if (s.pair p).state = .serving then
          (t.pair p).steady = { (s.pair p).steady with
            line := true, trained := rate, rate := clampTo 16 16383 (rate / 8)
            window := (windowLength s.cfg.gateWindow).map fun n => ⟨s.now, ms n⟩
            windowCount := 0
            busy := s.cfg.gateWindow != .trained && !(s.pair p).queue.isEmpty
            n := { (s.pair p).n with lineUp := (s.pair p).n.lineUp + 1 } }
        else (t.pair p).steady = { (s.pair p).steady with
            line := true, trained := rate, rate := clampTo 16 16383 (rate / 8)
            n := { (s.pair p).n with lineUp := (s.pair p).n.lineUp + 1 } }))

/-- A line-down report (R9): the pair enters DOWN from SERVING and WAKING by withdrawal, and from STANDBY, JOINING and
HALTED; PAIR-DOWN is raised from SERVING alone; in BARRED the line flag alone falls, with a handover that was in
progress cut off (R4); in DOWN it is counted; in ABSENT and QUIET it is discarded. That the handover cut off in BARRED
is not counted CUT-OFF is the model's choice (log entry 10). -/
def Obligations.LineDownTaken : Prop :=
  ∀ (p : PairNo) (s : State), s.open →
    ((s.pair p).state = .serving ∨ (s.pair p).state = .waking ∨ (s.pair p).state = .standby ∨
      (s.pair p).state = .joining ∨ (s.pair p).state = .halted →
      ∃ t, exec (.lineDown p) s = .next t ∧ Beside p s t ∧ EngineLeft s t ∧
        (t.pair p).Entered s.now s.cfg .down ∧ (t.pair p).WentDown ∧ (s.pair p).RecordKept (t.pair p) ∧
        (t.pair p).n.lineDown = (s.pair p).n.lineDown + 1 ∧
        (if (s.pair p).state = .serving then RaisedOnce .pairDown (valueArg p.val) s t
          else Unraised .pairDown s t) ∧
        (if (s.pair p).state = .serving ∨ (s.pair p).state = .waking then Withdrawn p s t
          else ContextsLeft s t)) ∧
    ((s.pair p).state = .barred →
      ∃ t, exec (.lineDown p) s = .next t ∧ OnlyPair p s t ∧ (t.pair p).handover = none ∧
        (t.pair p).steady = { (s.pair p).steady with
          line := false, n := { (s.pair p).n with lineDown := (s.pair p).n.lineDown + 1 } }) ∧
    ((s.pair p).state = .down →
      exec (.lineDown p) s = .next (countPair p (fun n => { n with lineDown := n.lineDown + 1 }) s.silent)) ∧
    ((s.pair p).state = .absent ∨ (s.pair p).state = .quiet → exec (.lineDown p) s = .next s.silent)

/-- The heard timer of a SERVING pair expires (R11): withdrawal, DOWN, and the transceiver is told *retrain*; the
expiry is counted and PAIR-DOWN is raised. -/
def Obligations.SupervisionFails : Prop :=
  ∀ (p : PairNo) (tm : Timer) (s : State),
    s.open → (s.pair p).state = .serving → (s.pair p).supervision = some (.heard, tm) →
    ∃ t, exec (.supervisionExpiry p) s = .next t ∧ t.now = max s.now (tm.start + tm.dur) ∧
      (t.pair p).Entered t.now s.cfg .down ∧ (t.pair p).WentDown ∧ (t.pair p).control = .retrain ∧
      (s.pair p).RecordKept (t.pair p) ∧
      (t.pair p).n.supervisionExpiry = (s.pair p).n.supervisionExpiry + 1 ∧
      RaisedOnce .pairDown (valueArg p.val) s t ∧ Withdrawn p s t ∧ Beside p s t ∧ EngineLeft s t

/-- The entries of a withdrawn SERVING pair that are not being handed over (R12 b, R104): with no other pair SERVING
each is discarded and counted MOVED-DISCARD; with one other pair SERVING that has room and lies in every entry's
allowed-pairs set, all of them are appended to its queue in queue order and counted MOVED in their classes. -/
def Obligations.WithdrawalMovesQueue : Prop :=
  ∀ (p q : PairNo) (es : List Desc) (s : State), s.open → (s.pair p).state = .serving → q ≠ p →
    es = (s.pair p).queue.drop (if ((s.pair p).handover.any fun h => h.frag.kind = 0) = true then 1 else 0) →
    (∀ r : PairNo, r ≠ p → r ≠ q → (s.pair r).state ≠ .serving) →
    ((s.pair q).state ≠ .serving →
      ∃ t, exec (.lineDown p) s = .next t ∧
        (t.pair p).n.movedDiscard = (s.pair p).n.movedDiscard + BitVec.ofNat 32 es.length ∧
        (∀ c : ClassNo, (t.cls c).n.moved = (s.cls c).n.moved)) ∧
    ((s.pair q).state = .serving → (s.pair q).offering = false → (∀ e ∈ es, e.allowed.holds q = true) →
      (s.pair q).queue.length + es.length ≤ 32 →
      ∃ t, exec (.lineDown p) s = .next t ∧ (s.pair q).queue ++ es <+: (t.pair q).queue ∧
        (t.pair p).n.movedDiscard = (s.pair p).n.movedDiscard ∧
        (∀ c : ClassNo, (t.cls c).n.moved =
          (s.cls c).n.moved + BitVec.ofNat 32 (es.filter fun e => e.cls = c).length))

/-- The expiries that act on one timer alone: an error period ends and the next starts (R14), the settle timer clears
the strikes (R16), the ask timer ends ASKING (R43), and the alive timer starts again and raises JOIN in JOINING and
ALIVE in SERVING (R32). -/
def Obligations.PeriodicTimers : Prop :=
  ∀ (p : PairNo) (tm : Timer) (s : State), s.taking →
    ((s.pair p).errTimer = some tm →
      exec (.errorPeriodEnd p) s = .next (modPair p (fun u => { u with
        errCount := 0
        errTimer := some ⟨max s.now (tm.start + tm.dur), ms u.cfg.errorPeriod⟩ }) (reach tm s.silent))) ∧
    ((s.pair p).settleTimer = some tm →
      exec (.settleTimerExpiry p) s = .next (modPair p (fun u => { u with
        strikes := 0, settleTimer := none }) (reach tm s.silent))) ∧
    (s.bond.askTimer = some tm →
      exec .askTimerExpiry s = .next { reach tm s.silent with
        bond := { s.bond with asking := false, askTimer := none } }) ∧
    ((s.pair p).aliveTimer = some tm → (s.pair p).state = .joining ∨ (s.pair p).state = .serving →
      ∃ t, exec (.aliveTimerExpiry p) s = .next t ∧ OnlyPair p (reach tm s) t ∧
        (t.pair p).steady = { (s.pair p).steady with
          aliveTimer := some ⟨max s.now (tm.start + tm.dur), ms s.cfg.aliveInterval⟩ } ∧
        (t.pair p).sends (if (s.pair p).state = .joining then .join else .alive))

/-- A gate window ends (R70 b, R73): a saturated one takes the sample and moves R a quarter of the way toward it,
truncated toward zero and clamped, counted RATE-SAMPLE; any other holds R, counted RATE-HOLD; and the next window
starts at once. -/
def Obligations.GateWindowSamples : Prop :=
  ∀ (p : PairNo) (start len : Nat) (s : State), s.taking → (s.pair p).window = some ⟨start, ms len⟩ →
    len = 2 ∨ len = 8 ∨ len = 16 →
    ∃ t, exec (.gateWindowEnd p) s = .next t ∧ OnlyPair p (reach ⟨start, ms len⟩ s) t ∧
      (∃ (rate : Nat) (n : PairCounters), (t.pair p) = { s.pair p with
          rate := rate, n := n
          window := (windowLength s.cfg.gateWindow).map fun l => ⟨t.now, ms l⟩
          windowCount := 0
          busy := s.cfg.gateWindow != .trained && !(s.pair p).queue.isEmpty } ∧
        if (s.pair p).busy = true then
          (rate : Int) = max 16 (min 16383 (((s.pair p).rate : Int) +
            Int.tdiv ((min 16383 ((s.pair p).windowCount / len) : Nat) - ((s.pair p).rate : Int)) 4)) ∧
          n = { (s.pair p).n with rateSample := (s.pair p).n.rateSample + 1 }
        else rate = (s.pair p).rate ∧ n = { (s.pair p).n with rateHold := (s.pair p).n.rateHold + 1 })

/-- The hold timer of a class expires (R124, R126): next is declared lost, counted HOLD-LOSS and GAP-LOST, GAP-LOSS is
raised and the carried flag is set; no horizon changes and no other class. Where the horizon rule is blocked and the
sequence after next is not held, next advances by one, the reassembly context takes the loss marker (R138), and the
hold timer follows the gap (R123). -/
def Obligations.HoldTimerDeclares : Prop :=
  ∀ (c : ClassNo) (tm : Timer) (s : State), s.open → (s.cls c).hold = some tm →
    ∃ t, exec (.holdTimerExpiry c) s = .next t ∧ t.now = max s.now (tm.start + tm.dur) ∧
      (t.cls c).n.holdLoss = (s.cls c).n.holdLoss + 1 ∧ t.bond.carried = true ∧ Raised .gapLoss t ∧
      (∀ q : PairNo, t.horizon c q = s.horizon c q) ∧
      (∀ d : ClassNo, d ≠ c → (t.cls d).context = (s.cls d).context) ∧ SettingsKept s t ∧ BondLeft s t ∧
      EngineLeft s t ∧ AllLeft s t ∧
      ((∀ q : PairNo, (s.pair q).inHorizonSet = false) ∨
        (∃ q : PairNo, (s.pair q).inHorizonSet = true ∧ s.horizon c q = none) →
        (s.cls c).next + 1 ∉ (s.cls c).held.map (·.seq) →
        (t.cls c).next = (s.cls c).next + 1 ∧ (t.cls c).held = (s.cls c).held ∧
        (t.cls c).n.gapLost = (s.cls c).n.gapLost + 1 ∧ (t.cls c).reasm = .discarding ∧
        (t.cls c).n.lostFrame = (s.cls c).n.lostFrame +
          (match (s.cls c).reasm with | .building _ => 1 | _ => 0) ∧
        (t.cls c).hold = (if (s.cls c).held = [] then none else some ⟨t.now, ms (s.cls c).cfg.holdTime⟩))

/-! ## The trunk -/

/-- What the trunk port takes no further (R142, R143): a frame above 1600 octets is counted OVERSIZE-IN, and a frame
for management too short for the fixed part MALFORMED-DROP, after TRUNK-IN and TRUNK-OCTET-IN; a request for this
part, NEAR or FAR, is counted MGMT-IN and waits for the agent behind those that reached it before (R144). Nothing else
changes. -/
def Obligations.TrunkFramesDropped : Prop :=
  ∀ (f : Frame) (s : State), s.taking → f ≠ [] →
    (1600 < f.length →
      exec (.trunkFrameIn f) s = .next { s.silent with trunk := { s.trunk with n := { s.trunk.n with
        trunkIn := s.trunk.n.trunkIn + 1
        trunkOctetIn := s.trunk.n.trunkOctetIn + BitVec.ofNat 32 f.length
        oversizeIn := s.trunk.n.oversizeIn + 1 } } }) ∧
    (f.length ≤ 1600 → mgmtTyped f = true →
      destinationOf f = s.cfg.stationAddress ∨ destinationOf f = 0x0B4E4B000001 →
      (f.length < 22 →
        exec (.trunkFrameIn f) s = .next { s.silent with trunk := { s.trunk with n := { s.trunk.n with
          trunkIn := s.trunk.n.trunkIn + 1
          trunkOctetIn := s.trunk.n.trunkOctetIn + BitVec.ofNat 32 f.length
          malformedDrop := s.trunk.n.malformedDrop + 1 } } }) ∧
      (22 ≤ f.length → replyFlag f = false →
        exec (.trunkFrameIn f) s = .next { s.silent with
          agent := { s.agent with requests := s.agent.requests ++ [.framed .trunk f] }
          trunk := { s.trunk with n := { s.trunk.n with
            trunkIn := s.trunk.n.trunkIn + 1
            trunkOctetIn := s.trunk.n.trunkOctetIn + BitVec.ofNat 32 f.length
            mgmtIn := s.trunk.n.mgmtIn + 1 } } }))

/-- A frame of at most 1600 octets that is no request for this part is classified (R53-R57): the winner is counted, or
NO-WINNER, and gives the class, the urgency by its urgency mode, and the final pair map by its map mode from the
class's default map; a frame without a winner is of class 2 with its own urgency and the default map. The frame is
then offered to that class (R86 a): it is inserted behind every frame of its urgency or higher, in the place of the
displaced tail where the class or the buffer is full, or dropped (R87, R88), and selections follow. An entry of class
3 stands in no table that the commits keep (R61 d; log entry 35), so its class is left out here. -/
def Obligations.FrameAdmitted : Prop :=
  ∀ (f : Frame) (s : State), s.open → f ≠ [] → f.length ≤ 1600 →
    s.notices.path = .trunk ∨ s.notices.destination = none →
    let mine := mgmtTyped f = true ∧
      (destinationOf f = s.cfg.stationAddress ∨ destinationOf f = 0x0B4E4B000001)
    (¬ mine ∨ (22 ≤ f.length ∧ replyFlag f = true) →
      ∃ (t u : State) (c : ClassNo) (urgency : Nat) (m : PairMap), exec (.trunkFrameIn f) s = .next t ∧
        t = settle u ∧ u.agent = s.agent ∧ AdmissionTaken c urgency s t ∧
        (QueuesByUrgency s → OfferDecided c {
          octets := f, urgency := urgency, map := m, order := 0, resetReply := false } s u) ∧
        t.trunk.n.trunkIn = s.trunk.n.trunkIn + 1 ∧
        t.trunk.n.classified = s.trunk.n.classified + 1 ∧ t.trunk.n.mgmtIn = s.trunk.n.mgmtIn ∧
        AllLeft s t ∧ SettingsKept s t ∧ ContextsLeft s t ∧ BondLeft s t ∧ EngineLeft s t ∧
        t.agent = s.agent ∧
        (match winner s.classifier.table (readFields f) with
          | none => t.trunk.n.noWinner = s.trunk.n.noWinner + 1 ∧ t.classifier = s.classifier ∧
              c = 2 ∧ urgency = (readFields f).urgency ∧ m = (s.cls 2).cfg.defaultMap
          | some i =>
              let e := s.classifier.table.get i
              t.trunk.n.noWinner = s.trunk.n.noWinner ∧ (e.f.cls < 3 → c.val = e.f.cls) ∧
              urgency = (match e.f.urgencyMode with
                | .keep => (readFields f).urgency
                | .raise => max e.f.urgencyValue (readFields f).urgency
                | .lower => min e.f.urgencyValue (readFields f).urgency
                | .set => e.f.urgencyValue) ∧
              (∀ p : PairNo, m.holds p =
                (match e.f.mapMode with
                  | .keep => (s.cls c).cfg.defaultMap.holds p
                  | .union => e.f.pairMap.holds p || (s.cls c).cfg.defaultMap.holds p
                  | .intersect => e.f.pairMap.holds p && (s.cls c).cfg.defaultMap.holds p
                  | .replace => e.f.pairMap.holds p)) ∧
              (∀ j : Fin 32, j ≠ i → t.classifier.table.get j = s.classifier.table.get j) ∧
              (if 0 < e.f.threshold ∧ e.f.threshold ≤ e.matched + 1 then
                t.classifier.table.get i = { e with matched := 0 } ∧
                  RaisedOnce .tableMatch (valueArg i.val) s t
              else t.classifier.table.get i = { e with
                  matched := if e.f.threshold = 0 then min 65535 (e.matched + 1) else e.matched + 1 } ∧
                Unraised .tableMatch s t)))

/-- The trunk port's sends (R148): a send begins when the queue is not empty, none is in progress and the interface is
ready; its entry leaves the queue when it completes, counted TRUNK-OUT and TRUNK-OCTET-OUT, and the next begins at
once when the conditions hold. A completion without a send has no effect (log entry 13). -/
def Obligations.TrunkSends : Prop :=
  ∀ (ready : Bool) (s : State), s.open →
    (s.trunk.sending = true ∨ s.trunk.egress = [] →
      exec .trunkReady s = .next { s.silent with trunk := { s.trunk with ready := true } }) ∧
    (∀ (e : EgressEntry) (es : List EgressEntry), s.trunk.egress = e :: es →
      (s.trunk.sending = false →
        exec .trunkReady s = .next { s with
          trunk := { s.trunk with ready := true, sending := true }, out := [.trunkSend e.frame] }) ∧
      (s.trunk.sending = true →
        exec (.trunkSendComplete ready) s = .next { s with
          trunk := {
            egress := es, sending := ready && !es.isEmpty, ready := ready
            n := { s.trunk.n with
              trunkOut := s.trunk.n.trunkOut + 1
              trunkOctetOut := s.trunk.n.trunkOctetOut + BitVec.ofNat 32 e.frame.length } }
          out := if ready = true then (es.head?.map fun x => Output.trunkSend x.frame).toList else [] })) ∧
    (s.trunk.sending = false → exec (.trunkSendComplete ready) s = .next s.silent)

/-! ## Requests -/

/-- A read is answered OK with its report, whatever the access settings, and changes nothing (R65, R189-R191, R200);
READ-COUNTERS with clear-after-read has its own statement. The reply is the only thing it leaves. That the TRUNK
report counts its own request as served, and how the time left on a hold timer is rounded to milliseconds, is the
model's choice (log entries 20 and 25). -/
def Obligations.ReadsAnswered : Prop :=
  ∀ (c : Instr) (q : ReqHead) (b : ReqBody) (r : ReplyBody) (s : State), s.open →
    requestOf c = some (q, b) → s.agent.requests = [] → headerFails q b = none → changesState b = false →
    reportOf s b = some r →
    ∃ t, exec c s = .next t ∧ Answers q (kindCode b) .ok r s.cfg.stationAddress t ∧ OnlyReply q s t

/-- A request that fails a header test, a form test, the access test or the index test is answered with the status of
the first that fails, and changes nothing (R184, R187, R188 a and b); an unknown settings or counter group, and an
unknown action on a pair without a run, which no command row names and a request that waits may hold, are refused
BAD-VALUE, which names the field (R185, R188 b and d). -/
def Obligations.RequestsRefused : Prop :=
  ∀ (c : Instr) (q : ReqHead) (b : ReqBody) (s : State),
    s.open → requestOf c = some (q, b) → s.agent.requests = [] →
    ((q.version ≠ 1 ∨ q.present < q.bodyLen) →
      ∃ t, exec c s = .next t ∧ Answers q (kindCode b) .malformed .empty s.cfg.stationAddress t ∧
        OnlyReply q s t) ∧
    (q.version = 1 → q.bodyLen ≤ q.present →
      (∀ k : Octet, b = .raw k → k.toNat = 0 ∨ 16 < k.toNat →
        ∃ t, exec c s = .next t ∧ Answers q k .badKind .empty s.cfg.stationAddress t ∧ OnlyReply q s t) ∧
      ((∃ k : Octet, b = .raw k ∧ 1 ≤ k.toNat ∧ k.toNat ≤ 16) ∨
          ((∀ k : Octet, b ≠ .raw k) ∧ (q.formed = false ∨
            (∃ xs : List StageItem, b = .tableStage xs ∧ (xs = [] ∨ 25 < xs.length)) ∨
            (∃ w : SettingsWrite, b = .writeSettings w ∧ 40 < itemCount w))) →
        ∃ t, exec c s = .next t ∧ Answers q (kindCode b) .malformed .empty s.cfg.stationAddress t ∧
          OnlyReply q s t)) ∧
    (headerFails q b = none → changesState b = true →
      (s.bond.role = .homestead ∧ q.path = .trunk ∧ s.cfg.trunkWrites = false) ∨
        (s.bond.role = .cabinet ∧ q.path = .bond ∧ s.cfg.bondWrites = false) →
      ∃ t, exec c s = .next t ∧ Answers q (kindCode b) .notPermitted .empty s.cfg.stationAddress t ∧
        OnlyReply q s t) ∧
    (Admits q b s →
      (∃ (o : Octet), 8 ≤ o.toNat ∧ (b = .readPair o ∨ b = .readSettings (.pair o) ∨
          (∃ a, b = .pairCommand o a) ∨ (∃ xs, b = .writeSettings (.pair o xs)) ∨
          (∃ clear, b = .readCounters (.pair o) clear))) ∨
        (∃ (o : Octet), 3 ≤ o.toNat ∧ (b = .readSettings (.cls o) ∨
          (∃ xs, b = .writeSettings (.cls o xs)) ∨ (∃ clear, b = .readCounters (.cls o) clear))) ∨
        (∃ (o : Octet), 32 ≤ o.toNat ∧ (b = .tableCommit o ∨ b = .tableFetch o ∨ b = .tableClear o)) →
      ∃ t, exec c s = .next t ∧ Answers q (kindCode b) .badIndex .empty s.cfg.stationAddress t ∧
        OnlyReply q s t) ∧
    (Admits q b s →
      (∃ g, b = .readSettings (.unknown g)) ∨ (∃ g, b = .writeSettings (.unknown g)) ∨
        (∃ g clear, b = .readCounters (.unknown g) clear) →
      ∃ t, exec c s = .next t ∧
        Answers q (kindCode b) .badValue (.refused .group) s.cfg.stationAddress t ∧ OnlyReply q s t) ∧
    (∀ (r : Request) (o : Octet) (p : PairNo), s.pending = [] → readRequest r = (q, .pairCommand o none) →
      (∀ f : Frame, r = .framed .trunk f → targetFar f = false) → Admits q (.pairCommand o none) s →
      pairIndex o = some p → s.runOn p = false →
      ∃ t, step { s with agent := { s.agent with requests := [r] } } = .next t ∧
        Answers q 5 .badValue (.refused .action) s.cfg.stationAddress t ∧ OnlyReply q s t)

/-- The pair commands ADMIT, WITHDRAW, BAR and PROVE (R20-R22, R151 c, R191 a), and every refusal BUSY, in a state
that R20 does not list and of a PROVE for the pair of the run (R20 c, R166 c). -/
def Obligations.PairCommandsServed : Prop :=
  ∀ (c : Instr) (q : ReqHead) (o : Octet) (a : PairAction) (p : PairNo) (s : State), s.open →
    requestOf c = some (q, .pairCommand o (some a)) → Admits q (.pairCommand o (some a)) s →
    pairIndex o = some p →
    ((s.runOn p = true ∧ a = .prove) ∨
        (s.runOn p = false ∧ actionAccepted a (s.pair p).state s.engine.isNone = false) →
      ∃ t, exec c s = .next t ∧ Answers q 5 .busy .empty s.cfg.stationAddress t ∧ OnlyReply q s t) ∧
    (s.runOn p = false → actionAccepted a (s.pair p).state s.engine.isNone = true →
      ∃ t, exec c s = .next t ∧ Answers q 5 .ok .empty s.cfg.stationAddress t ∧ SettingsKept s t ∧
        BondLeft s t ∧ t.classifier = s.classifier ∧
        (a = .admitPair → Beside p s t ∧ ContextsLeft s t ∧ EngineLeft s t ∧
          (t.pair p).Entered s.now s.cfg .joining ∧ (s.pair p).RecordKept (t.pair p) ∧
          (t.pair p).rate = (s.pair p).rate ∧ (t.pair p).sends .join) ∧
        (a = .withdraw → Beside p s t ∧ EngineLeft s t ∧ (t.pair p).Entered s.now s.cfg .standby ∧
          (s.pair p).RecordKept (t.pair p) ∧ (t.pair p).rate = (s.pair p).rate ∧ Unraised .pairDown s t ∧
          Ctl.join ∉ (t.pair p).ctl ∧
          (t.pair p).control = (if (s.pair p).state = .quiet then .wake else (s.pair p).control) ∧
          (if (s.pair p).state = .serving ∨ (s.pair p).state = .waking then Withdrawn p s t
            else ContextsLeft s t)) ∧
        (a = .bar → (s.pair p).state = .barred → AllLeft s t ∧ ContextsLeft s t ∧ EngineLeft s t ∧
          Unraised .pairBarred s t ∧ Unraised .pairDown s t) ∧
        (a = .bar → (s.pair p).state ≠ .barred → Beside p s t ∧ EngineLeft s t ∧
          (t.pair p).Entered s.now s.cfg .barred ∧ (s.pair p).RecordKept (t.pair p) ∧ (t.pair p).ctl = [] ∧
          RaisedOnce .pairBarred (valueArg p.val) s t ∧ Unraised .pairDown s t ∧
          (t.pair p).rate = (if (s.pair p).state = .down then clampTo 16 16383 ((s.pair p).trained / 8)
            else (s.pair p).rate) ∧
          (t.pair p).control = (if (s.pair p).state = .quiet then .wake else (s.pair p).control) ∧
          (if (s.pair p).state = .serving ∨ (s.pair p).state = .waking then Withdrawn p s t
            else ContextsLeft s t)) ∧
        (a = .prove → Beside p s t ∧ (t.pair p).Entered s.now s.cfg .proving ∧ RunStarted p s t ∧
          (s.pair p).RecordKept (t.pair p) ∧ (t.pair p).rate = (s.pair p).rate ∧ Unraised .pairDown s t ∧
          (if (s.pair p).state = .serving then Withdrawn p s t else ContextsLeft s t)))

/-- CLEAR takes a BARRED pair to STANDBY or DOWN by its line flag, with its strikes, wake errors, no-quiet flag and
prove-wanted flag clear (R22); RESET takes a pair to DOWN with its record at the pair RESET values, its horizons NONE
and its settings kept, and keeps every counter of the pair but for what the withdrawal of a SERVING or WAKING pair
counts (R6, R12, R19, R23). That a handover cut off by RESET in another state is not counted CUT-OFF is the model's
choice (log entry 10). -/
def Obligations.PairsCleared : Prop :=
  ∀ (q : ReqHead) (o : Octet) (p : PairNo) (s : State), s.open → pairIndex o = some p → s.runOn p = false →
    (Admits q (.pairCommand o (some .clear)) s → (s.pair p).state = .barred →
      ∃ t, exec (.clear q o) s = .next t ∧ Answers q 5 .ok .empty s.cfg.stationAddress t ∧
        BesideOffers p s t ∧ EngineLeft s t ∧ ContextsLeft s t ∧
        (t.pair p).Entered s.now s.cfg (if (s.pair p).line = true then .standby else .down) ∧
        (t.pair p).strikes = 0 ∧ (t.pair p).wakeErrors = 0 ∧ (t.pair p).noQuiet = false ∧
        (t.pair p).proveWanted = false ∧ (t.pair p).n = (s.pair p).n ∧
        (t.pair p).delay = (s.pair p).delay ∧ (t.pair p).trained = (s.pair p).trained ∧
        (t.pair p).rate = (if (s.pair p).line = true then (s.pair p).rate else 0)) ∧
    (Admits q (.pairCommand o (some .reset)) s → (s.pair p).state ≠ .absent →
      ∃ t, exec (.reset q o) s = .next t ∧ Answers q 5 .ok .empty s.cfg.stationAddress t ∧
        BesideOffers p s t ∧ EngineLeft s t ∧ (t.pair p).Entered s.now s.cfg .down ∧ (t.pair p).WentDown ∧
        (t.pair p).trained = (s.pair p).trained ∧ (t.pair p).delay = 0 ∧ (t.pair p).farPair = none ∧
        (t.pair p).farRole = none ∧ (t.pair p).strikes = 0 ∧ (t.pair p).wakeErrors = 0 ∧
        (t.pair p).noQuiet = false ∧ (t.pair p).quietEntry = 0 ∧ (t.pair p).record = {} ∧
        (t.pair p).control = (if (s.pair p).state = .quiet then .wake else .retrain) ∧
        (∃ discarded : Count, (t.pair p).n = { (s.pair p).n with
            cutOff := (s.pair p).n.cutOff + (if ((s.pair p).state = .serving ∨ (s.pair p).state = .waking) ∧
              (s.pair p).handover.isSome = true then 1 else 0)
            movedDiscard := (s.pair p).n.movedDiscard + discarded } ∧
          discarded.toNat ≤ (s.pair p).queue.length ∧
          ((s.pair p).state ≠ .serving → (s.pair p).state ≠ .waking → discarded = 0)) ∧
        (∀ c : ClassNo, t.horizon c p = none) ∧ Unraised .pairDown s t)

/-- A WRITE-SETTINGS of the BOND, CLASS or NOTICE group (R188, R189): where every item is accepted, all are applied,
the later of two of one name standing, and the reply is OK, or CLAMPED with the names of the clamped fields; where an
item is refused, the first such gives the status and the name and none is applied. No other setting changes. The
values that each field takes, clamps and refuses are those of the table in section 10.5, and for *quota* those of
R110. That a quota refused BUSY is answered with its name, and that a field clamped twice in a list is named twice, is
the model's choice (log entries 19 and 46). -/
def Obligations.SettingsWritten : Prop :=
  ∀ (c : Instr) (q : ReqHead) (s : State), s.open →
    (∀ xs : List BondItem, requestOf c = some (q, .writeSettings (.bond xs)) →
      Admits q (.writeSettings (.bond xs)) s →
      ((∀ x ∈ xs, (checkBond x).value.isSome = true) →
        ∃ t, exec c s = .next t ∧ t.cfg = (xs.filterMap fun x => (checkBond x).value).foldl writeBond s.cfg ∧
          Answers q 3 (writeReply checkBond (fun x => .bond (bondName x)) xs).1
            (writeReply checkBond (fun x => .bond (bondName x)) xs).2 t.cfg.stationAddress t ∧
          SettingsKept { s with cfg := t.cfg } t ∧ ContextsLeft s t) ∧
      (∀ (pre post : List BondItem) (x : BondItem) (st : Status), xs = pre ++ x :: post →
        (∀ y ∈ pre, (checkBond y).value.isSome = true) → checkBond x = .refuse st →
        ∃ t, exec c s = .next t ∧
          Answers q 3 st (.refused (.setting (.bond (bondName x)))) s.cfg.stationAddress t ∧
          OnlyReply q s t)) ∧
    (∀ (o : Octet) (k : ClassNo) (xs : List ClassItem), requestOf c = some (q, .writeSettings (.cls o xs)) →
      Admits q (.writeSettings (.cls o xs)) s → classIndex o = some k →
      ((∀ x ∈ xs, (checkClass s k x).value.isSome = true) →
        ∃ t, exec c s = .next t ∧
          (t.cls k).cfg = (xs.filterMap fun x => (checkClass s k x).value).foldl writeClass (s.cls k).cfg ∧
          Answers q 3 (writeReply (checkClass s k) (fun x => .cls (className x)) xs).1
            (writeReply (checkClass s k) (fun x => .cls (className x)) xs).2 s.cfg.stationAddress t ∧
          SettingsKept (modClass k (fun u => { u with cfg := (t.cls k).cfg }) s) t ∧ ContextsLeft s t ∧
          AllLeft s t) ∧
      (∀ (pre post : List ClassItem) (x : ClassItem) (st : Status), xs = pre ++ x :: post →
        (∀ y ∈ pre, (checkClass s k y).value.isSome = true) → checkClass s k x = .refuse st →
        ∃ t, exec c s = .next t ∧
          Answers q 3 st (.refused (.setting (.cls (className x)))) s.cfg.stationAddress t ∧
          OnlyReply q s t)) ∧
    (∀ xs : List NoticeItem, c = .writeSettings q (.notice xs) → Admits q (.writeSettings (.notice xs)) s →
      ((∀ x ∈ xs, (checkNotice x).value.isSome = true) →
        ∃ t, exec c s = .next t ∧
          Answers q 3 .ok (.clampedNames []) s.cfg.stationAddress t ∧
          t.notices.destination = xs.foldl (fun d x => match x with | .destination a => a | _ => d)
            s.notices.destination ∧
          t.notices.path = xs.foldl (fun d x => match x with | .path v => v.getD d | _ => d) s.notices.path ∧
          (∀ src : Source,
            (t.source src).enable = xs.foldl (fun d x => match x with
              | .enable src' v => if src' = src then v.getD d else d | _ => d) (s.source src).enable ∧
            (t.source src).level = xs.foldl (fun d x => match x with
              | .level src' v => if src' = src then v.getD d else d | _ => d) (s.source src).level) ∧
          t.notices.record = s.notices.record ∧ SettingsKept { s with notices := t.notices } t ∧
          ContextsLeft s t ∧ AllLeft s t) ∧
      (∀ (pre post : List NoticeItem) (x : NoticeItem) (st : Status), xs = pre ++ x :: post →
        (∀ y ∈ pre, (checkNotice y).value.isSome = true) → checkNotice x = .refuse st →
        ∃ t, exec c s = .next t ∧
          Answers q 3 st (.refused (.setting (.notice (noticeName x)))) s.cfg.stationAddress t ∧
          OnlyReply q s t)) ∧
    (Clamps checkBond .aliveInterval 1 100 ∧ Clamps checkBond .supervisionMultiple 2 16 ∧
      Enumerated checkBond .autoProve ∧ Enumerated checkBond .barOnFail ∧ Enumerated checkBond .gateWindow ∧
      (∀ n : Nat, checkBond (.classOrderCode n) =
        if n = 0 ∨ 6 < n then .refuse .badValue else .accept (.classOrderCode n) false) ∧
      Clamps checkBond .wakeThreshold 64 65535 ∧ Clamps checkBond .stepTimeout 10 500 ∧
      Clamps checkBond .quietProbe 1 3600 ∧ Clamps checkBond .wakeLimit 10 2000 ∧
      Clamps checkBond .wakeErrorLimit 1 15 ∧ Clamps checkBond .minimumAwake 1 8 ∧
      (∀ a : Addr, checkBond (.stationAddress a) =
        if a.getLsbD 40 = true then .refuse .badValue else .accept (.stationAddress a) false) ∧
      Enumerated checkBond .trunkWrites ∧ Enumerated checkBond .bondWrites) ∧
    (∀ k : ClassNo, Clamps (checkClass s k) .classLimit 1 128 ∧ Clamps (checkClass s k) .holdTime 1 1000 ∧
      Enumerated (checkClass s k) .spill ∧
      (∀ n : Nat, checkClass s k (.fragmentSize n) =
        let v := if n < 64 then 64 else if 512 < n then 512 else n - n % 32
        .accept (.fragmentSize v) (decide (v ≠ n))) ∧
      (∀ ps : List Nat, checkClass s k (.defaultMap ps) =
        if ∃ p ∈ ps, 7 < p then .refuse .badValue else .accept (.defaultMap ps) false) ∧
      (∀ n : Nat, checkClass s k (.quota n) =
        let v := if n < 16 then 16 else if 752 < n then 752 else n
        let others := (s.cls 0).cfg.quota + (s.cls 1).cfg.quota + (s.cls 2).cfg.quota - (s.cls k).cfg.quota
        if (s.cls k).cfg.quota < v ∧ 768 < v + others then .refuse .badValue
        else if v < (s.cls k).cfg.quota ∧ (s.cls k).held ≠ [] then .refuse .busy
        else .accept (.quota v) (decide (v ≠ n)))) ∧
    ((∀ a : Option Addr, checkNotice (.destination a) = .accept (.destination a) false) ∧
      Enumerated checkNotice .path ∧
      ∀ src : Source, Enumerated checkNotice (.enable src) ∧ Enumerated checkNotice (.level src))

/-- The quota of a class (R110): the same value and a raise within the sum of 768 are applied, a raise beyond it is
refused BAD-VALUE, and a lowering is applied where the class holds nothing and refused BUSY where it holds a fragment.
A wake threshold is clamped to 64-65535 (R103), a class order code outside 1-6 is refused BAD-VALUE and the old one
holds (R96), and a fragment size is clamped to 64-512 and taken down to a multiple of 32 (R92). That the BUSY reply
names the quota is the model's choice (log entry 19). -/
def Obligations.QuotaAndCodesWritten : Prop :=
  ∀ (q : ReqHead) (o : Octet) (c : ClassNo) (n : Nat) (s : State), s.open → classIndex o = some c →
    (Admits q (.writeSettings (.cls o [.quota n])) s →
      ∃ t, exec (.quotaWrite q o n) s = .next t ∧
        if (s.cls c).cfg.quota < clampTo 16 752 n ∧
            768 < (s.cls 0).cfg.quota + (s.cls 1).cfg.quota + (s.cls 2).cfg.quota - (s.cls c).cfg.quota +
              clampTo 16 752 n then
          OnlyReply q s t ∧
            Answers q 3 .badValue (.refused (.setting (.cls .quota))) s.cfg.stationAddress t
        else if clampTo 16 752 n < (s.cls c).cfg.quota ∧ (s.cls c).held ≠ [] then
          OnlyReply q s t ∧ Answers q 3 .busy (.refused (.setting (.cls .quota))) s.cfg.stationAddress t
        else (t.cls c).cfg = { (s.cls c).cfg with quota := clampTo 16 752 n } ∧ AllLeft s t ∧
          ContextsLeft s t ∧ (∀ d : ClassNo, d ≠ c → (t.cls d).cfg = (s.cls d).cfg) ∧ t.cfg = s.cfg ∧
          Answers q 3 (if n < 16 ∨ 752 < n then .clamped else .ok)
            (.clampedNames (if n < 16 ∨ 752 < n then [.cls .quota] else [])) s.cfg.stationAddress t) ∧
    (Admits q (.writeSettings (.bond [.wakeThreshold n])) s →
      ∃ t, exec (.wakeThresholdWrite q n) s = .next t ∧
        t.cfg = { s.cfg with wakeThreshold := clampTo 64 65535 n } ∧ AllLeft s t ∧ ContextsLeft s t ∧
        Answers q 3 (if n < 64 ∨ 65535 < n then .clamped else .ok)
          (.clampedNames (if n < 64 ∨ 65535 < n then [.bond .wakeThreshold] else []))
          s.cfg.stationAddress t) ∧
    (Admits q (.writeSettings (.bond [.classOrderCode n])) s →
      ∃ t, exec (.writeSettings q (.bond [.classOrderCode n])) s = .next t ∧
        if 1 ≤ n ∧ n ≤ 6 then t.cfg = { s.cfg with classOrder := n }
        else t.cfg = s.cfg ∧ OnlyReply q s t ∧
          Answers q 3 .badValue (.refused (.setting (.bond .classOrderCode))) s.cfg.stationAddress t) ∧
    (Admits q (.writeSettings (.cls o [.fragmentSize n])) s →
      ∃ t, exec (.writeSettings q (.cls o [.fragmentSize n])) s = .next t ∧
        (t.cls c).cfg.fragmentSize % 32 = 0 ∧
        (t.cls c).cfg.fragmentSize = (if n < 64 then 64 else if 512 < n then 512 else n - n % 32) ∧
        (Answers q 3 .ok (.clampedNames []) s.cfg.stationAddress t ↔ (t.cls c).cfg.fragmentSize = n))

/-- A write of *gate window* (R74): from a length to TRAINED every window stops, with no sample and no RATE-HOLD
count, and every pair in a state other than ABSENT and DOWN takes its initial R; from TRAINED to a length every
SERVING pair starts a window; from one length to another the running windows keep theirs; the value already set
changes nothing. A QUIET pair that the selections after the write wake has its initial R as well. -/
def Obligations.GateWindowWritten : Prop :=
  ∀ (q : ReqHead) (g : GateWindow) (s : State), s.open →
    Admits q (.writeSettings (.bond [.gateWindow (some g)])) s →
    ∃ t, exec (.gateWindowWrite q (some g)) s = .next t ∧ t.cfg = { s.cfg with gateWindow := g } ∧
      SettingsKept { s with cfg := t.cfg } t ∧ ContextsLeft s t ∧ EngineLeft s t ∧
      Answers q 3 .ok (.clampedNames []) s.cfg.stationAddress t ∧
      (∀ p : PairNo, (s.pair p).state ≠ .quiet →
        (t.pair p).steady =
          (if g ≠ s.cfg.gateWindow ∧ g = .trained then { (s.pair p).steady with
            window := none, windowCount := 0, busy := false
            rate := if (s.pair p).state = .absent ∨ (s.pair p).state = .down then (s.pair p).rate
              else clampTo 16 16383 ((s.pair p).trained / 8) }
          else if g ≠ s.cfg.gateWindow ∧ s.cfg.gateWindow = .trained ∧ (s.pair p).state = .serving then
            { (s.pair p).steady with
              window := (windowLength g).map fun n => ⟨s.now, ms n⟩
              windowCount := 0, busy := !(s.pair p).queue.isEmpty }
          else (s.pair p).steady)) ∧
      ∀ p : PairNo, (s.pair p).state = .quiet →
        (if g ≠ s.cfg.gateWindow ∧ g = .trained then { s.pair p with
            window := none, windowCount := 0, busy := false, rate := clampTo 16 16383 ((s.pair p).trained / 8) }
          else s.pair p).LeftBy (t.pair p)

/-- A write of one PAIR setting on a pair without a run: its allotment (R2), its *quiet wait*, which clears its wake
errors and its no-quiet flag (R171), and its delay figure (R75 c); and a WRITE-SETTINGS of the PAIR group applies
every accepted item, or none where one is refused (R189), with the ranges of section 10.5. That a field clamped twice
in a list is named twice is the model's choice (log entry 46). -/
def Obligations.PairSettingsWritten : Prop :=
  ∀ (q : ReqHead) (o : Octet) (p : PairNo) (n : Nat) (xs : List PairItem) (s : State), s.open →
    pairIndex o = some p → s.runOn p = false →
    (Admits q (.writeSettings (.pair o [.allotment (some .reserved)])) s → (s.pair p).state ≠ .absent →
      ∃ t, exec (.allotmentWrite q o (some .reserved)) s = .next t ∧
        Answers q 3 .ok (.clampedNames []) s.cfg.stationAddress t ∧ OthersLeft p s t ∧ EngineLeft s t ∧
        (t.pair p).Entered s.now s.cfg .absent ∧ (t.pair p).WentDown ∧ (t.pair p).control = .holdOff ∧
        (t.pair p).trained = 0 ∧ (t.pair p).farPair = none ∧ (t.pair p).farRole = none ∧
        (t.pair p).cfg = { (s.pair p).cfg with allotment := .reserved } ∧
        (if (s.pair p).state = .serving ∨ (s.pair p).state = .waking then Withdrawn p s t
          else ContextsLeft s t)) ∧
    (Admits q (.writeSettings (.pair o [.allotment (some .bond)])) s → (s.pair p).state = .absent →
      ∃ t, exec (.allotmentWrite q o (some .bond)) s = .next t ∧
        Answers q 3 .ok (.clampedNames []) s.cfg.stationAddress t ∧ OthersLeft p s t ∧ EngineLeft s t ∧
        ContextsLeft s t ∧ (t.pair p).Entered s.now s.cfg .down ∧ (t.pair p).WentDown ∧
        (t.pair p).control = .train ∧ (t.pair p).cfg = { (s.pair p).cfg with allotment := .bond }) ∧
    (∀ v : Allotment, Admits q (.writeSettings (.pair o [.allotment (some v)])) s →
      (v = .reserved ↔ (s.pair p).state = .absent) → (s.pair p).state ≠ .quiet →
      ∃ t, exec (.allotmentWrite q o (some v)) s = .next t ∧ OthersLeft p s t ∧ ContextsLeft s t ∧
        Answers q 3 .ok (.clampedNames []) s.cfg.stationAddress t ∧
        (t.pair p).steady = { (s.pair p).steady with cfg := { (s.pair p).cfg with allotment := v } }) ∧
    (Admits q (.writeSettings (.pair o [.quietWait n])) s →
      ∃ t, exec (.quietWaitWrite q o n) s = .next t ∧ (t.pair p).wakeErrors = 0 ∧ (t.pair p).noQuiet = false ∧
        (t.pair p).cfg = { (s.pair p).cfg with quietWait := min 65535 n } ∧ OthersMayOffer p s t ∧
        ContextsLeft s t ∧ ((s.pair p).state ≠ .quiet → (t.pair p).state = (s.pair p).state ∧
          (t.pair p).idleTimer = (s.pair p).idleTimer) ∧
        Answers q 3 (if 65535 < n then .clamped else .ok)
          (.clampedNames (if 65535 < n then [.pair .quietWait] else [])) s.cfg.stationAddress t) ∧
    (Admits q (.writeSettings (.pair o [.delayFigure n])) s →
      ∃ t, exec (.delayFigureWrite q o n) s = .next t ∧ (t.pair p).delay = min 65535 n ∧
        (t.pair p).cfg = (s.pair p).cfg ∧ OthersLeft p s t ∧ ContextsLeft s t ∧
        ((s.pair p).state ≠ .quiet →
          (t.pair p).steady = { (s.pair p).steady with delay := min 65535 n }) ∧
        Answers q 3 (if 65535 < n then .clamped else .ok)
          (.clampedNames (if 65535 < n then [.pair .delayFigure] else [])) s.cfg.stationAddress t) ∧
    (Admits q (.writeSettings (.pair o xs)) s →
      ((∀ x ∈ xs, (checkPair x).value.isSome = true) →
        ∃ t, exec (.writeSettings q (.pair o xs)) s = .next t ∧
          ((t.pair p).cfg, (t.pair p).delay) =
            (xs.filterMap fun x => (checkPair x).value).foldl writePair ((s.pair p).cfg, (s.pair p).delay) ∧
          SettingsKept (modPair p (fun u => { u with cfg := (t.pair p).cfg }) s) t ∧
          Answers q 3 (writeReply checkPair (fun x => .pair (pairName x)) xs).1
            (writeReply checkPair (fun x => .pair (pairName x)) xs).2 s.cfg.stationAddress t) ∧
      (∀ (pre post : List PairItem) (x : PairItem) (st : Status), xs = pre ++ x :: post →
        (∀ y ∈ pre, (checkPair y).value.isSome = true) → checkPair x = .refuse st →
        ∃ t, exec (.writeSettings q (.pair o xs)) s = .next t ∧
          Answers q 3 st (.refused (.setting (.pair (pairName x)))) s.cfg.stationAddress t ∧
          OnlyReply q s t)) ∧
    (Enumerated checkPair .allotment ∧ Clamps checkPair .errorPeriod 50 5000 ∧
      Clamps checkPair .errorLimit 1 1000 ∧ Clamps checkPair .strikeLimit 1 15 ∧
      Clamps checkPair .settlePeriod 1 3600 ∧ Clamps checkPair .delayFigure 0 65535 ∧
      Enumerated checkPair .echoConsent ∧ Clamps checkPair .quietWait 0 65535)

/-- TABLE-STAGE writes every item into the image and adds every name to the enable set, or refuses the request whole
where a name or a value is none of a field's (R59, R60); the values of each field are those of R46. TABLE-COMMIT forms
the entry from the image's enabled fields and its own (R61); one that passes the four checks replaces the entry with
its match counter at 0 and empties the enable set (R62), and one that fails a check changes nothing and is answered
with the first that fails. -/
def Obligations.StagingAndCommit : Prop :=
  ∀ (q : ReqHead) (xs : List StageItem) (o : Octet) (i : Fin 32) (s : State), s.open →
    (Admits q (.tableStage xs) s →
      ((∀ x ∈ xs, (stageInto s.classifier.image x).isSome = true) →
        ∃ t, exec (.tableStage q xs) s = .next t ∧
          t.classifier.image = xs.foldl (fun e x => (stageInto e x).getD e) s.classifier.image ∧
          t.classifier.table = s.classifier.table ∧
          (∀ f : Field, f ∈ t.classifier.enable ↔
            f ∈ s.classifier.enable ∨ ∃ x ∈ xs, stageName x = .inl f) ∧
          (s.classifier.enable.Nodup → t.classifier.enable.Nodup) ∧
          Answers q 6 .ok (.enableSet t.classifier.enable) s.cfg.stationAddress t ∧ AllLeft s t) ∧
      (∀ (pre post : List StageItem) (x : StageItem), xs = pre ++ x :: post →
        (∀ y ∈ pre, (stageInto s.classifier.image y).isSome = true) → stageInto s.classifier.image x = none →
        ∃ t, exec (.tableStage q xs) s = .next t ∧ OnlyReply q s t ∧
          Answers q 6 .badValue (.refused (match stageName x with | .inl f => .field f | .inr m => .fieldName m))
            s.cfg.stationAddress t)) ∧
    (Admits q (.tableCommit o) s → entryIndex o = some i →
      ∃ t, exec (.tableCommit q o) s = .next t ∧ AllLeft s t ∧ ContextsLeft s t ∧
        let r := committed s.classifier i
        if r.kind = .unused ∧ r.primary = true then
          OnlyReply q s t ∧ Answers q 7 .badValue (.refused (.check .unusedPrimary)) s.cfg.stationAddress t
        else if r.companions.holds i = true then
          OnlyReply q s t ∧ Answers q 7 .badValue (.refused (.check .ownCompanion)) s.cfg.stationAddress t
        else if (r.portMode = .inside ∨ r.portMode = .outside) ∧ r.portMax < r.portMin then
          OnlyReply q s t ∧ Answers q 7 .badValue (.refused (.check .portRange)) s.cfg.stationAddress t
        else if r.cls = 3 then
          OnlyReply q s t ∧ Answers q 7 .badValue (.refused (.check .classThree)) s.cfg.stationAddress t
        else Answers q 7 .ok .empty s.cfg.stationAddress t ∧
          t.classifier.table.get i = { f := r, matched := 0 } ∧
          (∀ j : Fin 32, j ≠ i → t.classifier.table.get j = s.classifier.table.get j) ∧
          t.classifier.enable = [] ∧ t.classifier.image = s.classifier.image) ∧
    (StagesEach .kind (fun v e => { e with kind := v }) ∧ StagesEach .primary (fun v e => { e with primary := v }) ∧
      StagesEach .linkSide (fun v e => { e with linkSide := v }) ∧
      StagesEach .linkTest (fun v e => { e with linkTest := v }) ∧
      StagesEach .frameTypeTest (fun v e => { e with frameTypeTest := v }) ∧
      StagesEach .vlanTest (fun v e => { e with vlanTest := v }) ∧
      StagesEach .netSide (fun v e => { e with netSide := v }) ∧
      StagesEach .protocolTest (fun v e => { e with protocolTest := v }) ∧
      StagesEach .portMode (fun v e => { e with portMode := v }) ∧
      StagesEach .portSide (fun v e => { e with portSide := v }) ∧
      StagesEach .urgencyMode (fun v e => { e with urgencyMode := v }) ∧
      StagesEach .mapMode (fun v e => { e with mapMode := v }) ∧
      StagesTo .frameType (fun n e => { e with frameType := n }) 0xFFFF ∧
      StagesTo .vlanId (fun n e => { e with vlanId := n }) 4095 ∧
      StagesTo .protocol (fun n e => { e with protocol := n }) 255 ∧
      StagesTo .portMin (fun n e => { e with portMin := n }) 65535 ∧
      StagesTo .portMax (fun n e => { e with portMax := n }) 65535 ∧
      StagesTo .cls (fun n e => { e with cls := n }) 3 ∧
      StagesTo .urgencyValue (fun n e => { e with urgencyValue := n }) 7 ∧
      StagesTo .threshold (fun n e => { e with threshold := n }) 65535 ∧
      ∀ e : EntryFields,
        (∀ a : Addr, stageInto e (.linkAddress a) = some { e with linkAddress := a }) ∧
        (∀ a : BitVec 32, stageInto e (.netAddress a) = some { e with netAddress := a } ∧
          stageInto e (.netMask a) = some { e with netMask := a }) ∧
        (∀ is : List Nat,
          if ∃ j ∈ is, 31 < j then stageInto e (.companions is) = none
          else ∃ m : EntrySet, stageInto e (.companions is) = some { e with companions := m } ∧
            ∀ j : Fin 32, m.holds j = true ↔ j.val ∈ is) ∧
        (∀ ps : List Nat,
          if ∃ p ∈ ps, 7 < p then stageInto e (.pairMap ps) = none
          else ∃ m : PairMap, stageInto e (.pairMap ps) = some { e with pairMap := m } ∧
            ∀ p : PairNo, m.holds p = true ↔ p.val ∈ ps) ∧
        ∀ n : Octet, stageInto e (.unknown n) = none)

/-- TABLE-FETCH copies every field of an entry but its match counter into the image and empties the enable set, with
the image in its reply (R63). TABLE-CLEAR gives an entry its blank values and leaves the staging record; from then on
the entry wins no frame, and neither does an entry that names it among its companions (R64). An index above 31 is
refused BAD-INDEX by either and nothing changes. -/
def Obligations.FetchAndClear : Prop :=
  ∀ (q : ReqHead) (o : Octet) (s : State), s.open →
    (Admits q (.tableFetch o) s →
      (∀ i : Fin 32, o.toNat = i.val →
        ∃ t, exec (.tableFetch q o) s = .next t ∧ t.classifier.table = s.classifier.table ∧
          t.classifier.image = (s.classifier.table.get i).f ∧ t.classifier.enable = [] ∧
          Answers q 8 .ok (.image (s.classifier.table.get i).f) s.cfg.stationAddress t ∧ AllLeft s t) ∧
      (31 < o.toNat →
        ∃ t, exec (.tableFetch q o) s = .next t ∧ OnlyReply q s t ∧
          Answers q 8 .badIndex .empty s.cfg.stationAddress t)) ∧
    (Admits q (.tableClear o) s →
      (∀ i : Fin 32, o.toNat = i.val →
        ∃ t, exec (.tableClear q o) s = .next t ∧
          (t.classifier.table.get i).f.kind = .unused ∧ (t.classifier.table.get i).f.primary = false ∧
          (t.classifier.table.get i).f.companions = 0 ∧ (t.classifier.table.get i).f.linkTest = false ∧
          (t.classifier.table.get i).f.frameTypeTest = false ∧ (t.classifier.table.get i).f.vlanTest = false ∧
          (t.classifier.table.get i).f.protocolTest = false ∧
          (t.classifier.table.get i).f.portMode = .off ∧ t.classifier.table.get i = {} ∧
          (t.classifier.table.get i).matched = 0 ∧
          (∀ j : Fin 32, j ≠ i → t.classifier.table.get j = s.classifier.table.get j) ∧
          t.classifier.image = s.classifier.image ∧ t.classifier.enable = s.classifier.enable ∧
          (∀ (x : FrameFields) (j : Fin 32), winner t.classifier.table x = some j →
            j ≠ i ∧ (t.classifier.table.get j).f.companions.holds i = false) ∧
          Answers q 9 .ok .empty s.cfg.stationAddress t ∧ AllLeft s t) ∧
      (31 < o.toNat →
        ∃ t, exec (.tableClear q o) s = .next t ∧ OnlyReply q s t ∧
          Answers q 9 .badIndex .empty s.cfg.stationAddress t))

/-- READ-COUNTERS with clear-after-read answers with the counters as they were and sets every counter of the group to
0, and no present value (R190); what its own reply raises after that is EGRESS-FULL on path TRUNK, and on path BOND
the class counters of its admission and of the selections that follow. That the TRUNK report counts its own request as
served and leaves it cleared, and the rounding of the hold timer's time, is the model's choice (log entries 20 and
25). CLEAR-NOTICES clears the pending and due flags, the repeat count and the argument of each source named and keeps
the others, and refuses a source outside 1-11 whole (R200). The notice sender takes an urgent source before a routine
one and within a level the lowest number (R198); it forms the frame of R198 with the notice number as its tag, clears
the due flag, offers the frame to the notice path (R199), and goes on until no source is sendable. That a frame
carries the number as it stands before the increment is the model's choice (log entry 24). -/
def Obligations.CountersAndNoticesServed : Prop :=
  ∀ (q : ReqHead) (g : CounterGroup) (r : ReplyBody) (ns : List Nat) (s : State), s.open →
    (Admits q (.readCounters g true) s → reportOf s (.readCounters g true) = some r →
      ∃ t, exec (.readCounters q g true) s = .next t ∧ Answers q 12 .ok r s.cfg.stationAddress t ∧
        SettingsKept s t ∧ ContextsLeft s t ∧ t.classifier = s.classifier ∧
        (∀ p : PairNo, g = .pair (BitVec.ofNat 8 p.val) → (t.pair p).n = {} ∧ OthersLeft p s t) ∧
        (∀ c : ClassNo, g = .cls (BitVec.ofNat 8 c.val) → AllLeft s t ∧
          (q.path = .trunk → (t.cls c).n = {} ∧ (t.cls c).queue = (s.cls c).queue ∧
            ∀ d : ClassNo, d ≠ c → t.cls d = s.cls d) ∧
          (t.cls c).n = {
            admitted := (t.cls c).n.admitted, queueDrop := (t.cls c).n.queueDrop
            noPath := (t.cls c).n.noPath, spill := (t.cls c).n.spill
            wakeAsk := (t.cls c).n.wakeAsk, fragPlaced := (t.cls c).n.fragPlaced }) ∧
        (g = .trunk → AllLeft s t ∧ t.trunk.n = { egressFull := t.trunk.n.egressFull } ∧
          (q.path = .trunk → t.trunk.n.egressFull = if 64 ≤ s.trunk.egress.length then 1 else 0) ∧
          s.trunk.egress <+: t.trunk.egress)) ∧
    (Admits q (.clearNotices ns) s →
      ((∀ n ∈ ns, 1 ≤ n ∧ n ≤ 11) →
        ∃ t, exec (.clearNotices q ns) s = .next t ∧ Answers q 14 .ok .empty s.cfg.stationAddress t ∧
          AllLeft s t ∧ SettingsKept s t ∧ ContextsLeft s t ∧
          (∀ src : Source, q.path = .trunk ∨ src ≠ .queueDrop →
            if (sourceIndex src).val + 1 ∈ ns then
              (t.source src).isPending = false ∧ (t.source src).due = false ∧ (t.source src).repeats = 0 ∧
                (t.source src).arg = none
            else Unraised src s t ∧ (q.path = .trunk → (t.source src).due = (s.source src).due))) ∧
      ((∃ n ∈ ns, n = 0 ∨ 11 < n) →
        ∃ t, exec (.clearNotices q ns) s = .next t ∧ OnlyReply q s t ∧
          Answers q 14 .badValue (.refused .source) s.cfg.stationAddress t)) ∧
    ((nextNotice s = none ↔ ∀ src : Source, ¬ Sendable s src) ∧
      (∀ src : Source, nextNotice s = some src ↔
        Sendable s src ∧ ∀ src' : Source, Sendable s src' → src' ≠ src → SentBefore s src src') ∧
      (∀ src : Source, ¬ Sendable (sendNotices s) src) ∧
      ∀ (src : Source) (d : Addr),
        noticeFrame s src d = octets48 d ++ octets48 s.cfg.stationAddress ++
          [0x9C, 0x5B, 1, if s.notices.path = .bond then 0xC0 else 0x80, 32, 0] ++
          octets16 s.notices.number ++ [0, 10, BitVec.ofNat 8 ((sourceIndex src).val + 1),
            if (s.source src).level = .urgent then 0 else 1,
            ((s.source src).arg.getD ⟨0, 0⟩).hi, ((s.source src).arg.getD ⟨0, 0⟩).lo,
            BitVec.ofNat 8 (s.source src).repeats, BitVec.ofNat 8 (causeCode s.notices.record.last),
            BitVec.ofNat 8 s.notices.record.powerOn, BitVec.ofNat 8 s.notices.record.supplyLow,
            BitVec.ofNat 8 s.notices.record.pin, BitVec.ofNat 8 s.notices.record.management] ∧
        Output.notice src (noticeFrame s src d) ∈ (sendNotice src d s).out ∧
        (sendNotice src d s).notices.number = s.notices.number + 1 ∧
        (s.notices.path = .trunk →
          ((sendNotice src d s).source src) = { s.source src with due := false } ∧
          (∀ src' : Source, src' ≠ src → (sendNotice src d s).source src' = s.source src') ∧
          (if s.trunk.egress.length < 64 then
            (sendNotice src d s).trunk.egress = s.trunk.egress ++
              [{ frame := noticeFrame s src d, source := .notice, resetReply := false }]
          else (sendNotice src d s).trunk.egress = s.trunk.egress ∧
            (sendNotice src d s).trunk.n.egressFull = s.trunk.n.egressFull + 1) ∧
          (sendNotice src d s).classes = s.classes ∧ (sendNotice src d s).pairs = s.pairs) ∧
        (s.notices.path = .bond → QueuesByUrgency s →
          ∃ u, sendNotice src d s = distribute u ∧ OfferDecided 0 {
            octets := noticeFrame s src d, urgency := 7, map := everyPair, order := 0, resetReply := false }
            s u))

/-- RESET-PART is answered OK and the full reset of cause MANAGEMENT becomes pending with a reset wait of 1000 ms
(R193): on path TRUNK its reply waits in the egress queue, and where that is full the drop is reported and the reset
performed at once. While it is pending each request is discarded and counted MGMT-DISCARD (R183). It is performed when
the reset wait expires and when the trunk port reports the reply sent (R193 a and c, R194, R201 b). On path BOND the
reply is admitted to class 0, in the place of a victim where there is one, and the reset stays pending; where it is
refused the reset is performed at once, and otherwise when the handover of the last fragment that belongs to the reply
completes (R193 b). The straps are then read anew, as a free value of the model (R194; log entry 4), and the trunk
interface is not ready (log entry 17). -/
def Obligations.ResetPartServed : Prop :=
  ∀ (c : Instr) (q : ReqHead) (b : ReqBody) (ready : Bool) (s : State), s.taking →
    (s.agent.reset = none → ResetRepliesGone s → Admits q .resetPart s →
      (q.path = .trunk → s.trunk.egress.length < 64 →
        ∃ t, exec (.resetPart q) s = .next t ∧ Answers q 16 .ok .empty s.cfg.stationAddress t ∧
          t.agent.reset = some { path := .trunk, wait := ⟨s.now, 1000000⟩, reported := false } ∧
          AllLeft s t ∧ SettingsKept s t ∧ ContextsLeft s t ∧
          (∃ e : EgressEntry, e.source = .reply ∧ e.resetReply = true ∧
            s.trunk.egress ++ [e] <+: t.trunk.egress)) ∧
      (q.path = .trunk → 64 ≤ s.trunk.egress.length →
        ∃ t, exec (.resetPart q) s = .next t ∧ ManagementReset s t) ∧
      (q.path = .bond → ¬ ((s.cls 0).holding < (s.cls 0).cfg.classLimit ∧ s.slotsInUse < 128) →
        if ((s.cls 0).queue.getLast?.any fun v => v.urgency < 7) = true then
          ∃ t, exec (.resetPart q) s = .next t ∧ Answers q 16 .ok .empty s.cfg.stationAddress t ∧
            t.agent.reset = some { path := .bond, wait := ⟨s.now, 1000000⟩, reported := false }
        else ∃ t, exec (.resetPart q) s = .next t ∧ Answers q 16 .ok .empty s.cfg.stationAddress t ∧
          ManagementReset s t) ∧
      (q.path = .bond → (s.cls 0).holding < (s.cls 0).cfg.classLimit → s.slotsInUse < 128 →
        ∃ t, exec (.resetPart q) s = .next t ∧ Answers q 16 .ok .empty s.cfg.stationAddress t ∧
          t.agent.reset = some { path := .bond, wait := ⟨s.now, 1000000⟩, reported := false })) ∧
    (∀ r : PendingReset, s.agent.reset = some r →
      (requestOf c = some (q, b) →
        exec c s = .next { s.silent with trunk := { s.trunk with n := { s.trunk.n with
          mgmtDiscard := s.trunk.n.mgmtDiscard + 1 } } }) ∧
      (∃ t, exec .resetWaitExpiry s = .next t ∧ ManagementReset s t) ∧
      (∀ (p : PairNo) (h : Handover) (e : Desc) (es : List Desc), r.path = .bond →
        (s.pair p).handover = some h → h.frag.kind = 0 → (s.pair p).queue = e :: es → e.resetReply = true →
        (∀ d ∈ es, d.resetReply = false) →
        (∀ o : PairNo, o ≠ p → ∀ d ∈ (s.pair o).queue, d.resetReply = false) →
        (∀ k : ClassNo, (s.cls k).holdsResetReply = false) →
        ∃ t, exec (.handoverComplete p) s = .next t ∧ ManagementReset s t) ∧
      (∀ (e : EgressEntry) (es : List EgressEntry), s.trunk.egress = e :: es →
        s.trunk.sending = true → e.resetReply = true →
        ∃ t, exec (.trunkSendComplete ready) s = .next t ∧ ManagementReset s t))

/-! ## Pair choice and the line -/

/-- Pair choice (R77-R79): it gives a pair exactly where one is eligible, and then the eligible pair with the smallest
arrival estimate D + ceil((B + L) × 1000 ÷ R), among equal ones the largest R, and among those the lowest number. What
the distributor does with it: the next fragment of a frame in progress is cut, numbered and appended to the chosen
pair's queue (R90, R91, R93), and a class without one takes its head as that frame (R90); the path decision of a class
gives PLACE, BLOCKED, WAIT with its wake request, spill or NO-PATH by its frame's map (R97-R101); a selection places
one fragment of the first class in the order of the class order code that gives PLACE (R94, R95); and demand wake asks
the fastest QUIET pair (R103). That a pair takes a wake request in the event that makes it is the model's choice (log
entry 40). -/
def Obligations.PairChosen : Prop :=
  ∀ (m : PairMap) (l : Nat) (s : State), (∀ p : PairNo, (s.pair p).state = .serving → 0 < (s.pair p).rate) →
    (choosePair s m l = none ↔ ∀ p : PairNo, eligible s m p = false) ∧
    (∀ p : PairNo, choosePair s m l = some p →
      eligible s m p = true ∧
      (∃ a : Nat, (s.pair p).estimate l = (s.pair p).delay + a ∧
        ((s.pair p).backlog + l) * 1000 ≤ a * (s.pair p).rate ∧
        ∀ b : Nat, ((s.pair p).backlog + l) * 1000 ≤ b * (s.pair p).rate → a ≤ b) ∧
      ∀ r : PairNo, eligible s m r = true → r ≠ p →
        (s.pair p).estimate l < (s.pair r).estimate l ∨
          ((s.pair p).estimate l = (s.pair r).estimate l ∧
            ((s.pair r).rate < (s.pair p).rate ∨ ((s.pair r).rate = (s.pair p).rate ∧ p < r)))) ∧
    (∀ (c : ClassNo) (g : InProgress) (p : PairNo) (n : Nat), (s.cls c).current = some g →
      n = min g.size (g.frame.octets.length - g.offset) → choosePair s g.frame.map (n + 7) = some p →
      ((placeFragment c s).pair p).queue = (s.pair p).queue ++ [{
        cls := c, seq := (s.cls c).nextSeq, first := decide (g.offset = 0)
        last := decide (g.frame.octets.length ≤ g.offset + n)
        payload := (g.frame.octets.drop g.offset).take n, allowed := g.frame.map
        resetReply := g.frame.resetReply }] ∧
      ((placeFragment c s).pair p).steady = (s.pair p).steady ∧
      (∀ r : PairNo, r ≠ p → (placeFragment c s).pair r = s.pair r) ∧
      (placeFragment c s).bond = { s.bond with carried := true } ∧
      (∀ d : ClassNo, d ≠ c → (placeFragment c s).cls d = s.cls d) ∧
      (placeFragment c s).cls c = { s.cls c with
        current := if g.frame.octets.length ≤ g.offset + n then none
          else some { g with offset := g.offset + n }
        nextSeq := (s.cls c).nextSeq + 1
        n := { (s.cls c).n with fragPlaced := (s.cls c).n.fragPlaced + 1 } }) ∧
    (∀ (c : ClassNo) (f : FrameRec) (fs : List FrameRec), (s.cls c).current = none → (s.cls c).queue = f :: fs →
      placeFragment c s = placeFragment c (modClass c (fun k => { k with
        queue := fs, current := some { frame := f, size := k.cfg.fragmentSize, offset := 0 } }) s)) ∧
    (∀ (c : ClassNo) (k : Nat),
      ((s.cls c).decisionMap = none → pathDecision (k + 1) c s = (false, s)) ∧
      ((s.cls c).decisionMap = some m →
        if ∃ p : PairNo, eligible s m p = true then pathDecision (k + 1) c s = (true, s)
        else if ∃ p : PairNo, m.holds p = true ∧ (s.pair p).state = .serving then
          pathDecision (k + 1) c s = (false, s)
        else if ∃ p : PairNo, m.holds p = true ∧ (s.pair p).state = .waking then
          pathDecision (k + 1) c s = (false, s)
        else if ∃ p : PairNo, m.holds p = true ∧ (s.pair p).state = .quiet then
          ∃ p : PairNo, WakeChoice s m.holds p ∧ (pathDecision (k + 1) c s).1 = false ∧
            AskedToWake p (countClass c (fun n => { n with wakeAsk := n.wakeAsk + 1 }) s)
              (pathDecision (k + 1) c s).2
        else ∃ u : State, pathDecision (k + 1) c s = pathDecision k c u ∧ u.pairs = s.pairs ∧
          (∀ d : ClassNo, d ≠ c → u.cls d = s.cls d) ∧
          if (s.cls c).cfg.spill = true then
            (u.cls c).n = { (s.cls c).n with spill := (s.cls c).n.spill + 1 } ∧
            (∃ m' : PairMap, (u.cls c).decisionMap = some m' ∧
              ∀ p : PairNo, m'.holds p = true ↔ (s.pair p).state = .serving) ∧
            ((s.cls c).current = none → (u.cls c).current = none ∧
              (u.cls c).queue.map (·.octets) = (s.cls c).queue.map (·.octets)) ∧
            (∀ g : InProgress, (s.cls c).current = some g → (u.cls c).queue = (s.cls c).queue ∧
              (u.cls c).current.map (fun x => (x.frame.octets, x.size, x.offset)) =
                some (g.frame.octets, g.size, g.offset))
          else (u.cls c).n = { (s.cls c).n with noPath := (s.cls c).n.noPath + 1 } ∧
            (u.cls c).current = none ∧
            (u.cls c).queue = if (s.cls c).current.isSome = true then (s.cls c).queue else (s.cls c).queue.tail)) ∧
    (classOrder 1 = [0, 1, 2] ∧ classOrder 2 = [0, 2, 1] ∧ classOrder 3 = [1, 0, 2] ∧
      classOrder 4 = [1, 2, 0] ∧ classOrder 5 = [2, 0, 1] ∧ classOrder 6 = [2, 1, 0]) ∧
    (∀ (a b c : ClassNo) (u v w : State) (x y z : Bool),
      pathDecision (decisionsOf (s.cls a)) a s = (x, u) → pathDecision (decisionsOf (u.cls b)) b u = (y, v) →
      pathDecision (decisionsOf (v.cls c)) c v = (z, w) →
      selectFrom [a, b, c] s = if x = true then (true, placeFragment a u)
        else if y = true then (true, placeFragment b v)
        else if z = true then (true, placeFragment c w) else (false, w)) ∧
    (∀ k : Nat, selectUpTo (k + 1) s =
      if (∃ p : PairNo, (s.pair p).state = .serving ∧ (s.pair p).offering = false ∧ (s.pair p).queue.length < 32) ∧
          (∃ c : ClassNo, (s.cls c).current ≠ none ∨ (s.cls c).queue ≠ []) then
        if (selectFrom (classOrder s.cfg.classOrder) s).1 = true then
          selectUpTo k (demandWake (selectFrom (classOrder s.cfg.classOrder) s).2)
        else demandWake (selectFrom (classOrder s.cfg.classOrder) s).2
      else s) ∧
    (if s.cfg.wakeThreshold ≤ s.waiting ∧ (∀ p : PairNo, (s.pair p).state ≠ .waking) ∧
        ∃ p : PairNo, (s.pair p).state = .quiet then
      ∃ p : PairNo, WakeChoice s (fun _ => true) p ∧ AskedToWake p s (demandWake s)
    else demandWake s = s)

/-- The next handover of a pair (R30, R31): the lowest-numbered kind of its pending control set, then the prove slot,
then, in SERVING, the head of its queue; and none while one is in progress, while the line is down or in another
state. An ALIVE carries in each class the sequence of the entry that lies farthest behind the next sequence, or the
next sequence where the queue holds none (R36). The octets of a fragment, read back by the tests of R5 and the layout
of R195, give the fragment: for every kind, header and payload of at most 512 octets. The octets of what the part
hands over, delivered on a pair, are the command of their kind with the fields that R24 and R26 give it; a JOIN's two
octets are left open (log entry 6). That a PROVE-END whose end slot is empty carries ABORTED and 0 is the model's
choice (log entry 31). -/
def Obligations.FragmentsReadBack : Prop :=
  ∀ (f : Fragment) (s : State) (p : PairNo) (e : Desc) (m : ProveMsg) (k : Ctl),
    (f.payload.length ≤ 512 → readFragment f.octets = some f) ∧
    (e.payload.length ≤ 512 → deliver p (dataFragment s e).octets = .data p {
      epoch := s.bond.epoch.getD 0, cls := BitVec.ofNat 2 e.cls.val, seq := e.seq
      first := e.first, last := e.last, payload := e.payload }) ∧
    (m.octets.length ≤ 512 → deliver p (proveFragment s m).octets =
      (if m.echo = true then .proveEcho p {
          epoch := s.bond.epoch.getD 0, step := BitVec.ofNat 14 m.step.val, octets := m.octets }
        else .provePattern p {
          epoch := s.bond.epoch.getD 0, step := BitVec.ofNat 14 m.step.val, octets := m.octets })) ∧
    deliver p (ctlFragment s p k).octets =
      (match k with
        | .join => .join p ⟨s.bond.epoch.getD 0, 2⟩ (readJoin (ctlPayload s p .join))
        | .alive => .alive p ⟨s.bond.epoch.getD 0, 6⟩ {
            h0 := (aliveHorizon s p 0).setWidth 16, h1 := (aliveHorizon s p 1).setWidth 16
            h2 := (aliveHorizon s p 2).setWidth 16 }
        | .restart => .restart p ⟨s.bond.epoch.getD 0, 0⟩
        | .restartAsk => .restartAsk p ⟨s.bond.epoch.getD 0, 0⟩
        | .quietOffer => .quietOffer p ⟨s.bond.epoch.getD 0, 0⟩
        | .quietAgree => .quietAgree p ⟨s.bond.epoch.getD 0, 0⟩
        | .proveRequest => .proveRequest p ⟨s.bond.epoch.getD 0, 0⟩
        | .proveAccept => .proveAccept p ⟨s.bond.epoch.getD 0, 0⟩
        | .proveDecline => .proveDecline p ⟨s.bond.epoch.getD 0, 1⟩
            (reasonCode ((s.pair p).declineOut.getD .state))
        | .proveEnd => .proveEnd p ⟨s.bond.epoch.getD 0, 3⟩ {
            verdict := verdictCode ((s.pair p).record.endSlot.getD ⟨.aborted, 0⟩).verdict
            delay := BitVec.ofNat 16 ((s.pair p).record.endSlot.getD ⟨.aborted, 0⟩).delay }) ∧
    (if (s.pair p).handover = none ∧ (s.pair p).line = true ∧ (s.pair p).state ≠ .absent ∧
        (s.pair p).state ≠ .down ∧ (s.pair p).state ≠ .quiet ∧ (s.pair p).state ≠ .barred then
      ((s.pair p).ControlKept → k ∈ (s.pair p).ctl → (∀ j ∈ (s.pair p).ctl, k.code ≤ j.code) →
        ((chooseHandover p s).pair p).handover = some ⟨ctlFragment s p k, (ctlFragment s p k).check⟩ ∧
        ((chooseHandover p s).pair p).ctl = (s.pair p).ctl.filter (· ≠ k) ∧
        ((chooseHandover p s).pair p).proveSlot = (s.pair p).proveSlot) ∧
      ((s.pair p).ctl = [] → (s.pair p).proveSlot = some m →
        ((chooseHandover p s).pair p).handover = some ⟨proveFragment s m, (proveFragment s m).check⟩ ∧
        ((chooseHandover p s).pair p).proveSlot = none) ∧
      ((s.pair p).ctl = [] → (s.pair p).proveSlot = none →
        ((s.pair p).state = .serving → (s.pair p).queue.head? = some e →
          ((chooseHandover p s).pair p).handover = some ⟨dataFragment s e, (dataFragment s e).check⟩ ∧
          ((chooseHandover p s).pair p).queue = (s.pair p).queue) ∧
        ((s.pair p).state ≠ .serving ∨ (s.pair p).queue = [] → chooseHandover p s = s))
    else chooseHandover p s = s) ∧
    ∀ c : ClassNo,
      ((∀ d ∈ (s.pair p).queue, d.cls ≠ c) → aliveHorizon s p c = (s.cls c).nextSeq) ∧
      ((∃ d ∈ (s.pair p).queue, d.cls = c) →
        ∃ d ∈ (s.pair p).queue, d.cls = c ∧ aliveHorizon s p c = d.seq ∧
          ∀ x ∈ (s.pair p).queue, x.cls = c → dist (s.cls c).nextSeq x.seq ≤ dist (s.cls c).nextSeq d.seq)

/-! ## Invariants and the reach of a command -/

/-- A command that is neither a request nor a physical reset changes no setting, no field of the sort table, no part
of the staging record, no strap and no cause record, and puts nothing in the queue of commands, while no RESET-PART is
pending (R1, R46, R59, R189, R201). -/
def Obligations.SettingsByRequestsAlone : Prop :=
  ∀ (c : Instr) (s : State), s.open → requestOf c = none → isResetCommand c = false →
    ∃ t, exec c s = .next t ∧ SettingsKept s t

/-- Every step keeps the reorder store in order (R110, R113, R117, R119): the quotas stay within their ranges and
their sum, and every held fragment stays ahead of next by less than its quota, no two of one sequence. -/
def Obligations.ReorderStoreKept : Prop :=
  ∀ (s t : State), QuotasHeld s ∧ ContextsOrdered s → step s = .next t → QuotasHeld t ∧ ContextsOrdered t

/-- Every step keeps R38's reading of the carried flag: while it is clear, every numbering is at 0. -/
def Obligations.CarriedMarksKept : Prop :=
  ∀ (s t : State), CarriedMarks s → step s = .next t → CarriedMarks t

/-- Every step keeps the bounds and the orders of the frame stores and the commit checks of the sort table (R46, R84,
R85, R147): at most 128 frames of 1-1600 octets, each class queue in order of urgency, at most 64 frames in the egress
queue, no entry that a commit would have refused, and the reply of a RESET-PART in them only while it is pending or
the part is held (R193, R194). -/
def Obligations.FrameStoresKept : Prop :=
  ∀ (s t : State),
    BufferBounded s ∧ QueuesByUrgency s ∧ EgressBounded s ∧ TableChecked s ∧ ResetRepliesGone s →
    step s = .next t →
    BufferBounded t ∧ QueuesByUrgency t ∧ EgressBounded t ∧ TableChecked t ∧ ResetRepliesGone t

/-- Every step keeps the transmit queues and the pending control sets (R1, R29, R77, R173, R174). -/
def Obligations.PairQueuesKept : Prop :=
  ∀ (s t : State), QueuesKept s ∧ ControlSetsKept s → step s = .next t → QueuesKept t ∧ ControlSetsKept t

/-- Every step keeps each pair's R within the range of its state, its timers running in their states alone, the
prove-wanted flag set in STANDBY alone, and a pair PROVING exactly while the engine holds a run on it (R7, R10, R68,
R70, R150, R163). -/
def Obligations.PairsStayCoherent : Prop :=
  ∀ (s t : State), PairsCoherent s → step s = .next t → PairsCoherent t
end

