-- ==== Sys2Proof/Laws/State.lean ====
section
/-! SUPPORT. What each plain update of the state leaves as it was, one lemma per field per update, and what reading one
pair unit, one class or one notice source after it gives. -/

namespace Sys2Proof.Laws
open Sys2Proof Sys2Proof.Machine

variable (s : State)

/-! ## `modPair` -/

@[simp] theorem modPair_now (p : PairNo) (f : PairUnit → PairUnit) : (modPair p f s).now = s.now := rfl
@[simp] theorem modPair_strapRole (p : PairNo) (f : PairUnit → PairUnit) : (modPair p f s).strapRole = s.strapRole := rfl
@[simp] theorem modPair_straps (p : PairNo) (f : PairUnit → PairUnit) : (modPair p f s).straps = s.straps := rfl
@[simp] theorem modPair_strapReads (p : PairNo) (f : PairUnit → PairUnit) : (modPair p f s).strapReads = s.strapReads := rfl
@[simp] theorem modPair_resets (p : PairNo) (f : PairUnit → PairUnit) : (modPair p f s).resets = s.resets := rfl
@[simp] theorem modPair_classes (p : PairNo) (f : PairUnit → PairUnit) : (modPair p f s).classes = s.classes := rfl
@[simp] theorem modPair_nextOrder (p : PairNo) (f : PairUnit → PairUnit) : (modPair p f s).nextOrder = s.nextOrder := rfl
@[simp] theorem modPair_bond (p : PairNo) (f : PairUnit → PairUnit) : (modPair p f s).bond = s.bond := rfl
@[simp] theorem modPair_engine (p : PairNo) (f : PairUnit → PairUnit) : (modPair p f s).engine = s.engine := rfl
@[simp] theorem modPair_classifier (p : PairNo) (f : PairUnit → PairUnit) : (modPair p f s).classifier = s.classifier := rfl
@[simp] theorem modPair_trunk (p : PairNo) (f : PairUnit → PairUnit) : (modPair p f s).trunk = s.trunk := rfl
@[simp] theorem modPair_agent (p : PairNo) (f : PairUnit → PairUnit) : (modPair p f s).agent = s.agent := rfl
@[simp] theorem modPair_cfg (p : PairNo) (f : PairUnit → PairUnit) : (modPair p f s).cfg = s.cfg := rfl
@[simp] theorem modPair_notices (p : PairNo) (f : PairUnit → PairUnit) : (modPair p f s).notices = s.notices := rfl
@[simp] theorem modPair_out (p : PairNo) (f : PairUnit → PairUnit) : (modPair p f s).out = s.out := rfl
@[simp] theorem modPair_pending (p : PairNo) (f : PairUnit → PairUnit) : (modPair p f s).pending = s.pending := rfl
@[simp] theorem modPair_cls (p : PairNo) (f : PairUnit → PairUnit) (d : ClassNo) : (modPair p f s).cls d = s.cls d := rfl
@[simp] theorem modPair_source (p : PairNo) (f : PairUnit → PairUnit) (x : Source) : (modPair p f s).source x = s.source x := rfl
@[simp] theorem modPair_horizon (p : PairNo) (f : PairUnit → PairUnit) (d : ClassNo) (q : PairNo) : (modPair p f s).horizon d q = s.horizon d q := rfl

/-! ## `modClass` -/

@[simp] theorem modClass_now (c : ClassNo) (f : ClassUnit → ClassUnit) : (modClass c f s).now = s.now := rfl
@[simp] theorem modClass_strapRole (c : ClassNo) (f : ClassUnit → ClassUnit) : (modClass c f s).strapRole = s.strapRole := rfl
@[simp] theorem modClass_straps (c : ClassNo) (f : ClassUnit → ClassUnit) : (modClass c f s).straps = s.straps := rfl
@[simp] theorem modClass_strapReads (c : ClassNo) (f : ClassUnit → ClassUnit) : (modClass c f s).strapReads = s.strapReads := rfl
@[simp] theorem modClass_resets (c : ClassNo) (f : ClassUnit → ClassUnit) : (modClass c f s).resets = s.resets := rfl
@[simp] theorem modClass_pairs (c : ClassNo) (f : ClassUnit → ClassUnit) : (modClass c f s).pairs = s.pairs := rfl
@[simp] theorem modClass_nextOrder (c : ClassNo) (f : ClassUnit → ClassUnit) : (modClass c f s).nextOrder = s.nextOrder := rfl
@[simp] theorem modClass_bond (c : ClassNo) (f : ClassUnit → ClassUnit) : (modClass c f s).bond = s.bond := rfl
@[simp] theorem modClass_engine (c : ClassNo) (f : ClassUnit → ClassUnit) : (modClass c f s).engine = s.engine := rfl
@[simp] theorem modClass_classifier (c : ClassNo) (f : ClassUnit → ClassUnit) : (modClass c f s).classifier = s.classifier := rfl
@[simp] theorem modClass_trunk (c : ClassNo) (f : ClassUnit → ClassUnit) : (modClass c f s).trunk = s.trunk := rfl
@[simp] theorem modClass_agent (c : ClassNo) (f : ClassUnit → ClassUnit) : (modClass c f s).agent = s.agent := rfl
@[simp] theorem modClass_cfg (c : ClassNo) (f : ClassUnit → ClassUnit) : (modClass c f s).cfg = s.cfg := rfl
@[simp] theorem modClass_notices (c : ClassNo) (f : ClassUnit → ClassUnit) : (modClass c f s).notices = s.notices := rfl
@[simp] theorem modClass_out (c : ClassNo) (f : ClassUnit → ClassUnit) : (modClass c f s).out = s.out := rfl
@[simp] theorem modClass_pending (c : ClassNo) (f : ClassUnit → ClassUnit) : (modClass c f s).pending = s.pending := rfl
@[simp] theorem modClass_pair (c : ClassNo) (f : ClassUnit → ClassUnit) (q : PairNo) : (modClass c f s).pair q = s.pair q := rfl
@[simp] theorem modClass_source (c : ClassNo) (f : ClassUnit → ClassUnit) (x : Source) : (modClass c f s).source x = s.source x := rfl

/-! ## `countPair` -/

@[simp] theorem countPair_now (p : PairNo) (f : PairCounters → PairCounters) : (countPair p f s).now = s.now := rfl
@[simp] theorem countPair_strapRole (p : PairNo) (f : PairCounters → PairCounters) : (countPair p f s).strapRole = s.strapRole := rfl
@[simp] theorem countPair_straps (p : PairNo) (f : PairCounters → PairCounters) : (countPair p f s).straps = s.straps := rfl
@[simp] theorem countPair_strapReads (p : PairNo) (f : PairCounters → PairCounters) : (countPair p f s).strapReads = s.strapReads := rfl
@[simp] theorem countPair_resets (p : PairNo) (f : PairCounters → PairCounters) : (countPair p f s).resets = s.resets := rfl
@[simp] theorem countPair_classes (p : PairNo) (f : PairCounters → PairCounters) : (countPair p f s).classes = s.classes := rfl
@[simp] theorem countPair_nextOrder (p : PairNo) (f : PairCounters → PairCounters) : (countPair p f s).nextOrder = s.nextOrder := rfl
@[simp] theorem countPair_bond (p : PairNo) (f : PairCounters → PairCounters) : (countPair p f s).bond = s.bond := rfl
@[simp] theorem countPair_engine (p : PairNo) (f : PairCounters → PairCounters) : (countPair p f s).engine = s.engine := rfl
@[simp] theorem countPair_classifier (p : PairNo) (f : PairCounters → PairCounters) : (countPair p f s).classifier = s.classifier := rfl
@[simp] theorem countPair_trunk (p : PairNo) (f : PairCounters → PairCounters) : (countPair p f s).trunk = s.trunk := rfl
@[simp] theorem countPair_agent (p : PairNo) (f : PairCounters → PairCounters) : (countPair p f s).agent = s.agent := rfl
@[simp] theorem countPair_cfg (p : PairNo) (f : PairCounters → PairCounters) : (countPair p f s).cfg = s.cfg := rfl
@[simp] theorem countPair_notices (p : PairNo) (f : PairCounters → PairCounters) : (countPair p f s).notices = s.notices := rfl
@[simp] theorem countPair_out (p : PairNo) (f : PairCounters → PairCounters) : (countPair p f s).out = s.out := rfl
@[simp] theorem countPair_pending (p : PairNo) (f : PairCounters → PairCounters) : (countPair p f s).pending = s.pending := rfl
@[simp] theorem countPair_cls (p : PairNo) (f : PairCounters → PairCounters) (d : ClassNo) : (countPair p f s).cls d = s.cls d := rfl
@[simp] theorem countPair_source (p : PairNo) (f : PairCounters → PairCounters) (x : Source) : (countPair p f s).source x = s.source x := rfl
@[simp] theorem countPair_horizon (p : PairNo) (f : PairCounters → PairCounters) (d : ClassNo) (q : PairNo) : (countPair p f s).horizon d q = s.horizon d q := rfl

/-! ## `countClass` -/

@[simp] theorem countClass_now (c : ClassNo) (f : ClassCounters → ClassCounters) : (countClass c f s).now = s.now := rfl
@[simp] theorem countClass_strapRole (c : ClassNo) (f : ClassCounters → ClassCounters) : (countClass c f s).strapRole = s.strapRole := rfl
@[simp] theorem countClass_straps (c : ClassNo) (f : ClassCounters → ClassCounters) : (countClass c f s).straps = s.straps := rfl
@[simp] theorem countClass_strapReads (c : ClassNo) (f : ClassCounters → ClassCounters) : (countClass c f s).strapReads = s.strapReads := rfl
@[simp] theorem countClass_resets (c : ClassNo) (f : ClassCounters → ClassCounters) : (countClass c f s).resets = s.resets := rfl
@[simp] theorem countClass_pairs (c : ClassNo) (f : ClassCounters → ClassCounters) : (countClass c f s).pairs = s.pairs := rfl
@[simp] theorem countClass_nextOrder (c : ClassNo) (f : ClassCounters → ClassCounters) : (countClass c f s).nextOrder = s.nextOrder := rfl
@[simp] theorem countClass_bond (c : ClassNo) (f : ClassCounters → ClassCounters) : (countClass c f s).bond = s.bond := rfl
@[simp] theorem countClass_engine (c : ClassNo) (f : ClassCounters → ClassCounters) : (countClass c f s).engine = s.engine := rfl
@[simp] theorem countClass_classifier (c : ClassNo) (f : ClassCounters → ClassCounters) : (countClass c f s).classifier = s.classifier := rfl
@[simp] theorem countClass_trunk (c : ClassNo) (f : ClassCounters → ClassCounters) : (countClass c f s).trunk = s.trunk := rfl
@[simp] theorem countClass_agent (c : ClassNo) (f : ClassCounters → ClassCounters) : (countClass c f s).agent = s.agent := rfl
@[simp] theorem countClass_cfg (c : ClassNo) (f : ClassCounters → ClassCounters) : (countClass c f s).cfg = s.cfg := rfl
@[simp] theorem countClass_notices (c : ClassNo) (f : ClassCounters → ClassCounters) : (countClass c f s).notices = s.notices := rfl
@[simp] theorem countClass_out (c : ClassNo) (f : ClassCounters → ClassCounters) : (countClass c f s).out = s.out := rfl
@[simp] theorem countClass_pending (c : ClassNo) (f : ClassCounters → ClassCounters) : (countClass c f s).pending = s.pending := rfl
@[simp] theorem countClass_pair (c : ClassNo) (f : ClassCounters → ClassCounters) (q : PairNo) : (countClass c f s).pair q = s.pair q := rfl
@[simp] theorem countClass_source (c : ClassNo) (f : ClassCounters → ClassCounters) (x : Source) : (countClass c f s).source x = s.source x := rfl

/-! ## `countTrunk` -/

@[simp] theorem countTrunk_now (f : TrunkCounters → TrunkCounters) : (countTrunk f s).now = s.now := rfl
@[simp] theorem countTrunk_strapRole (f : TrunkCounters → TrunkCounters) : (countTrunk f s).strapRole = s.strapRole := rfl
@[simp] theorem countTrunk_straps (f : TrunkCounters → TrunkCounters) : (countTrunk f s).straps = s.straps := rfl
@[simp] theorem countTrunk_strapReads (f : TrunkCounters → TrunkCounters) : (countTrunk f s).strapReads = s.strapReads := rfl
@[simp] theorem countTrunk_resets (f : TrunkCounters → TrunkCounters) : (countTrunk f s).resets = s.resets := rfl
@[simp] theorem countTrunk_pairs (f : TrunkCounters → TrunkCounters) : (countTrunk f s).pairs = s.pairs := rfl
@[simp] theorem countTrunk_classes (f : TrunkCounters → TrunkCounters) : (countTrunk f s).classes = s.classes := rfl
@[simp] theorem countTrunk_nextOrder (f : TrunkCounters → TrunkCounters) : (countTrunk f s).nextOrder = s.nextOrder := rfl
@[simp] theorem countTrunk_bond (f : TrunkCounters → TrunkCounters) : (countTrunk f s).bond = s.bond := rfl
@[simp] theorem countTrunk_engine (f : TrunkCounters → TrunkCounters) : (countTrunk f s).engine = s.engine := rfl
@[simp] theorem countTrunk_classifier (f : TrunkCounters → TrunkCounters) : (countTrunk f s).classifier = s.classifier := rfl
@[simp] theorem countTrunk_agent (f : TrunkCounters → TrunkCounters) : (countTrunk f s).agent = s.agent := rfl
@[simp] theorem countTrunk_cfg (f : TrunkCounters → TrunkCounters) : (countTrunk f s).cfg = s.cfg := rfl
@[simp] theorem countTrunk_notices (f : TrunkCounters → TrunkCounters) : (countTrunk f s).notices = s.notices := rfl
@[simp] theorem countTrunk_out (f : TrunkCounters → TrunkCounters) : (countTrunk f s).out = s.out := rfl
@[simp] theorem countTrunk_pending (f : TrunkCounters → TrunkCounters) : (countTrunk f s).pending = s.pending := rfl
@[simp] theorem countTrunk_pair (f : TrunkCounters → TrunkCounters) (q : PairNo) : (countTrunk f s).pair q = s.pair q := rfl
@[simp] theorem countTrunk_cls (f : TrunkCounters → TrunkCounters) (d : ClassNo) : (countTrunk f s).cls d = s.cls d := rfl
@[simp] theorem countTrunk_source (f : TrunkCounters → TrunkCounters) (x : Source) : (countTrunk f s).source x = s.source x := rfl
@[simp] theorem countTrunk_horizon (f : TrunkCounters → TrunkCounters) (d : ClassNo) (q : PairNo) : (countTrunk f s).horizon d q = s.horizon d q := rfl

/-! ## `emit` -/

@[simp] theorem emit_now (o : Output) : (emit o s).now = s.now := rfl
@[simp] theorem emit_strapRole (o : Output) : (emit o s).strapRole = s.strapRole := rfl
@[simp] theorem emit_straps (o : Output) : (emit o s).straps = s.straps := rfl
@[simp] theorem emit_strapReads (o : Output) : (emit o s).strapReads = s.strapReads := rfl
@[simp] theorem emit_resets (o : Output) : (emit o s).resets = s.resets := rfl
@[simp] theorem emit_pairs (o : Output) : (emit o s).pairs = s.pairs := rfl
@[simp] theorem emit_classes (o : Output) : (emit o s).classes = s.classes := rfl
@[simp] theorem emit_nextOrder (o : Output) : (emit o s).nextOrder = s.nextOrder := rfl
@[simp] theorem emit_bond (o : Output) : (emit o s).bond = s.bond := rfl
@[simp] theorem emit_engine (o : Output) : (emit o s).engine = s.engine := rfl
@[simp] theorem emit_classifier (o : Output) : (emit o s).classifier = s.classifier := rfl
@[simp] theorem emit_trunk (o : Output) : (emit o s).trunk = s.trunk := rfl
@[simp] theorem emit_agent (o : Output) : (emit o s).agent = s.agent := rfl
@[simp] theorem emit_cfg (o : Output) : (emit o s).cfg = s.cfg := rfl
@[simp] theorem emit_notices (o : Output) : (emit o s).notices = s.notices := rfl
@[simp] theorem emit_pending (o : Output) : (emit o s).pending = s.pending := rfl
@[simp] theorem emit_pair (o : Output) (q : PairNo) : (emit o s).pair q = s.pair q := rfl
@[simp] theorem emit_cls (o : Output) (d : ClassNo) : (emit o s).cls d = s.cls d := rfl
@[simp] theorem emit_source (o : Output) (x : Source) : (emit o s).source x = s.source x := rfl
@[simp] theorem emit_horizon (o : Output) (d : ClassNo) (q : PairNo) : (emit o s).horizon d q = s.horizon d q := rfl

/-! ## `tell` -/

@[simp] theorem tell_now (p : PairNo) (c : Control) : (tell p c s).now = s.now := rfl
@[simp] theorem tell_strapRole (p : PairNo) (c : Control) : (tell p c s).strapRole = s.strapRole := rfl
@[simp] theorem tell_straps (p : PairNo) (c : Control) : (tell p c s).straps = s.straps := rfl
@[simp] theorem tell_strapReads (p : PairNo) (c : Control) : (tell p c s).strapReads = s.strapReads := rfl
@[simp] theorem tell_resets (p : PairNo) (c : Control) : (tell p c s).resets = s.resets := rfl
@[simp] theorem tell_classes (p : PairNo) (c : Control) : (tell p c s).classes = s.classes := rfl
@[simp] theorem tell_nextOrder (p : PairNo) (c : Control) : (tell p c s).nextOrder = s.nextOrder := rfl
@[simp] theorem tell_bond (p : PairNo) (c : Control) : (tell p c s).bond = s.bond := rfl
@[simp] theorem tell_engine (p : PairNo) (c : Control) : (tell p c s).engine = s.engine := rfl
@[simp] theorem tell_classifier (p : PairNo) (c : Control) : (tell p c s).classifier = s.classifier := rfl
@[simp] theorem tell_trunk (p : PairNo) (c : Control) : (tell p c s).trunk = s.trunk := rfl
@[simp] theorem tell_agent (p : PairNo) (c : Control) : (tell p c s).agent = s.agent := rfl
@[simp] theorem tell_cfg (p : PairNo) (c : Control) : (tell p c s).cfg = s.cfg := rfl
@[simp] theorem tell_notices (p : PairNo) (c : Control) : (tell p c s).notices = s.notices := rfl
@[simp] theorem tell_pending (p : PairNo) (c : Control) : (tell p c s).pending = s.pending := rfl
@[simp] theorem tell_cls (p : PairNo) (c : Control) (d : ClassNo) : (tell p c s).cls d = s.cls d := rfl
@[simp] theorem tell_source (p : PairNo) (c : Control) (x : Source) : (tell p c s).source x = s.source x := rfl
@[simp] theorem tell_horizon (p : PairNo) (c : Control) (d : ClassNo) (q : PairNo) : (tell p c s).horizon d q = s.horizon d q := rfl

/-! ## `reach` -/

@[simp] theorem reach_strapRole (t : Timer) : (reach t s).strapRole = s.strapRole := rfl
@[simp] theorem reach_straps (t : Timer) : (reach t s).straps = s.straps := rfl
@[simp] theorem reach_strapReads (t : Timer) : (reach t s).strapReads = s.strapReads := rfl
@[simp] theorem reach_resets (t : Timer) : (reach t s).resets = s.resets := rfl
@[simp] theorem reach_pairs (t : Timer) : (reach t s).pairs = s.pairs := rfl
@[simp] theorem reach_classes (t : Timer) : (reach t s).classes = s.classes := rfl
@[simp] theorem reach_nextOrder (t : Timer) : (reach t s).nextOrder = s.nextOrder := rfl
@[simp] theorem reach_bond (t : Timer) : (reach t s).bond = s.bond := rfl
@[simp] theorem reach_engine (t : Timer) : (reach t s).engine = s.engine := rfl
@[simp] theorem reach_classifier (t : Timer) : (reach t s).classifier = s.classifier := rfl
@[simp] theorem reach_trunk (t : Timer) : (reach t s).trunk = s.trunk := rfl
@[simp] theorem reach_agent (t : Timer) : (reach t s).agent = s.agent := rfl
@[simp] theorem reach_cfg (t : Timer) : (reach t s).cfg = s.cfg := rfl
@[simp] theorem reach_notices (t : Timer) : (reach t s).notices = s.notices := rfl
@[simp] theorem reach_out (t : Timer) : (reach t s).out = s.out := rfl
@[simp] theorem reach_pending (t : Timer) : (reach t s).pending = s.pending := rfl
@[simp] theorem reach_pair (t : Timer) (q : PairNo) : (reach t s).pair q = s.pair q := rfl
@[simp] theorem reach_cls (t : Timer) (d : ClassNo) : (reach t s).cls d = s.cls d := rfl
@[simp] theorem reach_source (t : Timer) (x : Source) : (reach t s).source x = s.source x := rfl
@[simp] theorem reach_horizon (t : Timer) (d : ClassNo) (q : PairNo) : (reach t s).horizon d q = s.horizon d q := rfl

/-! ## `modSource` -/

@[simp] theorem modSource_now (src : Source) (f : SourceUnit → SourceUnit) : (modSource src f s).now = s.now := rfl
@[simp] theorem modSource_strapRole (src : Source) (f : SourceUnit → SourceUnit) : (modSource src f s).strapRole = s.strapRole := rfl
@[simp] theorem modSource_straps (src : Source) (f : SourceUnit → SourceUnit) : (modSource src f s).straps = s.straps := rfl
@[simp] theorem modSource_strapReads (src : Source) (f : SourceUnit → SourceUnit) : (modSource src f s).strapReads = s.strapReads := rfl
@[simp] theorem modSource_resets (src : Source) (f : SourceUnit → SourceUnit) : (modSource src f s).resets = s.resets := rfl
@[simp] theorem modSource_pairs (src : Source) (f : SourceUnit → SourceUnit) : (modSource src f s).pairs = s.pairs := rfl
@[simp] theorem modSource_classes (src : Source) (f : SourceUnit → SourceUnit) : (modSource src f s).classes = s.classes := rfl
@[simp] theorem modSource_nextOrder (src : Source) (f : SourceUnit → SourceUnit) : (modSource src f s).nextOrder = s.nextOrder := rfl
@[simp] theorem modSource_bond (src : Source) (f : SourceUnit → SourceUnit) : (modSource src f s).bond = s.bond := rfl
@[simp] theorem modSource_engine (src : Source) (f : SourceUnit → SourceUnit) : (modSource src f s).engine = s.engine := rfl
@[simp] theorem modSource_classifier (src : Source) (f : SourceUnit → SourceUnit) : (modSource src f s).classifier = s.classifier := rfl
@[simp] theorem modSource_trunk (src : Source) (f : SourceUnit → SourceUnit) : (modSource src f s).trunk = s.trunk := rfl
@[simp] theorem modSource_agent (src : Source) (f : SourceUnit → SourceUnit) : (modSource src f s).agent = s.agent := rfl
@[simp] theorem modSource_cfg (src : Source) (f : SourceUnit → SourceUnit) : (modSource src f s).cfg = s.cfg := rfl
@[simp] theorem modSource_out (src : Source) (f : SourceUnit → SourceUnit) : (modSource src f s).out = s.out := rfl
@[simp] theorem modSource_pending (src : Source) (f : SourceUnit → SourceUnit) : (modSource src f s).pending = s.pending := rfl
@[simp] theorem modSource_pair (src : Source) (f : SourceUnit → SourceUnit) (q : PairNo) : (modSource src f s).pair q = s.pair q := rfl
@[simp] theorem modSource_cls (src : Source) (f : SourceUnit → SourceUnit) (d : ClassNo) : (modSource src f s).cls d = s.cls d := rfl
@[simp] theorem modSource_horizon (src : Source) (f : SourceUnit → SourceUnit) (d : ClassNo) (q : PairNo) : (modSource src f s).horizon d q = s.horizon d q := rfl

/-! ## `raiseNotice` -/

@[simp] theorem raiseNotice_now (src : Source) (a : NoticeArg) : (raiseNotice src a s).now = s.now := rfl
@[simp] theorem raiseNotice_strapRole (src : Source) (a : NoticeArg) : (raiseNotice src a s).strapRole = s.strapRole := rfl
@[simp] theorem raiseNotice_straps (src : Source) (a : NoticeArg) : (raiseNotice src a s).straps = s.straps := rfl
@[simp] theorem raiseNotice_strapReads (src : Source) (a : NoticeArg) : (raiseNotice src a s).strapReads = s.strapReads := rfl
@[simp] theorem raiseNotice_resets (src : Source) (a : NoticeArg) : (raiseNotice src a s).resets = s.resets := rfl
@[simp] theorem raiseNotice_pairs (src : Source) (a : NoticeArg) : (raiseNotice src a s).pairs = s.pairs := rfl
@[simp] theorem raiseNotice_classes (src : Source) (a : NoticeArg) : (raiseNotice src a s).classes = s.classes := rfl
@[simp] theorem raiseNotice_nextOrder (src : Source) (a : NoticeArg) : (raiseNotice src a s).nextOrder = s.nextOrder := rfl
@[simp] theorem raiseNotice_bond (src : Source) (a : NoticeArg) : (raiseNotice src a s).bond = s.bond := rfl
@[simp] theorem raiseNotice_engine (src : Source) (a : NoticeArg) : (raiseNotice src a s).engine = s.engine := rfl
@[simp] theorem raiseNotice_classifier (src : Source) (a : NoticeArg) : (raiseNotice src a s).classifier = s.classifier := rfl
@[simp] theorem raiseNotice_trunk (src : Source) (a : NoticeArg) : (raiseNotice src a s).trunk = s.trunk := rfl
@[simp] theorem raiseNotice_agent (src : Source) (a : NoticeArg) : (raiseNotice src a s).agent = s.agent := rfl
@[simp] theorem raiseNotice_cfg (src : Source) (a : NoticeArg) : (raiseNotice src a s).cfg = s.cfg := rfl
@[simp] theorem raiseNotice_out (src : Source) (a : NoticeArg) : (raiseNotice src a s).out = s.out := rfl
@[simp] theorem raiseNotice_pending (src : Source) (a : NoticeArg) : (raiseNotice src a s).pending = s.pending := rfl
@[simp] theorem raiseNotice_pair (src : Source) (a : NoticeArg) (q : PairNo) : (raiseNotice src a s).pair q = s.pair q := rfl
@[simp] theorem raiseNotice_cls (src : Source) (a : NoticeArg) (d : ClassNo) : (raiseNotice src a s).cls d = s.cls d := rfl
@[simp] theorem raiseNotice_horizon (src : Source) (a : NoticeArg) (d : ClassNo) (q : PairNo) : (raiseNotice src a s).horizon d q = s.horizon d q := rfl

/-! ## `raiseForPair` -/

@[simp] theorem raiseForPair_now (src : Source) (p : PairNo) : (raiseForPair src p s).now = s.now := rfl
@[simp] theorem raiseForPair_strapRole (src : Source) (p : PairNo) : (raiseForPair src p s).strapRole = s.strapRole := rfl
@[simp] theorem raiseForPair_straps (src : Source) (p : PairNo) : (raiseForPair src p s).straps = s.straps := rfl
@[simp] theorem raiseForPair_strapReads (src : Source) (p : PairNo) : (raiseForPair src p s).strapReads = s.strapReads := rfl
@[simp] theorem raiseForPair_resets (src : Source) (p : PairNo) : (raiseForPair src p s).resets = s.resets := rfl
@[simp] theorem raiseForPair_pairs (src : Source) (p : PairNo) : (raiseForPair src p s).pairs = s.pairs := rfl
@[simp] theorem raiseForPair_classes (src : Source) (p : PairNo) : (raiseForPair src p s).classes = s.classes := rfl
@[simp] theorem raiseForPair_nextOrder (src : Source) (p : PairNo) : (raiseForPair src p s).nextOrder = s.nextOrder := rfl
@[simp] theorem raiseForPair_bond (src : Source) (p : PairNo) : (raiseForPair src p s).bond = s.bond := rfl
@[simp] theorem raiseForPair_engine (src : Source) (p : PairNo) : (raiseForPair src p s).engine = s.engine := rfl
@[simp] theorem raiseForPair_classifier (src : Source) (p : PairNo) : (raiseForPair src p s).classifier = s.classifier := rfl
@[simp] theorem raiseForPair_trunk (src : Source) (p : PairNo) : (raiseForPair src p s).trunk = s.trunk := rfl
@[simp] theorem raiseForPair_agent (src : Source) (p : PairNo) : (raiseForPair src p s).agent = s.agent := rfl
@[simp] theorem raiseForPair_cfg (src : Source) (p : PairNo) : (raiseForPair src p s).cfg = s.cfg := rfl
@[simp] theorem raiseForPair_out (src : Source) (p : PairNo) : (raiseForPair src p s).out = s.out := rfl
@[simp] theorem raiseForPair_pending (src : Source) (p : PairNo) : (raiseForPair src p s).pending = s.pending := rfl
@[simp] theorem raiseForPair_pair (src : Source) (p : PairNo) (q : PairNo) : (raiseForPair src p s).pair q = s.pair q := rfl
@[simp] theorem raiseForPair_cls (src : Source) (p : PairNo) (d : ClassNo) : (raiseForPair src p s).cls d = s.cls d := rfl
@[simp] theorem raiseForPair_horizon (src : Source) (p : PairNo) (d : ClassNo) (q : PairNo) : (raiseForPair src p s).horizon d q = s.horizon d q := rfl

/-! ## `raiseCtl` -/

@[simp] theorem raiseCtl_now (k : Ctl) (p : PairNo) : (raiseCtl k p s).now = s.now := rfl
@[simp] theorem raiseCtl_strapRole (k : Ctl) (p : PairNo) : (raiseCtl k p s).strapRole = s.strapRole := rfl
@[simp] theorem raiseCtl_straps (k : Ctl) (p : PairNo) : (raiseCtl k p s).straps = s.straps := rfl
@[simp] theorem raiseCtl_strapReads (k : Ctl) (p : PairNo) : (raiseCtl k p s).strapReads = s.strapReads := rfl
@[simp] theorem raiseCtl_resets (k : Ctl) (p : PairNo) : (raiseCtl k p s).resets = s.resets := rfl
@[simp] theorem raiseCtl_classes (k : Ctl) (p : PairNo) : (raiseCtl k p s).classes = s.classes := rfl
@[simp] theorem raiseCtl_nextOrder (k : Ctl) (p : PairNo) : (raiseCtl k p s).nextOrder = s.nextOrder := rfl
@[simp] theorem raiseCtl_bond (k : Ctl) (p : PairNo) : (raiseCtl k p s).bond = s.bond := rfl
@[simp] theorem raiseCtl_engine (k : Ctl) (p : PairNo) : (raiseCtl k p s).engine = s.engine := rfl
@[simp] theorem raiseCtl_classifier (k : Ctl) (p : PairNo) : (raiseCtl k p s).classifier = s.classifier := rfl
@[simp] theorem raiseCtl_trunk (k : Ctl) (p : PairNo) : (raiseCtl k p s).trunk = s.trunk := rfl
@[simp] theorem raiseCtl_agent (k : Ctl) (p : PairNo) : (raiseCtl k p s).agent = s.agent := rfl
@[simp] theorem raiseCtl_cfg (k : Ctl) (p : PairNo) : (raiseCtl k p s).cfg = s.cfg := rfl
@[simp] theorem raiseCtl_notices (k : Ctl) (p : PairNo) : (raiseCtl k p s).notices = s.notices := rfl
@[simp] theorem raiseCtl_out (k : Ctl) (p : PairNo) : (raiseCtl k p s).out = s.out := rfl
@[simp] theorem raiseCtl_pending (k : Ctl) (p : PairNo) : (raiseCtl k p s).pending = s.pending := rfl
@[simp] theorem raiseCtl_cls (k : Ctl) (p : PairNo) (d : ClassNo) : (raiseCtl k p s).cls d = s.cls d := rfl
@[simp] theorem raiseCtl_source (k : Ctl) (p : PairNo) (x : Source) : (raiseCtl k p s).source x = s.source x := rfl
@[simp] theorem raiseCtl_horizon (k : Ctl) (p : PairNo) (d : ClassNo) (q : PairNo) : (raiseCtl k p s).horizon d q = s.horizon d q := rfl

/-! ## `enterState` -/

@[simp] theorem enterState_now (p : PairNo) (st : PairState) : (enterState p st s).now = s.now := rfl
@[simp] theorem enterState_strapRole (p : PairNo) (st : PairState) : (enterState p st s).strapRole = s.strapRole := rfl
@[simp] theorem enterState_straps (p : PairNo) (st : PairState) : (enterState p st s).straps = s.straps := rfl
@[simp] theorem enterState_strapReads (p : PairNo) (st : PairState) : (enterState p st s).strapReads = s.strapReads := rfl
@[simp] theorem enterState_resets (p : PairNo) (st : PairState) : (enterState p st s).resets = s.resets := rfl
@[simp] theorem enterState_classes (p : PairNo) (st : PairState) : (enterState p st s).classes = s.classes := rfl
@[simp] theorem enterState_nextOrder (p : PairNo) (st : PairState) : (enterState p st s).nextOrder = s.nextOrder := rfl
@[simp] theorem enterState_bond (p : PairNo) (st : PairState) : (enterState p st s).bond = s.bond := rfl
@[simp] theorem enterState_engine (p : PairNo) (st : PairState) : (enterState p st s).engine = s.engine := rfl
@[simp] theorem enterState_classifier (p : PairNo) (st : PairState) : (enterState p st s).classifier = s.classifier := rfl
@[simp] theorem enterState_trunk (p : PairNo) (st : PairState) : (enterState p st s).trunk = s.trunk := rfl
@[simp] theorem enterState_agent (p : PairNo) (st : PairState) : (enterState p st s).agent = s.agent := rfl
@[simp] theorem enterState_cfg (p : PairNo) (st : PairState) : (enterState p st s).cfg = s.cfg := rfl
@[simp] theorem enterState_notices (p : PairNo) (st : PairState) : (enterState p st s).notices = s.notices := rfl
@[simp] theorem enterState_out (p : PairNo) (st : PairState) : (enterState p st s).out = s.out := rfl
@[simp] theorem enterState_pending (p : PairNo) (st : PairState) : (enterState p st s).pending = s.pending := rfl
@[simp] theorem enterState_cls (p : PairNo) (st : PairState) (d : ClassNo) : (enterState p st s).cls d = s.cls d := rfl
@[simp] theorem enterState_source (p : PairNo) (st : PairState) (x : Source) : (enterState p st s).source x = s.source x := rfl
@[simp] theorem enterState_horizon (p : PairNo) (st : PairState) (d : ClassNo) (q : PairNo) : (enterState p st s).horizon d q = s.horizon d q := rfl

/-! ## `setHorizon` -/

@[simp] theorem setHorizon_now (c : ClassNo) (p : PairNo) (h : Option Seq) : (setHorizon c p h s).now = s.now := rfl
@[simp] theorem setHorizon_strapRole (c : ClassNo) (p : PairNo) (h : Option Seq) : (setHorizon c p h s).strapRole = s.strapRole := rfl
@[simp] theorem setHorizon_straps (c : ClassNo) (p : PairNo) (h : Option Seq) : (setHorizon c p h s).straps = s.straps := rfl
@[simp] theorem setHorizon_strapReads (c : ClassNo) (p : PairNo) (h : Option Seq) : (setHorizon c p h s).strapReads = s.strapReads := rfl
@[simp] theorem setHorizon_resets (c : ClassNo) (p : PairNo) (h : Option Seq) : (setHorizon c p h s).resets = s.resets := rfl
@[simp] theorem setHorizon_pairs (c : ClassNo) (p : PairNo) (h : Option Seq) : (setHorizon c p h s).pairs = s.pairs := rfl
@[simp] theorem setHorizon_nextOrder (c : ClassNo) (p : PairNo) (h : Option Seq) : (setHorizon c p h s).nextOrder = s.nextOrder := rfl
@[simp] theorem setHorizon_bond (c : ClassNo) (p : PairNo) (h : Option Seq) : (setHorizon c p h s).bond = s.bond := rfl
@[simp] theorem setHorizon_engine (c : ClassNo) (p : PairNo) (h : Option Seq) : (setHorizon c p h s).engine = s.engine := rfl
@[simp] theorem setHorizon_classifier (c : ClassNo) (p : PairNo) (h : Option Seq) : (setHorizon c p h s).classifier = s.classifier := rfl
@[simp] theorem setHorizon_trunk (c : ClassNo) (p : PairNo) (h : Option Seq) : (setHorizon c p h s).trunk = s.trunk := rfl
@[simp] theorem setHorizon_agent (c : ClassNo) (p : PairNo) (h : Option Seq) : (setHorizon c p h s).agent = s.agent := rfl
@[simp] theorem setHorizon_cfg (c : ClassNo) (p : PairNo) (h : Option Seq) : (setHorizon c p h s).cfg = s.cfg := rfl
@[simp] theorem setHorizon_notices (c : ClassNo) (p : PairNo) (h : Option Seq) : (setHorizon c p h s).notices = s.notices := rfl
@[simp] theorem setHorizon_out (c : ClassNo) (p : PairNo) (h : Option Seq) : (setHorizon c p h s).out = s.out := rfl
@[simp] theorem setHorizon_pending (c : ClassNo) (p : PairNo) (h : Option Seq) : (setHorizon c p h s).pending = s.pending := rfl
@[simp] theorem setHorizon_pair (c : ClassNo) (p : PairNo) (h : Option Seq) (q : PairNo) : (setHorizon c p h s).pair q = s.pair q := rfl
@[simp] theorem setHorizon_source (c : ClassNo) (p : PairNo) (h : Option Seq) (x : Source) : (setHorizon c p h s).source x = s.source x := rfl

/-! ## `setCarried` -/

@[simp] theorem setCarried_now : (setCarried s).now = s.now := rfl
@[simp] theorem setCarried_strapRole : (setCarried s).strapRole = s.strapRole := rfl
@[simp] theorem setCarried_straps : (setCarried s).straps = s.straps := rfl
@[simp] theorem setCarried_strapReads : (setCarried s).strapReads = s.strapReads := rfl
@[simp] theorem setCarried_resets : (setCarried s).resets = s.resets := rfl
@[simp] theorem setCarried_pairs : (setCarried s).pairs = s.pairs := rfl
@[simp] theorem setCarried_classes : (setCarried s).classes = s.classes := rfl
@[simp] theorem setCarried_nextOrder : (setCarried s).nextOrder = s.nextOrder := rfl
@[simp] theorem setCarried_engine : (setCarried s).engine = s.engine := rfl
@[simp] theorem setCarried_classifier : (setCarried s).classifier = s.classifier := rfl
@[simp] theorem setCarried_trunk : (setCarried s).trunk = s.trunk := rfl
@[simp] theorem setCarried_agent : (setCarried s).agent = s.agent := rfl
@[simp] theorem setCarried_cfg : (setCarried s).cfg = s.cfg := rfl
@[simp] theorem setCarried_notices : (setCarried s).notices = s.notices := rfl
@[simp] theorem setCarried_out : (setCarried s).out = s.out := rfl
@[simp] theorem setCarried_pending : (setCarried s).pending = s.pending := rfl
@[simp] theorem setCarried_pair (q : PairNo) : (setCarried s).pair q = s.pair q := rfl
@[simp] theorem setCarried_cls (d : ClassNo) : (setCarried s).cls d = s.cls d := rfl
@[simp] theorem setCarried_source (x : Source) : (setCarried s).source x = s.source x := rfl
@[simp] theorem setCarried_horizon (d : ClassNo) (q : PairNo) : (setCarried s).horizon d q = s.horizon d q := rfl

/-! ## `setReasm` -/

@[simp] theorem setReasm_now (c : ClassNo) (r : Reasm) : (setReasm c r s).now = s.now := rfl
@[simp] theorem setReasm_strapRole (c : ClassNo) (r : Reasm) : (setReasm c r s).strapRole = s.strapRole := rfl
@[simp] theorem setReasm_straps (c : ClassNo) (r : Reasm) : (setReasm c r s).straps = s.straps := rfl
@[simp] theorem setReasm_strapReads (c : ClassNo) (r : Reasm) : (setReasm c r s).strapReads = s.strapReads := rfl
@[simp] theorem setReasm_resets (c : ClassNo) (r : Reasm) : (setReasm c r s).resets = s.resets := rfl
@[simp] theorem setReasm_pairs (c : ClassNo) (r : Reasm) : (setReasm c r s).pairs = s.pairs := rfl
@[simp] theorem setReasm_nextOrder (c : ClassNo) (r : Reasm) : (setReasm c r s).nextOrder = s.nextOrder := rfl
@[simp] theorem setReasm_bond (c : ClassNo) (r : Reasm) : (setReasm c r s).bond = s.bond := rfl
@[simp] theorem setReasm_engine (c : ClassNo) (r : Reasm) : (setReasm c r s).engine = s.engine := rfl
@[simp] theorem setReasm_classifier (c : ClassNo) (r : Reasm) : (setReasm c r s).classifier = s.classifier := rfl
@[simp] theorem setReasm_trunk (c : ClassNo) (r : Reasm) : (setReasm c r s).trunk = s.trunk := rfl
@[simp] theorem setReasm_agent (c : ClassNo) (r : Reasm) : (setReasm c r s).agent = s.agent := rfl
@[simp] theorem setReasm_cfg (c : ClassNo) (r : Reasm) : (setReasm c r s).cfg = s.cfg := rfl
@[simp] theorem setReasm_notices (c : ClassNo) (r : Reasm) : (setReasm c r s).notices = s.notices := rfl
@[simp] theorem setReasm_out (c : ClassNo) (r : Reasm) : (setReasm c r s).out = s.out := rfl
@[simp] theorem setReasm_pending (c : ClassNo) (r : Reasm) : (setReasm c r s).pending = s.pending := rfl
@[simp] theorem setReasm_pair (c : ClassNo) (r : Reasm) (q : PairNo) : (setReasm c r s).pair q = s.pair q := rfl
@[simp] theorem setReasm_source (c : ClassNo) (r : Reasm) (x : Source) : (setReasm c r s).source x = s.source x := rfl

/-! ## `append` -/

@[simp] theorem append_now (p : PairNo) (e : Desc) : (append p e s).now = s.now := rfl
@[simp] theorem append_strapRole (p : PairNo) (e : Desc) : (append p e s).strapRole = s.strapRole := rfl
@[simp] theorem append_straps (p : PairNo) (e : Desc) : (append p e s).straps = s.straps := rfl
@[simp] theorem append_strapReads (p : PairNo) (e : Desc) : (append p e s).strapReads = s.strapReads := rfl
@[simp] theorem append_resets (p : PairNo) (e : Desc) : (append p e s).resets = s.resets := rfl
@[simp] theorem append_classes (p : PairNo) (e : Desc) : (append p e s).classes = s.classes := rfl
@[simp] theorem append_nextOrder (p : PairNo) (e : Desc) : (append p e s).nextOrder = s.nextOrder := rfl
@[simp] theorem append_bond (p : PairNo) (e : Desc) : (append p e s).bond = s.bond := rfl
@[simp] theorem append_engine (p : PairNo) (e : Desc) : (append p e s).engine = s.engine := rfl
@[simp] theorem append_classifier (p : PairNo) (e : Desc) : (append p e s).classifier = s.classifier := rfl
@[simp] theorem append_trunk (p : PairNo) (e : Desc) : (append p e s).trunk = s.trunk := rfl
@[simp] theorem append_agent (p : PairNo) (e : Desc) : (append p e s).agent = s.agent := rfl
@[simp] theorem append_cfg (p : PairNo) (e : Desc) : (append p e s).cfg = s.cfg := rfl
@[simp] theorem append_notices (p : PairNo) (e : Desc) : (append p e s).notices = s.notices := rfl
@[simp] theorem append_out (p : PairNo) (e : Desc) : (append p e s).out = s.out := rfl
@[simp] theorem append_pending (p : PairNo) (e : Desc) : (append p e s).pending = s.pending := rfl
@[simp] theorem append_cls (p : PairNo) (e : Desc) (d : ClassNo) : (append p e s).cls d = s.cls d := rfl
@[simp] theorem append_source (p : PairNo) (e : Desc) (x : Source) : (append p e s).source x = s.source x := rfl
@[simp] theorem append_horizon (p : PairNo) (e : Desc) (d : ClassNo) (q : PairNo) : (append p e s).horizon d q = s.horizon d q := rfl

/-! ## `modEntry` -/

@[simp] theorem modEntry_now (i : Fin 32) (f : Entry → Entry) : (modEntry i f s).now = s.now := rfl
@[simp] theorem modEntry_strapRole (i : Fin 32) (f : Entry → Entry) : (modEntry i f s).strapRole = s.strapRole := rfl
@[simp] theorem modEntry_straps (i : Fin 32) (f : Entry → Entry) : (modEntry i f s).straps = s.straps := rfl
@[simp] theorem modEntry_strapReads (i : Fin 32) (f : Entry → Entry) : (modEntry i f s).strapReads = s.strapReads := rfl
@[simp] theorem modEntry_resets (i : Fin 32) (f : Entry → Entry) : (modEntry i f s).resets = s.resets := rfl
@[simp] theorem modEntry_pairs (i : Fin 32) (f : Entry → Entry) : (modEntry i f s).pairs = s.pairs := rfl
@[simp] theorem modEntry_classes (i : Fin 32) (f : Entry → Entry) : (modEntry i f s).classes = s.classes := rfl
@[simp] theorem modEntry_nextOrder (i : Fin 32) (f : Entry → Entry) : (modEntry i f s).nextOrder = s.nextOrder := rfl
@[simp] theorem modEntry_bond (i : Fin 32) (f : Entry → Entry) : (modEntry i f s).bond = s.bond := rfl
@[simp] theorem modEntry_engine (i : Fin 32) (f : Entry → Entry) : (modEntry i f s).engine = s.engine := rfl
@[simp] theorem modEntry_trunk (i : Fin 32) (f : Entry → Entry) : (modEntry i f s).trunk = s.trunk := rfl
@[simp] theorem modEntry_agent (i : Fin 32) (f : Entry → Entry) : (modEntry i f s).agent = s.agent := rfl
@[simp] theorem modEntry_cfg (i : Fin 32) (f : Entry → Entry) : (modEntry i f s).cfg = s.cfg := rfl
@[simp] theorem modEntry_notices (i : Fin 32) (f : Entry → Entry) : (modEntry i f s).notices = s.notices := rfl
@[simp] theorem modEntry_out (i : Fin 32) (f : Entry → Entry) : (modEntry i f s).out = s.out := rfl
@[simp] theorem modEntry_pending (i : Fin 32) (f : Entry → Entry) : (modEntry i f s).pending = s.pending := rfl
@[simp] theorem modEntry_pair (i : Fin 32) (f : Entry → Entry) (q : PairNo) : (modEntry i f s).pair q = s.pair q := rfl
@[simp] theorem modEntry_cls (i : Fin 32) (f : Entry → Entry) (d : ClassNo) : (modEntry i f s).cls d = s.cls d := rfl
@[simp] theorem modEntry_source (i : Fin 32) (f : Entry → Entry) (x : Source) : (modEntry i f s).source x = s.source x := rfl
@[simp] theorem modEntry_horizon (i : Fin 32) (f : Entry → Entry) (d : ClassNo) (q : PairNo) : (modEntry i f s).horizon d q = s.horizon d q := rfl

/-! ## `setEpoch` -/

@[simp] theorem setEpoch_now (e : Option Epoch) : (setEpoch e s).now = s.now := rfl
@[simp] theorem setEpoch_strapRole (e : Option Epoch) : (setEpoch e s).strapRole = s.strapRole := rfl
@[simp] theorem setEpoch_straps (e : Option Epoch) : (setEpoch e s).straps = s.straps := rfl
@[simp] theorem setEpoch_strapReads (e : Option Epoch) : (setEpoch e s).strapReads = s.strapReads := rfl
@[simp] theorem setEpoch_resets (e : Option Epoch) : (setEpoch e s).resets = s.resets := rfl
@[simp] theorem setEpoch_pairs (e : Option Epoch) : (setEpoch e s).pairs = s.pairs := rfl
@[simp] theorem setEpoch_classes (e : Option Epoch) : (setEpoch e s).classes = s.classes := rfl
@[simp] theorem setEpoch_nextOrder (e : Option Epoch) : (setEpoch e s).nextOrder = s.nextOrder := rfl
@[simp] theorem setEpoch_engine (e : Option Epoch) : (setEpoch e s).engine = s.engine := rfl
@[simp] theorem setEpoch_classifier (e : Option Epoch) : (setEpoch e s).classifier = s.classifier := rfl
@[simp] theorem setEpoch_trunk (e : Option Epoch) : (setEpoch e s).trunk = s.trunk := rfl
@[simp] theorem setEpoch_agent (e : Option Epoch) : (setEpoch e s).agent = s.agent := rfl
@[simp] theorem setEpoch_cfg (e : Option Epoch) : (setEpoch e s).cfg = s.cfg := rfl
@[simp] theorem setEpoch_notices (e : Option Epoch) : (setEpoch e s).notices = s.notices := rfl
@[simp] theorem setEpoch_out (e : Option Epoch) : (setEpoch e s).out = s.out := rfl
@[simp] theorem setEpoch_pending (e : Option Epoch) : (setEpoch e s).pending = s.pending := rfl
@[simp] theorem setEpoch_pair (e : Option Epoch) (q : PairNo) : (setEpoch e s).pair q = s.pair q := rfl
@[simp] theorem setEpoch_cls (e : Option Epoch) (d : ClassNo) : (setEpoch e s).cls d = s.cls d := rfl
@[simp] theorem setEpoch_source (e : Option Epoch) (x : Source) : (setEpoch e s).source x = s.source x := rfl
@[simp] theorem setEpoch_horizon (e : Option Epoch) (d : ClassNo) (q : PairNo) : (setEpoch e s).horizon d q = s.horizon d q := rfl

/-! ## `modCfg` -/

@[simp] theorem modCfg_now (f : BondSettings → BondSettings) : (modCfg f s).now = s.now := rfl
@[simp] theorem modCfg_strapRole (f : BondSettings → BondSettings) : (modCfg f s).strapRole = s.strapRole := rfl
@[simp] theorem modCfg_straps (f : BondSettings → BondSettings) : (modCfg f s).straps = s.straps := rfl
@[simp] theorem modCfg_strapReads (f : BondSettings → BondSettings) : (modCfg f s).strapReads = s.strapReads := rfl
@[simp] theorem modCfg_resets (f : BondSettings → BondSettings) : (modCfg f s).resets = s.resets := rfl
@[simp] theorem modCfg_pairs (f : BondSettings → BondSettings) : (modCfg f s).pairs = s.pairs := rfl
@[simp] theorem modCfg_classes (f : BondSettings → BondSettings) : (modCfg f s).classes = s.classes := rfl
@[simp] theorem modCfg_nextOrder (f : BondSettings → BondSettings) : (modCfg f s).nextOrder = s.nextOrder := rfl
@[simp] theorem modCfg_bond (f : BondSettings → BondSettings) : (modCfg f s).bond = s.bond := rfl
@[simp] theorem modCfg_engine (f : BondSettings → BondSettings) : (modCfg f s).engine = s.engine := rfl
@[simp] theorem modCfg_classifier (f : BondSettings → BondSettings) : (modCfg f s).classifier = s.classifier := rfl
@[simp] theorem modCfg_trunk (f : BondSettings → BondSettings) : (modCfg f s).trunk = s.trunk := rfl
@[simp] theorem modCfg_agent (f : BondSettings → BondSettings) : (modCfg f s).agent = s.agent := rfl
@[simp] theorem modCfg_notices (f : BondSettings → BondSettings) : (modCfg f s).notices = s.notices := rfl
@[simp] theorem modCfg_out (f : BondSettings → BondSettings) : (modCfg f s).out = s.out := rfl
@[simp] theorem modCfg_pending (f : BondSettings → BondSettings) : (modCfg f s).pending = s.pending := rfl
@[simp] theorem modCfg_pair (f : BondSettings → BondSettings) (q : PairNo) : (modCfg f s).pair q = s.pair q := rfl
@[simp] theorem modCfg_cls (f : BondSettings → BondSettings) (d : ClassNo) : (modCfg f s).cls d = s.cls d := rfl
@[simp] theorem modCfg_source (f : BondSettings → BondSettings) (x : Source) : (modCfg f s).source x = s.source x := rfl
@[simp] theorem modCfg_horizon (f : BondSettings → BondSettings) (d : ClassNo) (q : PairNo) : (modCfg f s).horizon d q = s.horizon d q := rfl

/-! ## `setReady` -/

@[simp] theorem setReady_now (b : Bool) : (setReady b s).now = s.now := rfl
@[simp] theorem setReady_strapRole (b : Bool) : (setReady b s).strapRole = s.strapRole := rfl
@[simp] theorem setReady_straps (b : Bool) : (setReady b s).straps = s.straps := rfl
@[simp] theorem setReady_strapReads (b : Bool) : (setReady b s).strapReads = s.strapReads := rfl
@[simp] theorem setReady_resets (b : Bool) : (setReady b s).resets = s.resets := rfl
@[simp] theorem setReady_pairs (b : Bool) : (setReady b s).pairs = s.pairs := rfl
@[simp] theorem setReady_classes (b : Bool) : (setReady b s).classes = s.classes := rfl
@[simp] theorem setReady_nextOrder (b : Bool) : (setReady b s).nextOrder = s.nextOrder := rfl
@[simp] theorem setReady_bond (b : Bool) : (setReady b s).bond = s.bond := rfl
@[simp] theorem setReady_engine (b : Bool) : (setReady b s).engine = s.engine := rfl
@[simp] theorem setReady_classifier (b : Bool) : (setReady b s).classifier = s.classifier := rfl
@[simp] theorem setReady_agent (b : Bool) : (setReady b s).agent = s.agent := rfl
@[simp] theorem setReady_cfg (b : Bool) : (setReady b s).cfg = s.cfg := rfl
@[simp] theorem setReady_notices (b : Bool) : (setReady b s).notices = s.notices := rfl
@[simp] theorem setReady_out (b : Bool) : (setReady b s).out = s.out := rfl
@[simp] theorem setReady_pending (b : Bool) : (setReady b s).pending = s.pending := rfl
@[simp] theorem setReady_pair (b : Bool) (q : PairNo) : (setReady b s).pair q = s.pair q := rfl
@[simp] theorem setReady_cls (b : Bool) (d : ClassNo) : (setReady b s).cls d = s.cls d := rfl
@[simp] theorem setReady_source (b : Bool) (x : Source) : (setReady b s).source x = s.source x := rfl
@[simp] theorem setReady_horizon (b : Bool) (d : ClassNo) (q : PairNo) : (setReady b s).horizon d q = s.horizon d q := rfl

/-! ## `handToAgent` -/

@[simp] theorem handToAgent_now (r : Request) : (handToAgent r s).now = s.now := rfl
@[simp] theorem handToAgent_strapRole (r : Request) : (handToAgent r s).strapRole = s.strapRole := rfl
@[simp] theorem handToAgent_straps (r : Request) : (handToAgent r s).straps = s.straps := rfl
@[simp] theorem handToAgent_strapReads (r : Request) : (handToAgent r s).strapReads = s.strapReads := rfl
@[simp] theorem handToAgent_resets (r : Request) : (handToAgent r s).resets = s.resets := rfl
@[simp] theorem handToAgent_pairs (r : Request) : (handToAgent r s).pairs = s.pairs := rfl
@[simp] theorem handToAgent_classes (r : Request) : (handToAgent r s).classes = s.classes := rfl
@[simp] theorem handToAgent_nextOrder (r : Request) : (handToAgent r s).nextOrder = s.nextOrder := rfl
@[simp] theorem handToAgent_bond (r : Request) : (handToAgent r s).bond = s.bond := rfl
@[simp] theorem handToAgent_engine (r : Request) : (handToAgent r s).engine = s.engine := rfl
@[simp] theorem handToAgent_classifier (r : Request) : (handToAgent r s).classifier = s.classifier := rfl
@[simp] theorem handToAgent_trunk (r : Request) : (handToAgent r s).trunk = s.trunk := rfl
@[simp] theorem handToAgent_cfg (r : Request) : (handToAgent r s).cfg = s.cfg := rfl
@[simp] theorem handToAgent_notices (r : Request) : (handToAgent r s).notices = s.notices := rfl
@[simp] theorem handToAgent_out (r : Request) : (handToAgent r s).out = s.out := rfl
@[simp] theorem handToAgent_pending (r : Request) : (handToAgent r s).pending = s.pending := rfl
@[simp] theorem handToAgent_pair (r : Request) (q : PairNo) : (handToAgent r s).pair q = s.pair q := rfl
@[simp] theorem handToAgent_cls (r : Request) (d : ClassNo) : (handToAgent r s).cls d = s.cls d := rfl
@[simp] theorem handToAgent_source (r : Request) (x : Source) : (handToAgent r s).source x = s.source x := rfl
@[simp] theorem handToAgent_horizon (r : Request) (d : ClassNo) (q : PairNo) : (handToAgent r s).horizon d q = s.horizon d q := rfl

/-! ## Reading back -/

/-- Reading a place of a vector after one place was written. -/
theorem get_set {α : Type} {n : Nat} (v : Vector α n) (i : Fin n) (x : α) (j : Fin n) :
    (v.set i.val x i.isLt).get j = if j = i then x else v.get j := by
  have e : ∀ (w : Vector α n) (k : Fin n), w.get k = w[k.val] := fun _ _ => rfl
  rw [e, e, Vector.getElem_set]
  by_cases h : j = i
  · subst h; simp
  · have h' : i.val ≠ j.val := fun e => h (Fin.ext e.symm)
    simp [h, h']

/-- The unit of any pair after one was changed. -/
theorem modPair_pair (p : PairNo) (f : PairUnit → PairUnit) (q : PairNo) :
    (modPair p f s).pair q = if q = p then f (s.pair p) else s.pair q := get_set ..

/-- The unit of the pair that was changed. -/
@[simp] theorem modPair_pair_same (p : PairNo) (f : PairUnit → PairUnit) :
    (modPair p f s).pair p = f (s.pair p) := by simp [modPair_pair]

/-- The unit of another pair. -/
theorem modPair_pair_other (p : PairNo) (f : PairUnit → PairUnit) {q : PairNo} (h : q ≠ p) :
    (modPair p f s).pair q = s.pair q := by simp [modPair_pair, h]

/-- Two changes of one pair unit in turn. -/
theorem modPair_modPair (p : PairNo) (f g : PairUnit → PairUnit) :
    modPair p g (modPair p f s) = modPair p (fun u => g (f u)) s := by
  show { s with pairs := (s.pairs.set p.val _ p.isLt).set p.val (g ((modPair p f s).pair p)) p.isLt } = _
  rw [modPair_pair_same, Vector.set_set]
  rfl

/-- Any class after one was changed. -/
theorem modClass_cls (c : ClassNo) (f : ClassUnit → ClassUnit) (d : ClassNo) :
    (modClass c f s).cls d = if d = c then f (s.cls c) else s.cls d := get_set ..

/-- The class that was changed. -/
@[simp] theorem modClass_cls_same (c : ClassNo) (f : ClassUnit → ClassUnit) :
    (modClass c f s).cls c = f (s.cls c) := by simp [modClass_cls]

/-- Another class. -/
theorem modClass_cls_other (c : ClassNo) (f : ClassUnit → ClassUnit) {d : ClassNo} (h : d ≠ c) :
    (modClass c f s).cls d = s.cls d := by simp [modClass_cls, h]

/-- Two changes of one class in turn. -/
theorem modClass_modClass (c : ClassNo) (f g : ClassUnit → ClassUnit) :
    modClass c g (modClass c f s) = modClass c (fun u => g (f u)) s := by
  show { s with classes := (s.classes.set c.val _ c.isLt).set c.val (g ((modClass c f s).cls c)) c.isLt } = _
  rw [modClass_cls_same, Vector.set_set]
  rfl

/-- Any notice source after one was changed, by its place. -/
theorem modSource_sources_get (src : Source) (f : SourceUnit → SourceUnit) (i : Fin 11) :
    (modSource src f s).notices.sources.get i =
      if i = sourceIndex src then f (s.notices.sources.get (sourceIndex src)) else s.notices.sources.get i :=
  get_set ..

/-- The places of the sources are their own. -/
theorem sourceIndex_injective {a b : Source} (h : sourceIndex a = sourceIndex b) : a = b := by
  cases a <;> cases b <;> first | rfl | exact absurd h (by decide)

/-- Any notice source after one was changed. -/
theorem modSource_source (src : Source) (f : SourceUnit → SourceUnit) (x : Source) :
    (modSource src f s).source x = if x = src then f (s.source src) else s.source x := by
  unfold State.source
  rw [modSource_sources_get]
  by_cases h : x = src
  · subst h; simp
  · have : sourceIndex x ≠ sourceIndex src := fun e => h (sourceIndex_injective e)
    simp [h, this]

/-- A change of a source leaves the destination. -/
@[simp] theorem modSource_destination (src : Source) (f : SourceUnit → SourceUnit) :
    (modSource src f s).notices.destination = s.notices.destination := rfl
/-- A change of a source leaves the path. -/
@[simp] theorem modSource_path (src : Source) (f : SourceUnit → SourceUnit) :
    (modSource src f s).notices.path = s.notices.path := rfl
/-- A change of a source leaves the reset cause record. -/
@[simp] theorem modSource_record (src : Source) (f : SourceUnit → SourceUnit) :
    (modSource src f s).notices.record = s.notices.record := rfl
/-- A change of a source leaves the notice number. -/
@[simp] theorem modSource_number (src : Source) (f : SourceUnit → SourceUnit) :
    (modSource src f s).notices.number = s.notices.number := rfl

/-- The table after an entry was changed. -/
theorem modEntry_get (i : Fin 32) (f : Entry → Entry) (j : Fin 32) :
    (modEntry i f s).classifier.table.get j =
      if j = i then f (s.classifier.table.get i) else s.classifier.table.get j :=
  get_set ..

end Sys2Proof.Laws
end

