-- ==== Sys2Proof/Laws/Follow.lean ====
section
/-! SUPPORT. What the other blocks do after an event, said once: the pairs' choices, admissions, path decisions,
placements, notices and trunk sends leave the settings, the collector, the bond controller and the pair units as
`Follows` says. A proof about a command cites `settle_follows` and `finish_follows` and unfolds neither. -/

namespace Sys2Proof.Laws
open Sys2Proof Sys2Proof.Machine

/-! ## The relation -/

/-- What follows an event leaves: every pair unit but for its queue and what waits on it, or woken; the settings; the
reorder and reassembly contexts; the bond controller but for its carried flag; the run; the sort table; the requests;
the clock; and the frames that were in the egress queue. -/
structure Follows (s t : State) : Prop where
  pairs : AllLeft s t
  settings : SettingsKept s t
  contexts : ContextsLeft s t
  bond : BondLeft s t
  engine : EngineLeft s t
  classifier : t.classifier = s.classifier
  requests : t.agent.requests = s.agent.requests
  reset : s.agent.reset = none → t.agent.reset = none
  now : t.now = s.now
  egress : s.trunk.egress <+: t.trunk.egress

/-- A unit that is left by one step and then by another is left by both. -/
theorem LeftBy_trans {u v w : PairUnit} (h : u.LeftBy v) (k : v.LeftBy w) : u.LeftBy w := by
  rcases h with h | ⟨h1, h2, h3, h4, h5, h6, h7, h8, h9, h10⟩ <;>
    rcases k with k | ⟨k1, k2, k3, k4, k5, k6, k7, k8, k9, k10⟩
  · exact .inl (k.trans h)
  · refine .inr ⟨?_, k2, k3, k4, ?_, ?_, ?_, ?_, ?_, ?_⟩
    · have := congrArg PairUnit.state h; simpa [PairUnit.steady, k1] using this.symm
    · have := congrArg PairUnit.n h; simp only [PairUnit.steady] at this; rw [k5, this]
    · have := congrArg PairUnit.cfg h; simp only [PairUnit.steady] at this; rw [k6, this]
    · have := congrArg PairUnit.line h; simp only [PairUnit.steady] at this; rw [k7, this]
    · have := congrArg PairUnit.rate h; simp only [PairUnit.steady] at this; rw [k8, this]
    · have := congrArg PairUnit.delay h; simp only [PairUnit.steady] at this; rw [k9, this]
    · have := congrArg PairUnit.strikes h; simp only [PairUnit.steady] at this; rw [k10, this]
  · refine .inr ⟨h1, ?_, ?_, ?_, ?_, ?_, ?_, ?_, ?_, ?_⟩
    · have := congrArg PairUnit.state k; simp only [PairUnit.steady] at this; rw [this, h2]
    · have := congrArg PairUnit.wakeCause k; simp only [PairUnit.steady] at this; rw [this, h3]
    · have := congrArg PairUnit.control k; simp only [PairUnit.steady] at this; rw [this, h4]
    · have := congrArg PairUnit.n k; simp only [PairUnit.steady] at this; rw [this, h5]
    · have := congrArg PairUnit.cfg k; simp only [PairUnit.steady] at this; rw [this, h6]
    · have := congrArg PairUnit.line k; simp only [PairUnit.steady] at this; rw [this, h7]
    · have := congrArg PairUnit.rate k; simp only [PairUnit.steady] at this; rw [this, h8]
    · have := congrArg PairUnit.delay k; simp only [PairUnit.steady] at this; rw [this, h9]
    · have := congrArg PairUnit.strikes k; simp only [PairUnit.steady] at this; rw [this, h10]
  · rw [h2] at k1; cases k1

/-- Settings kept twice are kept. -/
theorem SettingsKept_trans {s t u : State} (h : SettingsKept s t) (k : SettingsKept t u) : SettingsKept s u := by
  obtain ⟨h1, h2, h3, h4, h5, h6, h7, h8, h9, h10, h11, h12, h13, h14, h15, h16⟩ := h
  obtain ⟨k1, k2, k3, k4, k5, k6, k7, k8, k9, k10, k11, k12, k13, k14, k15, k16⟩ := k
  exact ⟨k1.trans h1, k2.trans h2, k3.trans h3, k4.trans h4, k5.trans h5, k6.trans h6, k7.trans h7,
    fun p => (k8 p).trans (h8 p), fun c => (k9 c).trans (h9 c), k10.trans h10, k11.trans h11, k12.trans h12,
    fun i => ⟨(k13 i).1.trans (h13 i).1, (k13 i).2.trans (h13 i).2⟩, fun i => (k14 i).trans (h14 i),
    k15.trans h15, k16.trans h16⟩

/-- A bond controller left twice is left. -/
theorem BondLeft_trans {s t u : State} (h : BondLeft s t) (k : BondLeft t u) : BondLeft s u := by
  refine ⟨?_, fun x => k.2 (h.2 x)⟩
  rw [k.1, h.1]

theorem Follows.refl (s : State) : Follows s s where
  pairs _ := .inl rfl
  settings := ⟨rfl, rfl, rfl, rfl, rfl, rfl, rfl, fun _ => rfl, fun _ => rfl, rfl, rfl, rfl, fun _ => ⟨rfl, rfl⟩,
    fun _ => rfl, rfl, rfl⟩
  contexts _ := rfl
  bond := ⟨rfl, id⟩
  engine := rfl
  classifier := rfl
  requests := rfl
  reset := id
  now := rfl
  egress := List.prefix_refl _

theorem Follows.trans {s t u : State} (h : Follows s t) (k : Follows t u) : Follows s u where
  pairs p := LeftBy_trans (h.pairs p) (k.pairs p)
  settings := SettingsKept_trans h.settings k.settings
  contexts c := (k.contexts c).trans (h.contexts c)
  bond := BondLeft_trans h.bond k.bond
  engine := Eq.trans (b := t.engine.map _) k.engine h.engine
  classifier := k.classifier.trans h.classifier
  requests := k.requests.trans h.requests
  reset x := k.reset (h.reset x)
  now := k.now.trans h.now
  egress := h.egress.trans k.egress

/-! ## Plain updates -/

/-- A unit that keeps what `steady` and the settings hold follows. -/
theorem modPair_follows (p : PairNo) (f : PairUnit → PairUnit) (s : State)
    (h : (f (s.pair p)).steady = (s.pair p).steady) : Follows s (modPair p f s) :=
  { Follows.refl s with
    pairs := fun q => by
      rw [modPair_pair]
      split
      · next e => subst e; exact .inl h
      · exact .inl rfl
    settings := by
      refine ⟨rfl, rfl, rfl, rfl, rfl, rfl, rfl, fun q => ?_, fun _ => rfl, rfl, rfl, rfl, fun _ => ⟨rfl, rfl⟩,
        fun _ => rfl, rfl, rfl⟩
      rw [modPair_pair]
      split
      · next e => subst e; have k := congrArg PairUnit.cfg h; exact k
      · rfl }

/-- A pair that wakes follows. -/
theorem modPair_woken (p : PairNo) (f : PairUnit → PairUnit) (s : State) (h : (s.pair p).Woken (f (s.pair p))) :
    Follows s (modPair p f s) :=
  { Follows.refl s with
    pairs := fun q => by
      rw [modPair_pair]
      split
      · next e => subst e; exact .inr h
      · exact .inl rfl
    settings := by
      refine ⟨rfl, rfl, rfl, rfl, rfl, rfl, rfl, fun q => ?_, fun _ => rfl, rfl, rfl, rfl, fun _ => ⟨rfl, rfl⟩,
        fun _ => rfl, rfl, rfl⟩
      rw [modPair_pair]
      split
      · next e => subst e; exact h.2.2.2.2.2.1
      · rfl }

/-- A class that keeps its contexts and its settings follows. -/
theorem modClass_follows (c : ClassNo) (f : ClassUnit → ClassUnit) (s : State)
    (h : (f (s.cls c)).context = (s.cls c).context) (k : (f (s.cls c)).cfg = (s.cls c).cfg) :
    Follows s (modClass c f s) :=
  { Follows.refl s with
    contexts := fun d => by
      rw [modClass_cls]
      split
      · next e => subst e; exact h
      · rfl
    settings := by
      refine ⟨rfl, rfl, rfl, rfl, rfl, rfl, rfl, fun _ => rfl, fun d => ?_, rfl, rfl, rfl, fun _ => ⟨rfl, rfl⟩,
        fun _ => rfl, rfl, rfl⟩
      rw [modClass_cls]
      split
      · next e => subst e; exact k
      · rfl }

/-- A notice source that keeps its settings follows. -/
theorem modSource_follows (src : Source) (f : SourceUnit → SourceUnit) (s : State)
    (h : ∀ u, (f u).enable = u.enable ∧ (f u).level = u.level) : Follows s (modSource src f s) :=
  { Follows.refl s with
    settings := by
      refine ⟨rfl, rfl, rfl, rfl, rfl, rfl, rfl, fun _ => rfl, fun _ => rfl, rfl, rfl, rfl, fun i => ?_,
        fun _ => rfl, rfl, rfl⟩
      rw [modSource_sources_get]
      split
      · next e => subst e; exact h _
      · exact ⟨rfl, rfl⟩ }

theorem raiseNotice_follows (src : Source) (a : NoticeArg) (s : State) : Follows s (raiseNotice src a s) := by
  refine modSource_follows src _ s fun u => ?_
  unfold SourceUnit.raised
  split <;> exact ⟨rfl, rfl⟩

theorem emit_follows (o : Output) (s : State) : Follows s (emit o s) := { Follows.refl s with }

theorem countTrunk_follows (f : TrunkCounters → TrunkCounters) (s : State) : Follows s (countTrunk f s) :=
  { Follows.refl s with }

theorem countClass_follows (c : ClassNo) (f : ClassCounters → ClassCounters) (s : State) :
    Follows s (countClass c f s) := modClass_follows c _ s rfl rfl

theorem setCarried_follows (s : State) : Follows s (setCarried s) :=
  { Follows.refl s with bond := ⟨rfl, fun _ => rfl⟩ }

theorem append_follows (p : PairNo) (e : Desc) (s : State) : Follows s (append p e s) := modPair_follows p _ s rfl

theorem reportReset_follows (s : State) : Follows s (reportReset s) := by
  unfold reportReset
  split
  · exact Follows.refl s
  · next h => exact { Follows.refl s with reset := fun e => by rw [e] at h; cases h }

/-! ## The pairs' choices -/

theorem startHandover_follows (p : PairNo) (f : Fragment) (s : State) : Follows s (startHandover p f s) :=
  (modPair_follows p _ s rfl).trans (emit_follows _ _)

theorem beginCtl_follows (p : PairNo) (k : Ctl) (s : State) : Follows s (beginCtl p k s) := by
  refine (modPair_follows p _ s ?_).trans (startHandover_follows p _ _)
  cases k <;> rfl

theorem patternStarts_follows (p : PairNo) (s : State) : Follows s (patternStarts p s) := by
  unfold patternStarts
  split
  · next r h =>
    split
    · exact { Follows.refl s with engine := by unfold EngineLeft; rw [h]; rfl }
    · exact Follows.refl s
  · exact Follows.refl s

theorem beginProve_follows (p : PairNo) (m : ProveMsg) (s : State) : Follows s (beginProve p m s) := by
  have h : Follows s (startHandover p (proveFragment s m) (modPair p (fun u => { u with proveSlot := none }) s)) :=
    (modPair_follows p _ s rfl).trans (startHandover_follows p _ _)
  unfold beginProve
  split
  · exact h
  · exact h.trans (patternStarts_follows p _)

theorem chooseHandover_follows (p : PairNo) (s : State) : Follows s (chooseHandover p s) := by
  unfold chooseHandover
  simp only
  split
  · split
    · exact beginCtl_follows p _ s
    · exact beginProve_follows p _ s
    · split
      · exact startHandover_follows p _ s
      · exact Follows.refl s
    · exact Follows.refl s
  · exact Follows.refl s

/-- What holds of each pair's turn holds of all of them in turn. -/
theorem eachPair_follows (ps : List PairNo) (f : PairNo → State → State) (h : ∀ p s, Follows s (f p s)) (s : State) :
    Follows s (eachPair ps f s) := by
  unfold eachPair
  induction ps generalizing s with
  | nil => exact Follows.refl s
  | cons p ps ih => exact (h p s).trans (ih (f p s))

theorem chooseHandovers_follows (s : State) : Follows s (chooseHandovers s) :=
  eachPair_follows _ _ chooseHandover_follows s

/-! ## Admission, path decisions and selections -/

theorem takeSlot_follows (c : ClassNo) (f : FrameRec) (s : State) : Follows s (takeSlot c f s) := by
  have h := modClass_follows c (fun k => { k with
    queue := insertFrame { f with order := s.nextOrder } k.queue
    n := { k.n with admitted := k.n.admitted + 1 } }) s rfl rfl
  exact { h with }

theorem countQueueDrop_follows (c : ClassNo) (s : State) : Follows s (countQueueDrop c s) :=
  (countClass_follows c _ s).trans (raiseNotice_follows _ _ _)

theorem offerFrame_follows (c : ClassNo) (f : FrameRec) (s : State) : Follows s (offerFrame c f s) := by
  have drop : Follows s (if f.resetReply then reportReset (countQueueDrop c s) else countQueueDrop c s) := by
    split
    · exact (countQueueDrop_follows c s).trans (reportReset_follows _)
    · exact countQueueDrop_follows c s
  unfold offerFrame
  simp only
  split
  · exact takeSlot_follows c f s
  · split
    · split
      · exact ((modClass_follows c _ s rfl rfl).trans (countQueueDrop_follows c _)).trans (takeSlot_follows c f _)
      · exact drop
    · exact drop

theorem offerOwnFrame_follows (f : Frame) (b : Bool) (s : State) : Follows s (offerOwnFrame f b s) :=
  offerFrame_follows 0 _ s

theorem wakeRequest_follows (p : PairNo) (s : State) : Follows s (wakeRequest p s) := by
  unfold wakeRequest
  split
  · next h =>
    refine Follows.trans (modPair_woken p (fun u => { PairUnit.enter s.now s.cfg .waking u with
      wakeCause := some .demand, wakeStart := s.now, control := .wake }) s ?_) ?_
    · exact ⟨h, rfl, rfl, rfl, rfl, rfl, rfl, rfl, rfl, rfl⟩
    · have e : enterWaking p .demand s = emit (.control p .wake) (modPair p (fun u =>
          { PairUnit.enter s.now s.cfg .waking u with
            wakeCause := some .demand, wakeStart := s.now, control := .wake }) s) := by
        simp [enterWaking, Machine.tell, enterState, modPair_modPair]
      rw [e]
      exact emit_follows _ _
  · exact Follows.refl s

theorem demandWake_follows (s : State) : Follows s (demandWake s) := by
  unfold demandWake
  split
  · split
    · exact wakeRequest_follows _ s
    · exact Follows.refl s
  · exact Follows.refl s

theorem askWake_follows (c : ClassNo) (m : PairMap) (s : State) : Follows s (askWake c m s) := by
  unfold askWake
  split
  · exact Follows.refl s
  · split
    · exact (countClass_follows c _ s).trans (wakeRequest_follows _ _)
    · exact Follows.refl s

theorem setDecisionMap_context (m : PairMap) (k : ClassUnit) : (k.setDecisionMap m).context = k.context := by
  unfold ClassUnit.setDecisionMap
  split <;> rfl

theorem setDecisionMap_cfg (m : PairMap) (k : ClassUnit) : (k.setDecisionMap m).cfg = k.cfg := by
  unfold ClassUnit.setDecisionMap
  split <;> rfl

theorem spillFrame_follows (c : ClassNo) (s : State) : Follows s (spillFrame c s) :=
  modClass_follows c (fun k => { k.setDecisionMap (PairMap.ofPred fun p => (s.pair p).state = .serving) with
      n := { k.n with spill := k.n.spill + 1 } }) s (setDecisionMap_context _ _) (setDecisionMap_cfg _ _)

theorem dropNoPath_follows (c : ClassNo) (s : State) : Follows s (dropNoPath c s) := by
  have h := modClass_follows c (fun k => { k with
    current := none
    queue := if k.current.isSome then k.queue else k.queue.tail
    n := { k.n with noPath := k.n.noPath + 1 } }) s rfl rfl
  unfold dropNoPath
  extract_lets k flagged u
  by_cases e : flagged = true
  · rw [if_pos e]; exact h.trans (reportReset_follows _)
  · rw [if_neg e]; exact h

theorem pathDecision_follows (n : Nat) (c : ClassNo) (s : State) : Follows s (pathDecision n c s).2 := by
  induction n generalizing s with
  | zero => exact Follows.refl s
  | succ n ih =>
    unfold pathDecision
    split
    · exact Follows.refl s
    · split
      · exact Follows.refl s
      · split
        · exact Follows.refl s
        · split
          · exact askWake_follows c _ s
          · split
            · exact (spillFrame_follows c s).trans (ih _)
            · exact (dropNoPath_follows c s).trans (ih _)

theorem placeFragment_follows (c : ClassNo) (s : State) : Follows s (placeFragment c s) := by
  have start : Follows s (modClass c ClassUnit.startFrame s) := by
    refine modClass_follows c _ s ?_ ?_ <;>
    · unfold ClassUnit.startFrame
      split <;> rfl
  unfold placeFragment
  simp only
  split
  · exact start
  · split
    · exact start
    · exact ((start.trans (modClass_follows c _ _ rfl rfl)).trans (setCarried_follows _)).trans (append_follows _ _ _)

theorem selectFrom_follows (cs : List ClassNo) (s : State) : Follows s (selectFrom cs s).2 := by
  induction cs generalizing s with
  | nil => exact Follows.refl s
  | cons c cs ih =>
    have h := pathDecision_follows (decisionsOf (s.cls c)) c s
    unfold selectFrom
    split
    · next t e => rw [e] at h; exact h.trans (placeFragment_follows c t)
    · next t e => rw [e] at h; exact h.trans (ih t)

theorem selectUpTo_follows (n : Nat) (s : State) : Follows s (selectUpTo n s) := by
  induction n generalizing s with
  | zero => exact Follows.refl s
  | succ n ih =>
    have h := selectFrom_follows (classOrder s.cfg.classOrder) s
    unfold selectUpTo
    split
    · split
      · next t e => rw [e] at h; exact (h.trans (demandWake_follows t)).trans (ih _)
      · next t e => rw [e] at h; exact h.trans (demandWake_follows t)
    · exact Follows.refl s

/-- The demand wake test and the selections after an event. -/
theorem distribute_follows (s : State) : Follows s (distribute s) :=
  (demandWake_follows s).trans (selectUpTo_follows 257 _)

/-! ## Notices, the trunk and a pending RESET-PART -/

theorem offerEgress_follows (e : EgressEntry) (s : State) : Follows s (offerEgress e s) := by
  unfold offerEgress
  split
  · exact { Follows.refl s with egress := List.prefix_append _ _ }
  · simp only
    split
    · exact (countTrunk_follows _ s).trans (reportReset_follows _)
    · exact countTrunk_follows _ s

theorem noticeNumber_follows (n : BitVec 16) (s : State) :
    Follows s { s with notices := { s.notices with number := n } } :=
  { Follows.refl s with }

theorem sending_follows (s : State) : Follows s { s with trunk := { s.trunk with sending := true } } :=
  { Follows.refl s with }

theorem sendNotice_follows (src : Source) (d : Addr) (s : State) : Follows s (sendNotice src d s) := by
  have h0 := modSource_follows src (fun u => { u with due := false }) s fun _ => ⟨rfl, rfl⟩
  unfold sendNotice
  extract_lets f u n v
  have h : Follows s v :=
    (h0.trans (noticeNumber_follows (u.notices.number + 1) u)).trans (emit_follows (.notice src f) _)
  split
  · exact h.trans (offerEgress_follows _ _)
  · exact (h.trans (offerOwnFrame_follows _ _ _)).trans (distribute_follows _)

theorem sendUpTo_follows (n : Nat) (s : State) : Follows s (sendUpTo n s) := by
  induction n generalizing s with
  | zero => exact Follows.refl s
  | succ n ih =>
    unfold sendUpTo
    split
    · exact (sendNotice_follows _ _ s).trans (ih _)
    · exact Follows.refl s

theorem sendNotices_follows (s : State) : Follows s (sendNotices s) := sendUpTo_follows 12 s

theorem beginSend_follows (s : State) : Follows s (beginSend s) := by
  unfold beginSend
  split
  · exact Follows.refl s
  · split
    · exact (sending_follows s).trans (emit_follows _ _)
    · exact Follows.refl s

/-- With no RESET-PART pending none is performed (R193). -/
theorem checkReset_none {s : State} (h : s.agent.reset = none) : checkReset s = s := by
  unfold checkReset; rw [h]

/-- What follows a notice or something queued. -/
theorem finish_follows {s : State} (h : s.agent.reset = none) : Follows s (finish s) := by
  have k := ((sendNotices_follows s).trans (chooseHandovers_follows _)).trans (beginSend_follows _)
  unfold finish
  rw [checkReset_none (k.reset h)]
  exact k

/-- What follows an event of R94. -/
theorem settle_follows {s : State} (h : s.agent.reset = none) : Follows s (settle s) := by
  have k := (chooseHandovers_follows s).trans (distribute_follows _)
  exact k.trans (finish_follows (k.reset h))

end Sys2Proof.Laws
end

