-- ==== Sys2Proof/Laws/Ops.lean ====
section
/-! SUPPORT. The shared operations, each said once: taking a command, the pending control set, the order of a class
queue, the egress bound, the entry of a state, settings items, straps, the agent's queue and the raise of a notice. -/

namespace Sys2Proof.Laws
open Sys2Proof Sys2Proof.Machine

/-! ## Taking a command -/

/-- A part that takes commands gives a command its effect on cleared outputs (R194). -/
theorem takeCommand_taking (f : State → State) {s : State} (h : s.taking) :
    takeCommand f s = .next (f { s with out := [] }) := by
  simp [takeCommand, show s.resets.held = false from h]

/-- A part held in reset takes no command (R194). -/
theorem takeCommand_held (f : State → State) {s : State} (h : s.resets.held = true) :
    takeCommand f s = .next { s with out := [] } := by
  simp [takeCommand, h]

/-! ## The pending control set -/

theorem mem_addCtl {k x : Ctl} {ks : List Ctl} : x ∈ addCtl k ks ↔ x = k ∨ x ∈ ks := by
  induction ks with
  | nil => simp [addCtl]
  | cons y ys ih =>
    unfold addCtl
    split
    · next e => subst e; simp
    · split
      · simp
      · simp [ih]; tauto

theorem code_injective : ∀ {k x : Ctl}, k.code = x.code → k = x := by
  intro k x; cases k <;> cases x <;> decide

/-- Adding a kind keeps the order of the kind numbers, each once (R29). -/
theorem addCtl_pairwise (k : Ctl) {ks : List Ctl} (h : (ks.map Ctl.code).Pairwise (· < ·)) :
    ((addCtl k ks).map Ctl.code).Pairwise (· < ·) := by
  induction ks with
  | nil => simp [addCtl]
  | cons y ys ih =>
    rw [List.map_cons, List.pairwise_cons] at h
    unfold addCtl
    split
    · exact List.pairwise_cons.2 h
    · next ne =>
      split
      · next lt =>
        refine List.pairwise_cons.2 ⟨fun a m => ?_, List.pairwise_cons.2 h⟩
        rcases List.mem_cons.1 m with rfl | m
        · exact lt
        · exact lt.trans (h.1 a m)
      · next ge =>
        have apart : k.code ≠ y.code := fun e => ne (code_injective e)
        refine List.pairwise_cons.2 ⟨fun a m => ?_, ih h.2⟩
        obtain ⟨x, mx, rfl⟩ := List.mem_map.1 m
        rcases mem_addCtl.1 mx with rfl | mx
        · omega
        · exact h.1 _ (List.mem_map_of_mem mx)

/-- A raise keeps the pending control set as R29 has it. -/
theorem raise_controlKept (k : Ctl) {u : PairUnit} (h : u.ControlKept) : (u.raise k).ControlKept := by
  unfold PairUnit.raise
  split
  · next e =>
    refine ⟨addCtl_pairwise k h.1, fun x m => ?_⟩
    rcases mem_addCtl.1 m with rfl | m
    · exact e
    · exact h.2 x m
  · exact h

/-- Kinds that are dropped leave the rest as R29 has it. -/
theorem dropCtl_controlKept (ks : List Ctl) {u : PairUnit} (h : u.ControlKept) : (dropCtl ks u).ControlKept :=
  ⟨h.1.sublist (List.filter_sublist.map _), fun x m => h.2 x (List.mem_of_mem_filter m)⟩

/-! ## The order of a class queue -/

theorem mem_insertFrame {f x : FrameRec} {fs : List FrameRec} : x ∈ insertFrame f fs ↔ x = f ∨ x ∈ fs := by
  induction fs with
  | nil => simp [insertFrame]
  | cons g gs ih =>
    unfold insertFrame
    split
    · simp [ih]; tauto
    · simp

theorem insertFrame_length (f : FrameRec) (fs : List FrameRec) : (insertFrame f fs).length = fs.length + 1 := by
  induction fs with
  | nil => rfl
  | cons g gs ih =>
    unfold insertFrame
    split
    · simp [ih]
    · rfl

/-- An admitted frame keeps the queue in order of urgency (R87). -/
theorem insertFrame_urgency (f : FrameRec) {fs : List FrameRec}
    (h : fs.Pairwise fun a b => b.urgency ≤ a.urgency) :
    (insertFrame f fs).Pairwise fun a b => b.urgency ≤ a.urgency := by
  induction fs with
  | nil => simp [insertFrame]
  | cons g gs ih =>
    rw [List.pairwise_cons] at h
    unfold insertFrame
    split
    · next le =>
      refine List.pairwise_cons.2 ⟨fun x m => ?_, ih h.2⟩
      rcases mem_insertFrame.1 m with rfl | m
      · exact le
      · exact h.1 x m
    · next gt =>
      refine List.pairwise_cons.2 ⟨fun x m => ?_, List.pairwise_cons.2 h⟩
      rcases List.mem_cons.1 m with rfl | m
      · omega
      · exact (h.1 x m).trans (by omega)

/-! ## The egress queue -/

/-- An offer to the egress queue keeps its bound of 64 frames (R147). -/
theorem offerEgress_bounded (e : EgressEntry) {s : State} (h : EgressBounded s) : EgressBounded (offerEgress e s) := by
  unfold EgressBounded offerEgress reportReset at *
  simp only
  split
  · simp; omega
  · split
    · split <;> exact h
    · exact h

/-! ## Entering a state -/

/-- The entry of a state leaves the timers, the error window and the flags as its rules give them. -/
theorem enter_entered (now : Nat) (b : BondSettings) (st : PairState) (u : PairUnit) :
    (PairUnit.enter now b st u).Entered now b st := by
  cases st <;>
    simp [PairUnit.enter, PairUnit.Entered, PairUnit.stopWindow, PairUnit.startWindow, supervisionFor]
  all_goals (split <;> simp_all)

/-- What the entry of a state never touches (R6). -/
theorem enter_kept (now : Nat) (b : BondSettings) (st : PairState) (u : PairUnit) :
    (PairUnit.enter now b st u).delay = u.delay ∧ (PairUnit.enter now b st u).strikes = u.strikes ∧
      (PairUnit.enter now b st u).wakeErrors = u.wakeErrors ∧ (PairUnit.enter now b st u).noQuiet = u.noQuiet ∧
      (PairUnit.enter now b st u).quietEntry = u.quietEntry ∧ (PairUnit.enter now b st u).cfg = u.cfg ∧
      (PairUnit.enter now b st u).n = u.n ∧ (PairUnit.enter now b st u).queue = u.queue ∧
      (PairUnit.enter now b st u).handover = u.handover ∧ (PairUnit.enter now b st u).control = u.control := by
  cases st <;>
    simp only [PairUnit.enter, PairUnit.stopWindow, PairUnit.startWindow] <;>
    first | exact ⟨rfl, rfl, rfl, rfl, rfl, rfl, rfl, rfl, rfl, rfl⟩ |
      (split <;> split <;> exact ⟨rfl, rfl, rfl, rfl, rfl, rfl, rfl, rfl, rfl, rfl⟩)

/-- The pending control set after the entry of a state is as R29 has it. -/
theorem enter_controlKept (now : Nat) (b : BondSettings) (st : PairState) {u : PairUnit} (h : u.ControlKept) :
    (PairUnit.enter now b st u).ControlKept := by
  have kept : ((keepPermitted st u.ctl).map Ctl.code).Pairwise (· < ·) ∧
      ∀ k ∈ keepPermitted st u.ctl, k.permitted st = true :=
    ⟨h.1.sublist (List.filter_sublist.map _), fun k m => (List.mem_filter.1 m).2⟩
  have raised : ∀ k : Ctl, k.permitted st = true →
      ((addCtl k (keepPermitted st u.ctl)).map Ctl.code).Pairwise (· < ·) ∧
        ∀ x ∈ addCtl k (keepPermitted st u.ctl), x.permitted st = true := fun k e =>
    ⟨addCtl_pairwise k kept.1, fun x m => (mem_addCtl.1 m).elim (fun q => q ▸ e) (kept.2 x)⟩
  have ctl : (PairUnit.enter now b st u).ctl = raisedAtEntry st (keepPermitted st u.ctl) := by
    cases st <;> simp [PairUnit.enter, PairUnit.stopWindow, PairUnit.startWindow]; split <;> rfl
  have state : (PairUnit.enter now b st u).state = st := (enter_entered now b st u).1
  unfold PairUnit.ControlKept
  rw [ctl, state]
  cases st
  all_goals first | exact raised _ rfl | exact kept

/-- A pair that moves is in its new state, entered as its rules give it. -/
theorem moveTo_entered (p : PairNo) (st : PairState) (s : State) :
    ∃ t : State, moveTo p st s = enterState p st t ∧
      ((moveTo p st s).pair p).Entered t.now t.cfg st := by
  refine ⟨_, rfl, ?_⟩
  unfold moveTo enterState
  rw [modPair_pair, if_pos rfl]
  exact enter_entered _ _ _ _

/-! ## Settings, straps and the agent's queue -/

/-- A list of settings items without one that starts the offer tests is its items applied, the last of each name
(R189). -/
theorem applyItems_untested {α : Type} (name : α → SettingName) (apply : α → State → State) {tests : α → Bool}
    {xs : List α} (h : ∀ x ∈ xs, tests x = false) (s : State) :
    applyItems name apply tests xs s = (lastOfEach name xs).foldl (fun s x => apply x s) s := by
  have none : xs.any tests = false := List.any_eq_false.2 fun x m => by simp [h x m]
  simp [applyItems, none]

/-- A physical reset reads the straps as its completion has stored them (R194). -/
theorem readStraps_physical {cause : ResetCause} (h : cause ≠ .management) (s : State) : readStraps cause s = s := by
  cases cause <;> first | rfl | exact absurd rfl h

/-- Every reading of the straps leaves the rest of the part (R194). -/
theorem readStraps_rest (cause : ResetCause) (s : State) :
    { readStraps cause s with
      strapRole := s.strapRole, straps := s.straps, strapReads := s.strapReads } = s := by
  cases cause <;> rfl

/-- A request command is taken at once where no request waits (R183). -/
theorem requestArrives_taken (q : ReqHead) (b : ReqBody) {s : State} (h : s.agent.requests = []) :
    requestArrives q b s = takeRequest q b s := by
  simp [requestArrives, h]

/-- A request command waits behind the requests that wait (R183). -/
theorem requestArrives_waits (q : ReqHead) (b : ReqBody) {s : State} (h : s.agent.requests ≠ [])
    (e : s.agent.reset = none) : requestArrives q b s = handToAgent (.fields q b) s := by
  simp [requestArrives, h, e]

/-- A waiting request is for the far part exactly where it came in a FAR frame at the trunk (R144 b). -/
theorem farFrame_eq_some {r : Request} {f : Frame} :
    r.farFrame = some f ↔ r = .framed .trunk f ∧ targetFar f = true := by
  unfold Request.farFrame Request.trunkFrame
  split <;> simp_all [Option.filter_eq_some_iff]

/-- The agent serves a request that is not for the far part as the command that it spells (R183). -/
theorem serveNext_served {s : State} {r : Request} {rs : List Request} (e : s.agent.requests = r :: rs)
    (h : r.farFrame = none) :
    serveNext s =
      takeRequest (readRequest r).1 (readRequest r).2 { s with agent := { s.agent with requests := rs } } := by
  simp [serveNext, e, h]

/-- The agent offers a request for the far part to the distributor, or discards it while a RESET-PART is pending
(R144 b, R183). -/
theorem serveNext_forwarded {s : State} {r : Request} {rs : List Request} (e : s.agent.requests = r :: rs)
    {f : Frame} (h : r.farFrame = some f) :
    serveNext s = forwardRequest f { s with agent := { s.agent with requests := rs } } := by
  simp [serveNext, e, h]

/-! ## Notices -/

/-- A raise raises its source once (R197). -/
theorem raiseNotice_raisedOnce (src : Source) (a : NoticeArg) (s : State) :
    RaisedOnce src a s (raiseNotice src a s) := by
  unfold RaisedOnce raiseNotice
  rw [modSource_source, if_pos rfl]
  unfold SourceUnit.raised
  by_cases h : (s.source src).isPending = true <;> simp [h]

/-- A raise leaves every other source as it was. -/
theorem raiseNotice_unraised (src other : Source) (a : NoticeArg) (s : State) (h : other ≠ src) :
    Unraised other s (raiseNotice src a s) := by
  unfold Unraised raiseNotice
  rw [modSource_source, if_neg h]
  exact ⟨rfl, rfl, rfl⟩

end Sys2Proof.Laws
end

