-- ==== Sys2Proof/Tests/Slice0.lean ====
section
/-! SUPPORT. Tests of the model: ill-formed terms that WellFormed refuses, values that the manual prints in its tables
and worked sequences, and, for every statement with hypotheses, a state and operands that meet them. -/

set_option Elab.async false

namespace Sys2Proof.Tests
open Sys2Proof Sys2Proof.Machine

/-! ## Helpers -/

/-- The state that a command leaves. -/
def after (c : Instr) (s : State) : State :=
  match exec c s with
  | .next t => t
  | _ => s

/-- What a command puts out. -/
def outOf (c : Instr) (s : State) : List Output := (after c s).out

/-- A CABINET with *auto-prove* off and no source due. -/
def cab : State :=
  let s := State.blank .cabinet 0 0 { last := .powerOn, powerOn := 1, supplyLow := 0, pin := 0, management := 0 } []
  { s with cfg := { s.cfg with autoProve := false } }

/-- A HOMESTEAD in epoch 0. -/
def hom : State :=
  let s := State.blank .homestead 0 0 { last := .powerOn, powerOn := 1, supplyLow := 0, pin := 0, management := 0 } []
  { s with bond := { s.bond with epoch := some 0 } }

/-- Pair `p` right after it entered a state, with its line up and R = 100. -/
def put (p : PairNo) (st : PairState) (s : State) : State :=
  modPair p (fun u => { u.enter s.now s.cfg st with line := true, trained := 800, rate := 100, ctl := [] }) s

/-- A CABINET whose pairs 0 and 1 are SERVING. -/
def two : State := put 1 .serving (put 0 .serving cab)

/-- A run on pair `p`, with step `k` outstanding when it is running. -/
def withRun (p : PairNo) (running : Bool) (k : Fin 16) (s : State) : State :=
  { put p .proving s with engine := some {
      pair := p, running := running, step := k, outstanding := running, started := some 0
      answerTimer := if running then none else some ⟨0, 400000⟩
      stepTimer := if running then some ⟨0, 100000⟩ else none } }

/-- A control fragment's header in epoch 0. -/
def head (len : Nat) : CtlHead := { epoch := 0, len := len }

/-- A request's head on a path, passing every header test. -/
def req (path : ServicePath) : ReqHead :=
  { path := path, source := 0x020000000001, version := 1, tag := 7, bodyLen := 0, present := 0, formed := true }

/-- A DATA fragment of class 1 in epoch 0. -/
def frag (seq : Seq) (first last : Bool) (payload : List Octet) : DataFields :=
  { epoch := 0, cls := 1, seq := seq, first := first, last := last, payload := payload }

/-- A transmit queue entry of one payload length, for every pair. -/
def entry (c : ClassNo) (q : Seq) (len : Nat) : Desc :=
  { cls := c, seq := q, first := true, last := true, payload := List.replicate len 0, allowed := everyPair
    resetReply := false }

/-- The statuses of the replies among the outputs. -/
def statuses (os : List Output) : List Status :=
  os.filterMap fun o => match o with | .reply r => some r.status | _ => none

/-! ## WellFormed refuses -/

theorem test_refuses_rate_0 : (Instr.lineUp 0 0).wellFormed = false := by decide
theorem test_refuses_rate_200001 : (Instr.lineUp 0 200001).wellFormed = false := by decide
theorem test_refuses_payload_513 : (Instr.join 0 (head 513) ⟨0, 0, false⟩).wellFormed = false := by decide
theorem test_refuses_empty_frame : (Instr.trunkFrameIn []).wellFormed = false := by decide
theorem test_refuses_body_length_65536 :
    (Instr.readIdentity { req .trunk with bodyLen := 65536 }).wellFormed = false := by decide
theorem test_refuses_1579_present :
    (Instr.readStage { req .trunk with present := 1579 }).wellFormed = false := by decide
theorem test_refuses_known_fragment_kind : (Instr.unknownKind 0 12 0).wellFormed = false := by decide
theorem test_refuses_known_request_kind : (Instr.badKind (req .trunk) 16).wellFormed = false := by decide
theorem test_takes_payload_512 : (Instr.join 0 (head 512) ⟨0, 0, false⟩).wellFormed = true := by decide
theorem test_table_words_spell_nothing : decodeTableWord 8 0xFF = none := by decide

/-! ## Fragments -/

/-- R25: the check word over the octets 0x31 to 0x39. -/
theorem test_check_word : checkWord [0x31, 0x32, 0x33, 0x34, 0x35, 0x36, 0x37, 0x38, 0x39] = 0x29B1 := by
  decide +kernel

/-- R195: kind 0, epoch 2, first set, class 1, sequence 3, two octets of payload. -/
theorem test_header_octets :
    (Fragment.mk 0 2 true false 1 3 [7, 8]).header = [0x0A, 0x40, 0x03, 0x00, 0x02] := by decide +kernel

/-- R154: the first octets of the stepped pattern of step 8. -/
theorem test_stepped_pattern : (stepPattern 8).take 5 = [0x01, 0x46, 0x17, 0xC4, 0x5D] := by decide +kernel

/-- R154: the sixteen patterns hold 5632 octets. -/
theorem test_patterns_hold_5632 :
    ((List.finRange 16).map fun k => (stepPattern k).length).sum = 5632 := by decide +kernel

/-- Section 2.5, worked example: class 2 carries 16380, the entry farthest behind next sequence 5. -/
theorem test_alive_horizon_is_farthest_behind :
    farthestBehind 5 2 [entry 1 403 0, entry 2 16380 0, entry 2 16383 0] = some 16380 := by decide +kernel

/-- Section 2.5, worked example: a class with no entry carries its next sequence. -/
theorem test_alive_horizon_without_entry :
    aliveHorizon (modClass 0 (fun k => { k with nextSeq := 80 }) two) 0 0 = 80 := by decide +kernel

/-! ## Rates and pair choice -/

/-- R69: the table of initial rates. -/
theorem test_initial_rates :
    [0, 100, 800, 3200, 9999, 200000].map initialRate = [16, 16, 100, 400, 1249, 16383] := by decide

/-- R73: the table of samples, with window, count and R before. -/
theorem test_rate_samples :
    [(8, 3300, 400), (8, 3040, 400), (8, 3176, 400), (2, 90, 20), (16, 100, 18), (16, 400000, 16000)].map
      (fun x => sampleRate (windowSample x.2.1 x.1) x.2.2) = [403, 395, 400, 26, 16, 16095] := by decide +kernel

/-- Section 4.5, worked choice: fragment 1 goes to pair 0 of the three, with L = 519. -/
theorem test_choice_over_three_pairs :
    choosePair (modPair 0 (fun u => { u with rate := 400, delay := 1800, queue := [entry 0 0 512, entry 0 1 512] })
      (modPair 1 (fun u => { u with rate := 125, delay := 2600 })
      (modPair 2 (fun u => { u with rate := 250, delay := 1900, queue := [entry 0 2 512] })
      (put 2 .serving two)))) 7 519 = some 0 := by decide +kernel

/-- Section 4.5, worked choice: of three equal estimates the largest R wins, and of those the lowest pair. -/
theorem test_choice_among_ties :
    choosePair (modPair 3 (fun u => { u with rate := 200, delay := 1000 })
      (modPair 4 (fun u => { u with rate := 250, delay := 1519 })
      (modPair 7 (fun u => { u with rate := 250, delay := 1519 })
      (put 7 .serving (put 4 .serving (put 3 .serving cab)))))) 0x98 519 = some 4 := by decide +kernel

/-! ## The collector -/

/-- R118: the table of horizons after a stored fragment of sequence 700 or 3. -/
theorem test_horizons_after_data :
    [horizonAfter 700 none, horizonAfter 700 (some 690), horizonAfter 700 (some 705), horizonAfter 3 (some 16383),
      horizonAfter 700 (some 701)] = [some 701, some 701, some 705, some 4, some 701] := by decide

/-- The class 1 context of section 6.9, with pair 3's horizon NONE. -/
def burst : State :=
  modClass 1 (fun k => { k with next := 500, horizons := (Vector.replicate 8 none).set 0 (some 500) })
    (put 3 .serving two)

/-- Section 6.9: DATA 501 ahead of next 500 is held, and pair 0's horizon becomes 502. -/
theorem test_data_ahead_is_held :
    ((after (.data 0 (frag 501 true true [1])) burst).cls 1).held.map (·.seq) = [501] ∧
      (after (.data 0 (frag 501 true true [1])) burst).horizon 1 0 = some 502 := by decide +kernel

/-- Section 6.9: DATA behind next is LATE and moves no horizon. -/
theorem test_data_behind_is_late :
    ((after (.data 0 (frag 499 true true [1])) burst).cls 1).n.late = 1 ∧
      (after (.data 0 (frag 499 true true [1])) burst).horizon 1 0 = some 500 := by decide +kernel

/-- Section 6.10, step 3: a sequence a quota ahead is BEYOND. -/
theorem test_data_beyond :
    ((after (.data 0 (frag 692 true true [1])) burst).cls 1).n.beyond = 1 := by decide +kernel

/-- Section 6.9, 46.0 ms: the hold rule declares next lost and the held fragment after it is released. -/
theorem test_hold_rule_declares :
    ((after (.holdTimerExpiry 1)
      (modClass 1 (fun k => { k with held := [⟨501, true, true, [1]⟩], hold := some ⟨0, 40000⟩ }) burst)).cls 1).next
      = 502 := by decide +kernel

/-- Section 6.10: with 16380 missing and the horizons 3 and 124, the wake of pair 2's exit declares through 1. -/
theorem test_exit_declares_six_sequences :
    ((after (.lineDown 2)
      (modClass 0 (fun k => { k with
          next := 16380, held := [⟨2, true, true, [1]⟩, ⟨123, true, true, [1]⟩], hold := some ⟨0, 20000⟩
          horizons := #v[some 3, some 124, some 16380, none, none, none, none, none] })
        (put 2 .serving two))).cls 0).next = 3 := by decide +kernel

/-- R137, R139: the last fragment of a frame being built completes it. -/
theorem test_reassembly_completes :
    ((after (.data 0 (frag 500 false true [9]))
      (modClass 1 (fun k => { k with reasm := .building [8] }) burst)).trunk.egress.map (·.frame)) = [[8, 9]] := by
  decide +kernel

/-- R138: a loss marker makes a context discard. -/
theorem test_loss_marker_discards :
    ((reassembleLoss 1 burst).cls 1).reasm = .discarding := by decide +kernel

/-! ## Pairs -/

/-- Section 1.11, step 1: the damaged fragment that exceeds the error limit strikes and takes the pair out. -/
theorem test_strike :
    ((after (.damaged 0) (modPair 0 (fun u => { u with errCount := 20 }) two)).pair 0).strikes = 1 ∧
      ((after (.damaged 0) (modPair 0 (fun u => { u with errCount := 20 }) two)).pair 0).state = .standby := by
  decide +kernel

/-- Section 1.11, step 1: the damaged fragment that reaches the error limit does not strike. -/
theorem test_error_limit_is_not_exceeded :
    ((after (.damaged 0) (modPair 0 (fun u => { u with errCount := 19 }) two)).pair 0).state = .serving := by
  decide +kernel

/-- Section 5.7, worked re-placement: the entries behind the head move to the other pair. -/
theorem test_replacement :
    ((after (.lineDown 0) (modPair 0 (fun u => { u with queue := [entry 2 121 4, entry 0 9 4] }) two)).pair 1).queue.map
      (·.seq) = [121, 9] := by decide +kernel

/-- R8 a: a line-up report in DOWN with *auto-prove* off enters JOINING and raises JOIN. -/
theorem test_line_up_joins :
    ((after (.lineUp 0 800) cab).pair 0).state = .joining ∧ ((after (.lineUp 0 800) cab).pair 0).rate = 100 := by
  decide +kernel

/-- R8 c: with *auto-prove* on, the engine is free and the pair is proved. -/
theorem test_line_up_proves : ((after (.lineUp 0 800) State.reset).pair 0).state = .proving := by decide +kernel

/-- Section 8.11, 2.0 ms: an accepted PROVE-REQUEST halts a SERVING pair and raises PAIR-DOWN. -/
theorem test_prove_request_halts :
    ((after (.proveRequest 0 (head 0)) two).pair 0).state = .halted ∧
      ((after (.proveRequest 0 (head 0)) two).source .pairDown).isPending = true := by decide +kernel

/-- Section 8.11, step 11: a damaged echo fails its step and the next begins. -/
theorem test_damaged_echo_fails_step :
    ((after (.damaged 0) (withRun 0 true 11 cab)).pair 0).record.failures = 1 ∧
      (after (.damaged 0) (withRun 0 true 11 cab)).engine.map (·.step) = some 12 := by decide +kernel

/-- Section 8.11: the resulting D is half of the minimum round trip of 4738 µs. -/
theorem test_resulting_delay :
    ((after .stepTimerExpiry (modPair 0 (fun u => { u with record := { u.record with
      stepsDone := 15, failures := 1, minTrip := some 4738, maxTrip := some 11931 } })
      (withRun 0 true 15 cab))).pair 0).delay = 2369 := by decide +kernel

/-- Section 9.6, 23:03:30: the awake count of 1 is not above *minimum awake*, so nothing is offered. -/
theorem test_last_awake_pair_does_not_offer :
    ((after (.idleTimerExpiry 0) (put 0 .serving cab)).pair 0).offering = false ∧
      ((after (.idleTimerExpiry 0) (put 0 .serving cab)).pair 0).idle = true := by decide +kernel

/-- Section 9.6, 23:03:00: an awake count above *minimum awake* lets an idle pair offer. -/
theorem test_idle_pair_offers : ((after (.idleTimerExpiry 0) two).pair 0).offering = true := by decide +kernel

/-- R4, R180: the handover that a WAKING pair has in progress is cut off where it completes its wake. -/
theorem test_wake_completion_cuts_handover :
    let s := modPair 0 (fun u => { u with handover := some { frag := ⟨1, 0, false, false, 0, 0, [1, 2]⟩, check := 0 } })
      (put 0 .waking two)
    ((after (.data 0 (frag 0 true true [1])) s).pair 0).state = .serving ∧
      ((after (.data 0 (frag 0 true true [1])) s).pair 0).handover.map (·.frag.kind) = some 2 := by decide +kernel

/-- R172: while *quiet wait* is 0 the idle flag stays clear, also where a timer that ran before expires. -/
theorem test_idle_stays_clear_at_quiet_wait_0 :
    ((after (.idleTimerExpiry 0)
      (modPair 0 (fun u => { u with cfg := { u.cfg with quietWait := 0 } }) two)).pair 0).idle = false := by
  decide +kernel

/-- Section 2.6, worked sequence, step 2: a RESTART-ASK of epoch 2 takes a CABINET to epoch 3. -/
theorem test_restart_ask :
    (after (.restartAsk 1 { epoch := 2, len := 0 })
      { two with bond := { two.bond with epoch := some 2, carried := true } }).bond.epoch = some 3 := by
  decide +kernel

/-- Section 2.6, worked sequence, step 4: a JOIN of epoch 3 is adopted and its pair enters SERVING. -/
theorem test_join_is_adopted :
    (after (.join 0 { epoch := 3, len := 2 } ⟨0, 0, true⟩) (put 0 .serving hom)).bond.epoch = some 3 ∧
      ((after (.join 0 { epoch := 3, len := 2 } ⟨0, 0, true⟩) (put 0 .serving hom)).pair 0).state = .serving := by
  decide +kernel

/-! ## The classifier and the distributor -/

/-- The sort table of section 3.7, with the class 1 and class 2 default maps it gives. -/
def sorted : State :=
  let s := modEntry 4 (fun e => { e with f := { e.f with
    kind := .net, netSide := .source, netAddress := 0xC0A80700, netMask := 0xFFFFFF00 } }) hom
  let s := modEntry 5 (fun _ => { matched := 211, f := {
    kind := .port, primary := true, protocol := 17, protocolTest := true, portMode := .inside
    portMin := 16384, portMax := 16483, cls := 1, urgencyMode := .set, urgencyValue := 6
    mapMode := .intersect, pairMap := 0x0F } }) s
  let s := modEntry 6 (fun _ => { matched := 999, f := {
    kind := .port, primary := true, protocol := 6, protocolTest := true, portMode := .either
    portMin := 22, portMax := 443, companions := 0x10, cls := 1, urgencyMode := .raise, urgencyValue := 4
    mapMode := .replace, pairMap := 0x02, threshold := 1000 } }) s
  let s := modEntry 9 (fun _ => { matched := 40, f := {
    kind := .link, primary := true, vlanTest := true, vlanId := 30, cls := 2, urgencyMode := .lower
    urgencyValue := 1, mapMode := .union, pairMap := 0x60 } }) s
  modClass 1 (fun k => { k with cfg := { k.cfg with defaultMap := 0x3F } }) s

/-- An IPv4 packet with no options: protocol, fragment offset, source, destination port. -/
def packet (protocol : Octet) (offset : Octet) (src : List Octet) (port : List Octet) : Frame :=
  [0x45, 0, 0, 28, 0, 0, 0, offset, 64, protocol, 0, 0] ++ src ++ [10, 0, 0, 1] ++ [0x30, 0x39] ++ port ++ [0, 8, 0, 0]

/-- The addresses that open a frame. -/
def addresses : Frame := octets48 0x020000000002 ++ octets48 0x020000000003

/-- Frame A of section 3.7. -/
def frameA : Frame := addresses ++ [8, 0] ++ packet 17 0 [192, 168, 7, 20] [0x40, 0x10]

/-- Frame B of section 3.7: priority 3, VLAN 30. -/
def frameB : Frame := addresses ++ [0x81, 0, 0x60, 30, 8, 0] ++ packet 6 0 [192, 168, 7, 21] [0x01, 0xBB]

/-- Frame C of section 3.7: priority 5, VLAN 30, no IPv4. -/
def frameC : Frame := addresses ++ [0x81, 0, 0xA0, 30, 8, 6] ++ List.replicate 28 0

/-- Frame D of section 3.7. -/
def frameD : Frame := addresses ++ [8, 0] ++ packet 6 0 [192, 168, 9, 4] [0x01, 0xBB]

/-- Frame E of section 3.7: a later fragment. -/
def frameE : Frame := addresses ++ [8, 0] ++ packet 17 185 [192, 168, 7, 20] [0x40, 0x10]

/-- Section 3.7: the winners of the five frames. -/
theorem test_winners :
    [frameA, frameB, frameC, frameD, frameE].map (fun f => winner sorted.classifier.table (readFields f)) =
      [some 5, some 6, some 9, none, none] := by decide +kernel

/-- Section 3.7: class, urgency and map of frame A, as it waits in its class queue. -/
theorem test_frame_A :
    ((after (.trunkFrameIn frameA) sorted).cls 1).queue.map (fun f => (f.urgency, f.map)) = [(6, 0x0F)] := by
  decide +kernel

/-- Section 3.7: frame C waits in class 2 with urgency 1 and every pair. -/
theorem test_frame_C :
    ((after (.trunkFrameIn frameC) sorted).cls 2).queue.map (fun f => (f.urgency, f.map)) = [(1, 0xFF)] := by
  decide +kernel

/-- Section 3.7: frame B reaches the threshold of entry 6, which raises TABLE-MATCH with argument 6. -/
theorem test_threshold_reached :
    ((after (.trunkFrameIn frameB) sorted).source .tableMatch).arg = some { hi := 0, lo := 6 } := by decide +kernel

/-- Section 3.8, step 4: port min 17000 above port max 16583 under INSIDE fails check c. -/
theorem test_commit_refused :
    statuses (outOf (.tableCommit (req .trunk) 5) { sorted with classifier := { sorted.classifier with
      image := { portMin := 17000, portMax := 16583, threshold := 500 }, enable := [.portMin, .portMax, .threshold] } })
      = [.badValue] := by decide +kernel

/-- Section 3.8, step 6: the commit widens entry 5 and restarts its counter. -/
theorem test_commit_applied :
    let t := after (.tableCommit (req .trunk) 5) { sorted with classifier := { sorted.classifier with
      image := { portMin := 16384, portMax := 16583, threshold := 500 }, enable := [.portMin, .portMax, .threshold] } }
    (t.classifier.table.get 5).f.portMax = 16583 ∧ (t.classifier.table.get 5).matched = 0 := by decide +kernel

/-- A frame record of an urgency. -/
def rec' (u : Nat) : FrameRec := { octets := [1], urgency := u, map := everyPair, order := 0, resetReply := false }

/-- Class 1 of section 5.2's worked admission: its limit 4 and four frames. -/
def full (us : List Nat) : State :=
  modClass 1 (fun k => { k with cfg := { k.cfg with classLimit := 4 }, queue := us.map rec' }) cab

/-- Section 5.2: a frame of urgency 4 displaces the tail of urgency 1. -/
theorem test_displacement : ((offerFrame 1 (rec' 4) (full [6, 4, 4, 1])).cls 1).queue.map (·.urgency) = [6, 4, 4, 4] := by
  decide +kernel

/-- Section 5.2: a frame of the tail's urgency is dropped, and one of urgency 7 goes to the head. -/
theorem test_no_displacement :
    ((offerFrame 1 (rec' 4) (full [6, 4, 4, 4])).cls 1).n.queueDrop = 1 ∧
      ((offerFrame 1 (rec' 7) (full [6, 4, 4, 4])).cls 1).queue.map (·.urgency) = [7, 6, 4, 4] := by decide +kernel

/-- Section 5.6: a frame for a QUIET pair asks it to wake and waits. -/
theorem test_wake_ask :
    let s := modClass 1 (fun k => { k with queue := [{ rec' 6 with map := 4 }] }) (put 2 .quiet two)
    ((distribute s).pair 2).state = .waking ∧ ((distribute s).cls 1).n.wakeAsk = 1 := by decide +kernel

/-- Section 5.6: a frame for a DOWN pair alone is dropped where *spill* is off. -/
theorem test_no_path :
    ((distribute (modClass 2 (fun k => { k with queue := [{ rec' 0 with map := 0x20 }] }) two)).cls 2).n.noPath = 1 := by
  decide +kernel

/-! ## The trunk, management and resets -/

/-- R146 a: the straps give the last two octets of the station address. -/
theorem test_strap_address : strapAddress 0x1234 = 0x0A4E4B001234 := by decide

/-- R142: a frame of 1601 octets is counted OVERSIZE-IN. -/
theorem test_oversize_in : (after (.trunkFrameIn (List.replicate 1601 0)) cab).trunk.n.oversizeIn = 1 := by
  decide +kernel

/-- R148: a ready trunk interface is given the head of the egress queue. -/
theorem test_trunk_send :
    outOf .trunkReady { cab with trunk := { cab.trunk with egress := [⟨[5], .notice, false⟩] } } = [.trunkSend [5]] := by
  decide +kernel

/-- Section 6.13, step 1: a raise beyond the sum of 768 is refused BAD-VALUE. -/
theorem test_quota_sum : statuses (outOf (.quotaWrite (req .trunk) 1 256) cab) = [.badValue] := by decide +kernel

/-- Section 6.13, step 2: a lowering with a held fragment is refused BUSY. -/
theorem test_quota_busy :
    statuses (outOf (.quotaWrite (req .trunk) 2 384)
      (modClass 2 (fun k => { k with held := [⟨5, true, true, []⟩] }) cab)) = [.busy] := by decide +kernel

/-- Section 6.13, step 6: a quota of 10 is clamped to 16. -/
theorem test_quota_clamped :
    statuses (outOf (.quotaWrite (req .trunk) 0 10) cab) = [.clamped] ∧
      ((after (.quotaWrite (req .trunk) 0 10) cab).cls 0).cfg.quota = 16 := by decide +kernel

/-- Section 10.8: fragment size 300 is taken down to 288, hold time 2000 clamped to 1000. -/
theorem test_class_items :
    ((after (.writeSettings (req .trunk) (.cls 2 [.fragmentSize 300, .holdTime 2000])) cab).cls 2).cfg.fragmentSize = 288 ∧
    ((after (.writeSettings (req .trunk) (.cls 2 [.fragmentSize 300, .holdTime 2000])) cab).cls 2).cfg.holdTime = 1000 := by
  decide +kernel

/-- R189, R173: items of one list are applied in one event, so an offer that a lower *minimum awake* lets begin runs
its timer from the alive interval of the same list, 2 × 50 ms. -/
theorem test_items_are_applied_in_one_event :
    let s := modPair 0 (fun u => { u with idle := true }) { two with cfg := { two.cfg with minimumAwake := 2 } }
    ((after (.writeSettings (req .trunk) (.bond [.minimumAwake 1, .aliveInterval 50])) s).pair 0).offerTimer =
      some ⟨0, 100000⟩ := by decide +kernel

/-- R134: a time that is a whole number of milliseconds is reported in milliseconds. -/
theorem test_hold_time_in_milliseconds : reportMs 40000 = 40 := by decide +kernel

/-- Section 10.8: a CABINET refuses a write on service path BOND, and answers a read. -/
theorem test_access :
    statuses (outOf (.writeSettings (req .bond) (.bond [])) cab) = [.notPermitted] ∧
      (serve (req .bond) (.readSettings .bond) cab).status = .ok := by decide +kernel

/-- R184 a: a kind above 16 is answered BAD-KIND. -/
theorem test_bad_kind : statuses (outOf (.badKind (req .trunk) 17) cab) = [.badKind] := by decide +kernel

/-- R193: RESET-PART waits 1000 ms. -/
theorem test_reset_wait :
    (after (.resetPart (req .trunk)) cab).agent.reset.map (·.wait.dur) = some 1000000 := by decide +kernel

/-- R201 c: a PIN reset counts in the record and keeps the other counts. -/
theorem test_pin_count :
    (after (.fullResetComplete .pin .homestead 3) (after .pin cab)).notices.record =
      { last := .pin, powerOn := 1, supplyLow := 0, pin := 1, management := 0 } := by decide +kernel

/-- Section 11, worked sequence: a raised source that is pending counts a repeat. -/
theorem test_repeat :
    ((after (.lineDown 2) (raiseForPair .pairDown 2 (put 2 .serving cab))).source .pairDown).repeats = 1 := by
  decide +kernel

/-! ## States and operands that meet the hypotheses of the statements -/

/-- Pair `p` with its unit changed. -/
def tweak (p : PairNo) (f : PairUnit → PairUnit) (s : State) : State := modPair p f s

/-- A pair of `two` with an entry in its queue and its handover in progress. -/
def handing (p : PairNo) (k : BitVec 4) (s : State) : State :=
  modPair p (fun u => { u with
    queue := [entry 1 0 4], handover := some { frag := ⟨k, 0, true, true, 1, 0, [1, 2, 3, 4]⟩, check := 0 } }) s

theorem test_hyps_StepTakesFront : { cab with pending := [.trunkReady, .pin] }.pending = .trunkReady :: [.pin] := rfl

/-- A NEAR READ-IDENTITY request as the agent keeps it. -/
def nearFrame : Frame := addresses ++ mgmtType ++ [1, 0, 1, 0, 0, 7, 0, 0]

/-- That request as it waits. -/
def waiting : Request := .framed .trunk nearFrame

/-- A part where that request waits. -/
def waited : State := { cab with agent := { requests := [waiting], reset := none } }

/-- A FAR READ-IDENTITY request. -/
def farFrame : Frame := octets48 cab.cfg.stationAddress ++ octets48 0x020000000001 ++ mgmtType ++ [1, 0x40, 1, 0, 0, 7, 0, 0]

/-- R144, R183: a FAR request waits behind the requests before it, and is offered to class 0 when the agent comes to
it. -/
theorem test_far_request_waits_and_is_forwarded :
    let s := after (.trunkFrameIn farFrame) waited
    s.agent.requests = [waiting, .framed .trunk farFrame] ∧ (s.cls 0).n.admitted = 0 ∧
      (match step { s with agent := { s.agent with requests := s.agent.requests.tail } } with
        | .next t => t.agent.requests.isEmpty && (t.cls 0).n.admitted = 1
        | _ => false) = true := by decide +kernel

/-- R183: a request command waits behind a request in a frame of its path, and is answered when its turn comes. -/
theorem test_request_command_waits_its_turn :
    (after (.readStage (req .trunk)) waited).agent.requests = [waiting, .fields (req .trunk) .readStage] ∧
      outOf (.readStage (req .trunk)) waited = [] ∧
      statuses (idle { cab with agent := { requests := [.fields (req .trunk) .readStage], reset := none } }).out =
        [.ok] := by decide +kernel

/-- R190, R135: the class report gives a context's state and its number of octets. -/
theorem test_class_report_of_partial_frame :
    let k := { (cab.cls 1) with reasm := .building [1, 2, 3] }
    (classPresent 0 k).reasm = .building ∧ (classPresent 0 k).octets = 3 := by decide +kernel

theorem test_hyps_IdleStep :
    cab.pending = [] ∧ cab.agent.requests = [] ∧ cab.open ∧ waited.open ∧ waited.agent.requests ≠ [] ∧
      requestOf (.readStage (req .bond)) = some (req .bond, .readStage) ∧
      (waited.pending = [] ∧ waited.agent.requests = waiting :: [] ∧
        (readRequest waiting).2 = .readIdentity ∧ targetFar nearFrame = false ∧
        requestOf (.readIdentity (readRequest waiting).1) = some (readRequest waiting)) ∧
      (let s := { cab with agent := { requests := [.framed .trunk farFrame], reset := none } }
       s.pending = [] ∧ s.taking ∧ targetFar farFrame = true ∧ QueuesByUrgency s) ∧
      (let s := { cab with agent := { requests := [waiting], reset := some ⟨.trunk, ⟨0, 1000000⟩, false⟩ } }
       s.pending = [] ∧ s.taking ∧ s.agent.reset ≠ none) ∧ { cab with resets := ⟨true, false, false, .pin⟩ }.resets.held := by
  unfold QueuesByUrgency; decide +kernel

theorem test_hyps_NothingTaken :
    { cab with resets := ⟨false, true, false, .pin⟩ }.resets.held = true ∧ isResetCommand .trunkReady = false ∧
      expiryTimer cab (.haltTimerExpiry 7) = some none ∧ (cab.pair 7).state = .down ∧
      ((tweak 0 (fun u => { u with state := .absent }) cab).pair 0).state = .absent ∧
      (goodFragment (.data 7 (frag 0 true true []))).map (·.1) = some 7 := by decide +kernel

theorem test_hyps_PhysicalResetCompletes :
    (let s := { cab with resets := ⟨false, false, true, .pin⟩ }
     s.resets.inProgress .pin = true ∧ s.resets.inProgress .powerOn = false ∧ s.resets.inProgress .supplyLow = false) ∧
    (let s := { cab with resets := ⟨true, false, true, .pin⟩ }
     s.resets.inProgress .pin = true ∧ s.resets.inProgress .powerOn = true) ∧
    cab.resets.inProgress .pin = false := by decide +kernel

theorem test_hyps_GoodFragmentsCounted :
    goodFragment (.data 0 (frag 16383 false false (List.replicate 512 0))) = some (0, 512, false) ∧
      goodFragment (.restart 0 (head 1)) = some (0, 1, true) ∧ Receives 0 two ∧ two.open := by decide +kernel

theorem test_hyps_DiscardsCounted :
    Receives 0 two ∧ two.taking ∧
      goodFragment (.proveEnd 0 (head 3) ⟨4, 0⟩) = some (0, 3, true) ∧
      goodFragment (.alive 0 (head 6) ⟨16384, 0, 0⟩) = some (0, 6, true) ∧
      epochBound two (.data 0 { frag 0 true true [] with epoch := 3 }) = some (0, 0, 3) ∧
      two.bond.epoch ≠ some 3 ∧ roleClash two (.join 0 (head 2) ⟨roleCode .cabinet, 7, false⟩) = some (0, 2) ∧
      roleClash two (.restart 0 (head 0)) = some (0, 0) ∧ roleClash hom (.restartAsk 0 (head 0)) = some (0, 0) := by
  decide +kernel

theorem test_hyps_StrayProvingDiscarded :
    Receives 0 two ∧ two.taking ∧ strayMessage two (.proveAccept 0 (head 0)) = some (0, 0) ∧
      strayMessage two (.proveDecline 0 (head 1) 2) = some (0, 1) ∧
      strayMessage two (.proveEcho 0 ⟨0, 15, []⟩) = some (0, 0) ∧
      strayMessage two (.provePattern 0 ⟨0, 0, []⟩) = some (0, 0) ∧
      strayMessage two (.proveEnd 0 (head 3) ⟨3, 0⟩) = some (0, 3) ∧
      Receives 1 (put 1 .barred two) ∧ strayMessage (put 1 .barred two) (.proveRequest 1 (head 0)) = some (1, 0) := by
  decide +kernel

theorem test_hyps_DamagedTaken :
    two.open ∧ Receives 0 two ∧ (two.pair 0).errCount + 1 ≤ (two.pair 0).cfg.errorLimit ∧
      (let s := tweak 0 (fun u => { u with errCount := 20 }) two
       s.open ∧ (s.pair 0).state = .serving ∧ (s.pair 0).cfg.errorLimit < (s.pair 0).errCount + 1) ∧
      (let s := put 0 .standby two
       s.open ∧ Receives 0 s ∧ (s.pair 0).state ≠ .serving ∧ (s.pair 0).state ≠ .proving) := by decide +kernel

theorem test_hyps_DataClassified :
    burst.open ∧ burst.bond.epoch = some (frag 0 true true []).epoch ∧ classOf (frag 0 true true []).cls = some 1 ∧
      (burst.pair 0).state = .serving ∧
      8192 ≤ dist 8692 (burst.cls 1).next ∧
      (dist 692 (burst.cls 1).next < 8192 ∧ (burst.cls 1).cfg.quota ≤ dist 692 (burst.cls 1).next) ∧
      (let s := modClass 1 (fun k => { k with held := [⟨691, true, true, []⟩] }) burst
       dist 691 (s.cls 1).next < (s.cls 1).cfg.quota ∧ (691 : Seq) ∈ (s.cls 1).held.map (·.seq)) ∧
      (dist 501 (burst.cls 1).next < (burst.cls 1).cfg.quota ∧ (501 : Seq) ∉ (burst.cls 1).held.map (·.seq) ∧
        (∃ q : PairNo, q ≠ 0 ∧ (burst.pair q).inHorizonSet = true ∧ burst.horizon 1 q = none) ∧
        (501 : Seq) ≠ (burst.cls 1).next ∧ (burst.cls 1).next ∉ (burst.cls 1).held.map (·.seq)) ∧
      ((put 0 .quiet burst).pair 0).state = .quiet := by decide +kernel

theorem test_hyps_DataReassembled :
    burst.open ∧ burst.bond.epoch = some 0 ∧ classOf (frag 500 true true []).cls = some 1 ∧
      (burst.pair 0).state = .serving ∧ (500 : Seq) = (burst.cls 1).next ∧ (burst.cls 1).held = [] ∧
      0 < (burst.cls 1).cfg.quota ∧ burst.horizon 1 0 = some (burst.cls 1).next ∧ burst.horizon 1 1 = none ∧
      ((put 1 .waking burst).pair 1).state = .waking := by decide +kernel

theorem test_hyps_ServiceEntered :
    (let s := put 0 .joining two
     s.open ∧ (s.pair 0).state = .joining ∧ s.bond.epoch = some (head 6).epoch ∧ (head 6).len = 6 ∧
       aliveFormed ⟨16383, 0, 0⟩ = true ∧ PlainJoin 0 (head 2) .homestead true s) ∧
    (let s := tweak 0 (fun u => { u with wakeCause := some .probe }) (put 0 .waking two)
     s.open ∧ (s.pair 0).state = .waking ∧ PlainJoin 0 (head 2) .homestead false s) ∧
    (let s := tweak 0 (fun u => { u with wakeStart := 0 }) { put 0 .waking two with now := 250001 }
     s.open ∧ (s.pair 0).state = .waking ∧ ms s.cfg.wakeLimit < s.now - (s.pair 0).wakeStart) := by decide +kernel

theorem test_hyps_AliveSetsHorizons :
    two.open ∧ aliveFormed ⟨16383, 0, 0⟩ = true ∧ two.bond.epoch = some (head 6).epoch ∧
      (two.pair 0).state = .serving ∧
      (∃ q : PairNo, q ≠ 0 ∧ (two.pair q).inHorizonSet = true ∧ two.horizon 0 q = none) ∧
      (put 0 .barred two).open ∧ ((put 0 .barred two).pair 0).state = .barred := by decide +kernel

theorem test_hyps_JoinTaken :
    two.open ∧ PlainJoin 0 (head 2) .homestead false two ∧ (two.pair 0).state = .serving ∧
      two.bond.epoch = some (head 2).epoch ∧ Receives 0 two ∧ (two.pair 0).state ≠ .quiet ∧
      two.bond.role = .cabinet := by decide +kernel

theorem test_hyps_JoinTaken_epoch :
    PlainJoin 0 { epoch := 3, len := 2 } .homestead true two ∧ two.bond.epoch ≠ some 3 := by decide +kernel

theorem test_hyps_JoinTaken_standby :
    PlainJoin 0 (head 2) .homestead false (put 0 .standby two) ∧ ((put 0 .standby two).pair 0).state = .standby := by
  decide +kernel

theorem test_hyps_AdoptionRestarts :
    (let s := put 0 .serving hom
     s.open ∧ s.bond.role = .homestead ∧ Receives 0 s ∧ (s.pair 0).state ≠ .quiet ∧ s.bond.epoch ≠ some 3 ∧
       s.bond.epoch = some (head 0).epoch ∧ aliveFormed ⟨0, 0, 16383⟩ = true ∧
       ∃ q : PairNo, (s.pair q).state = .serving) ∧
    { hom with bond := { hom.bond with epoch := none } }.bond.epoch ≠ some 0 := by decide +kernel

theorem test_hyps_BondRestarted_next_epoch :
    { epoch := 1, len := 2 : CtlHead }.epoch = (0 : Epoch) + 1 ∧ (setCarried (put 1 .joining two)).bond.carried = true ∧
      Receives 1 (put 1 .joining two) ∧ (put 1 .joining two).open ∧ ((put 1 .joining two).pair 0).state = .serving := by
  decide +kernel

theorem test_hyps_BondRestarted :
    two.open ∧ two.bond.role = .cabinet ∧ two.bond.epoch = some 0 ∧ Receives 0 two ∧ (two.pair 0).state ≠ .quiet ∧
      (head 0).epoch = 0 ∧ (head 2).epoch ≠ 0 + 1 ∧
      (setCarried two).bond.carried = true ∧ Admits (req .trunk) .bondRestart two ∧
      Admits (req .trunk) .bondRestart hom ∧ hom.open ∧ hom.bond.role = .homestead ∧
      (∀ r : PairNo, (hom.pair r).state ≠ .serving) ∧ ((put 0 .serving hom).pair 0).state = .serving := by
  decide +kernel

theorem test_hyps_QuietOfferAnswered :
    two.taking ∧ Receives 0 two ∧ (head 0).len = 0 ∧ two.bond.epoch = some (head 0).epoch ∧
      (let s := tweak 0 (fun u => { u with offering := true }) two
       (s.pair 0).state = .serving ∧ (s.pair 0).offering = true ∧ (s.pair 0).agreeing = false) ∧
      (let s := tweak 0 (fun u => { u with idle := true }) two
       (s.pair 0).queue = [] ∧ (s.pair 0).idle = true ∧ (s.pair 0).offering = false ∧
         (s.pair 0).cfg.quietWait ≠ 0 ∧ s.cfg.minimumAwake < s.awakeCount) ∧ (two.pair 0).idle = false := by
  decide +kernel

theorem test_hyps_PairFallsQuiet :
    two.open ∧ Receives 0 two ∧ two.bond.epoch = some (head 0).epoch ∧ (two.pair 0).offering = false ∧
      (let s := tweak 0 (fun u => { u with offering := true }) two
       s.open ∧ (s.pair 0).state = .serving ∧ (s.pair 0).offering = true) ∧
      (let s := handing 0 6 two
       s.open ∧ (s.pair 0).state = .serving ∧ (s.pair 0).handover.map (·.frag.kind) = some 6) := by decide +kernel

theorem test_hyps_HandoverCounted :
    (two.pair 0).handover = none ∧ (handing 0 0 two).open ∧ ((handing 0 0 two).pair 0).handover.isSome = true ∧
      ((handing 0 0 two).pair 0).state ≠ .quiet ∧
      ((handing 0 0 two).pair 0).handover.map (·.frag.kind) = some 0 ∧
      ((handing 0 2 two).pair 0).handover.map (·.frag.kind) = some 2 := by decide +kernel

theorem test_hyps_WakeBeginsAndFails :
    (let s := put 0 .quiet two
     s.open ∧ (s.pair 0).state = .quiet ∧ (s.pair 0).supervision = some (.probe, ⟨0, 60000000⟩) ∧
       pairIndex 0 = some 0 ∧ s.runOn 0 = false ∧ Admits (req .trunk) (.pairCommand 0 (some .wake)) s) ∧
    (let s := put 7 .waking two
     s.open ∧ (s.pair 7).state = .waking ∧ (s.pair 7).supervision = some (.wakeTimeout, ⟨0, 1000000⟩)) := by
  decide +kernel

theorem test_hyps_IdleAndOfferExpiry :
    two.open ∧ (two.pair 0).state = .serving ∧ (two.pair 0).idleTimer = some ⟨0, 300000000⟩ ∧
      (let s := tweak 0 (fun u => { u with offering := true, offerTimer := some ⟨0, 20000⟩ }) two
       s.open ∧ (s.pair 0).offerTimer = some ⟨0, 20000⟩ ∧ (s.pair 0).agreeBegun = false) ∧
      (let s := tweak 1 (fun u => { u with idle := true })
        (tweak 0 (fun u => { u with offering := true, offerTimer := some ⟨0, 20000⟩ }) two)
       (s.pair 1).state = .serving ∧ (s.pair 1).offering = false ∧ (s.pair 1).ReadyToOffer = true ∧
         OffersAmong (allPairs.filter (· ≠ 0)) 2 s 1) ∧
      ((tweak 0 (fun u => { u with offerTimer := some ⟨0, 20000⟩ }) (handing 0 6 two)).pair 0).agreeBegun = true := by
  unfold OffersAmong; decide +kernel

theorem test_hyps_ProveRequestAnswered :
    (let s := tweak 0 (fun u => { u with cfg := { u.cfg with echoConsent := false } }) two
     s.open ∧ Receives 0 s ∧ (s.pair 0).cfg.echoConsent = false) ∧
    (let s := withRun 0 true 0 cab
     s.open ∧ Receives 0 s ∧ (s.pair 0).state = .proving ∧ s.bond.role = .cabinet) ∧
    (Receives 0 (put 0 .waking two) ∧ ((put 0 .waking two).pair 0).state = .waking) ∧
    (two.open ∧ Receives 0 two ∧ (two.pair 0).cfg.echoConsent = true ∧ (two.pair 0).state = .serving) ∧
    (Receives 0 (put 0 .halted two) ∧ ((put 0 .halted two).pair 0).state = .halted) := by decide +kernel

theorem test_hyps_AcceptBeginsRun :
    (withRun 0 false 0 cab).taking ∧ (head 0).len = 0 ∧ (withRun 0 false 0 cab).requestingOn 0 = true := by
  decide +kernel

theorem test_hyps_RunAborted :
    (let s := withRun 0 true 3 two
     s.open ∧ (s.pair 0).state = .proving ∧ s.runOn 0 = true ∧ abortedBy s (.lineDown 0) = some (0, .line) ∧
       abortedBy s (.proveEnd 0 (head 3) ⟨3, 0⟩) = some (0, .released) ∧
       abortedBy s (.bar (req .trunk) 0) = some (0, .write) ∧
       abortedBy s (.allotmentWrite (req .trunk) 0 (some .bond)) = some (0, .write) ∧
       requestOf (.bar (req .trunk) 0) = some (req .trunk, .pairCommand 0 (some .bar)) ∧
       Admits (req .trunk) (.pairCommand 0 (some .bar)) s) ∧
    (let s := withRun 0 false 0 two
     s.open ∧ abortedBy s .answerTimerExpiry = some (0, .noAnswer) ∧
       abortedBy s (.proveDecline 0 (head 1) 2) = some (0, .declined)) ∧
    abortedBy (withRun 0 false 0 hom) (.proveRequest 0 (head 0)) = some (0, .crossed) := by decide +kernel

theorem test_hyps_StepEnds :
    (let s := withRun 0 true 14 cab
     s.open ∧ (s.pair 0).state = .proving ∧
       s.engine = some ⟨0, true, 14, true, some 0, none, some ⟨0, 100000⟩⟩ ∧ (s.pair 0).record.stepsDone < 15 ∧
       (stepOutcome s ⟨0, true, 14, true, some 0, none, some ⟨0, 100000⟩⟩ (.damaged 0)).isSome = true ∧
       (stepOutcome s ⟨0, true, 14, true, some 0, none, some ⟨0, 100000⟩⟩ .stepTimerExpiry).isSome = true ∧
       (stepOutcome s ⟨0, true, 14, true, some 0, none, some ⟨0, 100000⟩⟩
         (.proveEcho 0 ⟨0, 14, stepPattern 14⟩)).isSome = true) := by decide +kernel

theorem test_hyps_RunEnds :
    (let s := tweak 0 (fun u => { u with record := { u.record with stepsDone := 15 } }) (withRun 0 true 15 cab)
     s.open ∧ (s.pair 0).state = .proving ∧
       s.engine = some ⟨0, true, 15, true, some 0, none, some ⟨0, 100000⟩⟩ ∧ (s.pair 0).record.stepsDone = 15 ∧
       stepOutcome s ⟨0, true, 15, true, some 0, none, some ⟨0, 100000⟩⟩ (.damaged 0) =
         some (.fail .damaged none none none) ∧
       (stepOutcome s ⟨0, true, 15, true, some 0, none, some ⟨0, 100000⟩⟩
         (.proveEcho 0 ⟨0, 15, stepPattern 15⟩)).isSome = true) := by decide +kernel

theorem test_hyps_PatternEchoed :
    (put 0 .halted two).taking ∧ ((put 0 .halted two).pair 0).state = .halted ∧
      (ProbeFields.mk 0 15 []).step.toNat = (15 : Fin 16).val := by decide +kernel

theorem test_hyps_HaltEnds :
    (let s := put 0 .halted two
     s.open ∧ (s.pair 0).state = .halted ∧ s.runOn 0 = false ∧ (head 3).len = 3 ∧
       (EndFields.mk 3 0).verdict = verdictCode .released ∧ (EndFields.mk 0 65535).verdict = verdictCode .passed ∧
       (s.pair 0).haltTimer = some ⟨0, 400000⟩ ∧ pairIndex 0 = some 0 ∧
       Admits (req .trunk) (.pairCommand 0 (some .release)) s) := by decide +kernel

theorem test_hyps_LineUpFromDown :
    cab.open ∧ (cab.pair 0).state = .down ∧ cab.cfg.autoProve = false ∧ State.reset.open ∧
      (State.reset.pair 0).state = .down ∧ State.reset.cfg.autoProve = true ∧ State.reset.engine = none ∧
      ((withRun 1 true 0 State.reset).open ∧ ((withRun 1 true 0 State.reset).pair 0).state = .down) := by decide +kernel

theorem test_hyps_LineUpRetrains :
    two.taking ∧ (two.pair 0).state = .serving ∧ ((put 0 .waking two).pair 0).state = .waking ∧
      ((tweak 0 (fun u => { u with state := .absent }) cab).pair 0).state = .absent := by decide +kernel

theorem test_hyps_LineDownTaken :
    two.open ∧ (two.pair 0).state = .serving ∧ ((put 0 .barred two).pair 0).state = .barred ∧
      (cab.pair 0).state = .down ∧ ((put 0 .quiet two).pair 0).state = .quiet := by decide +kernel

theorem test_hyps_SupervisionFails :
    two.open ∧ (two.pair 0).state = .serving ∧ (two.pair 0).supervision = some (.heard, ⟨0, 40000⟩) := by
  decide +kernel

theorem test_hyps_WithdrawalMovesQueue :
    (let s := put 0 .serving cab
     s.open ∧ (s.pair 0).state = .serving ∧ ∀ r : PairNo, r ≠ 0 → (s.pair r).state ≠ .serving) ∧
    (let s := tweak 1 (fun u => { u with queue := List.replicate 31 (entry 2 0 1) }) (handing 0 2 two)
     s.open ∧ (s.pair 0).state = .serving ∧ (∀ r : PairNo, r ≠ 0 → r ≠ 1 → (s.pair r).state ≠ .serving) ∧
       (s.pair 1).state = .serving ∧ (s.pair 1).offering = false ∧ (s.pair 0).queue = [entry 1 0 4] ∧
       (entry 1 0 4).allowed.holds 1 = true ∧ (s.pair 1).queue.length + 1 ≤ 32) := by decide +kernel

theorem test_hyps_PeriodicTimers :
    two.taking ∧ (two.pair 0).errTimer = some ⟨0, 1000000⟩ ∧ (two.pair 0).settleTimer = some ⟨0, 600000000⟩ ∧
      { two with bond := { two.bond with askTimer := some ⟨0, 1000000⟩ } }.bond.askTimer = some ⟨0, 1000000⟩ ∧
      (two.pair 0).aliveTimer = some ⟨0, 10000⟩ ∧ ((put 0 .joining two).pair 0).aliveTimer = some ⟨0, 10000⟩ := by
  decide +kernel

theorem test_hyps_GateWindowSamples :
    two.taking ∧ (two.pair 0).window = some ⟨0, ms 8⟩ ∧
      ((tweak 0 (fun u => { u with busy := true, windowCount := 3300 }) two).pair 0).window = some ⟨0, ms 8⟩ := by
  decide +kernel

theorem test_hyps_HoldTimerDeclares :
    (let s := modClass 1 (fun k => { k with held := [⟨502, true, true, []⟩], hold := some ⟨0, 40000⟩ }) burst
     s.open ∧ (s.cls 1).hold = some ⟨0, 40000⟩ ∧
       (∃ q : PairNo, (s.pair q).inHorizonSet = true ∧ s.horizon 1 q = none) ∧
       (s.cls 1).next + 1 ∉ (s.cls 1).held.map (·.seq)) := by decide +kernel

/-- A frame of management type for an address, with flags and a length from the type on. -/
def mgmt (target : Addr) (flags : Octet) (n : Nat) : Frame :=
  octets48 target ++ octets48 0x020000000001 ++ mgmtType ++ ([1, flags] ++ List.replicate 6 0).take n

theorem test_hyps_TrunkFramesDropped :
    cab.taking ∧ 1600 < (List.replicate 1601 (0 : Octet)).length ∧
      (let f := mgmt cab.cfg.stationAddress 0 7
       f.length ≤ 1600 ∧ mgmtTyped f = true ∧ destinationOf f = cab.cfg.stationAddress ∧ f.length < 22) ∧
      (let f := mgmt 0x0B4E4B000001 0x3F 8
       mgmtTyped f = true ∧ destinationOf f = 0x0B4E4B000001 ∧ 22 ≤ f.length ∧ replyFlag f = false ∧
         targetFar f = false) ∧
      (farFrame.length ≤ 1600 ∧ mgmtTyped farFrame = true ∧ destinationOf farFrame = cab.cfg.stationAddress ∧
        22 ≤ farFrame.length ∧ replyFlag farFrame = false ∧ targetFar farFrame = true) := by decide +kernel

theorem test_hyps_FrameAdmitted :
    sorted.open ∧ frameA ≠ [] ∧ frameA.length ≤ 1600 ∧ sorted.notices.path = .trunk ∧
      (mgmtTyped frameA = true ∧ (destinationOf frameA = sorted.cfg.stationAddress ∨
        destinationOf frameA = 0x0B4E4B000001) → False) ∧
      (let f := mgmt cab.cfg.stationAddress 0x80 8
       mgmtTyped f = true ∧ 22 ≤ f.length ∧ replyFlag f = true) ∧ QueuesByUrgency sorted ∧
      (sorted.cls 1).holding < (sorted.cls 1).cfg.classLimit ∧ sorted.slotsInUse < 128 := by
  unfold QueuesByUrgency; decide +kernel

/-- The cases of admission at a full class: a victim at the tail, and none. -/
theorem test_hyps_FrameAdmitted_full :
    ((full [6, 4, 4, 1]).cls 1).holding = ((full [6, 4, 4, 1]).cls 1).cfg.classLimit ∧
      (((full [6, 4, 4, 1]).cls 1).queue.getLast?.any fun v => v.urgency < 4) = true ∧
      (((full [6, 4, 4, 4]).cls 1).queue.getLast?.any fun v => v.urgency < 4) = false := by decide +kernel

/-- The trunk port of `cab` with one frame queued, sending or not. -/
def egress1 (sending resetReply : Bool) : State :=
  { cab with trunk := { cab.trunk with egress := [⟨[5], .reply, resetReply⟩], sending := sending, ready := sending } }

theorem test_hyps_TrunkSends :
    cab.open ∧ cab.trunk.egress = [] ∧ cab.trunk.sending = false ∧
      (egress1 false false).trunk.egress = ⟨[5], .reply, false⟩ :: [] ∧ (egress1 false false).trunk.sending = false ∧
      (egress1 true false).open ∧ (egress1 true false).trunk.sending = true := by decide +kernel

theorem test_hyps_ReadsAnswered :
    cab.open ∧ requestOf (.readPair (req .bond) 7) = some (req .bond, .readPair 7) ∧
      headerFails (req .bond) (.readPair 7) = none ∧ changesState (.readPair 7) = false ∧
      (reportOf cab (.readPair 7)).isSome = true ∧ (reportOf cab (.readSettings (.cls 2))).isSome = true ∧
      (reportOf cab (.readCounters .trunk false)).isSome = true := by decide +kernel

theorem test_hyps_RequestsRefused :
    cab.open ∧ { req .trunk with version := 2 }.version ≠ 1 ∧
      { req .trunk with bodyLen := 2, present := 1 }.present < { req .trunk with bodyLen := 2, present := 1 }.bodyLen ∧
      requestOf (.badKind (req .trunk) 17) = some (req .trunk, .raw 17) ∧
      requestOf (.badKind (req .trunk) 16) = some (req .trunk, .raw 16) ∧
      { req .trunk with formed := false }.formed = false ∧
      headerFails (req .bond) .bondRestart = none ∧ changesState .bondRestart = true ∧ cab.bond.role = .cabinet ∧
      cab.cfg.bondWrites = false ∧ Admits (req .trunk) (.pairCommand 8 (some .bar)) cab ∧
      Admits (req .trunk) (.readSettings (.cls 3)) cab ∧ Admits (req .trunk) (.tableCommit 32) cab ∧
      Admits (req .trunk) (.readSettings (.unknown 4)) cab ∧ Admits (req .trunk) (.pairCommand 7 none) cab ∧
      requestOf (.readSettings (req .trunk) (.unknown 4)) = some (req .trunk, .readSettings (.unknown 4)) ∧
      cab.agent.requests = [] ∧ cab.pending = [] ∧ pairIndex 7 = some 7 ∧ cab.runOn 7 = false ∧
      readRequest (.fields (req .trunk) (.pairCommand 7 none)) = (req .trunk, .pairCommand 7 none) := by decide +kernel

theorem test_hyps_PairCommandsServed :
    two.open ∧ requestOf (.withdraw (req .trunk) 0) = some (req .trunk, .pairCommand 0 (some .withdraw)) ∧
      Admits (req .trunk) (.pairCommand 0 (some .withdraw)) two ∧ pairIndex 0 = some 0 ∧ two.runOn 0 = false ∧
      actionAccepted .withdraw (two.pair 0).state two.engine.isNone = true ∧
      actionAccepted .prove (two.pair 0).state two.engine.isNone = true ∧
      actionAccepted .admitPair (two.pair 0).state two.engine.isNone = false ∧
      actionAccepted .admitPair ((put 0 .standby two).pair 0).state true = true ∧
      actionAccepted .bar ((put 0 .barred two).pair 0).state true = true ∧
      (withRun 0 true 0 cab).runOn 0 = true := by decide +kernel

theorem test_hyps_PairsCleared :
    two.open ∧ pairIndex 0 = some 0 ∧ two.runOn 0 = false ∧
      Admits (req .trunk) (.pairCommand 0 (some .clear)) (put 0 .barred two) ∧
      ((put 0 .barred two).pair 0).state = .barred ∧
      Admits (req .trunk) (.pairCommand 0 (some .reset)) two ∧ (two.pair 0).state ≠ .absent ∧
      ((handing 0 0 two).pair 0).handover.isSome = true ∧ ((put 0 .quiet two).pair 0).state = .quiet := by decide +kernel

theorem test_hyps_SettingsWritten :
    cab.open ∧ Admits (req .trunk) (.writeSettings (.bond [.wakeThreshold 63, .wakeThreshold 65536])) cab ∧
      (∀ x ∈ [BondItem.wakeThreshold 63, .wakeThreshold 65536], (checkBond x).value.isSome = true) ∧
      checkBond (.classOrderCode 7) = .refuse .badValue ∧
      Admits (req .trunk) (.writeSettings (.cls 2 [.holdTime 2000])) cab ∧ classIndex 2 = some 2 ∧
      (checkClass cab 2 (.holdTime 2000)).value.isSome = true ∧ checkClass cab 2 (.quota 449) = .refuse .badValue ∧
      Admits (req .trunk) (.writeSettings (.notice [.path (some .bond)])) cab ∧
      (checkNotice (.path (some .bond))).value.isSome = true ∧ checkNotice (.path none) = .refuse .badValue ∧
      (let s := modClass 2 (fun k => { k with held := [⟨5, true, true, []⟩] }) cab
       checkClass s 2 (.quota 384) = .refuse .busy) := by decide +kernel

theorem test_hyps_QuotaAndCodesWritten :
    cab.open ∧ classIndex 2 = some 2 ∧ Admits (req .trunk) (.writeSettings (.cls 2 [.quota 449])) cab ∧
      Admits (req .trunk) (.writeSettings (.bond [.wakeThreshold 63])) cab ∧
      Admits (req .trunk) (.writeSettings (.bond [.classOrderCode 0])) cab ∧
      Admits (req .trunk) (.writeSettings (.cls 2 [.fragmentSize 511])) cab := by decide +kernel

theorem test_hyps_GateWindowWritten :
    two.open ∧ Admits (req .trunk) (.writeSettings (.bond [.gateWindow (some .trained)])) two ∧
      (two.pair 0).state ≠ .quiet ∧ ((put 0 .quiet two).pair 0).state = .quiet := by decide +kernel

theorem test_hyps_PairSettingsWritten :
    two.open ∧ pairIndex 0 = some 0 ∧ two.runOn 0 = false ∧
      Admits (req .trunk) (.writeSettings (.pair 0 [.allotment (some .reserved)])) two ∧ (two.pair 0).state ≠ .absent ∧
      (let s := tweak 0 (fun u => { u with state := .absent }) cab
       Admits (req .trunk) (.writeSettings (.pair 0 [.allotment (some .bond)])) s ∧ (s.pair 0).state = .absent) ∧
      Admits (req .trunk) (.writeSettings (.pair 0 [.quietWait 65536])) two ∧
      Admits (req .trunk) (.writeSettings (.pair 0 [.delayFigure 65536])) two ∧
      (checkPair (.errorLimit 0)).value.isSome = true ∧ checkPair (.echoConsent none) = .refuse .badValue := by
  decide +kernel

theorem test_hyps_StagingAndCommit :
    cab.open ∧ Admits (req .trunk) (.tableStage [.portMax 65535, .unknown 200]) cab ∧
      (stageInto cab.classifier.image (.portMax 65535)).isSome = true ∧
      stageInto cab.classifier.image (.portMax 65536) = none ∧
      Admits (req .trunk) (.tableCommit 31) cab ∧ entryIndex 31 = some 31 := by decide +kernel

theorem test_hyps_FetchAndClear :
    cab.open ∧ Admits (req .trunk) (.tableFetch 31) cab ∧ Admits (req .trunk) (.tableClear 32) cab ∧
      (31 : Octet).toNat = (31 : Fin 32).val ∧ 31 < (32 : Octet).toNat := by decide +kernel

theorem test_hyps_CountersAndNoticesServed_sender :
    let s := raiseForPair .pairDown 2 { two with notices := { two.notices with destination := some 0x020000000009 } }
    Sendable s .pairDown ∧ nextNotice s = some .pairDown ∧ ¬ Sendable two .pairDown ∧ two.notices.path = .trunk ∧
      two.trunk.egress.length < 64 ∧ QueuesByUrgency two := by
  unfold Sendable QueuesByUrgency; decide +kernel

theorem test_hyps_CountersAndNoticesServed :
    cab.open ∧ Admits (req .trunk) (.readCounters (.pair 7) true) cab ∧
      (reportOf cab (.readCounters (.pair 7) true)).isSome = true ∧
      (reportOf cab (.readCounters (.cls 2) true)).isSome = true ∧
      (reportOf cab (.readCounters .trunk true)).isSome = true ∧
      Admits (req .trunk) (.clearNotices [1, 11]) cab ∧ (∀ n ∈ [1, 11], 1 ≤ n ∧ n ≤ 11) ∧
      (∃ n ∈ [3, 12], n = 0 ∨ 11 < n) := by decide +kernel

theorem test_hyps_ResetPartServed :
    cab.taking ∧ cab.agent.reset = none ∧ Admits (req .trunk) .resetPart cab ∧ cab.trunk.egress.length < 64 ∧
      Admits (req .bond) .resetPart hom ∧ (hom.cls 0).holding < (hom.cls 0).cfg.classLimit ∧ hom.slotsInUse < 128 ∧
      resetReplyHeld cab = false ∧
      (let s := { egress1 true true with agent := { cab.agent with reset := some ⟨.trunk, ⟨0, 1000000⟩, false⟩ } }
       s.taking ∧ s.agent.reset = some ⟨.trunk, ⟨0, 1000000⟩, false⟩ ∧
         requestOf .trunkReady = none ∧ requestOf (.readStage (req .trunk)) = some (req .trunk, .readStage) ∧
         s.trunk.egress = ⟨[5], .reply, true⟩ :: [] ∧ s.trunk.sending = true) := by decide +kernel

/-- BOND: a full class 0 with and without a victim, and the handover of the reply's last fragment. -/
theorem test_hyps_ResetPartServed_bond :
    (let s := fun u => modClass 0 (fun k => { k with cfg := { k.cfg with classLimit := 1 }, queue := [rec' u] }) hom
     (s 0).agent.reset = none ∧ Admits (req .bond) .resetPart (s 0) ∧
       ¬ ((s 0).cls 0).holding < ((s 0).cls 0).cfg.classLimit ∧
       (((s 0).cls 0).queue.getLast?.any fun v => v.urgency < 7) = true ∧
       (((s 7).cls 0).queue.getLast?.any fun v => v.urgency < 7) = false) ∧
    (let s := tweak 0 (fun u => { u with queue := [{ entry 0 0 4 with resetReply := true }] })
        (handing 0 0 { two with agent := { two.agent with reset := some ⟨.bond, ⟨0, 1000000⟩, false⟩ } })
     s.taking ∧ (s.pair 0).handover.map (·.frag.kind) = some 0 ∧
       (s.pair 0).queue = { entry 0 0 4 with resetReply := true } :: [] ∧ (s.pair 1).queue = [] ∧
       ∀ k : ClassNo, (s.cls k).holdsResetReply = false) := by decide +kernel

theorem test_hyps_PairChosen : ∀ p : PairNo, (two.pair p).state = .serving → 0 < (two.pair p).rate := by
  decide +kernel

/-- A frame in progress whose last fragment is chosen a pair, and a class without one that has a head. -/
theorem test_hyps_PairChosen_placement :
    (let s := modClass 1 (fun k => { k with current := some { frame := rec' 4, size := 64, offset := 0 } }) two
     min 64 ((rec' 4).octets.length - 0) = 1 ∧ choosePair s (rec' 4).map (1 + 7) = some 0) ∧
    (let s := modClass 1 (fun k => { k with queue := [rec' 4] }) two
     (s.cls 1).current = none ∧ (s.cls 1).queue = rec' 4 :: [] ∧ (s.cls 1).decisionMap = some (rec' 4).map) := by
  decide +kernel

/-- Each case of the path decision: a pair eligible, one SERVING and full, one WAKING, one QUIET, and none. -/
theorem test_hyps_PairChosen_decision :
    (two.cls 1).decisionMap = none ∧ eligible two 1 0 = true ∧
      (let s := tweak 0 (fun u => { u with queue := List.replicate 32 (entry 1 0 1) }) two
       eligible s 1 0 = false ∧ PairMap.holds 1 0 = true ∧ (s.pair 0).state = .serving) ∧
      (PairMap.holds 4 2 = true ∧ ((put 2 .waking two).pair 2).state = .waking) ∧
      ((put 2 .quiet two).pair 2).state = .quiet ∧ (two.pair 2).state = .down ∧ (two.cls 2).cfg.spill = false ∧
      (two.cls 0).cfg.spill = true := by decide +kernel

/-- The conditions of a selection and of demand wake. -/
theorem test_hyps_PairChosen_selection :
    (let s := modClass 1 (fun k => { k with queue := [rec' 4] }) two
     (∃ p : PairNo, (s.pair p).state = .serving ∧ (s.pair p).offering = false ∧ (s.pair p).queue.length < 32) ∧
       ∃ c : ClassNo, (s.cls c).current ≠ none ∨ (s.cls c).queue ≠ []) ∧
    (let s := modClass 1 (fun k => { k with queue := [{ rec' 4 with octets := List.replicate 64 0 }] })
        { put 2 .quiet two with cfg := { two.cfg with wakeThreshold := 64 } }
     s.cfg.wakeThreshold ≤ s.waiting ∧ (∀ p : PairNo, (s.pair p).state ≠ .waking) ∧ (s.pair 2).state = .quiet) := by
  decide +kernel

theorem test_hyps_FragmentsReadBack : (List.replicate 512 (0 : Octet)).length ≤ 512 := by decide +kernel

/-- A pair that may hand over, with a kind pending, with a prove slot and with an entry alone. -/
theorem test_hyps_FragmentsReadBack_handover :
    (two.pair 0).handover = none ∧ (two.pair 0).line = true ∧ (two.pair 0).state = .serving ∧
      (let s := tweak 0 (fun u => { u with ctl := [.alive] }) two
       (s.pair 0).ctl = [.alive] ∧ (s.pair 0).ControlKept) ∧
      ((tweak 0 (fun u => { u with proveSlot := some ⟨false, 0, []⟩ }) (put 0 .proving two)).pair 0).ctl = [] ∧
      (let s := tweak 0 (fun u => { u with queue := [entry 1 5 4] }) two
       (s.pair 0).ctl = [] ∧ (s.pair 0).proveSlot = none ∧ (s.pair 0).queue.head? = some (entry 1 5 4) ∧
         ∃ d ∈ (s.pair 0).queue, d.cls = 1) := by
  unfold PairUnit.ControlKept; decide +kernel

theorem test_hyps_SettingsByRequestsAlone :
    two.open ∧ requestOf (.lineUp 0 800) = none ∧ isResetCommand (.lineUp 0 800) = false := by decide +kernel

theorem test_hyps_ReorderStoreKept : QuotasHeld two ∧ ContextsOrdered two := by
  unfold QuotasHeld ContextsOrdered; decide +kernel

theorem test_hyps_CarriedMarksKept : CarriedMarks two := by unfold CarriedMarks; decide +kernel

theorem test_hyps_FrameStoresKept :
    BufferBounded two ∧ QueuesByUrgency two ∧ EgressBounded two ∧ TableChecked two ∧
      (resetReplyHeld two = false ∧ ∀ e ∈ two.trunk.egress, e.resetReply = false) := by
  unfold BufferBounded QueuesByUrgency EgressBounded TableChecked; decide +kernel

theorem test_hyps_PairQueuesKept : QueuesKept two ∧ ControlSetsKept two := by
  unfold QueuesKept PairUnit.QueueKept ControlSetsKept PairUnit.ControlKept; decide +kernel

theorem test_hyps_PairsStayCoherent : PairsCoherent two := by
  unfold PairsCoherent PairUnit.Coherent; decide +kernel

end Sys2Proof.Tests
end

