-- ==== Sys2Proof/Proofs/Outward.lean ====
section
/-! SUPPORT. The outputs and the trunk counters through what follows an event: outputs are only added, and no trunk
counter but EGRESS-FULL moves. It stands beside `Follows`, which says the same of the rest of the state. -/

namespace Sys2Proof.Proofs
open Sys2Proof Sys2Proof.Machine Sys2Proof.Laws

/-- What follows an event keeps what was put out, and counts nothing at the trunk but EGRESS-FULL. -/
structure Outward (s t : State) : Prop where
  out : s.out <+: t.out
  counters : t.trunk.n = { s.trunk.n with egressFull := t.trunk.n.egressFull }

/-- A step that leaves the outputs and the trunk counters. -/
theorem Outward.of_eq {s t : State} (ho : t.out = s.out) (hn : t.trunk.n = s.trunk.n) : Outward s t where
  out := by rw [ho]
  counters := by rw [hn]

theorem Outward.refl (s : State) : Outward s s := .of_eq rfl rfl

theorem Outward.trans {s t u : State} (h : Outward s t) (k : Outward t u) : Outward s u where
  out := h.out.trans k.out
  counters := by rw [k.counters, h.counters]

/-- No request is counted served by what follows one. -/
theorem Outward.mgmtServed {s t : State} (h : Outward s t) : t.trunk.n.mgmtServed = s.trunk.n.mgmtServed := by
  rw [h.counters]

/-! ## The pairs' choices -/

theorem emit_outward (o : Output) (s : State) : Outward s (emit o s) := ⟨List.prefix_append _ _, rfl⟩

theorem countClass_outward (c : ClassNo) (f : ClassCounters → ClassCounters) (s : State) :
    Outward s (countClass c f s) := .of_eq rfl rfl

theorem reportReset_outward (s : State) : Outward s (reportReset s) := by
  unfold reportReset
  split <;> exact .of_eq rfl rfl

theorem startHandover_outward (p : PairNo) (f : Fragment) (s : State) : Outward s (startHandover p f s) :=
  ⟨List.prefix_append _ _, rfl⟩

theorem beginCtl_outward (p : PairNo) (k : Ctl) (s : State) : Outward s (beginCtl p k s) :=
  ⟨List.prefix_append _ _, rfl⟩

theorem patternStarts_outward (p : PairNo) (s : State) : Outward s (patternStarts p s) := by
  unfold patternStarts
  split
  · split <;> exact .of_eq rfl rfl
  · exact .refl s

theorem beginProve_outward (p : PairNo) (m : ProveMsg) (s : State) : Outward s (beginProve p m s) := by
  have h : Outward s (startHandover p (proveFragment s m) (modPair p (fun u => { u with proveSlot := none }) s)) :=
    ⟨List.prefix_append _ _, rfl⟩
  unfold beginProve
  split
  · exact h
  · exact h.trans (patternStarts_outward p _)

theorem chooseHandover_outward (p : PairNo) (s : State) : Outward s (chooseHandover p s) := by
  unfold chooseHandover
  simp only
  split
  · split
    · exact beginCtl_outward p _ s
    · exact beginProve_outward p _ s
    · split
      · exact startHandover_outward p _ s
      · exact .refl s
    · exact .refl s
  · exact .refl s

theorem eachPair_outward (ps : List PairNo) (f : PairNo → State → State) (h : ∀ p s, Outward s (f p s)) (s : State) :
    Outward s (eachPair ps f s) := by
  unfold eachPair
  induction ps generalizing s with
  | nil => exact .refl s
  | cons p ps ih => exact (h p s).trans (ih (f p s))

theorem chooseHandovers_outward (s : State) : Outward s (chooseHandovers s) :=
  eachPair_outward _ _ chooseHandover_outward s

/-! ## Admission, path decisions and selections -/

theorem offerFrame_outward (c : ClassNo) (f : FrameRec) (s : State) : Outward s (offerFrame c f s) := by
  have drop : Outward s (if f.resetReply then reportReset (countQueueDrop c s) else countQueueDrop c s) := by
    have h : Outward s (countQueueDrop c s) := .of_eq rfl rfl
    split
    · exact h.trans (reportReset_outward _)
    · exact h
  unfold offerFrame
  simp only
  split
  · exact .of_eq rfl rfl
  · split
    · split
      · exact .of_eq rfl rfl
      · exact drop
    · exact drop

theorem offerOwnFrame_outward (f : Frame) (b : Bool) (s : State) : Outward s (offerOwnFrame f b s) :=
  offerFrame_outward 0 _ s

theorem wakeRequest_outward (p : PairNo) (s : State) : Outward s (wakeRequest p s) := by
  unfold wakeRequest
  split
  · exact ⟨List.prefix_append _ _, rfl⟩
  · exact .refl s

theorem demandWake_outward (s : State) : Outward s (demandWake s) := by
  unfold demandWake
  split
  · split
    · exact wakeRequest_outward _ s
    · exact .refl s
  · exact .refl s

theorem askWake_outward (c : ClassNo) (m : PairMap) (s : State) : Outward s (askWake c m s) := by
  unfold askWake
  split
  · exact .refl s
  · split
    · exact (countClass_outward c _ s).trans (wakeRequest_outward _ _)
    · exact .refl s

theorem spillFrame_outward (c : ClassNo) (s : State) : Outward s (spillFrame c s) := .of_eq rfl rfl

theorem dropNoPath_outward (c : ClassNo) (s : State) : Outward s (dropNoPath c s) := by
  unfold dropNoPath
  extract_lets k flagged u
  have h : Outward s u := .of_eq rfl rfl
  by_cases e : flagged = true
  · rw [if_pos e]; exact h.trans (reportReset_outward _)
  · rw [if_neg e]; exact h

theorem pathDecision_outward (n : Nat) (c : ClassNo) (s : State) : Outward s (pathDecision n c s).2 := by
  induction n generalizing s with
  | zero => exact .refl s
  | succ n ih =>
    unfold pathDecision
    split
    · exact .refl s
    · split
      · exact .refl s
      · split
        · exact .refl s
        · split
          · exact askWake_outward c _ s
          · split
            · exact (spillFrame_outward c s).trans (ih _)
            · exact (dropNoPath_outward c s).trans (ih _)

theorem placeFragment_outward (c : ClassNo) (s : State) : Outward s (placeFragment c s) := by
  unfold placeFragment
  simp only
  split
  · exact .of_eq rfl rfl
  · split <;> exact .of_eq rfl rfl

theorem selectFrom_outward (cs : List ClassNo) (s : State) : Outward s (selectFrom cs s).2 := by
  induction cs generalizing s with
  | nil => exact .refl s
  | cons c cs ih =>
    have h := pathDecision_outward (decisionsOf (s.cls c)) c s
    unfold selectFrom
    split
    · next t e => rw [e] at h; exact h.trans (placeFragment_outward c t)
    · next t e => rw [e] at h; exact h.trans (ih t)

theorem selectUpTo_outward (n : Nat) (s : State) : Outward s (selectUpTo n s) := by
  induction n generalizing s with
  | zero => exact .refl s
  | succ n ih =>
    have h := selectFrom_outward (classOrder s.cfg.classOrder) s
    unfold selectUpTo
    split
    · split
      · next t e => rw [e] at h; exact (h.trans (demandWake_outward t)).trans (ih _)
      · next t e => rw [e] at h; exact h.trans (demandWake_outward t)
    · exact .refl s

theorem distribute_outward (s : State) : Outward s (distribute s) :=
  (demandWake_outward s).trans (selectUpTo_outward 257 _)

/-! ## Notices and the trunk -/

theorem offerEgress_outward (e : EgressEntry) (s : State) : Outward s (offerEgress e s) := by
  have full : Outward s (countTrunk (fun n => { n with egressFull := n.egressFull + 1 }) s) :=
    ⟨List.prefix_refl _, rfl⟩
  unfold offerEgress
  split
  · exact .of_eq rfl rfl
  · simp only
    split
    · exact full.trans (reportReset_outward _)
    · exact full

theorem sendNotice_outward (src : Source) (d : Addr) (s : State) : Outward s (sendNotice src d s) := by
  unfold sendNotice
  extract_lets f u n v
  have h : Outward s v := ⟨List.prefix_append _ _, rfl⟩
  split
  · exact h.trans (offerEgress_outward _ _)
  · exact (h.trans (offerOwnFrame_outward _ _ _)).trans (distribute_outward _)

theorem sendUpTo_outward (n : Nat) (s : State) : Outward s (sendUpTo n s) := by
  induction n generalizing s with
  | zero => exact .refl s
  | succ n ih =>
    unfold sendUpTo
    split
    · exact (sendNotice_outward _ _ s).trans (ih _)
    · exact .refl s

theorem beginSend_outward (s : State) : Outward s (beginSend s) := by
  unfold beginSend
  split
  · exact .refl s
  · split
    · exact ⟨List.prefix_append _ _, rfl⟩
    · exact .refl s

/-- What follows a notice or something queued. -/
theorem finish_outward {s : State} (h : s.agent.reset = none) : Outward s (finish s) := by
  have still : (beginSend (chooseHandovers (sendNotices s))).agent.reset = none :=
    (((sendNotices_follows s).trans (chooseHandovers_follows _)).trans (beginSend_follows _)).reset h
  unfold finish
  rw [checkReset_none still]
  exact ((sendUpTo_outward 12 s).trans (chooseHandovers_outward _)).trans (beginSend_outward _)

/-- What follows an event of R94. -/
theorem settle_outward {s : State} (h : s.agent.reset = none) : Outward s (settle s) :=
  ((chooseHandovers_outward s).trans (distribute_outward _)).trans
    (finish_outward (((chooseHandovers_follows s).trans (distribute_follows _)).reset h))

end Sys2Proof.Proofs
end

