-- ==== Sys2Proof/Proofs/Requests.lean ====
section
/-! SUPPORT. A request that the agent takes at once, said once for every kind: its reply is put out, the rest of the
part follows the state that its service gives, and one that is refused leaves only its reply (R183-R188). -/

namespace Sys2Proof.Proofs
open Sys2Proof Sys2Proof.Machine Sys2Proof.Laws

/-- The state in which a request is tested and served: the outputs cleared and the request counted. -/
def counted (s : State) : State := countTrunk (fun n => { n with mgmtServed := n.mgmtServed + 1 }) s.silent

/-- A request that meets the header and access tests is served by its kind (R184, R187). -/
theorem serve_admitted {q : ReqHead} {b : ReqBody} {s : State} (h : Admits q b s) :
    serve q b s.silent = serveBody b (counted s) := by
  obtain ⟨header, access, -⟩ := h
  have reached : (changesState b && pathGoverned (counted s) q.path) = false := by
    cases e : changesState b with
    | false => rfl
    | true => exact access e
  simp only [serve, serveTested, header]
  exact if_neg (by rw [← counted, reached]; decide)

/-! ## Only the trunk port -/

theorem OnlyTrunk_trans {s t u : State} (h : OnlyTrunk s t) (k : OnlyTrunk t u) : OnlyTrunk s u := by
  unfold OnlyTrunk at *
  rw [← h, ← k]

theorem counted_onlyTrunk (s : State) : OnlyTrunk s (counted s) := rfl

theorem offerEgress_onlyTrunk (e : EgressEntry) (s : State) (h : e.resetReply = false) :
    OnlyTrunk s (offerEgress e s) := by
  unfold offerEgress
  split
  · rfl
  · rw [h]; rfl

theorem beginSend_onlyTrunk (s : State) : OnlyTrunk s (beginSend s) := by
  unfold beginSend
  split
  · rfl
  · split <;> rfl

/-! ## The reply and what follows it -/

theorem offerReply_follows (r : Reply) (m : Bool) (s : State) : Follows s (offerReply r m s) := by
  unfold offerReply
  extract_lets u
  have h : Follows s u := emit_follows _ _
  split
  · exact h.trans (offerEgress_follows _ _)
  · exact h.trans (offerOwnFrame_follows _ _ _)

theorem offerReply_outward (r : Reply) (m : Bool) (s : State) : Outward s (offerReply r m s) := by
  unfold offerReply
  extract_lets u
  have h : Outward s u := emit_outward _ _
  split
  · exact h.trans (offerEgress_outward _ _)
  · exact h.trans (offerOwnFrame_outward _ _ _)

/-- The reply is among the outputs (R185). -/
theorem mem_offerReply (r : Reply) (m : Bool) (s : State) : Output.reply r ∈ (offerReply r m s).out := by
  have put : Output.reply r ∈ (emit (.reply r) s).out := List.mem_append_right _ (List.mem_singleton_self _)
  unfold offerReply
  simp only
  split
  · exact (offerEgress_outward _ _).out.subset put
  · exact (offerOwnFrame_outward _ _ _).out.subset put

/-- A reply on path TRUNK that is not of a RESET-PART touches the trunk port alone (R186). -/
theorem offerReply_onlyTrunk (r : Reply) (s : State) (h : r.path = .trunk) : OnlyTrunk s (offerReply r false s) := by
  unfold offerReply
  simp only [h]
  exact OnlyTrunk_trans (t := emit (.reply r) s) rfl (offerEgress_onlyTrunk _ _ rfl)

theorem afterReply_follows (path : ServicePath) (b : ReqBody) (st : Status) {s : State}
    (h : s.agent.reset = none) : Follows s (afterReply path b st s) := by
  unfold afterReply
  split
  · exact settle_follows h
  · exact beginSend_follows s

theorem afterReply_outward (path : ServicePath) (b : ReqBody) (st : Status) {s : State}
    (h : s.agent.reset = none) : Outward s (afterReply path b st s) := by
  unfold afterReply
  split
  · exact settle_outward h
  · exact beginSend_outward s

/-! ## A request taken at once -/

/-- The part after a request was served with the result `v` and answered: the reply is out, and the rest follows the
state that the service gave. -/
structure Answered (q : ReqHead) (b : ReqBody) (v : Served) (t : State) : Prop where
  reply : Output.reply (replyTo q b v) ∈ t.out
  follows : Follows v.state t
  outward : Outward v.state t
  trunk : q.path = .trunk → startsEvents b v.status = false → OnlyTrunk v.state t

/-- A request that is no accepted RESET-PART, taken at once by a part without a pending RESET-PART (R183). -/
theorem takeRequest_answered (q : ReqHead) (b : ReqBody) {s : State} (h : s.agent.reset = none)
    (plain : ¬ (b = .resetPart ∧ (serve q b s).status = .ok)) (k : (serve q b s).state.agent.reset = none) :
    Answered q b (serve q b s) (takeRequest q b s) := by
  have e : takeRequest q b s = afterReply q.path b (serve q b s).status
      (offerReply (replyTo q b (serve q b s)) false (serve q b s).state) := by
    simp [takeRequest, h, answer, plain]
  have offered := offerReply_follows (replyTo q b (serve q b s)) false (serve q b s).state
  have onward := afterReply_outward q.path b (serve q b s).status (offered.reset k)
  rw [e]
  exact {
    reply := onward.out.subset (mem_offerReply _ _ _)
    follows := offered.trans (afterReply_follows _ _ _ (offered.reset k))
    outward := (offerReply_outward _ _ _).trans onward
    trunk := fun path quiet => by
      have own := offerReply_onlyTrunk (replyTo q b (serve q b s)) (serve q b s).state path
      simpa [afterReply, path, quiet] using OnlyTrunk_trans own (beginSend_onlyTrunk _) }

/-- A request command that meets its tests, with none waiting and no RESET-PART pending, is served by its kind and
answered (R183-R188). -/
theorem requestArrives_answered {q : ReqHead} {b : ReqBody} {s : State} (h : s.open) (a : Admits q b s)
    (plain : b ≠ .resetPart) (k : (serveBody b (counted s)).state.agent.reset = none) :
    ∃ t, takeCommand (requestArrives q b) s = .next t ∧ Answered q b (serveBody b (counted s)) t := by
  obtain ⟨taking, noReset⟩ := h
  have e := serve_admitted a
  obtain ⟨-, -, noneWaits⟩ := a
  refine ⟨takeRequest q b s.silent, ?_, ?_⟩
  · rw [takeCommand_taking _ taking, ← State.silent, requestArrives_taken q b (s := s.silent) noneWaits]
  · rw [← e] at k ⊢
    exact takeRequest_answered q b noReset (fun r => plain r.1) k

/-- A request whose service changed nothing leaves only its reply (R183, R186). -/
theorem Answered.onlyReply {q : ReqHead} {b : ReqBody} {v : Served} {s t : State} (h : Answered q b v t)
    (same : v.state = counted s) (noReset : s.agent.reset = none) (quiet : startsEvents b v.status = false) :
    OnlyReply q s t := by
  obtain ⟨-, follows, outward, trunk⟩ := h
  rw [same] at follows outward trunk
  have agent : t.agent = s.agent := by
    have requests : t.agent.requests = s.agent.requests := follows.requests
    have reset : t.agent.reset = s.agent.reset := (follows.reset noReset).trans noReset.symm
    cases ht : t.agent; cases hs : s.agent; simp_all
  exact ⟨fun path => OnlyTrunk_trans (counted_onlyTrunk s) (trunk path quiet), outward.mgmtServed, follows.pairs,
    follows.settings, follows.contexts, follows.bond, follows.engine, follows.classifier, agent, follows.now⟩

end Sys2Proof.Proofs
end

