-- ==== Sys2Proof/Proofs/FetchAndClear.lean ====
section
/-! TABLE-FETCH and TABLE-CLEAR (R63, R64): what an index names, what a blank entry can win, and the two requests. -/

namespace Sys2Proof.Proofs
open Sys2Proof Sys2Proof.Machine Sys2Proof.Laws

/-! ## Indices -/

theorem entryIndex_of_toNat {o : Octet} {i : Fin 32} (h : o.toNat = i.val) : entryIndex o = some i := by
  unfold entryIndex
  rw [dif_pos (h ▸ i.isLt)]
  exact congrArg some (Fin.ext h)

theorem entryIndex_beyond {o : Octet} (h : 31 < o.toNat) : entryIndex o = none := by
  unfold entryIndex
  rw [dif_neg (by omega)]

/-! ## What an UNUSED entry keeps from winning -/

/-- A winner is primary, matches by its own fields, and so do all its companions (R53). -/
theorem winner_passes {t : Vector Entry 32} {x : FrameFields} {j : Fin 32} (h : winner t x = some j) :
    (t.get j).f.primary = true ∧ matchOwn (t.get j).f x = true ∧
      ∀ i : Fin 32, (t.get j).f.companions.holds i = true → matchOwn (t.get i).f x = true := by
  have passes : candidatePasses t x j = true := List.find?_some h
  simp only [candidatePasses, companionsPass, Bool.and_eq_true, List.all_eq_true] at passes
  obtain ⟨⟨primary, own⟩, companions⟩ := passes
  exact ⟨primary, own, fun i holds => by simpa [holds] using companions i (List.mem_finRange i)⟩

theorem matchOwn_unused {e : EntryFields} (h : e.kind = .unused) (x : FrameFields) : matchOwn e x = false := by
  simp [matchOwn, h]

/-- An UNUSED entry wins no frame, and neither does one that names it among its companions (R47, R52, R64). -/
theorem winner_avoids_unused {t : Vector Entry 32} {i : Fin 32} (h : (t.get i).f.kind = .unused) {x : FrameFields}
    {j : Fin 32} (w : winner t x = some j) : j ≠ i ∧ (t.get j).f.companions.holds i = false := by
  obtain ⟨-, own, companions⟩ := winner_passes w
  have unmatched := matchOwn_unused h x
  constructor
  · rintro rfl
    exact absurd own (by simp [unmatched])
  · exact Bool.eq_false_iff.2 fun holds => absurd (companions i holds) (by simp [unmatched])

/-! ## The requests -/

theorem exec_tableFetch (q : ReqHead) (o : Octet) (s : State) :
    exec (.tableFetch q o) s = takeCommand (requestArrives q (.tableFetch o)) s := rfl

theorem exec_tableClear (q : ReqHead) (o : Octet) (s : State) :
    exec (.tableClear q o) s = takeCommand (requestArrives q (.tableClear o)) s := rfl

theorem serveBody_tableFetch {o : Octet} {i : Fin 32} (h : entryIndex o = some i) (s : State) :
    serveBody (.tableFetch o) s = ⟨.ok, .image (s.classifier.table.get i).f, fetchEntry i s⟩ := by
  simp [serveBody, serveTableFetch, h, fetchEntry]

theorem serveBody_tableClear {o : Octet} {i : Fin 32} (h : entryIndex o = some i) (s : State) :
    serveBody (.tableClear o) s = ⟨.ok, .empty, clearEntry i s⟩ := by
  simp [serveBody, serveTableClear, h]

theorem serveBody_tableFetch_refused {o : Octet} (h : entryIndex o = none) (s : State) :
    serveBody (.tableFetch o) s = refuse .badIndex s := by
  simp [serveBody, serveTableFetch, h]

theorem serveBody_tableClear_refused {o : Octet} (h : entryIndex o = none) (s : State) :
    serveBody (.tableClear o) s = refuse .badIndex s := by
  simp [serveBody, serveTableClear, h]

/-- A request refused by its kind alone is answered so and leaves only its reply (R185, R188). -/
theorem requestArrives_refused {q : ReqHead} {b : ReqBody} {st : Status} {s : State} (h : s.open) (a : Admits q b s)
    (plain : b ≠ .resetPart) (e : serveBody b (counted s) = refuse st (counted s))
    (quiet : startsEvents b st = false) :
    ∃ t, takeCommand (requestArrives q b) s = .next t ∧ OnlyReply q s t ∧
      Answers q (kindCode b) st .empty s.cfg.stationAddress t := by
  obtain ⟨t, next, answered⟩ := requestArrives_answered h a plain (by rw [e]; exact h.2)
  rw [e] at answered
  exact ⟨t, next, answered.onlyReply rfl h.2 quiet, answered.reply⟩

/-- TABLE-FETCH of an entry (R63). -/
theorem tableFetch_copies {q : ReqHead} {o : Octet} {i : Fin 32} {s : State} (h : s.open)
    (a : Admits q (.tableFetch o) s) (named : o.toNat = i.val) :
    ∃ t, exec (.tableFetch q o) s = .next t ∧ t.classifier.table = s.classifier.table ∧
      t.classifier.image = (s.classifier.table.get i).f ∧ t.classifier.enable = [] ∧
      Answers q 8 .ok (.image (s.classifier.table.get i).f) s.cfg.stationAddress t ∧ AllLeft s t := by
  have e := serveBody_tableFetch (entryIndex_of_toNat named) (counted s)
  obtain ⟨t, next, answered⟩ := requestArrives_answered h a (by simp) (by rw [e]; exact h.2)
  rw [e] at answered
  have after : t.classifier = (fetchEntry i (counted s)).classifier := answered.follows.classifier
  exact ⟨t, next, by rw [after]; rfl, by rw [after]; rfl, by rw [after]; rfl, answered.reply, answered.follows.pairs⟩

/-- TABLE-CLEAR of an entry: what the table and the staging record become (R64). -/
theorem tableClear_blanks {q : ReqHead} {o : Octet} {i : Fin 32} {s : State} (h : s.open)
    (a : Admits q (.tableClear o) s) (named : o.toNat = i.val) :
    ∃ t, exec (.tableClear q o) s = .next t ∧ t.classifier.table.get i = {} ∧
      (∀ j : Fin 32, j ≠ i → t.classifier.table.get j = s.classifier.table.get j) ∧
      t.classifier.image = s.classifier.image ∧ t.classifier.enable = s.classifier.enable ∧
      Answers q 9 .ok .empty s.cfg.stationAddress t ∧ AllLeft s t := by
  have e := serveBody_tableClear (entryIndex_of_toNat named) (counted s)
  obtain ⟨t, next, answered⟩ := requestArrives_answered h a (by simp) (by rw [e]; exact h.2)
  rw [e] at answered
  have after : t.classifier = (clearEntry i (counted s)).classifier := answered.follows.classifier
  refine ⟨t, next, ?_, fun j other => ?_, by rw [after]; rfl, by rw [after]; rfl, answered.reply,
    answered.follows.pairs⟩
  · rw [after, clearEntry, modEntry_get, if_pos rfl]
  · rw [after, clearEntry, modEntry_get, if_neg other]; rfl

/-- Settles O50: the two requests of a named entry, and their refusal of an index above 31. -/
theorem fetchAndClear : Obligations.FetchAndClear := by
  intro q o s h
  refine ⟨fun a => ⟨fun i named => tableFetch_copies h a named, fun beyond => ?_⟩,
    fun a => ⟨fun i named => ?_, fun beyond => ?_⟩⟩
  · exact requestArrives_refused h a (by simp) (serveBody_tableFetch_refused (entryIndex_beyond beyond) _) rfl
  · obtain ⟨t, next, blank, others, image, enable, reply, left⟩ := tableClear_blanks h a named
    have unused : (t.classifier.table.get i).f.kind = .unused := by rw [blank]
    refine ⟨t, next, unused, ?_, ?_, ?_, ?_, ?_, ?_, ?_, blank, ?_, others, image, enable,
      fun _ _ w => winner_avoids_unused unused w, reply, left⟩ <;> rw [blank]
  · exact requestArrives_refused h a (by simp) (serveBody_tableClear_refused (entryIndex_beyond beyond) _) rfl

end Sys2Proof.Proofs
end

