-- ==== Sys2Proof/Proofs/GateWindow.lean ====
section
/-! The end of a gate window (R70 b, R73): the gauge's two steps as equations over the pair unit, and the rate that a
sample gives as the integer that the manual forms. -/

namespace Sys2Proof.Proofs
open Sys2Proof Sys2Proof.Machine Sys2Proof.Laws

/-! ## The new rate -/

theorem clampTo_eq_max_min {lo hi : Nat} (h : lo ≤ hi) (n : Nat) : clampTo lo hi n = max lo (min hi n) := by
  unfold clampTo
  split
  · omega
  · split <;> omega

/-- The rate after a sample is the integer that R73 forms: a sum below 0 is clamped to 16 like any other below 16. -/
theorem sampleRate_cast (sample rate : Nat) :
    (sampleRate sample rate : Int) =
      max 16 (min 16383 ((rate : Int) + ((sample : Int) - (rate : Int)).tdiv 4)) := by
  rw [sampleRate, clampTo_eq_max_min (by decide)]
  omega

/-! ## The end of one window and the start of the next -/

theorem ms_div_thousand (n : Nat) : ms n / 1000 = n := Nat.mul_div_cancel n (by decide)

/-- A saturated window of `len` milliseconds gives a sample (R73, R82). -/
theorem endWindow_saturated {u : PairUnit} (h : u.busy = true) (len : Nat) :
    u.endWindow (ms len) = { u with
      rate := sampleRate (min 16383 (u.windowCount / len)) u.rate
      n := { u.n with rateSample := u.n.rateSample + 1 } } := by
  rw [PairUnit.endWindow, if_pos h, ms_div_thousand, windowSample]

/-- Any other window leaves R as it is (R73, R82). -/
theorem endWindow_held {u : PairUnit} (h : ¬ u.busy = true) (dur : Nat) :
    u.endWindow dur = { u with n := { u.n with rateHold := u.n.rateHold + 1 } } := by
  rw [PairUnit.endWindow, if_neg h]

/-- The start of a window over all four settings of *gate window* at once (R70 a). -/
theorem startWindow_eq (now : Nat) (b : BondSettings) (u : PairUnit) :
    u.startWindow now b = { u with
      window := (windowLength b.gateWindow).map fun l => ⟨now, ms l⟩
      windowCount := 0
      busy := b.gateWindow != .trained && !u.queue.isEmpty } := by
  unfold PairUnit.startWindow
  cases b.gateWindow <;> rfl

/-- The end of a window touches R and the counters alone, and the next starts on the same queue (R70 b). -/
theorem endWindow_startWindow (dur now : Nat) (b : BondSettings) (u : PairUnit) :
    (u.endWindow dur).startWindow now b = { u with
      rate := (u.endWindow dur).rate
      n := (u.endWindow dur).n
      window := (windowLength b.gateWindow).map fun l => ⟨now, ms l⟩
      windowCount := 0
      busy := b.gateWindow != .trained && !u.queue.isEmpty } := by
  rw [startWindow_eq]
  unfold PairUnit.endWindow
  split <;> rfl

/-! ## The command -/

theorem modPair_onlyPair (p : PairNo) (f : PairUnit → PairUnit) (s : State) : OnlyPair p s (modPair p f s) :=
  ⟨fun _ other => modPair_pair_other s p f other, rfl, rfl, rfl, rfl, rfl, rfl, rfl, rfl, rfl, rfl, rfl, rfl, rfl, rfl,
    rfl⟩

/-- GATE_WINDOW_END of a running window. -/
theorem exec_gateWindowEnd {p : PairNo} {tm : Timer} {s : State} (h : s.taking)
    (running : (s.pair p).window = some tm) :
    exec (.gateWindowEnd p) s = .next (gateWindowEnd p tm (reach tm s.silent)) := by
  have dispatched : exec (.gateWindowEnd p) s = execGateWindowEnd p s := rfl
  have unit : (State.silent s).pair p = s.pair p := rfl
  rw [dispatched, execGateWindowEnd, takeCommand_taking _ h, ← State.silent]
  simp only [unit, running]

/-- Settles O36: the clock reaches the end of the window, and the window was saturated or not. -/
theorem gateWindowSamples : Obligations.GateWindowSamples := by
  intro p start len s h running _
  refine ⟨_, exec_gateWindowEnd h running, modPair_onlyPair p _ (reach ⟨start, ms len⟩ s.silent),
    ((s.pair p).endWindow (ms len)).rate, ((s.pair p).endWindow (ms len)).n, ?_, ?_⟩
  · exact (modPair_pair_same _ p _).trans (endWindow_startWindow (ms len) _ s.cfg (s.pair p))
  · split
    · next saturated =>
      rw [endWindow_saturated saturated]
      exact ⟨sampleRate_cast _ _, rfl⟩
    · next held =>
      rw [endWindow_held held]
      exact ⟨rfl, rfl⟩

end Sys2Proof.Proofs
end

