-- ==== Sys2Proof/Proofs/Moves.lean ====
section
/-! SUPPORT. What follows an event as a chain of single moves: it never touches the collector's and the reassembler's
counters, and it places no fragment on a pair that offers quiet. It stands beside `Follows` and `Outward`; a proof about
a command cites `settle_moves` and `finish_moves`. -/

namespace Sys2Proof.Proofs
open Sys2Proof Sys2Proof.Machine Sys2Proof.Laws
open Relation (ReflTransGen)

/-! ## The moves -/

/-- The counters of R132 and R141: the class counters without those of the distributor (R108). -/
def inbound (n : ClassCounters) : ClassCounters :=
  { n with admitted := 0, queueDrop := 0, noPath := 0, spill := 0, wakeAsk := 0, fragPlaced := 0, moved := 0
           flushed := 0 }

/-- A SERVING pair that offers quiet, with nothing to send (R173). -/
def OffersEmpty (u : PairUnit) : Prop := u.state = .serving ∧ u.offering = true ∧ u.queue = []

/-- One move of what follows an event: away from the pair units; on what waits on a pair but for its queue; the
placement of a fragment on a pair that is eligible for it (R77, R93); or a wake by the distributor (R99, R103). -/
inductive Move : State → State → Prop
  | away {s t : State} (pairs : t.pairs = s.pairs)
      (counters : ∀ c : ClassNo, inbound (t.cls c).n = inbound (s.cls c).n) : Move s t
  | waiting (p : PairNo) (f : PairUnit → PairUnit) (s : State) (steady : (f (s.pair p)).steady = (s.pair p).steady)
      (queue : (f (s.pair p)).queue = (s.pair p).queue) : Move s (modPair p f s)
  | place (p : PairNo) (e : Desc) (s : State) (fits : eligible s e.allowed p = true) : Move s (append p e s)
  | wake (p : PairNo) (s : State) (quiet : (s.pair p).state = .quiet) : Move s (enterWaking p .demand s)

abbrev Moves : State → State → Prop := ReflTransGen Move

theorem enterWaking_pair_other {p q : PairNo} (cause : WakeCause) (s : State) (h : q ≠ p) :
    (enterWaking p cause s).pair q = s.pair q := by
  cases cause <;> simp [enterWaking, Machine.tell, raiseCtl, enterState, modPair_pair_other, h]

/-- A pair that offers is eligible for no fragment (R77). -/
theorem not_eligible_of_offering {s : State} {p : PairNo} (m : PairMap) (h : (s.pair p).offering = true) :
    eligible s m p = false := by
  simp [eligible, h]

theorem Move.keeps_inbound {s t : State} (m : Move s t) (c : ClassNo) :
    inbound (t.cls c).n = inbound (s.cls c).n := by
  cases m with
  | away _ counters => exact counters c
  | waiting | place | wake => rfl

theorem Move.keeps_offersEmpty {s t : State} (m : Move s t) {q : PairNo} (h : OffersEmpty (s.pair q)) :
    OffersEmpty (t.pair q) := by
  obtain ⟨serving, offering, empty⟩ := h
  cases m with
  | away pairs _ =>
    have unit : t.pair q = s.pair q := congrArg (Vector.get · q) pairs
    rw [unit]
    exact ⟨serving, offering, empty⟩
  | waiting p f _ steady queue =>
    by_cases e : q = p
    · subst e
      have state := congrArg PairUnit.state steady
      have offers := congrArg PairUnit.offering steady
      rw [modPair_pair_same]
      exact ⟨state.trans serving, offers.trans offering, queue.trans empty⟩
    · rw [modPair_pair_other _ _ _ e]
      exact ⟨serving, offering, empty⟩
  | place p e _ fits =>
    have other : q ≠ p := by
      rintro rfl
      simp [not_eligible_of_offering e.allowed offering] at fits
    rw [append, modPair_pair_other _ _ _ other]
    exact ⟨serving, offering, empty⟩
  | wake p _ quiet =>
    have other : q ≠ p := by
      rintro rfl
      simp [serving] at quiet
    rw [enterWaking_pair_other _ _ other]
    exact ⟨serving, offering, empty⟩

/-- What follows an event counts nothing at the collector and the reassembler. -/
theorem moves_keep_inbound {s t : State} (h : Moves s t) (c : ClassNo) :
    inbound (t.cls c).n = inbound (s.cls c).n := by
  induction h with
  | refl => rfl
  | tail _ m ih => exact (m.keeps_inbound c).trans ih

/-- What follows an event gives an offering pair nothing to send. -/
theorem moves_keep_offersEmpty {s t : State} (h : Moves s t) {q : PairNo} (k : OffersEmpty (s.pair q)) :
    OffersEmpty (t.pair q) := by
  induction h with
  | refl => exact k
  | tail _ m ih => exact m.keeps_offersEmpty ih

/-! ## Plain updates -/

theorem modClass_inbound (c : ClassNo) (f : ClassUnit → ClassUnit) (s : State)
    (h : inbound (f (s.cls c)).n = inbound (s.cls c).n) (d : ClassNo) :
    inbound ((modClass c f s).cls d).n = inbound (s.cls d).n := by
  rw [modClass_cls]
  split
  · next e => subst e; exact h
  · rfl

theorem modClass_moves (c : ClassNo) (f : ClassUnit → ClassUnit) (s : State)
    (h : inbound (f (s.cls c)).n = inbound (s.cls c).n) : Moves s (modClass c f s) :=
  .single (.away rfl (modClass_inbound c f s h))

/-- A step that leaves the pair units and the classes. -/
theorem moves_of_eq {s t : State} (pairs : t.pairs = s.pairs) (classes : t.classes = s.classes) : Moves s t :=
  .single (.away pairs fun c => congrArg (fun v => inbound (v.get c).n) classes)

theorem waiting_moves (p : PairNo) (f : PairUnit → PairUnit) (s : State)
    (steady : (f (s.pair p)).steady = (s.pair p).steady) (queue : (f (s.pair p)).queue = (s.pair p).queue) :
    Moves s (modPair p f s) := .single (.waiting p f s steady queue)

theorem emit_moves (o : Output) (s : State) : Moves s (emit o s) := moves_of_eq rfl rfl

theorem countTrunk_moves (f : TrunkCounters → TrunkCounters) (s : State) : Moves s (countTrunk f s) :=
  moves_of_eq rfl rfl

theorem raiseNotice_moves (src : Source) (a : NoticeArg) (s : State) : Moves s (raiseNotice src a s) :=
  moves_of_eq rfl rfl

theorem setCarried_moves (s : State) : Moves s (setCarried s) := moves_of_eq rfl rfl

theorem reportReset_moves (s : State) : Moves s (reportReset s) := by
  unfold reportReset
  split <;> exact moves_of_eq rfl rfl

/-! ## The pairs' choices -/

theorem startHandover_moves (p : PairNo) (f : Fragment) (s : State) : Moves s (startHandover p f s) :=
  (waiting_moves p _ s rfl rfl).trans (emit_moves _ _)

theorem beginCtl_moves (p : PairNo) (k : Ctl) (s : State) : Moves s (beginCtl p k s) := by
  refine (waiting_moves p _ s ?_ rfl).trans (startHandover_moves p _ _)
  cases k <;> rfl

theorem patternStarts_moves (p : PairNo) (s : State) : Moves s (patternStarts p s) := by
  unfold patternStarts
  split
  · split <;> exact moves_of_eq rfl rfl
  · exact .refl

theorem beginProve_moves (p : PairNo) (m : ProveMsg) (s : State) : Moves s (beginProve p m s) := by
  have h : Moves s (startHandover p (proveFragment s m) (modPair p (fun u => { u with proveSlot := none }) s)) :=
    (waiting_moves p _ s rfl rfl).trans (startHandover_moves p _ _)
  unfold beginProve
  split
  · exact h
  · exact h.trans (patternStarts_moves p _)

theorem chooseHandover_moves (p : PairNo) (s : State) : Moves s (chooseHandover p s) := by
  unfold chooseHandover
  simp only
  split
  · split
    · exact beginCtl_moves p _ s
    · exact beginProve_moves p _ s
    · split
      · exact startHandover_moves p _ s
      · exact .refl
    · exact .refl
  · exact .refl

theorem chooseHandovers_moves (s : State) : Moves s (chooseHandovers s) := by
  unfold chooseHandovers eachPair
  induction allPairs generalizing s with
  | nil => exact .refl
  | cons p ps ih => exact (chooseHandover_moves p s).trans (ih _)

/-! ## Admission, path decisions and selections -/

theorem takeSlot_moves (c : ClassNo) (f : FrameRec) (s : State) : Moves s (takeSlot c f s) :=
  .single (.away rfl (modClass_inbound c (fun k => { k with
    queue := insertFrame { f with order := s.nextOrder } k.queue
    n := { k.n with admitted := k.n.admitted + 1 } }) s rfl))

theorem countQueueDrop_moves (c : ClassNo) (s : State) : Moves s (countQueueDrop c s) :=
  (modClass_moves c _ s rfl).trans (raiseNotice_moves _ _ _)

theorem offerFrame_moves (c : ClassNo) (f : FrameRec) (s : State) : Moves s (offerFrame c f s) := by
  have drop : Moves s (if f.resetReply then reportReset (countQueueDrop c s) else countQueueDrop c s) := by
    split
    · exact (countQueueDrop_moves c s).trans (reportReset_moves _)
    · exact countQueueDrop_moves c s
  unfold offerFrame
  simp only
  split
  · exact takeSlot_moves c f s
  · split
    · split
      · exact ((modClass_moves c _ s rfl).trans (countQueueDrop_moves c _)).trans (takeSlot_moves c f _)
      · exact drop
    · exact drop

theorem wakeRequest_moves (p : PairNo) (s : State) : Moves s (wakeRequest p s) := by
  unfold wakeRequest
  split
  · next quiet => exact .single (.wake p s quiet)
  · exact .refl

theorem demandWake_moves (s : State) : Moves s (demandWake s) := by
  unfold demandWake
  split
  · split
    · exact wakeRequest_moves _ s
    · exact .refl
  · exact .refl

theorem askWake_moves (c : ClassNo) (m : PairMap) (s : State) : Moves s (askWake c m s) := by
  unfold askWake
  split
  · exact .refl
  · split
    · exact (modClass_moves c _ s rfl).trans (wakeRequest_moves _ _)
    · exact .refl

theorem spillFrame_moves (c : ClassNo) (s : State) : Moves s (spillFrame c s) := by
  refine modClass_moves c (fun k => { k.setDecisionMap (PairMap.ofPred fun p => (s.pair p).state = .serving) with
    n := { k.n with spill := k.n.spill + 1 } }) s ?_
  rfl

theorem dropNoPath_moves (c : ClassNo) (s : State) : Moves s (dropNoPath c s) := by
  unfold dropNoPath
  extract_lets k flagged u
  have h : Moves s u := modClass_moves c _ s rfl
  by_cases e : flagged = true
  · rw [if_pos e]; exact h.trans (reportReset_moves _)
  · rw [if_neg e]; exact h

theorem pathDecision_moves (n : Nat) (c : ClassNo) (s : State) : Moves s (pathDecision n c s).2 := by
  induction n generalizing s with
  | zero => exact .refl
  | succ n ih =>
    unfold pathDecision
    split
    · exact .refl
    · split
      · exact .refl
      · split
        · exact .refl
        · split
          · exact askWake_moves c _ s
          · split
            · exact (spillFrame_moves c s).trans (ih _)
            · exact (dropNoPath_moves c s).trans (ih _)

/-- The pair choice picks an eligible pair (R79). -/
theorem choosePair_eligible {s : State} {m : PairMap} {l : Nat} {p : PairNo} (h : choosePair s m l = some p) :
    eligible s m p = true := by
  unfold choosePair at h
  refine List.foldlRecOn (motive := fun best => ∀ q, best = some q → eligible s m q = true) _ _ ?_ ?_ p h
  · simp
  intro best fits q mem
  have fit := (List.mem_filter.1 mem).2
  cases best with
  | none => simpa using fit
  | some a =>
    have fitA := fits a rfl
    simp only [betterPair, Option.some.injEq, forall_eq']
    split
    · exact fit
    · exact fitA

theorem placeFragment_moves (c : ClassNo) (s : State) : Moves s (placeFragment c s) := by
  have start : Moves s (modClass c ClassUnit.startFrame s) := by
    refine modClass_moves c _ s ?_
    unfold ClassUnit.startFrame
    split <;> rfl
  unfold placeFragment
  simp only
  split
  · exact start
  · split
    · exact start
    · next chosen =>
      exact ((start.trans (modClass_moves c _ _ rfl)).trans (setCarried_moves _)).tail
        (.place _ _ _ (choosePair_eligible chosen))

theorem selectFrom_moves (cs : List ClassNo) (s : State) : Moves s (selectFrom cs s).2 := by
  induction cs generalizing s with
  | nil => exact .refl
  | cons c cs ih =>
    have h := pathDecision_moves (decisionsOf (s.cls c)) c s
    unfold selectFrom
    split
    · next t e => rw [e] at h; exact h.trans (placeFragment_moves c t)
    · next t e => rw [e] at h; exact h.trans (ih t)

theorem selectUpTo_moves (n : Nat) (s : State) : Moves s (selectUpTo n s) := by
  induction n generalizing s with
  | zero => exact .refl
  | succ n ih =>
    have h := selectFrom_moves (classOrder s.cfg.classOrder) s
    unfold selectUpTo
    split
    · split
      · next t e => rw [e] at h; exact (h.trans (demandWake_moves t)).trans (ih _)
      · next t e => rw [e] at h; exact h.trans (demandWake_moves t)
    · exact .refl

theorem distribute_moves (s : State) : Moves s (distribute s) :=
  (demandWake_moves s).trans (selectUpTo_moves 257 _)

/-! ## Notices and the trunk -/

theorem offerEgress_moves (e : EgressEntry) (s : State) : Moves s (offerEgress e s) := by
  unfold offerEgress
  split
  · exact moves_of_eq rfl rfl
  · simp only
    split
    · exact (countTrunk_moves _ s).trans (reportReset_moves _)
    · exact countTrunk_moves _ s

theorem sendNotice_moves (src : Source) (d : Addr) (s : State) : Moves s (sendNotice src d s) := by
  unfold sendNotice
  extract_lets f u n v
  have h : Moves s v := moves_of_eq rfl rfl
  split
  · exact h.trans (offerEgress_moves _ _)
  · exact (h.trans (offerFrame_moves 0 _ _)).trans (distribute_moves _)

theorem sendUpTo_moves (n : Nat) (s : State) : Moves s (sendUpTo n s) := by
  induction n generalizing s with
  | zero => exact .refl
  | succ n ih =>
    unfold sendUpTo
    split
    · exact (sendNotice_moves _ _ s).trans (ih _)
    · exact .refl

theorem beginSend_moves (s : State) : Moves s (beginSend s) := by
  unfold beginSend
  split
  · exact .refl
  · split <;> exact moves_of_eq rfl rfl

/-- What follows a notice or something queued. -/
theorem finish_moves {s : State} (h : s.agent.reset = none) : Moves s (finish s) := by
  have still : (beginSend (chooseHandovers (sendNotices s))).agent.reset = none :=
    (((sendNotices_follows s).trans (chooseHandovers_follows _)).trans (beginSend_follows _)).reset h
  unfold finish
  rw [checkReset_none still]
  exact ((sendUpTo_moves 12 s).trans (chooseHandovers_moves _)).trans (beginSend_moves _)

/-- What follows an event of R94. -/
theorem settle_moves {s : State} (h : s.agent.reset = none) : Moves s (settle s) :=
  ((chooseHandovers_moves s).trans (distribute_moves _)).trans
    (finish_moves (((chooseHandovers_follows s).trans (distribute_follows _)).reset h))

end Sys2Proof.Proofs
end

