-- ==== Sys2Proof/Proofs/Collector.lean ====
section
/-! SUPPORT. The collector and the reassembler over one class (R112-R139): what an arrival, a delivery pass and a loss
declaration leave, the four cases of R117 as equations, and when neither releases nor declares anything. -/

namespace Sys2Proof.Proofs
open Sys2Proof Sys2Proof.Machine Sys2Proof.Laws

/-! ## What the collector leaves -/

/-- Work of the collector on class `c` leaves every pair unit, the settings, the bond controller but for its carried
flag, the sort table and every other class, and makes no RESET-PART pending. -/
structure Collects (c : ClassNo) (s t : State) : Prop where
  pairs : t.pairs = s.pairs
  settings : SettingsKept s t
  bond : BondLeft s t
  classifier : t.classifier = s.classifier
  reset : s.agent.reset = none → t.agent.reset = none
  others : ∀ d : ClassNo, d ≠ c → t.cls d = s.cls d

/-- Work on what is already stored: the horizons stay and nothing is accepted. -/
structure Delivers (c : ClassNo) (s t : State) : Prop extends Collects c s t where
  horizons : (t.cls c).horizons = (s.cls c).horizons
  accepted : (t.cls c).n.accepted = (s.cls c).n.accepted

theorem Collects.trans {c : ClassNo} {s t u : State} (h : Collects c s t) (k : Collects c t u) : Collects c s u where
  pairs := k.pairs.trans h.pairs
  settings := SettingsKept_trans h.settings k.settings
  bond := BondLeft_trans h.bond k.bond
  classifier := k.classifier.trans h.classifier
  reset x := k.reset (h.reset x)
  others d e := (k.others d e).trans (h.others d e)

theorem Delivers.refl (c : ClassNo) (s : State) : Delivers c s s where
  pairs := rfl
  settings := (Follows.refl s).settings
  bond := (Follows.refl s).bond
  classifier := rfl
  reset := id
  others _ _ := rfl
  horizons := rfl
  accepted := rfl

theorem Delivers.trans {c : ClassNo} {s t u : State} (h : Delivers c s t) (k : Delivers c t u) : Delivers c s u where
  toCollects := h.toCollects.trans k.toCollects
  horizons := k.horizons.trans h.horizons
  accepted := k.accepted.trans h.accepted

/-- A change of a class that keeps its settings keeps the settings. -/
theorem modClass_settingsKept (c : ClassNo) (f : ClassUnit → ClassUnit) (s : State)
    (h : (f (s.cls c)).cfg = (s.cls c).cfg) : SettingsKept s (modClass c f s) := by
  refine ⟨rfl, rfl, rfl, rfl, rfl, rfl, rfl, fun _ => rfl, fun d => ?_, rfl, rfl, rfl, fun _ => ⟨rfl, rfl⟩,
    fun _ => rfl, rfl, rfl⟩
  rw [modClass_cls]
  split
  · next e => subst e; exact h
  · rfl

theorem modClass_collects (c : ClassNo) (f : ClassUnit → ClassUnit) (s : State)
    (h : (f (s.cls c)).cfg = (s.cls c).cfg) : Collects c s (modClass c f s) :=
  { (Delivers.refl c s).toCollects with
    settings := modClass_settingsKept c f s h
    others := fun _ e => modClass_cls_other s c f e }

theorem modClass_delivers (c : ClassNo) (f : ClassUnit → ClassUnit) (s : State)
    (settings : (f (s.cls c)).cfg = (s.cls c).cfg) (horizons : (f (s.cls c)).horizons = (s.cls c).horizons)
    (accepted : (f (s.cls c)).n.accepted = (s.cls c).n.accepted) : Delivers c s (modClass c f s) where
  toCollects := modClass_collects c f s settings
  horizons := (congrArg ClassUnit.horizons (modClass_cls_same s c f)).trans horizons
  accepted := (congrArg (·.n.accepted) (modClass_cls_same s c f)).trans accepted

theorem setReasm_delivers (c : ClassNo) (r : Reasm) (s : State) : Delivers c s (setReasm c r s) :=
  modClass_delivers c _ s rfl rfl rfl

theorem countClass_delivers (c : ClassNo) (f : ClassCounters → ClassCounters) (s : State)
    (h : (f (s.cls c).n).accepted = (s.cls c).n.accepted) : Delivers c s (countClass c f s) :=
  modClass_delivers c _ s rfl rfl h

theorem countTrunk_delivers (c : ClassNo) (f : TrunkCounters → TrunkCounters) (s : State) :
    Delivers c s (countTrunk f s) := { Delivers.refl c s with }

theorem handToAgent_delivers (c : ClassNo) (r : Request) (s : State) : Delivers c s (handToAgent r s) :=
  { Delivers.refl c s with }

theorem raiseNotice_delivers (c : ClassNo) (src : Source) (a : NoticeArg) (s : State) :
    Delivers c s (raiseNotice src a s) :=
  { Delivers.refl c s with settings := (raiseNotice_follows src a s).settings }

theorem setCarried_delivers (c : ClassNo) (s : State) : Delivers c s (setCarried s) :=
  { Delivers.refl c s with bond := (setCarried_follows s).bond }

/-- A frame of the bond that is offered to the egress queue (R147). -/
theorem offerEgress_delivers (c : ClassNo) (e : EgressEntry) (s : State) (h : e.resetReply = false) :
    Delivers c s (offerEgress e s) := by
  unfold offerEgress
  split
  · exact { Delivers.refl c s with }
  · simp only [h, Bool.false_eq_true, if_false]
    exact countTrunk_delivers c _ s

/-! ## Reassembly -/

theorem passOn_delivers (c : ClassNo) (f : Frame) (s : State) : Delivers c s (passOn c f s) := by
  unfold passOn
  split
  · exact countClass_delivers c _ s rfl
  · split
    · exact (countClass_delivers c _ s rfl).trans (handToAgent_delivers c _ _)
    · split
      · exact countTrunk_delivers c _ s
      · exact (countClass_delivers c _ s rfl).trans (offerEgress_delivers c _ _ rfl)

theorem tear_delivers (c : ClassNo) (s : State) : Delivers c s (tear c s) := by
  unfold tear
  split
  · exact countClass_delivers c _ s rfl
  · exact .refl c s

theorem reassemble_delivers (c : ClassNo) (first last : Bool) (payload : List Octet) (s : State) :
    Delivers c s (reassemble c first last payload s) := by
  unfold reassemble
  split
  · exact (tear_delivers c s).trans (setReasm_delivers c _ _)
  · exact ((tear_delivers c s).trans (setReasm_delivers c _ _)).trans (passOn_delivers c _ _)
  · split
    · exact countClass_delivers c _ s rfl
    · exact (countClass_delivers c _ s rfl).trans (setReasm_delivers c _ _)
    · split
      · exact (countClass_delivers c _ s rfl).trans (setReasm_delivers c _ _)
      · split
        · exact (setReasm_delivers c _ s).trans (passOn_delivers c _ _)
        · exact setReasm_delivers c _ s

theorem reassembleLoss_delivers (c : ClassNo) (s : State) : Delivers c s (reassembleLoss c s) := by
  unfold reassembleLoss
  split
  · exact (countClass_delivers c _ s rfl).trans (setReasm_delivers c _ _)
  · exact setReasm_delivers c _ s

/-! ## Delivery and loss -/

theorem releaseHeld_delivers (c : ClassNo) (f : Held) (s : State) : Delivers c s (releaseHeld c f s) :=
  (modClass_delivers c _ s rfl rfl rfl).trans (reassemble_delivers c _ _ _ _)

theorem deliverUpTo_delivers (n : Nat) (c : ClassNo) (s : State) : Delivers c s (deliverUpTo n c s) := by
  induction n generalizing s with
  | zero => exact .refl c s
  | succ n ih =>
    unfold deliverUpTo
    split
    · exact .refl c s
    · exact (releaseHeld_delivers c _ s).trans (ih _)

theorem deliveryPass_delivers (c : ClassNo) (s : State) : Delivers c s (deliveryPass c s) :=
  deliverUpTo_delivers _ c s

theorem declareLost_delivers (c : ClassNo) (s : State) : Delivers c s (declareLost c s) := by
  have marked := (reassembleLoss_delivers c s).trans (countClass_delivers c (fun n => { n with
    gapLost := n.gapLost + 1 }) _ rfl)
  have raised := marked.trans (raiseNotice_delivers c .gapLoss (valueArg c.val) _)
  have advanced := raised.trans (modClass_delivers c (fun k => { k with next := k.next + 1 }) _ rfl rfl rfl)
  exact (advanced.trans (setCarried_delivers c _)).trans (deliveryPass_delivers c _)

theorem declareUpTo_delivers (n : Nat) (c : ClassNo) (s : State) : Delivers c s (declareUpTo n c s) := by
  induction n generalizing s with
  | zero => exact .refl c s
  | succ n ih =>
    unfold declareUpTo
    split
    · exact (declareLost_delivers c s).trans (ih _)
    · exact .refl c s

theorem lossTests_delivers (c : ClassNo) (s : State) : Delivers c s (lossTests c s) := declareUpTo_delivers 8192 c s

/-- The hold timer alone follows the gap (R123). -/
theorem followGap_eq (before : Seq) (c : ClassNo) (s : State) :
    ∃ hold, followGap before c s = modClass c (fun k => { k with hold := hold }) s := by
  unfold followGap modClass
  simp only
  split
  · exact ⟨none, rfl⟩
  · split
    · exact ⟨some _, rfl⟩
    · exact ⟨(s.cls c).hold, rfl⟩

theorem followGap_delivers (before : Seq) (c : ClassNo) (s : State) : Delivers c s (followGap before c s) := by
  obtain ⟨hold, e⟩ := followGap_eq before c s
  rw [e]
  exact modClass_delivers c _ s rfl rfl rfl

/-! ## Where nothing is released or declared -/

theorem heldAt_isSome {q : Seq} {hs : List Held} : (heldAt q hs).isSome = true ↔ q ∈ hs.map (·.seq) := by
  simp [heldAt, List.find?_isSome]

theorem heldAt_eq_none {q : Seq} {hs : List Held} : heldAt q hs = none ↔ q ∉ hs.map (·.seq) := by
  rw [← heldAt_isSome, Option.isSome_iff_ne_none, not_not]

/-- Nothing is released while next is not held (R119). -/
theorem deliveryPass_of_next_missing {c : ClassNo} {s : State} (h : (s.cls c).next ∉ (s.cls c).held.map (·.seq)) :
    deliveryPass c s = s := by
  unfold deliveryPass
  cases (s.cls c).held.length with
  | zero => rfl
  | succ n => simp only [deliverUpTo, heldAt_eq_none.2 h]

/-- A pair of the horizon set whose horizon is NONE blocks the horizon rule (R125 b). -/
theorem horizonRule_blocked {c : ClassNo} {s : State} {q : PairNo} (member : (s.pair q).inHorizonSet = true)
    (unknown : s.horizon c q = none) : horizonRule c s = false := by
  have blocks : horizonPasses s c q = false := by simp [horizonPasses, member, unknown]
  have every : ∀ p : PairNo, p ∈ allPairs := by decide
  have notAll : allPairs.all (horizonPasses s c) = false := List.all_eq_false.2 ⟨q, every q, by simp [blocks]⟩
  simp [horizonRule, notAll]

/-- Nothing is declared lost while the horizon rule does not hold (R125). -/
theorem lossTests_of_blocked {c : ClassNo} {s : State} (h : horizonRule c s = false) : lossTests c s = s := by
  have still : ∀ n, declareUpTo n c s = s := fun n => by cases n <;> simp [declareUpTo, h]
  exact still 8192

/-! ## Arrivals -/

/-- A stored fragment (R117 d). -/
theorem storeData_collects (c : ClassNo) (p : PairNo) (f : Held) (s : State) : Collects c s (storeData c p f s) :=
  (modClass_collects c _ s rfl).trans (setCarried_delivers c _).toCollects

theorem storeData_cls (c : ClassNo) (p : PairNo) (f : Held) (s : State) :
    (storeData c p f s).cls c = { s.cls c with
      held := (s.cls c).held ++ [f]
      horizons := (s.cls c).horizons.set p.val (horizonAfter f.seq (s.horizon c p)) p.isLt
      n := { (s.cls c).n with accepted := (s.cls c).n.accepted + 1 } } := by
  rw [storeData, setCarried_cls, modClass_cls_same]
  rfl

/-- The horizons after a store (R118). -/
theorem storeData_horizon (c : ClassNo) (p : PairNo) (f : Held) (s : State) (q : PairNo) :
    (storeData c p f s).horizon c q = if q = p then horizonAfter f.seq (s.horizon c p) else s.horizon c q := by
  rw [State.horizon, storeData_cls]
  exact get_set ..

/-- R118 in one test: the horizon moves where it is NONE or the new value is ahead of it. -/
theorem horizonAfter_eq (q : Seq) (h : Option Seq) :
    horizonAfter q h = if (h.all fun x => ahead (q + 1) x) = true then some (q + 1) else h := by
  cases h <;> simp [horizonAfter]

/-- LATE (R117 a). -/
theorem collectData_late {c : ClassNo} {f : Held} {s : State} (p : PairNo)
    (late : 8192 ≤ dist f.seq (s.cls c).next) :
    collectData c p f s = countClass c (fun n => { n with late := n.late + 1 }) s := by
  simp [collectData, late]

/-- BEYOND (R117 b). -/
theorem collectData_beyond {c : ClassNo} {f : Held} {s : State} (p : PairNo)
    (near : dist f.seq (s.cls c).next < 8192) (beyond : (s.cls c).cfg.quota ≤ dist f.seq (s.cls c).next) :
    collectData c p f s = countClass c (fun n => { n with beyond := n.beyond + 1 }) s := by
  simp [collectData, near.not_ge, beyond]

/-- DUPLICATE (R117 c). -/
theorem collectData_duplicate {c : ClassNo} {f : Held} {s : State} (p : PairNo)
    (near : dist f.seq (s.cls c).next < 8192) (within : dist f.seq (s.cls c).next < (s.cls c).cfg.quota)
    (held : f.seq ∈ (s.cls c).held.map (·.seq)) :
    collectData c p f s = countClass c (fun n => { n with duplicate := n.duplicate + 1 }) s := by
  simp only [collectData, if_neg near.not_ge, if_neg within.not_ge, if_pos (heldAt_isSome.2 held)]

/-- A store, with the delivery pass and the loss tests that follow it (R117 d). -/
theorem collectData_stored {c : ClassNo} {f : Held} {s : State} (p : PairNo)
    (near : dist f.seq (s.cls c).next < 8192) (within : dist f.seq (s.cls c).next < (s.cls c).cfg.quota)
    (new : f.seq ∉ (s.cls c).held.map (·.seq)) :
    collectData c p f s = followGap (s.cls c).next c (lossTests c (deliveryPass c (storeData c p f s))) := by
  simp only [collectData, if_neg near.not_ge, if_neg within.not_ge, if_neg (heldAt_isSome.not.2 new)]

theorem afterStore_delivers (before : Seq) (c : ClassNo) (s : State) :
    Delivers c s (followGap before c (lossTests c (deliveryPass c s))) :=
  ((deliveryPass_delivers c s).trans (lossTests_delivers c _)).trans (followGap_delivers before c _)

theorem collectData_collects (c : ClassNo) (p : PairNo) (f : Held) (s : State) :
    Collects c s (collectData c p f s) := by
  unfold collectData
  simp only
  split
  · exact (countClass_delivers c _ s rfl).toCollects
  · split
    · exact (countClass_delivers c _ s rfl).toCollects
    · split
      · exact (countClass_delivers c _ s rfl).toCollects
      · exact (storeData_collects c p f s).trans (afterStore_delivers _ c _).toCollects

/-- A fragment that neither is next nor finds it held, while another pair blocks the horizon rule, is held and no
more (R119, R125). -/
theorem collectData_waits {c : ClassNo} {f : Held} {s : State} {p q : PairNo}
    (near : dist f.seq (s.cls c).next < 8192) (within : dist f.seq (s.cls c).next < (s.cls c).cfg.quota)
    (new : f.seq ∉ (s.cls c).held.map (·.seq)) (other : q ≠ p) (member : (s.pair q).inHorizonSet = true)
    (unknown : s.horizon c q = none) (notNext : f.seq ≠ (s.cls c).next)
    (missing : (s.cls c).next ∉ (s.cls c).held.map (·.seq)) :
    ((collectData c p f s).cls c).next = (s.cls c).next ∧
      ((collectData c p f s).cls c).held = (s.cls c).held ++ [f] := by
  have stillMissing : ((storeData c p f s).cls c).next ∉ ((storeData c p f s).cls c).held.map (·.seq) := by
    rw [storeData_cls]
    simp [notNext.symm, missing]
  have blocked : horizonRule c (storeData c p f s) = false :=
    horizonRule_blocked (q := q) member (by rw [storeData_horizon, if_neg other, unknown])
  obtain ⟨hold, timer⟩ := followGap_eq (s.cls c).next c (storeData c p f s)
  rw [collectData_stored p near within new, deliveryPass_of_next_missing stillMissing, lossTests_of_blocked blocked,
    timer, modClass_cls_same, storeData_cls]
  exact ⟨rfl, rfl⟩

end Sys2Proof.Proofs
end

