-- ==== Sys2Proof/Proofs/DataClassified.lean ====
section
/-! A DATA fragment (R28, R116-R118): what the pairs do before the collector takes it, and its case there. -/

namespace Sys2Proof.Proofs
open Sys2Proof Sys2Proof.Machine Sys2Proof.Laws

/-! ## What an event on one pair does among the pairs -/

/-- An event on pair `p` before the other blocks follow it: another pair is as it was or has begun to offer quiet, and
nothing beyond the pairs, the notices, the outputs and the clock changes. -/
structure PairEvent (p : PairNo) (s t : State) : Prop where
  others : ∀ q : PairNo, q ≠ p → t.pair q = s.pair q ∨ (s.pair q).Offered (t.pair q)
  settings : SettingsKept s t
  classes : t.classes = s.classes
  bond : t.bond = s.bond
  classifier : t.classifier = s.classifier
  agent : t.agent = s.agent

theorem PairEvent.refl (p : PairNo) (s : State) : PairEvent p s s where
  others _ _ := .inl rfl
  settings := (Follows.refl s).settings
  classes := rfl
  bond := rfl
  classifier := rfl
  agent := rfl

/-- A pair that has begun to offer is SERVING, offers, and has nothing to send. -/
theorem offersEmpty_of_offered {u v : PairUnit} (h : u.Offered v) : OffersEmpty v := by
  obtain ⟨serving, -, -, empty, steady⟩ := h
  have state := congrArg PairUnit.state steady
  have offering := congrArg PairUnit.offering steady
  exact ⟨state.trans serving, offering, empty⟩

theorem PairEvent.trans {p : PairNo} {s t u : State} (h : PairEvent p s t) (k : PairEvent p t u) : PairEvent p s u where
  others q e := by
    rcases h.others q e with same | offered
    · rw [← same]
      exact k.others q e
    · rcases k.others q e with same | again
      · rw [same]
        exact .inr offered
      · obtain ⟨-, offering, -⟩ := offersEmpty_of_offered offered
        obtain ⟨-, notOffering, -⟩ := again
        simp [offering] at notOffering
  settings := SettingsKept_trans h.settings k.settings
  classes := k.classes.trans h.classes
  bond := k.bond.trans h.bond
  classifier := k.classifier.trans h.classifier
  agent := k.agent.trans h.agent

theorem PairEvent.cls {p : PairNo} {s t : State} (h : PairEvent p s t) (c : ClassNo) : t.cls c = s.cls c :=
  congrArg (Vector.get · c) h.classes

theorem PairEvent.horizon {p : PairNo} {s t : State} (h : PairEvent p s t) (c : ClassNo) (q : PairNo) :
    t.horizon c q = s.horizon c q := congrArg (fun k : ClassUnit => k.horizons.get q) (h.cls c)

/-- Another pair of the horizon set stays in it (R115). -/
theorem PairEvent.inHorizonSet {p q : PairNo} {s t : State} (h : PairEvent p s t) (e : q ≠ p)
    (k : (s.pair q).inHorizonSet = true) : (t.pair q).inHorizonSet = true := by
  rcases h.others q e with same | offered
  · rw [same]
    exact k
  · obtain ⟨serving, -, -⟩ := offersEmpty_of_offered offered
    simp [PairUnit.inHorizonSet, serving]

theorem modPair_settingsKept (p : PairNo) (f : PairUnit → PairUnit) (s : State)
    (h : (f (s.pair p)).cfg = (s.pair p).cfg) : SettingsKept s (modPair p f s) := by
  refine ⟨rfl, rfl, rfl, rfl, rfl, rfl, rfl, fun q => ?_, fun _ => rfl, rfl, rfl, rfl, fun _ => ⟨rfl, rfl⟩,
    fun _ => rfl, rfl, rfl⟩
  rw [modPair_pair]
  split
  · next e => subst e; exact h
  · rfl

theorem modPair_pairEvent (p : PairNo) (f : PairUnit → PairUnit) (s : State)
    (h : (f (s.pair p)).cfg = (s.pair p).cfg) : PairEvent p s (modPair p f s) :=
  { PairEvent.refl p s with
    others := fun _ e => .inl (modPair_pair_other s p f e)
    settings := modPair_settingsKept p f s h }

theorem emit_pairEvent (p : PairNo) (o : Output) (s : State) : PairEvent p s (emit o s) :=
  { PairEvent.refl p s with }

theorem raiseForPair_pairEvent (p : PairNo) (src : Source) (q : PairNo) (s : State) :
    PairEvent p s (raiseForPair src q s) :=
  { PairEvent.refl p s with settings := (raiseNotice_follows src _ s).settings }

theorem raise_cfg (k : Ctl) (u : PairUnit) : (u.raise k).cfg = u.cfg := by
  unfold PairUnit.raise
  split <;> rfl

theorem raise_state (k : Ctl) (u : PairUnit) : (u.raise k).state = u.state := by
  unfold PairUnit.raise
  split <;> rfl

theorem raise_queue (k : Ctl) (u : PairUnit) : (u.raise k).queue = u.queue := by
  unfold PairUnit.raise
  split <;> rfl

theorem raise_steady (k : Ctl) (u : PairUnit) : (u.raise k).steady = u.steady := by
  unfold PairUnit.raise
  split <;> rfl

theorem raiseCtl_pairEvent (k : Ctl) (p : PairNo) (s : State) : PairEvent p s (raiseCtl k p s) :=
  modPair_pairEvent p _ s (raise_cfg k _)

theorem cutHandover_pairEvent (counted : Bool) (p : PairNo) (s : State) :
    PairEvent p s (cutHandover counted p s) := by
  unfold cutHandover
  split
  · exact .refl p s
  · exact (modPair_pairEvent p _ s rfl).trans (emit_pairEvent p _ _)

theorem enterState_pairEvent (p : PairNo) (st : PairState) (s : State) : PairEvent p s (enterState p st s) := by
  obtain ⟨-, -, -, -, -, cfg, -⟩ := enter_kept s.now s.cfg st (s.pair p)
  exact modPair_pairEvent p _ s cfg

theorem enterState_state (p : PairNo) (st : PairState) (s : State) : ((enterState p st s).pair p).state = st := by
  rw [enterState, modPair_pair_same]
  exact (enter_entered _ _ _ _).1

theorem heard_state (p : PairNo) (len : Nat) (s : State) : ((Heard p len s).pair p).state = (s.pair p).state := by
  rw [Heard, modPair_pair_same]
  rfl

theorem heard_pairEvent (p : PairNo) (len : Nat) (s : State) : PairEvent p s (Heard p len s) :=
  PairEvent.trans (t := s.silent) { PairEvent.refl p s with } (modPair_pairEvent p _ _ rfl)

/-! ## Offer tests -/

/-- The pair unit of a pair that begins to offer at time `o` (R173). -/
def offerBegun (o : Timer) (u : PairUnit) : PairUnit :=
  PairUnit.raise .quietOffer { u with offering := true, offerSpent := true, offerTimer := some o }

theorem testOffer_passed {p : PairNo} {s : State} (h : offerPasses s p = true) :
    testOffer p s = modPair p (offerBegun (offerTime s)) s := by
  rw [testOffer, if_pos h, raiseCtl, modPair_modPair]
  rfl

theorem testOffer_failed {p : PairNo} {s : State} (h : ¬ offerPasses s p = true) : testOffer p s = s := if_neg h

/-- A pair that passes the offer test has begun to offer quiet (R173). -/
theorem offerBegun_offered {p : PairNo} {s : State} (h : offerPasses s p = true) (o : Timer) :
    (s.pair p).Offered (offerBegun o (s.pair p)) := by
  simp only [offerPasses, mayAgree, Bool.and_eq_true, decide_eq_true_eq, List.isEmpty_iff, Bool.not_eq_true'] at h
  obtain ⟨⟨⟨⟨⟨⟨⟨serving, empty⟩, -⟩, notOffering⟩, -⟩, -⟩, -⟩, -⟩ := h
  have timer : (offerBegun o (s.pair p)).offerTimer = some o := congrArg PairUnit.offerTimer (raise_steady _ _)
  refine ⟨serving, notOffering, empty, (raise_queue _ _).trans empty, ?_⟩
  rw [timer]
  exact raise_steady _ _

theorem testOffer_pairEvent (p q : PairNo) (s : State) : PairEvent p s (testOffer q s) := by
  by_cases h : offerPasses s q = true
  · rw [testOffer_passed h]
    refine { PairEvent.refl p s with
      others := fun r _ => ?_
      settings := modPair_settingsKept q _ s (raise_cfg _ _) }
    by_cases e : r = q
    · subst e
      rw [modPair_pair_same]
      exact .inr (offerBegun_offered h _)
    · exact .inl (modPair_pair_other s q _ e)
  · rw [testOffer_failed h]
    exact .refl p s

theorem testOffer_state (p q : PairNo) (s : State) : ((testOffer q s).pair p).state = (s.pair p).state := by
  by_cases h : offerPasses s q = true
  · rw [testOffer_passed h, modPair_pair]
    split
    · next e => subst e; exact raise_state _ _
    · rfl
  · rw [testOffer_failed h]

theorem testOffers_pairEvent (p : PairNo) (qs : List PairNo) (s : State) : PairEvent p s (testOffers qs s) := by
  unfold testOffers eachPair
  induction qs generalizing s with
  | nil => exact .refl p s
  | cons q qs ih => exact (testOffer_pairEvent p q s).trans (ih _)

/-- The offer tests leave every pair in its state. -/
theorem testOffers_state (p : PairNo) (qs : List PairNo) (s : State) :
    ((testOffers qs s).pair p).state = (s.pair p).state := by
  unfold testOffers eachPair
  induction qs generalizing s with
  | nil => rfl
  | cons q qs ih => exact (ih _).trans (testOffer_state p q s)

theorem lapse_pairEvent (p : PairNo) (s : State) : PairEvent p s (lapse p s) :=
  (modPair_pairEvent p _ s rfl).trans (testOffers_pairEvent p _ _)

theorem lapse_state (p : PairNo) (s : State) : ((lapse p s).pair p).state = (s.pair p).state := by
  rw [lapse, testOffers_state, modPair_pair_same]
  rfl

/-! ## Entering SERVING -/

theorem enterServing_pairEvent (idle : Bool) (p : PairNo) (s : State) : PairEvent p s (enterServing idle p s) := by
  unfold enterServing
  extract_lets entered asked idled
  have hEntered : PairEvent p s entered := enterState_pairEvent p .serving s
  have hAsked : PairEvent p s asked := by
    unfold asked
    split
    · exact hEntered.trans (raiseCtl_pairEvent _ p _)
    · exact hEntered
  have hIdled : PairEvent p s idled := by
    unfold idled
    split
    · exact hAsked.trans (modPair_pairEvent p _ _ rfl)
    · exact hAsked
  exact hIdled.trans (testOffers_pairEvent p _ _)

theorem enterServing_state (idle : Bool) (p : PairNo) (s : State) :
    ((enterServing idle p s).pair p).state = .serving := by
  unfold enterServing
  extract_lets entered asked idled
  have hEntered : (entered.pair p).state = .serving := by
    rw [show entered = enterState p .serving s from rfl, enterState_state]
  have hAsked : (asked.pair p).state = .serving := by
    unfold asked
    split
    · rw [raiseCtl, modPair_pair_same, raise_state, hEntered]
    · exact hEntered
  rw [testOffers_state]
  unfold idled
  split
  · rw [modPair_pair_same]
    exact hAsked
  · exact hAsked

theorem joinServing_pairEvent (p : PairNo) (s : State) : PairEvent p s (joinServing p s) :=
  (enterServing_pairEvent false p s).trans (raiseForPair_pairEvent p _ _ _)

theorem joinServing_state (p : PairNo) (s : State) : ((joinServing p s).pair p).state = .serving := by
  unfold joinServing
  rw [raiseForPair_pair]
  exact enterServing_state false p s

theorem wakeError_pairEvent (p : PairNo) (s : State) : PairEvent p s (wakeError p s) :=
  (modPair_pairEvent p _ s rfl).trans (raiseForPair_pairEvent p _ _ _)

theorem countPair_pairEvent (p : PairNo) (f : PairCounters → PairCounters) (s : State) :
    PairEvent p s (countPair p f s) := modPair_pairEvent p _ s rfl

theorem countPair_state (p : PairNo) (f : PairCounters → PairCounters) (s : State) :
    ((countPair p f s).pair p).state = (s.pair p).state := by
  rw [countPair, modPair_pair_same]

/-- A wake completes by an entry to SERVING, counted and raised, after its wake error and its cut-off handover
(R180). -/
theorem completeWake_eq (p : PairNo) (s : State) :
    ∃ idle v, PairEvent p s v ∧ completeWake p s = raiseForPair .pairUp p
      (countPair p (fun n => { n with wakeDone := n.wakeDone + 1 }) (enterServing idle p v)) := by
  refine ⟨_, _, PairEvent.trans ?_ (cutHandover_pairEvent false p _), rfl⟩
  split
  · exact wakeError_pairEvent p s
  · exact .refl p s

theorem completeWake_pairEvent (p : PairNo) (s : State) : PairEvent p s (completeWake p s) := by
  obtain ⟨idle, v, before, e⟩ := completeWake_eq p s
  rw [e]
  exact ((before.trans (enterServing_pairEvent idle p v)).trans (countPair_pairEvent p _ _)).trans
    (raiseForPair_pairEvent p _ _ _)

theorem completeWake_state (p : PairNo) (s : State) : ((completeWake p s).pair p).state = .serving := by
  obtain ⟨idle, v, -, e⟩ := completeWake_eq p s
  rw [e, raiseForPair_pair, countPair_state, enterServing_state]

/-! ## The fragment on its pair -/

theorem restartIdle_cfg (now : Nat) (u : PairUnit) : (u.restartIdle now).cfg = u.cfg := by
  unfold PairUnit.restartIdle
  split <;> rfl

theorem restartIdle_state (now : Nat) (u : PairUnit) : (u.restartIdle now).state = u.state := by
  unfold PairUnit.restartIdle
  split <;> rfl

theorem dataOnPair_pairEvent (p : PairNo) (s : State) : PairEvent p s (dataOnPair p s) := by
  have restarted : PairEvent p s (modPair p (PairUnit.restartIdle s.now) s) :=
    modPair_pairEvent p _ s (restartIdle_cfg _ _)
  unfold dataOnPair
  simp only
  split
  · exact restarted.trans (lapse_pairEvent p _)
  · exact restarted

theorem dataOnPair_state (p : PairNo) (s : State) : ((dataOnPair p s).pair p).state = (s.pair p).state := by
  have restarted : ((modPair p (PairUnit.restartIdle s.now) s).pair p).state = (s.pair p).state := by
    rw [modPair_pair_same, restartIdle_state]
  unfold dataOnPair
  simp only
  split
  · rw [lapse_state, restarted]
  · exact restarted

/-- Outside SERVING a DATA fragment does nothing to its pair (R172, R176 a). -/
theorem dataOnPair_idle {p : PairNo} {s : State} (h : (s.pair p).state ≠ .serving) : dataOnPair p s = s := by
  have same : modPair p (PairUnit.restartIdle s.now) s = s := by
    have unit : PairUnit.restartIdle s.now (s.pair p) = s.pairs[p.val] := if_neg h
    simp [modPair, unit]
  simp [dataOnPair, same, h]

theorem takeData_member {c : ClassNo} {p : PairNo} {f : Held} {s : State} (h : (s.pair p).state = .serving) :
    takeData c p f s = collectData c p f s := by
  simp [takeData, PairUnit.inHorizonSet, h]

/-! ## The command -/

/-- What the collector holds of a DATA fragment (R113). -/
def heldOf (f : DataFields) : Held := { seq := f.seq, first := f.first, last := f.last, payload := f.payload }

/-- A DATA fragment of the current epoch and a class that exists is counted as heard and taken (R5, R26-R28). -/
theorem exec_data {p : PairNo} {f : DataFields} {c : ClassNo} {s : State} (taking : s.taking)
    (receives : Receives p s) (epoch : s.bond.epoch = some f.epoch) (cls : classOf f.cls = some c) :
    exec (.data p f) s = .next (takeDataFragment p c f (Heard p f.payload.length s)) := by
  have dispatched : exec (.data p f) s = execData p f s := rfl
  have received : ¬ (((s.silent.pair p).state = .absent || (s.silent.pair p).state = .down) = true) := by
    have unit : s.silent.pair p = s.pair p := rfl
    simp [unit, receives]
  have same : (Heard p f.payload.length s).bond.epoch = some f.epoch := epoch
  rw [dispatched, execData, takeCommand_taking _ taking, ← State.silent, receive, if_neg received]
  simp only [cls]
  exact congrArg _ (if_pos same)

/-- What follows an event is done when a DATA fragment has been taken on a pair in service (R94 c and d). -/
theorem takeDataFragment_in_service {p : PairNo} {s : State} (c : ClassNo) (f : DataFields)
    (service : (s.pair p).state = .serving ∨ (s.pair p).state = .joining ∨ (s.pair p).state = .waking) :
    ∃ u, PairEvent p s u ∧ (takeDataFragment p c f s = settle (collectData c p (heldOf f) u) ∨
      takeDataFragment p c f s = finish (collectData c p (heldOf f) u)) := by
  have taken : ∀ {v : State}, (v.pair p).state = .serving →
      takeData c p (heldOf f) (dataOnPair p v) = collectData c p (heldOf f) (dataOnPair p v) := fun h =>
    takeData_member ((dataOnPair_state p _).trans h)
  rcases service with state | state | state
  · refine ⟨_, dataOnPair_pairEvent p s, ?_⟩
    rw [← taken state]
    by_cases offering : (s.pair p).offering = true
    · exact .inl (by simp [takeDataFragment, state, offering, heldOf])
    · exact .inr (by simp [takeDataFragment, state, offering, heldOf])
  · refine ⟨_, (joinServing_pairEvent p s).trans (dataOnPair_pairEvent p _), .inl ?_⟩
    rw [← taken (joinServing_state p s)]
    simp [takeDataFragment, state, heldOf]
  · refine ⟨_, (completeWake_pairEvent p s).trans (dataOnPair_pairEvent p _), .inl ?_⟩
    rw [← taken (completeWake_state p s)]
    simp [takeDataFragment, state, heldOf]

/-- The three stages of a DATA fragment on a pair in service: the pairs' part leads to `u`, the collector takes it
there, and what follows leads to `t`. -/
structure DataTaken (p : PairNo) (c : ClassNo) (f : Held) (s u t : State) : Prop where
  event : PairEvent p s u
  follows : Follows (collectData c p f u) t
  moves : Moves (collectData c p f u) t

theorem exec_data_taken {p : PairNo} {f : DataFields} {c : ClassNo} {s : State} (h : s.open)
    (epoch : s.bond.epoch = some f.epoch) (cls : classOf f.cls = some c)
    (service : (s.pair p).state = .serving ∨ (s.pair p).state = .joining ∨ (s.pair p).state = .waking) :
    ∃ u t, exec (.data p f) s = .next t ∧ DataTaken p c (heldOf f) s u t := by
  obtain ⟨taking, noReset⟩ := h
  have receives : Receives p s := by rcases service with e | e | e <;> simp [Receives, e]
  have unit := heard_state p f.payload.length s
  obtain ⟨u, event, follow⟩ := takeDataFragment_in_service c f (unit ▸ service)
  have fromStart := (heard_pairEvent p f.payload.length s).trans event
  have noneYet : (collectData c p (heldOf f) u).agent.reset = none :=
    (collectData_collects c p _ u).reset ((congrArg Agent.reset fromStart.agent).trans noReset)
  refine ⟨u, _, exec_data taking receives epoch cls, ?_⟩
  rcases follow with e | e
  · rw [e]
    exact ⟨fromStart, settle_follows noneYet, settle_moves noneYet⟩
  · rw [e]
    exact ⟨fromStart, finish_follows noneYet, finish_moves noneYet⟩

/-- A DATA fragment on a pair that is in service for no class is counted NOT-SERVING (R116 b). -/
theorem exec_data_notServing {p : PairNo} {f : DataFields} {c : ClassNo} {s : State} (h : s.open)
    (epoch : s.bond.epoch = some f.epoch) (cls : classOf f.cls = some c)
    (state : (s.pair p).state = .standby ∨ (s.pair p).state = .proving ∨ (s.pair p).state = .halted ∨
      (s.pair p).state = .barred ∨ (s.pair p).state = .quiet) :
    exec (.data p f) s = .next (countPair p (fun n => { n with notServing := n.notServing + 1 })
      (Heard p f.payload.length s)) := by
  have receives : Receives p s := by rcases state with e | e | e | e | e <;> simp [Receives, e]
  have unit := heard_state p f.payload.length s
  rw [exec_data h.1 receives epoch cls]
  generalize Heard p f.payload.length s = v at unit ⊢
  rw [← unit] at state
  have idle : (v.pair p).state ≠ .serving := by rcases state with e | e | e | e | e <;> simp [e]
  have outside : (v.pair p).inHorizonSet = false := by
    rcases state with e | e | e | e | e <;> simp [PairUnit.inHorizonSet, e]
  have counted : takeData c p (heldOf f) (dataOnPair p v) =
      countPair p (fun n => { n with notServing := n.notServing + 1 }) v := by
    rw [dataOnPair_idle idle]
    simp [takeData, outside]
  rw [← counted]
  rcases state with e | e | e | e | e <;> simp [takeDataFragment, e, heldOf]

/-! ## The case and what it leaves -/

section Taken

variable {p : PairNo} {c : ClassNo} {f : Held} {s u t : State}

/-- A pair that has begun to offer still does after what follows (R173). -/
theorem offered_of_leftBy {u v w : PairUnit} (h : u.Offered v) (left : v.LeftBy w)
    (kept : OffersEmpty v → OffersEmpty w) : u.Offered w := by
  have offers := offersEmpty_of_offered h
  obtain ⟨-, -, empty⟩ := kept offers
  obtain ⟨serving, notOffering, wasEmpty, -, steady⟩ := h
  rcases left with same | ⟨quiet, -⟩
  · have timer := congrArg PairUnit.offerTimer same
    refine ⟨serving, notOffering, wasEmpty, empty, ?_⟩
    simp only [PairUnit.steady] at timer
    rw [same, steady, timer]
  · rw [offers.1] at quiet
    cases quiet

theorem DataTaken.beside (h : DataTaken p c f s u t) (noReset : s.agent.reset = none) : BesideOffers p s t := by
  have collected := collectData_collects c p f u
  have settings := SettingsKept_trans collected.settings h.follows.settings
  have noneYet : u.agent.reset = none := (congrArg Agent.reset h.event.agent).trans noReset
  refine ⟨fun q e => ?_, SettingsKept_trans h.event.settings settings, ?_, ?_,
    h.follows.reset (collected.reset noneYet)⟩
  · have same : (collectData c p f u).pair q = u.pair q := congrArg (Vector.get · q) collected.pairs
    have left := h.follows.pairs q
    have offers := moves_keep_offersEmpty h.moves (q := q)
    rw [same] at left offers
    rcases h.event.others q e with unmoved | offered
    · exact .inl (unmoved ▸ left)
    · exact .inr (offered_of_leftBy offered left offers)
  · have bond := BondLeft_trans collected.bond h.follows.bond
    unfold BondLeft at bond ⊢
    rwa [h.event.bond] at bond
  · rw [h.follows.classifier, collected.classifier, h.event.classifier]

/-- A fragment that is only counted changes no context (R117 a-c). -/
theorem DataTaken.contextsLeft (h : DataTaken p c f s u t) {g : ClassCounters → ClassCounters}
    (counted : collectData c p f u = countClass c g u) : ContextsLeft s t := fun d => by
  have follows := h.follows.contexts d
  rw [counted, (countClass_follows c g u).contexts d, h.event.cls] at follows
  exact follows

/-- What follows leaves the counter of the case as the collector set it. -/
theorem DataTaken.counters (h : DataTaken p c f s u t) {g : ClassCounters → ClassCounters}
    (counted : collectData c p f u = countClass c g u) :
    inbound (t.cls c).n = inbound (g (s.cls c).n) := by
  rw [moves_keep_inbound h.moves c, counted, countClass, modClass_cls_same, h.event.cls]

theorem DataTaken.late (h : DataTaken p c f s u t) (late : 8192 ≤ dist f.seq (s.cls c).next) :
    (t.cls c).n.late = (s.cls c).n.late + 1 ∧ ContextsLeft s t := by
  rw [← h.event.cls] at late
  have counters := congrArg ClassCounters.late (h.counters (collectData_late p late))
  exact ⟨counters, h.contextsLeft (collectData_late p late)⟩

theorem DataTaken.beyond (h : DataTaken p c f s u t) (near : dist f.seq (s.cls c).next < 8192)
    (beyond : (s.cls c).cfg.quota ≤ dist f.seq (s.cls c).next) :
    (t.cls c).n.beyond = (s.cls c).n.beyond + 1 ∧ ContextsLeft s t := by
  rw [← h.event.cls] at near beyond
  have counters := congrArg ClassCounters.beyond (h.counters (collectData_beyond p near beyond))
  exact ⟨counters, h.contextsLeft (collectData_beyond p near beyond)⟩

theorem DataTaken.duplicate (h : DataTaken p c f s u t) (near : dist f.seq (s.cls c).next < 8192)
    (within : dist f.seq (s.cls c).next < (s.cls c).cfg.quota) (held : f.seq ∈ (s.cls c).held.map (·.seq)) :
    (t.cls c).n.duplicate = (s.cls c).n.duplicate + 1 ∧ ContextsLeft s t := by
  rw [← h.event.cls] at near within held
  have counters := congrArg ClassCounters.duplicate (h.counters (collectData_duplicate p near within held))
  exact ⟨counters, h.contextsLeft (collectData_duplicate p near within held)⟩

theorem DataTaken.context (h : DataTaken p c f s u t) (d : ClassNo) :
    (t.cls d).context = ((collectData c p f u).cls d).context := h.follows.contexts d

/-- The other classes keep their contexts (R117). -/
theorem DataTaken.otherClasses (h : DataTaken p c f s u t) (d : ClassNo) (e : d ≠ c) :
    (t.cls d).context = (s.cls d).context := by
  rw [h.context, (collectData_collects c p f u).others d e, h.event.cls]

/-- The horizons after a store: the fragment's pair takes R118, every other keeps its own. -/
theorem DataTaken.horizon (h : DataTaken p c f s u t) (near : dist f.seq (s.cls c).next < 8192)
    (within : dist f.seq (s.cls c).next < (s.cls c).cfg.quota) (new : f.seq ∉ (s.cls c).held.map (·.seq))
    (q : PairNo) : t.horizon c q = if q = p then horizonAfter f.seq (s.horizon c p) else s.horizon c q := by
  rw [← h.event.cls] at near within new
  have followed : (t.cls c).horizons = ((collectData c p f u).cls c).horizons :=
    congrArg (fun x => x.2.2.1) (h.context c)
  rw [collectData_stored p near within new, (afterStore_delivers _ c _).horizons] at followed
  rw [State.horizon, followed, ← h.event.horizon c p, ← h.event.horizon c q]
  exact storeData_horizon c p f u q

/-- A stored fragment is counted and sets the carried flag (R117 d, R38). -/
theorem DataTaken.stored (h : DataTaken p c f s u t) (near : dist f.seq (s.cls c).next < 8192)
    (within : dist f.seq (s.cls c).next < (s.cls c).cfg.quota) (new : f.seq ∉ (s.cls c).held.map (·.seq)) :
    (t.cls c).n.accepted = (s.cls c).n.accepted + 1 ∧ t.bond.carried = true := by
  rw [← h.event.cls] at near within new
  have delivered := afterStore_delivers (u.cls c).next c (storeData c p f u)
  have accepted : (t.cls c).n.accepted = ((collectData c p f u).cls c).n.accepted :=
    have counters := congrArg ClassCounters.accepted (moves_keep_inbound h.moves c)
    counters
  have flagged : (storeData c p f u).bond.carried = true := rfl
  have carried := h.follows.bond.2
  rw [collectData_stored p near within new] at accepted carried
  refine ⟨?_, carried (delivered.bond.2 flagged)⟩
  rw [accepted, delivered.accepted, storeData_cls, h.event.cls]

/-- A fragment that waits behind a gap which no rule closes is held (R119, R125). -/
theorem DataTaken.waits (h : DataTaken p c f s u t) (near : dist f.seq (s.cls c).next < 8192)
    (within : dist f.seq (s.cls c).next < (s.cls c).cfg.quota) (new : f.seq ∉ (s.cls c).held.map (·.seq))
    (blocked : ∃ q : PairNo, q ≠ p ∧ (s.pair q).inHorizonSet = true ∧ s.horizon c q = none)
    (notNext : f.seq ≠ (s.cls c).next) (missing : (s.cls c).next ∉ (s.cls c).held.map (·.seq)) :
    (t.cls c).next = (s.cls c).next ∧ (t.cls c).held = (s.cls c).held ++ [f] := by
  obtain ⟨q, other, member, unknown⟩ := blocked
  rw [← h.event.cls] at near within new notNext missing ⊢
  obtain ⟨next, held⟩ := collectData_waits near within new other (h.event.inHorizonSet other member)
    ((h.event.horizon c q).trans unknown) notNext missing
  have nextLeft : (t.cls c).next = ((collectData c p f u).cls c).next := congrArg (·.1) (h.context c)
  have heldLeft : (t.cls c).held = ((collectData c p f u).cls c).held := congrArg (·.2.1) (h.context c)
  exact ⟨nextLeft.trans next, heldLeft.trans held⟩

end Taken

/-- Settles O11: on a pair in service by the four cases of R117, and outside it by R116 b. -/
theorem dataClassified : Obligations.DataClassified := by
  intro p f c s isOpen epoch cls
  refine ⟨fun service => ?_, exec_data_notServing isOpen epoch cls⟩
  obtain ⟨u, t, ran, taken⟩ := exec_data_taken isOpen epoch cls service
  refine ⟨t, ran, taken.beside isOpen.2, taken.late, taken.beyond, taken.duplicate, fun near within new => ?_⟩
  have horizon := taken.horizon near within new
  obtain ⟨accepted, carried⟩ := taken.stored near within new
  refine ⟨accepted, carried, ?_, fun q other => ?_, taken.otherClasses, taken.waits near within new⟩
  · rw [horizon p, if_pos rfl, horizonAfter_eq]
    rfl
  · rw [horizon q, if_neg other]

end Sys2Proof.Proofs
end

