-- ==== Sys2Proof/Proofs/TrunkPort.lean ====
section
/-! SUPPORT. The trunk port through an event and what follows it: the pairs and the distributor never touch it, and a
full egress queue takes nothing (R147). It stands beside `Follows`, which says that the frames already queued stay. -/

namespace Sys2Proof.Proofs
open Sys2Proof Sys2Proof.Machine Sys2Proof.Laws

/-! ## The pairs and the distributor -/

/-- Turns of the pairs that leave the trunk port leave it together. -/
theorem eachPair_trunk (ps : List PairNo) {f : PairNo → State → State} (h : ∀ p s, (f p s).trunk = s.trunk)
    (s : State) : (eachPair ps f s).trunk = s.trunk := by
  unfold eachPair
  induction ps generalizing s with
  | nil => rfl
  | cons p ps ih => exact (ih _).trans (h p s)

theorem reportReset_trunk (s : State) : (reportReset s).trunk = s.trunk := by
  unfold reportReset
  split <;> rfl

theorem patternStarts_trunk (p : PairNo) (s : State) : (patternStarts p s).trunk = s.trunk := by
  unfold patternStarts
  split
  · split <;> rfl
  · rfl

theorem beginProve_trunk (p : PairNo) (m : ProveMsg) (s : State) : (beginProve p m s).trunk = s.trunk := by
  unfold beginProve
  split
  · rfl
  · exact patternStarts_trunk p _

theorem chooseHandover_trunk (p : PairNo) (s : State) : (chooseHandover p s).trunk = s.trunk := by
  unfold chooseHandover
  simp only
  split
  · split
    · rfl
    · exact beginProve_trunk p _ s
    · split <;> rfl
    · rfl
  · rfl

theorem chooseHandovers_trunk (s : State) : (chooseHandovers s).trunk = s.trunk :=
  eachPair_trunk _ chooseHandover_trunk s

theorem offerFrame_trunk (c : ClassNo) (f : FrameRec) (s : State) : (offerFrame c f s).trunk = s.trunk := by
  have drop : (if f.resetReply then reportReset (countQueueDrop c s) else countQueueDrop c s).trunk = s.trunk := by
    split
    · exact reportReset_trunk _
    · rfl
  unfold offerFrame
  simp only
  split
  · rfl
  · split
    · split
      · rfl
      · exact drop
    · exact drop

theorem wakeRequest_trunk (p : PairNo) (s : State) : (wakeRequest p s).trunk = s.trunk := by
  unfold wakeRequest
  split <;> rfl

theorem demandWake_trunk (s : State) : (demandWake s).trunk = s.trunk := by
  unfold demandWake
  split
  · split
    · exact wakeRequest_trunk _ s
    · rfl
  · rfl

theorem askWake_trunk (c : ClassNo) (m : PairMap) (s : State) : (askWake c m s).trunk = s.trunk := by
  unfold askWake
  split
  · rfl
  · split
    · exact wakeRequest_trunk _ _
    · rfl

theorem dropNoPath_trunk (c : ClassNo) (s : State) : (dropNoPath c s).trunk = s.trunk := by
  unfold dropNoPath
  extract_lets k flagged u
  by_cases e : flagged = true
  · rw [if_pos e]; exact reportReset_trunk u
  · rw [if_neg e]; rfl

theorem pathDecision_trunk (n : Nat) (c : ClassNo) (s : State) : (pathDecision n c s).2.trunk = s.trunk := by
  induction n generalizing s with
  | zero => rfl
  | succ n ih =>
    unfold pathDecision
    split
    · rfl
    · split
      · rfl
      · split
        · rfl
        · split
          · exact askWake_trunk c _ s
          · split
            · exact ih (spillFrame c s)
            · exact (ih _).trans (dropNoPath_trunk c s)

theorem placeFragment_trunk (c : ClassNo) (s : State) : (placeFragment c s).trunk = s.trunk := by
  unfold placeFragment
  simp only
  split
  · rfl
  · split <;> rfl

theorem selectFrom_trunk (cs : List ClassNo) (s : State) : (selectFrom cs s).2.trunk = s.trunk := by
  induction cs generalizing s with
  | nil => rfl
  | cons c cs ih =>
    have decided := pathDecision_trunk (decisionsOf (s.cls c)) c s
    unfold selectFrom
    split
    · next t e => rw [e] at decided; exact (placeFragment_trunk c t).trans decided
    · next t e => rw [e] at decided; exact (ih t).trans decided

theorem selectUpTo_trunk (n : Nat) (s : State) : (selectUpTo n s).trunk = s.trunk := by
  induction n generalizing s with
  | zero => rfl
  | succ n ih =>
    have selected := selectFrom_trunk (classOrder s.cfg.classOrder) s
    unfold selectUpTo
    split
    · split
      · next t e => rw [e] at selected; exact ((ih _).trans (demandWake_trunk t)).trans selected
      · next t e => rw [e] at selected; exact (demandWake_trunk t).trans selected
    · rfl

theorem distribute_trunk (s : State) : (distribute s).trunk = s.trunk :=
  (selectUpTo_trunk 257 _).trans (demandWake_trunk s)

/-! ## The pairs' part of an event -/

theorem cutHandover_trunk (counted : Bool) (p : PairNo) (s : State) : (cutHandover counted p s).trunk = s.trunk := by
  unfold cutHandover
  split <;> rfl

theorem testOffer_trunk (p : PairNo) (s : State) : (testOffer p s).trunk = s.trunk := by
  unfold testOffer
  split <;> rfl

theorem testOffers_trunk (ps : List PairNo) (s : State) : (testOffers ps s).trunk = s.trunk :=
  eachPair_trunk ps testOffer_trunk s

theorem lapse_trunk (p : PairNo) (s : State) : (lapse p s).trunk = s.trunk := by
  rw [lapse, testOffers_trunk, modPair_trunk]

theorem enterServing_trunk (idle : Bool) (p : PairNo) (s : State) : (enterServing idle p s).trunk = s.trunk := by
  unfold enterServing
  extract_lets entered asked idled
  have hAsked : asked.trunk = s.trunk := by
    unfold asked
    split <;> rfl
  rw [testOffers_trunk]
  unfold idled
  split <;> exact hAsked

theorem joinServing_trunk (p : PairNo) (s : State) : (joinServing p s).trunk = s.trunk := by
  rw [joinServing, raiseForPair_trunk, enterServing_trunk]

theorem completeWake_trunk (p : PairNo) (s : State) : (completeWake p s).trunk = s.trunk := by
  unfold completeWake
  extract_lets u late cut idle
  have hLate : late.trunk = s.trunk := by
    unfold late
    split <;> rfl
  have hCut : cut.trunk = late.trunk := cutHandover_trunk false p late
  rw [raiseForPair_trunk, countPair_trunk, enterServing_trunk, hCut, hLate]

theorem dataOnPair_trunk (p : PairNo) (s : State) : (dataOnPair p s).trunk = s.trunk := by
  unfold dataOnPair
  simp only
  split
  · rw [lapse_trunk, modPair_trunk]
  · rw [modPair_trunk]

/-! ## A full egress queue -/

/-- From `s` to `t` the egress queue took nothing if it was full (R147). -/
def TakesNoneWhenFull (s t : State) : Prop := 64 ≤ s.trunk.egress.length → t.trunk.egress = s.trunk.egress

theorem TakesNoneWhenFull.of_trunk {s t : State} (h : t.trunk = s.trunk) : TakesNoneWhenFull s t := fun _ => by rw [h]

theorem TakesNoneWhenFull.trans {s t u : State} (h : TakesNoneWhenFull s t) (k : TakesNoneWhenFull t u) :
    TakesNoneWhenFull s u := fun full => by
  have same := h full
  exact (k (by rwa [same])).trans same

theorem offerEgress_full (e : EgressEntry) (s : State) : TakesNoneWhenFull s (offerEgress e s) := fun full => by
  unfold offerEgress
  rw [if_neg (by omega)]
  simp only
  split
  · rw [reportReset_trunk]
    rfl
  · rfl

theorem sendNotice_full (src : Source) (d : Addr) (s : State) : TakesNoneWhenFull s (sendNotice src d s) := by
  unfold sendNotice
  extract_lets f u n v
  have h : TakesNoneWhenFull s v := .of_trunk rfl
  split
  · exact h.trans (offerEgress_full _ _)
  · exact h.trans (.of_trunk ((distribute_trunk _).trans (offerFrame_trunk 0 _ _)))

theorem sendUpTo_full (n : Nat) (s : State) : TakesNoneWhenFull s (sendUpTo n s) := by
  induction n generalizing s with
  | zero => exact .of_trunk rfl
  | succ n ih =>
    unfold sendUpTo
    split
    · exact (sendNotice_full _ _ s).trans (ih _)
    · exact .of_trunk rfl

theorem beginSend_full (s : State) : TakesNoneWhenFull s (beginSend s) := fun _ => by
  unfold beginSend
  split
  · rfl
  · split <;> rfl

/-- What follows a notice or something queued. -/
theorem finish_full {s : State} (h : s.agent.reset = none) : TakesNoneWhenFull s (finish s) := by
  have still : (beginSend (chooseHandovers (sendNotices s))).agent.reset = none :=
    (((sendNotices_follows s).trans (chooseHandovers_follows _)).trans (beginSend_follows _)).reset h
  unfold finish
  rw [checkReset_none still]
  exact ((sendUpTo_full 12 s).trans (.of_trunk (chooseHandovers_trunk _))).trans (beginSend_full _)

/-- What follows an event of R94. -/
theorem settle_full {s : State} (h : s.agent.reset = none) : TakesNoneWhenFull s (settle s) := by
  have chosen : (distribute (chooseHandovers s)).trunk = s.trunk :=
    (distribute_trunk _).trans (chooseHandovers_trunk s)
  exact (TakesNoneWhenFull.of_trunk chosen).trans
    (finish_full (((chooseHandovers_follows s).trans (distribute_follows _)).reset h))

end Sys2Proof.Proofs
end

