-- ==== Sys2Proof/Proofs/Reassembler.lean ====
section
/-! SUPPORT. The reassembler over one class (R135-R140), each operation said once: what passing a frame on and tearing
one leave, an equation for each form of a fragment in each state, and the outcome that R136, R137 and R139 give. -/

namespace Sys2Proof.Proofs
open Sys2Proof Sys2Proof.Machine Sys2Proof.Laws

/-! ## Passing a frame on -/

theorem offerEgress_cls (e : EgressEntry) (s : State) (d : ClassNo) : (offerEgress e s).cls d = s.cls d := by
  unfold offerEgress reportReset
  simp only
  split
  · rfl
  · split
    · split <;> rfl
    · rfl

/-- A frame of the bond that is offered joins the egress queue unless it is full (R147). -/
theorem offerEgress_taken (e : EgressEntry) (s : State) :
    if s.trunk.egress.length < 64 then (offerEgress e s).trunk.egress = s.trunk.egress ++ [e]
    else (offerEgress e s).trunk.egress = s.trunk.egress := by
  by_cases room : s.trunk.egress.length < 64
  · rw [if_pos room, offerEgress, if_pos room]
  · rw [if_neg room]
    exact offerEgress_full e s (Nat.le_of_not_lt room)

/-- A frame that is passed on counts in its class and leaves the rest of it (R140). -/
theorem passOn_cls (c : ClassNo) (f : Frame) (s : State) : ∃ empty mgmt built, (passOn c f s).cls c = { s.cls c with
    n := { (s.cls c).n with emptyFrame := empty, mgmtBond := mgmt, frameBuilt := built } } := by
  unfold passOn
  split
  · exact ⟨_, (s.cls c).n.mgmtBond, (s.cls c).n.frameBuilt, modClass_cls_same ..⟩
  · split
    · exact ⟨(s.cls c).n.emptyFrame, _, (s.cls c).n.frameBuilt, (handToAgent_cls _ _ c).trans (modClass_cls_same ..)⟩
    · split
      · exact ⟨(s.cls c).n.emptyFrame, (s.cls c).n.mgmtBond, (s.cls c).n.frameBuilt, rfl⟩
      · exact ⟨(s.cls c).n.emptyFrame, (s.cls c).n.mgmtBond, _, (offerEgress_cls ..).trans (modClass_cls_same ..)⟩

/-- A completed frame goes where its content sends it (R140). -/
theorem passOn_passedOn (c : ClassNo) (f : Frame) (s : State) : PassedOn c f s (passOn c f s) := by
  unfold PassedOn passOn
  by_cases empty : f = []
  · simp only [if_pos empty, countClass, modClass_cls_same]
  · simp only [if_neg empty]
    by_cases short : mgmtTyped f = true ∧ f.length < 22
    · simp [short, holdsFixedPart, short.2.not_ge, countTrunk]
    · have fixed : mgmtTyped f = true → holdsFixedPart f = true := fun typed => by
        simpa [holdsFixedPart, typed] using short
      rw [if_neg short]
      by_cases far : mgmtTyped f = true ∧ replyFlag f = false ∧ targetFar f = true
      · have taken : (mgmtTyped f && holdsFixedPart f && !replyFlag f && targetFar f) = true := by
          simp [far, fixed far.1]
        rw [if_pos far, if_pos taken, handToAgent_cls, countClass, modClass_cls_same]
        exact ⟨rfl, rfl⟩
      · have notFar : ¬ (mgmtTyped f && holdsFixedPart f && !replyFlag f && targetFar f) = true := by
          simp only [Bool.and_eq_true, Bool.not_eq_true']
          tauto
        have notShort : ¬ (mgmtTyped f && !holdsFixedPart f) = true := by
          simp only [Bool.and_eq_true, Bool.not_eq_true']
          intro h
          simp [fixed h.1] at h
        rw [if_neg far, if_neg notFar, if_neg notShort, offerEgress_cls, countClass, modClass_cls_same]
        refine ⟨rfl, ?_⟩
        have taken := offerEgress_taken { frame := f, source := .bondTraffic, resetReply := false }
          (modClass c (fun k => { k with n := { k.n with frameBuilt := k.n.frameBuilt + 1 } }) s)
        rw [modClass_trunk] at taken
        split at taken
        · next room => rw [if_pos room, taken]
        · next full => rw [if_neg full, taken]

/-! ## A fragment in each state -/

/-- A partial frame that is torn is counted (R136 b and d). -/
theorem tear_cls (c : ClassNo) (s : State) : (tear c s).cls c = { s.cls c with
    n := { (s.cls c).n with
      tornFrame := (s.cls c).n.tornFrame + (match (s.cls c).reasm with | .building _ => 1 | _ => 0) } } := by
  unfold tear
  cases e : (s.cls c).reasm <;> simp [countClass]

theorem tear_trunk (c : ClassNo) (s : State) : (tear c s).trunk = s.trunk := by
  unfold tear
  split <;> rfl

theorem tear_agent (c : ClassNo) (s : State) : (tear c s).agent = s.agent := by
  unfold tear
  split <;> rfl

theorem setReasm_cls (c : ClassNo) (r : Reasm) (s : State) :
    (setReasm c r s).cls c = { s.cls c with reasm := r } := modClass_cls_same ..

theorem countClass_cls (c : ClassNo) (g : ClassCounters → ClassCounters) (s : State) :
    (countClass c g s).cls c = { s.cls c with n := g (s.cls c).n } := modClass_cls_same ..

/-- The outcome of a fragment for class `c` by its form and the state of the context in `s` (R136, R137, R139). -/
def Reassembled (c : ClassNo) (first last : Bool) (payload : List Octet) (s t : State) : Prop :=
  match first, (s.cls c).reasm with
  | true, r =>
      (t.cls c).n.tornFrame = (s.cls c).n.tornFrame + (match r with | .building _ => 1 | _ => 0) ∧
      if last = true then (t.cls c).reasm = .idle ∧ PassedOn c payload s t
      else (t.cls c).reasm = .building payload
  | false, .idle => (t.cls c).reasm = .idle ∧ (t.cls c).n.orphan = (s.cls c).n.orphan + 1
  | false, .discarding =>
      (t.cls c).reasm = (if last = true then .idle else .discarding) ∧
        (t.cls c).n.skipped = (s.cls c).n.skipped + 1
  | false, .building part =>
      if 1600 < part.length + payload.length then
        (t.cls c).reasm = .discarding ∧ (t.cls c).n.oversize = (s.cls c).n.oversize + 1
      else if last = true then (t.cls c).reasm = .idle ∧ PassedOn c (part ++ payload) s t
      else (t.cls c).reasm = .building (part ++ payload)

/-- What is done after a fragment was reassembled, as class `c` sees it: the context's state, the counters of R132 and
R141, the requests handed on and the frames offered stay. -/
structure LeavesReassembly (c : ClassNo) (s t : State) : Prop where
  reasm : (t.cls c).reasm = (s.cls c).reasm
  counters : inbound (t.cls c).n = inbound (s.cls c).n
  requests : t.agent.requests = s.agent.requests
  malformed : t.trunk.n.malformedDrop = s.trunk.n.malformedDrop
  egress : s.trunk.egress <+: t.trunk.egress
  full : TakesNoneWhenFull s t

theorem LeavesReassembly.trans {c : ClassNo} {s t u : State} (h : LeavesReassembly c s t)
    (k : LeavesReassembly c t u) : LeavesReassembly c s u where
  reasm := k.reasm.trans h.reasm
  counters := k.counters.trans h.counters
  requests := k.requests.trans h.requests
  malformed := k.malformed.trans h.malformed
  egress := h.egress.trans k.egress
  full := h.full.trans k.full

/-- Counters that agree as `inbound` agree in each that a release and a reassembly count (R132, R141). -/
theorem counters_of_inbound {m n : ClassCounters} (h : inbound m = inbound n) :
    m.released = n.released ∧ m.emptyFrame = n.emptyFrame ∧ m.mgmtBond = n.mgmtBond ∧ m.frameBuilt = n.frameBuilt ∧
      m.tornFrame = n.tornFrame ∧ m.orphan = n.orphan ∧ m.skipped = n.skipped ∧ m.oversize = n.oversize := by
  simp only [inbound, ClassCounters.mk.injEq, true_and] at h
  tauto

/-- A frame that has been passed on stays so. -/
theorem passedOn_later {c : ClassNo} {f : Frame} {s t u : State} (h : PassedOn c f s t)
    (k : LeavesReassembly c t u) : PassedOn c f s u := by
  obtain ⟨-, empty, mgmt, built, -⟩ := counters_of_inbound k.counters
  unfold PassedOn at h ⊢
  rw [empty, mgmt, built, k.requests, k.malformed]
  split_ifs at h ⊢ with isEmpty short far room
  · exact h
  · exact h
  · exact h
  · exact ⟨h.1, h.2.trans k.egress⟩
  · have same : u.trunk.egress = t.trunk.egress := k.full (by rw [h.2]; omega)
    exact ⟨h.1, same.trans h.2⟩

/-- The passing on of a frame looks at three counters of the class, the trunk port and the waiting requests. -/
theorem passedOn_earlier {c : ClassNo} {f : Frame} {r s t : State} (h : PassedOn c f s t)
    (empty : (s.cls c).n.emptyFrame = (r.cls c).n.emptyFrame) (mgmt : (s.cls c).n.mgmtBond = (r.cls c).n.mgmtBond)
    (built : (s.cls c).n.frameBuilt = (r.cls c).n.frameBuilt) (trunk : s.trunk = r.trunk)
    (agent : s.agent = r.agent) : PassedOn c f r t := by
  unfold PassedOn at h ⊢
  rwa [empty, mgmt, built, trunk, agent] at h

/-- The context is idle while a completed frame is passed on (R136 a and c). -/
theorem passOn_idle (c : ClassNo) (f : Frame) (s : State) :
    ((passOn c f (setReasm c .idle s)).cls c).reasm = .idle ∧
      ((passOn c f (setReasm c .idle s)).cls c).n.tornFrame = (s.cls c).n.tornFrame ∧
      PassedOn c f s (passOn c f (setReasm c .idle s)) := by
  obtain ⟨_, _, _, e⟩ := passOn_cls c f (setReasm c .idle s)
  have idle := setReasm_cls c .idle s
  refine ⟨?_, ?_, passedOn_earlier (passOn_passedOn c f _) ?_ ?_ ?_ rfl rfl⟩
  · rw [e, idle]
  · rw [e, idle]
  all_goals rw [idle]

/-- A fragment comes to what its form and the context's state give (R136, R137, R139). -/
theorem reassemble_reassembled (c : ClassNo) (first last : Bool) (payload : List Octet) (s : State) :
    Reassembled c first last payload s (reassemble c first last payload s) := by
  unfold Reassembled reassemble
  cases first with
  | true =>
    have torn := tear_cls c s
    cases last with
    | false =>
      rw [setReasm_cls, torn]
      exact ⟨rfl, rfl⟩
    | true =>
      obtain ⟨idle, counted, passed⟩ := passOn_idle c payload (tear c s)
      refine ⟨counted.trans (congrArg (·.n.tornFrame) torn), idle,
        passedOn_earlier passed ?_ ?_ ?_ (tear_trunk c s) (tear_agent c s)⟩
      all_goals rw [torn]
  | false =>
    cases e : (s.cls c).reasm with
    | idle =>
      rw [countClass_cls]
      exact ⟨e, rfl⟩
    | discarding =>
      rw [setReasm_cls, countClass_cls]
      exact ⟨rfl, rfl⟩
    | building part =>
      by_cases long : 1600 < part.length + payload.length
      · simp only [if_pos long]
        rw [setReasm_cls, countClass_cls]
        exact ⟨rfl, rfl⟩
      · simp only [if_neg long]
        cases last with
        | false =>
          simp only [Bool.false_eq_true, if_false]
          rw [setReasm_cls]
        | true =>
          obtain ⟨idle, -, passed⟩ := passOn_idle c (part ++ payload) s
          exact ⟨idle, passed⟩

theorem Reassembled.later {c : ClassNo} {first last : Bool} {payload : List Octet} {s t u : State}
    (h : Reassembled c first last payload s t) (k : LeavesReassembly c t u) :
    Reassembled c first last payload s u := by
  obtain ⟨-, -, -, -, torn, orphan, skipped, oversize⟩ := counters_of_inbound k.counters
  unfold Reassembled at h ⊢
  rw [torn, orphan, skipped, oversize, k.reasm]
  cases first with
  | true =>
    refine ⟨h.1, ?_⟩
    cases last with
    | false => exact h.2
    | true => exact ⟨h.2.1, passedOn_later h.2.2 k⟩
  | false =>
    cases e : (s.cls c).reasm with
    | idle | discarding =>
      rw [e] at h
      exact h
    | building part =>
      simp only [e] at h ⊢
      split_ifs at h ⊢
      · exact h
      · exact ⟨h.1, passedOn_later h.2 k⟩
      · exact h

/-- The outcome looks at the context's state, the counters of the reassembler, the trunk port and the waiting
requests alone. -/
theorem Reassembled.earlier {c : ClassNo} {first last : Bool} {payload : List Octet} {r s t : State}
    (h : Reassembled c first last payload s t) {next : Seq} {held : List Held} {hs : Vector (Option Seq) 8}
    {accepted released : Count}
    (cls : s.cls c = { r.cls c with
      next := next, held := held, horizons := hs
      n := { (r.cls c).n with accepted := accepted, released := released } })
    (trunk : s.trunk = r.trunk) (agent : s.agent = r.agent) : Reassembled c first last payload r t := by
  unfold Reassembled PassedOn at h ⊢
  rw [cls, trunk, agent] at h
  exact h

/-- A fragment in the reassembly context leaves the reorder context and its counters (R112, R135). -/
theorem reassemble_cls (c : ClassNo) (first last : Bool) (payload : List Octet) (s : State) :
    ∃ reasm n, (reassemble c first last payload s).cls c = { s.cls c with reasm := reasm, n := n } ∧
      n.released = (s.cls c).n.released := by
  have passed : ∀ (f : Frame) (v : State) (n : ClassCounters), v.cls c = { s.cls c with n := n } →
      n.released = (s.cls c).n.released → ∃ reasm n,
        (passOn c f (setReasm c .idle v)).cls c = { s.cls c with reasm := reasm, n := n } ∧
          n.released = (s.cls c).n.released := fun f v n cls same => by
    obtain ⟨_, _, _, e⟩ := passOn_cls c f (setReasm c .idle v)
    rw [setReasm_cls, cls] at e
    exact ⟨_, _, e, same⟩
  unfold reassemble
  split
  · rw [setReasm_cls, tear_cls]
    exact ⟨_, _, rfl, rfl⟩
  · exact passed _ _ _ (tear_cls c s) rfl
  · split
    · rw [countClass_cls]
      exact ⟨_, _, rfl, rfl⟩
    · rw [setReasm_cls, countClass_cls]
      exact ⟨_, _, rfl, rfl⟩
    · split
      · rw [setReasm_cls, countClass_cls]
        exact ⟨_, _, rfl, rfl⟩
      · split
        · exact passed _ _ _ rfl rfl
        · rw [setReasm_cls]
          exact ⟨_, _, rfl, rfl⟩

end Sys2Proof.Proofs
end

