-- ==== Sys2Proof/Proofs/DataReassembled.lean ====
section
/-! A DATA fragment of sequence next that finds nothing held (R119, R125): it is released at once, no rule declares
anything lost behind it, and its outcome in the reassembly context stays through what follows. -/

namespace Sys2Proof.Proofs
open Sys2Proof Sys2Proof.Machine Sys2Proof.Laws

/-! ## The collector -/

theorem ahead_succ (q : Seq) : ahead (q + 1) q = true := by
  simp [ahead, dist]

theorem not_ahead_self (q : Seq) : ahead q q = false := by
  simp [ahead, dist]

/-- A pair of the horizon set whose horizon stands at next blocks the horizon rule (R125 b). -/
theorem horizonRule_blocked_at_next {c : ClassNo} {s : State} {p : PairNo} (member : (s.pair p).inHorizonSet = true)
    (atNext : s.horizon c p = some (s.cls c).next) : horizonRule c s = false := by
  have blocks : horizonPasses s c p = false := by simp [horizonPasses, member, atNext, not_ahead_self]
  have every : ∀ q : PairNo, q ∈ allPairs := by decide
  have notAll : allPairs.all (horizonPasses s c) = false := List.all_eq_false.2 ⟨p, every p, by simp [blocks]⟩
  simp [horizonRule, notAll]

/-- With nothing held there is no gap, and no hold timer runs (R123). -/
theorem followGap_of_held_nil {before : Seq} {c : ClassNo} {s : State} (h : (s.cls c).held = []) :
    (followGap before c s).cls c = { s.cls c with hold := none } ∧
      (followGap before c s).trunk = s.trunk ∧ (followGap before c s).agent = s.agent := by
  refine ⟨?_, rfl, rfl⟩
  rw [followGap, modClass_cls_same]
  simp [ClassUnit.gap, h]

/-- The state in which a stored fragment of sequence next reaches the reassembly context: its slot is free again, it
is counted and next has advanced (R119). -/
def nextReleased (c : ClassNo) (p : PairNo) (f : Held) (s : State) : State :=
  modClass c (fun k => { k with
    held := k.held.filter fun g => g.seq ≠ f.seq
    next := k.next + 1
    n := { k.n with released := k.n.released + 1 } }) (storeData c p f s)

theorem nextReleased_cls {c : ClassNo} {f : Held} {s : State} (p : PairNo) (empty : (s.cls c).held = []) :
    (nextReleased c p f s).cls c = { s.cls c with
      next := (s.cls c).next + 1
      held := []
      horizons := (s.cls c).horizons.set p.val (horizonAfter f.seq (s.horizon c p)) p.isLt
      n := { (s.cls c).n with
        accepted := (s.cls c).n.accepted + 1
        released := (s.cls c).n.released + 1 } } := by
  rw [nextReleased, modClass_cls_same, storeData_cls]
  simp [empty]

/-- The delivery pass releases the fragment and then finds nothing held (R119). -/
theorem deliveryPass_next {c : ClassNo} {p : PairNo} {f : Held} {s : State} (isNext : f.seq = (s.cls c).next)
    (empty : (s.cls c).held = []) :
    deliveryPass c (storeData c p f s) = reassemble c f.first f.last f.payload (nextReleased c p f s) := by
  have stored := storeData_cls c p f s
  have found : heldAt ((storeData c p f s).cls c).next ((storeData c p f s).cls c).held = some f := by
    rw [stored]
    simp [heldAt, empty, isNext]
  have one : ((storeData c p f s).cls c).held.length = 1 := by
    rw [stored]
    simp [empty]
  rw [deliveryPass, one, deliverUpTo, found]
  rfl

/-- After the release the fragment's pair stands at next (R118). -/
theorem reassembled_horizon {c : ClassNo} {p : PairNo} {f : Held} {s : State} (isNext : f.seq = (s.cls c).next)
    (empty : (s.cls c).held = []) (horizon : s.horizon c p = none ∨ s.horizon c p = some (s.cls c).next) :
    (reassemble c f.first f.last f.payload (nextReleased c p f s)).horizon c p = some ((s.cls c).next + 1) := by
  obtain ⟨_, _, e, -⟩ := reassemble_cls c f.first f.last f.payload (nextReleased c p f s)
  rw [State.horizon, e, nextReleased_cls p empty]
  simp only [get_set, if_true, isNext]
  rcases horizon with h | h
  · simp only [h, horizonAfter]
  · simp only [h, horizonAfter, ahead_succ, if_true]

/-- A fragment of sequence next from a pair of the horizon set is released at once, and nothing is declared lost: its
pair's horizon is next again (R119, R125). -/
theorem collectData_next {c : ClassNo} {p : PairNo} {f : Held} {s : State} (isNext : f.seq = (s.cls c).next)
    (empty : (s.cls c).held = []) (quota : 0 < (s.cls c).cfg.quota)
    (horizon : s.horizon c p = none ∨ s.horizon c p = some (s.cls c).next)
    (member : (s.pair p).inHorizonSet = true) :
    collectData c p f s =
      followGap (s.cls c).next c (reassemble c f.first f.last f.payload (nextReleased c p f s)) := by
  have zero : dist f.seq (s.cls c).next = 0 := by simp [dist, isNext]
  rw [collectData_stored p (by omega) (by omega) (by simp [empty]), deliveryPass_next isNext empty]
  have standsAt := reassembled_horizon isNext empty horizon
  obtain ⟨_, _, e, -⟩ := reassemble_cls c f.first f.last f.payload (nextReleased c p f s)
  have pairs := (reassemble_delivers c f.first f.last f.payload (nextReleased c p f s)).pairs
  generalize reassemble c f.first f.last f.payload (nextReleased c p f s) = v at standsAt e pairs ⊢
  have still : (v.pair p).inHorizonSet = true := by
    have unit : v.pair p = s.pair p := congrArg (Vector.get · p) pairs
    rwa [unit]
  have advanced : (v.cls c).next = (s.cls c).next + 1 := by rw [e, nextReleased_cls p empty]
  rw [lossTests_of_blocked (horizonRule_blocked_at_next still (standsAt.trans (by rw [advanced])))]

/-- What the collector has done with a fragment of sequence next. -/
structure ReleasedAtOnce (c : ClassNo) (f : Held) (s t : State) : Prop where
  next : (t.cls c).next = (s.cls c).next + 1
  held : (t.cls c).held = []
  hold : (t.cls c).hold = none
  released : (t.cls c).n.released = (s.cls c).n.released + 1
  outcome : Reassembled c f.first f.last f.payload s t

theorem collectData_releasedAtOnce {c : ClassNo} {p : PairNo} {f : Held} {s : State}
    (isNext : f.seq = (s.cls c).next) (empty : (s.cls c).held = []) (quota : 0 < (s.cls c).cfg.quota)
    (horizon : s.horizon c p = none ∨ s.horizon c p = some (s.cls c).next)
    (member : (s.pair p).inHorizonSet = true) : ReleasedAtOnce c f s (collectData c p f s) := by
  rw [collectData_next isNext empty quota horizon member]
  have before := nextReleased_cls (f := f) p empty
  have outcome := (reassemble_reassembled c f.first f.last f.payload (nextReleased c p f s)).earlier before rfl rfl
  obtain ⟨reasm, n, e, released⟩ := reassemble_cls c f.first f.last f.payload (nextReleased c p f s)
  generalize reassemble c f.first f.last f.payload (nextReleased c p f s) = v at outcome e ⊢
  rw [before] at e released
  obtain ⟨after, trunk, agent⟩ := followGap_of_held_nil (before := (s.cls c).next) (c := c) (s := v) (by rw [e])
  have leaves : LeavesReassembly c v (followGap (s.cls c).next c v) :=
    { reasm := by rw [after]
      counters := by rw [after]
      requests := by rw [agent]
      malformed := by rw [trunk]
      egress := by rw [trunk]
      full := .of_trunk trunk }
  refine ⟨by rw [after, e], by rw [after, e], by rw [after], ?_, outcome.later leaves⟩
  rw [after, e]
  exact released

/-- What the collector has done stands against any state with the same class, trunk port and agent. -/
theorem ReleasedAtOnce.earlier {c : ClassNo} {f : Held} {r s t : State} (h : ReleasedAtOnce c f s t)
    (cls : s.cls c = r.cls c) (trunk : s.trunk = r.trunk) (agent : s.agent = r.agent) : ReleasedAtOnce c f r t :=
  ⟨cls ▸ h.next, h.held, h.hold, cls ▸ h.released, h.outcome.earlier cls trunk agent⟩

/-- What follows the collector's work leaves it. -/
theorem ReleasedAtOnce.later {c : ClassNo} {f : Held} {s t u : State} (h : ReleasedAtOnce c f s t)
    (follows : Follows t u) (moves : Moves t u) (outward : Outward t u) (full : TakesNoneWhenFull t u) :
    ReleasedAtOnce c f s u := by
  have context := follows.contexts c
  have counters := moves_keep_inbound moves c
  have next : (u.cls c).next = (t.cls c).next := congrArg (·.1) context
  have held : (u.cls c).held = (t.cls c).held := congrArg (·.2.1) context
  have hold : (u.cls c).hold = (t.cls c).hold := congrArg (·.2.2.2.1) context
  obtain ⟨released, -⟩ := counters_of_inbound counters
  exact ⟨next.trans h.next, held.trans h.held, hold.trans h.hold, released.trans h.released, h.outcome.later
    { reasm := congrArg (·.2.2.2.2) context
      counters := counters
      requests := follows.requests
      malformed := by rw [outward.counters]
      egress := follows.egress
      full := full }⟩

/-! ## The command -/

/-- The pairs' part of a DATA fragment on a pair in service: a JOINING pair enters SERVING and a WAKING pair completes
its wake before the fragment counts for its idle timer and its offer (R35, R172, R176, R180). -/
def pairTakesData (p : PairNo) (s : State) : State :=
  dataOnPair p (match (s.pair p).state with
    | .joining => joinServing p s
    | .waking => completeWake p s
    | _ => s)

theorem pairTakesData_pairEvent (p : PairNo) (s : State) : PairEvent p s (pairTakesData p s) := by
  unfold pairTakesData
  split
  · exact (joinServing_pairEvent p s).trans (dataOnPair_pairEvent p _)
  · exact (completeWake_pairEvent p s).trans (dataOnPair_pairEvent p _)
  · exact dataOnPair_pairEvent p s

theorem pairTakesData_trunk (p : PairNo) (s : State) : (pairTakesData p s).trunk = s.trunk := by
  unfold pairTakesData
  rw [dataOnPair_trunk]
  split
  · exact joinServing_trunk p s
  · exact completeWake_trunk p s
  · rfl

section Service

variable {p : PairNo} {s : State}
  (service : (s.pair p).state = .serving ∨ (s.pair p).state = .joining ∨ (s.pair p).state = .waking)

include service

theorem pairTakesData_serving : ((pairTakesData p s).pair p).state = .serving := by
  unfold pairTakesData
  rw [dataOnPair_state]
  rcases service with state | state | state
  · simp only [state]
  · simp only [state, joinServing_state]
  · simp only [state, completeWake_state]

/-- The collector takes the fragment between the pairs' part and what follows the event (R94, R116). -/
theorem takeDataFragment_eq (c : ClassNo) (f : DataFields) :
    takeDataFragment p c f s = settle (collectData c p (heldOf f) (pairTakesData p s)) ∨
      takeDataFragment p c f s = finish (collectData c p (heldOf f) (pairTakesData p s)) := by
  have serving := pairTakesData_serving service
  have member : takeData c p (heldOf f) (pairTakesData p s) = collectData c p (heldOf f) (pairTakesData p s) :=
    takeData_member serving
  rw [← member]
  unfold pairTakesData takeDataFragment
  rcases service with state | state | state
  · by_cases offering : (s.pair p).offering = true
    · exact .inl (by simp [state, offering, heldOf])
    · exact .inr (by simp [state, offering, heldOf])
  · exact .inl (by simp [state, heldOf])
  · exact .inl (by simp [state, heldOf])

end Service

/-- A fragment of sequence next on a pair in service is released at once, whatever follows the event. -/
theorem takeDataFragment_releasedAtOnce {p : PairNo} {c : ClassNo} {f : DataFields} {s : State}
    (noReset : s.agent.reset = none)
    (service : (s.pair p).state = .serving ∨ (s.pair p).state = .joining ∨ (s.pair p).state = .waking)
    (isNext : f.seq = (s.cls c).next) (empty : (s.cls c).held = []) (quota : 0 < (s.cls c).cfg.quota)
    (horizon : s.horizon c p = none ∨ s.horizon c p = some (s.cls c).next) :
    ReleasedAtOnce c (heldOf f) s (takeDataFragment p c f s) := by
  have event := pairTakesData_pairEvent p s
  have member : ((pairTakesData p s).pair p).inHorizonSet = true := by
    simp [PairUnit.inHorizonSet, pairTakesData_serving service]
  have cls := event.cls c
  have taken : ReleasedAtOnce c (heldOf f) (pairTakesData p s) (collectData c p (heldOf f) (pairTakesData p s)) :=
    collectData_releasedAtOnce (by rw [cls]; exact isNext) (by rw [cls]; exact empty) (by rw [cls]; exact quota)
      (by rw [event.horizon, cls]; exact horizon) member
  have noneYet : (collectData c p (heldOf f) (pairTakesData p s)).agent.reset = none :=
    (collectData_collects c p _ _).reset ((congrArg Agent.reset event.agent).trans noReset)
  have fromStart := taken.earlier cls (pairTakesData_trunk p s) event.agent
  rcases takeDataFragment_eq service c f with e | e
  · rw [e]
    exact fromStart.later (settle_follows noneYet) (settle_moves noneYet) (settle_outward noneYet)
      (settle_full noneYet)
  · rw [e]
    exact fromStart.later (finish_follows noneYet) (finish_moves noneYet) (finish_outward noneYet)
      (finish_full noneYet)

/-- Settles O12: the fragment is released in the event that takes it (R119), with the outcome of its form in the state
of the context (R136, R137, R139). -/
theorem dataReassembled : Obligations.DataReassembled := by
  intro p f c s isOpen epoch cls service isNext empty quota horizon
  have receives : Receives p s := by rcases service with e | e | e <;> simp [Receives, e]
  have noReset : (Heard p f.payload.length s).agent.reset = none := isOpen.2
  have heardService := heard_state p f.payload.length s ▸ service
  have taken : ReleasedAtOnce c (heldOf f) (Heard p f.payload.length s) _ :=
    takeDataFragment_releasedAtOnce noReset heardService isNext empty quota horizon
  have fromStart : ReleasedAtOnce c (heldOf f) s _ := taken.earlier rfl rfl rfl
  exact ⟨_, exec_data isOpen.1 receives epoch cls, fromStart.next, fromStart.held, fromStart.hold,
    fromStart.released, fromStart.outcome⟩

end Sys2Proof.Proofs
end

