-- ==== Sys2Proof/Proofs/ProbeOutsideQuiet.lean ====
section
/-! PROOF. The rules of the transmit queues alone do not tell in which state a supervision timer runs (R10), so the probe
timer of a SERVING pair may expire: the pair enters WAKING with its queue as it was. -/

namespace Sys2Proof.Proofs
open Sys2Proof Sys2Proof.Machine Sys2Proof.Laws

/-- A SERVING pair with one fragment in its queue whose supervision timer runs as a probe timer, at its expiry. -/
def probedInService : State :=
  { modPair 0 (fun u => { u with
      state := .serving
      supervision := some (.probe, ⟨0, 0⟩)
      queue := [{ cls := 0, seq := 0, first := true, last := true, payload := [0], allowed := 0, resetReply := false }] })
      State.reset with
    pending := [.probeTimerExpiry 0] }

theorem probedInService_kept : QueuesKept probedInService ∧ ControlSetsKept probedInService := by
  unfold QueuesKept PairUnit.QueueKept ControlSetsKept PairUnit.ControlKept
  decide +kernel

/-- What the expiry does. -/
def probeExpires (s : State) : State :=
  expire ((s.pair 0).supervisionAs .probe) (fun s => settle (enterWaking 0 .probe s)) s

/-- The state that the expiry leaves. -/
def wokenFromService : State := probeExpires { probedInService with pending := [], out := [] }

theorem step_probedInService : step probedInService = .next wokenFromService :=
  takeCommand_taking probeExpires (s := { probedInService with pending := [] }) (by decide +kernel)

theorem wokenFromService_queue :
    (wokenFromService.pair 0).state = .waking ∧ (wokenFromService.pair 0).queue.length = 1 := by decide +kernel

/-- Refutes O59: a probe timer that runs in SERVING takes the pair to WAKING with a fragment in its queue. -/
theorem not_pairQueuesKept : ¬ Obligations.PairQueuesKept := by
  intro kept
  have queues := (kept _ _ probedInService_kept step_probedInService).1
  obtain ⟨-, outside, -⟩ := queues 0
  obtain ⟨waking, length⟩ := wokenFromService_queue
  simp [outside (by simp [waking])] at length

end Sys2Proof.Proofs
end

