-- ==== Sys2Proof/Proofs/Invariants.lean ====
section
/-! SUPPORT. What a property of the state owes to be an invariant of every step: the shared operations that it must
survive, listed once for events, for requests and for resets. The walk through the commands stands in
`KeptByCommands`; an invariant proves these fields and nothing about a command. -/

namespace Sys2Proof.Proofs
open Sys2Proof Sys2Proof.Machine Sys2Proof.Laws

/-! ## Changes that no invariant reads -/

/-- The clock, the outputs, the trunk and class counters, the state of the notice sources, the readiness of the trunk and
the timers of the run may differ; nothing else does. -/
structure Aside (s t : State) : Prop where
  pairs : t.pairs = s.pairs
  classes : ∀ c : ClassNo, { t.cls c with n := {} } = { s.cls c with n := {} }
  bond : t.bond = s.bond
  engine : EngineLeft s t
  classifier : t.classifier = s.classifier
  egress : t.trunk.egress = s.trunk.egress
  requests : t.agent.requests = s.agent.requests
  pending : t.agent.reset = none ↔ s.agent.reset = none
  settings : SettingsKept s t

theorem Aside.refl (s : State) : Aside s s where
  pairs := rfl
  classes _ := rfl
  bond := rfl
  engine := rfl
  classifier := rfl
  egress := rfl
  requests := rfl
  pending := .rfl
  settings := (Follows.refl s).settings

theorem emit_aside (o : Output) (s : State) : Aside s (emit o s) := { Aside.refl s with }

theorem countTrunk_aside (f : TrunkCounters → TrunkCounters) (s : State) : Aside s (countTrunk f s) :=
  { Aside.refl s with }

theorem silent_aside (s : State) : Aside s { s with out := [] } := { Aside.refl s with }

theorem clock_aside (n : Nat) (s : State) : Aside s { s with now := n } := { Aside.refl s with }

theorem reach_aside (tm : Timer) (s : State) : Aside s (reach tm s) := clock_aside _ s

theorem setReady_aside (b : Bool) (s : State) : Aside s (setReady b s) := { Aside.refl s with }

theorem sending_aside (b : Bool) (s : State) : Aside s { s with trunk := { s.trunk with sending := b } } :=
  { Aside.refl s with }

theorem countClass_aside (c : ClassNo) (f : ClassCounters → ClassCounters) (s : State) : Aside s (countClass c f s) :=
  { Aside.refl s with
    classes := fun d => by
      rw [countClass, modClass_cls]
      split
      · next e => rw [e]
      · rfl
    settings := (countClass_follows c f s).settings }

theorem modSource_aside (src : Source) (f : SourceUnit → SourceUnit) (s : State)
    (h : ∀ u, (f u).enable = u.enable ∧ (f u).level = u.level) : Aside s (modSource src f s) :=
  { Aside.refl s with settings := (modSource_follows src f s h).settings }

theorem raiseNotice_aside (src : Source) (a : NoticeArg) (s : State) : Aside s (raiseNotice src a s) :=
  { Aside.refl s with settings := (raiseNotice_follows src a s).settings }

theorem number_aside (n : BitVec 16) (s : State) : Aside s { s with notices := { s.notices with number := n } } :=
  { Aside.refl s with settings := (noticeNumber_follows n s).settings }

theorem reportReset_aside (s : State) : Aside s (reportReset s) := by
  unfold reportReset
  split
  · exact Aside.refl s
  · next r e => exact { Aside.refl s with pending := by simp [e] }

/-! ## Changes of a pair unit within its state -/

/-- A change of a pair unit that keeps its state and what it has heard: R stays within the range of the state, and a timer
or the prove-wanted flag is set afterwards only where it was or the state lets it be. -/
structure Settled (u v : PairUnit) : Prop where
  state : v.state = u.state
  cfg : v.cfg = u.cfg
  rate : v.rate = u.rate ∨
    (((u.state ≠ .absent ∧ u.state ≠ .down) ∨ u.window.isSome = true) ∧ 16 ≤ v.rate ∧ v.rate ≤ 16383)
  supervision : v.supervision.map (·.1) = u.supervision.map (·.1) ∨
    (u.state = .serving ∧ v.supervision.map (·.1) = some .heard)
  errTimer : v.errTimer.isSome = true → u.errTimer.isSome = true ∨ u.state = .serving
  settleTimer : v.settleTimer.isSome = true → u.settleTimer.isSome = true ∨ u.state = .serving
  aliveTimer : v.aliveTimer.isSome = true → u.aliveTimer.isSome = true
  window : v.window.isSome = true → u.window.isSome = true ∨ u.state = .serving
  idleTimer : v.idleTimer.isSome = true → u.idleTimer.isSome = true ∨ u.state = .serving
  offerTimer : v.offerTimer.isSome = true → u.offerTimer.isSome = true ∨ u.state = .serving
  haltTimer : v.haltTimer.isSome = true → u.haltTimer.isSome = true ∨ u.state = .halted
  proveWanted : v.proveWanted = true → u.proveWanted = true ∨ u.state = .standby
  queue : ∀ e ∈ v.queue, e ∈ u.queue
  heard : v.n.fragIn = u.n.fragIn ∧ v.n.octetIn = u.n.octetIn

theorem Settled.refl (u : PairUnit) : Settled u u where
  state := rfl
  cfg := rfl
  rate := .inl rfl
  supervision := .inl rfl
  errTimer := .inl
  settleTimer := .inl
  aliveTimer := id
  window := .inl
  idleTimer := .inl
  offerTimer := .inl
  haltTimer := .inl
  proveWanted := .inl
  queue _ := id
  heard := ⟨rfl, rfl⟩

/-! ## The fields of an invariant -/

/-- Pair `p` may leave its state for `st`: from a state in which it has an R, or for one that takes R away, and not while
the engine holds its run (R7, R68, R150). A running halt or supervision timer tells that its state is such (R10, R163). -/
def MayMove (p : PairNo) (st : PairState) (s : State) : Prop :=
  st ≠ .proving ∧ st ≠ .serving ∧
    (((st = .down ∨ st = .absent ∨ ((s.pair p).state ≠ .absent ∧ (s.pair p).state ≠ .down)) ∧
        (s.runOn p = false ∨ (s.pair p).state ≠ .proving)) ∨
      (s.pair p).haltTimer.isSome = true ∨ (s.pair p).supervision.isSome = true)

/-- The run on pair `p` with its record and its pair as an abort leaves them, before the engine serves the next pair
(R165 a-d). -/
def aborted (p : PairNo) (cause : AbortCause) (s : State) : State :=
  let s := { s with engine := none }
  let s := modRecord p (fun r => { r with status := .aborted, abortCause := some cause }) s
  let s := if cause = .write || cause = .noAnswer then raiseEnd p .aborted 0 s else s
  moveTo p cause.stateAfter s

/-- The run on pair `p` with its record and its pair as its verdict leaves them, before the engine serves the next pair
(R161). -/
def concluded (p : PairNo) (s : State) : State :=
  let r := (s.pair p).record
  let v : Verdict := if r.failures = 0 then .passed else .failed
  let d := r.minTrip.map (· / 2)
  let s := modRecord p (fun r => { r with
    status := if r.failures = 0 then .passed else .failed, resultD := d }) s
  let s := modPair p (fun u => { u with delay := d.getD u.delay }) s
  let s := raiseEnd p v (d.getD 0) s
  if r.failures = 0 then moveTo p .joining s
  else if s.cfg.barOnFail then raiseForPair .pairBarred p (moveTo p .barred s)
  else moveTo p .standby s

theorem abortRun_eq (p : PairNo) (cause : AbortCause) (s : State) :
    abortRun p cause s = freeEngine (raiseNotice .provingDone (doneArg .aborted p) (aborted p cause s)) := rfl

theorem endRun_eq (p : PairNo) (s : State) :
    endRun p s = freeEngine (raiseNotice .provingDone
      (doneArg (if (s.pair p).record.failures = 0 then .passed else .failed) p) (concluded p s)) := rfl

/-- The distributor, the collector, the reassembler and the bond controller after a local restart (R44 steps 2 to 4). -/
def restartStores (s : State) : State :=
  let s := eachClass restartDistributor s
  let s := eachClass restartClass s
  { s with bond := { s.bond with carried := false, asking := false, askTimer := none } }

/-- A frame that may stand in the frame buffer (R84, R193). -/
def Admissible (f : FrameRec) (s : State) : Prop :=
  1 ≤ f.octets.length ∧ f.octets.length ≤ 1600 ∧ (f.resetReply = true → s.agent.reset ≠ none)

/-- The property is kept by every operation of which the events are made, but for those of the pairs and the engine. -/
structure KeptByStores (I : State → Prop) : Prop where
  aside {s t : State} : Aside s t → I s → I t
  /-- the collector (chapter 6) -/
  horizon {c : ClassNo} {p : PairNo} {h : Option Seq} {s : State} : I s → I (setHorizon c p h s)
  losses {c : ClassNo} {s : State} : I s → I (testLosses c s)
  collect {c : ClassNo} {p : PairNo} {f : Held} {s : State} : I s → I (collectData c p f s)
  hold {c : ClassNo} {s : State} : I s → I (holdExpires c s)
  /-- the bond controller (2.6) -/
  epoch {e : Option Epoch} {s : State} : I s → I (setEpoch e s)
  stores {s : State} : I s → I (restartStores s)
  asking {b : Bool} {t : Option Timer} {s : State} : I s → I { s with bond := { s.bond with asking := b, askTimer := t } }
  /-- the distributor and the trunk port (chapters 5 and 7) -/
  spill {c : ClassNo} {s : State} : I s → I (spillFrame c s)
  noPath {c : ClassNo} {s : State} : I s → I (dropNoPath c s)
  place {c : ClassNo} {s : State} : I s → I (placeFragment c s)
  admission {c : ClassNo} {f : FrameRec} {s : State} : Admissible f s → I s → I (offerFrame c f s)
  egress {e : EgressEntry} {s : State} : (e.resetReply = true → s.agent.reset ≠ none) → I s → I (offerEgress e s)
  sent {s : State} : I s → I { s with trunk := { s.trunk with egress := s.trunk.egress.tail } }
  matched {i : Fin 32} {f : Entry → Nat} {s : State} : I s → I (modEntry i (fun e => { e with matched := f e }) s)
  arrive {r : Request} {s : State} : (∀ f ∈ r.trunkFrame, 1 ≤ f.length ∧ f.length ≤ 1600) → I s → I (handToAgent r s)
  /-- a RESET-PART that is pending is performed (R193) -/
  perform {s : State} : s.agent.reset ≠ none → I s → I (completeReset .management (cutAll s))

/-- The property is kept by every operation of which the events are made. -/
structure KeptByEvents (I : State → Prop) : Prop extends KeptByStores I where
  unit {p : PairNo} {f : PairUnit → PairUnit} {s : State} : Settled (s.pair p) (f (s.pair p)) → I s → I (modPair p f s)
  /-- the pair state machine (1.5) -/
  move {p : PairNo} {st : PairState} {s : State} : MayMove p st s → I s → I (moveTo p st s)
  train {p : PairNo} {rate : Nat} {st : PairState} {s : State} : (s.pair p).state = .down → st = .joining ∨ st = .standby →
    I s → I (moveTo p st (modPair p (PairUnit.lineReport rate) s))
  serve {p : PairNo} {s : State} : (s.pair p).state = .joining ∨ (s.pair p).state = .waking → I s →
    I (enterState p .serving s)
  sleep {p : PairNo} {s : State} : (s.pair p).state = .serving → I s → I (enterState p .quiet s)
  wake {p : PairNo} {s : State} : (s.pair p).state = .quiet ∨ (s.pair p).supervision.map (·.1) = some .probe → I s →
    I (enterState p .waking s)
  restart {p : PairNo} {s : State} : I s → I (restartPair p s)
  barDown {p : PairNo} {s : State} : (s.pair p).state = .down → I s →
    I (modPair p (fun u => { u with rate := initialRate u.trained }) (moveTo p .barred s))
  /-- the proving engine (chapter 8) -/
  start {p : PairNo} {s : State} : s.engine = none → (s.pair p).state ≠ .absent → (s.pair p).state ≠ .down → I s →
    I (startRun p s)
  trainRun {p : PairNo} {rate : Nat} {s : State} : s.engine = none → (s.pair p).state = .down → I s →
    I (startRun p (modPair p (PairUnit.lineReport rate) s))
  run {r r' : Run} {s : State} : s.engine = some r → r'.pair = r.pair → I s → I { s with engine := some r' }
  abort {p : PairNo} {cause : AbortCause} {s : State} : s.runOn p = true ∨ (s.pair p).state = .proving → I s →
    I { aborted p cause s with engine := none }
  conclude {r : Run} {s : State} : s.engine = some r → I s → I { concluded r.pair s with engine := none }

/-- A write of a pair's settings: with it the wake errors and the no-quiet flag may clear (R171). -/
def Configured (u v : PairUnit) : Prop :=
  v = { u with cfg := v.cfg, wakeErrors := v.wakeErrors, noQuiet := v.noQuiet }

/-- The property is kept by every operation of which the requests are made besides. -/
structure KeptByRequests (I : State → Prop) : Prop extends KeptByEvents I where
  bondCfg {f : BondSettings → BondSettings} {s : State} : I s → I (modCfg f s)
  classItems {c : ClassNo} {xs vs : List ClassItem} {names : List SettingName} {s : State} :
    validateItems (checkClass s c) (fun x => .cls (className x)) xs = .ok (vs, names) → I s →
      I (applyItems (fun x => .cls (className x)) (applyClass c) (fun _ => false) vs s)
  pairCfg {p : PairNo} {f : PairUnit → PairUnit} {s : State} : Configured (s.pair p) (f (s.pair p)) → I s →
    I (modPair p f s)
  countersCleared {p : PairNo} {s : State} : I s → I (countPair p (fun _ => {}) s)
  notices {n : NoticeUnit} {s : State} : I s → I { s with notices := n }
  stage {img : EntryFields} {en : List Field} {s : State} : I s →
    I { s with classifier := { s.classifier with image := img, enable := en } }
  entry {i : Fin 32} {e : Entry} {s : State} : failedCheck i e.f = none → I s → I (modEntry i (fun _ => e) s)
  pend {path : ServicePath} {s : State} : I s → I (pendReset path s)
  served {r : Request} {rs : List Request} {s : State} : s.agent.requests = r :: rs → I s →
    I { s with agent := { s.agent with requests := rs } }
  forward {r : Request} {rs : List Request} {f : Frame} {s : State} : s.agent.requests = r :: rs → r.trunkFrame = some f →
    I s → I (offerOwnFrame f false { s with agent := { s.agent with requests := rs } })

end Sys2Proof.Proofs
end

