-- ==== Sys2Proof/Proofs/StoresLeft.lean ====
section
/-! SUPPORT. What the work of the pairs, the engine and the collector leaves of the frame stores, the sort table, the
settings and the marks of the numbering: one relation, with the operations that it holds of. -/

namespace Sys2Proof.Proofs
open Sys2Proof Sys2Proof.Machine Sys2Proof.Laws

/-! ## The relation -/

/-- The class queues, the sort table, the settings and what the pairs have heard are left; fragments may have moved
between the transmit queues, frames of the bond may have come to the trunk port and to the agent, and the collector has
worked within its rules. -/
structure StoresLeft (s t : State) : Prop where
  settings : SettingsKept s t
  classifier : t.classifier = s.classifier
  carried : s.bond.carried = true → t.bond.carried = true
  marks : CarriedMarks s → CarriedMarks t
  ordered : ContextsOrdered s → ContextsOrdered t
  frames : ∀ c : ClassNo, (t.cls c).queue = (s.cls c).queue ∧ (t.cls c).current = (s.cls c).current
  bounded : EgressBounded s → EgressBounded t
  egress : ∀ e ∈ t.trunk.egress, e ∈ s.trunk.egress ∨ e.resetReply = false
  requests : ∀ r ∈ t.agent.requests, r ∈ s.agent.requests ∨ r.trunkFrame = none
  pending : t.agent.reset = none ↔ s.agent.reset = none
  queues : ∀ p : PairNo, ∀ e ∈ (t.pair p).queue, ∃ q : PairNo, e ∈ (s.pair q).queue
  heard : ∀ p : PairNo, (t.pair p).n.fragIn = (s.pair p).n.fragIn ∧ (t.pair p).n.octetIn = (s.pair p).n.octetIn

theorem StoresLeft.refl (s : State) : StoresLeft s s where
  settings := (Follows.refl s).settings
  classifier := rfl
  carried := id
  marks := id
  ordered := id
  frames _ := ⟨rfl, rfl⟩
  bounded := id
  egress _ := .inl
  requests _ := .inl
  pending := .rfl
  queues p _ m := ⟨p, m⟩
  heard _ := ⟨rfl, rfl⟩

theorem StoresLeft.trans {s t u : State} (h : StoresLeft s t) (k : StoresLeft t u) : StoresLeft s u where
  settings := SettingsKept_trans h.settings k.settings
  classifier := k.classifier.trans h.classifier
  carried c := k.carried (h.carried c)
  marks m := k.marks (h.marks m)
  ordered o := k.ordered (h.ordered o)
  frames c := ⟨(k.frames c).1.trans (h.frames c).1, (k.frames c).2.trans (h.frames c).2⟩
  bounded b := k.bounded (h.bounded b)
  egress e m := (k.egress e m).elim (h.egress e) .inr
  requests r m := (k.requests r m).elim (h.requests r) .inr
  pending := k.pending.trans h.pending
  queues p e m := by
    obtain ⟨q, m'⟩ := k.queues p e m
    exact h.queues q e m'
  heard p := ⟨(k.heard p).1.trans (h.heard p).1, (k.heard p).2.trans (h.heard p).2⟩

/-- The classes count and reassemble alone: what the marks and the order of the contexts speak of is as it was. -/
theorem contextsOrdered_congr {s t : State} (cfg : ∀ c : ClassNo, (t.cls c).cfg = (s.cls c).cfg)
    (next : ∀ c : ClassNo, (t.cls c).next = (s.cls c).next) (held : ∀ c : ClassNo, (t.cls c).held = (s.cls c).held) :
    ContextsOrdered s → ContextsOrdered t := by
  unfold ContextsOrdered
  simp only [cfg, next, held]
  exact id

theorem carriedMarks_congr {s t : State} (carried : t.bond.carried = s.bond.carried)
    (nextSeq : ∀ c : ClassNo, (t.cls c).nextSeq = (s.cls c).nextSeq)
    (next : ∀ c : ClassNo, (t.cls c).next = (s.cls c).next) : CarriedMarks s → CarriedMarks t := by
  unfold CarriedMarks
  simp only [carried, nextSeq, next]
  exact id

theorem classes_left {s t : State} (h : ∀ c : ClassNo, { t.cls c with n := {} } = { s.cls c with n := {} }) (c : ClassNo) :
    (t.cls c).queue = (s.cls c).queue ∧ (t.cls c).current = (s.cls c).current ∧ (t.cls c).cfg = (s.cls c).cfg ∧
      (t.cls c).nextSeq = (s.cls c).nextSeq ∧ (t.cls c).next = (s.cls c).next ∧ (t.cls c).held = (s.cls c).held := by
  have e := h c
  rw [ClassUnit.mk.injEq] at e
  simp [e]

theorem Aside.storesLeft {s t : State} (h : Aside s t) : StoresLeft s t := by
  have classes := classes_left h.classes
  exact {
    settings := h.settings
    classifier := h.classifier
    carried := by rw [h.bond]; exact id
    marks := carriedMarks_congr (by rw [h.bond]) (fun c => (classes c).2.2.2.1) fun c => (classes c).2.2.2.2.1
    ordered := contextsOrdered_congr (fun c => (classes c).2.2.1) (fun c => (classes c).2.2.2.2.1)
      fun c => (classes c).2.2.2.2.2
    frames := fun c => ⟨(classes c).1, (classes c).2.1⟩
    bounded := by unfold EgressBounded; rw [h.egress]; exact id
    egress := by rw [h.egress]; exact fun _ => .inl
    requests := by rw [h.requests]; exact fun _ => .inl
    pending := h.pending
    queues := fun p e m => ⟨p, by rw [State.pair, h.pairs] at m; exact m⟩
    heard := fun p => by simp only [State.pair, h.pairs]; exact ⟨trivial, trivial⟩ }

/-! ## Pair units -/

/-- A pair unit's settings and what it has heard are as they were, and no fragment has come to its queue. -/
structure Unloaded (u v : PairUnit) : Prop where
  cfg : v.cfg = u.cfg
  queue : ∀ e ∈ v.queue, e ∈ u.queue
  heard : v.n.fragIn = u.n.fragIn ∧ v.n.octetIn = u.n.octetIn

theorem Unloaded.refl (u : PairUnit) : Unloaded u u := ⟨rfl, fun _ => id, rfl, rfl⟩

theorem Unloaded.trans {u v w : PairUnit} (h : Unloaded u v) (k : Unloaded v w) : Unloaded u w :=
  ⟨k.cfg.trans h.cfg, fun e m => h.queue e (k.queue e m), k.heard.1.trans h.heard.1, k.heard.2.trans h.heard.2⟩

theorem Settled.unloaded {u v : PairUnit} (h : Settled u v) : Unloaded u v := ⟨h.cfg, h.queue, h.heard⟩

theorem modPair_storesLeft {p : PairNo} {f : PairUnit → PairUnit} {s : State} (h : Unloaded (s.pair p) (f (s.pair p))) :
    StoresLeft s (modPair p f s) where
  settings := modPair_settingsKept p f s h.cfg
  classifier := rfl
  carried := id
  marks := id
  ordered := id
  frames _ := ⟨rfl, rfl⟩
  bounded := id
  egress _ := .inl
  requests _ := .inl
  pending := .rfl
  queues q e m := by
    rw [modPair_pair] at m
    split at m
    · next same => exact ⟨q, by rw [same]; exact h.queue e m⟩
    · exact ⟨q, m⟩
  heard q := by
    rw [modPair_pair]
    split
    · next same => rw [same]; exact h.heard
    · exact ⟨rfl, rfl⟩

theorem eachPair_storesLeft {f : PairNo → State → State} (h : ∀ p s, StoresLeft s (f p s)) (ps : List PairNo) (s : State) :
    StoresLeft s (eachPair ps f s) := by
  unfold eachPair
  induction ps generalizing s with
  | nil => exact .refl s
  | cons p ps ih => exact (h p s).trans (ih _)

theorem enter_unloaded (now : Nat) (b : BondSettings) (st : PairState) (u : PairUnit) :
    Unloaded u (PairUnit.enter now b st u) := by
  obtain ⟨-, -, -, -, -, cfg, n, queue, -, -⟩ := enter_kept now b st u
  exact ⟨cfg, by rw [queue]; exact fun _ => id, by rw [n]; exact ⟨rfl, rfl⟩⟩

theorem enterState_storesLeft (p : PairNo) (st : PairState) (s : State) : StoresLeft s (enterState p st s) :=
  modPair_storesLeft (enter_unloaded _ _ _ _)

theorem cutHandover_storesLeft (b : Bool) (p : PairNo) (s : State) : StoresLeft s (cutHandover b p s) := by
  unfold cutHandover
  split
  · exact .refl s
  · refine (modPair_storesLeft ⟨rfl, fun e m => ?_, ?_⟩).trans (emit_aside _ _).storesLeft
    · dsimp only at m
      split at m
      · exact List.mem_of_mem_tail m
      · exact m
    · cases b <;> exact ⟨rfl, rfl⟩

theorem raiseCtl_storesLeft (k : Ctl) (p : PairNo) (s : State) : StoresLeft s (raiseCtl k p s) := by
  refine modPair_storesLeft ?_
  unfold PairUnit.raise
  split
  · exact ⟨rfl, fun _ => id, rfl, rfl⟩
  · exact .refl _

theorem modRecord_storesLeft (p : PairNo) (f : ProvingRecord → ProvingRecord) (s : State) :
    StoresLeft s (modRecord p f s) := modPair_storesLeft ⟨rfl, fun _ => id, rfl, rfl⟩

theorem raiseEnd_storesLeft (p : PairNo) (v : Verdict) (d : Nat) (s : State) : StoresLeft s (raiseEnd p v d s) :=
  (modRecord_storesLeft p _ s).trans (raiseCtl_storesLeft _ p _)

/-- The engine holds nothing that the relation speaks of. -/
theorem engine_storesLeft (r : Option Run) (s : State) : StoresLeft s { s with engine := r } := { StoresLeft.refl s with }

/-! ## Reassembly -/

/-- The reassembler alone has worked: the contexts, the pairs and the bond controller are as they were. -/
structure Assembled (s t : State) : Prop where
  pairs : t.pairs = s.pairs
  engine : t.engine = s.engine
  now : t.now = s.now
  bond : t.bond = s.bond
  settings : SettingsKept s t
  classifier : t.classifier = s.classifier
  classes : ∀ c : ClassNo, { t.cls c with reasm := .idle, n := {} } = { s.cls c with reasm := .idle, n := {} }
  bounded : EgressBounded s → EgressBounded t
  egress : ∀ e ∈ t.trunk.egress, e ∈ s.trunk.egress ∨ e.resetReply = false
  requests : ∀ r ∈ t.agent.requests, r ∈ s.agent.requests ∨ r.trunkFrame = none
  pending : t.agent.reset = s.agent.reset
  queued : s.agent.requests <+: t.agent.requests
  served : t.trunk.n.mgmtServed = s.trunk.n.mgmtServed

theorem Assembled.refl (s : State) : Assembled s s where
  pairs := rfl
  engine := rfl
  now := rfl
  bond := rfl
  settings := (Follows.refl s).settings
  classifier := rfl
  classes _ := rfl
  bounded := id
  egress _ := .inl
  requests _ := .inl
  pending := rfl
  queued := List.prefix_refl _
  served := rfl

theorem Assembled.trans {s t u : State} (h : Assembled s t) (k : Assembled t u) : Assembled s u where
  pairs := k.pairs.trans h.pairs
  engine := k.engine.trans h.engine
  now := k.now.trans h.now
  bond := k.bond.trans h.bond
  settings := SettingsKept_trans h.settings k.settings
  classifier := k.classifier.trans h.classifier
  classes c := (k.classes c).trans (h.classes c)
  bounded b := k.bounded (h.bounded b)
  egress e m := (k.egress e m).elim (h.egress e) .inr
  requests r m := (k.requests r m).elim (h.requests r) .inr
  pending := k.pending.trans h.pending
  queued := h.queued.trans k.queued
  served := k.served.trans h.served

theorem modClass_assembled {c : ClassNo} {f : ClassUnit → ClassUnit} {s : State}
    (h : { f (s.cls c) with reasm := .idle, n := {} } = { s.cls c with reasm := .idle, n := {} }) :
    Assembled s (modClass c f s) :=
  { Assembled.refl s with
    settings := by
      refine modClass_settingsKept c f s ?_
      rw [ClassUnit.mk.injEq] at h
      simp [h]
    classes := fun d => by
      rw [modClass_cls]
      split
      · next e => rw [e]; exact h
      · rfl }

theorem setReasm_assembled (c : ClassNo) (r : Reasm) (s : State) : Assembled s (setReasm c r s) := modClass_assembled rfl

theorem countClass_assembled (c : ClassNo) (f : ClassCounters → ClassCounters) (s : State) :
    Assembled s (countClass c f s) := modClass_assembled rfl

theorem countTrunk_assembled (f : TrunkCounters → TrunkCounters) (s : State)
    (h : ∀ n, (f n).mgmtServed = n.mgmtServed := by exact fun _ => rfl) : Assembled s (countTrunk f s) := { Assembled.refl s with served := h _ }

theorem raiseNotice_assembled (src : Source) (a : NoticeArg) (s : State) : Assembled s (raiseNotice src a s) :=
  { Assembled.refl s with settings := (raiseNotice_follows src a s).settings }

/-- A frame of the bond at the egress queue (R147). -/
theorem offerBondFrame_assembled {e : EgressEntry} (h : e.resetReply = false) (s : State) :
    Assembled s (offerEgress e s) := by
  have bounded := offerEgress_bounded e (s := s)
  unfold offerEgress at bounded ⊢
  split at bounded
  · next room =>
    rw [if_pos room]
    exact { Assembled.refl s with
      bounded := bounded
      egress := fun x m => (List.mem_append.1 m).imp id fun m => by rw [List.mem_singleton.1 m, h] }
  · next full =>
    rw [if_neg full]
    simp only [h, Bool.false_eq_true, if_false]
    exact countTrunk_assembled _ s

theorem handToAgent_assembled {r : Request} (h : r.trunkFrame = none) (s : State) : Assembled s (handToAgent r s) :=
  { Assembled.refl s with
    requests := fun x m => (List.mem_append.1 m).imp id fun m => by rw [List.mem_singleton.1 m, h]
    queued := List.prefix_append _ _ }

theorem passOn_assembled (c : ClassNo) (f : Frame) (s : State) : Assembled s (passOn c f s) := by
  unfold passOn
  split
  · exact countClass_assembled c _ s
  · split
    · exact (countClass_assembled c _ s).trans (handToAgent_assembled (r := .framed .bond f) rfl _)
    · split
      · exact countTrunk_assembled _ s
      · exact (countClass_assembled c _ s).trans (offerBondFrame_assembled rfl _)

theorem tear_assembled (c : ClassNo) (s : State) : Assembled s (tear c s) := by
  unfold tear
  split
  · exact countClass_assembled c _ s
  · exact .refl s

theorem reassemble_assembled (c : ClassNo) (first last : Bool) (payload : List Octet) (s : State) :
    Assembled s (reassemble c first last payload s) := by
  unfold reassemble
  split
  · exact (tear_assembled c s).trans (setReasm_assembled c _ _)
  · exact ((tear_assembled c s).trans (setReasm_assembled c _ _)).trans (passOn_assembled c _ _)
  · split
    · exact countClass_assembled c _ s
    · exact (countClass_assembled c _ s).trans (setReasm_assembled c _ _)
    · split
      · exact (countClass_assembled c _ s).trans (setReasm_assembled c _ _)
      · split
        · exact (setReasm_assembled c _ s).trans (passOn_assembled c _ _)
        · exact setReasm_assembled c _ s

theorem reassembleLoss_assembled (c : ClassNo) (s : State) : Assembled s (reassembleLoss c s) := by
  unfold reassembleLoss
  split
  · exact (countClass_assembled c _ s).trans (setReasm_assembled c _ _)
  · exact setReasm_assembled c _ s

theorem Assembled.class_left {s t : State} (h : Assembled s t) (c : ClassNo) :
    (t.cls c).queue = (s.cls c).queue ∧ (t.cls c).current = (s.cls c).current ∧ (t.cls c).cfg = (s.cls c).cfg ∧
      (t.cls c).nextSeq = (s.cls c).nextSeq ∧ (t.cls c).next = (s.cls c).next ∧ (t.cls c).held = (s.cls c).held := by
  have e := h.classes c
  rw [ClassUnit.mk.injEq] at e
  simp [e]

end Sys2Proof.Proofs
end

