-- ==== Sys2Proof/Proofs/CollectorOrder.lean ====
section
/-! SUPPORT. The collector's work keeps the order of the reorder contexts (R117, R119) and R38's marks: what a delivery
pass, a loss declaration, an arrival and a hold timer leave. -/

namespace Sys2Proof.Proofs
open Sys2Proof Sys2Proof.Machine Sys2Proof.Laws

/-! ## What the collector's work leaves -/

/-- The collector has worked on class `c`: the pairs, the engine and the other contexts are as they were, and the carried
flag is set where it was. -/
structure Collected (c : ClassNo) (s t : State) : Prop where
  pairs : t.pairs = s.pairs
  engine : t.engine = s.engine
  now : t.now = s.now
  settings : SettingsKept s t
  classifier : t.classifier = s.classifier
  carried : s.bond.carried = true → t.bond.carried = true
  frames : ∀ d : ClassNo, (t.cls d).queue = (s.cls d).queue ∧ (t.cls d).current = (s.cls d).current
  nextSeq : ∀ d : ClassNo, (t.cls d).nextSeq = (s.cls d).nextSeq
  others : ∀ d : ClassNo, d ≠ c → (t.cls d).next = (s.cls d).next ∧ (t.cls d).held = (s.cls d).held
  bounded : EgressBounded s → EgressBounded t
  egress : ∀ e ∈ t.trunk.egress, e ∈ s.trunk.egress ∨ e.resetReply = false
  requests : ∀ r ∈ t.agent.requests, r ∈ s.agent.requests ∨ r.trunkFrame = none
  pending : t.agent.reset = s.agent.reset
  queued : s.agent.requests <+: t.agent.requests
  served : t.trunk.n.mgmtServed = s.trunk.n.mgmtServed

theorem Collected.trans {c : ClassNo} {s t u : State} (h : Collected c s t) (k : Collected c t u) : Collected c s u where
  pairs := k.pairs.trans h.pairs
  engine := k.engine.trans h.engine
  now := k.now.trans h.now
  settings := SettingsKept_trans h.settings k.settings
  classifier := k.classifier.trans h.classifier
  carried x := k.carried (h.carried x)
  frames d := ⟨(k.frames d).1.trans (h.frames d).1, (k.frames d).2.trans (h.frames d).2⟩
  nextSeq d := (k.nextSeq d).trans (h.nextSeq d)
  others d e := ⟨(k.others d e).1.trans (h.others d e).1, (k.others d e).2.trans (h.others d e).2⟩
  bounded b := k.bounded (h.bounded b)
  egress e m := (k.egress e m).elim (h.egress e) .inr
  requests r m := (k.requests r m).elim (h.requests r) .inr
  pending := k.pending.trans h.pending
  queued := h.queued.trans k.queued
  served := k.served.trans h.served

theorem Assembled.collected {s t : State} (h : Assembled s t) (c : ClassNo) : Collected c s t where
  pairs := h.pairs
  engine := h.engine
  now := h.now
  settings := h.settings
  classifier := h.classifier
  carried := by rw [h.bond]; exact id
  frames d := ⟨(h.class_left d).1, (h.class_left d).2.1⟩
  nextSeq d := (h.class_left d).2.2.2.1
  others d _ := (h.class_left d).2.2.2.2
  bounded := h.bounded
  egress := h.egress
  requests := h.requests
  pending := h.pending
  queued := h.queued
  served := h.served

/-- Next, the held set, the horizons, the hold timer, the counters and the reassembly context of a class may change. -/
theorem modClass_collected {c : ClassNo} {f : ClassUnit → ClassUnit} {s : State}
    (h : (f (s.cls c)).queue = (s.cls c).queue ∧ (f (s.cls c)).current = (s.cls c).current ∧
      (f (s.cls c)).cfg = (s.cls c).cfg ∧ (f (s.cls c)).nextSeq = (s.cls c).nextSeq) : Collected c s (modClass c f s) :=
  { (Assembled.refl s).collected c with
    settings := modClass_settingsKept c f s h.2.2.1
    frames := fun d => by
      rw [modClass_cls]
      split
      · next e => rw [e]; exact ⟨h.1, h.2.1⟩
      · exact ⟨rfl, rfl⟩
    nextSeq := fun d => by
      rw [modClass_cls]
      split
      · next e => rw [e]; exact h.2.2.2
      · rfl
    others := fun d e => by rw [modClass_cls_other s c f e]; exact ⟨rfl, rfl⟩ }

theorem setCarried_collected (c : ClassNo) (s : State) : Collected c s (setCarried s) :=
  { (Assembled.refl s).collected c with
    settings := (setCarried_follows s).settings
    carried := fun _ => rfl }

theorem releaseHeld_collected (c : ClassNo) (f : Held) (s : State) : Collected c s (releaseHeld c f s) :=
  (modClass_collected ⟨rfl, rfl, rfl, rfl⟩).trans ((reassemble_assembled ..).collected c)

theorem deliverUpTo_collected (n : Nat) (c : ClassNo) (s : State) : Collected c s (deliverUpTo n c s) := by
  induction n generalizing s with
  | zero => exact (Assembled.refl s).collected c
  | succ n ih =>
    unfold deliverUpTo
    split
    · exact (Assembled.refl s).collected c
    · exact (releaseHeld_collected c _ s).trans (ih _)

theorem deliveryPass_collected (c : ClassNo) (s : State) : Collected c s (deliveryPass c s) :=
  deliverUpTo_collected _ c s

/-- A class with its next declared lost, before the delivery pass (R126 steps 1 to 3). -/
def declared (c : ClassNo) (s : State) : State :=
  let s := raiseNotice .gapLoss (valueArg c.val) (countClass c (fun n => { n with gapLost := n.gapLost + 1 })
    (reassembleLoss c s))
  setCarried (modClass c (fun k => { k with next := k.next + 1 }) s)

theorem declareLost_eq (c : ClassNo) (s : State) : declareLost c s = deliveryPass c (declared c s) := rfl

theorem declared_collected (c : ClassNo) (s : State) : Collected c s (declared c s) := by
  have told := ((reassembleLoss_assembled c s).trans (countClass_assembled c (fun n => { n with
    gapLost := n.gapLost + 1 }) _)).trans (raiseNotice_assembled .gapLoss (valueArg c.val) _)
  exact ((told.collected c).trans (modClass_collected ⟨rfl, rfl, rfl, rfl⟩)).trans (setCarried_collected c _)

theorem declareLost_collected (c : ClassNo) (s : State) : Collected c s (declareLost c s) :=
  (declared_collected c s).trans (deliveryPass_collected c _)

theorem declareUpTo_collected (n : Nat) (c : ClassNo) (s : State) : Collected c s (declareUpTo n c s) := by
  induction n generalizing s with
  | zero => exact (Assembled.refl s).collected c
  | succ n ih =>
    unfold declareUpTo
    split
    · exact (declareLost_collected c s).trans (ih _)
    · exact (Assembled.refl s).collected c

theorem followGap_collected (before : Seq) (c : ClassNo) (s : State) : Collected c s (followGap before c s) := by
  obtain ⟨hold, e⟩ := followGap_eq before c s
  rw [e]
  exact modClass_collected ⟨rfl, rfl, rfl, rfl⟩

theorem storeData_collected (c : ClassNo) (p : PairNo) (f : Held) (s : State) : Collected c s (storeData c p f s) :=
  (modClass_collected ⟨rfl, rfl, rfl, rfl⟩).trans (setCarried_collected c _)

/-! ## The carried flag -/

/-- A declaration sets the carried flag (R38), so it is set afterwards where next has moved. -/
theorem declareUpTo_carried (n : Nat) (c : ClassNo) (s : State) :
    declareUpTo n c s = s ∨ (declareUpTo n c s).bond.carried = true := by
  cases n with
  | zero => exact .inl rfl
  | succ n =>
    unfold declareUpTo
    split
    · refine .inr ((declareUpTo_collected n c _).carried ?_)
      exact (deliveryPass_collected c _).carried rfl
    · exact .inl rfl

/-! ## One context in order -/

/-- One context as `ContextsOrdered` has it. -/
def ClassUnit.Ordered (k : ClassUnit) : Prop :=
  (∀ f ∈ k.held, 1 ≤ dist f.seq k.next ∧ dist f.seq k.next < k.cfg.quota) ∧ (k.held.map (·.seq)).Nodup

/-- One context in order but that next may be held, as a delivery pass finds it. -/
def ClassUnit.Within (k : ClassUnit) : Prop :=
  (∀ f ∈ k.held, dist f.seq k.next < k.cfg.quota) ∧ (k.held.map (·.seq)).Nodup

theorem contextsOrdered_iff {s : State} : ContextsOrdered s ↔ ∀ c : ClassNo, ClassUnit.Ordered (s.cls c) := Iff.rfl

theorem ordered_congr {k l : ClassUnit} (cfg : l.cfg = k.cfg) (next : l.next = k.next) (held : l.held = k.held) :
    ClassUnit.Ordered l ↔ ClassUnit.Ordered k := by
  unfold ClassUnit.Ordered
  rw [cfg, next, held]

theorem dist_eq_zero {a b : Seq} : dist a b = 0 ↔ a = b := by
  unfold dist
  constructor
  · intro h
    bv_omega
  · intro h
    simp [h]

theorem dist_next {a b : Seq} (h : 1 ≤ dist a b) : dist a (b + 1) = dist a b - 1 := by
  unfold dist at *
  bv_omega

theorem dist_lt (a b : Seq) : dist a b < 16384 := (a - b).isLt

/-- Past next, every fragment ahead of it has come nearer by one (R119). -/
theorem within_advance {k l : ClassUnit} (h : ClassUnit.Within k) (cfg : l.cfg = k.cfg) (next : l.next = k.next + 1)
    (held : l.held.Sublist k.held) (ahead : ∀ f ∈ l.held, f.seq ≠ k.next) : ClassUnit.Within l := by
  obtain ⟨near, distinct⟩ := h
  refine ⟨fun f m => ?_, distinct.sublist (held.map _)⟩
  have positive : 1 ≤ dist f.seq k.next := Nat.one_le_iff_ne_zero.2 fun z => ahead f m (dist_eq_zero.1 z)
  have := near f (held.subset m)
  rw [next, cfg, dist_next positive]
  omega

theorem ordered_of_missing {k : ClassUnit} (h : ClassUnit.Within k) (missing : heldAt k.next k.held = none) :
    ClassUnit.Ordered k := by
  refine ⟨fun f m => ⟨Nat.one_le_iff_ne_zero.2 fun z => ?_, h.1 f m⟩, h.2⟩
  exact heldAt_eq_none.1 missing (List.mem_map.2 ⟨f, m, dist_eq_zero.1 z⟩)

theorem ClassUnit.Ordered.within {k : ClassUnit} (h : ClassUnit.Ordered k) : ClassUnit.Within k :=
  ⟨fun f m => (h.1 f m).2, h.2⟩

/-- The context after the release of a held fragment (R119). -/
theorem releaseHeld_context (c : ClassNo) (f : Held) (s : State) :
    ((releaseHeld c f s).cls c).cfg = (s.cls c).cfg ∧ ((releaseHeld c f s).cls c).next = (s.cls c).next + 1 ∧
      ((releaseHeld c f s).cls c).held = (s.cls c).held.filter fun g => g.seq ≠ f.seq := by
  have left := (reassemble_assembled c f.first f.last f.payload (modClass c (fun k => { k with
    held := k.held.filter fun g => g.seq ≠ f.seq
    next := k.next + 1
    n := { k.n with released := k.n.released + 1 } }) s)).class_left c
  rw [modClass_cls_same] at left
  exact ⟨left.2.2.1, left.2.2.2.2⟩

/-- A delivery pass ends with next missing, so it puts the context in order (R119). -/
theorem deliverUpTo_ordered (n : Nat) {c : ClassNo} {s : State} (h : ClassUnit.Within (s.cls c))
    (enough : (s.cls c).held.length ≤ n) : ClassUnit.Ordered ((deliverUpTo n c s).cls c) := by
  induction n generalizing s with
  | zero =>
    have empty : (s.cls c).held = [] := List.length_eq_zero_iff.1 (Nat.le_zero.1 enough)
    simp [deliverUpTo, ClassUnit.Ordered, empty]
  | succ n ih =>
    unfold deliverUpTo
    split
    · next missing => exact ordered_of_missing h missing
    · next f found =>
      obtain ⟨cfg, next, held⟩ := releaseHeld_context c f s
      have isNext : f.seq = (s.cls c).next := by simpa using List.find?_some found
      have member : f ∈ (s.cls c).held := List.mem_of_find?_eq_some found
      refine ih (within_advance h cfg next (held ▸ List.filter_sublist) fun g m => ?_) ?_
      · rw [held] at m
        simpa [isNext] using (List.mem_filter.1 m).2
      · have shorter : ((s.cls c).held.filter fun g => g.seq ≠ f.seq).length < (s.cls c).held.length :=
          List.length_filter_lt_length_iff_exists.2 ⟨f, member, by simp⟩
        rw [held]
        omega

theorem deliveryPass_ordered {c : ClassNo} {s : State} (h : ClassUnit.Within (s.cls c)) :
    ClassUnit.Ordered ((deliveryPass c s).cls c) := deliverUpTo_ordered _ h le_rfl

theorem declared_context (c : ClassNo) (s : State) :
    ((declared c s).cls c).cfg = (s.cls c).cfg ∧ ((declared c s).cls c).next = (s.cls c).next + 1 ∧
      ((declared c s).cls c).held = (s.cls c).held := by
  have told := ((reassembleLoss_assembled c s).trans (countClass_assembled c (fun n => { n with
    gapLost := n.gapLost + 1 }) _)).trans (raiseNotice_assembled .gapLoss (valueArg c.val) _)
  have left := told.class_left c
  simp only [declared, setCarried_cls, modClass_cls_same]
  exact ⟨left.2.2.1, congrArg (· + 1) left.2.2.2.2.1, left.2.2.2.2.2⟩

/-- A declaration of next keeps the context in order (R126). -/
theorem declareLost_ordered {c : ClassNo} {s : State} (h : ClassUnit.Ordered (s.cls c)) :
    ClassUnit.Ordered ((declareLost c s).cls c) := by
  obtain ⟨cfg, next, held⟩ := declared_context c s
  rw [declareLost_eq]
  refine deliveryPass_ordered (within_advance h.within cfg next (held ▸ List.Sublist.refl _) fun f m z => ?_)
  have := (h.1 f (held ▸ m)).1
  rw [dist_eq_zero.2 z] at this
  omega

theorem declareUpTo_ordered (n : Nat) {c : ClassNo} {s : State} (h : ClassUnit.Ordered (s.cls c)) :
    ClassUnit.Ordered ((declareUpTo n c s).cls c) := by
  induction n generalizing s with
  | zero => exact h
  | succ n ih =>
    unfold declareUpTo
    split
    · exact ih (declareLost_ordered h)
    · exact h

theorem followGap_ordered {before : Seq} {c : ClassNo} {s : State} (h : ClassUnit.Ordered (s.cls c)) :
    ClassUnit.Ordered ((followGap before c s).cls c) := by
  obtain ⟨hold, e⟩ := followGap_eq before c s
  rw [e, modClass_cls_same]
  exact h

/-- A fragment that is stored lies within the window and shares no sequence (R117 d). -/
theorem storeData_within {c : ClassNo} {p : PairNo} {f : Held} {s : State} (h : ClassUnit.Ordered (s.cls c))
    (near : dist f.seq (s.cls c).next < (s.cls c).cfg.quota) (new : f.seq ∉ (s.cls c).held.map (·.seq)) :
    ClassUnit.Within ((storeData c p f s).cls c) := by
  rw [storeData_cls]
  refine ⟨fun g m => ?_, ?_⟩
  · rcases List.mem_append.1 m with m | m
    · exact (h.1 g m).2
    · rw [List.mem_singleton.1 m]
      exact near
  · rw [List.map_append, List.nodup_append]
    refine ⟨h.2, List.nodup_singleton _, fun a m b n => ?_⟩
    rw [List.map_singleton, List.mem_singleton] at n
    rintro rfl
    exact new (n ▸ m)

/-! ## The operations that the events are made of -/

/-- Work of the collector on one class, with its context in order afterwards and the carried flag set where its next has
moved. -/
theorem Collected.storesLeft {c : ClassNo} {s t : State} (h : Collected c s t)
    (ordered : ClassUnit.Ordered (s.cls c) → ClassUnit.Ordered (t.cls c))
    (marks : (t.cls c).next = (s.cls c).next ∨ t.bond.carried = true) : StoresLeft s t where
  settings := h.settings
  classifier := h.classifier
  carried := h.carried
  marks m := by
    intro clear d
    have was : s.bond.carried = false := by
      cases e : s.bond.carried with
      | false => rfl
      | true => rw [h.carried e] at clear; cases clear
    rw [h.nextSeq d]
    refine ⟨(m was d).1, ?_⟩
    by_cases e : d = c
    · subst e
      rcases marks with same | carried
      · rw [same, (m was d).2]
      · rw [carried] at clear; cases clear
    · rw [(h.others d e).1, (m was d).2]
  ordered o d := by
    by_cases e : d = c
    · subst e
      exact ordered (o d)
    · obtain ⟨-, -, -, -, -, -, -, -, cfg, -⟩ := h.settings
      exact (ordered_congr (cfg d) (h.others d e).1 (h.others d e).2).2 (o d)
  frames := h.frames
  bounded := h.bounded
  egress := h.egress
  requests := h.requests
  pending := by rw [h.pending]
  queues p e m := ⟨p, by rwa [State.pair, h.pairs] at m⟩
  heard p := by simp only [State.pair, h.pairs]; exact ⟨trivial, trivial⟩

theorem setHorizon_collected (c : ClassNo) (p : PairNo) (h : Option Seq) (s : State) :
    Collected c s (setHorizon c p h s) := modClass_collected ⟨rfl, rfl, rfl, rfl⟩

theorem setHorizon_storesLeft (c : ClassNo) (p : PairNo) (h : Option Seq) (s : State) :
    StoresLeft s (setHorizon c p h s) := by
  refine (setHorizon_collected c p h s).storesLeft (fun o => ?_) (.inl ?_)
  · rw [setHorizon, modClass_cls_same]
    exact o
  · rw [setHorizon, modClass_cls_same]

theorem testLosses_collected (c : ClassNo) (s : State) : Collected c s (testLosses c s) :=
  (declareUpTo_collected _ c s).trans (followGap_collected _ c _)

theorem followGap_next (before : Seq) (c : ClassNo) (s : State) : ((followGap before c s).cls c).next = (s.cls c).next := by
  obtain ⟨hold, e⟩ := followGap_eq before c s
  rw [e, modClass_cls_same]

theorem testLosses_storesLeft (c : ClassNo) (s : State) : StoresLeft s (testLosses c s) := by
  refine (testLosses_collected c s).storesLeft (fun o => followGap_ordered (declareUpTo_ordered _ o)) ?_
  refine (declareUpTo_carried 8192 c s).imp (fun same => ?_) (followGap_collected _ c _).carried
  rw [testLosses, followGap_next, lossTests, same]

theorem holdExpires_collected (c : ClassNo) (s : State) : Collected c s (holdExpires c s) := by
  refine Collected.trans (t := modClass c (fun k => { k with
    hold := none, n := { k.n with holdLoss := k.n.holdLoss + 1 } }) s) (modClass_collected ⟨rfl, rfl, rfl, rfl⟩) ?_
  exact ((declareLost_collected c _).trans (declareUpTo_collected _ c _)).trans (followGap_collected _ c _)

theorem holdExpires_storesLeft (c : ClassNo) (s : State) : StoresLeft s (holdExpires c s) := by
  refine (holdExpires_collected c s).storesLeft (fun o => ?_) (.inr ?_)
  · refine followGap_ordered (declareUpTo_ordered _ (declareLost_ordered ?_))
    rw [modClass_cls_same]
    exact o
  · refine (followGap_collected _ c _).carried ((declareUpTo_collected _ c _).carried ?_)
    exact (deliveryPass_collected c _).carried rfl

theorem collectData_collected (c : ClassNo) (p : PairNo) (f : Held) (s : State) : Collected c s (collectData c p f s) := by
  unfold collectData
  simp only
  split
  · exact (countClass_assembled c _ s).collected c
  · split
    · exact (countClass_assembled c _ s).collected c
    · split
      · exact (countClass_assembled c _ s).collected c
      · exact (((storeData_collected c p f s).trans (deliveryPass_collected c _)).trans
          (declareUpTo_collected _ c _)).trans (followGap_collected _ c _)

theorem countClass_storesLeft (c : ClassNo) (f : ClassCounters → ClassCounters) (s : State) :
    StoresLeft s (countClass c f s) := (countClass_aside c f s).storesLeft

theorem collectData_storesLeft (c : ClassNo) (p : PairNo) (f : Held) (s : State) : StoresLeft s (collectData c p f s) := by
  by_cases late : 8192 ≤ dist f.seq (s.cls c).next
  · rw [collectData_late p late]
    exact countClass_storesLeft c _ s
  by_cases beyond : (s.cls c).cfg.quota ≤ dist f.seq (s.cls c).next
  · rw [collectData_beyond p (Nat.lt_of_not_le late) beyond]
    exact countClass_storesLeft c _ s
  by_cases held : f.seq ∈ (s.cls c).held.map (·.seq)
  · rw [collectData_duplicate p (Nat.lt_of_not_le late) (Nat.lt_of_not_le beyond) held]
    exact countClass_storesLeft c _ s
  refine (collectData_collected c p f s).storesLeft (fun o => ?_) (.inr ?_) <;>
    rw [collectData_stored p (Nat.lt_of_not_le late) (Nat.lt_of_not_le beyond) held]
  · have within := storeData_within (p := p) o (Nat.lt_of_not_le beyond) held
    exact followGap_ordered (declareUpTo_ordered _ (deliveryPass_ordered within))
  · refine (followGap_collected _ c _).carried ((declareUpTo_collected _ c _).carried ?_)
    exact (deliveryPass_collected c _).carried rfl

end Sys2Proof.Proofs
end

