-- ==== Sys2Proof/Proofs/PairMoves.lean ====
section
/-! SUPPORT. The moves of the pair state machine (R4, R7, R12, R104): the unit that a pair has after a move, what the
other pairs take over from its queue, and that a move leaves the engine and the frame stores. -/

namespace Sys2Proof.Proofs
open Sys2Proof Sys2Proof.Machine Sys2Proof.Laws

/-! ## A handover cut off -/

/-- A pair unit with its handover cut off (R4). -/
def cutUnit (counted : Bool) (u : PairUnit) : PairUnit :=
  match u.handover with
  | none => u
  | some h => { u with
      handover := none
      queue := if h.frag.kind = 0 then u.queue.tail else u.queue
      n := if counted then { u.n with cutOff := u.n.cutOff + 1 } else u.n }

theorem cutHandover_pair (b : Bool) (p q : PairNo) (s : State) :
    (cutHandover b p s).pair q = if q = p then cutUnit b (s.pair p) else s.pair q := by
  cases e : (s.pair p).handover with
  | none =>
    simp only [cutHandover, cutUnit, e]
    split
    · next same => rw [same]
    · rfl
  | some h => simp only [cutHandover, cutUnit, e, emit_pair, modPair_pair]

@[simp] theorem cutHandover_engine (b : Bool) (p : PairNo) (s : State) : (cutHandover b p s).engine = s.engine := by
  unfold cutHandover
  split <;> rfl

@[simp] theorem cutHandover_now (b : Bool) (p : PairNo) (s : State) : (cutHandover b p s).now = s.now := by
  unfold cutHandover
  split <;> rfl

/-! ## The entries given back -/

/-- A pair unit with entries appended to its queue and a number of them counted MOVED-DISCARD. -/
def givenUnit (added : List Desc) (d : Count) (u : PairUnit) : PairUnit :=
  { u with queue := u.queue ++ added, n := { u.n with movedDiscard := u.n.movedDiscard + d } }

theorem givenUnit_nil (u : PairUnit) : givenUnit [] 0 u = u := by
  unfold givenUnit
  simp

theorem givenUnit_given (a b : List Desc) (c d : Count) (u : PairUnit) :
    givenUnit b d (givenUnit a c u) = givenUnit (a ++ b) (c + d) u := by
  unfold givenUnit
  simp [add_assoc]

/-- Entries have been given back by the withdrawal of pair `w`: each was appended to the queue of an eligible pair and
counted MOVED, or counted MOVED-DISCARD on `w` (R104). -/
structure GivenBack (w : PairNo) (es : List Desc) (s t : State) : Prop where
  pairs : ∀ q : PairNo, ∃ (added : List Desc) (d : Count), t.pair q = givenUnit added d (s.pair q) ∧
    (∀ e ∈ added, e ∈ es) ∧ (added ≠ [] → (s.pair q).state = .serving ∧ (s.pair q).offering = false) ∧ (q ≠ w → d = 0)
  rest : t = { s with pairs := t.pairs, classes := t.classes }
  classes : ∀ c : ClassNo, { t.cls c with n := {} } = { s.cls c with n := {} }

theorem giveBack_given (w : PairNo) (e : Desc) (s : State) : GivenBack w [e] s (giveBack w e s) := by
  unfold giveBack
  split
  · next q chosen =>
    have fits := choosePair_eligible chosen
    simp only [eligible, Bool.and_eq_true, decide_eq_true_eq, Bool.not_eq_true'] at fits
    refine ⟨fun r => ?_, rfl, (countClass_aside e.cls _ (append q e s)).classes⟩
    by_cases same : r = q
    · subst same
      refine ⟨[e], 0, ?_, fun _ => id, fun _ => ⟨fits.1.1.1, fits.1.1.2⟩, fun _ => rfl⟩
      simp [append, givenUnit]
    · refine ⟨[], 0, ?_, by simp, by simp, fun _ => rfl⟩
      rw [givenUnit_nil, countClass_pair, append, modPair_pair_other _ _ _ same]
  · refine ⟨fun r => ?_, rfl, fun _ => rfl⟩
    by_cases same : r = w
    · subst same
      refine ⟨[], 1, ?_, by simp, by simp, fun h => absurd rfl h⟩
      simp [countPair, givenUnit]
    · refine ⟨[], 0, ?_, by simp, by simp, fun _ => rfl⟩
      rw [givenUnit_nil, countPair, modPair_pair_other _ _ _ same]

theorem rest_trans {s t u : State} (h : t = { s with pairs := t.pairs, classes := t.classes })
    (k : u = { t with pairs := u.pairs, classes := u.classes }) :
    u = { s with pairs := u.pairs, classes := u.classes } := by
  rw [h] at k
  exact k

theorem giveBackAll_given (w : PairNo) (es : List Desc) (s : State) : GivenBack w es s (giveBackAll w es s) := by
  unfold giveBackAll
  induction es generalizing s with
  | nil => exact ⟨fun _ => ⟨[], 0, (givenUnit_nil _).symm, by simp, by simp, fun _ => rfl⟩, rfl, fun _ => rfl⟩
  | cons e es ih =>
    have first := giveBack_given w e s
    have then' := ih (giveBack w e s)
    refine ⟨fun q => ?_, ?_, fun c => (then'.classes c).trans (first.classes c)⟩
    · obtain ⟨a, c, unit, fromE, fits, own⟩ := first.pairs q
      obtain ⟨b, d, unit', fromEs, fits', own'⟩ := then'.pairs q
      refine ⟨a ++ b, c + d, by rw [List.foldl_cons, unit', unit, givenUnit_given], fun x m => ?_, fun some => ?_, fun other => ?_⟩
      · rcases List.mem_append.1 m with m | m
        · exact List.mem_cons.2 (.inl (List.mem_singleton.1 (fromE x m)))
        · exact List.mem_cons.2 (.inr (fromEs x m))
      · by_cases empty : a = []
        · have := fits' (by rintro rfl; exact some (by rw [empty]; rfl))
          rwa [unit] at this
        · exact fits empty
      · rw [own other, own' other]
        rfl
    · exact rest_trans first.rest then'.rest

theorem eachClass_collected {f : ClassNo → State → State} {R : State → State → Prop} (trans : ∀ {s t u}, R s t → R t u → R s u)
    (h : ∀ c s, R s (f c s)) (s : State) : R s (eachClass f s) := trans (trans (h 0 s) (h 1 _)) (h 2 _)

/-- A pair's exit from the horizon set (R128). -/
theorem pairExit_pairs (p : PairNo) (s : State) :
    (pairExit p s).pairs = s.pairs ∧ (pairExit p s).engine = s.engine ∧ (pairExit p s).now = s.now := by
  refine eachClass_collected (R := fun s t => t.pairs = s.pairs ∧ t.engine = s.engine ∧ t.now = s.now)
    (fun h k => ⟨k.1.trans h.1, k.2.1.trans h.2.1, k.2.2.trans h.2.2⟩) (fun c s => ?_) s
  have h := (setHorizon_collected c p none s).trans (testLosses_collected c _)
  exact ⟨h.pairs, h.engine, h.now⟩

theorem pairExit_storesLeft (p : PairNo) (s : State) : StoresLeft s (pairExit p s) :=
  eachClass_collected (R := StoresLeft) StoresLeft.trans
    (fun c s => (setHorizon_storesLeft c p none s).trans (testLosses_storesLeft c _)) s

theorem pairExit_pair (p q : PairNo) (s : State) : (pairExit p s).pair q = s.pair q := by
  simp only [State.pair, (pairExit_pairs p s).1]

/-! ## Withdrawal -/

/-- The unit of a pair that is withdrawn for a new state, with some of its entries discarded (R12). -/
def withdrawnUnit (st : PairState) (d : Count) (u : PairUnit) : PairUnit :=
  givenUnit [] d { cutUnit true { u with state := st } with queue := [], offering := false }

/-- The state of a withdrawal when the entries are given back. -/
def emptied (p : PairNo) (st : PairState) (s : State) : State :=
  modPair p (fun u => { u with queue := [], offering := false })
    (cutHandover true p (modPair p (fun u => { u with state := st }) s))

/-- The entries that a withdrawal gives back. -/
def givenBack (p : PairNo) (s : State) : List Desc := (cutUnit true (s.pair p)).queue

theorem withdrawTo_eq (p : PairNo) (st : PairState) (s : State) :
    withdrawTo p st s = pairExit p (giveBackAll p (givenBack p s) (emptied p st s)) := by
  have back : ((cutHandover true p (modPair p (fun u => { u with state := st }) s)).pair p).queue = givenBack p s := by
    rw [cutHandover_pair, if_pos rfl, modPair_pair_same]
    unfold givenBack cutUnit
    split <;> rename_i e <;> dsimp only at e <;> rw [e]
  unfold withdrawTo
  simp only [back]
  rfl

theorem emptied_pair (p q : PairNo) (st : PairState) (s : State) :
    (emptied p st s).pair q =
      if q = p then { cutUnit true { s.pair p with state := st } with queue := [], offering := false } else s.pair q := by
  unfold emptied
  rw [modPair_pair, cutHandover_pair, if_pos rfl, modPair_pair_same]
  split
  · rfl
  · next other => rw [cutHandover_pair, if_neg other, modPair_pair_other _ _ _ other]

theorem mem_givenBack {p : PairNo} {s : State} {e : Desc} (m : e ∈ givenBack p s) : e ∈ (s.pair p).queue := by
  unfold givenBack cutUnit at m
  split at m
  · exact m
  · dsimp only at m
    split at m
    · exact List.mem_of_mem_tail m
    · exact m

/-- The withdrawn pair keeps none of its entries, and a pair outside SERVING takes none over. -/
theorem withdrawTo_pairs (p : PairNo) {st : PairState} (out : st ≠ .serving) (s : State) :
    (∃ d, (withdrawTo p st s).pair p = withdrawnUnit st d (s.pair p)) ∧
      ∀ q : PairNo, q ≠ p → ∃ added : List Desc, (withdrawTo p st s).pair q = givenUnit added 0 (s.pair q) ∧
        (∀ e ∈ added, e ∈ (s.pair p).queue) ∧ (added ≠ [] → (s.pair q).state = .serving ∧ (s.pair q).offering = false) := by
  have given := giveBackAll_given p (givenBack p s) (emptied p st s)
  rw [withdrawTo_eq]
  refine ⟨?_, fun q other => ?_⟩
  · obtain ⟨added, d, unit, -, fits, -⟩ := given.pairs p
    have none : added = [] := by
      by_contra some
      have := (fits some).1
      rw [emptied_pair, if_pos rfl] at this
      unfold cutUnit at this
      split at this <;> exact out this
    refine ⟨d, ?_⟩
    rw [pairExit_pair, unit, none, emptied_pair, if_pos rfl]
    rfl
  · obtain ⟨added, d, unit, within, fits, own⟩ := given.pairs q
    rw [emptied_pair, if_neg other] at unit fits
    exact ⟨added, by rw [pairExit_pair, unit, own other], fun e m => mem_givenBack (within e m), fits⟩

theorem GivenBack.engine {w : PairNo} {es : List Desc} {s t : State} (h : GivenBack w es s t) : t.engine = s.engine := by
  rw [h.rest]

theorem withdrawTo_engine (p : PairNo) (st : PairState) (s : State) :
    (withdrawTo p st s).engine = s.engine ∧ (withdrawTo p st s).now = s.now := by
  have given := giveBackAll_given p (givenBack p s) (emptied p st s)
  rw [withdrawTo_eq]
  refine ⟨(pairExit_pairs p _).2.1.trans ?_, (pairExit_pairs p _).2.2.trans ?_⟩ <;> rw [given.rest] <;>
    simp [emptied]

/-- Entries that stood in a queue of `s` are given back. -/
theorem GivenBack.storesLeft {w : PairNo} {es : List Desc} {r s t : State} (left : StoresLeft r s)
    (h : GivenBack w es s t) (entries : ∀ e ∈ es, ∃ q : PairNo, e ∈ (r.pair q).queue) : StoresLeft r t := by
  have classes := classes_left h.classes
  have pairs : ∀ p : PairNo, (t.pair p).cfg = (s.pair p).cfg ∧ (t.pair p).n.fragIn = (s.pair p).n.fragIn ∧
      (t.pair p).n.octetIn = (s.pair p).n.octetIn ∧ ∀ e ∈ (t.pair p).queue, e ∈ (s.pair p).queue ∨ e ∈ es := by
    intro p
    obtain ⟨added, d, unit, within, -⟩ := h.pairs p
    rw [unit]
    exact ⟨rfl, rfl, rfl, fun e m => (List.mem_append.1 m).imp id (within e)⟩
  exact {
    settings := SettingsKept_trans left.settings (by
      rw [h.rest]
      exact ⟨rfl, rfl, rfl, rfl, rfl, rfl, rfl, fun p => (pairs p).1, fun c => (classes c).2.2.1, rfl, rfl, rfl,
        fun _ => ⟨rfl, rfl⟩, fun _ => rfl, rfl, rfl⟩)
    classifier := by rw [h.rest]; exact left.classifier
    carried := by rw [h.rest]; exact left.carried
    marks := fun m => carriedMarks_congr (by rw [h.rest]) (fun c => (classes c).2.2.2.1)
      (fun c => (classes c).2.2.2.2.1) (left.marks m)
    ordered := fun o => contextsOrdered_congr (fun c => (classes c).2.2.1) (fun c => (classes c).2.2.2.2.1)
      (fun c => (classes c).2.2.2.2.2) (left.ordered o)
    frames := fun c => ⟨(classes c).1.trans (left.frames c).1, (classes c).2.1.trans (left.frames c).2⟩
    bounded := fun b => by unfold EgressBounded; rw [h.rest]; exact left.bounded b
    egress := by rw [h.rest]; exact left.egress
    requests := by rw [h.rest]; exact left.requests
    pending := by rw [h.rest]; exact left.pending
    queues := fun p e m => ((pairs p).2.2.2 e m).elim (left.queues p e) (entries e)
    heard := fun p => ⟨(pairs p).2.1.trans (left.heard p).1, (pairs p).2.2.1.trans (left.heard p).2⟩ }

theorem cutUnit_unloaded (b : Bool) (u : PairUnit) : Unloaded u (cutUnit b u) := by
  unfold cutUnit
  split
  · exact .refl u
  · refine ⟨rfl, fun e m => ?_, by cases b <;> exact ⟨rfl, rfl⟩⟩
    dsimp only at m
    split at m
    · exact List.mem_of_mem_tail m
    · exact m

theorem withdrawTo_storesLeft (p : PairNo) (st : PairState) (s : State) : StoresLeft s (withdrawTo p st s) := by
  have emptied : StoresLeft s (emptied p st s) :=
    ((modPair_storesLeft ⟨rfl, fun _ => id, rfl, rfl⟩).trans (cutHandover_storesLeft true p _)).trans
      (modPair_storesLeft ⟨rfl, fun _ m => (List.not_mem_nil m).elim, rfl, rfl⟩)
  rw [withdrawTo_eq]
  exact (GivenBack.storesLeft emptied (giveBackAll_given p _ _) fun e m => ⟨p, mem_givenBack m⟩).trans
    (pairExit_storesLeft p _)

/-! ## Leaving a state for another -/

/-- The unit of a pair that leaves its state for `st`, before it enters it (R4, R7 c, R12). -/
def leavingUnit (st : PairState) (d : Count) (u : PairUnit) : PairUnit :=
  if u.state = .serving ∨ u.state = .waking then withdrawnUnit st d u
  else if u.state = .halted ∨ st = .down ∨ st = .absent then cutUnit false u
  else u

/-- The state of a move before its entry. -/
def departed (p : PairNo) (st : PairState) (s : State) : State :=
  if (s.pair p).state = .serving || (s.pair p).state = .waking then withdrawTo p st s
  else if (s.pair p).state = .halted || st = .down || st = .absent then cutHandover false p s
  else s

theorem moveTo_eq (p : PairNo) (st : PairState) (s : State) : moveTo p st s = enterState p st (departed p st s) := rfl

theorem departed_engine (p : PairNo) (st : PairState) (s : State) :
    (departed p st s).engine = s.engine ∧ (departed p st s).now = s.now := by
  unfold departed
  split
  · exact withdrawTo_engine p st s
  · split
    · exact ⟨cutHandover_engine _ _ _, cutHandover_now _ _ _⟩
    · exact ⟨rfl, rfl⟩

theorem departed_storesLeft (p : PairNo) (st : PairState) (s : State) : StoresLeft s (departed p st s) := by
  unfold departed
  split
  · exact withdrawTo_storesLeft p st s
  · split
    · exact cutHandover_storesLeft _ _ _
    · exact .refl s

theorem departed_pairs (p : PairNo) {st : PairState} (out : st ≠ .serving) (s : State) :
    (∃ d, (departed p st s).pair p = leavingUnit st d (s.pair p)) ∧
      ∀ q : PairNo, q ≠ p → ∃ added : List Desc, (departed p st s).pair q = givenUnit added 0 (s.pair q) ∧
        (∀ e ∈ added, e ∈ (s.pair p).queue) ∧ (added ≠ [] → (s.pair q).state = .serving ∧ (s.pair q).offering = false) := by
  have still : ∀ q : PairNo, ∀ u : PairUnit, u = s.pair q → ∃ added : List Desc, u = givenUnit added 0 (s.pair q) ∧
      (∀ e ∈ added, e ∈ (s.pair p).queue) ∧ (added ≠ [] → (s.pair q).state = .serving ∧ (s.pair q).offering = false) :=
    fun q u same => ⟨[], by rw [same, givenUnit_nil], by simp, by simp⟩
  unfold departed leavingUnit
  simp only [Bool.or_eq_true, decide_eq_true_eq, or_assoc]
  split
  · exact withdrawTo_pairs p out s
  · split
    · refine ⟨⟨0, by rw [cutHandover_pair, if_pos rfl]⟩, fun q other => still q _ ?_⟩
      rw [cutHandover_pair, if_neg other]
    · exact ⟨⟨0, rfl⟩, fun q _ => still q _ rfl⟩

theorem moveTo_storesLeft (p : PairNo) (st : PairState) (s : State) : StoresLeft s (moveTo p st s) :=
  (departed_storesLeft p st s).trans (enterState_storesLeft p st _)

@[simp] theorem moveTo_engine (p : PairNo) (st : PairState) (s : State) : (moveTo p st s).engine = s.engine :=
  (departed_engine p st s).1

@[simp] theorem moveTo_now (p : PairNo) (st : PairState) (s : State) : (moveTo p st s).now = s.now :=
  (departed_engine p st s).2

theorem moveTo_cfg (p : PairNo) (st : PairState) (s : State) : (moveTo p st s).cfg = s.cfg := by
  obtain ⟨-, -, -, -, -, -, cfg, -⟩ := (moveTo_storesLeft p st s).settings
  exact cfg

/-- The unit of a pair after a move (R7, R12). -/
theorem moveTo_pair (p : PairNo) {st : PairState} (out : st ≠ .serving) (s : State) :
    ∃ d, (moveTo p st s).pair p = PairUnit.enter s.now s.cfg st (leavingUnit st d (s.pair p)) := by
  obtain ⟨d, unit⟩ := (departed_pairs p out s).1
  obtain ⟨-, -, -, -, -, -, cfg, -⟩ := (departed_storesLeft p st s).settings
  refine ⟨d, ?_⟩
  rw [moveTo_eq, enterState, modPair_pair_same, unit, (departed_engine p st s).2, cfg]

/-- Another pair takes over entries of a withdrawn one, while it is SERVING and does not offer, and is left but for that
(R104). -/
theorem moveTo_pair_other {p q : PairNo} (other : q ≠ p) {st : PairState} (out : st ≠ .serving) (s : State) :
    ∃ added : List Desc, (moveTo p st s).pair q = givenUnit added 0 (s.pair q) ∧
      (∀ e ∈ added, e ∈ (s.pair p).queue) ∧ (added ≠ [] → (s.pair q).state = .serving ∧ (s.pair q).offering = false) := by
  rw [moveTo_eq, enterState, modPair_pair_other _ _ _ other]
  exact (departed_pairs p out s).2 q other

end Sys2Proof.Proofs
end

