-- ==== Sys2Proof/Proofs/KeptByCommands.lean ====
section
/-! SUPPORT. The walk through every command, once: a property with the fields of `KeptByEvents` and `KeptByRequests` is
kept by what follows an event, by each command and by each step. -/

namespace Sys2Proof.Proofs
open Sys2Proof Sys2Proof.Machine Sys2Proof.Laws

variable {I : State → Prop}

theorem eachPair_kept {f : PairNo → State → State} (h : ∀ p s, I s → I (f p s)) (ps : List PairNo) {s : State}
    (i : I s) : I (eachPair ps f s) := by
  unfold eachPair
  induction ps generalizing s with
  | nil => exact i
  | cons p ps ih => exact ih (h p s i)

theorem eachClass_kept {f : ClassNo → State → State} (h : ∀ c s, I s → I (f c s)) {s : State} (i : I s) :
    I (eachClass f s) := h 2 _ (h 1 _ (h 0 _ i))

variable (k : KeptByEvents I) {s : State} {p : PairNo}
include k

namespace KeptByEvents

/-! ## Notices, counters and controls -/

theorem emitted (o : Output) (i : I s) : I (emit o s) := k.aside (emit_aside o s) i

theorem noticed (src : Source) (a : NoticeArg) (i : I s) : I (raiseNotice src a s) :=
  k.aside (raiseNotice_aside src a s) i

theorem forPair (src : Source) (i : I s) : I (raiseForPair src p s) := k.noticed src _ i

theorem trunkCounted (f : TrunkCounters → TrunkCounters) (i : I s) : I (countTrunk f s) :=
  k.aside (countTrunk_aside f s) i

theorem classCounted (c : ClassNo) (f : ClassCounters → ClassCounters) (i : I s) : I (countClass c f s) :=
  k.aside (countClass_aside c f s) i

theorem reported (i : I s) : I (reportReset s) := k.aside (reportReset_aside s) i

theorem pairCounted {f : PairCounters → PairCounters} (i : I s)
    (h : ∀ n, (f n).fragIn = n.fragIn ∧ (f n).octetIn = n.octetIn := by exact fun _ => ⟨rfl, rfl⟩) :
    I (countPair p f s) := k.unit { Settled.refl _ with heard := h _ } i

theorem told (c : Control) (i : I s) : I (tell p c s) :=
  k.emitted _ (k.unit (p := p) (f := fun u => { u with control := c }) { Settled.refl (s.pair p) with } i)

theorem recorded (f : ProvingRecord → ProvingRecord) (i : I s) : I (modRecord p f s) :=
  k.unit (p := p) (f := fun u => { u with record := f u.record }) { Settled.refl (s.pair p) with } i

theorem raised (c : Ctl) (i : I s) : I (raiseCtl c p s) := by
  refine k.unit ?_ i
  unfold PairUnit.raise
  split
  · exact { Settled.refl (s.pair p) with }
  · exact Settled.refl _

theorem cut (b : Bool) (i : I s) : I (cutHandover b p s) := by
  unfold cutHandover
  split
  · exact i
  · refine k.emitted _ (k.unit { Settled.refl (s.pair p) with queue := fun e h => ?_, heard := ?_ } i)
    · dsimp only at h
      split at h
      · exact List.mem_of_mem_tail h
      · exact h
    · cases b <;> exact ⟨rfl, rfl⟩

/-! ## The choice of the next handover -/

theorem handoverStarted (f : Fragment) (i : I s) : I (startHandover p f s) :=
  k.emitted _ (k.unit (p := p) (f := fun u => { u with handover := some ⟨f, f.check⟩ }) { Settled.refl (s.pair p) with } i)

omit k in
theorem patternStarts_aside (p : PairNo) (s : State) : Aside s (patternStarts p s) := by
  unfold patternStarts
  split
  · next r e =>
    split
    · exact { Aside.refl s with engine := by simp [EngineLeft, e] }
    · exact Aside.refl s
  · exact Aside.refl s

theorem proveBegun (m : ProveMsg) (i : I s) : I (beginProve p m s) := by
  have begun : I (startHandover p (proveFragment s m) (modPair p (fun u => { u with proveSlot := none }) s)) :=
    k.handoverStarted _ (k.unit { Settled.refl (s.pair p) with } i)
  unfold beginProve
  simp only
  split
  · exact begun
  · exact k.aside (patternStarts_aside p _) begun

theorem choose (i : I s) : I (chooseHandover p s) := by
  unfold chooseHandover
  simp only
  split
  · split
    · exact k.handoverStarted _ (k.unit { Settled.refl (s.pair p) with } i)
    · exact k.proveBegun _ i
    · split
      · exact k.handoverStarted _ i
      · exact i
    · exact i
  · exact i

theorem exited (i : I s) : I (pairExit p s) :=
  eachClass_kept (f := fun c s => testLosses c (setHorizon c p none s)) (fun _ _ i => k.losses (k.horizon i)) i

/-! ## What follows an event -/

theorem woken (cause : WakeCause) (sleeps : (s.pair p).state = .quiet ∨ (s.pair p).supervision.map (·.1) = some .probe)
    (i : I s) : I (enterWaking p cause s) := by
  have noted : I (modPair p (fun u => { u with wakeCause := some cause, wakeStart := s.now }) (enterState p .waking s)) :=
    k.unit { Settled.refl _ with } (k.wake sleeps i)
  unfold enterWaking
  simp only
  split
  · exact k.raised _ noted
  · exact k.told _ noted

theorem wakeRequested (i : I s) : I (wakeRequest p s) := by
  unfold wakeRequest
  split
  · next quiet => exact k.woken _ (.inl quiet) i
  · exact i

theorem demand (i : I s) : I (demandWake s) := by
  unfold demandWake
  split
  · split
    · exact k.wakeRequested i
    · exact i
  · exact i

theorem asked (c : ClassNo) (m : PairMap) (i : I s) : I (askWake c m s) := by
  unfold askWake
  split
  · exact i
  · split
    · exact k.wakeRequested (k.classCounted c _ i)
    · exact i

theorem decided (n : Nat) (c : ClassNo) (i : I s) : I (pathDecision n c s).2 := by
  induction n generalizing s with
  | zero => exact i
  | succ n ih =>
    unfold pathDecision
    split
    · exact i
    · split
      · exact i
      · split
        · exact i
        · split
          · exact k.asked c _ i
          · split
            · exact ih (k.spill i)
            · exact ih (k.noPath i)

theorem selected (cs : List ClassNo) (i : I s) : I (selectFrom cs s).2 := by
  induction cs generalizing s with
  | nil => exact i
  | cons c cs ih =>
    have h := k.decided (decisionsOf (s.cls c)) c i
    unfold selectFrom
    split
    · next t e => rw [e] at h; exact k.place h
    · next t e => rw [e] at h; exact ih h

theorem selections (n : Nat) (i : I s) : I (selectUpTo n s) := by
  induction n generalizing s with
  | zero => exact i
  | succ n ih =>
    have h := k.selected (classOrder s.cfg.classOrder) i
    unfold selectUpTo
    split
    · split
      · next t e => rw [e] at h; exact ih (k.demand h)
      · next t e => rw [e] at h; exact k.demand h
    · exact i

theorem distributed (i : I s) : I (distribute s) := k.selections 257 (k.demand i)

theorem chosen (i : I s) : I (chooseHandovers s) :=
  eachPair_kept (f := chooseHandover) (fun _ _ i => k.choose i) allPairs i

omit k in
theorem noticeFrame_length (s : State) (src : Source) (d : Addr) : (noticeFrame s src d).length = 32 := by
  simp [noticeFrame, ownFrame, noticeBody, octets48, octets16, mgmtType]

theorem ownOffered {f : Frame} {b : Bool} (bounds : 1 ≤ f.length ∧ f.length ≤ 1600)
    (pending : b = true → s.agent.reset ≠ none) (i : I s) : I (offerOwnFrame f b s) :=
  k.admission ⟨bounds.1, bounds.2, pending⟩ i

theorem noticeSent (src : Source) (d : Addr) (i : I s) : I (sendNotice src d s) := by
  have i₁ : I (modSource src (fun u => { u with due := false }) s) :=
    k.aside (modSource_aside src _ s fun _ => ⟨rfl, rfl⟩) i
  have i₂ := k.emitted (.notice src (noticeFrame s src d)) (k.aside (number_aside (s.notices.number + 1) _) i₁)
  unfold sendNotice
  extract_lets f u n v
  split
  · exact k.egress (fun h => by cases h) i₂
  · refine k.distributed (k.ownOffered ?_ (fun h => by cases h) i₂)
    rw [noticeFrame_length]
    decide

theorem noticesSent (i : I s) : I (sendNotices s) := by
  unfold sendNotices
  generalize 12 = n
  induction n generalizing s with
  | zero => exact i
  | succ n ih =>
    unfold sendUpTo
    split
    · exact ih (k.noticeSent _ _ i)
    · exact i

theorem sendBegun (i : I s) : I (beginSend s) := by
  unfold beginSend
  split
  · exact i
  · split
    · exact k.emitted _ (k.aside (sending_aside true s) i)
    · exact i

theorem check (i : I s) : I (checkReset s) := by
  unfold checkReset
  split
  · exact i
  · next r e =>
    split
    · exact k.perform (by simp [e]) i
    · exact i

theorem finished (i : I s) : I (finish s) := k.check (k.sendBegun (k.chosen (k.noticesSent i)))

theorem settled (i : I s) : I (settle s) := k.finished (k.distributed (k.chosen i))

/-! ## Quiet and service -/

omit k in
theorem cutHandover_state (b : Bool) (p q : PairNo) (s : State) :
    ((cutHandover b p s).pair q).state = (s.pair q).state := by
  unfold cutHandover
  split
  · rfl
  · rw [emit_pair, modPair_pair]
    split
    · next e => rw [e]
    · rfl

theorem offerTested (i : I s) : I (testOffer p s) := by
  unfold testOffer
  split
  · next passes =>
    have serving : (s.pair p).state = .serving := by
      simp only [offerPasses, mayAgree, Bool.and_eq_true, decide_eq_true_eq] at passes
      exact passes.1.1.1.1.1.1.1
    exact k.raised _ (k.unit { Settled.refl _ with offerTimer := fun _ => .inr serving } i)
  · exact i

theorem offersTested (ps : List PairNo) (i : I s) : I (testOffers ps s) :=
  eachPair_kept (f := testOffer) (fun _ _ i => k.offerTested i) ps i

theorem lapsed (i : I s) : I (lapse p s) :=
  k.offersTested _ (k.unit { Settled.refl (s.pair p) with offerTimer := fun h => by cases h } i)

theorem sleeps (serving : (s.pair p).state = .serving) (i : I s) : I (enterQuiet p s) := by
  have entered := k.sleep ((cutHandover_state false p p s).trans serving) (k.cut false i)
  exact k.exited (k.told _ (k.unit { Settled.refl _ with heard := ⟨rfl, rfl⟩ } entered))

theorem served (idle : Bool) (state : (s.pair p).state = .joining ∨ (s.pair p).state = .waking) (i : I s) :
    I (enterServing idle p s) := by
  have entered := k.serve state i
  have asks : I (if s.bond.role = .homestead && s.bond.asking then raiseCtl .restartAsk p (enterState p .serving s)
      else enterState p .serving s) := by
    split
    · exact k.raised _ entered
    · exact entered
  unfold enterServing
  refine k.offersTested _ ?_
  split
  · exact k.unit { Settled.refl _ with idleTimer := fun h => by cases h } asks
  · exact asks

theorem joined (state : (s.pair p).state = .joining ∨ (s.pair p).state = .waking) (i : I s) : I (joinServing p s) :=
  k.forPair _ (k.served false state i)

theorem wakeErred (i : I s) : I (wakeError p s) := k.forPair _ (k.unit { Settled.refl _ with heard := ⟨rfl, rfl⟩ } i)

omit k in
theorem wakeError_state (p : PairNo) (s : State) : ((wakeError p s).pair p).state = (s.pair p).state := by
  simp [wakeError, raiseForPair, raiseNotice]

theorem wakeCompleted (state : (s.pair p).state = .waking) (i : I s) : I (completeWake p s) := by
  have late : I (if ms s.cfg.wakeLimit < s.now - (s.pair p).wakeStart then wakeError p s else s) ∧
      ((if ms s.cfg.wakeLimit < s.now - (s.pair p).wakeStart then wakeError p s else s).pair p).state = .waking := by
    split
    · exact ⟨k.wakeErred i, (wakeError_state p s).trans state⟩
    · exact ⟨i, state⟩
  unfold completeWake
  exact k.forPair _ (k.pairCounted (k.served _ (.inr ((cutHandover_state _ _ _ _).trans late.2)) (k.cut _ late.1)))

theorem horizonsCleared (i : I s) : I (clearHorizons p s) :=
  eachClass_kept (f := fun c => setHorizon c p none) (fun _ _ => k.horizon) i

/-! ## Proving -/

theorem endRaised (v : Verdict) (d : Nat) (i : I s) : I (raiseEnd p v d s) := k.raised _ (k.recorded _ i)

theorem declineRaised (r : DeclineReason) (i : I s) : I (raiseDecline p r s) := by
  unfold raiseDecline
  split
  · exact k.raised _ (k.unit { Settled.refl (s.pair p) with } i)
  · exact i

omit k in
theorem waitingPair_standby {s : State} {p : PairNo} (h : waitingPair s = some p) : (s.pair p).state = .standby := by
  have := List.find?_some h
  simp only [Bool.and_eq_true, decide_eq_true_eq] at this
  exact this.1

theorem engineFreed (i : I { s with engine := none }) : I (freeEngine s) := by
  unfold freeEngine
  simp only
  split
  · next p h =>
    have standby := waitingPair_standby h
    exact k.start rfl (by rw [standby]; decide) (by rw [standby]; decide) i
  · exact i

theorem runAborted (cause : AbortCause) (h : s.runOn p = true ∨ (s.pair p).state = .proving) (i : I s) :
    I (abortRun p cause s) := by
  rw [abortRun_eq]
  exact k.engineFreed (k.noticed (s := { aborted p cause s with engine := none }) _ _ (k.abort h i))

theorem runEnded {r : Run} (h : s.engine = some r) (i : I s) : I (endRun r.pair s) := by
  rw [endRun_eq]
  exact k.engineFreed (k.noticed (s := { concluded r.pair s with engine := none }) _ _ (k.conclude h i))

theorem stepBegun (step : Fin 16) (i : I s) : I (beginStep step s) := by
  unfold beginStep
  split
  · exact i
  · next r e =>
    have running := k.run (r' := { r with
      running := true, step := step, outstanding := true, started := none, stepTimer := none }) e rfl i
    exact k.unit (p := r.pair) (f := fun u => { u with
      proveSlot := some { echo := false, step := step, octets := stepPattern step } }) { Settled.refl _ with } running

theorem stepEnded (o : StepOutcome) (i : I s) : I (endStep o s) := by
  unfold endStep
  split
  · exact i
  · next r e =>
    let r' : Run := { r with outstanding := false, started := none, stepTimer := none }
    have stopped : I (modRecord r.pair (ProvingRecord.afterStep r.step o) { s with engine := some r' }) :=
      k.recorded _ (k.run e rfl i)
    simp only
    split
    · exact k.runEnded (r := r') rfl stopped
    · exact k.stepBegun _ stopped

omit k in
theorem moveTo_state (p : PairNo) (st : PairState) (s : State) : ((moveTo p st s).pair p).state = st := by
  obtain ⟨_, -, entered, -⟩ := moveTo_entered p st s
  exact entered

omit k in
theorem mayMove_of {p : PairNo} {st old : PairState} {s : State} (h : (s.pair p).state = old)
    (present : old ≠ .absent ∧ old ≠ .down ∧ old ≠ .proving := by decide)
    (plain : st ≠ .proving ∧ st ≠ .serving := by decide) : MayMove p st s := by
  subst h
  obtain ⟨absent, down, proving⟩ := present
  exact ⟨plain.1, plain.2, .inl ⟨.inr (.inr ⟨absent, down⟩), .inr proving⟩⟩

theorem wanted (h : (s.pair p).state = .standby) (i : I s) : I (modPair p (fun u => { u with proveWanted := true }) s) :=
  k.unit { Settled.refl _ with proveWanted := fun _ => .inr h } i

theorem provedOrWaiting (h : (s.pair p).state = .serving) (i : I s) : I (proveOrWait p s) := by
  unfold proveOrWait
  split
  · next e => exact k.start e (by rw [h]; decide) (by rw [h]; decide) i
  · exact k.wanted (moveTo_state p _ s) (k.move (mayMove_of h) i)

/-! ## Line reports and handovers -/

omit k in
theorem clampTo_bounds {lo hi : Nat} (h : lo ≤ hi) (n : Nat) : lo ≤ clampTo lo hi n ∧ clampTo lo hi n ≤ hi := by
  unfold clampTo
  split_ifs <;> omega

omit k in
theorem lineReport_settled {u : PairUnit} (rate : Nat) (absent : u.state ≠ .absent) (down : u.state ≠ .down) :
    Settled u (u.lineReport rate) :=
  { Settled.refl u with rate := .inr ⟨.inl ⟨absent, down⟩, clampTo_bounds (by decide) _⟩ }

omit k in
theorem startWindow_settled {u : PairUnit} (now : Nat) (b : BondSettings) (serving : u.state = .serving) :
    Settled u (u.startWindow now b) := by
  unfold PairUnit.startWindow
  split
  · exact { Settled.refl u with window := fun h => by cases h }
  · exact { Settled.refl u with window := fun _ => .inr serving }

theorem lineRaised (rate : Nat) (i : I s) : I (lineUp p rate s) := by
  have counted : I (countPair p (fun n => { n with lineUp := n.lineUp + 1 }) s) := k.pairCounted i
  unfold lineUp
  generalize countPair p (fun n => { n with lineUp := n.lineUp + 1 }) s = t at counted
  have up (h : (t.pair p).state ≠ .absent ∧ (t.pair p).state ≠ .down) : I (modPair p (PairUnit.lineReport rate) t) :=
    k.unit (lineReport_settled rate h.1 h.2) counted
  have state : ((modPair p (PairUnit.lineReport rate) t).pair p).state = (t.pair p).state := by simp [PairUnit.lineReport]
  simp only
  split
  · exact counted
  · next down =>
    refine k.settled ?_
    split
    · unfold proveOrWait
      split
      · next free => exact k.trainRun free down counted
      · exact k.wanted (moveTo_state p _ _) (k.train down (.inr rfl) counted)
    · exact k.train down (.inl rfl) counted
  · next e => exact k.settled (k.woken _ (.inl (state.trans e)) (up (by simp [e])))
  · next e => exact k.choose (k.raised _ (up (by simp [e])))
  · next e => exact k.choose (k.unit (startWindow_settled _ _ (state.trans e)) (up (by simp [e])))
  all_goals next e => exact k.choose (up (by simp [e]))

theorem lineLowered (i : I s) : I (lineDown p s) := by
  have counted : I (countPair p (fun n => { n with lineDown := n.lineDown + 1 }) s) := k.pairCounted i
  have state : ((countPair p (fun n => { n with lineDown := n.lineDown + 1 }) s).pair p).state = (s.pair p).state :=
    countPair_state p _ s
  unfold lineDown
  simp only
  split
  · exact i
  · exact i
  · exact counted
  · exact k.unit (p := p) (f := fun u => { u with line := false }) { Settled.refl _ with } (k.cut _ counted)
  · next e => exact k.settled (k.forPair _ (k.move (mayMove_of (state.trans e)) counted))
  · next e => exact k.settled (k.runAborted _ (.inr (state.trans e)) counted)
  all_goals next e => exact k.settled (k.move (mayMove_of (state.trans e)) counted)

omit k in
theorem restartIdle_settled (now : Nat) (u : PairUnit) : Settled u (u.restartIdle now) := by
  unfold PairUnit.restartIdle
  split
  · next serving => exact { Settled.refl u with idleTimer := fun _ => .inr serving }
  · exact Settled.refl u

omit k in
theorem handedOver_settled (now : Nat) (f : Fragment) (u : PairUnit) : Settled u (u.handedOver now f) := by
  unfold PairUnit.handedOver PairUnit.restartIdle
  simp only
  split
  · split
    · next serving =>
      exact { Settled.refl u with idleTimer := fun _ => .inr serving, queue := fun _ => List.mem_of_mem_tail }
    · exact { Settled.refl u with queue := fun _ => List.mem_of_mem_tail }
  · exact { Settled.refl u with }

theorem handedOver (i : I s) : I (handoverComplete p s) := by
  unfold handoverComplete
  split
  · exact i
  · next h e =>
    have state : ((modPair p (PairUnit.handedOver s.now h.frag) s).pair p).state = (s.pair p).state := by
      rw [modPair_pair_same]
      exact (handedOver_settled _ _ _).state
    refine k.settled ?_
    split
    · next c =>
      simp only [Bool.and_eq_true, decide_eq_true_eq] at c
      exact k.sleeps c.2 (k.unit (handedOver_settled _ _ _) i)
    · exact k.unit (handedOver_settled _ _ _) i

theorem struck (h : (s.pair p).state = .serving) (i : I s) : I (strike p s) := by
  let t := raiseForPair .strike p (modPair p (fun u => { u with
    strikes := min 15 (u.strikes + 1), n := { u.n with strike := u.n.strike + 1 } }) s)
  have counted : I t := k.forPair _ (k.unit { Settled.refl (s.pair p) with } i)
  have serving : (t.pair p).state = .serving := by
    simp only [t, raiseForPair, raiseNotice, modSource_pair, modPair_pair_same]
    exact h
  change I (raiseForPair .pairDown p (if (t.pair p).cfg.strikeLimit ≤ (t.pair p).strikes then
    raiseForPair .pairBarred p (moveTo p .barred t) else if t.cfg.autoProve then proveOrWait p t
    else moveTo p .standby t))
  refine k.forPair _ ?_
  split
  · exact k.forPair _ (k.move (mayMove_of serving) counted)
  · split
    · exact k.provedOrWaiting serving counted
    · exact k.move (mayMove_of serving) counted

theorem damageTaken (i : I s) : I (damaged p s) := by
  have counted : I (countPair p (fun n => { n with damaged := n.damaged + 1 }) s) := k.pairCounted i
  unfold damaged
  simp only
  split
  · exact i
  · exact i
  · next e =>
    have raised : I (modPair p (fun u => { u with errCount := u.errCount + 1 })
      (countPair p (fun n => { n with damaged := n.damaged + 1 }) s)) := k.unit { Settled.refl _ with } counted
    split
    · refine k.settled (k.struck ?_ raised)
      simp only [modPair_pair_same, countPair_state, e]
    · exact raised
  · split
    · exact k.settled (k.stepEnded _ counted)
    · exact counted
  all_goals exact counted

/-! ## The local restart -/

theorem restarted (i : I s) : I (localRestart s) :=
  k.noticed _ _ (k.stores (eachPair_kept (f := restartPair) (fun _ _ => k.restart) allPairs i))

theorem bondRestarted (i : I s) : I (bondRestart s) :=
  eachPair_kept (f := raiseCtl .restart) (fun _ _ => k.raised _) _ (k.restarted (k.epoch i))

theorem adopted (e : Epoch) (i : I s) : I (adopt e s) := by
  unfold adopt
  split
  · exact i
  · exact k.restarted (k.epoch i)

theorem freshTested (fresh : Bool) (i : I s) : I (freshTest fresh s) := by
  unfold freshTest
  split
  · exact k.restarted i
  · exact i

/-! ## Good fragments -/

theorem dataTaken (c : ClassNo) (f : Held) (i : I s) : I (takeData c p f s) := by
  unfold takeData
  split
  · exact k.collect i
  · exact k.pairCounted i

theorem dataRested (i : I s) : I (dataOnPair p s) := by
  have rested := k.unit (restartIdle_settled s.now (s.pair p)) i
  unfold dataOnPair
  simp only
  split
  · exact k.lapsed rested
  · exact rested

theorem dataFragment (c : ClassNo) (f : DataFields) (i : I s) : I (takeDataFragment p c f s) := by
  unfold takeDataFragment
  simp only
  split
  · next e => exact k.settled (k.dataTaken _ _ (k.dataRested (k.joined (.inl e) i)))
  · next e => exact k.settled (k.dataTaken _ _ (k.dataRested (k.wakeCompleted e i)))
  · split
    · exact k.settled (k.dataTaken _ _ (k.dataRested i))
    · exact k.finished (k.dataTaken _ _ (k.dataRested i))
  · exact k.dataTaken _ _ (k.dataRested i)

theorem joinServed (i : I s) : I (joinOnServing p s) := k.horizonsCleared (k.raised _ i)

theorem joinActs (e : Epoch) (i : I s) : I (joinByState p e s) := by
  have asks : I (raiseCtl .restart p s) := k.raised _ i
  unfold joinByState
  simp only
  split
  · next state =>
    split
    · exact k.joined (.inl state) i
    · exact asks
  · split
    · exact k.joinServed i
    · exact asks
  · next state =>
    split
    · exact k.joinServed (k.wakeCompleted state i)
    · exact asks
  · exact i

theorem joinTaken (e : Epoch) (role : Role) (far : PairNo) (fresh : Bool) (i : I s) :
    I (takeJoin p e role far fresh s) := by
  have told : I (modPair p (fun u => { u with farPair := some far, farRole := some role }) s) :=
    k.unit { Settled.refl _ with } i
  unfold takeJoin
  refine k.settled (k.joinActs e ?_)
  split
  · split
    · exact k.bondRestarted told
    · exact told
  · exact k.freshTested fresh (k.adopted e told)

theorem horizonsTaken (h : ClassNo → Seq) (i : I s) : I (takeHorizons p h s) := by
  have set := eachClass_kept (f := fun c => setHorizon c p (some (h c))) (fun _ _ => k.horizon) i
  unfold takeHorizons
  simp only
  split
  · exact eachClass_kept (f := testLosses) (fun _ _ => k.losses) set
  · exact set

theorem aliveActs (a : AliveFields) (i : I s) : I (aliveByState p a s) := by
  unfold aliveByState
  simp only
  split
  · exact k.finished (k.horizonsTaken _ i)
  · next e => exact k.settled (k.horizonsTaken _ (k.joined (.inl e) i))
  · next e => exact k.settled (k.horizonsTaken _ (k.wakeCompleted e i))
  · exact k.settled i

theorem offerTaken (i : I s) : I (takeOffer p s) := by
  unfold takeOffer
  simp only
  split
  · exact k.choose (k.raised _ (k.unit { Settled.refl (s.pair p) with } i))
  · split
    · next agrees =>
      have serving : (s.pair p).state = .serving := by
        simp only [mayAgree, Bool.and_eq_true, decide_eq_true_eq] at agrees
        exact agrees.1.1.1.1.1.1
      exact k.choose (k.raised _ (k.unit { Settled.refl _ with offerTimer := fun _ => .inr serving } i))
    · exact i

theorem agreeTaken (i : I s) : I (takeAgree p s) := by
  unfold takeAgree
  split
  · next h =>
    simp only [Bool.and_eq_true, decide_eq_true_eq] at h
    exact k.settled (k.sleeps h.1 i)
  · exact i

theorem strayCounted (i : I s) : I (countStray p s) := k.pairCounted i

theorem requestTaken (i : I s) : I (takeProveRequest p s) := by
  have halts {old : PairState} (e : (s.pair p).state = old)
      (present : old ≠ .absent ∧ old ≠ .down ∧ old ≠ .proving) : I (raiseCtl .proveAccept p (moveTo p .halted s)) :=
    k.raised _ (k.move (mayMove_of e present) i)
  unfold takeProveRequest
  simp only
  split
  · exact k.choose (k.declineRaised _ i)
  · split
    · next e =>
      split
      · exact k.settled (k.raised _ (k.runAborted _ (.inr e) i))
      · exact k.choose (k.declineRaised _ i)
    · next e => exact k.settled (halts e (by decide))
    · next e => exact k.settled (halts e (by decide))
    · next e => exact k.settled (k.forPair _ (halts e (by decide)))
    · next e =>
      refine k.choose (k.raised _ (k.unit ?_ i))
      exact { Settled.refl _ with haltTimer := fun _ => .inr e }
    · exact k.choose (k.declineRaised _ i)
    all_goals exact k.strayCounted i

omit k in
theorem requestingOn_engine {s : State} {p : PairNo} (h : s.requestingOn p = true) :
    (s.pair p).state = .proving ∧ ∃ r, s.engine = some r ∧ r.pair = p ∧ r.running = false := by
  simp only [State.requestingOn, Bool.and_eq_true, decide_eq_true_eq, Option.any_eq_true, Bool.not_eq_true'] at h
  obtain ⟨proving, r, engine, pair, stage⟩ := h
  exact ⟨proving, r, engine, pair, stage⟩

theorem acceptTaken (i : I s) : I (takeAccept p s) := by
  unfold takeAccept
  split
  · next h =>
    obtain ⟨-, r, engine, -⟩ := requestingOn_engine h
    refine k.choose (k.stepBegun _ (k.recorded _ ?_))
    rw [engine]
    exact k.run engine rfl i
  · exact k.strayCounted i

theorem declineTaken (r : DeclineReason) (i : I s) : I (takeDecline p r s) := by
  unfold takeDecline
  split
  · next h =>
    obtain ⟨proving, -⟩ := requestingOn_engine h
    exact k.settled (k.runAborted _ (.inr (by simpa [modRecord] using proving)) (k.recorded _ i))
  · exact k.strayCounted i

theorem patternTaken (step : Fin 16) (os : List Octet) (i : I s) : I (takePattern p step os s) := by
  unfold takePattern
  split
  · next halted => exact k.choose (k.unit { Settled.refl _ with haltTimer := fun _ => .inr halted } i)
  · exact k.strayCounted i

theorem echoTaken (step : Fin 16) (os : List Octet) (i : I s) : I (takeEcho p step os s) := by
  unfold takeEcho
  split
  · split
    · exact k.settled (k.stepEnded _ i)
    · exact k.strayCounted i
  · exact k.strayCounted i

theorem haltEnded (h : (s.pair p).state = .halted) (v : Verdict) (d : Nat) (i : I s) : I (endHalt p v d s) := by
  have noted : I (modRecord p (fun r => { r with lastVerdict := some v, receivedD := some d }) s) := k.recorded _ i
  unfold endHalt
  simp only
  split
  · exact k.move (mayMove_of (old := .halted) (by simpa [modRecord] using h)) (k.unit { Settled.refl _ with } noted)
  · exact k.move (mayMove_of (old := .halted) (by simpa [modRecord] using h)) noted

theorem endTaken (v : Verdict) (d : Nat) (i : I s) : I (takeEnd p v d s) := by
  unfold takeEnd
  split
  · next e => exact k.settled (k.haltEnded e v d i)
  · next e =>
    split
    · exact k.settled (k.runAborted _ (.inr e) i)
    · exact k.strayCounted i
  · exact k.strayCounted i

/-! ## Timers -/

theorem expired {tm : Option Timer} {f : State → State} (h : ∀ t, tm = some t → I (reach t s) → I (f (reach t s)))
    (i : I s) : I (expire tm f s) := by
  unfold expire
  split
  · exact i
  · next t => exact h t rfl (k.aside (reach_aside t s) i)

omit k in
theorem mayMove_of_timer {p : PairNo} {st : PairState} {s : State}
    (h : (s.pair p).haltTimer.isSome = true ∨ (s.pair p).supervision.isSome = true)
    (plain : st ≠ .proving ∧ st ≠ .serving := by decide) : MayMove p st s :=
  ⟨plain.1, plain.2, .inr h⟩

omit k in
theorem supervisionAs_isSome {u : PairUnit} {m : SupMeaning} {t : Timer} (h : u.supervisionAs m = some t) :
    u.supervision = some (m, t) := by
  unfold PairUnit.supervisionAs at h
  split at h
  · next m' t' e =>
    split at h
    · next same => cases h; rw [e, same]
    · cases h
  · cases h

theorem wakeTimedOut (h : (s.pair p).supervision.isSome = true) (i : I s) : I (wakeTimeout p s) :=
  k.settled (k.wakeErred (k.told _ (k.move (mayMove_of_timer (.inr h)) i)))

theorem supervisionLost (h : (s.pair p).supervision.isSome = true) (i : I s) : I (supervisionExpiry p s) := by
  have counted : I (countPair p (fun n => { n with supervisionExpiry := n.supervisionExpiry + 1 }) s) := k.pairCounted i
  refine k.settled (k.forPair _ (k.told _ (k.move (mayMove_of_timer (.inr ?_)) counted)))
  rw [countPair, modPair_pair_same]
  exact h

omit k in
theorem reach_pair (tm : Timer) (s : State) (p : PairNo) : (reach tm s).pair p = s.pair p := rfl

theorem errorPeriodEnded (h : (s.pair p).errTimer.isSome = true) (i : I s) : I (errorPeriodEnd p s) :=
  k.unit { Settled.refl _ with errTimer := fun _ => .inl h } i

theorem strikesSettled (i : I s) : I (settleTimerExpiry p s) :=
  k.unit { Settled.refl _ with settleTimer := fun h => by cases h } i

theorem aliveAgain (h : (s.pair p).aliveTimer.isSome = true) (i : I s) : I (aliveTimerExpiry p s) := by
  have again : I (modPair p (fun u => { u with aliveTimer := some ⟨s.now, ms s.cfg.aliveInterval⟩ }) s) :=
    k.unit { Settled.refl _ with aliveTimer := fun _ => h } i
  unfold aliveTimerExpiry
  simp only
  split
  · exact k.choose (k.raised _ again)
  · exact again

theorem windowEnded {tm : Timer} (running : (s.pair p).window.isSome = true) (i : I s) : I (gateWindowEnd p tm s) := by
  refine k.unit ?_ i
  have bounds := clampTo_bounds (lo := 16) (hi := 16383) (by decide)
  unfold PairUnit.startWindow PairUnit.endWindow sampleRate
  split <;> split
  · exact { Settled.refl (s.pair p) with rate := .inr ⟨.inr running, bounds _⟩, window := fun h => by cases h }
  · exact { Settled.refl (s.pair p) with window := fun h => by cases h }
  · exact { Settled.refl (s.pair p) with rate := .inr ⟨.inr running, bounds _⟩, window := fun _ => .inl running }
  · exact { Settled.refl (s.pair p) with window := fun _ => .inl running }

theorem answerLate (r : Run) (h : s.runOn r.pair = true) (i : I s) : I (answerTimerExpiry r s) :=
  k.settled (k.runAborted _ (.inl h) i)

theorem holdEnded (c : ClassNo) (i : I s) : I (finish (holdExpires c s)) := k.finished (k.hold i)

theorem idleEnded (i : I s) : I (idleTimerExpiry p s) :=
  k.choose (k.offerTested (k.unit { Settled.refl _ with idleTimer := fun h => by cases h } i))

theorem offerEnded (i : I s) : I (offerTimerExpiry p s) := by
  unfold offerTimerExpiry
  split
  · exact k.unit { Settled.refl _ with offerTimer := fun h => by cases h } i
  · exact k.settled (k.lapsed i)

/-! ## The trunk -/

theorem matchCounted (j : Fin 32) (i : I s) : I (countMatch j s) := by
  unfold countMatch
  simp only
  split
  · split
    · exact k.noticed _ _ (k.matched i)
    · exact k.matched i
  · exact k.matched i

theorem frameClassified {f : Frame} (bounds : 1 ≤ f.length ∧ f.length ≤ 1600) (i : I s) : I (classifyFrame f s) := by
  have counted : ∀ w : Option (Fin 32), I (countClassified w s) := by
    intro w
    have first : I (countTrunk (fun n => { n with classified := n.classified + 1 }) s) := k.trunkCounted _ i
    unfold countClassified
    simp only
    split
    · exact k.matchCounted _ first
    · exact k.trunkCounted _ first
  exact k.settled (k.admission ⟨bounds.1, bounds.2, fun h => by cases h⟩ (counted _))

theorem frameIn (f : Frame) (i : I s) : I (trunkFrameIn f s) := by
  have counted : I (countTrunk (fun n => { n with
      trunkIn := n.trunkIn + 1, trunkOctetIn := n.trunkOctetIn + BitVec.ofNat 32 f.length }) s) := k.trunkCounted _ i
  unfold trunkFrameIn
  simp only
  split
  · exact counted
  · next nonempty =>
    have positive : 1 ≤ f.length := List.length_pos_iff.2 nonempty
    split
    · exact k.trunkCounted _ counted
    · next short =>
      have bounds : 1 ≤ f.length ∧ f.length ≤ 1600 := ⟨positive, by omega⟩
      split
      · split
        · exact k.trunkCounted _ counted
        · split
          · exact k.frameClassified bounds counted
          · exact k.arrive (fun g h => by cases h; exact bounds) (k.trunkCounted _ counted)
      · exact k.frameClassified bounds counted

theorem sendCompleted (ready : Bool) (i : I s) : I (trunkSendComplete ready s) := by
  unfold trunkSendComplete
  split
  · next e rest sending egress =>
    have left : I { s with trunk := { s.trunk with egress := rest } } := by
      have h := k.sent i
      rwa [egress] at h
    let u : State := setReady ready { s with trunk := { s.trunk with
      egress := rest, sending := false
      n := { s.trunk.n with
        trunkOut := s.trunk.n.trunkOut + 1
        trunkOctetOut := s.trunk.n.trunkOctetOut + BitVec.ofNat 32 e.frame.length } } }
    have gone : I u := k.aside (s := { s with trunk := { s.trunk with egress := rest } }) { Aside.refl _ with } left
    refine k.check (k.sendBegun ?_)
    split
    · exact k.reported gone
    · exact gone
  · exact i

end KeptByEvents

/-! ## Commands -/

omit k in
theorem takeCommand_kept {f : State → State} {t : State} (silent : ∀ s, I s → I { s with out := [] })
    (h : ∀ s, I s → I (f s)) (i : I s) (e : takeCommand f s = .next t) : I t := by
  unfold takeCommand at e
  injection e with e
  subst e
  split
  · exact silent s i
  · exact h _ (silent s i)

/-- What R5 does to a good fragment's pair is kept. -/
def Hears (I : State → Prop) : Prop :=
  ∀ (p : PairNo) (len : Nat) (s : State), I s → I (modPair p (PairUnit.heard s.now s.cfg len) s)

omit k in
theorem receive_kept (hears : Hears I) {p : PairNo} {len : Nat} {f : State → State} (h : ∀ s, I s → I (f s)) (s : State)
    (i : I s) : I (receive p len f s) := by
  unfold receive
  split
  · exact i
  · exact h _ (hears p len s i)

theorem inEpoch_kept {p : PairNo} {e : Epoch} {f : State → State} (h : ∀ s, I s → I (f s)) {s : State}
    (i : I s) : I (inEpoch p e f s) := by
  unfold inEpoch
  split
  · exact h s i
  · exact k.pairCounted i

omit k in
/-- A good fragment is heard by its pair (R5), and then brings about what keeps every such property. -/
theorem goodFragment_body {c : Instr} {p : PairNo} {len : Nat} {illFormed : Bool}
    (good : goodFragment c = some (p, len, illFormed)) :
    ∃ f : State → State, (∀ s, exec c s = takeCommand (receive p len f) s) ∧
      ∀ {J : State → Prop} {s : State}, KeptByEvents J → J s → J (f s) := by
  have bad {J : State → Prop} {p : PairNo} {s : State} (k : KeptByEvents J) (i : J s) : J (countBadField p s) :=
    k.pairCounted i
  have clash {J : State → Prop} {p : PairNo} {s : State} (k : KeptByEvents J) (i : J s) : J (countRoleClash p s) :=
    k.pairCounted i
  cases c <;> simp only [goodFragment, Option.some.injEq, Prod.mk.injEq, reduceCtorEq] at good <;>
    obtain ⟨rfl, rfl, -⟩ := good
  case unknownKind p kind len =>
    refine ⟨_, fun s => rfl, fun k i => ?_⟩
    exact k.pairCounted i
  case data p f =>
    refine ⟨_, fun s => rfl, fun k i => ?_⟩
    split
    · exact bad k i
    · exact inEpoch_kept k (fun s i => k.dataFragment _ f i) i
  case join p h j =>
    refine ⟨_, fun s => rfl, fun k i => ?_⟩
    split
    · split_ifs
      · exact bad k i
      · exact clash k i
      · exact i
      · exact k.joinTaken _ _ _ _ i
    · exact bad k i
  case alive p h a =>
    refine ⟨_, fun s => rfl, fun k i => ?_⟩
    split_ifs
    · exact bad k i
    · exact i
    · split
      · exact inEpoch_kept k (fun s i => k.aliveActs a i) i
      · exact k.aliveActs a (k.adopted _ i)
  case restart p h =>
    refine ⟨_, fun s => rfl, fun k i => ?_⟩
    split
    · exact bad k i
    · split
      · exact clash k i
      · split
        · exact i
        · exact k.settled (k.adopted _ i)
  case restartAsk p h =>
    refine ⟨_, fun s => rfl, fun k i => ?_⟩
    split
    · exact bad k i
    · split
      · exact clash k i
      · split
        · exact i
        · split
          · exact k.settled (k.bondRestarted i)
          · exact k.choose (k.raised _ i)
  case quietOffer p h =>
    refine ⟨_, fun s => rfl, fun k i => ?_⟩
    split_ifs
    · exact bad k i
    · exact inEpoch_kept k (fun s i => k.offerTaken i) i
  case quietAgree p h =>
    refine ⟨_, fun s => rfl, fun k i => ?_⟩
    split_ifs
    · exact bad k i
    · exact inEpoch_kept k (fun s i => k.agreeTaken i) i
  case proveRequest p h =>
    refine ⟨_, fun s => rfl, fun k i => ?_⟩
    split_ifs
    · exact bad k i
    · exact k.requestTaken i
  case proveAccept p h =>
    refine ⟨_, fun s => rfl, fun k i => ?_⟩
    split_ifs
    · exact bad k i
    · exact k.acceptTaken i
  case proveDecline p h reason =>
    refine ⟨_, fun s => rfl, fun k i => ?_⟩
    split
    · split_ifs
      · exact bad k i
      · exact k.declineTaken _ i
    · exact bad k i
  case provePattern p f =>
    refine ⟨_, fun s => rfl, fun k i => ?_⟩
    split
    · exact k.patternTaken _ _ i
    · exact bad k i
  case proveEcho p f =>
    refine ⟨_, fun s => rfl, fun k i => ?_⟩
    split
    · exact k.echoTaken _ _ i
    · exact bad k i
  case proveEnd p h x =>
    refine ⟨_, fun s => rfl, fun k i => ?_⟩
    split
    · split_ifs
      · exact bad k i
      · exact k.endTaken _ _ i
    · exact bad k i

/-- A good fragment keeps the property, whatever it brings about. -/
theorem goodFragment_kept (hears : Hears I) {c : Instr} (good : (goodFragment c).isSome = true) {s t : State} (i : I s)
    (e : exec c s = .next t) : I t := by
  obtain ⟨⟨p, len, b⟩, good⟩ := Option.isSome_iff_exists.1 good
  obtain ⟨f, body, kept⟩ := goodFragment_body good
  rw [body s] at e
  exact takeCommand_kept (fun s => k.aside (silent_aside s)) (receive_kept hears fun _ => kept k) i e

/-- A command that is a timer's expiry keeps the property where what the expiry does keeps it. -/
theorem takeExpiry_kept (tm : State → Option Timer) (f : State → State) {s t : State}
    (h : ∀ s, (tm s).isSome = true → ∀ u, u.pairs = s.pairs → I u → I (f u)) (i : I s)
    (e : takeCommand (fun s => expire (tm s) f s) s = .next t) : I t := by
  refine takeCommand_kept (fun s => k.aside (silent_aside s)) (fun s i => ?_) i e
  refine k.expired (fun tm started i => h s (by rw [started]; rfl) _ rfl i) i

/-- A timer's expiry keeps the property. -/
theorem expiry_kept {c : Instr} {s t : State} (timed : (expiryTimer s c).isSome = true) (i : I s)
    (e : exec c s = .next t) : I t := by
  have silent : ∀ s, I s → I { s with out := [] } := fun s => k.aside (silent_aside s)
  have supervised {p : PairNo} {m : SupMeaning} {s u : State} (h : ((s.pair p).supervisionAs m).isSome = true)
      (pairs : u.pairs = s.pairs) : (u.pair p).supervision.map (·.1) = some m := by
    obtain ⟨tm, started⟩ := Option.isSome_iff_exists.1 h
    rw [show u.pair p = s.pair p by simp only [State.pair, pairs], KeptByEvents.supervisionAs_isSome started]
    rfl
  have runs {p : PairNo} {m : SupMeaning} {s u : State} (h : ((s.pair p).supervisionAs m).isSome = true)
      (pairs : u.pairs = s.pairs) : (u.pair p).supervision.isSome = true := by
    have := supervised h pairs
    cases hs : (u.pair p).supervision <;> simp_all
  have same {s u : State} (p : PairNo) (pairs : u.pairs = s.pairs) : u.pair p = s.pair p := by
    simp only [State.pair, pairs]
  cases c <;> simp only [expiryTimer, Option.isSome_none, Bool.false_eq_true] at timed
  case supervisionExpiry p =>
    exact takeExpiry_kept k (fun s => (s.pair p).supervisionAs .heard) (supervisionExpiry p)
      (fun s on u pairs i => k.supervisionLost (runs on pairs) i) i e
  case errorPeriodEnd p =>
    exact takeExpiry_kept k (fun s => (s.pair p).errTimer) (errorPeriodEnd p)
      (fun s on u pairs i => k.errorPeriodEnded (by rw [same p pairs]; exact on) i) i e
  case settleTimerExpiry p =>
    exact takeExpiry_kept k (fun s => (s.pair p).settleTimer) (settleTimerExpiry p)
      (fun _ _ _ _ i => k.strikesSettled i) i e
  case aliveTimerExpiry p =>
    exact takeExpiry_kept k (fun s => (s.pair p).aliveTimer) (aliveTimerExpiry p)
      (fun s on u pairs i => k.aliveAgain (by rw [same p pairs]; exact on) i) i e
  case gateWindowEnd p =>
    change execGateWindowEnd p s = _ at e
    unfold execGateWindowEnd at e
    refine takeCommand_kept silent (fun s i => ?_) i e
    split
    · exact i
    · next tm running =>
      exact k.windowEnded (by rw [KeptByEvents.reach_pair, running]; rfl) (k.aside (reach_aside tm s) i)
  case haltTimerExpiry p =>
    exact takeExpiry_kept k (fun s => (s.pair p).haltTimer) (haltTimerExpiry p)
      (fun s on u pairs i => k.settled
      (k.move (KeptByEvents.mayMove_of_timer (.inl (by rw [same p pairs]; exact on))) i)) i e
  case holdTimerExpiry c =>
    exact takeExpiry_kept k (fun s => (s.cls c).hold) (fun s => finish (holdExpires c s))
      (fun _ _ _ _ i => k.holdEnded c i) i e
  case idleTimerExpiry p =>
    exact takeExpiry_kept k (fun s => (s.pair p).idleTimer) (idleTimerExpiry p)
      (fun _ _ _ _ i => k.idleEnded i) i e
  case offerTimerExpiry p =>
    exact takeExpiry_kept k (fun s => (s.pair p).offerTimer) (offerTimerExpiry p)
      (fun _ _ _ _ i => k.offerEnded i) i e
  case askTimerExpiry =>
    exact takeExpiry_kept k (fun s => s.bond.askTimer) askTimerExpiry
      (fun _ _ _ _ i => k.asking i) i e
  case probeTimerExpiry p =>
    exact takeExpiry_kept k (fun s => (s.pair p).supervisionAs .probe) (fun s => settle (enterWaking p .probe s))
      (fun s on u pairs i => k.settled (k.woken _ (.inr (supervised on pairs)) i)) i e
  case wakeTimeout p =>
    exact takeExpiry_kept k (fun s => (s.pair p).supervisionAs .wakeTimeout) (wakeTimeout p)
      (fun s on u pairs i => k.wakeTimedOut (runs on pairs) i) i e
  case resetWaitExpiry =>
    change execResetWaitExpiry s = _ at e
    unfold execResetWaitExpiry at e
    refine takeCommand_kept silent (fun s i => ?_) i e
    refine k.expired (fun tm started i => k.perform (fun free => ?_) i) i
    change s.agent.reset = none at free
    simp [free] at started
  case answerTimerExpiry =>
    change execAnswerTimerExpiry s = _ at e
    unfold execAnswerTimerExpiry at e
    refine takeCommand_kept silent (fun s i => ?_) i e
    split
    · exact i
    · next r engine => exact k.expired (fun tm _ i => k.answerLate r (by simp [State.runOn, reach, engine]) i) i
  case stepTimerExpiry =>
    change execStepTimerExpiry s = _ at e
    unfold execStepTimerExpiry at e
    refine takeCommand_kept silent (fun s i => ?_) i e
    split
    · exact i
    · exact k.expired (fun _ _ i => k.settled (k.stepEnded _ i)) i

/-- Every command that is neither a request nor a physical reset keeps the property. -/
theorem event_kept (hears : Hears I) {c : Instr} {s t : State} (event : requestOf c = none)
    (noReset : isResetCommand c = false) (i : I s) (e : exec c s = .next t) : I t := by
  have silent : ∀ s, I s → I { s with out := [] } := fun s => k.aside (silent_aside s)
  by_cases good : (goodFragment c).isSome = true
  · exact goodFragment_kept k hears good i e
  by_cases timed : (expiryTimer s c).isSome = true
  · exact expiry_kept k timed i e
  cases c <;> simp only [goodFragment, expiryTimer, requestOf, isResetCommand, Option.isSome_some, not_true_eq_false,
    reduceCtorEq, Bool.true_eq_false] at good timed event noReset
  case lineUp p rate => exact takeCommand_kept silent (fun _ => k.lineRaised rate) i e
  case lineDown p => exact takeCommand_kept silent (fun _ => k.lineLowered) i e
  case handoverComplete p => exact takeCommand_kept silent (fun _ => k.handedOver) i e
  case damaged p => exact takeCommand_kept silent (fun _ => k.damageTaken) i e
  case trunkFrameIn f => exact takeCommand_kept silent (fun _ => k.frameIn f) i e
  case trunkReady => exact takeCommand_kept silent (fun s i => k.sendBegun (k.aside (setReady_aside true s) i)) i e
  case trunkSendComplete ready => exact takeCommand_kept silent (fun _ => k.sendCompleted ready) i e

end Sys2Proof.Proofs
end

