-- ==== Sys2Proof/Proofs/KeptByRequests.lean ====
section
/-! SUPPORT. The walk through the requests, the resets and the idle step: a property with the fields of
`KeptByRequests` is kept by every step that is no completion of a physical reset. -/

namespace Sys2Proof.Proofs
open Sys2Proof Sys2Proof.Machine Sys2Proof.Laws

variable {I : State → Prop} (k : KeptByRequests I) {s : State} {p : PairNo}
include k

namespace KeptByRequests

/-! ## Settings -/

theorem modPairCfg_kept (f : PairSettings → PairSettings) (i : I s) : I (modPairCfg p f s) := k.pairCfg (by rfl) i

omit k in
/-- An invariant that goes through the items of a list goes through their application. -/
theorem applyItems_kept {α : Type} {J : State → Prop} {name : α → SettingName} {apply : α → State → State}
    {tests : α → Bool} (h : ∀ x s, J s → J (apply x s)) (offers : ∀ s, J s → J (testOffers allPairs s)) (xs : List α)
    {s : State} (i : J s) : J (applyItems name apply tests xs s) := by
  have applied : J ((lastOfEach name xs).foldl (fun s x => apply x s) s) := by
    generalize lastOfEach name xs = ys
    induction ys generalizing s with
    | nil => exact i
    | cons y ys ih => exact ih (h y s i)
  unfold applyItems
  simp only
  split
  · exact offers _ applied
  · exact applied

omit k in
theorem initialRate_bounds (n : Nat) : 16 ≤ initialRate n ∧ initialRate n ≤ 16383 :=
  KeptByEvents.clampTo_bounds (by decide) _

theorem gateWindowWritten (g : GateWindow) (i : I s) : I (writeGateWindow g s) := by
  unfold writeGateWindow
  simp only
  split
  · exact i
  · refine eachPair_kept (f := gateWindowPair s.cfg.gateWindow g) (fun p s i => ?_) allPairs (k.bondCfg i)
    unfold gateWindowPair
    split
    · refine k.unit ?_ i
      dsimp only [PairUnit.stopWindow]
      split
      · exact { Settled.refl (s.pair p) with window := fun h => by cases h }
      · next awake =>
        have present : (s.pair p).state ≠ .absent ∧ (s.pair p).state ≠ .down := by simpa using awake
        exact { Settled.refl (s.pair p) with
          rate := .inr ⟨.inl present, initialRate_bounds _⟩, window := fun h => by cases h }
    · split
      · next starts =>
        simp only [Bool.and_eq_true, decide_eq_true_eq] at starts
        exact k.unit (KeptByEvents.startWindow_settled _ _ starts.2) i
      · exact i

theorem bondItem (x : BondItem) (i : I s) : I (applyBond x s) := by
  cases x <;> simp only [applyBond]
  case gateWindow v => exact k.gateWindowWritten _ i
  all_goals exact k.bondCfg i

theorem moved {st : PairState} (h : st = .down ∨ st = .absent) (free : s.runOn p = false) (i : I s) :
    I (moveTo p st s) := by
  refine k.move ⟨?_, ?_, .inl ⟨?_, .inl free⟩⟩ i
  · rcases h with rfl | rfl <;> decide
  · rcases h with rfl | rfl <;> decide
  · exact h.imp id .inl

omit k in
theorem runOn_congr {s t : State} (h : t.engine = s.engine) (p : PairNo) : t.runOn p = s.runOn p := by
  simp only [State.runOn, h]

theorem allotmentWritten (a : Allotment) (free : s.runOn p = false) (i : I s) :
    I (writeAllotment p a s) ∧ (writeAllotment p a s).runOn p = false := by
  have written : I (modPairCfg p (fun b => { b with allotment := a }) s) := k.modPairCfg_kept _ i
  unfold writeAllotment
  simp only
  split
  · exact ⟨written, free⟩
  · exact ⟨k.told _ (k.moved (.inr rfl) free written),
      (runOn_congr (by simp [modPairCfg]) p).trans free⟩
  · exact ⟨k.told _ (k.moved (.inl rfl) free written),
      (runOn_congr (by simp [modPairCfg]) p).trans free⟩
  · exact ⟨written, free⟩

/-- The items of a pair without a run: none starts one. -/
theorem pairItem (x : PairItem) (i : I s ∧ s.runOn p = false) : I (applyPair p x s) ∧ (applyPair p x s).runOn p = false := by
  obtain ⟨i, free⟩ := i
  cases x <;> simp only [applyPair]
  case allotment v => exact k.allotmentWritten _ free i
  case delayFigure n => exact ⟨k.unit { Settled.refl (s.pair p) with } i, free⟩
  all_goals exact ⟨k.pairCfg (by rfl) i, free⟩

omit k in
theorem testOffers_engine (ps : List PairNo) (s : State) : (testOffers ps s).engine = s.engine := by
  unfold testOffers eachPair
  induction ps generalizing s with
  | nil => rfl
  | cons p ps ih =>
    have tested : (testOffer p s).engine = s.engine := by
      unfold testOffer
      split <;> rfl
    exact (ih _).trans tested

theorem noticeItem (x : NoticeItem) (i : I s) : I (applyNotice x s) := by
  cases x <;> exact k.notices i

/-! ## Pair commands -/

theorem withdrawn (accepted : actionAccepted .withdraw (s.pair p).state s.engine.isNone = true) (i : I s) :
    I (withdrawPair p s) := by
  have told : I (if (s.pair p).state = .quiet then tell p .wake s else s) ∧
      ((if (s.pair p).state = .quiet then tell p .wake s else s).pair p).state = (s.pair p).state := by
    split
    · exact ⟨k.told _ i, by simp [Machine.tell]⟩
    · exact ⟨i, rfl⟩
  refine k.move (KeptByEvents.mayMove_of told.2 ?_) told.1
  cases e : (s.pair p).state <;> simp [actionAccepted, e] at accepted ⊢

theorem barred (free : s.runOn p = false) (accepted : actionAccepted .bar (s.pair p).state s.engine.isNone = true)
    (i : I s) : I (barPair p s) := by
  have present : (s.pair p).state ≠ .absent := by simpa [actionAccepted] using accepted
  unfold barPair
  simp only
  split
  · exact i
  · refine k.forPair _ ?_
    split
    · next down =>
      rw [if_neg (by rw [down]; decide)]
      exact k.barDown down i
    · next down =>
      split
      · next quiet =>
        refine k.move (KeptByEvents.mayMove_of (old := .quiet) ?_) (k.told _ i)
        simpa [Machine.tell] using quiet
      · exact k.move ⟨by decide, by decide, .inl ⟨.inr (.inr ⟨present, down⟩), .inl free⟩⟩ i

theorem cleared (barred : (s.pair p).state = .barred) (i : I s) : I (clearPair p s) := by
  have moved : I (moveTo p (if (s.pair p).line then .standby else .down) s) :=
    k.move (KeptByEvents.mayMove_of barred (by decide) (by split <;> decide)) i
  have wiped := k.unit (p := p) (f := fun u => { u with strikes := 0, wakeErrors := 0, noQuiet := false })
    { Settled.refl _ with } moved
  unfold clearPair
  simp only
  split
  · exact k.offersTested _ wiped
  · exact wiped

theorem pairReset (free : s.runOn p = false) (i : I s) : I (resetPair p s) := by
  have moved : I (clearHorizons p (modPair p PairUnit.resetRecord (moveTo p .down s))) :=
    k.horizonsCleared (k.unit { Settled.refl _ with } (k.moved (.inl rfl) free i))
  unfold resetPair
  simp only
  split
  · exact k.offersTested _ (k.told _ moved)
  · exact k.told _ moved

theorem actionApplied (a : PairAction) (free : s.runOn p = false)
    (accepted : actionAccepted a (s.pair p).state s.engine.isNone = true) (i : I s) : I (applyAction a p s) := by
  cases a
  case admitPair =>
    have standby : (s.pair p).state = .standby := by simpa [actionAccepted] using accepted
    exact k.move (KeptByEvents.mayMove_of standby) i
  case withdraw => exact k.withdrawn accepted i
  case bar => exact k.barred free accepted i
  case clear =>
    have barred : (s.pair p).state = .barred := by simpa [actionAccepted] using accepted
    exact k.cleared barred i
  case prove =>
    simp only [actionAccepted, Bool.and_eq_true, Bool.or_eq_true, decide_eq_true_eq, Option.isNone_iff_eq_none] at accepted
    obtain ⟨state, idle⟩ := accepted
    refine k.start idle ?_ ?_ i <;> rcases state with (state | state) | state <;> rw [state] <;> decide
  case release =>
    have halted : (s.pair p).state = .halted := by simpa [actionAccepted] using accepted
    refine k.move (KeptByEvents.mayMove_of (old := .halted) ?_) (k.endRaised _ _ i)
    rw [raiseEnd, raiseCtl, modRecord, modPair_pair_same, modPair_pair_same]
    unfold PairUnit.raise
    split <;> exact halted
  case reset => exact k.pairReset free i
  case wake =>
    have quiet : (s.pair p).state = .quiet := by simpa [actionAccepted] using accepted
    exact k.woken .command (.inl quiet) i

/-! ## Service -/

theorem settingsWritten (w : SettingsWrite) (i : I s) : I (serveWriteSettings w s).state := by
  have offers : ∀ s, I s → I (testOffers allPairs s) := fun s i => k.offersTested _ i
  cases w with
  | bond xs =>
    unfold serveWriteSettings serveItems
    simp only
    split
    · exact i
    · exact applyItems_kept (fun x s i => k.bondItem x i) offers _ i
  | cls o xs =>
    unfold serveWriteSettings
    simp only
    split
    · unfold serveItems
      split
      · exact i
      · next checked => exact k.classItems checked i
    · exact i
  | pair o xs =>
    unfold serveWriteSettings
    simp only
    split
    · next p _ =>
      split
      · next run => exact k.runAborted _ (.inl run) i
      · next free =>
        unfold serveItems
        split
        · exact i
        · have free : s.runOn p = false := by simpa using free
          exact (applyItems_kept (J := fun s => I s ∧ s.runOn p = false) (fun x s i => k.pairItem x i)
            (fun s i => ⟨offers s i.1, (runOn_congr (testOffers_engine _ _) p).trans i.2⟩) _ ⟨i, free⟩).1
    · exact i
  | notice xs =>
    unfold serveWriteSettings serveItems
    simp only
    split
    · exact i
    · exact applyItems_kept (fun x s i => k.noticeItem x i) offers _ i
  | unknown _ => exact i

theorem pairCommanded (o : Octet) (a : Option PairAction) (i : I s) : I (servePairCommand o a s).state := by
  unfold servePairCommand
  split
  · exact i
  · next p _ =>
    split
    · next run =>
      split
      · exact i
      · exact k.runAborted _ (.inl run) i
    · next free =>
      split
      · exact i
      · split
        · next accepted => exact k.actionApplied _ (by simpa using free) accepted i
        · exact i

theorem committed (o : Octet) (i : I s) : I (serveTableCommit o s).state := by
  unfold serveTableCommit
  split
  · exact i
  · next j _ =>
    simp only
    split
    · exact i
    · next passed =>
      exact k.stage (img := s.classifier.image) (en := []) (k.entry (e := { f := _, matched := 0 }) passed i)

omit k in
theorem unused_passes (j : Fin 32) : failedCheck j ({} : Entry).f = none := by
  revert j
  decide

theorem countersRead (g : CounterGroup) (clear : Bool) (i : I s) : I (serveReadCounters g clear s).state := by
  cases g
  case trunk =>
    unfold serveReadCounters
    simp only
    split
    · exact k.trunkCounted _ i
    · exact i
  case cls o =>
    unfold serveReadCounters
    simp only
    split
    · simp only
      split
      · exact k.classCounted _ _ i
      · exact i
    · exact i
  case pair o =>
    unfold serveReadCounters
    simp only
    split
    · simp only
      split
      · exact k.countersCleared i
      · exact i
    · exact i
  case unknown => exact i

theorem noticesCleared (ns : List Nat) (i : I s) : I (serveClearNotices ns s).state := by
  unfold serveClearNotices
  split
  · generalize allSources = ss
    simp only
    induction ss generalizing s with
    | nil => exact i
    | cons src ss ih =>
      have one : I (if ns.contains ((sourceIndex src).val + 1) then modSource src SourceUnit.cleared s else s) := by
        split
        · exact k.notices i
        · exact i
      exact ih one
  · exact i

theorem bondCommanded (i : I s) : I (serveBondRestart s).state := by
  unfold serveBondRestart
  split
  · exact k.bondRestarted i
  · simp only
    split
    · exact i
    · exact k.asking (eachPair_kept (f := raiseCtl .restartAsk) (fun _ _ i => k.raised _ i) _ i)

theorem bodyServed (b : ReqBody) (i : I s) : I (serveBody b s).state := by
  cases b
  case writeSettings w => exact k.settingsWritten w i
  case pairCommand o a => exact k.pairCommanded o a i
  case tableStage xs =>
    change I (serveTableStage xs s).state
    unfold serveTableStage
    split
    · exact i
    · exact k.stage i
  case tableCommit o => exact k.committed o i
  case tableFetch o =>
    change I (serveTableFetch o s).state
    unfold serveTableFetch
    split
    · exact i
    · exact k.stage i
  case tableClear o =>
    change I (serveTableClear o s).state
    unfold serveTableClear
    split
    · exact i
    · exact k.entry (e := {}) (unused_passes _) i
  case readCounters g clear => exact k.countersRead g clear i
  case clearNotices ns => exact k.noticesCleared ns i
  case bondRestart => exact k.bondCommanded i
  case readSettings g =>
    change I (serveReadSettings g s).state
    unfold serveReadSettings
    split
    · exact i
    · split <;> exact i
    · split <;> exact i
    · exact i
    · exact i
  case readPair o =>
    change I (serveReadPair o s).state
    unfold serveReadPair
    split <;> exact i
  all_goals exact i

theorem requestServed (q : ReqHead) (b : ReqBody) (i : I s) : I (serve q b s).state := by
  have counted : I (countTrunk (fun n => { n with mgmtServed := n.mgmtServed + 1 }) s) := k.trunkCounted _ i
  unfold serve serveTested
  split
  · exact counted
  · split
    · exact counted
    · exact k.bodyServed b counted

/-! ## Replies -/

omit k in
theorem replyOctets_length (b : ReplyBody) : (replyOctets b).length ≤ 1578 := by
  cases b <;> simp [replyOctets]

omit k in
theorem replyFrame_length (r : Reply) : 1 ≤ (replyFrame r).length ∧ (replyFrame r).length ≤ 1600 := by
  have := replyOctets_length r.body
  simp [replyFrame, ownFrame, octets48, octets16, mgmtType]
  omega

theorem replyOffered (r : Reply) (b : Bool) (pending : b = true → s.agent.reset ≠ none) (i : I s) :
    I (offerReply r b s) := by
  have told : I (emit (.reply r) s) := k.emitted _ i
  unfold offerReply
  simp only
  split
  · exact k.egress pending told
  · exact k.ownOffered (replyFrame_length r) pending told

theorem answered (q : ReqHead) (b : ReqBody) (v : Served) (i : I v.state) : I (answer q b v) := by
  unfold answer
  split
  · exact k.replyOffered _ _ (fun _ => by simp [pendReset]) (k.pend i)
  · exact k.replyOffered _ _ (fun h => by cases h) i

theorem taken (q : ReqHead) (b : ReqBody) (i : I s) : I (takeRequest q b s) := by
  unfold takeRequest
  split
  · exact k.trunkCounted _ i
  · have served := k.answered q b _ (k.requestServed q b i)
    simp only [afterReply]
    split
    · exact k.settled served
    · exact k.sendBegun served

theorem arrived (q : ReqHead) (b : ReqBody) (i : I s) : I (requestArrives q b s) := by
  unfold requestArrives
  split
  · exact k.arrive (fun f h => by cases h) i
  · exact k.taken q b i

theorem nextServed (i : I s) : I (serveNext s) := by
  unfold serveNext
  split
  · exact i
  · next r rs waits =>
    simp only
    split
    · next f far =>
      have trunk : r.trunkFrame = some f := (Option.filter_eq_some_iff.1 far).1
      unfold forwardRequest
      split
      · exact k.trunkCounted _ (k.served waits i)
      · exact k.settled (k.forward waits trunk i)
    · exact k.taken _ _ (k.served waits i)

end KeptByRequests

/-! ## Steps -/

omit k in
/-- A command that is a request reaches the agent with its header and body. -/
theorem exec_request {c : Instr} {q : ReqHead} {b : ReqBody} (h : requestOf c = some (q, b)) (s : State) :
    exec c s = takeCommand (requestArrives q b) s := by
  cases c <;> simp only [requestOf, Option.some.injEq, Prod.mk.injEq, reduceCtorEq] at h <;> obtain ⟨rfl, rfl⟩ := h <;> rfl

/-- Every command that is no physical reset keeps the property. -/
theorem command_kept (hears : Hears I) {c : Instr} {s t : State} (noReset : isResetCommand c = false) (i : I s)
    (e : exec c s = .next t) : I t := by
  cases request : requestOf c with
  | none => exact event_kept k.toKeptByEvents hears request noReset i e
  | some r =>
    rw [exec_request (q := r.1) (b := r.2) request] at e
    exact takeCommand_kept (fun s => k.aside (silent_aside s)) (fun _ i => k.arrived _ _ i) i e

end Sys2Proof.Proofs
end

