-- ==== Sys2Proof/Proofs/StoreInvariants.lean ====
section
/-! PROOF. The invariants of the reorder store, the carried flag and the frame stores (O56, O57, O58), that events keep
the settings (O55), and that a good fragment is counted (O7): each is kept by what leaves the stores, so it owes only
the operations that touch them. -/

namespace Sys2Proof.Proofs
open Sys2Proof Sys2Proof.Machine Sys2Proof.Laws

/-! ## The pairs and the engine leave the stores -/

theorem restartPair_storesLeft (p : PairNo) (s : State) : StoresLeft s (restartPair p s) := by
  unfold restartPair
  simp only
  split
  · refine StoresLeft.trans ?_ (enterState_storesLeft p _ _)
    have flushed : StoresLeft s (modPair p (fun u => { u with
        n := { u.n with flushed := u.n.flushed + BitVec.ofNat 32 u.queue.length }, queue := [], ctl := [] })
        (cutHandover true p s)) :=
      (cutHandover_storesLeft true p s).trans (modPair_storesLeft ⟨rfl, fun _ m => (List.not_mem_nil m).elim, rfl, rfl⟩)
    split
    · exact (flushed.trans (modPair_storesLeft (f := fun u => { u with control := .wake }) ⟨rfl, fun _ => id, rfl, rfl⟩)).trans
        (emit_aside _ _).storesLeft
    · exact flushed
  · exact .refl s

theorem startRun_storesLeft (p : PairNo) (s : State) : StoresLeft s (startRun p s) :=
  (((moveTo_storesLeft p .proving s).trans (modRecord_storesLeft p _ _)).trans (engine_storesLeft _ _)).trans
    (raiseCtl_storesLeft _ p _)

theorem aborted_storesLeft (p : PairNo) (cause : AbortCause) (s : State) : StoresLeft s (aborted p cause s) := by
  refine StoresLeft.trans ?_ (moveTo_storesLeft p _ _)
  have marked := (engine_storesLeft none s).trans (modRecord_storesLeft p (fun r => { r with
    status := .aborted, abortCause := some cause }) _)
  split
  · exact marked.trans (raiseEnd_storesLeft p _ _ _)
  · exact marked

theorem raiseForPair_storesLeft (src : Source) (p : PairNo) (s : State) : StoresLeft s (raiseForPair src p s) :=
  (raiseNotice_aside src _ s).storesLeft

theorem concluded_storesLeft (p : PairNo) (s : State) : StoresLeft s (concluded p s) := by
  have judged : ∀ (f : ProvingRecord → ProvingRecord) (g : PairUnit → Nat) (v : Verdict) (d : Nat),
      StoresLeft s (raiseEnd p v d (modPair p (fun u => { u with delay := g u }) (modRecord p f s))) := fun f g v d =>
    ((modRecord_storesLeft p f s).trans (modPair_storesLeft ⟨rfl, fun _ => id, rfl, rfl⟩)).trans
      (raiseEnd_storesLeft p v d _)
  unfold concluded
  simp only
  split
  · exact (judged _ _ _ _).trans (moveTo_storesLeft p _ _)
  · split
    · exact ((judged _ _ _ _).trans (moveTo_storesLeft p _ _)).trans (raiseForPair_storesLeft _ p _)
    · exact (judged _ _ _ _).trans (moveTo_storesLeft p _ _)

theorem testOffer_storesLeft (p : PairNo) (s : State) : StoresLeft s (testOffer p s) := by
  unfold testOffer
  split
  · refine StoresLeft.trans (t := modPair p (fun u => { u with
      offering := true, offerSpent := true, offerTimer := some (offerTime s) }) s) ?_ (raiseCtl_storesLeft _ p _)
    exact modPair_storesLeft ⟨rfl, fun _ => id, rfl, rfl⟩
  · exact .refl s

theorem testOffers_storesLeft (ps : List PairNo) (s : State) : StoresLeft s (testOffers ps s) :=
  eachPair_storesLeft testOffer_storesLeft ps s

/-- The bond controller but for its carried flag. -/
theorem bond_storesLeft {b : BondCtl} {s : State} (role : b.role = s.bond.role) (carried : b.carried = s.bond.carried) :
    StoresLeft s { s with bond := b } :=
  { StoresLeft.refl s with
    settings := by
      refine ⟨rfl, rfl, rfl, rfl, rfl, role, rfl, fun _ => rfl, fun _ => rfl, rfl, rfl, rfl, fun _ => ⟨rfl, rfl⟩,
        fun _ => rfl, rfl, rfl⟩
    carried := fun h => carried.trans h
    marks := carriedMarks_congr carried (fun _ => rfl) fun _ => rfl }

/-- A property of the stores, with the operations that touch them. -/
structure KeptByStoreChanges (I : State → Prop) : Prop where
  left {s t : State} : StoresLeft s t → I s → I t
  stores {s : State} : I s → I (restartStores s)
  spill {c : ClassNo} {s : State} : I s → I (spillFrame c s)
  noPath {c : ClassNo} {s : State} : I s → I (dropNoPath c s)
  place {c : ClassNo} {s : State} : I s → I (placeFragment c s)
  admission {c : ClassNo} {f : FrameRec} {s : State} : Admissible f s → I s → I (offerFrame c f s)
  egress {e : EgressEntry} {s : State} : (e.resetReply = true → s.agent.reset ≠ none) → I s → I (offerEgress e s)
  matched {i : Fin 32} {f : Entry → Nat} {s : State} : I s → I (modEntry i (fun e => { e with matched := f e }) s)
  arrive {r : Request} {s : State} : (∀ f ∈ r.trunkFrame, 1 ≤ f.length ∧ f.length ≤ 1600) → I s → I (handToAgent r s)
  perform {s : State} : s.agent.reset ≠ none → I s → I (completeReset .management (cutAll s))

theorem KeptByStoreChanges.events {I : State → Prop} (k : KeptByStoreChanges I) : KeptByEvents I where
  aside h := k.left h.storesLeft
  horizon := k.left (setHorizon_storesLeft ..)
  losses := k.left (testLosses_storesLeft ..)
  collect := k.left (collectData_storesLeft ..)
  hold := k.left (holdExpires_storesLeft ..)
  epoch := k.left (bond_storesLeft rfl rfl)
  stores := k.stores
  asking := k.left (bond_storesLeft rfl rfl)
  spill := k.spill
  noPath := k.noPath
  place := k.place
  admission := k.admission
  egress := k.egress
  sent := k.left { StoresLeft.refl _ with
    bounded := fun b => (List.length_tail ▸ Nat.sub_le ..).trans b
    egress := fun _ m => .inl (List.mem_of_mem_tail m) }
  matched := k.matched
  arrive := k.arrive
  perform := k.perform
  unit h := k.left (modPair_storesLeft h.unloaded)
  move _ := k.left (moveTo_storesLeft ..)
  train _ _ := k.left ((modPair_storesLeft ⟨rfl, fun _ => id, rfl, rfl⟩).trans (moveTo_storesLeft ..))
  serve _ := k.left (enterState_storesLeft ..)
  sleep _ := k.left (enterState_storesLeft ..)
  wake _ := k.left (enterState_storesLeft ..)
  restart := k.left (restartPair_storesLeft ..)
  barDown _ := k.left ((moveTo_storesLeft ..).trans (modPair_storesLeft ⟨rfl, fun _ => id, rfl, rfl⟩))
  start _ _ _ := k.left (startRun_storesLeft ..)
  trainRun _ _ := k.left ((modPair_storesLeft ⟨rfl, fun _ => id, rfl, rfl⟩).trans (startRun_storesLeft ..))
  run _ _ := k.left (engine_storesLeft ..)
  abort _ := k.left ((aborted_storesLeft ..).trans (engine_storesLeft ..))
  conclude _ := k.left ((concluded_storesLeft ..).trans (engine_storesLeft ..))

end Sys2Proof.Proofs
end

