-- ==== Sys2Proof/Proofs/FullReset.lean ====
section
/-! SUPPORT. The completion of a full reset (R194, R201): every block at its full reset values, and with them every
invariant. -/

namespace Sys2Proof.Proofs
open Sys2Proof Sys2Proof.Machine Sys2Proof.Laws

/-! ## The transceivers are told train -/

/-- Pairs at their full reset values that are told train are left so. -/
theorem trainAll_pair (ps : List PairNo) {s : State} (h : ∀ p : PairNo, s.pair p = {}) (p : PairNo) :
    (eachPair ps (fun p => Machine.tell p .train) s).pair p = {} := by
  unfold eachPair
  induction ps generalizing s with
  | nil => exact h p
  | cons q ps ih =>
    refine ih fun r => ?_
    change (modPair q (fun u => { u with control := .train }) s).pair r = {}
    rw [modPair_pair, h q, h r]
    split <;> rfl

theorem trainAll_rest (ps : List PairNo) (s : State) :
    ∃ pairs out, eachPair ps (fun p => Machine.tell p .train) s = { s with pairs := pairs, out := out } := by
  unfold eachPair
  induction ps generalizing s with
  | nil => exact ⟨s.pairs, s.out, rfl⟩
  | cons q ps ih => exact ih (Machine.tell q .train s)

/-- The part at its full reset values with RESTARTED raised, but for what the transceivers are told. -/
def restartedBlank (cause : ResetCause) (s : State) : State :=
  raiseNotice .restarted (valueArg (causeCode cause))
    (State.blank (readStraps cause s).strapRole (readStraps cause s).straps (readStraps cause s).strapReads
      ((readStraps cause s).notices.record.after cause) (readStraps cause s).pending)

theorem pair_of_replicate {s : State} (h : s.pairs = Vector.replicate 8 {}) (p : PairNo) : s.pair p = {} := by
  simp [State.pair, h, Vector.get]

theorem completeReset_eq (cause : ResetCause) (s : State) :
    ∃ pairs out, completeReset cause s = { restartedBlank cause s with pairs := pairs, out := out } ∧
      ∀ p : PairNo, (completeReset cause s).pair p = {} := by
  obtain ⟨pairs, out, e⟩ := trainAll_rest allPairs (raiseNotice .restarted (valueArg (causeCode cause))
    { State.blank (readStraps cause s).strapRole (readStraps cause s).straps (readStraps cause s).strapReads
        ((readStraps cause s).notices.record.after cause) (readStraps cause s).pending with
      out := (readStraps cause s).out })
  refine ⟨pairs, out, e, fun p => trainAll_pair allPairs (fun q => ?_) p⟩
  exact pair_of_replicate rfl q

/-- The sources after a full reset: RESTARTED alone is pending (R201). -/
theorem restartedBlank_sources (cause : ResetCause) (s : State) (i : Fin 11) :
    ((restartedBlank cause s).notices.sources.get i).enable = true ∧
      (((restartedBlank cause s).notices.sources.get i).level = .urgent ↔ i.val < 3) ∧
      ((restartedBlank cause s).notices.sources.get i).isPending = (i = 0) ∧
      ((restartedBlank cause s).notices.sources.get i).due = (i = 0) ∧
      ((restartedBlank cause s).notices.sources.get i).repeats = 0 ∧
      (i ≠ 0 → ((restartedBlank cause s).notices.sources.get i).arg = none) := by
  generalize restart : restartedBlank cause s = t
  have sources : t.notices.sources = SourceUnit.resetAll.set 0
      { level := .urgent, isPending := true, due := true, arg := some (valueArg (causeCode cause)) } := by
    rw [← restart]
    rfl
  rw [sources]
  fin_cases i <;> simp [SourceUnit.resetAll, Vector.get]

theorem cls_of_resetAll {s : State} (h : s.classes = ClassUnit.resetAll) (c : ClassNo) :
    s.cls c = { cfg := ClassSettings.default c } := by
  rw [State.cls, h]
  fin_cases c <;> rfl

/-- The completion of a full reset (R194). -/
theorem completeReset_fullyReset (cause : ResetCause) (s : State) :
    FullyReset (readStraps cause s).strapRole (readStraps cause s).straps cause (completeReset cause s) := by
  obtain ⟨pairs, out, e, units⟩ := completeReset_eq cause s
  have cls : ∀ c : ClassNo, (completeReset cause s).cls c = { cfg := ClassSettings.default c } := fun c => by
    rw [e]
    exact cls_of_resetAll rfl c
  refine ⟨fun p => ?_, fun c => ?_, ?_⟩
  · rw [units p]
    decide
  · rw [cls c]
    exact ⟨rfl, rfl, rfl, rfl, rfl, rfl⟩
  · rw [e]
    refine ⟨rfl, rfl, rfl, rfl, rfl, rfl, rfl, rfl, rfl, rfl, rfl, rfl, rfl, rfl, ?_, restartedBlank_sources cause s, rfl, rfl, rfl⟩
    cases cause <;> rfl

theorem completeReset_recorded (cause : ResetCause) (s : State) :
    CauseRecorded cause s.notices.record (completeReset cause s).notices.record ∧
      (completeReset cause s).pending = s.pending := by
  obtain ⟨pairs, out, e, -⟩ := completeReset_eq cause s
  rw [e]
  cases cause <;> exact ⟨⟨rfl, rfl, rfl, rfl, rfl⟩, rfl⟩

/-! ## Every invariant after a full reset -/

/-- The blocks that the invariants speak of are at their full reset values. -/
structure Fresh (t : State) : Prop where
  pairs : ∀ p : PairNo, t.pair p = {}
  classes : ∀ c : ClassNo, t.cls c = { cfg := ClassSettings.default c }
  engine : t.engine = none
  classifier : t.classifier = {}
  egress : t.trunk.egress = []
  agent : t.agent = {}

theorem completeReset_fresh (cause : ResetCause) (s : State) : Fresh (completeReset cause s) := by
  obtain ⟨pairs, out, e, units⟩ := completeReset_eq cause s
  refine ⟨units, fun c => ?_, ?_, ?_, ?_, ?_⟩ <;> rw [e]
  · exact cls_of_resetAll rfl c
  all_goals rfl

theorem reset_fresh : Fresh State.reset :=
  ⟨fun p => pair_of_replicate rfl p, fun c => cls_of_resetAll rfl c, rfl, rfl, rfl, rfl⟩

section
variable {t : State} (fresh : Fresh t)
include fresh

theorem Fresh.quotasHeld : QuotasHeld t := by
  unfold QuotasHeld
  simp only [fresh.classes]
  decide

theorem Fresh.contextsOrdered : ContextsOrdered t := fun c => by simp [fresh.classes c]

theorem Fresh.carriedMarks : CarriedMarks t := fun _ c => by simp [fresh.classes c]

theorem Fresh.resetRepliesGone : ResetRepliesGone t := fun _ =>
  ⟨by simp [resetReplyHeld, ClassUnit.holdsResetReply, fresh.classes, fresh.pairs], by simp [fresh.egress]⟩

theorem Fresh.egressBounded : EgressBounded t := by simp [EgressBounded, fresh.egress]

theorem Fresh.table_get (i : Fin 32) : (t.classifier.table.get i).f = {} := by
  rw [fresh.classifier]
  simp [Vector.get]

theorem Fresh.tableChecked : TableChecked t := fun i => by
  rw [fresh.table_get]
  exact KeptByRequests.unused_passes i

theorem Fresh.bufferBounded : BufferBounded t :=
  ⟨by simp [State.slotsInUse, ClassUnit.holding, fresh.classes, allClasses], fun c => by simp [fresh.classes c],
    by simp [fresh.agent]⟩

theorem Fresh.queuesByUrgency : QueuesByUrgency t := fun c => by simp [fresh.classes c]

theorem Fresh.queuesKept : QueuesKept t := fun p => by
  rw [fresh.pairs p]
  simp [PairUnit.QueueKept, PairUnit.agreeing]

theorem Fresh.controlSetsKept : ControlSetsKept t := fun p => by simp [PairUnit.ControlKept, fresh.pairs p]

theorem Fresh.pairsCoherent : PairsCoherent t :=
  ⟨fun p => by rw [fresh.pairs p]; simp [PairUnit.Coherent], fun p => by simp [fresh.pairs p, State.runOn, fresh.engine]⟩

end

/-- Settles O4: the reset state is a state that a POWER-ON reset leaves. -/
theorem resetIsFullReset : Obligations.ResetIsFullReset := by
  have fresh := reset_fresh
  refine ⟨⟨fun p => ?_, fun c => ?_, ?_⟩, rfl, ⟨rfl, rfl, rfl, rfl, rfl⟩, fresh.egressBounded, fresh.tableChecked,
    fresh.resetRepliesGone, fresh.quotasHeld, fresh.contextsOrdered, fresh.carriedMarks, fresh.bufferBounded,
    fresh.queuesByUrgency, fresh.queuesKept, fresh.controlSetsKept, fresh.pairsCoherent⟩
  · rw [fresh.pairs p]
    decide
  · rw [fresh.classes c]
    exact ⟨rfl, rfl, rfl, rfl, rfl, rfl⟩
  · decide +kernel

/-! ## Physical resets -/

theorem cutUnit_idem (b : Bool) (u : PairUnit) : cutUnit b (cutUnit b u) = cutUnit b u := by
  have cut : (cutUnit b u).handover = none := by
    unfold cutUnit
    split <;> trivial
  generalize cutUnit b u = v at cut
  simp [cutUnit, cut]

theorem mem_allPairs (p : PairNo) : p ∈ allPairs := by
  revert p
  decide

theorem cutEach_pair (b : Bool) (ps : List PairNo) (s : State) (p : PairNo) :
    (eachPair ps (cutHandover b) s).pair p = if p ∈ ps then cutUnit b (s.pair p) else s.pair p := by
  unfold eachPair
  induction ps generalizing s with
  | nil => rfl
  | cons q ps ih =>
    refine (ih _).trans ?_
    simp only [cutHandover_pair, List.mem_cons]
    by_cases e : p = q
    · subst e
      simp [cutUnit_idem]
    · simp [e]

theorem cutEach_rest (b : Bool) (ps : List PairNo) (s : State) :
    ∃ pairs out, eachPair ps (cutHandover b) s = { s with pairs := pairs, out := out } := by
  unfold eachPair
  induction ps generalizing s with
  | nil => exact ⟨s.pairs, s.out, rfl⟩
  | cons q ps ih =>
    have one : ∃ pairs out, cutHandover b q s = { s with pairs := pairs, out := out } := by
      unfold cutHandover
      split
      · exact ⟨s.pairs, s.out, rfl⟩
      · exact ⟨_, _, rfl⟩
    obtain ⟨pairs', out', e'⟩ := one
    obtain ⟨pairs, out, e⟩ := ih { s with pairs := pairs', out := out' }
    exact ⟨pairs, out, by rw [List.foldl_cons, e', e]⟩

/-- A full reset cuts off the trunk send and every handover (R4, R148, R194), and leaves the rest. -/
theorem cutAll_eq (s : State) :
    ∃ pairs out, cutAll s = { s with pairs := pairs, trunk := { s.trunk with sending := false }, out := out } ∧
      ∀ p : PairNo, (cutAll s).pair p = cutUnit false (s.pair p) := by
  obtain ⟨pairs, out, e⟩ := cutEach_rest false allPairs s
  have units : ∀ p : PairNo, pairs.get p = cutUnit false (s.pair p) := fun p => by
    have unit := (cutEach_pair false allPairs s p).trans (if_pos (mem_allPairs p))
    rwa [e] at unit
  have rest : ∃ out, cutAll s = { s with pairs := pairs, trunk := { s.trunk with sending := false }, out := out } := by
    unfold cutAll
    rw [e]
    cases sending : s.trunk.sending with
    | true => exact ⟨out ++ [.trunkCut], by simp [emit, sending]⟩
    | false => exact ⟨out, by simp [← sending]⟩
  obtain ⟨out, rest⟩ := rest
  refine ⟨pairs, out, rest, fun p => ?_⟩
  rw [rest]
  exact units p

theorem mark_inProgress (r : ResetProgress) (c d : PhysicalReset) (v : Bool) :
    (r.mark c v).inProgress d = if d = c then v else r.inProgress d := by
  cases c <;> cases d <;> rfl

theorem mark_last (r : ResetProgress) (c : PhysicalReset) (v : Bool) : (r.mark c v).last = r.last := by
  cases c <;> rfl

theorem held_iff {r : ResetProgress} : r.held = true ↔ ∃ d : PhysicalReset, r.inProgress d = true := by
  constructor
  · intro h
    simp only [ResetProgress.held, Bool.or_eq_true] at h
    rcases h with (h | h) | h
    · exact ⟨.powerOn, h⟩
    · exact ⟨.supplyLow, h⟩
    · exact ⟨.pin, h⟩
  · rintro ⟨d, h⟩
    cases d <;> simp_all [ResetProgress.held, ResetProgress.inProgress]

theorem begins_exec (c : PhysicalReset) (s : State) : exec (PhysicalReset.begins c) s = .next (beginReset c s) := by
  cases c <;> rfl

/-- The beginning of a physical reset cuts off what the part was sending, marks its progress, and leaves the rest. -/
theorem beginReset_eq (c : PhysicalReset) (s : State) : ∃ pairs out, beginReset c s = { s with
    pairs := pairs, trunk := { s.trunk with sending := false }, out := out
    resets := { s.resets.mark c true with last := PhysicalReset.cause c }
    agent := { s.agent with reset := none } } ∧ ∀ p : PairNo, (beginReset c s).pair p = cutUnit false (s.pair p) := by
  obtain ⟨pairs, out, e, units⟩ := cutAll_eq s.silent
  have begun : beginReset c s = { s with
      pairs := pairs, trunk := { s.trunk with sending := false }, out := out
      resets := { s.resets.mark c true with last := PhysicalReset.cause c }
      agent := { s.agent with reset := none } } := by
    unfold beginReset
    simp only [State.silent] at e
    rw [e]
  refine ⟨pairs, out, begun, fun p => ?_⟩
  have cut := units p
  rw [e] at cut
  rw [begun]
  exact cut

/-- Settles O5: what a physical reset cuts off is what `cutAll` cuts off, and it marks its own progress alone. -/
theorem physicalResetBegins : Obligations.PhysicalResetBegins := by
  intro c s
  obtain ⟨pairs, out, begun, unit⟩ := beginReset_eq c s
  refine ⟨_, begins_exec c s, ?_, ?_, ?_, ?_, ?_, ?_, fun p => ?_, ?_⟩
  · rw [begun]
    exact held_iff.2 ⟨c, (mark_inProgress ..).trans (if_pos rfl)⟩
  · rw [begun]
    exact (mark_inProgress ..).trans (if_pos rfl)
  · intro d other
    rw [begun]
    exact (mark_inProgress ..).trans (if_neg other)
  · rw [begun]
  · rw [begun]
  · rw [begun]
  · rw [unit]
    unfold cutUnit
    split
    · next none => simp [none]
    · next h some =>
      refine ⟨rfl, rfl, ?_⟩
      simp only [some, Option.any_some, decide_eq_true_eq]
      split <;> simp
  · rw [begun]
    exact ⟨rfl, rfl, rfl, rfl, rfl, rfl, rfl, rfl, rfl, rfl, rfl, rfl⟩

/-- The last completion takes the full reset of the cause that began last (R194). -/
theorem fullResetComplete_last {c : PhysicalReset} {s : State} (role : Role) (straps : BitVec 16)
    (begun : s.resets.inProgress c = true) (alone : (s.resets.mark c false).held = false) :
    fullResetComplete c role straps s = completeReset s.resets.last
      { s with resets := s.resets.mark c false, strapRole := role, straps := straps } := by
  simp [fullResetComplete, begun, alone, mark_last]

theorem exec_fullResetComplete (c : PhysicalReset) (role : Role) (straps : BitVec 16) (s : State) :
    exec (.fullResetComplete c role straps) s = .next (fullResetComplete c role straps s.silent) := rfl

/-- A part in which a PIN reset is in progress and MANAGEMENT is noted as the cause that began last. -/
def pinAfterManagement : State := { State.reset with resets := { pin := true, last := .management } }

/-- Refutes O6: no clause says that the cause that began last is a physical one, and with MANAGEMENT the completion reads
the straps anew instead of taking those that the command presents. -/
theorem not_physicalResetCompletes : ¬ Obligations.PhysicalResetCompletes := by
  intro completes
  have strapped : ∀ role : Role,
      (if Config.strappedHomestead 0 then Role.homestead else .cabinet) = role := by
    intro role
    obtain ⟨t, done, reset, -⟩ := (completes .pin role 0 pinAfterManagement).1 rfl fun d other => by
      cases d <;> simp_all [pinAfterManagement, ResetProgress.inProgress]
    obtain ⟨-, -, -, -, -, -, -, -, -, -, strapRole, -⟩ := reset
    rw [exec_fullResetComplete, fullResetComplete_last role 0 rfl rfl] at done
    have read := completeReset_fullyReset .management { pinAfterManagement.silent with
      resets := pinAfterManagement.silent.resets.mark .pin false, strapRole := role, straps := 0 }
    obtain ⟨-, -, -, -, -, -, -, -, -, -, readRole, -⟩ := read
    rw [← strapRole, ← Host.Outcome.next.inj done]
    exact readRole.symm
  have one := (strapped .cabinet).symm.trans (strapped .homestead)
  cases one

end Sys2Proof.Proofs
end

