-- ==== Sys2Proof/Proofs/StoresKept.lean ====
section
/-! PROOF. The invariants of the reorder store, the carried flag and the frame stores (O56, O57, O58), that events keep
the settings (O55), and that a good fragment is counted (O7): each is kept by what leaves the stores, so it owes only
the operations that touch them. -/

namespace Sys2Proof.Proofs
open Sys2Proof Sys2Proof.Machine Sys2Proof.Laws

/-! ## Steps -/

/-- A property of the part that the requests and the events keep is kept by every step where the physical resets and the
queue of commands keep it. -/
structure KeptByPart (I : State → Prop) : Prop extends KeptByRequests I where
  hears : Hears I
  fresh {s : State} : Fresh s → I s
  begins {c : PhysicalReset} {s : State} : I s → I (beginReset c s)
  marked {r : ResetProgress} {s : State} : r.held = true → I s → I { s with resets := r }
  queue {rest : List Instr} {s : State} : I s → I { s with pending := rest }

theorem fullResetComplete_kept {I : State → Prop} (k : KeptByPart I) {c : PhysicalReset} {role : Role} {straps : BitVec 16}
    {s : State} (i : I s) : I (fullResetComplete c role straps s) := by
  unfold fullResetComplete
  simp only
  split
  · split
    · next held => exact k.marked held i
    · exact k.fresh (completeReset_fresh _ _)
  · exact i

theorem step_kept {I : State → Prop} (k : KeptByPart I) {s t : State} (i : I s) (e : step s = .next t) : I t := by
  have silent : ∀ {s}, I s → I { s with out := [] } := fun i => k.aside (silent_aside _) i
  unfold step at e
  split at e
  · injection e with e
    subst e
    unfold idle
    simp only
    split
    · exact k.nextServed (silent i)
    · exact k.aside (clock_aside _ _) (silent i)
  · next c rest _ =>
    have i : I { s with pending := rest } := k.queue i
    by_cases reset : isResetCommand c = true
    · cases c <;> simp only [isResetCommand, Bool.false_eq_true] at reset
      case fullResetComplete c role straps =>
        injection e with e
        subst e
        exact fullResetComplete_kept k (silent i)
      all_goals
        injection e with e
        subst e
        exact k.begins i
    · exact command_kept k.toKeptByRequests k.hears (by simpa using reset) i e

/-- A property of the stores over the whole part. -/
structure StoreInvariant (I : State → Prop) : Prop extends KeptByStoreChanges I where
  bondCfg {f : BondSettings → BondSettings} {s : State} : I s → I (modCfg f s)
  classItems {c : ClassNo} {xs vs : List ClassItem} {names : List SettingName} {s : State} :
    validateItems (checkClass s c) (fun x => .cls (className x)) xs = .ok (vs, names) → I s →
      I (applyItems (fun x => .cls (className x)) (applyClass c) (fun _ => false) vs s)
  pairUnit {p : PairNo} {f : PairUnit → PairUnit} {s : State} : (f (s.pair p)).queue = (s.pair p).queue → I s →
    I (modPair p f s)
  notices {n : NoticeUnit} {s : State} : I s → I { s with notices := n }
  stage {img : EntryFields} {en : List Field} {s : State} : I s →
    I { s with classifier := { s.classifier with image := img, enable := en } }
  entry {i : Fin 32} {e : Entry} {s : State} : failedCheck i e.f = none → I s → I (modEntry i (fun _ => e) s)
  pend {path : ServicePath} {s : State} : I s → I (pendReset path s)
  served {r : Request} {rs : List Request} {s : State} : s.agent.requests = r :: rs → I s →
    I { s with agent := { s.agent with requests := rs } }
  forward {r : Request} {rs : List Request} {f : Frame} {s : State} : s.agent.requests = r :: rs → r.trunkFrame = some f →
    I s → I (offerOwnFrame f false { s with agent := { s.agent with requests := rs } })
  fresh {s : State} : Fresh s → I s
  begins {c : PhysicalReset} {s : State} : I s → I (beginReset c s)
  marked {r : ResetProgress} {s : State} : r.held = true → I s → I { s with resets := r }
  queue {rest : List Instr} {s : State} : I s → I { s with pending := rest }

theorem StoreInvariant.part {I : State → Prop} (k : StoreInvariant I) : KeptByPart I where
  toKeptByEvents := k.toKeptByStoreChanges.events
  bondCfg := k.bondCfg
  classItems := k.classItems
  pairCfg h := k.pairUnit (by rw [h])
  countersCleared := k.pairUnit rfl
  notices := k.notices
  stage := k.stage
  entry := k.entry
  pend := k.pend
  served := k.served
  forward := k.forward
  hears _ _ _ := k.pairUnit rfl
  fresh := k.fresh
  begins := k.begins
  marked := k.marked
  queue := k.queue

end Sys2Proof.Proofs
end

