-- ==== Sys2Proof/Proofs/ReorderStore.lean ====
section
/-! PROOF. O56 and O57: the quotas, the order of the reorder contexts and R38's marks through every step. Outside the
collector the numbering and the contexts are left; a placement and a local restart are the exceptions of R38, and a
write of a quota that of R110. -/

namespace Sys2Proof.Proofs
open Sys2Proof Sys2Proof.Machine Sys2Proof.Laws

/-! ## What leaves the numbering -/

/-- A class keeps its settings, its numbering and its reorder context. -/
def Numbered (k l : ClassUnit) : Prop :=
  l.cfg = k.cfg ∧ l.nextSeq = k.nextSeq ∧ l.next = k.next ∧ l.held = k.held

/-- The carried flag is as it was, and every class is so. -/
def NumbersLeft (s t : State) : Prop := t.bond = s.bond ∧ ∀ c : ClassNo, Numbered (s.cls c) (t.cls c)

theorem NumbersLeft.of_same {s t : State} (bond : t.bond = s.bond) (classes : t.classes = s.classes) : NumbersLeft s t :=
  ⟨bond, fun c => by simp only [State.cls, classes]; exact ⟨rfl, rfl, rfl, rfl⟩⟩

theorem NumbersLeft.trans {s t u : State} (h : NumbersLeft s t) (k : NumbersLeft t u) : NumbersLeft s u :=
  ⟨k.1.trans h.1, fun c => by
    obtain ⟨a, b, d, e⟩ := h.2 c
    obtain ⟨a', b', d', e'⟩ := k.2 c
    exact ⟨a'.trans a, b'.trans b, d'.trans d, e'.trans e⟩⟩

theorem modClass_numbersLeft {c : ClassNo} {f : ClassUnit → ClassUnit} {s : State} (h : Numbered (s.cls c) (f (s.cls c))) :
    NumbersLeft s (modClass c f s) :=
  ⟨rfl, fun d => by
    rw [modClass_cls]
    split
    · next e => rw [e]; exact h
    · exact ⟨rfl, rfl, rfl, rfl⟩⟩

theorem reportReset_numbersLeft (s : State) : NumbersLeft s (reportReset s) :=
  ⟨(reportReset_aside s).bond, fun c => by
    unfold reportReset
    split <;> exact ⟨rfl, rfl, rfl, rfl⟩⟩

theorem takeSlot_numbersLeft (c : ClassNo) (f : FrameRec) (s : State) : NumbersLeft s (takeSlot c f s) := by
  refine NumbersLeft.trans (t := modClass c (fun k => { k with
    queue := insertFrame { f with order := s.nextOrder } k.queue
    n := { k.n with admitted := k.n.admitted + 1 } }) s) (modClass_numbersLeft ⟨rfl, rfl, rfl, rfl⟩) (.of_same rfl rfl)

theorem countQueueDrop_numbersLeft (c : ClassNo) (s : State) : NumbersLeft s (countQueueDrop c s) :=
  NumbersLeft.trans (t := countClass c (fun n => { n with queueDrop := n.queueDrop + 1 }) s)
    (modClass_numbersLeft ⟨rfl, rfl, rfl, rfl⟩) (.of_same rfl rfl)

theorem offerFrame_numbersLeft (c : ClassNo) (f : FrameRec) (s : State) : NumbersLeft s (offerFrame c f s) := by
  have dropped : NumbersLeft s (if f.resetReply then reportReset (countQueueDrop c s) else countQueueDrop c s) := by
    split
    · exact (countQueueDrop_numbersLeft c s).trans (reportReset_numbersLeft _)
    · exact countQueueDrop_numbersLeft c s
  unfold offerFrame
  simp only
  split
  · exact takeSlot_numbersLeft c f s
  · split
    · split
      · exact ((modClass_numbersLeft (c := c) ⟨rfl, rfl, rfl, rfl⟩).trans (countQueueDrop_numbersLeft c _)).trans
          (takeSlot_numbersLeft c f _)
      · exact dropped
    · exact dropped

theorem setDecisionMap_numbered (m : PairMap) (k : ClassUnit) : Numbered k (k.setDecisionMap m) := by
  unfold ClassUnit.setDecisionMap
  split <;> exact ⟨rfl, rfl, rfl, rfl⟩

theorem spillFrame_numbersLeft (c : ClassNo) (s : State) : NumbersLeft s (spillFrame c s) :=
  modClass_numbersLeft (setDecisionMap_numbered ..)

theorem dropNoPath_numbersLeft (c : ClassNo) (s : State) : NumbersLeft s (dropNoPath c s) := by
  unfold dropNoPath
  extract_lets k flagged t
  have left : NumbersLeft s t := modClass_numbersLeft ⟨rfl, rfl, rfl, rfl⟩
  split
  · exact left.trans (reportReset_numbersLeft _)
  · exact left

theorem startFrame_numbered (k : ClassUnit) : Numbered k k.startFrame := by
  unfold ClassUnit.startFrame
  split <;> exact ⟨rfl, rfl, rfl, rfl⟩

theorem offerEgress_numbersLeft (e : EgressEntry) (s : State) : NumbersLeft s (offerEgress e s) := by
  unfold offerEgress
  simp only
  split
  · exact .of_same rfl rfl
  · split
    · exact (NumbersLeft.of_same (t := countTrunk _ s) rfl rfl).trans (reportReset_numbersLeft _)
    · exact .of_same rfl rfl

/-- A placement takes the class's next sequence and sets the carried flag (R38, R93). -/
theorem placeFragment_numbers (c : ClassNo) (s : State) :
    NumbersLeft s (placeFragment c s) ∨ (placeFragment c s).bond.carried = true ∧
      ∀ d : ClassNo, ((placeFragment c s).cls d).cfg = (s.cls d).cfg ∧
        ((placeFragment c s).cls d).next = (s.cls d).next ∧ ((placeFragment c s).cls d).held = (s.cls d).held := by
  have started : NumbersLeft s (modClass c ClassUnit.startFrame s) := modClass_numbersLeft (startFrame_numbered _)
  unfold placeFragment
  simp only
  split
  · exact .inl started
  · split
    · exact .inl started
    · refine .inr ⟨rfl, fun d => ?_⟩
      obtain ⟨cfg, -, next, held⟩ := started.2 d
      rw [append_cls, setCarried_cls, modClass_cls]
      split
      · next same => subst same; exact ⟨cfg, next, held⟩
      · exact ⟨cfg, next, held⟩

/-! ## The local restart -/

theorem restartDistributor_cls (c d : ClassNo) (s : State) :
    ((restartDistributor c s).cls d).cfg = (s.cls d).cfg ∧ ((restartDistributor c s).cls d).next = (s.cls d).next ∧
      ((restartDistributor c s).cls d).held = (s.cls d).held ∧ ((restartDistributor c s).cls d).queue = (s.cls d).queue ∧
      ((restartDistributor c s).cls d).current = (if d = c then none else (s.cls d).current) ∧
      ((restartDistributor c s).cls d).nextSeq = (if d = c then 0 else (s.cls d).nextSeq) := by
  have report : ∀ t : State, (reportReset t).cls d = t.cls d := fun t => by
    unfold reportReset
    split <;> rfl
  unfold restartDistributor
  by_cases e : d = c
  · subst e
    cases current : (s.cls d).current with
    | none => simp [current]
    | some g =>
      simp only
      split
      · simp [report]
      · simp
  · cases (s.cls c).current with
    | none => simp [modClass_cls_other, e]
    | some g =>
      simp only
      split
      · simp [report, modClass_cls_other, e]
      · simp [modClass_cls_other, e]

theorem restartClass_cls (c d : ClassNo) (s : State) :
    ((restartClass c s).cls d).cfg = (s.cls d).cfg ∧ ((restartClass c s).cls d).queue = (s.cls d).queue ∧
      ((restartClass c s).cls d).current = (s.cls d).current ∧ ((restartClass c s).cls d).nextSeq = (s.cls d).nextSeq ∧
      ((restartClass c s).cls d).next = (if d = c then 0 else (s.cls d).next) ∧
      ((restartClass c s).cls d).held = (if d = c then [] else (s.cls d).held) := by
  unfold restartClass
  by_cases e : d = c
  · subst e
    simp
  · simp [modClass_cls_other, e]

/-- After a local restart every class numbers from 0 with nothing held and no frame in progress (R44). -/
theorem restartStores_cls (d : ClassNo) (s : State) :
    ((restartStores s).cls d).cfg = (s.cls d).cfg ∧ ((restartStores s).cls d).queue = (s.cls d).queue ∧
      ((restartStores s).cls d).current = none ∧ ((restartStores s).cls d).nextSeq = 0 ∧
      ((restartStores s).cls d).next = 0 ∧ ((restartStores s).cls d).held = [] := by
  have classes : ∀ d : ClassNo, d = 0 ∨ d = 1 ∨ d = 2 := by decide
  change ((eachClass restartClass (eachClass restartDistributor s)).cls d).cfg = _ ∧
    ((eachClass restartClass (eachClass restartDistributor s)).cls d).queue = _ ∧
    ((eachClass restartClass (eachClass restartDistributor s)).cls d).current = _ ∧
    ((eachClass restartClass (eachClass restartDistributor s)).cls d).nextSeq = _ ∧
    ((eachClass restartClass (eachClass restartDistributor s)).cls d).next = _ ∧
    ((eachClass restartClass (eachClass restartDistributor s)).cls d).held = _
  simp only [eachClass, restartClass_cls, restartDistributor_cls]
  rcases classes d with rfl | rfl | rfl <;> simp

/-! ## R38's marks -/

theorem NumbersLeft.marks {s t : State} (h : NumbersLeft s t) (m : CarriedMarks s) : CarriedMarks t :=
  carriedMarks_congr (by rw [h.1]) (fun c => (h.2 c).2.1) (fun c => (h.2 c).2.2.1) m

theorem NumbersLeft.ordered {s t : State} (h : NumbersLeft s t) (o : ContextsOrdered s) : ContextsOrdered t :=
  contextsOrdered_congr (fun c => (h.2 c).1) (fun c => (h.2 c).2.2.1) (fun c => (h.2 c).2.2.2) o

theorem modClassCfg_numbers (c : ClassNo) (f : ClassSettings → ClassSettings) (s : State) (d : ClassNo) :
    ((modClassCfg c f s).cls d).nextSeq = (s.cls d).nextSeq ∧ ((modClassCfg c f s).cls d).next = (s.cls d).next ∧
      ((modClassCfg c f s).cls d).held = (s.cls d).held ∧
      ((modClassCfg c f s).cls d).cfg = (if d = c then f (s.cls d).cfg else (s.cls d).cfg) := by
  rw [modClassCfg, modClass_cls]
  split
  · next e => subst e; exact ⟨rfl, rfl, rfl, rfl⟩
  · exact ⟨rfl, rfl, rfl, rfl⟩

theorem applyClass_eq (c : ClassNo) (x : ClassItem) (s : State) : ∃ f, applyClass c x s = modClassCfg c f s := by
  cases x <;> simp only [applyClass] <;> exact ⟨_, rfl⟩

theorem applyClass_marks (c : ClassNo) (x : ClassItem) (s : State) (m : CarriedMarks s) : CarriedMarks (applyClass c x s) := by
  obtain ⟨f, e⟩ := applyClass_eq c x s
  rw [e]
  exact carriedMarks_congr (s := s) rfl (fun d => (modClassCfg_numbers c f s d).1)
    (fun d => (modClassCfg_numbers c f s d).2.1) m

theorem carriedMarks_invariant : StoreInvariant CarriedMarks where
  left h := h.marks
  stores _ := fun _ c => ⟨(restartStores_cls c _).2.2.2.1, (restartStores_cls c _).2.2.2.2.1⟩
  spill := (spillFrame_numbersLeft _ _).marks
  noPath := (dropNoPath_numbersLeft _ _).marks
  place m := by
    rcases placeFragment_numbers _ _ with left | ⟨carried, -⟩
    · exact left.marks m
    · intro clear
      rw [carried] at clear
      cases clear
  admission _ := (offerFrame_numbersLeft _ _ _).marks
  egress _ := (offerEgress_numbersLeft _ _).marks
  matched := id
  arrive _ := id
  perform _ _ := (completeReset_fresh _ _).carriedMarks
  bondCfg := id
  classItems _ m := KeptByRequests.applyItems_kept (fun x s => applyClass_marks _ x s)
    (fun s => (testOffers_storesLeft allPairs s).marks) _ m
  pairUnit _ := id
  notices := id
  stage := id
  entry _ := id
  pend := id
  served _ := id
  forward _ _ m := (offerFrame_numbersLeft _ _ _).marks m
  fresh h := h.carriedMarks
  begins m := by
    obtain ⟨pairs, out, e, -⟩ := beginReset_eq _ _
    rw [e]
    exact m
  marked _ := id
  queue := id

/-- Settles O57: a placement and the collector set the carried flag, and a local restart starts every numbering at 0. -/
theorem carriedMarksKept : Obligations.CarriedMarksKept := fun _ _ => step_kept carriedMarks_invariant.part

/-! ## Quotas and contexts -/

/-- The quotas within their ranges and their sum, and the contexts in order (R110, R117, R119). -/
def ReorderStore (s : State) : Prop := QuotasHeld s ∧ ContextsOrdered s

theorem quotasHeld_congr {s t : State} (cfg : ∀ c : ClassNo, (t.cls c).cfg = (s.cls c).cfg) (q : QuotasHeld s) :
    QuotasHeld t := by
  unfold QuotasHeld at *
  simp only [cfg]
  exact q

theorem SettingsKept.quotas {s t : State} (h : SettingsKept s t) (q : QuotasHeld s) : QuotasHeld t := by
  obtain ⟨-, -, -, -, -, -, -, -, cfg, -⟩ := h
  exact quotasHeld_congr cfg q

theorem NumbersLeft.store {s t : State} (h : NumbersLeft s t) (r : ReorderStore s) : ReorderStore t :=
  ⟨quotasHeld_congr (fun c => (h.2 c).1) r.1, h.ordered r.2⟩

/-- Every value of a validated list is what one of its items is accepted with (R189). -/
theorem validateItems_accepted {α : Type} {check : α → Checked α} {name : α → SettingName} {xs vs : List α}
    {names : List SettingName} (h : validateItems check name xs = .ok (vs, names)) {v : α} (m : v ∈ vs) :
    ∃ x b, check x = .accept v b := by
  induction xs generalizing vs names with
  | nil =>
    simp only [validateItems, Except.ok.injEq, Prod.mk.injEq] at h
    rw [← h.1] at m
    cases m
  | cons x xs ih =>
    unfold validateItems at h
    split at h
    · cases h
    · next w b accepted =>
      split at h
      · cases h
      · next ws _ rest =>
        simp only [Except.ok.injEq, Prod.mk.injEq] at h
        rw [← h.1] at m
        rcases List.mem_cons.1 m with rfl | m
        · exact ⟨x, b, accepted⟩
        · exact ih rest m

theorem mem_lastOfEach {α : Type} {name : α → SettingName} {xs : List α} {v : α} (m : v ∈ lastOfEach name xs) : v ∈ xs := by
  induction xs with
  | nil => exact m
  | cons x xs ih =>
    unfold lastOfEach at m
    split at m
    · exact List.mem_cons_of_mem _ (ih m)
    · rcases List.mem_cons.1 m with rfl | m
      · exact List.mem_cons_self
      · exact List.mem_cons_of_mem _ (ih m)

/-- A quota that class `c` of `s` may take: its own, a raise within the sum, or a lowering while it holds nothing
(R110). -/
def QuotaFits (s : State) (c : ClassNo) (q : Nat) : Prop :=
  q = (s.cls c).cfg.quota ∨ (16 ≤ q ∧ q ≤ 752 ∧
    (((s.cls c).cfg.quota < q ∧ q + otherQuotas s c ≤ 768) ∨ (q < (s.cls c).cfg.quota ∧ (s.cls c).held = [])))

theorem checkClass_quotaFits {s : State} {c : ClassNo} {x : ClassItem} {q : Nat} {b : Bool}
    (h : checkClass s c x = .accept (.quota q) b) : QuotaFits s c q := by
  cases x <;> simp only [checkClass, checkQty, checkEnum] at h
  case quota n =>
    have bounds := KeptByEvents.clampTo_bounds (lo := 16) (hi := 752) (by decide) n
    unfold checkQuota at h
    simp only at h
    split at h
    · next same =>
      simp only [Checked.accept.injEq, ClassItem.quota.injEq] at h
      exact .inl (h.1.symm.trans same)
    · next other =>
      split at h
      · next raise =>
        split at h
        · next within =>
          simp only [Checked.accept.injEq, ClassItem.quota.injEq] at h
          rw [← h.1]
          exact .inr ⟨bounds.1, bounds.2, .inl ⟨raise, within⟩⟩
        · cases h
      · next raise =>
        split at h
        · next empty =>
          simp only [Checked.accept.injEq, ClassItem.quota.injEq] at h
          rw [← h.1]
          exact .inr ⟨bounds.1, bounds.2, .inr ⟨by omega, List.isEmpty_iff.1 empty⟩⟩
        · cases h
  all_goals (try split at h) <;> simp at h

/-- The state while the items of class `c` are applied: its contexts are left, and so is every setting of the others. -/
structure ClassWritten (c : ClassNo) (s t : State) : Prop where
  bond : t.bond = s.bond
  context : ∀ d : ClassNo, (t.cls d).next = (s.cls d).next ∧ (t.cls d).held = (s.cls d).held
  others : ∀ d : ClassNo, d ≠ c → (t.cls d).cfg = (s.cls d).cfg
  quota : QuotaFits s c (t.cls c).cfg.quota

theorem applyClass_written {c : ClassNo} {x : ClassItem} {s t : State} (h : ClassWritten c s t)
    (fits : ∀ q, x = .quota q → QuotaFits s c q) : ClassWritten c s (applyClass c x t) := by
  have quota : ((applyClass c x t).cls c).cfg.quota = (match x with | .quota q => q | _ => (t.cls c).cfg.quota) := by
    cases x <;> simp [applyClass, modClassCfg]
  obtain ⟨f, e⟩ := applyClass_eq c x t
  refine ⟨?_, fun d => ?_, fun d other => ?_, ?_⟩
  · rw [e]
    exact h.bond
  · obtain ⟨-, next, held, -⟩ := modClassCfg_numbers c f t d
    rw [e]
    exact ⟨next.trans (h.context d).1, held.trans (h.context d).2⟩
  · obtain ⟨-, -, -, cfg⟩ := modClassCfg_numbers c f t d
    rw [e, cfg, if_neg other, h.others d other]
  · rw [quota]
    cases x
    case quota q => exact fits q rfl
    all_goals exact h.quota

/-- The quotas and the contexts after a write of class `c` (R110). -/
theorem ClassWritten.store {c : ClassNo} {s t : State} (h : ClassWritten c s t) (r : ReorderStore s) : ReorderStore t := by
  obtain ⟨⟨ranges, sum⟩, ordered⟩ := r
  have quota := h.quota
  refine ⟨⟨fun d => ?_, ?_⟩, fun d => ?_⟩
  · by_cases e : d = c
    · subst e
      rcases quota with same | ⟨low, high, -⟩
      · rw [same]
        exact ranges d
      · exact ⟨low, high⟩
    · rw [h.others d e]
      exact ranges d
  · have classes : ∀ c : ClassNo, c = 0 ∨ c = 1 ∨ c = 2 := by decide
    have others := h.others
    unfold QuotaFits at quota
    rcases classes c with rfl | rfl | rfl <;>
      simp [otherQuotas, allClasses, others] at quota ⊢ <;> omega
  · obtain ⟨near, distinct⟩ := ordered d
    rw [(h.context d).1, (h.context d).2]
    refine ⟨fun f m => ⟨(near f m).1, ?_⟩, distinct⟩
    have lt := (near f m).2
    by_cases e : d = c
    · subst e
      rcases quota with same | ⟨-, -, ⟨raise, -⟩ | ⟨-, empty⟩⟩
      · rwa [same]
      · omega
      · rw [empty] at m
        cases m
    · rwa [h.others d e]

theorem classItems_store {c : ClassNo} {xs vs : List ClassItem} {names : List SettingName} {s : State}
    (checked : validateItems (checkClass s c) (fun x => .cls (className x)) xs = .ok (vs, names)) (r : ReorderStore s) :
    ReorderStore (applyItems (fun x => .cls (className x)) (applyClass c) (fun _ => false) vs s) := by
  have fits : ∀ x ∈ lastOfEach (fun x => .cls (className x)) vs, ∀ q, x = .quota q → QuotaFits s c q := by
    rintro x m q rfl
    obtain ⟨y, b, accepted⟩ := validateItems_accepted checked (mem_lastOfEach m)
    exact checkClass_quotaFits accepted
  have start : ClassWritten c s s := ⟨rfl, fun _ => ⟨rfl, rfl⟩, fun _ _ => rfl, .inl rfl⟩
  rw [applyItems_untested _ _ (fun _ _ => rfl)]
  refine ClassWritten.store (c := c) (s := s) ?_ r
  refine List.foldlRecOn (motive := ClassWritten c s) _ _ start fun t written x m => ?_
  exact applyClass_written written (fits x m)

theorem reorderStore_invariant : StoreInvariant ReorderStore where
  left h r := ⟨SettingsKept.quotas h.settings r.1, h.ordered r.2⟩
  stores r := ⟨quotasHeld_congr (fun c => (restartStores_cls c _).1) r.1, fun c => by
    rw [(restartStores_cls c _).2.2.2.2.2]
    simp⟩
  spill := (spillFrame_numbersLeft _ _).store
  noPath := (dropNoPath_numbersLeft _ _).store
  place r := by
    rcases placeFragment_numbers _ _ with left | ⟨-, left⟩
    · exact left.store r
    · exact ⟨quotasHeld_congr (fun c => (left c).1) r.1,
        contextsOrdered_congr (fun c => (left c).1) (fun c => (left c).2.1) (fun c => (left c).2.2) r.2⟩
  admission _ := (offerFrame_numbersLeft _ _ _).store
  egress _ := (offerEgress_numbersLeft _ _).store
  matched := id
  arrive _ := id
  perform _ _ := ⟨(completeReset_fresh _ _).quotasHeld, (completeReset_fresh _ _).contextsOrdered⟩
  bondCfg := id
  classItems := classItems_store
  pairUnit _ := id
  notices := id
  stage := id
  entry _ := id
  pend := id
  served _ := id
  forward _ _ r := (offerFrame_numbersLeft _ _ _).store r
  fresh h := ⟨h.quotasHeld, h.contextsOrdered⟩
  begins r := by
    obtain ⟨pairs, out, e, -⟩ := beginReset_eq _ _
    rw [e]
    exact r
  marked _ := id
  queue := id

/-- Settles O56: what leaves the numbering leaves the store, and the collector, a local restart and a quota write keep
it. -/
theorem reorderStoreKept : Obligations.ReorderStoreKept := fun _ _ => step_kept reorderStore_invariant.part

end Sys2Proof.Proofs
end

