-- ==== Sys2Proof/Proofs/FrameStores.lean ====
section
/-! PROOF. O58: the frame buffer, the class queues, the egress queue and the sort table through every step; O55 and O7:
what an event that is no request keeps. -/

namespace Sys2Proof.Proofs
open Sys2Proof Sys2Proof.Machine Sys2Proof.Laws

/-! ## One class's frames -/

/-- The frames of a class are within their bounds and its queue stands in order of urgency (R84, R85). -/
structure FramesKept (k : ClassUnit) : Prop where
  queue : ∀ f ∈ k.queue, 1 ≤ f.octets.length ∧ f.octets.length ≤ 1600
  current : ∀ g ∈ k.current, 1 ≤ g.frame.octets.length ∧ g.frame.octets.length ≤ 1600
  urgency : k.queue.Pairwise fun f g => g.urgency ≤ f.urgency

/-- What the invariants of the frame stores say, by its parts. -/
structure FrameStores (s : State) : Prop where
  slots : s.slotsInUse ≤ 128
  frames : ∀ c : ClassNo, FramesKept (s.cls c)
  requests : ∀ r ∈ s.agent.requests, ∀ f ∈ r.trunkFrame, 1 ≤ f.length ∧ f.length ≤ 1600
  egress : EgressBounded s
  table : TableChecked s
  replies : ResetRepliesGone s

theorem frameStores_iff {s : State} : FrameStores s ↔
    BufferBounded s ∧ QueuesByUrgency s ∧ EgressBounded s ∧ TableChecked s ∧ ResetRepliesGone s := by
  constructor
  · intro h
    exact ⟨⟨h.slots, fun c => ⟨(h.frames c).queue, (h.frames c).current⟩, h.requests⟩, fun c => (h.frames c).urgency,
      h.egress, h.table, h.replies⟩
  · rintro ⟨⟨slots, frames, requests⟩, urgency, egress, table, replies⟩
    exact ⟨slots, fun c => ⟨(frames c).1, (frames c).2, urgency c⟩, requests, egress, table, replies⟩

theorem slotsInUse_eq (s : State) : s.slotsInUse = (s.cls 0).holding + (s.cls 1).holding + (s.cls 2).holding := by
  simp [State.slotsInUse, allClasses, add_assoc]

/-- The replies of a RESET-PART are gone where the part is open. -/
theorem resetReplyHeld_eq_false {s : State} : resetReplyHeld s = false ↔
    (∀ c : ClassNo, (∀ f ∈ (s.cls c).queue, f.resetReply = false) ∧ ∀ g ∈ (s.cls c).current, g.frame.resetReply = false) ∧
      ∀ p : PairNo, ∀ e ∈ (s.pair p).queue, e.resetReply = false := by
  have classes : ∀ c : ClassNo, c ∈ allClasses := by decide
  simp only [resetReplyHeld, ClassUnit.holdsResetReply, Bool.or_eq_false_iff, List.any_eq_false, Bool.not_eq_true,
    classes, mem_allPairs, forall_const, Option.any_eq_false, Option.mem_def]

/-- No frame of a class belongs to the reply of a RESET-PART. -/
def RepliesGone (k : ClassUnit) : Prop :=
  (∀ f ∈ k.queue, f.resetReply = false) ∧ ∀ g ∈ k.current, g.frame.resetReply = false

theorem resetRepliesGone_iff {s : State} : ResetRepliesGone s ↔ (s.open → (∀ c : ClassNo, RepliesGone (s.cls c)) ∧
    (∀ p : PairNo, ∀ e ∈ (s.pair p).queue, e.resetReply = false) ∧ ∀ e ∈ s.trunk.egress, e.resetReply = false) := by
  unfold ResetRepliesGone
  rw [resetReplyHeld_eq_false]
  exact forall_congr' fun _ => and_assoc

theorem StoresLeft.open_iff {s t : State} (h : StoresLeft s t) : t.open ↔ s.open := by
  obtain ⟨-, -, -, resets, -⟩ := h.settings
  simp only [State.open, State.taking, resets, h.pending]

theorem StoresLeft.frameStores {s t : State} (h : StoresLeft s t) (k : FrameStores s) : FrameStores t where
  slots := by
    have holding : ∀ c : ClassNo, (t.cls c).holding = (s.cls c).holding := fun c => by
      simp only [ClassUnit.holding, h.frames c]
    rw [slotsInUse_eq]
    simp only [holding]
    exact slotsInUse_eq s ▸ k.slots
  frames c := by
    obtain ⟨queue, current⟩ := h.frames c
    exact ⟨queue ▸ (k.frames c).queue, current ▸ (k.frames c).current, queue ▸ (k.frames c).urgency⟩
  requests r m f e := by
    rcases h.requests r m with m | none
    · exact k.requests r m f e
    · rw [none] at e
      cases e
  egress := h.bounded k.egress
  table := by
    unfold TableChecked
    rw [h.classifier]
    exact k.table
  replies := resetRepliesGone_iff.2 fun isOpen => by
    obtain ⟨classes, pairs, egress⟩ := resetRepliesGone_iff.1 k.replies (h.open_iff.1 isOpen)
    refine ⟨fun c => ?_, fun p e m => ?_, fun e m => (h.egress e m).elim (egress e) id⟩
    · unfold RepliesGone
      rw [(h.frames c).1, (h.frames c).2]
      exact classes c
    · obtain ⟨q, m⟩ := h.queues p e m
      exact pairs q e m

theorem reportReset_frameStores {s : State} (k : FrameStores s) : FrameStores (reportReset s) :=
  (reportReset_aside s).storesLeft.frameStores k

/-! ## The distributor -/

/-- A class whose frames stay within their rules and take no further slot. -/
theorem modClass_frameStores {c : ClassNo} {f : ClassUnit → ClassUnit} {s : State} (k : FrameStores s)
    (frames : FramesKept (f (s.cls c))) (slots : (modClass c f s).slotsInUse ≤ 128)
    (replies : RepliesGone (s.cls c) → s.open → RepliesGone (f (s.cls c))) : FrameStores (modClass c f s) where
  slots := slots
  frames d := by
    rw [modClass_cls]
    split
    · exact frames
    · exact k.frames d
  requests := k.requests
  egress := k.egress
  table := k.table
  replies := resetRepliesGone_iff.2 fun isOpen => by
    obtain ⟨classes, rest⟩ := resetRepliesGone_iff.1 k.replies isOpen
    refine ⟨fun d => ?_, rest⟩
    rw [modClass_cls]
    split
    · exact replies (classes c) isOpen
    · exact classes d

theorem modClass_slots (c : ClassNo) (f : ClassUnit → ClassUnit) (s : State) :
    (modClass c f s).slotsInUse + (s.cls c).holding = s.slotsInUse + (f (s.cls c)).holding := by
  have classes : ∀ c : ClassNo, c = 0 ∨ c = 1 ∨ c = 2 := by decide
  rw [slotsInUse_eq, slotsInUse_eq]
  rcases classes c with rfl | rfl | rfl <;> simp [modClass_cls] <;> omega

theorem modClass_slots_le {n : Nat} {c : ClassNo} {f : ClassUnit → ClassUnit} {s : State}
    (h : s.slotsInUse + (f (s.cls c)).holding ≤ n + (s.cls c).holding) : (modClass c f s).slotsInUse ≤ n := by
  have := modClass_slots c f s
  omega

theorem modClass_frameStores_of_le {c : ClassNo} {f : ClassUnit → ClassUnit} {s : State} (k : FrameStores s)
    (frames : FramesKept (f (s.cls c))) (holding : (f (s.cls c)).holding ≤ (s.cls c).holding)
    (replies : RepliesGone (s.cls c) → RepliesGone (f (s.cls c))) : FrameStores (modClass c f s) :=
  modClass_frameStores k frames (modClass_slots_le (by have := k.slots; omega)) fun r _ => replies r

/-- A class over again with another map, fewer frames or another frame in progress. -/
structure Thinned (k l : ClassUnit) : Prop where
  kept : FramesKept k → FramesKept l
  holding : l.holding ≤ k.holding
  replies : RepliesGone k → RepliesGone l

theorem Thinned.frameStores {c : ClassNo} {f : ClassUnit → ClassUnit} {s : State} (h : Thinned (s.cls c) (f (s.cls c)))
    (k : FrameStores s) : FrameStores (modClass c f s) :=
  modClass_frameStores_of_le k (h.kept (k.frames c)) h.holding h.replies

theorem setDecisionMap_thinned (m : PairMap) (k : ClassUnit) : Thinned k (k.setDecisionMap m) := by
  unfold ClassUnit.setDecisionMap
  split
  · next g e =>
    refine ⟨fun h => ⟨h.queue, ?_, h.urgency⟩, by simp [ClassUnit.holding, e], fun r => ⟨r.1, ?_⟩⟩
    · rintro x ⟨⟩
      exact h.current g e
    · rintro x ⟨⟩
      exact r.2 g e
  · next f fs none e =>
    refine ⟨fun ⟨queue, current, urgency⟩ => ⟨?_, current, ?_⟩, by simp [ClassUnit.holding, e], fun ⟨queue, current⟩ => ⟨?_, current⟩⟩
    · simpa [e] using queue
    · simpa [e] using urgency
    · simpa [e] using queue
  · exact ⟨id, le_rfl, id⟩

theorem Thinned.counted {k l : ClassUnit} (h : Thinned k l) (n : ClassCounters) : Thinned k { l with n := n } :=
  ⟨fun f => ⟨(h.kept f).queue, (h.kept f).current, (h.kept f).urgency⟩, h.holding, h.replies⟩

theorem spillFrame_frameStores {c : ClassNo} {s : State} (k : FrameStores s) : FrameStores (spillFrame c s) := by
  unfold spillFrame
  exact Thinned.frameStores ((setDecisionMap_thinned _ _).counted _) k

theorem dropNoPath_frameStores {c : ClassNo} {s : State} (k : FrameStores s) : FrameStores (dropNoPath c s) := by
  have thinned : Thinned (s.cls c) { s.cls c with
      current := none
      queue := if (s.cls c).current.isSome then (s.cls c).queue else (s.cls c).queue.tail
      n := { (s.cls c).n with noPath := (s.cls c).n.noPath + 1 } } := by
    have sub : (if (s.cls c).current.isSome then (s.cls c).queue else (s.cls c).queue.tail).Sublist (s.cls c).queue := by
      split
      · exact List.Sublist.refl _
      · exact List.tail_sublist _
    refine ⟨fun h => ⟨fun f m => h.queue f (sub.subset m), by simp, h.urgency.sublist sub⟩, ?_, fun r =>
      ⟨fun f m => r.1 f (sub.subset m), by simp⟩⟩
    have := sub.length_le
    simp only [ClassUnit.holding]
    split at this <;> simp_all
  have dropped : FrameStores (modClass c (fun k => { k with
      current := none
      queue := if k.current.isSome then k.queue else k.queue.tail
      n := { k.n with noPath := k.n.noPath + 1 } }) s) := thinned.frameStores k
  unfold dropNoPath
  simp only
  split
  all_goals
    split
    · exact reportReset_frameStores dropped
    · exact dropped

theorem startFrame_thinned (k : ClassUnit) : Thinned k k.startFrame := by
  unfold ClassUnit.startFrame
  split
  · next f fs none e =>
    refine ⟨fun ⟨queue, _, urgency⟩ => ?_, by simp [ClassUnit.holding, none, e], fun ⟨queue, _⟩ => ?_⟩
    · rw [e] at queue urgency
      refine ⟨fun x m => queue x (List.mem_cons_of_mem _ m), ?_, (List.pairwise_cons.1 urgency).2⟩
      rintro g ⟨⟩
      exact queue f List.mem_cons_self
    · rw [e] at queue
      refine ⟨fun x m => queue x (List.mem_cons_of_mem _ m), ?_⟩
      rintro g ⟨⟩
      exact queue f List.mem_cons_self
  · exact ⟨id, le_rfl, id⟩

theorem advance_thinned {k : ClassUnit} {g : InProgress} (e : k.current = some g) (m : Nat) (q : Seq) (n : ClassCounters) :
    Thinned k { k with current := g.advance m, nextSeq := q, n := n } := by
  have from_g : ∀ x ∈ g.advance m, x.frame = g.frame := by
    intro x h
    unfold InProgress.advance at h
    split at h
    · cases h
    · cases h
      rfl
  refine ⟨fun h => ⟨h.queue, fun x mem => ?_, h.urgency⟩, ?_, fun r => ⟨r.1, fun x mem => ?_⟩⟩
  · rw [from_g x mem]
    exact h.current g e
  · simp only [ClassUnit.holding, e]
    split <;> simp
  · rw [from_g x mem]
    exact r.2 g e

theorem setCarried_storesLeft (s : State) : StoresLeft s (setCarried s) :=
  { StoresLeft.refl s with
    settings := (setCarried_follows s).settings
    carried := fun _ => rfl
    marks := fun _ clear => by cases clear }

theorem append_frameStores {p : PairNo} {e : Desc} {s : State} (k : FrameStores s)
    (h : s.open → e.resetReply = false) : FrameStores (append p e s) where
  slots := k.slots
  frames := k.frames
  requests := k.requests
  egress := k.egress
  table := k.table
  replies := resetRepliesGone_iff.2 fun isOpen => by
    obtain ⟨classes, pairs, egress⟩ := resetRepliesGone_iff.1 k.replies isOpen
    refine ⟨classes, fun q d m => ?_, egress⟩
    rw [append, modPair_pair] at m
    split at m
    · rcases List.mem_append.1 m with m | m
      · exact pairs p d m
      · rw [List.mem_singleton.1 m]
        exact h isOpen
    · exact pairs q d m

theorem placeFragment_frameStores {c : ClassNo} {s : State} (k : FrameStores s) : FrameStores (placeFragment c s) := by
  have started : FrameStores (modClass c ClassUnit.startFrame s) := (startFrame_thinned _).frameStores k
  unfold placeFragment
  simp only
  split
  · exact started
  · next g e =>
    split
    · exact started
    · refine append_frameStores ((setCarried_storesLeft _).frameStores
        ((advance_thinned e _ _ _).frameStores (c := c) started)) fun isOpen => ?_
      exact ((resetRepliesGone_iff.1 started.replies isOpen).1 c).2 g e

/-! ## Admission -/

theorem takeSlot_frameStores {c : ClassNo} {f : FrameRec} {s : State} (k : FrameStores s) (room : s.slotsInUse < 128)
    (admissible : Admissible f s) : FrameStores (takeSlot c f s) := by
  obtain ⟨low, high, pending⟩ := admissible
  obtain ⟨queue, current, urgency⟩ := k.frames c
  have inserted : FrameStores (modClass c (fun k => { k with
      queue := insertFrame { f with order := s.nextOrder } k.queue
      n := { k.n with admitted := k.n.admitted + 1 } }) s) := by
    refine modClass_frameStores k ⟨fun x m => ?_, current, insertFrame_urgency _ urgency⟩ ?_ fun r isOpen => ⟨fun x m => ?_, r.2⟩
    · rcases mem_insertFrame.1 m with rfl | m
      · exact ⟨low, high⟩
      · exact queue x m
    · refine modClass_slots_le ?_
      simp only [ClassUnit.holding, insertFrame_length]
      omega
    · rcases mem_insertFrame.1 m with rfl | m
      · by_contra flagged
        exact pending (by simpa using flagged) isOpen.2
      · exact r.1 x m
  exact { inserted with replies := inserted.replies }

theorem countQueueDrop_frameStores {c : ClassNo} {s : State} (k : FrameStores s) : FrameStores (countQueueDrop c s) :=
  ((countClass_storesLeft c _ s).trans (raiseNotice_aside _ _ _).storesLeft).frameStores k

theorem countQueueDrop_slots (c : ClassNo) (s : State) : (countQueueDrop c s).slotsInUse = s.slotsInUse := by
  have left := (countClass_storesLeft c (fun n => { n with queueDrop := n.queueDrop + 1 }) s).frames
  have holding : ∀ d : ClassNo, ((countQueueDrop c s).cls d).holding = (s.cls d).holding := fun d => by
    simp only [countQueueDrop, raiseNotice_cls, ClassUnit.holding, left d]
  simp only [slotsInUse_eq, holding]

theorem offerFrame_frameStores {c : ClassNo} {f : FrameRec} {s : State} (admissible : Admissible f s) (k : FrameStores s) :
    FrameStores (offerFrame c f s) := by
  have refused : FrameStores (if f.resetReply then reportReset (countQueueDrop c s) else countQueueDrop c s) := by
    split
    · exact reportReset_frameStores (countQueueDrop_frameStores k)
    · exact countQueueDrop_frameStores k
  unfold offerFrame
  simp only
  split
  · next room =>
    simp only [Bool.and_eq_true, decide_eq_true_eq] at room
    exact takeSlot_frameStores k room.2 admissible
  · split
    · next victim last =>
      split
      · have shorter : Thinned (s.cls c) { s.cls c with queue := (s.cls c).queue.dropLast } := by
          have sub := List.dropLast_sublist (s.cls c).queue
          refine ⟨fun h => ⟨fun x m => h.queue x (sub.subset m), h.current, h.urgency.sublist sub⟩, ?_, fun r =>
            ⟨fun x m => r.1 x (sub.subset m), r.2⟩⟩
          simp [ClassUnit.holding]
        have dropped : FrameStores (modClass c (fun k => { k with queue := k.queue.dropLast }) s) := shorter.frameStores k
        refine takeSlot_frameStores (countQueueDrop_frameStores dropped) ?_ admissible
        have nonempty : (s.cls c).queue ≠ [] := by
          intro e
          rw [e] at last
          cases last
        have positive := List.length_pos_iff.2 nonempty
        have bound := k.slots
        refine Nat.lt_succ_of_le ((countQueueDrop_slots c _).trans_le (modClass_slots_le ?_))
        simp only [ClassUnit.holding, List.length_dropLast]
        omega
      · exact refused
    · exact refused

/-! ## The trunk port and the sort table -/

theorem offerEgress_frameStores {e : EgressEntry} {s : State} (pending : e.resetReply = true → s.agent.reset ≠ none)
    (k : FrameStores s) : FrameStores (offerEgress e s) := by
  have bounded := offerEgress_bounded e k.egress
  unfold offerEgress at bounded ⊢
  simp only at bounded ⊢
  split at bounded
  · next room =>
    rw [if_pos room]
    refine { k with egress := bounded, replies := resetRepliesGone_iff.2 fun isOpen => ?_ }
    obtain ⟨classes, pairs, egress⟩ := resetRepliesGone_iff.1 k.replies isOpen
    refine ⟨classes, pairs, fun x m => ?_⟩
    rcases List.mem_append.1 m with m | m
    · exact egress x m
    · rw [List.mem_singleton.1 m]
      by_contra flagged
      exact pending (by simpa using flagged) isOpen.2
  · next full =>
    rw [if_neg full]
    split
    · exact reportReset_frameStores ((countTrunk_aside _ s).storesLeft.frameStores k)
    · exact (countTrunk_aside _ s).storesLeft.frameStores k

theorem modEntry_frameStores {i : Fin 32} {f : Entry → Entry} {s : State} (k : FrameStores s)
    (passes : failedCheck i (f (s.classifier.table.get i)).f = none) : FrameStores (modEntry i f s) :=
  { k with
    table := fun j => by
      rw [modEntry_get]
      split
      · next e => rw [e]; exact passes
      · exact k.table j }

theorem applyClass_frameStores (c : ClassNo) (x : ClassItem) (s : State) (k : FrameStores s) :
    FrameStores (applyClass c x s) := by
  obtain ⟨f, e⟩ := applyClass_eq c x s
  rw [e]
  exact Thinned.frameStores ⟨fun h => ⟨h.queue, h.current, h.urgency⟩, le_rfl, id⟩ k

/-! ## The local restart and the resets -/

/-- Everything but the classes and the bond controller's flags is left. -/
structure RestLeft (s t : State) : Prop where
  pairs : t.pairs = s.pairs
  engine : t.engine = s.engine
  settings : SettingsKept s t
  classifier : t.classifier = s.classifier
  egress : t.trunk.egress = s.trunk.egress
  requests : t.agent.requests = s.agent.requests
  pending : t.agent.reset = none ↔ s.agent.reset = none

theorem RestLeft.trans {s t u : State} (h : RestLeft s t) (k : RestLeft t u) : RestLeft s u :=
  ⟨k.pairs.trans h.pairs, k.engine.trans h.engine, SettingsKept_trans h.settings k.settings, k.classifier.trans h.classifier,
    k.egress.trans h.egress, k.requests.trans h.requests, k.pending.trans h.pending⟩

theorem modClass_restLeft {c : ClassNo} {f : ClassUnit → ClassUnit} {s : State}
    (h : (f (s.cls c)).cfg = (s.cls c).cfg) : RestLeft s (modClass c f s) :=
  ⟨rfl, rfl, modClass_settingsKept c f s h, rfl, rfl, rfl, .rfl⟩

theorem reportReset_restLeft (s : State) : RestLeft s (reportReset s) := by
  have left := reportReset_aside s
  refine ⟨left.pairs, ?_, left.settings, left.classifier, left.egress, left.requests, left.pending⟩
  unfold reportReset
  split <;> rfl

theorem restartDistributor_restLeft (c : ClassNo) (s : State) : RestLeft s (restartDistributor c s) := by
  unfold restartDistributor
  split
  · exact modClass_restLeft rfl
  · next g _ =>
    have dropped : RestLeft s (modClass c (fun k => { k with
        nextSeq := 0, current := none, n := { k.n with flushed := k.n.flushed + 1 } }) s) := modClass_restLeft rfl
    simp only
    split
    · exact dropped.trans (reportReset_restLeft _)
    · exact dropped

/-- A local restart's part in the distributor, the collector and the bond controller (R44). -/
theorem restartStores_restLeft (s : State) : RestLeft s (restartStores s) := by
  have distributor := eachClass_collected (R := RestLeft) (f := restartDistributor) RestLeft.trans
    restartDistributor_restLeft s
  have collector := eachClass_collected (R := RestLeft) (f := restartClass) RestLeft.trans (fun c s => modClass_restLeft rfl)
    (eachClass restartDistributor s)
  have whole := distributor.trans collector
  exact { whole with settings := by exact whole.settings }

theorem restartStores_frameStores {s : State} (k : FrameStores s) : FrameStores (restartStores s) := by
  have rest := restartStores_restLeft s
  have classes := fun c => restartStores_cls c s
  have holding : ∀ c : ClassNo, ((restartStores s).cls c).holding ≤ (s.cls c).holding := fun c => by
    obtain ⟨-, queue, current, -⟩ := classes c
    simp [ClassUnit.holding, queue, current]
  exact {
    slots := by
      have bound := k.slots
      have zero := holding 0
      have one := holding 1
      have two := holding 2
      rw [slotsInUse_eq] at bound ⊢
      omega
    frames := fun c => by
      obtain ⟨-, queue, current, -⟩ := classes c
      exact ⟨queue ▸ (k.frames c).queue, by simp [current], queue ▸ (k.frames c).urgency⟩
    requests := rest.requests ▸ k.requests
    egress := by
      unfold EgressBounded
      rw [rest.egress]
      exact k.egress
    table := by
      unfold TableChecked
      rw [rest.classifier]
      exact k.table
    replies := resetRepliesGone_iff.2 fun isOpen => by
      obtain ⟨-, -, -, resets, -⟩ := rest.settings
      have wasOpen : s.open := ⟨by rw [State.taking, ← resets]; exact isOpen.1, rest.pending.1 isOpen.2⟩
      obtain ⟨frames, pairs, egress⟩ := resetRepliesGone_iff.1 k.replies wasOpen
      refine ⟨fun c => ?_, ?_, rest.egress ▸ egress⟩
      · obtain ⟨-, queue, current, -⟩ := classes c
        exact ⟨queue ▸ (frames c).1, by simp [current]⟩
      · simp only [State.pair, rest.pairs]
        exact pairs }

theorem Fresh.frameStores {s : State} (h : Fresh s) : FrameStores s :=
  frameStores_iff.2 ⟨h.bufferBounded, h.queuesByUrgency, h.egressBounded, h.tableChecked, h.resetRepliesGone⟩

theorem pairUnit_frameStores {p : PairNo} {f : PairUnit → PairUnit} {s : State}
    (queue : (f (s.pair p)).queue = (s.pair p).queue) (k : FrameStores s) : FrameStores (modPair p f s) :=
  { k with
    replies := resetRepliesGone_iff.2 fun isOpen => by
      obtain ⟨classes, pairs, egress⟩ := resetRepliesGone_iff.1 k.replies isOpen
      refine ⟨classes, fun q => ?_, egress⟩
      rw [modPair_pair]
      split
      · rw [queue]
        exact pairs p
      · exact pairs q }

theorem served_frameStores {r : Request} {rs : List Request} {s : State} (e : s.agent.requests = r :: rs)
    (k : FrameStores s) : FrameStores { s with agent := { s.agent with requests := rs } } :=
  { k with requests := fun x m => k.requests x (by rw [e]; exact List.mem_cons_of_mem _ m) }

theorem frameStores_invariant : StoreInvariant FrameStores where
  left h := h.frameStores
  stores := restartStores_frameStores
  spill := spillFrame_frameStores
  noPath := dropNoPath_frameStores
  place := placeFragment_frameStores
  admission := offerFrame_frameStores
  egress := offerEgress_frameStores
  matched k := modEntry_frameStores k (k.table _)
  arrive bounds k := { k with
    requests := fun r m => by
      rcases List.mem_append.1 m with m | m
      · exact k.requests r m
      · rw [List.mem_singleton.1 m]
        exact bounds }
  perform _ _ := (completeReset_fresh _ _).frameStores
  bondCfg k := { k with }
  classItems _ k := KeptByRequests.applyItems_kept (fun x s => applyClass_frameStores _ x s)
    (fun s => (testOffers_storesLeft allPairs s).frameStores) _ k
  pairUnit := pairUnit_frameStores
  notices k := { k with }
  stage k := { k with }
  entry passes k := modEntry_frameStores k passes
  pend k := { k with replies := fun isOpen => by cases isOpen.2 }
  served := served_frameStores
  forward e trunk k := by
    have bounds := k.requests _ (by rw [e]; exact List.mem_cons_self) _ trunk
    exact offerFrame_frameStores ⟨bounds.1, bounds.2, fun h => by cases h⟩ (served_frameStores e k)
  fresh h := h.frameStores
  begins {c s} k := by
    obtain ⟨pairs, out, e, -⟩ := beginReset_eq c s
    have held : ({ s.resets.mark c true with last := PhysicalReset.cause c } : ResetProgress).held = true :=
      held_iff.2 ⟨c, (mark_inProgress ..).trans (if_pos rfl)⟩
    rw [e]
    exact { k with replies := fun isOpen => absurd (held.symm.trans isOpen.1) (by decide) }
  marked held k := { k with replies := fun isOpen => absurd (held.symm.trans isOpen.1) (by decide) }
  queue k := { k with }

/-- Settles O58. -/
theorem frameStoresKept : Obligations.FrameStoresKept := fun _ _ stores e =>
  frameStores_iff.1 (step_kept frameStores_invariant.part (frameStores_iff.2 stores) e)

end Sys2Proof.Proofs
end

