-- ==== Sys2Proof/Proofs/EventsKeep.lean ====
section
/-! PROOF. O55 and O7: an event that is no request keeps the settings, and what it brings about after a good fragment is
heard counts no fragment again. -/

namespace Sys2Proof.Proofs
open Sys2Proof Sys2Proof.Machine Sys2Proof.Laws

/-- Every command is taken: it leaves a next state. -/
theorem exec_next (c : Instr) (s : State) : ∃ t, exec c s = .next t := by
  cases c <;> exact ⟨_, rfl⟩

/-- The settings and what each pair has heard are those of `s`, and no RESET-PART is pending. -/
structure Undisturbed (s t : State) : Prop where
  settings : SettingsKept s t
  reset : t.agent.reset = none
  heard : ∀ p : PairNo, (t.pair p).n.fragIn = (s.pair p).n.fragIn ∧ (t.pair p).n.octetIn = (s.pair p).n.octetIn

theorem Follows.undisturbed {r s t : State} (h : Follows s t) (heard : ∀ p : PairNo, (t.pair p).n = (s.pair p).n)
    (u : Undisturbed r s) : Undisturbed r t :=
  ⟨SettingsKept_trans u.settings h.settings, h.reset u.reset, fun p => by rw [heard p]; exact u.heard p⟩

theorem reportReset_pair (s : State) (p : PairNo) : (reportReset s).pair p = s.pair p := by
  simp only [State.pair, (reportReset_aside s).pairs]

theorem dropNoPath_pair (c : ClassNo) (s : State) (p : PairNo) : (dropNoPath c s).pair p = s.pair p := by
  unfold dropNoPath
  extract_lets k flagged t
  split
  · exact reportReset_pair t p
  · rfl

theorem offerFrame_pair (c : ClassNo) (f : FrameRec) (s : State) (p : PairNo) : (offerFrame c f s).pair p = s.pair p := by
  have refused : (if f.resetReply then reportReset (countQueueDrop c s) else countQueueDrop c s).pair p = s.pair p := by
    split
    · exact reportReset_pair (countQueueDrop c s) p
    · rfl
  unfold offerFrame
  simp only
  split
  · rfl
  · split
    · split
      · rfl
      · exact refused
    · exact refused

theorem offerEgress_pair (e : EgressEntry) (s : State) (p : PairNo) : (offerEgress e s).pair p = s.pair p := by
  unfold offerEgress
  simp only
  split
  · rfl
  · split
    · exact reportReset_pair (countTrunk _ s) p
    · rfl

theorem placeFragment_counters (c : ClassNo) (s : State) (p : PairNo) : ((placeFragment c s).pair p).n = (s.pair p).n := by
  unfold placeFragment
  simp only
  split
  · rfl
  · split
    · rfl
    · rw [append, modPair_pair]
      split
      · next same => rw [same]; rfl
      · rfl

theorem modEntry_settingsKept (i : Fin 32) (f : Entry → Nat) (s : State) :
    SettingsKept s (modEntry i (fun e => { e with matched := f e }) s) := by
  refine ⟨rfl, rfl, rfl, rfl, rfl, rfl, rfl, fun _ => rfl, fun _ => rfl, rfl, rfl, rfl, fun _ => ⟨rfl, rfl⟩, fun j => ?_,
    rfl, rfl⟩
  rw [modEntry_get]
  split
  · next e => rw [e]
  · rfl

theorem undisturbed_changes (s : State) : KeptByStoreChanges (Undisturbed s) where
  left h u := ⟨SettingsKept_trans u.settings h.settings, h.pending.2 u.reset, fun p =>
    ⟨(h.heard p).1.trans (u.heard p).1, (h.heard p).2.trans (u.heard p).2⟩⟩
  stores {t} u := by
    have rest := restartStores_restLeft t
    exact ⟨SettingsKept_trans u.settings rest.settings, rest.pending.2 u.reset, fun p => by
      simp only [State.pair, rest.pairs]
      exact u.heard p⟩
  spill := Follows.undisturbed (spillFrame_follows _ _) fun _ => rfl
  noPath := Follows.undisturbed (dropNoPath_follows _ _) fun p => by rw [dropNoPath_pair]
  place := Follows.undisturbed (placeFragment_follows _ _) (placeFragment_counters _ _)
  admission _ := Follows.undisturbed (offerFrame_follows _ _ _) fun p => by rw [offerFrame_pair]
  egress _ := Follows.undisturbed (offerEgress_follows _ _) fun p => by rw [offerEgress_pair]
  matched u := ⟨SettingsKept_trans u.settings (modEntry_settingsKept _ _ _), u.reset, u.heard⟩
  arrive _ u := ⟨u.settings, u.reset, u.heard⟩
  perform pending u := absurd u.reset pending

theorem undisturbed_refl {s : State} (reset : s.agent.reset = none) : Undisturbed s s :=
  ⟨(Follows.refl s).settings, reset, fun _ => ⟨rfl, rfl⟩⟩

/-- The settings are those of `s`, and no RESET-PART is pending. -/
def SettingsStand (s t : State) : Prop := SettingsKept s t ∧ t.agent.reset = none

theorem settingsStand_events (s : State) : KeptByEvents (SettingsStand s) := by
  have from_undisturbed {u v : State} (h : Undisturbed u u → Undisturbed u v) (k : SettingsStand s u) : SettingsStand s v :=
    have v := h (undisturbed_refl k.2)
    ⟨SettingsKept_trans k.1 v.settings, v.reset⟩
  have changes {u : State} := undisturbed_changes u
  refine KeptByStoreChanges.events {
    left := fun h => from_undisturbed (changes.left h)
    stores := from_undisturbed changes.stores
    spill := from_undisturbed changes.spill
    noPath := from_undisturbed changes.noPath
    place := from_undisturbed changes.place
    admission := fun a => from_undisturbed (changes.admission a)
    egress := fun a => from_undisturbed (changes.egress a)
    matched := from_undisturbed changes.matched
    arrive := fun a => from_undisturbed (changes.arrive a)
    perform := fun pending k => absurd k.2 pending }

/-- Settles O55: no operation that the events are made of touches a setting while no RESET-PART is pending. -/
theorem settingsByRequestsAlone : Obligations.SettingsByRequestsAlone := by
  intro c s isOpen event noReset
  obtain ⟨t, e⟩ := exec_next c s
  have hears : Hears (SettingsStand s) := fun p len u k =>
    ⟨SettingsKept_trans k.1 (modPair_settingsKept p _ u rfl), k.2⟩
  exact ⟨t, e, (event_kept (settingsStand_events s) hears event noReset ⟨(Follows.refl s).settings, isOpen.2⟩ e).1⟩

theorem receive_taken {p : PairNo} {s : State} (receives : Receives p s) (len : Nat) (f : State → State) :
    receive p len f s = f (modPair p (PairUnit.heard s.now s.cfg len) s) := by
  unfold receive
  rw [if_neg]
  simpa using receives

/-- Settles O7: the fragment is counted when it is heard, and what it brings about counts none. -/
theorem goodFragmentsCounted : Obligations.GoodFragmentsCounted := by
  intro c p len illFormed s good receives isOpen
  obtain ⟨f, body, kept⟩ := goodFragment_body good
  have heard : Undisturbed (Heard p len s) (f (Heard p len s)) :=
    kept (undisturbed_changes _).events (undisturbed_refl isOpen.2)
  refine ⟨f (Heard p len s), ?_, ?_, ?_, SettingsKept_trans (modPair_settingsKept p _ s rfl) heard.settings⟩
  · rw [body, takeCommand_taking _ isOpen.1]
    exact congrArg _ (receive_taken (s := s.silent) receives len f)
  · rw [(heard.heard p).1, Heard, modPair_pair_same]
    rfl
  · rw [(heard.heard p).2, Heard, modPair_pair_same]
    rfl

end Sys2Proof.Proofs
end

