-- ==== Sys2Proof/Proofs/Coherence.lean ====
section
/-! PROOF. O60: R, the timers and the run of each pair through every step. What the invariant reads of a pair unit is
its course; the moves of the pair state machine give a coherent unit and tell whose run the engine holds. -/

namespace Sys2Proof.Proofs
open Sys2Proof Sys2Proof.Machine Sys2Proof.Laws

/-! ## What the invariant reads -/

/-- The part of a pair unit that its coherence speaks of. -/
def course (u : PairUnit) : PairUnit where
  state := u.state
  rate := u.rate
  supervision := u.supervision
  errTimer := u.errTimer
  settleTimer := u.settleTimer
  aliveTimer := u.aliveTimer
  window := u.window
  idleTimer := u.idleTimer
  offerTimer := u.offerTimer
  haltTimer := u.haltTimer
  proveWanted := u.proveWanted

theorem coherent_course {u : PairUnit} : (course u).Coherent ↔ u.Coherent := Iff.rfl

theorem course_state {u v : PairUnit} (h : course v = course u) : v.state = u.state := by
  have := congrArg PairUnit.state h
  exact this

theorem course_rate {u v : PairUnit} (h : course v = course u) : v.rate = u.rate := by
  have := congrArg PairUnit.rate h
  exact this

theorem runOn_iff {s : State} {p : PairNo} : s.runOn p = true ↔ s.engine.map (·.pair) = some p := by
  unfold State.runOn
  cases s.engine <;> simp

theorem runOn_congr {s t : State} (h : t.engine.map (·.pair) = s.engine.map (·.pair)) (p : PairNo) :
    t.runOn p = s.runOn p := by
  rw [Bool.eq_iff_iff, runOn_iff, runOn_iff, h]

theorem engineLeft_runs {s t : State} (h : EngineLeft s t) : t.engine.map (·.pair) = s.engine.map (·.pair) := by
  have := congrArg (Option.map Prod.fst) h
  rwa [Option.map_map, Option.map_map] at this

theorem runOn_other {s : State} {p q : PairNo} (h : s.runOn p = true) (other : q ≠ p) : s.runOn q = false := by
  rw [runOn_iff] at h
  rw [← Bool.not_eq_true, runOn_iff, h]
  simpa using other.symm

/-- What the invariant reads is left: the course of every pair and whose run the engine holds. -/
structure CourseLeft (s t : State) : Prop where
  pairs : ∀ p : PairNo, course (t.pair p) = course (s.pair p)
  runs : t.engine.map (·.pair) = s.engine.map (·.pair)

theorem CourseLeft.coherent {s t : State} (h : CourseLeft s t) (k : PairsCoherent s) : PairsCoherent t :=
  ⟨fun p => coherent_course.1 (h.pairs p ▸ coherent_course.2 (k.1 p)),
    fun p => by rw [course_state (h.pairs p), runOn_congr h.runs]; exact k.2 p⟩

theorem courseLeft_of_pairs {s t : State} (pairs : t.pairs = s.pairs) (engine : t.engine = s.engine) : CourseLeft s t :=
  ⟨fun p => by rw [State.pair, pairs]; rfl, by rw [engine]⟩

theorem courseLeft_of_same {s t : State} (pairs : ∀ p, t.pair p = s.pair p) (engine : EngineLeft s t) : CourseLeft s t :=
  ⟨fun p => by rw [pairs], engineLeft_runs engine⟩

theorem Collected.courseLeft {c : ClassNo} {s t : State} (h : Collected c s t) : CourseLeft s t :=
  courseLeft_of_pairs h.pairs h.engine

theorem modPair_courseLeft {p : PairNo} {f : PairUnit → PairUnit} {s : State}
    (h : course (f (s.pair p)) = course (s.pair p)) : CourseLeft s (modPair p f s) :=
  ⟨fun q => by
    rw [modPair_pair]
    split
    · next same => rw [same, h]
    · rfl, rfl⟩

theorem append_courseLeft (p : PairNo) (e : Desc) (s : State) : CourseLeft s (append p e s) := modPair_courseLeft rfl

theorem placeFragment_courseLeft (c : ClassNo) (s : State) : CourseLeft s (placeFragment c s) := by
  unfold placeFragment
  simp only
  split
  · exact courseLeft_of_pairs rfl rfl
  · split
    · exact courseLeft_of_pairs rfl rfl
    · have left := append_courseLeft
      exact ⟨fun q => (left _ _ _).pairs q, rfl⟩

theorem cutUnit_course (b : Bool) (u : PairUnit) : course (cutUnit b u) = course u := by
  unfold cutUnit
  split <;> rfl

/-! ## One pair's change -/

/-- One pair has changed, with the engine's run on it if there is one. -/
theorem pairsCoherent_of_pair (p : PairNo) {s t : State} (k : PairsCoherent s)
    (others : ∀ q, q ≠ p → course (t.pair q) = course (s.pair q) ∧ t.runOn q = s.runOn q)
    (unit : (t.pair p).Coherent) (run : (t.pair p).state = .proving ↔ t.runOn p = true) : PairsCoherent t := by
  constructor <;> intro q <;> rcases eq_or_ne q p with rfl | other
  · exact unit
  · exact coherent_course.1 ((others q other).1 ▸ coherent_course.2 (k.1 q))
  · exact run
  · rw [course_state (others q other).1, (others q other).2]
    exact k.2 q

theorem Settled.coherent {u v : PairUnit} (h : Settled u v) (k : u.Coherent) : v.Coherent := by
  obtain ⟨rate, supervision, err, settle, alive, window, idle, offer, halt, prove⟩ := k
  refine ⟨?_, ?_, fun x => ?_, fun x => ?_, fun x => ?_, fun x => ?_, fun x => ?_, fun x => ?_, fun x => ?_, fun x => ?_⟩
  · rw [h.state]
    rcases h.rate with same | ⟨up, range⟩
    · rw [same]; exact rate
    · refine if_neg (fun down => ?_) ▸ range
      rcases up with ⟨a, b⟩ | gated
      · exact down.elim a b
      · rw [window gated] at down
        simp at down
  · rw [h.state]
    rcases h.supervision with same | ⟨serving, heard⟩
    · rw [same]; exact supervision
    · rw [heard, serving]
  · exact h.state.trans ((h.errTimer x).elim err id)
  · exact h.state.trans ((h.settleTimer x).elim settle id)
  · rw [h.state]; exact alive (h.aliveTimer x)
  · exact h.state.trans ((h.window x).elim window id)
  · exact h.state.trans ((h.idleTimer x).elim idle id)
  · exact h.state.trans ((h.offerTimer x).elim offer id)
  · exact h.state.trans ((h.haltTimer x).elim halt id)
  · exact h.state.trans ((h.proveWanted x).elim prove id)

theorem modPair_coherent {p : PairNo} {f : PairUnit → PairUnit} {s : State} (k : PairsCoherent s)
    (unit : (f (s.pair p)).Coherent) (state : (f (s.pair p)).state = (s.pair p).state) : PairsCoherent (modPair p f s) := by
  refine pairsCoherent_of_pair p k (fun q other => ⟨by rw [modPair_pair_other _ _ _ other], rfl⟩) ?_ ?_
  · rwa [modPair_pair_same]
  · rw [modPair_pair_same, state]
    exact k.2 p

/-- R is within the range of a state other than ABSENT and DOWN (R68). -/
def Rated (u : PairUnit) : Prop := 16 ≤ u.rate ∧ u.rate ≤ 16383

theorem coherent_rated {u : PairUnit} (h : u.Coherent) (up : u.state ≠ .absent) (down : u.state ≠ .down) :
    Rated u := by
  have := h.1
  rwa [if_neg (not_or.2 ⟨up, down⟩)] at this

theorem initialRate_rated (u : PairUnit) (n : Nat) : Rated { u with rate := initialRate n } :=
  KeptByEvents.clampTo_bounds (by decide) _

theorem enter_rate (now : Nat) (b : BondSettings) (st : PairState) (u : PairUnit) :
    (PairUnit.enter now b st u).rate = if st = .absent ∨ st = .down then 0 else u.rate := by
  cases st <;> simp [PairUnit.enter, PairUnit.stopWindow, PairUnit.startWindow]
  split <;> rfl

theorem entered_coherent {now : Nat} {b : BondSettings} {st : PairState} {v : PairUnit} (h : v.Entered now b st)
    (rate : if st = .absent ∨ st = .down then v.rate = 0 else Rated v) : v.Coherent := by
  obtain ⟨state, supervision, -, err, settle, alive, halt, window, -, unoffered, unwanted⟩ := h
  refine ⟨?_, ?_, fun x => ?_, fun x => ?_, fun x => ?_, fun x => ?_, fun x => ?_, fun x => ?_, fun x => ?_, fun x => ?_⟩
  · rw [state]
    exact rate
  · rw [state, supervision]
    cases st <;> rfl
  all_goals rw [state]; by_contra other
  · simp [err, other] at x
  · simp [settle, other] at x
  · simp [alive, other] at x
  · simp [window, other] at x
  · simp [(unoffered other).2.2.1] at x
  · simp [(unoffered other).2.1] at x
  · simp [halt, other] at x
  · simp [unwanted other] at x

/-- The entry of a state leaves a coherent unit, whatever the unit was but for its R. -/
theorem enter_coherent (now : Nat) (b : BondSettings) (st : PairState) {u : PairUnit}
    (h : st = .down ∨ st = .absent ∨ Rated u) : (PairUnit.enter now b st u).Coherent := by
  refine entered_coherent (enter_entered now b st u) ?_
  unfold Rated
  rw [enter_rate]
  split
  · rfl
  · next up => exact (h.resolve_left fun d => up (.inr d)).resolve_left fun a => up (.inl a)

/-! ## Moves -/

theorem leavingUnit_rate (st : PairState) (d : Count) (u : PairUnit) : (leavingUnit st d u).rate = u.rate := by
  have cut : ∀ (b : Bool) (u : PairUnit), (cutUnit b u).rate = u.rate := fun b u =>
    course_rate (cutUnit_course b u)
  unfold leavingUnit
  split
  · exact cut true { u with state := st }
  · split
    · exact cut false u
    · rfl

theorem moveTo_coherentUnit (p : PairNo) {st : PairState} (out : st ≠ .serving) {s : State}
    (h : st = .down ∨ st = .absent ∨ Rated (s.pair p)) :
    ((moveTo p st s).pair p).Coherent ∧ ((moveTo p st s).pair p).state = st := by
  obtain ⟨d, unit⟩ := moveTo_pair p out s
  rw [unit]
  refine ⟨enter_coherent _ _ _ (h.imp id (Or.imp id fun r => ?_)), (enter_entered _ _ _ _).1⟩
  unfold Rated
  rwa [leavingUnit_rate]

theorem moveTo_course_other {p q : PairNo} (other : q ≠ p) {st : PairState} (out : st ≠ .serving) (s : State) :
    course ((moveTo p st s).pair q) = course (s.pair q) := by
  obtain ⟨added, unit, -⟩ := moveTo_pair_other other out s
  rw [unit]
  rfl

/-- A pair without a run moves to a state that needs none. -/
theorem moveTo_coherent {p : PairNo} {st : PairState} {s : State} (k : PairsCoherent s) (out : st ≠ .serving)
    (unproving : st ≠ .proving) (idle : s.runOn p = false) (h : st = .down ∨ st = .absent ∨ Rated (s.pair p)) :
    PairsCoherent (moveTo p st s) := by
  obtain ⟨unit, state⟩ := moveTo_coherentUnit p out h
  have runs : ∀ q, (moveTo p st s).runOn q = s.runOn q := runOn_congr (by rw [moveTo_engine])
  refine pairsCoherent_of_pair p k (fun q other => ⟨moveTo_course_other other out s, runs q⟩) unit ?_
  rw [state, runs, idle]
  simpa using unproving

/-- A pair without a run enters a state within its range of R. -/
theorem enterState_coherent {p : PairNo} {st : PairState} {s : State} (k : PairsCoherent s) (unproving : st ≠ .proving)
    (idle : (s.pair p).state ≠ .proving) (h : Rated (s.pair p)) : PairsCoherent (enterState p st s) := by
  refine pairsCoherent_of_pair p k (fun q other => ⟨by rw [enterState, modPair_pair_other _ _ _ other], rfl⟩) ?_ ?_
  · rw [enterState, modPair_pair_same]
    exact enter_coherent _ _ _ (.inr (.inr h))
  · rw [enterState, modPair_pair_same, (enter_entered _ _ _ _).1]
    exact iff_of_false unproving (mt (k.2 p).2 idle)

theorem runOn_eq_false {p : PairNo} {s : State} (k : PairsCoherent s) (h : (s.pair p).state ≠ .proving) :
    s.runOn p = false := by
  rw [← Bool.not_eq_true, ← k.2 p]
  exact h

/-- The state of a pair whose supervision timer runs (R10). -/
theorem coherent_supervised {u : PairUnit} (h : u.Coherent) (x : u.supervision.isSome = true) :
    u.state = .serving ∨ u.state = .quiet ∨ u.state = .waking := by
  obtain ⟨-, supervision, -⟩ := h
  rw [← Option.isSome_map (f := (·.1)), supervision] at x
  cases e : u.state <;> simp [e] at x ⊢

theorem probed_quiet {u : PairUnit} (h : u.Coherent) (x : u.supervision.map (·.1) = some .probe) : u.state = .quiet := by
  obtain ⟨-, supervision, -⟩ := h
  rw [supervision] at x
  cases e : u.state <;> simp [e] at x ⊢

/-- A pair that may move has no run, and an R where the new state needs one. -/
theorem MayMove.idle {p : PairNo} {st : PairState} {s : State} (h : MayMove p st s) (k : PairsCoherent s) :
    s.runOn p = false ∧ (st = .down ∨ st = .absent ∨ Rated (s.pair p)) := by
  obtain ⟨-, -, ⟨target, unrun⟩ | halted | supervised⟩ := h
  · exact ⟨unrun.elim id (runOn_eq_false k), target.imp id (Or.imp id fun up => coherent_rated (k.1 p) up.1 up.2)⟩
  · have state : (s.pair p).state = .halted := by
      obtain ⟨-, -, -, -, -, -, -, -, halt, -⟩ := k.1 p
      exact halt halted
    exact ⟨runOn_eq_false k (by simp [state]), .inr (.inr (coherent_rated (k.1 p) (by simp [state]) (by simp [state])))⟩
  · have state := coherent_supervised (k.1 p) supervised
    exact ⟨runOn_eq_false k (by rcases state with e | e | e <;> simp [e]),
      .inr (.inr (coherent_rated (k.1 p) (by rcases state with e | e | e <;> simp [e])
        (by rcases state with e | e | e <;> simp [e])))⟩

/-- The unit of a pair that a local restart takes, before it enters JOINING (R13, R44 step 1). -/
def restartingUnit (u : PairUnit) : PairUnit :=
  { cutUnit true u with
    n := { (cutUnit true u).n with
      flushed := (cutUnit true u).n.flushed + BitVec.ofNat 32 (cutUnit true u).queue.length }
    queue := [], ctl := [], control := if u.state = .quiet then .wake else u.control }

theorem cutUnit_control (b : Bool) (u : PairUnit) : (cutUnit b u).control = u.control := by
  unfold cutUnit
  split <;> rfl

theorem restartPair_pair (p q : PairNo) (s : State) : (restartPair p s).pair q =
    if q = p ∧ restartsPair (s.pair p).state = true then PairUnit.enter s.now s.cfg .joining (restartingUnit (s.pair p))
    else s.pair q := by
  have cfg : (cutHandover true p s).cfg = s.cfg := by
    obtain ⟨-, -, -, -, -, -, cfg, -⟩ := (cutHandover_storesLeft true p s).settings
    exact cfg
  by_cases restarts : restartsPair (s.pair p).state = true
  · have entered : ∃ r : State, restartPair p s = enterState p .joining r ∧ r.now = s.now ∧ r.cfg = s.cfg ∧
        ∀ q, r.pair q = if q = p then restartingUnit (s.pair p) else s.pair q := by
      unfold restartPair
      simp only [restarts, if_true]
      refine ⟨_, rfl, ?_, ?_, fun q => ?_⟩
      · split <;> simp [Machine.tell]
      · split <;> simp [Machine.tell, cfg]
      · by_cases quiet : (s.pair p).state = .quiet <;> by_cases same : q = p <;>
          simp [quiet, same, Machine.tell, restartingUnit, cutHandover_pair, cutUnit_control, modPair_pair]
    obtain ⟨r, e, now, bond, pairs⟩ := entered
    rw [e, enterState, modPair_pair, now, bond, pairs, pairs, if_pos rfl]
    by_cases same : q = p
    · rw [if_pos same, if_pos ⟨same, restarts⟩]
    · rw [if_neg same, if_neg same, if_neg fun h => same h.1]
  · rw [if_neg fun h => restarts h.2]
    unfold restartPair
    rw [if_neg restarts]

theorem restartPair_engine (p : PairNo) (s : State) : (restartPair p s).engine = s.engine := by
  unfold restartPair
  simp only
  split
  · split <;> simp [enterState, Machine.tell]
  · rfl

theorem restartPair_coherent {p : PairNo} {s : State} (k : PairsCoherent s) : PairsCoherent (restartPair p s) := by
  have runs : ∀ q, (restartPair p s).runOn q = s.runOn q := runOn_congr (by rw [restartPair_engine])
  refine pairsCoherent_of_pair p k (fun q other => ⟨?_, runs q⟩) ?_ ?_
  · rw [restartPair_pair, if_neg fun h => other h.1]
  · rw [restartPair_pair]
    split
    · next h =>
      have state : (s.pair p).state = .serving ∨ (s.pair p).state = .waking ∨ (s.pair p).state = .quiet := by
        simpa [restartsPair, or_assoc] using h.2
      have rated : Rated (s.pair p) :=
        coherent_rated (k.1 p) (by rcases state with e | e | e <;> simp [e]) (by rcases state with e | e | e <;> simp [e])
      refine enter_coherent _ _ _ (.inr (.inr ?_))
      have same : (restartingUnit (s.pair p)).rate = (s.pair p).rate :=
        course_rate (cutUnit_course true (s.pair p))
      unfold Rated
      rwa [same]
    · exact k.1 p
  · rw [restartPair_pair, runs]
    split
    · next h =>
      rw [(enter_entered _ _ _ _).1]
      refine iff_of_false (by simp) (mt (k.2 p).2 fun proving => ?_)
      rw [proving] at h
      simp [restartsPair] at h
    · exact k.2 p

/-! ## The engine -/

theorem modPair_course {p : PairNo} {f : PairUnit → PairUnit} (h : ∀ u, course (f u) = course u)
    (s : State) (q : PairNo) : course ((modPair p f s).pair q) = course (s.pair q) :=
  (modPair_courseLeft (h _)).pairs q

theorem raiseCtl_course (k : Ctl) (p : PairNo) (s : State) (q : PairNo) :
    course ((raiseCtl k p s).pair q) = course (s.pair q) := by
  refine modPair_course (fun u => ?_) s q
  unfold PairUnit.raise
  split <;> rfl

theorem modRecord_course (p : PairNo) (f : ProvingRecord → ProvingRecord) (s : State) (q : PairNo) :
    course ((modRecord p f s).pair q) = course (s.pair q) :=
  modPair_course (f := fun u => { u with record := f u.record }) (fun _ => rfl) s q

theorem raiseEnd_course (p : PairNo) (v : Verdict) (d : Nat) (s : State) (q : PairNo) :
    course ((raiseEnd p v d s).pair q) = course (s.pair q) :=
  (raiseCtl_course _ p _ q).trans (modRecord_course p _ s q)

/-- The engine starts a run on a pair that has an R. -/
theorem startRun_coherent {p : PairNo} {s r : State} (k : PairsCoherent r) (free : r.engine = none)
    (others : ∀ q, q ≠ p → s.pair q = r.pair q) (rated : Rated (s.pair p)) : PairsCoherent (startRun p s) := by
  obtain ⟨unit, state⟩ := moveTo_coherentUnit p (st := .proving) (by simp) (s := s) (.inr (.inr rated))
  have run : ∀ q, (startRun p s).runOn q = true ↔ q = p := fun q => by
    rw [runOn_iff]
    simp [startRun, raiseCtl, eq_comm]
  have left : ∀ q, course ((startRun p s).pair q) = course ((moveTo p .proving s).pair q) := fun q =>
    (raiseCtl_course _ p _ q).trans (modRecord_course p _ (moveTo p .proving s) q)
  refine pairsCoherent_of_pair p k (fun q other => ?_) ?_ ?_
  · refine ⟨?_, ?_⟩
    · rw [left, moveTo_course_other other (by simp), others q other]
    · have unrun : r.runOn q = false := by simp [State.runOn, free]
      rw [unrun, ← Bool.not_eq_true, run]
      exact other
  · exact coherent_course.1 (left p ▸ coherent_course.2 unit)
  · rw [course_state (left p), state, run]
    simp

/-- The pairs of a state are those of one that leaves every course, with pair `p` moved to a state without a run. -/
def MovedOff (p : PairNo) (s t : State) : Prop :=
  ∃ (st : PairState) (r : State), t.pairs = (moveTo p st r).pairs ∧ st ≠ .serving ∧ st ≠ .proving ∧
    ∀ q, course (r.pair q) = course (s.pair q)

/-- A run is taken off the engine and its pair leaves PROVING. -/
theorem unrun_coherent {p : PairNo} {s t : State} (k : PairsCoherent s) (run : s.runOn p = true)
    (moved : MovedOff p s t) : PairsCoherent { t with engine := none } := by
  obtain ⟨st, r, pairs, out, unproving, left⟩ := moved
  have proving := (k.2 p).2 run
  have same : ∀ q, State.pair { t with engine := none } q = (moveTo p st r).pair q := fun q => by
    simp only [State.pair, pairs]
  have idle : ∀ q, State.runOn { t with engine := none } q = false := fun _ => rfl
  have rated : Rated (s.pair p) := coherent_rated (k.1 p) (by simp [proving]) (by simp [proving])
  have rated : Rated (r.pair p) := by
    unfold Rated
    rwa [course_rate (left p)]
  obtain ⟨unit, state⟩ := moveTo_coherentUnit p out (s := r) (.inr (.inr rated))
  refine pairsCoherent_of_pair p k (fun q other => ⟨?_, ?_⟩) ?_ ?_
  · rw [same, moveTo_course_other other out, left]
  · rw [idle, runOn_other run other]
  · rwa [same]
  · rw [same, state, idle]
    simpa using unproving

theorem aborted_movedOff (p : PairNo) (cause : AbortCause) (s : State) : MovedOff p s (aborted p cause s) := by
  unfold aborted
  extract_lets _ marked ended
  refine ⟨cause.stateAfter, ended, rfl, by cases cause <;> decide, by cases cause <;> decide, fun q => ?_⟩
  have left : course (marked.pair q) = course (s.pair q) := modRecord_course p _ _ q
  unfold ended
  split
  · exact (raiseEnd_course p _ _ _ q).trans left
  · exact left

theorem concluded_movedOff (p : PairNo) (s : State) : MovedOff p s (concluded p s) := by
  unfold concluded
  extract_lets r v d judged given ended
  have left : ∀ q, course (ended.pair q) = course (s.pair q) := fun q => ((raiseEnd_course p v _ given q).trans (modPair_course
      (f := fun u => { u with delay := d.getD u.delay }) (fun _ => rfl) judged q)).trans (modRecord_course p _ s q)
  split
  · exact ⟨.joining, ended, rfl, by decide, by decide, left⟩
  · split
    · exact ⟨.barred, ended, rfl, by decide, by decide, left⟩
    · exact ⟨.standby, ended, rfl, by decide, by decide, left⟩

/-! ## The invariant -/

theorem pairsCoherent_stores : KeptByStores PairsCoherent where
  aside h := (courseLeft_of_same (fun p => by rw [State.pair, h.pairs]; rfl) h.engine).coherent
  horizon := (setHorizon_collected ..).courseLeft.coherent
  losses := (testLosses_collected ..).courseLeft.coherent
  collect := (collectData_collected ..).courseLeft.coherent
  hold := (holdExpires_collected ..).courseLeft.coherent
  epoch k := k
  stores {s} := (courseLeft_of_pairs (restartStores_restLeft s).pairs (restartStores_restLeft s).engine).coherent
  asking k := k
  spill k := k
  noPath := (courseLeft_of_same (dropNoPath_pair _ _) (dropNoPath_follows _ _).engine).coherent
  place := (placeFragment_courseLeft _ _).coherent
  admission _ := (courseLeft_of_same (offerFrame_pair _ _ _) (offerFrame_follows _ _ _).engine).coherent
  egress _ := (courseLeft_of_same (offerEgress_pair _ _) (offerEgress_follows _ _).engine).coherent
  sent k := k
  matched k := k
  arrive _ k := k
  perform _ _ := (completeReset_fresh _ _).pairsCoherent

theorem pairsCoherent_events : KeptByEvents PairsCoherent where
  toKeptByStores := pairsCoherent_stores
  unit h k := modPair_coherent k (h.coherent (k.1 _)) h.state
  move h k := moveTo_coherent k h.2.1 h.1 (h.idle k).1 (h.idle k).2
  train {p rate st s} down target k := by
    have idle := runOn_eq_false k (p := p) (by simp [down])
    obtain ⟨unit, state⟩ := moveTo_coherentUnit p (st := st) (by rcases target with e | e <;> simp [e])
      (s := modPair p (PairUnit.lineReport rate) s) (.inr (.inr (by
        rw [modPair_pair_same]; exact initialRate_rated { s.pair p with line := true, trained := rate } rate)))
    have runs : ∀ q, (moveTo p st (modPair p (PairUnit.lineReport rate) s)).runOn q = s.runOn q :=
      runOn_congr (by rw [moveTo_engine]; rfl)
    refine pairsCoherent_of_pair p k (fun q other => ⟨?_, runs q⟩) unit ?_
    · rw [moveTo_course_other other (by rcases target with e | e <;> simp [e]), modPair_pair_other _ _ _ other]
    · rw [state, runs, idle]
      rcases target with e | e <;> simp [e]
  serve {p s} from_ k := enterState_coherent k (by simp) (by rcases from_ with e | e <;> simp [e])
    (coherent_rated (k.1 p) (by rcases from_ with e | e <;> simp [e]) (by rcases from_ with e | e <;> simp [e]))
  sleep {p s} e k := enterState_coherent k (by simp) (by simp [e]) (coherent_rated (k.1 p) (by simp [e]) (by simp [e]))
  wake {p s} from_ k := by
    have e : (s.pair p).state = .quiet := from_.elim id (probed_quiet (k.1 p))
    exact enterState_coherent k (by simp) (by simp [e]) (coherent_rated (k.1 p) (by simp [e]) (by simp [e]))
  restart := restartPair_coherent
  barDown {p s} down k := by
    obtain ⟨t, e, entered⟩ := moveTo_entered p .barred s
    have idle := runOn_eq_false k (p := p) (by simp [down])
    have runs : ∀ q, (modPair p (fun u => { u with rate := initialRate u.trained }) (moveTo p .barred s)).runOn q =
        s.runOn q := runOn_congr (congrArg _ (moveTo_engine p .barred s))
    refine pairsCoherent_of_pair p k (fun q other => ⟨?_, runs q⟩) ?_ ?_
    · rw [modPair_pair_other _ _ _ other, moveTo_course_other other (by simp)]
    · rw [modPair_pair_same]
      exact entered_coherent (st := .barred) entered (initialRate_rated _ _)
    · rw [modPair_pair_same, runs, idle]
      simp [entered.1]
  start {p s} free up down k := startRun_coherent k free (fun _ _ => rfl) (coherent_rated (k.1 p) up down)
  trainRun {p rate s} free down k := startRun_coherent k free (fun q other => modPair_pair_other _ _ _ other) (by
    rw [modPair_pair_same]
    exact initialRate_rated { s.pair p with line := true, trained := rate } rate)
  run {r r' s} engine same k := (CourseLeft.mk (s := s) (t := { s with engine := some r' }) (fun _ => rfl) (by simp [engine, same])).coherent k
  abort {p cause s} h k := unrun_coherent k (h.elim id (k.2 p).1) (aborted_movedOff p cause s)
  conclude {r s} engine k := unrun_coherent k (by simp [State.runOn, engine]) (concluded_movedOff r.pair s)

theorem configured_courseLeft {p : PairNo} {f : PairUnit → PairUnit} {s : State}
    (h : Configured (s.pair p) (f (s.pair p))) : CourseLeft s (modPair p f s) := by
  refine modPair_courseLeft ?_
  unfold Configured at h
  generalize f (s.pair p) = v at h
  rw [h]
  rfl

theorem applyClass_coherent (c : ClassNo) (x : ClassItem) (s : State) (k : PairsCoherent s) :
    PairsCoherent (applyClass c x s) := by
  obtain ⟨f, e⟩ := applyClass_eq c x s
  rw [e]
  exact k

theorem pairsCoherent_requests : KeptByRequests PairsCoherent where
  toKeptByEvents := pairsCoherent_events
  bondCfg := (courseLeft_of_pairs rfl rfl).coherent
  classItems _ k := KeptByRequests.applyItems_kept (fun x s => applyClass_coherent _ x s)
    (fun _ => KeptByEvents.offersTested pairsCoherent_events _) _ k
  pairCfg h := (configured_courseLeft h).coherent
  countersCleared := (modPair_courseLeft rfl).coherent
  notices := (courseLeft_of_pairs rfl rfl).coherent
  stage := (courseLeft_of_pairs rfl rfl).coherent
  entry _ := (courseLeft_of_pairs rfl rfl).coherent
  pend := (courseLeft_of_pairs rfl rfl).coherent
  served _ := (courseLeft_of_pairs rfl rfl).coherent
  forward {r rs f s} _ _ k := by
    have served : CourseLeft s { s with agent := { s.agent with requests := rs } } := courseLeft_of_pairs rfl rfl
    exact (courseLeft_of_same (offerFrame_pair 0 _ _) (offerOwnFrame_follows f false _).engine).coherent (served.coherent k)

theorem pairsCoherent_part : KeptByPart PairsCoherent where
  toKeptByRequests := pairsCoherent_requests
  hears p len s k := by
    have unit := k.1 p
    refine modPair_coherent k ?_ rfl
    unfold PairUnit.Coherent PairUnit.heard at *
    obtain ⟨rate, supervision, rest⟩ := unit
    refine ⟨rate, ?_, rest⟩
    dsimp only
    split
    · next serving => rw [serving]; rfl
    · exact supervision
  fresh := Fresh.pairsCoherent
  begins {c s} k := by
    obtain ⟨pairs, out, e, units⟩ := beginReset_eq c s
    exact (CourseLeft.mk (fun p => by rw [units, cutUnit_course]) (by rw [e])).coherent k
  marked _ k := k
  queue k := k

/-- Settles O60. -/
theorem pairsStayCoherent : Obligations.PairsStayCoherent := fun _ _ k e => step_kept pairsCoherent_part k e

end Sys2Proof.Proofs
end

