-- ==== Sys2Proof/Proofs/Ensuing.lean ====
section
/-! SUPPORT. What follows an event, pair by pair: the next handovers begin, the distributor places fragments and wakes a
QUIET pair, and nothing else touches a pair unit. It stands beside `Follows`, and gives what that relation leaves open:
what becomes of the queue, the pending control set and the prove slot, and which notice sources are not raised. -/

namespace Sys2Proof.Proofs
open Sys2Proof Sys2Proof.Machine Sys2Proof.Laws
open Relation (ReflTransGen)

/-! ## One pair -/

/-- The unit of a pair that begins the handover of a pending control kind (R29, R162). -/
def controlBegun (k : Ctl) (h : Handover) (u : PairUnit) : PairUnit :=
  { u with
    ctl := u.ctl.erase k
    declineOut := if k = .proveDecline then none else u.declineOut
    record := if k = .proveEnd then { u.record with endSlot := none } else u.record
    handover := some h }

/-- The unit of a QUIET pair that has taken a wake request of the distributor (R179). -/
def wokenUnit (now : Nat) (b : BondSettings) (u : PairUnit) : PairUnit :=
  { PairUnit.enter now b .waking u with wakeCause := some .demand, wakeStart := now, control := .wake }

/-- What the octets of a control kind tell of the pair unit (R26, R162). -/
def CarriedBy (k : Ctl) (u : PairUnit) (f : Fragment) : Prop :=
  f.kind = BitVec.ofNat 4 k.code ∧
    (k = .proveDecline → f.payload = [reasonCode (u.declineOut.getD .state)]) ∧
    (k = .proveEnd → f.payload = verdictCode (u.record.endSlot.getD ⟨.aborted, 0⟩).verdict ::
      octets16 (BitVec.ofNat 16 (u.record.endSlot.getD ⟨.aborted, 0⟩).delay))

/-- One change that what follows an event makes to a pair unit. -/
inductive PairStep (now : Nat) (b : BondSettings) : PairUnit → PairUnit → Prop
  | control (u : PairUnit) (k : Ctl) (ks : List Ctl) (h : Handover) (free : u.canBegin = true) (first : u.ctl = k :: ks)
      (frag : CarriedBy k u h.frag) : PairStep now b u (controlBegun k h u)
  | prove (u : PairUnit) (m : ProveMsg) (h : Handover) (free : u.canBegin = true) (slot : u.proveSlot = some m)
      (frag : h.frag.kind = (if m.echo then 11 else 10) ∧ h.frag.seq = BitVec.ofNat 14 m.step.val ∧
        h.frag.payload = m.octets) : PairStep now b u { u with proveSlot := none, handover := some h }
  | data (u : PairUnit) (h : Handover) (free : u.canBegin = true) (kind : h.frag.kind = 0) :
      PairStep now b u { u with handover := some h }
  | place (u : PairUnit) (e : Desc) (serving : u.state = .serving) (awake : u.offering = false) :
      PairStep now b u { u with queue := u.queue ++ [e] }
  | wake (u : PairUnit) (quiet : u.state = .quiet) : PairStep now b u (wokenUnit now b u)

/-- The changes that what follows an event makes to a pair unit. -/
abbrev PairSteps (now : Nat) (b : BondSettings) : PairUnit → PairUnit → Prop := ReflTransGen (PairStep now b)

theorem steady_state {u v : PairUnit} (h : v.steady = u.steady) : v.state = u.state := by
  have := congrArg PairUnit.state h
  exact this

theorem steady_offering {u v : PairUnit} (h : v.steady = u.steady) : v.offering = u.offering := by
  have := congrArg PairUnit.offering h
  exact this

theorem canBegin_iff {u : PairUnit} : u.canBegin = true ↔ u.handover = none ∧ u.line = true ∧
    (u.state = .standby ∨ u.state = .proving ∨ u.state = .halted ∨ u.state = .joining ∨ u.state = .serving ∨
      u.state = .waking) := by
  simp [PairUnit.canBegin, or_assoc, and_assoc]

/-! ## What the changes keep -/

section
variable {now : Nat} {b : BondSettings} {u v : PairUnit}

theorem PairStep.steady (h : PairStep now b u v) (awake : u.state ≠ .quiet) : v.steady = u.steady := by
  cases h with
  | control k ks h free first frag =>
    cases k <;> rfl
  | prove | data | place => rfl
  | wake quiet => exact absurd quiet awake

/-- A property of the units that are not QUIET, and of what waits on them, through the changes. -/
theorem PairSteps.keep (h : PairSteps now b u v) (awake : u.state ≠ .quiet) {P : PairUnit → Prop}
    (step : ∀ x y, x.state = u.state → x.steady = u.steady → PairStep now b x y → P x → P y) (base : P u) :
    v.steady = u.steady ∧ P v := by
  induction h with
  | refl => exact ⟨rfl, base⟩
  | @tail x y _ one ih =>
    obtain ⟨same, holds⟩ := ih
    have state : x.state = u.state := steady_state same
    exact ⟨(one.steady (state ▸ awake)).trans same, step x y state same one holds⟩

theorem PairSteps.steady (h : PairSteps now b u v) (awake : u.state ≠ .quiet) : v.steady = u.steady :=
  (h.keep awake (P := fun _ => True) (fun _ _ _ _ _ _ => trivial) trivial).1

theorem PairSteps.state (h : PairSteps now b u v) (awake : u.state ≠ .quiet) : v.state = u.state :=
  steady_state (h.steady awake)

/-- A unit in DOWN, ABSENT or BARRED begins no handover and takes no fragment (R30, R77). -/
theorem PairSteps.still (h : PairSteps now b u v) (shut : u.state = .down ∨ u.state = .absent ∨ u.state = .barred) :
    v = u := by
  have awake : u.state ≠ .quiet := by rcases shut with e | e | e <;> simp [e]
  refine (h.keep awake (P := fun x => x = u) (fun x y state _ one same => ?_) rfl).2
  subst same
  cases one with
  | control k ks h free | prove m h free | data h free =>
    obtain ⟨-, -, states⟩ := canBegin_iff.1 free
    rcases shut with e | e | e <;> simp [e] at states
  | place e serving => rcases shut with e | e | e <;> simp [e] at serving
  | wake quiet => exact absurd quiet awake

theorem PairSteps.sends {k : Ctl} (h : PairSteps now b u v) (awake : u.state ≠ .quiet) (sent : u.sends k) : v.sends k := by
  refine (h.keep awake (P := PairUnit.sends k) (fun x y state _ one sent => ?_) sent).2
  cases one with
  | control j js h free first frag =>
    obtain ⟨idle, -⟩ := canBegin_iff.1 free
    have waits : k ∈ x.ctl := sent.resolve_right (by simp [idle])
    by_cases same : k = j
    · exact .inr (by simp [controlBegun, frag.1, same])
    · exact .inl ((List.mem_erase_of_ne same).2 waits)
  | prove m h free | data h free =>
    obtain ⟨idle, -⟩ := canBegin_iff.1 free
    exact .inl (sent.resolve_right (by simp [idle]))
  | place => exact sent
  | wake quiet => exact absurd (state ▸ quiet) awake

/-- What waits in the prove slot waits on, or is being handed over. -/
def SlotPut (m : ProveMsg) (x : PairUnit) : Prop :=
  x.proveSlot = some m ∨ ∃ h : Handover, x.handover = some h ∧ h.frag.kind = (if m.echo then 11 else 10) ∧
    h.frag.seq = BitVec.ofNat 14 m.step.val ∧ h.frag.payload = m.octets

theorem PairSteps.slotPut {m : ProveMsg} (h : PairSteps now b u v) (awake : u.state ≠ .quiet) (put : SlotPut m u) :
    SlotPut m v := by
  refine (h.keep awake (P := SlotPut m) (fun x y state _ one put => ?_) put).2
  cases one with
  | control j js h free =>
    obtain ⟨idle, -⟩ := canBegin_iff.1 free
    exact .inl (put.resolve_right (by simp [idle]))
  | prove n h free slot frag =>
    obtain ⟨idle, -⟩ := canBegin_iff.1 free
    have same := put.resolve_right (by simp [idle])
    rw [slot, Option.some.injEq] at same
    subst same
    exact .inr ⟨h, rfl, frag⟩
  | data h free =>
    obtain ⟨idle, -⟩ := canBegin_iff.1 free
    exact .inl (put.resolve_right (by simp [idle]))
  | place => exact put
  | wake quiet => exact absurd (state ▸ quiet) awake

theorem PairSteps.ctl (h : PairSteps now b u v) (awake : u.state ≠ .quiet) : ∀ k ∈ v.ctl, k ∈ u.ctl := by
  refine (h.keep awake (P := fun x => ∀ k ∈ x.ctl, k ∈ u.ctl) (fun x y state _ one within k m => ?_) fun _ => id).2
  cases one with
  | control j js h => exact within k (List.mem_of_mem_erase m)
  | prove | data | place => exact within k m
  | wake quiet => exact absurd (state ▸ quiet) awake

theorem PairSteps.proveSlot (h : PairSteps now b u v) (awake : u.state ≠ .quiet) (empty : u.proveSlot = none) :
    v.proveSlot = none := by
  refine (h.keep awake (P := fun x => x.proveSlot = none) (fun x y state _ one empty => ?_) empty).2
  cases one with
  | prove => rfl
  | control | data | place => exact empty
  | wake quiet => exact absurd (state ▸ quiet) awake

theorem PairSteps.queue (h : PairSteps now b u v) (awake : u.state ≠ .quiet) : u.queue <+: v.queue := by
  refine (h.keep awake (P := fun x => u.queue <+: x.queue) (fun x y state _ one behind => ?_) (List.prefix_refl _)).2
  cases one with
  | control | prove | data => exact behind
  | place e => exact behind.trans (List.prefix_append _ _)
  | wake quiet => exact absurd (state ▸ quiet) awake

/-- No fragment is placed outside SERVING, or on a pair that offers quiet (R77). -/
theorem PairSteps.queue_left (h : PairSteps now b u v) (awake : u.state ≠ .quiet)
    (closed : u.state ≠ .serving ∨ u.offering = true) : v.queue = u.queue := by
  refine (h.keep awake (P := fun x => x.queue = u.queue) (fun x y state same one left => ?_) rfl).2
  cases one with
  | control | prove | data => exact left
  | place e serving open_ =>
    have offering : x.offering = u.offering := steady_offering same
    rcases closed with out | offers
    · exact absurd (state ▸ serving) out
    · rw [← offering, open_] at offers
      cases offers
  | wake quiet => exact absurd (state ▸ quiet) awake

end

/-! ## The state -/

theorem unraised_refl (src : Source) (s : State) : Unraised src s s := ⟨rfl, rfl, rfl⟩

theorem unraised_trans {src : Source} {s t u : State} (h : Unraised src s t) (k : Unraised src t u) : Unraised src s u :=
  ⟨k.1.trans h.1, k.2.1.trans h.2.1, k.2.2.trans h.2.2⟩

theorem unraised_of_source {src : Source} {s t : State} (h : t.source src = s.source src) : Unraised src s t :=
  ⟨by rw [h], by rw [h], by rw [h]⟩

/-- The counters of a class but for those of the distributor's choices and of its admissions (R87, R90, R97-R103). -/
def unplaced (n : ClassCounters) : ClassCounters :=
  { n with admitted := 0, queueDrop := 0, noPath := 0, spill := 0, wakeAsk := 0, fragPlaced := 0 }

/-- The counters of the trunk port but for EGRESS-FULL (R147). -/
def unfilled (n : TrunkCounters) : TrunkCounters := { n with egressFull := 0 }

/-- What follows an event has taken `s` to `t`. -/
structure Ensues (s t : State) : Prop where
  pairs : ∀ p : PairNo, PairSteps s.now s.cfg (s.pair p) (t.pair p)
  now : t.now = s.now
  cfg : t.cfg = s.cfg
  unraised : ∀ src : Source, src ≠ .queueDrop → Unraised src s t
  counters : ∀ c : ClassNo, unplaced (t.cls c).n = unplaced (s.cls c).n
  trunk : unfilled t.trunk.n = unfilled s.trunk.n
  replies : ∀ r : Reply, Output.reply r ∈ t.out → Output.reply r ∈ s.out
  engine : (s.engine.any fun r => r.outstanding) = false → t.engine = s.engine

theorem Ensues.moved {s t : State} (h : Ensues s t) (c : ClassNo) : (t.cls c).n.moved = (s.cls c).n.moved :=
  by
  have same := congrArg ClassCounters.moved (h.counters c)
  exact same

theorem Ensues.trans {s t u : State} (h : Ensues s t) (k : Ensues t u) : Ensues s u where
  pairs p := (h.pairs p).trans (h.now ▸ h.cfg ▸ k.pairs p)
  now := k.now.trans h.now
  cfg := k.cfg.trans h.cfg
  unraised src other := unraised_trans (h.unraised src other) (k.unraised src other)
  counters c := (k.counters c).trans (h.counters c)
  trunk := k.trunk.trans h.trunk
  replies r m := h.replies r (k.replies r m)
  engine idle := by
    have same := h.engine idle
    exact (k.engine (by rw [same]; exact idle)).trans same

/-- A step away from the pair units, the clock, the BOND settings, the notice sources and the classes, that puts out no
reply and counts nothing at the trunk port but EGRESS-FULL. -/
theorem ensues_of_eq {s t : State} (pairs : t.pairs = s.pairs) (now : t.now = s.now) (cfg : t.cfg = s.cfg)
    (notices : t.notices.sources = s.notices.sources) (classes : t.classes = s.classes)
    (trunk : unfilled t.trunk.n = unfilled s.trunk.n := by rfl)
    (replies : ∀ r : Reply, Output.reply r ∈ t.out → Output.reply r ∈ s.out := by exact fun _ => id)
    (engine : (s.engine.any fun r => r.outstanding) = false → t.engine = s.engine := by exact fun _ => rfl) :
    Ensues s t where
  pairs p := by
    have same : t.pair p = s.pair p := congrArg (Vector.get · p) pairs
    rw [same]
  now := now
  cfg := cfg
  unraised src _ := unraised_of_source (by rw [State.source, notices]; rfl)
  counters c := by rw [State.cls, classes]; rfl
  trunk := trunk
  replies := replies
  engine := engine

theorem Ensues.refl (s : State) : Ensues s s := ensues_of_eq rfl rfl rfl rfl rfl

theorem modPair_ensues {p : PairNo} {f : PairUnit → PairUnit} {s : State}
    (h : PairStep s.now s.cfg (s.pair p) (f (s.pair p))) : Ensues s (modPair p f s) where
  pairs q := by
    rw [modPair_pair]
    split
    · next same => rw [same]; exact .single h
    · exact .refl
  now := rfl
  cfg := rfl
  unraised src _ := unraised_refl src s
  counters _ := rfl
  trunk := rfl
  replies _ := id
  engine _ := rfl

theorem modClass_ensues {c : ClassNo} {f : ClassUnit → ClassUnit} {s : State}
    (h : unplaced (f (s.cls c)).n = unplaced (s.cls c).n) : Ensues s (modClass c f s) :=
  { Ensues.refl s with
    counters := fun d => by
      rw [modClass_cls]
      split
      · next same => rw [same]; exact h
      · rfl }

theorem emit_ensues {o : Output} (unspoken : ∀ r : Reply, o ≠ .reply r) (s : State) : Ensues s (emit o s) :=
  ensues_of_eq rfl rfl rfl rfl rfl rfl fun r m =>
    (List.mem_append.1 m).resolve_right fun own => unspoken r (List.mem_singleton.1 own).symm

theorem reportReset_ensues (s : State) : Ensues s (reportReset s) := by
  unfold reportReset
  split <;> exact ensues_of_eq rfl rfl rfl rfl rfl

theorem queueDrop_ensues (a : NoticeArg) (s : State) : Ensues s (raiseNotice .queueDrop a s) :=
  { Ensues.refl s with unraised := fun _ other => raiseNotice_unraised _ _ _ s other }

theorem clearDue_ensues (src : Source) (s : State) : Ensues s (modSource src (fun u => { u with due := false }) s) :=
  { Ensues.refl s with
    unraised := fun x _ => by
      unfold Unraised
      rw [modSource_source]
      split
      · next same => rw [same]; exact ⟨rfl, rfl, rfl⟩
      · exact ⟨rfl, rfl, rfl⟩ }

/-! ## The pairs' choices -/

theorem patternStarts_ensues (p : PairNo) (s : State) : Ensues s (patternStarts p s) := by
  unfold patternStarts
  split
  · next r run =>
    split
    · next pattern =>
      refine ensues_of_eq rfl rfl rfl rfl rfl (engine := fun idle => ?_)
      simp only [Bool.and_eq_true] at pattern
      simp [run, pattern.2] at idle
    · exact .refl s
  · exact .refl s

theorem ctlFragment_carriedBy (s : State) (p : PairNo) (k : Ctl) : CarriedBy k (s.pair p) (ctlFragment s p k) := by
  refine ⟨rfl, ?_, ?_⟩ <;> rintro rfl <;> rfl

theorem beginCtl_eq (p : PairNo) (k : Ctl) (s : State) : ∃ h : Handover, h.frag = ctlFragment s p k ∧
    beginCtl p k s = emit (.handover p h) (modPair p (controlBegun k h) s) := by
  refine ⟨{ frag := ctlFragment s p k, check := (ctlFragment s p k).check }, rfl, ?_⟩
  unfold beginCtl startHandover
  simp only [modPair_modPair]
  rfl

theorem beginProve_eq (p : PairNo) (m : ProveMsg) (s : State) : ∃ h : Handover, h.frag = proveFragment s m ∧
    beginProve p m s = (if m.echo then id else patternStarts p)
      (emit (.handover p h) (modPair p (fun u => { u with proveSlot := none, handover := some h }) s)) := by
  refine ⟨{ frag := proveFragment s m, check := (proveFragment s m).check }, rfl, ?_⟩
  unfold beginProve startHandover
  simp only [modPair_modPair]
  split <;> rfl

theorem chooseHandover_ensues (p : PairNo) (s : State) : Ensues s (chooseHandover p s) := by
  unfold chooseHandover
  simp only
  split
  · next free =>
    split
    · next _ _ k ks first =>
      obtain ⟨h, frag, e⟩ := beginCtl_eq p k s
      rw [e]
      refine (modPair_ensues (.control _ k ks h free first ?_)).trans (emit_ensues (by simp) _)
      rw [frag]
      exact ctlFragment_carriedBy s p k
    · next _ _ m _ slot =>
      obtain ⟨h, frag, e⟩ := beginProve_eq p m s
      rw [e]
      have begun : Ensues s (emit (.handover p h)
          (modPair p (fun u => { u with proveSlot := none, handover := some h }) s)) := by
        refine (modPair_ensues (.prove _ m h free slot ?_)).trans (emit_ensues (by simp) _)
        rw [frag]
        exact ⟨rfl, rfl, rfl⟩
      split
      · exact begun
      · exact begun.trans (patternStarts_ensues p _)
    · split
      · exact (modPair_ensues (.data _ _ free rfl)).trans (emit_ensues (by simp) _)
      · exact .refl s
    · exact .refl s
  · exact .refl s

theorem eachPair_ensues {f : PairNo → State → State} (h : ∀ p s, Ensues s (f p s)) (ps : List PairNo) (s : State) :
    Ensues s (eachPair ps f s) := by
  unfold eachPair
  induction ps generalizing s with
  | nil => exact .refl s
  | cons p ps ih => exact (h p s).trans (ih _)

theorem chooseHandovers_ensues (s : State) : Ensues s (chooseHandovers s) := eachPair_ensues chooseHandover_ensues _ s

/-! ## The distributor -/

theorem takeSlot_ensues (c : ClassNo) (f : FrameRec) (s : State) : Ensues s (takeSlot c f s) :=
  (modClass_ensues (f := fun k => { k with
    queue := insertFrame { f with order := s.nextOrder } k.queue
    n := { k.n with admitted := k.n.admitted + 1 } }) rfl).trans (ensues_of_eq rfl rfl rfl rfl rfl)

theorem countQueueDrop_ensues (c : ClassNo) (s : State) : Ensues s (countQueueDrop c s) :=
  (modClass_ensues rfl).trans (queueDrop_ensues _ _)

theorem offerFrame_ensues (c : ClassNo) (f : FrameRec) (s : State) : Ensues s (offerFrame c f s) := by
  have dropped : Ensues s (if f.resetReply then reportReset (countQueueDrop c s) else countQueueDrop c s) := by
    split
    · exact (countQueueDrop_ensues c s).trans (reportReset_ensues _)
    · exact countQueueDrop_ensues c s
  unfold offerFrame
  simp only
  split
  · exact takeSlot_ensues c f s
  · split
    · split
      · exact ((modClass_ensues rfl).trans (countQueueDrop_ensues c _)).trans (takeSlot_ensues c f _)
      · exact dropped
    · exact dropped

theorem wakeRequest_ensues (p : PairNo) (s : State) : Ensues s (wakeRequest p s) := by
  unfold wakeRequest
  split
  · next quiet =>
    have woken : enterWaking p .demand s = emit (.control p .wake) (modPair p (wokenUnit s.now s.cfg) s) := by
      simp only [enterWaking, Machine.tell, enterState, modPair_modPair]
      rfl
    rw [woken]
    exact (modPair_ensues (.wake _ quiet)).trans (emit_ensues (by simp) _)
  · exact .refl s

theorem demandWake_ensues (s : State) : Ensues s (demandWake s) := by
  unfold demandWake
  split
  · split
    · exact wakeRequest_ensues _ s
    · exact .refl s
  · exact .refl s

theorem askWake_ensues (c : ClassNo) (m : PairMap) (s : State) : Ensues s (askWake c m s) := by
  unfold askWake
  split
  · exact .refl s
  · split
    · exact (modClass_ensues rfl).trans (wakeRequest_ensues _ _)
    · exact .refl s

theorem spillFrame_ensues (c : ClassNo) (s : State) : Ensues s (spillFrame c s) := by
  unfold spillFrame
  refine modClass_ensues ?_
  unfold ClassUnit.setDecisionMap
  split <;> rfl

theorem dropNoPath_ensues (c : ClassNo) (s : State) : Ensues s (dropNoPath c s) := by
  unfold dropNoPath
  extract_lets k flagged t
  have dropped : Ensues s t := modClass_ensues rfl
  split
  · exact dropped.trans (reportReset_ensues t)
  · exact dropped

theorem pathDecision_ensues (n : Nat) (c : ClassNo) (s : State) : Ensues s (pathDecision n c s).2 := by
  induction n generalizing s with
  | zero => exact .refl s
  | succ n ih =>
    unfold pathDecision
    split
    · exact .refl s
    · split
      · exact .refl s
      · split
        · exact .refl s
        · split
          · exact askWake_ensues c _ s
          · split
            · exact (spillFrame_ensues c s).trans (ih _)
            · exact (dropNoPath_ensues c s).trans (ih _)

theorem append_ensues {p : PairNo} {e : Desc} {s : State} (fits : eligible s e.allowed p = true) :
    Ensues s (append p e s) := by
  simp only [eligible, Bool.and_eq_true, decide_eq_true_eq, Bool.not_eq_true'] at fits
  obtain ⟨⟨⟨serving, awake⟩, -⟩, -⟩ := fits
  exact modPair_ensues (.place _ e serving awake)

theorem placeFragment_ensues (c : ClassNo) (s : State) : Ensues s (placeFragment c s) := by
  have started : Ensues s (modClass c ClassUnit.startFrame s) := by
    refine modClass_ensues ?_
    unfold ClassUnit.startFrame
    split <;> rfl
  unfold placeFragment
  simp only
  split
  · exact started
  · next g _ =>
    split
    · exact started
    · next p chosen =>
      refine (started.trans ?_).trans (append_ensues ?_)
      · exact (modClass_ensues (f := fun k => { k with
          current := g.advance (g.descriptor c ((modClass c ClassUnit.startFrame s).cls c).nextSeq).payload.length
          nextSeq := k.nextSeq + 1
          n := { k.n with fragPlaced := k.n.fragPlaced + 1 } }) rfl).trans (ensues_of_eq rfl rfl rfl rfl rfl)
      · exact choosePair_eligible chosen

theorem selectFrom_ensues (cs : List ClassNo) (s : State) : Ensues s (selectFrom cs s).2 := by
  induction cs generalizing s with
  | nil => exact .refl s
  | cons c cs ih =>
    unfold selectFrom
    have decided := pathDecision_ensues (decisionsOf (s.cls c)) c s
    split
    · next t e => rw [e] at decided; exact decided.trans (placeFragment_ensues c t)
    · next t e => rw [e] at decided; exact decided.trans (ih t)

theorem selectUpTo_ensues (n : Nat) (s : State) : Ensues s (selectUpTo n s) := by
  induction n generalizing s with
  | zero => exact .refl s
  | succ n ih =>
    unfold selectUpTo
    split
    · have selected := selectFrom_ensues (classOrder s.cfg.classOrder) s
      split
      · next t e => rw [e] at selected; exact (selected.trans (demandWake_ensues t)).trans (ih _)
      · next t e => rw [e] at selected; exact selected.trans (demandWake_ensues t)
    · exact .refl s

theorem distribute_ensues (s : State) : Ensues s (distribute s) :=
  (demandWake_ensues s).trans (selectUpTo_ensues _ _)

/-! ## The notice sender and the trunk port -/

theorem countEgressFull_ensues (s : State) :
    Ensues s (countTrunk (fun n => { n with egressFull := n.egressFull + 1 }) s) := ensues_of_eq rfl rfl rfl rfl rfl

theorem offerEgress_ensues (e : EgressEntry) (s : State) : Ensues s (offerEgress e s) := by
  unfold offerEgress
  simp only
  split
  · exact ensues_of_eq rfl rfl rfl rfl rfl
  · split
    · exact (countEgressFull_ensues s).trans (reportReset_ensues _)
    · exact countEgressFull_ensues s

theorem sendNotice_ensues (src : Source) (d : Addr) (s : State) : Ensues s (sendNotice src d s) := by
  unfold sendNotice
  extract_lets f cleared numbered sent
  have formed : Ensues s sent :=
    ((clearDue_ensues src s).trans (ensues_of_eq (t := { cleared with notices := { cleared.notices with
      number := cleared.notices.number + 1 } }) rfl rfl rfl rfl rfl)).trans (emit_ensues (o := .notice src f) (by simp) _)
  split
  · exact formed.trans (offerEgress_ensues _ _)
  · exact (formed.trans (offerFrame_ensues _ _ _)).trans (distribute_ensues _)

theorem sendUpTo_ensues (n : Nat) (s : State) : Ensues s (sendUpTo n s) := by
  induction n generalizing s with
  | zero => exact .refl s
  | succ n ih =>
    unfold sendUpTo
    split
    · exact (sendNotice_ensues _ _ s).trans (ih _)
    · exact .refl s

theorem beginSend_ensues (s : State) : Ensues s (beginSend s) := by
  unfold beginSend
  split
  · exact .refl s
  · next e _ _ =>
    split
    · exact (ensues_of_eq (s := s) (t := { s with trunk := { s.trunk with sending := true } }) rfl rfl rfl rfl rfl).trans
        (emit_ensues (o := .trunkSend e.frame) (by simp) _)
    · exact .refl s

theorem finish_ensues {s : State} (h : s.agent.reset = none) : Ensues s (finish s) := by
  have sent : Ensues s (beginSend (chooseHandovers (sendNotices s))) :=
    ((sendUpTo_ensues 12 s).trans (chooseHandovers_ensues _)).trans (beginSend_ensues _)
  have noReset : (beginSend (chooseHandovers (sendNotices s))).agent.reset = none :=
    (((sendNotices_follows s).trans (chooseHandovers_follows _)).trans (beginSend_follows _)).reset h
  rw [finish, checkReset_none noReset]
  exact sent

theorem settle_ensues {s : State} (h : s.agent.reset = none) : Ensues s (settle s) := by
  have noReset : (distribute (chooseHandovers s)).agent.reset = none :=
    ((chooseHandovers_follows s).trans (distribute_follows _)).reset h
  exact ((chooseHandovers_ensues s).trans (distribute_ensues _)).trans (finish_ensues noReset)

end Sys2Proof.Proofs
end

