-- ==== Sys2Proof/Proofs/OnePair.lean ====
section
/-! PROOF. The commands that touch one pair unit at most: O1, O3, O8, O9, O18, O24, O28, O31 and O35. -/

namespace Sys2Proof.Proofs
open Sys2Proof Sys2Proof.Machine Sys2Proof.Laws

/-! ## Commands taken -/

/-- Settles O1. -/
theorem stepTakesFront : Obligations.StepTakesFront := by
  intro c s rest pending
  unfold step
  rw [pending]

/-- No command but the physical resets is taken while a physical reset is in progress (R194). -/
theorem exec_held {c : Instr} {s : State} (h : isResetCommand c = false) (held : s.resets.held = true) :
    exec c s = .next s.silent := by
  cases c <;> simp only [isResetCommand, Bool.true_eq_false] at h <;>
    exact congrArg Host.Outcome.next (if_pos (c := s.silent.resets.held = true) held)

theorem takeCommand_expire {tm : State → Option Timer} {f : State → State} {s : State} (h : s.taking) :
    takeCommand (fun s => expire (tm s) f s) s = .next (expire (tm s.silent) f s.silent) := takeCommand_taking _ h

theorem takeCommand_idle {f : State → State} {s : State} (h : f s.silent = s.silent) :
    takeCommand f s = .next s.silent := by
  change Host.Outcome.next (if s.silent.resets.held then s.silent else f s.silent) = _
  rw [h, ite_self]

theorem exec_stopped {c : Instr} {s : State} (h : expiryTimer s c = some none) : exec c s = .next s.silent := by
  have stopped : ∀ {tm : State → Option Timer} {f : State → State}, tm s.silent = none →
      takeCommand (fun s => expire (tm s) f s) s = .next s.silent := fun none =>
    takeCommand_idle (by simp only [none]; rfl)
  cases c <;> simp only [expiryTimer, reduceCtorEq, Option.some.injEq] at h
  case gateWindowEnd p =>
    change execGateWindowEnd p s = _
    refine takeCommand_idle ?_
    have none : (s.silent.pair p).window = none := h
    simp only [none]
  case answerTimerExpiry =>
    change execAnswerTimerExpiry s = _
    refine takeCommand_idle ?_
    split
    · rfl
    · next r engine =>
      have none : r.answerTimer = none := by
        rw [show s.engine = some r from engine] at h
        exact h
      rw [none]
      rfl
  case stepTimerExpiry =>
    change execStepTimerExpiry s = _
    refine takeCommand_idle ?_
    split
    · rfl
    · next r engine =>
      have none : r.stepTimer = none := by
        rw [show s.engine = some r from engine] at h
        exact h
      rw [none]
      rfl
  case supervisionExpiry p => exact stopped (tm := fun s => (s.pair p).supervisionAs .heard) h
  case errorPeriodEnd p => exact stopped (tm := fun s => (s.pair p).errTimer) h
  case settleTimerExpiry p => exact stopped (tm := fun s => (s.pair p).settleTimer) h
  case aliveTimerExpiry p => exact stopped (tm := fun s => (s.pair p).aliveTimer) h
  case haltTimerExpiry p => exact stopped (tm := fun s => (s.pair p).haltTimer) h
  case holdTimerExpiry c => exact stopped (tm := fun s => (s.cls c).hold) h
  case idleTimerExpiry p => exact stopped (tm := fun s => (s.pair p).idleTimer) h
  case offerTimerExpiry p => exact stopped (tm := fun s => (s.pair p).offerTimer) h
  case askTimerExpiry => exact stopped (tm := fun s => s.bond.askTimer) h
  case probeTimerExpiry p => exact stopped (tm := fun s => (s.pair p).supervisionAs .probe) h
  case wakeTimeout p => exact stopped (tm := fun s => (s.pair p).supervisionAs .wakeTimeout) h
  case resetWaitExpiry => exact stopped (tm := fun s => s.agent.reset.map (·.wait)) h

/-- Settles O3. -/
theorem nothingTaken : Obligations.NothingTaken := by
  intro c s
  refine ⟨fun held event => exec_held event held, exec_stopped, fun p shut what => ?_⟩
  · rcases what with rfl | good
    · refine takeCommand_idle (f := damaged p) ?_
      unfold damaged
      rcases shut with e | e
      · rw [show (s.silent.pair p).state = .absent from e]
      · rw [show (s.silent.pair p).state = .down from e]
    · obtain ⟨⟨q, len, b⟩, fragment, rfl⟩ := Option.map_eq_some_iff.1 good
      obtain ⟨f, body, -⟩ := goodFragment_body fragment
      rw [body]
      refine takeCommand_idle ?_
      unfold receive
      rw [if_pos]
      change (s.pair q).state = .absent ∨ (s.pair q).state = .down at shut
      change (decide ((s.pair q).state = .absent) || decide ((s.pair q).state = .down)) = true
      simpa using shut

/-! ## Good fragments -/

/-- A good fragment on a pair that receives is heard and then taken (R5). -/
theorem takeCommand_receive {p : PairNo} {s : State} (taking : s.taking) (receives : Receives p s) (len : Nat)
    (f : State → State) : takeCommand (receive p len f) s = .next (f (Heard p len s)) := by
  rw [takeCommand_taking _ taking]
  exact congrArg _ (receive_taken (s := s.silent) receives len f)

theorem roleOf_eq_none {o : Octet} (h : 1 < o.toNat) : roleOf o = none := by
  unfold roleOf
  rw [if_neg (by rintro rfl; simp at h), if_neg (by rintro rfl; simp at h)]

theorem pairOf_eq_none {o : Octet} (h : 7 < o.toNat) : pairOf o = none := by
  unfold pairOf
  rw [dif_neg (by omega)]

theorem classOf_eq_none {c : BitVec 2} (h : c = 3) : classOf c = none := by
  subst h
  rfl

theorem stepOf_eq_none {q : Seq} (h : 15 < q.toNat) : stepOf q = none := by
  unfold stepOf
  rw [dif_neg (by omega)]

theorem reasonOf_eq_none {o : Octet} (h : 2 < o.toNat) : reasonOf o = none := by
  unfold reasonOf
  rw [if_neg (by rintro rfl; simp at h), if_neg (by rintro rfl; simp at h), if_neg (by rintro rfl; simp at h)]

theorem verdictOf_eq_none {o : Octet} (h : 3 < o.toNat) : verdictOf o = none := by
  unfold verdictOf
  rw [if_neg (by rintro rfl; simp at h), if_neg (by rintro rfl; simp at h), if_neg (by rintro rfl; simp at h),
    if_neg (by rintro rfl; simp at h)]

theorem aliveFormed_iff {a : AliveFields} :
    aliveFormed a = true ↔ a.h0.toNat ≤ 16383 ∧ a.h1.toNat ≤ 16383 ∧ a.h2.toNat ≤ 16383 := by
  simp only [aliveFormed, allClasses, aliveHorizons, List.all_cons, List.all_nil, Bool.and_true, Bool.and_eq_true]
  exact ⟨fun ⟨h0, h1, h2⟩ => ⟨of_decide_eq_true h0, of_decide_eq_true h1, of_decide_eq_true h2⟩,
    fun ⟨h0, h1, h2⟩ => ⟨decide_eq_true h0, decide_eq_true h1, decide_eq_true h2⟩⟩

/-- An ill-formed fragment is counted BAD-FIELD (R26). -/
theorem exec_illFormed {c : Instr} {p : PairNo} {len : Nat} {s : State} (taking : s.taking) (receives : Receives p s)
    (good : goodFragment c = some (p, len, true)) : exec c s = .next (countBadField p (Heard p len s)) := by
  have taken := takeCommand_receive taking receives
  cases c <;> simp only [goodFragment, Option.some.injEq, Prod.mk.injEq, reduceCtorEq, Bool.false_eq_true, and_false,
    Bool.or_eq_true, decide_eq_true_eq, ne_eq] at good <;> obtain ⟨rfl, rfl, bad⟩ := good
  case data p f =>
    refine (taken _ _).trans ?_
    rw [classOf_eq_none bad]
  case join p h j =>
    refine (taken _ _).trans ?_
    rcases bad with (len | role) | pair
    · split
      · rw [if_pos len]
      · rfl
    · rw [roleOf_eq_none role]
    · rw [pairOf_eq_none pair]
      split <;> first | rfl | contradiction
  case alive p h a =>
    refine (taken _ _).trans ?_
    rw [if_pos]
    rw [Bool.or_eq_true, decide_eq_true_eq, Bool.not_eq_true', ← Bool.not_eq_true, aliveFormed_iff]
    omega
  case proveDecline p h r =>
    refine (taken _ _).trans ?_
    rcases bad with len | code
    · split
      · rw [if_pos len]
      · rfl
    · rw [reasonOf_eq_none code]
  case proveEnd p h e =>
    refine (taken _ _).trans ?_
    rcases bad with len | code
    · split
      · rw [if_pos len]
      · rfl
    · rw [verdictOf_eq_none code]
  case provePattern p f =>
    refine (taken _ _).trans ?_
    rw [stepOf_eq_none bad]
  case proveEcho p f =>
    refine (taken _ _).trans ?_
    rw [stepOf_eq_none bad]
  all_goals
    refine (taken _ _).trans ?_
    rw [if_pos bad]

theorem pairOf_of_le {o : Octet} (h : o.toNat ≤ 7) : ∃ p : PairNo, pairOf o = some p := by
  unfold pairOf
  rw [dif_pos (by omega)]
  exact ⟨_, rfl⟩

theorem roleOf_roleCode (r : Role) : roleOf (roleCode r) = some r := by cases r <;> rfl

theorem stepOf_of_le {q : Seq} (h : q.toNat ≤ 15) : ∃ k : Fin 16, stepOf q = some k ∧ k.val = q.toNat := by
  unfold stepOf
  rw [dif_pos (by omega)]
  exact ⟨_, rfl, rfl⟩

theorem octet_cases {o : Octet} {n : Nat} (h : o.toNat = n) : o = BitVec.ofNat 8 n :=
  BitVec.eq_of_toNat_eq (by rw [h, BitVec.toNat_ofNat, Nat.mod_eq_of_lt (h ▸ o.isLt)])

theorem reasonOf_of_le {o : Octet} (h : o.toNat ≤ 2) : ∃ r : DeclineReason, reasonOf o = some r := by
  have cases : o.toNat = 0 ∨ o.toNat = 1 ∨ o.toNat = 2 := by omega
  rcases cases with e | e | e <;> rw [octet_cases e] <;> exact ⟨_, rfl⟩

theorem verdictOf_of_le {o : Octet} (h : o.toNat ≤ 3) : ∃ v : Verdict, verdictOf o = some v ∧ o = verdictCode v := by
  have cases : o.toNat = 0 ∨ o.toNat = 1 ∨ o.toNat = 2 ∨ o.toNat = 3 := by omega
  rcases cases with e | e | e | e <;> rw [octet_cases e] <;> exact ⟨_, rfl, rfl⟩

/-- A fragment of another epoch is counted EPOCH-MISMATCH (R27). -/
theorem exec_otherEpoch {c : Instr} {p : PairNo} {len : Nat} {e : Epoch} {s : State} (taking : s.taking)
    (receives : Receives p s) (bound : epochBound s c = some (p, len, e)) (other : s.bond.epoch ≠ some e) :
    exec c s = .next (countEpochMismatch p (Heard p len s)) := by
  have taken := takeCommand_receive taking receives
  have late (f : State → State) : inEpoch p e f (Heard p len s) = countEpochMismatch p (Heard p len s) := if_neg other
  cases c <;> simp only [epochBound, reduceCtorEq] at bound
  case data q f =>
    split at bound <;> simp only [Option.some.injEq, Prod.mk.injEq, reduceCtorEq] at bound
    next formed =>
    obtain ⟨rfl, rfl, rfl⟩ := bound
    refine (taken _ _).trans ?_
    cases cls : classOf f.cls with
    | none =>
      unfold classOf at cls
      split at cls
      · cases cls
      · next beyond => exact absurd (BitVec.eq_of_toNat_eq (by have := f.cls.isLt; simp; omega)) formed
    | some c => exact congrArg _ (late _)
  case quietOffer q h =>
    split at bound <;> simp only [Option.some.injEq, Prod.mk.injEq, reduceCtorEq] at bound
    next formed =>
    obtain ⟨rfl, rfl, rfl⟩ := bound
    rw [← formed] at late ⊢
    refine (taken _ _).trans ?_
    rw [if_neg (by simpa using formed), late]
  case quietAgree q h =>
    split at bound <;> simp only [Option.some.injEq, Prod.mk.injEq, reduceCtorEq] at bound
    next formed =>
    obtain ⟨rfl, rfl, rfl⟩ := bound
    rw [← formed] at late ⊢
    refine (taken _ _).trans ?_
    rw [if_neg (by simpa using formed), late]
  case alive q h a =>
    split at bound <;> simp only [Option.some.injEq, Prod.mk.injEq, reduceCtorEq] at bound
    next formed =>
    obtain ⟨rfl, rfl, rfl⟩ := bound
    obtain ⟨length, fields, role, awake⟩ := formed
    rw [← length] at late ⊢
    refine (taken _ _).trans ?_
    rw [if_neg (by simp [length, fields]), if_neg (by rw [heard_state]; exact awake)]
    rw [show (Heard q h.len s).bond.role = .cabinet from role]
    exact congrArg _ (late _)

/-- A message at the wrong role is counted ROLE-CLASH (R27). -/
theorem exec_roleClash {c : Instr} {p : PairNo} {len : Nat} {s : State} (taking : s.taking) (receives : Receives p s)
    (clash : roleClash s c = some (p, len)) : exec c s = .next (countRoleClash p (Heard p len s)) := by
  have taken := takeCommand_receive taking receives
  cases c <;> simp only [roleClash, reduceCtorEq] at clash <;>
    split at clash <;> simp only [Option.some.injEq, Prod.mk.injEq, reduceCtorEq] at clash
  case join q h j formed =>
    obtain ⟨rfl, rfl⟩ := clash
    obtain ⟨length, pair, role⟩ := formed
    obtain ⟨far, pair⟩ := pairOf_of_le pair
    rw [← length]
    refine (taken _ _).trans ?_
    simp only [role, roleOf_roleCode, pair]
    rw [if_neg (by simpa using length), if_pos (by rfl)]
  case restart q h formed =>
    obtain ⟨rfl, rfl⟩ := clash
    obtain ⟨length, role⟩ := formed
    rw [← length]
    refine (taken _ _).trans ?_
    rw [if_neg (by simpa using length), show (Heard q h.len s).bond.role = .cabinet from role]
  case restartAsk q h formed =>
    obtain ⟨rfl, rfl⟩ := clash
    obtain ⟨length, role⟩ := formed
    rw [← length]
    refine (taken _ _).trans ?_
    rw [if_neg (by simpa using length), show (Heard q h.len s).bond.role = .homestead from role]

/-- Settles O8. -/
theorem discardsCounted : Obligations.DiscardsCounted := by
  intro c p len kind e s receives taking
  exact ⟨exec_illFormed taking receives, takeCommand_receive taking receives len _, exec_otherEpoch taking receives,
    exec_roleClash taking receives⟩

/-! ## The control messages in their forms -/

theorem heard_bond (p : PairNo) (len : Nat) (s : State) : (Heard p len s).bond = s.bond := rfl

section
variable {p : PairNo} {h : CtlHead} {s : State} (taking : s.taking) (receives : Receives p s)
include taking receives

theorem exec_restart (length : h.len = 0) : exec (.restart p h) s = .next (
    match s.bond.role with
    | .cabinet => countRoleClash p (Heard p 0 s)
    | .homestead => if (s.pair p).state = .quiet then Heard p 0 s else settle (adopt h.epoch (Heard p 0 s))) := by
  rw [← length]
  refine (takeCommand_receive taking receives _ _).trans ?_
  rw [if_neg (by simpa using length)]
  simp only [heard_state]
  rfl

theorem exec_restartAsk (length : h.len = 0) : exec (.restartAsk p h) s = .next (
    match s.bond.role with
    | .homestead => countRoleClash p (Heard p 0 s)
    | .cabinet =>
      if (s.pair p).state = .quiet then Heard p 0 s
      else if s.bond.epoch = some h.epoch then settle (bondRestart (Heard p 0 s))
      else chooseHandover p (raiseCtl .restart p (Heard p 0 s))) := by
  rw [← length]
  refine (takeCommand_receive taking receives _ _).trans ?_
  rw [if_neg (by simpa using length)]
  simp only [heard_state]
  rfl

theorem exec_quietOffer (length : h.len = 0) (epoch : s.bond.epoch = some h.epoch) :
    exec (.quietOffer p h) s = .next (takeOffer p (Heard p 0 s)) := by
  rw [← length]
  refine (takeCommand_receive taking receives _ _).trans ?_
  rw [if_neg (by simpa using length), inEpoch, heard_bond, if_pos epoch]

theorem exec_quietAgree (length : h.len = 0) (epoch : s.bond.epoch = some h.epoch) :
    exec (.quietAgree p h) s = .next (takeAgree p (Heard p 0 s)) := by
  rw [← length]
  refine (takeCommand_receive taking receives _ _).trans ?_
  rw [if_neg (by simpa using length), inEpoch, heard_bond, if_pos epoch]

theorem exec_proveRequest (length : h.len = 0) :
    exec (.proveRequest p h) s = .next (takeProveRequest p (Heard p 0 s)) := by
  rw [← length]
  refine (takeCommand_receive taking receives _ _).trans ?_
  rw [if_neg (by simpa using length)]

theorem exec_proveAccept (length : h.len = 0) : exec (.proveAccept p h) s = .next (takeAccept p (Heard p 0 s)) := by
  rw [← length]
  refine (takeCommand_receive taking receives _ _).trans ?_
  rw [if_neg (by simpa using length)]

theorem exec_proveDecline {code : Octet} {r : DeclineReason} (length : h.len = 1) (reason : reasonOf code = some r) :
    exec (.proveDecline p h code) s = .next (takeDecline p r (Heard p 1 s)) := by
  rw [← length]
  refine (takeCommand_receive taking receives _ _).trans ?_
  simp only [reason]
  rw [if_neg (by simpa using length)]

theorem exec_proveEnd {e : EndFields} {v : Verdict} (length : h.len = 3) (verdict : verdictOf e.verdict = some v) :
    exec (.proveEnd p h e) s = .next (takeEnd p v e.delay.toNat (Heard p 3 s)) := by
  rw [← length]
  refine (takeCommand_receive taking receives _ _).trans ?_
  simp only [verdict]
  rw [if_neg (by simpa using length)]

theorem exec_provePattern {f : ProbeFields} {k : Fin 16} (step : stepOf f.step = some k) :
    exec (.provePattern p f) s = .next (takePattern p k f.octets (Heard p f.octets.length s)) := by
  refine (takeCommand_receive taking receives _ _).trans ?_
  simp only [step]

theorem exec_proveEcho {f : ProbeFields} {k : Fin 16} (step : stepOf f.step = some k) :
    exec (.proveEcho p f) s = .next (takeEcho p k f.octets (Heard p f.octets.length s)) := by
  refine (takeCommand_receive taking receives _ _).trans ?_
  simp only [step]

theorem exec_alive {a : AliveFields} (length : h.len = 6) (formed : aliveFormed a = true)
    (awake : (s.pair p).state ≠ .quiet) : exec (.alive p h a) s = .next (
    match s.bond.role with
    | .cabinet => inEpoch p h.epoch (aliveByState p a) (Heard p 6 s)
    | .homestead => aliveByState p a (adopt h.epoch (Heard p 6 s))) := by
  rw [← length]
  refine (takeCommand_receive taking receives _ _).trans ?_
  rw [if_neg (by simp [length, formed]), if_neg (by rw [heard_state]; exact awake)]
  rfl

theorem exec_join {role : Role} {far : PairNo} {fresh : Bool} (length : h.len = 2) (other : role ≠ s.bond.role)
    (awake : (s.pair p).state ≠ .quiet) : exec (.join p h (joinCarries role far fresh)) s =
      .next (takeJoin p h.epoch role far fresh (Heard p 2 s)) := by
  have number : pairOf (BitVec.ofNat 8 far.val) = some far := by
    revert far
    decide
  rw [← length]
  refine (takeCommand_receive taking receives _ _).trans ?_
  simp only [joinCarries, roleOf_roleCode, number]
  rw [if_neg (by simpa using length), heard_bond, if_neg other, if_neg (by rw [heard_state]; exact awake)]

end

/-! ## Proving messages that no state expects -/

theorem requestingOn_heard (p : PairNo) (len : Nat) (s : State) :
    (Heard p len s).requestingOn p = s.requestingOn p := by
  unfold State.requestingOn
  rw [heard_state]
  rfl

/-- A heard fragment leaves its pair's settings. -/
theorem heard_cfg (p : PairNo) (len : Nat) (s : State) : ((Heard p len s).pair p).cfg = (s.pair p).cfg := by
  rw [Heard, modPair_pair_same]
  rfl

/-- Settles O9. -/
theorem strayProvingDiscarded : Obligations.StrayProvingDiscarded := by
  intro c p len s receives taking stray
  cases c <;> simp only [strayMessage, reduceCtorEq] at stray <;>
    split at stray <;> simp only [Option.some.injEq, Prod.mk.injEq, reduceCtorEq] at stray
  case proveAccept.isTrue q h formed =>
    obtain ⟨rfl, rfl⟩ := stray
    obtain ⟨length, unasked⟩ := formed
    rw [exec_proveAccept taking receives length, takeAccept, if_neg (by rw [requestingOn_heard, unasked]; simp)]
    rfl
  case proveDecline.isTrue q h code formed =>
    obtain ⟨rfl, rfl⟩ := stray
    obtain ⟨length, code, unasked⟩ := formed
    obtain ⟨r, reason⟩ := reasonOf_of_le code
    rw [exec_proveDecline taking receives length reason, takeDecline,
      if_neg (by rw [requestingOn_heard, unasked]; simp)]
    rfl
  case provePattern.isTrue q f formed =>
    obtain ⟨rfl, rfl⟩ := stray
    obtain ⟨index, state⟩ := formed
    obtain ⟨k, step, -⟩ := stepOf_of_le index
    rw [exec_provePattern taking receives step, takePattern, if_neg (by rw [heard_state]; exact state)]
    rfl
  case proveEcho.isTrue q f formed =>
    obtain ⟨rfl, rfl⟩ := stray
    obtain ⟨index, unasked⟩ := formed
    obtain ⟨k, step, value⟩ := stepOf_of_le index
    rw [exec_proveEcho taking receives step]
    have engine : (Heard q f.octets.length s).engine = s.engine := rfl
    unfold takeEcho
    rw [engine]
    cases run : s.engine with
    | none => rfl
    | some r =>
      refine congrArg _ (if_neg fun asked => unasked ?_)
      simp only [heard_state, Bool.and_eq_true, decide_eq_true_eq] at asked
      obtain ⟨⟨⟨⟨proving, pair⟩, running⟩, outstanding⟩, same⟩ := asked
      exact ⟨proving, by simp [run, pair, running, outstanding, same, value]⟩
  case proveEnd.isTrue q h e formed =>
    obtain ⟨rfl, rfl⟩ := stray
    obtain ⟨length, code, standing, unreleased⟩ := formed
    obtain ⟨v, verdict, coded⟩ := verdictOf_of_le code
    rw [exec_proveEnd taking receives length verdict]
    refine congrArg _ ?_
    unfold takeEnd
    rw [heard_state]
    split
    · next halted => exact absurd halted standing
    · next proving =>
      refine if_neg ?_
      rw [Bool.and_eq_true, decide_eq_true_eq]
      rintro ⟨rfl, run⟩
      rcases unreleased with state | other | idle
      · exact state proving
      · exact other (by rw [coded]; rfl)
      · change s.runOn q = true at run
        rw [idle] at run
        cases run
    · rfl
  case proveRequest.isTrue q h formed =>
    obtain ⟨rfl, rfl⟩ := stray
    obtain ⟨length, consent, state⟩ := formed
    rw [exec_proveRequest taking receives length]
    unfold takeProveRequest
    simp only [heard_cfg, heard_state, consent, Bool.not_true, Bool.false_eq_true, if_false]
    rcases state with e | e <;> rw [e] <;> rfl

end Sys2Proof.Proofs
end

