-- ==== Sys2Proof/Proofs/OnePairChoice.lean ====
section
/-! PROOF. The commands after which one pair alone makes its choice: O18, O24, O28, O31 and O35. -/

namespace Sys2Proof.Proofs
open Sys2Proof Sys2Proof.Machine Sys2Proof.Laws

/-! ## One pair's choice -/

theorem onlyPair_trans {p : PairNo} {s t u : State} (h : OnlyPair p s t) (k : OnlyPair p t u) : OnlyPair p s u := by
  obtain ⟨h1, h2, h3, h4, h5, h6, h7, h8, h9, h10, h11, h12, h13, h14, h15, h16⟩ := h
  obtain ⟨k1, k2, k3, k4, k5, k6, k7, k8, k9, k10, k11, k12, k13, k14, k15, k16⟩ := k
  exact ⟨fun q other => (k1 q other).trans (h1 q other), k2.trans h2, k3.trans h3, k4.trans h4, k5.trans h5, k6.trans h6,
    k7.trans h7, k8.trans h8, k9.trans h9, k10.trans h10, k11.trans h11, k12.trans h12, k13.trans h13, k14.trans h14,
    k15.trans h15, k16.trans h16⟩

theorem onlyPair_refl (p : PairNo) (s : State) : OnlyPair p s s :=
  ⟨fun _ _ => rfl, rfl, rfl, rfl, rfl, rfl, rfl, rfl, rfl, rfl, rfl, rfl, rfl, rfl, rfl, rfl⟩

theorem silent_onlyPair (p : PairNo) (s : State) : OnlyPair p s s.silent := onlyPair_refl p s

theorem heard_onlyPair (p : PairNo) (len : Nat) (s : State) : OnlyPair p s (Heard p len s) :=
  onlyPair_trans (silent_onlyPair p s) (modPair_onlyPair p _ _)

theorem emit_onlyPair (p : PairNo) (o : Output) (s : State) : OnlyPair p s (emit o s) := onlyPair_refl p s

theorem raiseCtl_onlyPair (k : Ctl) (p : PairNo) (s : State) : OnlyPair p s (raiseCtl k p s) := modPair_onlyPair p _ s

/-- The engine after its pattern's handover has begun on pair `p` (R158). -/
theorem patternStarts_eq (p : PairNo) (s : State) : patternStarts p s = s ∨ ∃ r : Run, s.engine = some r ∧
    patternStarts p s = { s with engine := some { r with
      started := some s.now, stepTimer := some ⟨s.now, ms s.cfg.stepTimeout⟩ } } := by
  unfold patternStarts
  split
  · next r engine =>
    split
    · exact .inr ⟨r, engine, rfl⟩
    · exact .inl rfl
  · exact .inl rfl

theorem patternStarts_onlyPair (p : PairNo) (s : State) : OnlyPair p s (patternStarts p s) := by
  rcases patternStarts_eq p s with e | ⟨r, engine, e⟩
  · rw [e]
    exact onlyPair_refl p s
  · rw [e]
    exact ⟨fun _ _ => rfl, rfl, rfl, by simp [engine], rfl, rfl, rfl, rfl, rfl, rfl, rfl, rfl, rfl, rfl, rfl, rfl⟩

/-- A choice of pair `p` touches its unit, the outputs and, where a pattern's handover begins, the run's timers. -/
theorem chooseHandover_eq (p : PairNo) (s : State) : ∃ t : State, OnlyPair p s t ∧ t.engine = s.engine ∧
    (chooseHandover p s = t ∨ chooseHandover p s = patternStarts p t) := by
  unfold chooseHandover
  simp only
  split
  · split
    · next _ _ k ks first =>
      obtain ⟨h, -, e⟩ := beginCtl_eq p k s
      exact ⟨_, onlyPair_trans (modPair_onlyPair p (controlBegun k h) s) (emit_onlyPair p _ _), rfl, .inl e⟩
    · next _ _ m _ slot =>
      obtain ⟨h, -, e⟩ := beginProve_eq p m s
      refine ⟨_, onlyPair_trans (modPair_onlyPair p (fun u => { u with proveSlot := none, handover := some h }) s)
        (emit_onlyPair p (.handover p h) _), rfl, ?_⟩
      rw [e]
      split
      · exact .inl rfl
      · exact .inr rfl
    · split
      · exact ⟨_, onlyPair_trans (modPair_onlyPair p _ s) (emit_onlyPair p _ _), rfl, .inl rfl⟩
      · exact ⟨s, onlyPair_refl p s, rfl, .inl rfl⟩
    · exact ⟨s, onlyPair_refl p s, rfl, .inl rfl⟩
  · exact ⟨s, onlyPair_refl p s, rfl, .inl rfl⟩

theorem chooseHandover_onlyPair (p : PairNo) (s : State) : OnlyPair p s (chooseHandover p s) := by
  obtain ⟨t, only, -, e | e⟩ := chooseHandover_eq p s
  · rwa [e]
  · rw [e]
    exact onlyPair_trans only (patternStarts_onlyPair p t)

theorem chooseHandover_engine (p : PairNo) (s : State) : (chooseHandover p s).engine = s.engine ∨
    ∃ r : Run, s.engine = some r ∧ (chooseHandover p s).engine = some { r with
      started := some s.now, stepTimer := some ⟨s.now, ms s.cfg.stepTimeout⟩ } := by
  obtain ⟨t, only, engine, e | e⟩ := chooseHandover_eq p s
  · exact .inl (by rw [e, engine])
  · obtain ⟨-, -, -, -, -, -, -, cfg, -, now, -⟩ := only
    rcases patternStarts_eq p t with same | ⟨r, run, begun⟩
    · exact .inl (by rw [e, same, engine])
    · exact .inr ⟨r, engine ▸ run, by rw [e, begun, now, cfg]⟩

/-- The unit of a pair after its choice. -/
theorem chooseHandover_steps (p : PairNo) (s : State) :
    PairSteps s.now s.cfg (s.pair p) ((chooseHandover p s).pair p) := (chooseHandover_ensues p s).pairs p

theorem raise_sends {k : Ctl} {u : PairUnit} (h : k.permitted u.state = true) : (u.raise k).sends k := by
  unfold PairUnit.raise
  rw [if_pos h]
  exact .inl (mem_addCtl.2 (.inl rfl))

/-- A kind that is raised on a pair and chosen: it waits or is being handed over. -/
theorem chosen_sends {k : Ctl} {p : PairNo} {s : State} (awake : (s.pair p).state ≠ .quiet)
    (permitted : k.permitted (s.pair p).state = true) : ((chooseHandover p (raiseCtl k p s)).pair p).sends k := by
  refine (chooseHandover_steps p _).sends ?_ ?_
  · rwa [raiseCtl, modPair_pair_same, raise_state]
  · rw [raiseCtl, modPair_pair_same]
    exact raise_sends permitted

theorem chosen_steady {k : Ctl} {p : PairNo} {s : State} (awake : (s.pair p).state ≠ .quiet) :
    ((chooseHandover p (raiseCtl k p s)).pair p).steady = (s.pair p).steady := by
  refine ((chooseHandover_steps p _).steady ?_).trans ?_
  · rwa [raiseCtl, modPair_pair_same, raise_state]
  · rw [raiseCtl, modPair_pair_same, raise_steady]

/-! ## The timers that stand alone -/

/-- The expiry of a running timer (log entry 2). -/
theorem expire_running {timer : State → Option Timer} {f : State → State} {tm : Timer} {s : State} (taking : s.taking)
    (running : timer s.silent = some tm) :
    takeCommand (fun s => expire (timer s) f s) s = .next (f (reach tm s.silent)) := by
  rw [takeCommand_expire taking, running]
  rfl

theorem aliveTimerExpiry_raises {p : PairNo} {k : Ctl} {s : State} (kind : aliveKind (s.pair p).state = some k) :
    aliveTimerExpiry p s = chooseHandover p (raiseCtl k p
      (modPair p (fun u => { u with aliveTimer := some ⟨s.now, ms s.cfg.aliveInterval⟩ }) s)) := by
  unfold aliveTimerExpiry
  simp only [modPair_pair_same, kind]

theorem aliveTimerExpiry_acts {p : PairNo} {k : Ctl} {s : State} (kind : aliveKind (s.pair p).state = some k)
    (awake : (s.pair p).state ≠ .quiet) (permitted : k.permitted (s.pair p).state = true) :
    OnlyPair p s (aliveTimerExpiry p s) ∧ ((aliveTimerExpiry p s).pair p).steady = { (s.pair p).steady with
      aliveTimer := some ⟨s.now, ms s.cfg.aliveInterval⟩ } ∧ ((aliveTimerExpiry p s).pair p).sends k := by
  rw [aliveTimerExpiry_raises kind]
  generalize restarted : modPair p (fun u => { u with aliveTimer := some ⟨s.now, ms s.cfg.aliveInterval⟩ }) s = t
  have only : OnlyPair p s t := restarted ▸ modPair_onlyPair p _ s
  have unit : t.pair p = { s.pair p with aliveTimer := some ⟨s.now, ms s.cfg.aliveInterval⟩ } := by
    rw [← restarted, modPair_pair_same]
  have state : (t.pair p).state = (s.pair p).state := by rw [unit]
  refine ⟨onlyPair_trans (onlyPair_trans only (raiseCtl_onlyPair k p t)) (chooseHandover_onlyPair p _), ?_,
    chosen_sends (state ▸ awake) (state ▸ permitted)⟩
  rw [chosen_steady (state ▸ awake), unit]
  rfl

theorem aliveTimer_raises {p : PairNo} {k : Ctl} {tm : Timer} {s : State} (taking : s.taking)
    (running : (s.pair p).aliveTimer = some tm) (kind : aliveKind (s.pair p).state = some k)
    (awake : (s.pair p).state ≠ .quiet) (permitted : k.permitted (s.pair p).state = true) :
    ∃ t, exec (.aliveTimerExpiry p) s = .next t ∧ OnlyPair p (reach tm s) t ∧
      (t.pair p).steady = { (s.pair p).steady with
        aliveTimer := some ⟨max s.now (tm.start + tm.dur), ms s.cfg.aliveInterval⟩ } ∧ (t.pair p).sends k :=
  ⟨_, expire_running (timer := fun s => (s.pair p).aliveTimer) taking running,
    aliveTimerExpiry_acts (s := reach tm s.silent) kind awake permitted⟩

/-- Settles O35. -/
theorem periodicTimers : Obligations.PeriodicTimers := by
  intro p tm s taking
  refine ⟨expire_running (timer := fun s => (s.pair p).errTimer) taking,
    expire_running (timer := fun s => (s.pair p).settleTimer) taking,
    expire_running (timer := fun s => s.bond.askTimer) taking, fun running state => ?_⟩
  rcases state with e | e
  · rw [if_pos e]
    exact aliveTimer_raises taking running (by rw [e]; rfl) (by simp [e]) (by rw [e]; rfl)
  · rw [if_neg (by simp [e])]
    exact aliveTimer_raises taking running (by rw [e]; rfl) (by simp [e]) (by rw [e]; rfl)

/-! ## QUIET-OFFER -/

theorem awakeCount_congr {s t : State} (h : ∀ p : PairNo, (t.pair p).state = (s.pair p).state ∧
    (t.pair p).offering = (s.pair p).offering) : t.awakeCount = s.awakeCount := by
  simp only [State.awakeCount, h]

theorem heard_pair (p : PairNo) (len : Nat) (s : State) :
    (Heard p len s).pair p = PairUnit.heard s.now s.cfg len (s.pair p) := by
  rw [Heard, modPair_pair_same]
  rfl

theorem heard_awakeCount (p : PairNo) (len : Nat) (s : State) : (Heard p len s).awakeCount = s.awakeCount := by
  refine awakeCount_congr fun q => ?_
  rw [Heard, modPair_pair]
  split
  · next same => rw [same]; exact ⟨rfl, rfl⟩
  · exact ⟨rfl, rfl⟩

theorem mayAgree_iff {s : State} {p : PairNo} : mayAgree s p = true ↔ (s.pair p).state = .serving ∧
    (s.pair p).queue = [] ∧ (s.pair p).idle = true ∧ (s.pair p).offering = false ∧ (s.pair p).noQuiet = false ∧
    (s.pair p).cfg.quietWait ≠ 0 ∧ s.cfg.minimumAwake < s.awakeCount := by
  simp [mayAgree, and_assoc]

theorem offers_unagreed_iff {u : PairUnit} : (u.state = .serving && u.offering && !u.agreeing) = true ↔
    u.state = .serving ∧ u.offering = true ∧ u.agreeing = false := by
  simp [and_assoc]

/-- A kind is raised on pair `p`, in a state that permits it, after its unit has changed, and the pair makes its
choice. -/
theorem modPair_chosen {p : PairNo} {k : Ctl} {f : PairUnit → PairUnit} {s : State} {u : PairUnit}
    (unit : f (s.pair p) = u) (awake : u.state ≠ .quiet) (permitted : k.permitted u.state = true) :
    OnlyPair p s (chooseHandover p (raiseCtl k p (modPair p f s))) ∧
      PairSteps s.now s.cfg (u.raise k) ((chooseHandover p (raiseCtl k p (modPair p f s))).pair p) ∧
      ((chooseHandover p (raiseCtl k p (modPair p f s))).pair p).steady = u.steady ∧
      ((chooseHandover p (raiseCtl k p (modPair p f s))).pair p).sends k := by
  have only := onlyPair_trans (onlyPair_trans (modPair_onlyPair p f s) (raiseCtl_onlyPair k p _))
    (chooseHandover_onlyPair p (raiseCtl k p (modPair p f s)))
  have steps := chooseHandover_steps p (raiseCtl k p (modPair p f s))
  have raised : (raiseCtl k p (modPair p f s)).pair p = u.raise k := by
    rw [raiseCtl, modPair_pair_same, modPair_pair_same, unit]
  rw [raised] at steps
  have state : (u.raise k).state ≠ .quiet := by rwa [raise_state]
  exact ⟨only, steps, (steps.steady state).trans (raise_steady k u), steps.sends state (raise_sends permitted)⟩

/-- A pair that is itself offering answers a QUIET-OFFER in the place of its own (R174 a). -/
theorem takeOffer_crossing {p : PairNo} {s : State} (serving : (s.pair p).state = .serving)
    (offering : (s.pair p).offering = true) (unagreed : (s.pair p).agreeing = false) :
    OnlyPair p s (takeOffer p s) ∧ ((takeOffer p s).pair p).steady = (s.pair p).steady ∧
      ((takeOffer p s).pair p).sends .quietAgree ∧ Ctl.quietOffer ∉ ((takeOffer p s).pair p).ctl := by
  have taken : takeOffer p s = chooseHandover p (raiseCtl .quietAgree p (modPair p (dropCtl [.quietOffer]) s)) :=
    if_pos (offers_unagreed_iff.2 ⟨serving, offering, unagreed⟩)
  rw [taken]
  have state : (dropCtl [.quietOffer] (s.pair p)).state = .serving := serving
  obtain ⟨only, steps, steady, sends⟩ := modPair_chosen (k := .quietAgree) (s := s) (f := dropCtl [.quietOffer]) rfl
    (by rw [state]; decide) (by rw [state]; rfl)
  refine ⟨only, steady, sends, fun m => ?_⟩
  have before := steps.ctl (by rw [raise_state, state]; decide) _ m
  rw [PairUnit.raise, if_pos (by rw [state]; rfl)] at before
  have kept := (mem_addCtl.1 before).resolve_left (by decide)
  simp [dropCtl] at kept

/-- An idle pair that may agree answers a QUIET-OFFER (R174 b). -/
theorem takeOffer_agrees {p : PairNo} {s : State} (agrees : mayAgree s p = true) :
    OnlyPair p s (takeOffer p s) ∧ ((takeOffer p s).pair p).steady = { (s.pair p).steady with
        offering := true, offerTimer := some (offerTime s) } ∧ ((takeOffer p s).pair p).sends .quietAgree := by
  obtain ⟨serving, -, -, unoffered, -⟩ := mayAgree_iff.1 agrees
  have taken : takeOffer p s = chooseHandover p (raiseCtl .quietAgree p (modPair p (fun u => { u with
      offering := true, offerTimer := some (offerTime s) }) s)) := by
    refine (if_neg ?_).trans (if_pos agrees)
    rw [offers_unagreed_iff, unoffered]
    simp
  rw [taken]
  obtain ⟨only, -, steady, sends⟩ := modPair_chosen (k := .quietAgree) (s := s) (f := fun u => { u with
      offering := true, offerTimer := some (offerTime s) }) (u := { s.pair p with
      offering := true, offerTimer := some (offerTime s) }) rfl (by rw [serving]; decide) (by rw [serving]; rfl)
  exact ⟨only, steady, sends⟩

/-- Settles O18. -/
theorem quietOfferAnswered : Obligations.QuietOfferAnswered := by
  intro p h s taking receives length epoch
  have exec := exec_quietOffer taking receives length epoch
  have unit := heard_pair p 0 s
  have agrees : mayAgree (Heard p 0 s) p = true ↔ (s.pair p).state = .serving ∧
      (s.pair p).queue = [] ∧ (s.pair p).idle = true ∧ (s.pair p).offering = false ∧ (s.pair p).noQuiet = false ∧
      (s.pair p).cfg.quietWait ≠ 0 ∧ s.cfg.minimumAwake < s.awakeCount := by
    rw [mayAgree_iff, unit, heard_awakeCount]
    rfl
  have only := heard_onlyPair p 0 s
  split
  · next crossing =>
    obtain ⟨serving, offering, unagreed⟩ := crossing
    obtain ⟨alone, steady, sends, dropped⟩ := takeOffer_crossing (s := Heard p 0 s) (p := p) (by rw [unit]; exact serving)
      (by rw [unit]; exact offering) (by rw [unit]; exact unagreed)
    exact ⟨_, exec, onlyPair_trans only alone, steady, sends, dropped⟩
  · next uncrossed =>
    split
    · next agree =>
      obtain ⟨alone, steady, sends⟩ := takeOffer_agrees (agrees.2 agree)
      exact ⟨_, exec, onlyPair_trans only alone, steady, sends⟩
    · next silent =>
      rw [exec]
      refine congrArg _ ((if_neg ?_).trans (if_neg (mt agrees.1 silent)))
      rw [offers_unagreed_iff, unit]
      exact uncrossed

/-! ## PROVE-ACCEPT and PROVE-PATTERN -/

theorem requestingOn_iff {s : State} {p : PairNo} : s.requestingOn p = true ↔
    (s.pair p).state = .proving ∧ ∃ r : Run, s.engine = some r ∧ r.pair = p ∧ r.running = false := by
  unfold State.requestingOn
  cases s.engine <;> simp

/-- A step begins on the pair of the run (R158). -/
theorem beginStep_eq {r : Run} {s : State} (k : Fin 16) (engine : s.engine = some r) :
    beginStep k s = modPair r.pair (fun u => { u with
      proveSlot := some { echo := false, step := k, octets := stepPattern k } }) { s with engine := some { r with
        running := true, step := k, outstanding := true, started := none, stepTimer := none } } := by
  unfold beginStep
  rw [engine]

theorem patternPut_of_slotPut {k : Fin 16} {v : PairUnit}
    (h : SlotPut { echo := false, step := k, octets := stepPattern k } v) : v.PatternPut k := by
  rcases h with slot | ⟨x, handover, kind, seq, payload⟩
  · exact .inl slot
  · exact .inr (by simp [handover, kind, seq, payload])

/-- A change of pair `p`'s unit and of the run that stays on its pair. -/
theorem takenRun_onlyPair (p : PairNo) (f : PairUnit → PairUnit) {e : Option Run} (s : State)
    (pair : e.map (·.pair) = s.engine.map (·.pair)) : OnlyPair p s (modPair p f { s with engine := e }) :=
  onlyPair_trans (t := { s with engine := e })
    ⟨fun _ _ => rfl, rfl, rfl, pair, rfl, rfl, rfl, rfl, rfl, rfl, rfl, rfl, rfl, rfl, rfl, rfl⟩
    (modPair_onlyPair p f { s with engine := e })

/-- A PROVE-ACCEPT begins step 0 of the run that asked for it (R155 a, R158). -/
theorem takeAccept_begins {p : PairNo} {r : Run} {s : State} (proving : (s.pair p).state = .proving)
    (engine : s.engine = some r) (on : r.pair = p) (unstarted : r.running = false) :
    OnlyPair p s (takeAccept p s) ∧
      ((takeAccept p s).pair p).steady = { (s.pair p).steady with
        record := { (s.pair p).steady.record with status := .running } } ∧
      ((takeAccept p s).pair p).PatternPut 0 ∧
      ((takeAccept p s).engine = some { pair := p, running := true, step := 0, outstanding := true, started := none
                                        answerTimer := none, stepTimer := none } ∨
        (takeAccept p s).engine = some { pair := p, running := true, step := 0, outstanding := true
                                         started := some s.now, answerTimer := none
                                         stepTimer := some ⟨s.now, ms s.cfg.stepTimeout⟩ }) := by
  have taken : takeAccept p s = chooseHandover p (beginStep 0 (modRecord p (fun r => { r with status := .running })
      { s with engine := s.engine.map fun r => { r with answerTimer := none } })) :=
    if_pos (requestingOn_iff.2 ⟨proving, r, engine, on, unstarted⟩)
  rw [taken]
  generalize accepted : modRecord p (fun r => { r with status := .running })
    { s with engine := s.engine.map fun r => { r with answerTimer := none } } = t
  have unit : t.pair p = { s.pair p with record := { (s.pair p).record with status := .running } } := by
    rw [← accepted, modRecord, modPair_pair_same]
    rfl
  have run : t.engine = some { r with answerTimer := none } := by
    rw [← accepted, modRecord, modPair_engine, engine]
    rfl
  have only : OnlyPair p s t := accepted ▸ takenRun_onlyPair p _ _ (by simp [Function.comp_def])
  have clock : t.now = s.now ∧ t.cfg = s.cfg := by
    rw [← accepted]
    exact ⟨rfl, rfl⟩
  rw [beginStep_eq 0 run, on]
  generalize begun : modPair p _ _ = v
  have awake : (v.pair p).state ≠ .quiet := by
    rw [← begun, modPair_pair_same]
    change (t.pair p).state ≠ .quiet
    rw [unit]
    simp [proving]
  have step : v.engine = some { pair := p, running := true, step := 0, outstanding := true, started := none
                                answerTimer := none, stepTimer := none } := by
    rw [← begun, modPair_engine]
  have alone : OnlyPair p t v := begun ▸ takenRun_onlyPair p _ _ (by rw [run]; simp [on])
  have later : v.now = s.now ∧ v.cfg = s.cfg := by
    rw [← begun]
    exact clock
  have steps := chooseHandover_steps p v
  refine ⟨onlyPair_trans (onlyPair_trans only alone) (chooseHandover_onlyPair p v), (steps.steady awake).trans ?_,
    patternPut_of_slotPut (steps.slotPut awake ?_), (chooseHandover_engine p v).imp (fun e => e.trans step) ?_⟩
  · rw [← begun, modPair_pair_same]
    change PairUnit.steady { t.pair p with proveSlot := _ } = _
    rw [unit]
    rfl
  · rw [← begun, modPair_pair_same]
    exact .inl rfl
  · rintro ⟨x, had, engine⟩
    rw [engine, later.1, later.2, ← Option.some.inj (step.symm.trans had)]

/-- Settles O24. -/
theorem acceptBeginsRun : Obligations.AcceptBeginsRun := by
  intro p h s taking length requesting
  obtain ⟨proving, r, engine, on, unstarted⟩ := requestingOn_iff.1 requesting
  have receives : Receives p s := by simp [Receives, proving]
  obtain ⟨only, steady, put, run⟩ := takeAccept_begins (s := Heard p 0 s) (by rwa [heard_state]) engine on unstarted
  exact ⟨_, exec_proveAccept taking receives length, onlyPair_trans (heard_onlyPair p 0 s) only, steady, put, run⟩

/-- A HALTED pair echoes a pattern (R163). -/
theorem takePattern_echoes {p : PairNo} {s : State} (k : Fin 16) (os : List Octet) (halted : (s.pair p).state = .halted) :
    OnlyPair p s (takePattern p k os s) ∧ ((takePattern p k os s).pair p).steady = { (s.pair p).steady with
        haltTimer := some ⟨s.now, ms (4 * s.cfg.stepTimeout)⟩ } ∧
      SlotPut { echo := true, step := k, octets := os } ((takePattern p k os s).pair p) := by
  rw [takePattern, if_pos halted]
  generalize put : modPair p (fun u => { u with
      proveSlot := some { echo := true, step := k, octets := os }
      haltTimer := some ⟨s.now, ms (4 * s.cfg.stepTimeout)⟩ }) s = t
  have only : OnlyPair p s t := put ▸ modPair_onlyPair p _ s
  have unit : t.pair p = { s.pair p with
      proveSlot := some { echo := true, step := k, octets := os }
      haltTimer := some ⟨s.now, ms (4 * s.cfg.stepTimeout)⟩ } := by rw [← put, modPair_pair_same]
  have awake : (t.pair p).state ≠ .quiet := by
    rw [unit]
    simp [halted]
  have steps := chooseHandover_steps p t
  refine ⟨onlyPair_trans only (chooseHandover_onlyPair p t), (steps.steady awake).trans ?_, steps.slotPut awake ?_⟩
  · rw [unit]
    rfl
  · rw [unit]
    exact .inl rfl

/-- Settles O28. -/
theorem patternEchoed : Obligations.PatternEchoed := by
  intro p f k s taking halted index
  have receives : Receives p s := by simp [Receives, halted]
  have step : stepOf f.step = some k := by
    unfold stepOf
    rw [dif_pos (by omega)]
    exact congrArg _ (Fin.ext index)
  obtain ⟨only, steady, put⟩ := takePattern_echoes (s := Heard p f.octets.length s) k f.octets (by rwa [heard_state])
  refine ⟨_, exec_provePattern taking receives step, onlyPair_trans (heard_onlyPair p _ s) only, steady, ?_⟩
  refine put.imp id fun ⟨x, handover, kind, seq, payload⟩ => ?_
  have number : f.step = BitVec.ofNat 14 k.val := by
    rw [← index]
    simp
  simp [handover, kind, seq, payload, number]

/-! ## Line-up reports of a trained pair -/

/-- Pair `p` makes its choice after its unit has changed. -/
theorem modPair_chooses {p : PairNo} {f : PairUnit → PairUnit} {s : State} {u : PairUnit} (unit : f (s.pair p) = u)
    (awake : u.state ≠ .quiet) :
    OnlyPair p s (chooseHandover p (modPair p f s)) ∧ EngineLeft s (chooseHandover p (modPair p f s)) ∧
      ((chooseHandover p (modPair p f s)).pair p).steady = u.steady := by
  have steps := chooseHandover_steps p (modPair p f s)
  rw [modPair_pair_same, unit] at steps
  exact ⟨onlyPair_trans (modPair_onlyPair p f s) (chooseHandover_onlyPair p _),
    (chooseHandover_follows p (modPair p f s)).engine, steps.steady awake⟩

/-- The counters after a line-up report (R19). -/
def lineUpCounted (n : PairCounters) : PairCounters := { n with lineUp := n.lineUp + 1 }

/-- The unit after a line-up report, before what its state adds (R8, R19, R69). -/
def reported (rate : Nat) (u : PairUnit) : PairUnit :=
  PairUnit.lineReport rate { u with n := lineUpCounted u.n }

theorem lineReported_eq (p : PairNo) (rate : Nat) (s : State) :
    modPair p (PairUnit.lineReport rate) (countPair p lineUpCounted s) = modPair p (reported rate) s :=
  modPair_modPair s p _ _

theorem lineUp_waking {p : PairNo} {s : State} (rate : Nat) (waking : (s.pair p).state = .waking) :
    lineUp p rate s = chooseHandover p (raiseCtl .alive p (modPair p (reported rate) s)) := by
  unfold lineUp
  simp only [countPair_state, waking]
  exact congrArg (fun t => chooseHandover p (raiseCtl .alive p t)) (lineReported_eq p rate s)

theorem lineUp_serving {p : PairNo} {s : State} (rate : Nat) (serving : (s.pair p).state = .serving) :
    lineUp p rate s =
      chooseHandover p (modPair p (fun u => PairUnit.startWindow s.now s.cfg (reported rate u)) s) := by
  unfold lineUp
  simp only [countPair_state, serving]
  exact congrArg (chooseHandover p) ((congrArg (modPair p _) (lineReported_eq p rate s)).trans (modPair_modPair s p _ _))

theorem lineUp_trained {p : PairNo} {s : State} (rate : Nat) (present : (s.pair p).state ≠ .absent)
    (up : (s.pair p).state ≠ .down) (asleep : (s.pair p).state ≠ .quiet) (unserving : (s.pair p).state ≠ .serving)
    (unwaking : (s.pair p).state ≠ .waking) :
    lineUp p rate s = chooseHandover p (modPair p (reported rate) s) := by
  rw [← lineReported_eq]
  unfold lineUp
  simp only [countPair_state]
  cases state : (s.pair p).state <;> first | contradiction | rfl

/-- Settles O31. -/
theorem lineUpRetrains : Obligations.LineUpRetrains := by
  intro p rate s taking
  have taken : exec (.lineUp p rate) s = .next (lineUp p rate s.silent) := takeCommand_taking _ taking
  rw [taken]
  refine ⟨fun absent => ?_, fun present up asleep => ⟨_, rfl, ?_⟩⟩
  · have same : lineUp p rate s.silent = countPair p lineUpCounted s.silent := by
      unfold lineUp
      simp only [countPair_state]
      rw [show (s.silent.pair p).state = .absent from absent]
      rfl
    rw [same]
    rfl
  · by_cases waking : (s.pair p).state = .waking
    · rw [lineUp_waking (s := s.silent) rate waking, if_neg (by simp [waking])]
      obtain ⟨only, -, steady, sends⟩ := modPair_chosen (k := .alive) (s := s.silent) (f := reported rate)
        (u := reported rate (s.pair p)) rfl asleep (by rw [show (reported rate (s.pair p)).state = .waking from waking]; rfl)
      exact ⟨only, (chooseHandover_follows p (raiseCtl .alive p (modPair p (reported rate) s.silent))).engine, fun _ => sends, steady⟩
    · by_cases serving : (s.pair p).state = .serving
      · rw [lineUp_serving (s := s.silent) rate serving, if_pos serving]
        obtain ⟨only, engine, steady⟩ := modPair_chooses (s := s.silent) (p := p)
          (f := fun u => PairUnit.startWindow s.now s.cfg (reported rate u))
          (u := PairUnit.startWindow s.now s.cfg (reported rate (s.pair p))) rfl (by rw [startWindow_eq]; exact asleep)
        refine ⟨only, engine, fun w => absurd w waking, steady.trans ?_⟩
        rw [startWindow_eq]
        rfl
      · rw [lineUp_trained (s := s.silent) rate present up asleep serving waking, if_neg serving]
        obtain ⟨only, engine, steady⟩ := modPair_chooses (s := s.silent) (p := p) (f := reported rate)
          (u := reported rate (s.pair p)) rfl asleep
        exact ⟨only, engine, fun w => absurd w waking, steady⟩

end Sys2Proof.Proofs
end

