-- ==== Sys2Proof/Proofs/TrunkEvents.lean ====
section
/-! PROOF. The trunk interface's events that no selection follows: O38 and O40. -/

namespace Sys2Proof.Proofs
open Sys2Proof Sys2Proof.Machine Sys2Proof.Laws

/-! ## Frames that go no further (R142-R144) -/

theorem exec_trunkFrameIn {s : State} (f : Frame) (taking : s.taking) :
    exec (.trunkFrameIn f) s = .next (trunkFrameIn f s.silent) := takeCommand_taking _ taking

theorem trunkFrameIn_long {f : Frame} (s : State) (nonempty : f ≠ []) (long : 1600 < f.length) :
    trunkFrameIn f s = { s with trunk := { s.trunk with n := { s.trunk.n with
      trunkIn := s.trunk.n.trunkIn + 1
      trunkOctetIn := s.trunk.n.trunkOctetIn + BitVec.ofNat 32 f.length
      oversizeIn := s.trunk.n.oversizeIn + 1 } } } := by
  unfold trunkFrameIn
  rw [if_neg nonempty, if_pos long]
  rfl

theorem toManagement_iff {s : State} {f : Frame} : toManagement s f = true ↔
    mgmtTyped f = true ∧ (destinationOf f = s.cfg.stationAddress ∨ destinationOf f = unitsGroup) := by
  simp [toManagement]

theorem trunkFrameIn_malformed {f : Frame} {s : State} (nonempty : f ≠ []) (fits : f.length ≤ 1600)
    (mine : toManagement s f = true) (short : f.length < 22) :
    trunkFrameIn f s = { s with trunk := { s.trunk with n := { s.trunk.n with
      trunkIn := s.trunk.n.trunkIn + 1
      trunkOctetIn := s.trunk.n.trunkOctetIn + BitVec.ofNat 32 f.length
      malformedDrop := s.trunk.n.malformedDrop + 1 } } } := by
  unfold trunkFrameIn
  have unheld : (!holdsFixedPart f) = true := by simp [holdsFixedPart, short]
  rw [if_neg nonempty, if_neg (by omega)]
  refine (if_pos mine).trans ((if_pos unheld).trans rfl)

theorem trunkFrameIn_request {f : Frame} {s : State} (nonempty : f ≠ []) (fits : f.length ≤ 1600)
    (mine : toManagement s f = true) (long : 22 ≤ f.length) (request : replyFlag f = false) :
    trunkFrameIn f s = { s with
      agent := { s.agent with requests := s.agent.requests ++ [.framed .trunk f] }
      trunk := { s.trunk with n := { s.trunk.n with
        trunkIn := s.trunk.n.trunkIn + 1
        trunkOctetIn := s.trunk.n.trunkOctetIn + BitVec.ofNat 32 f.length
        mgmtIn := s.trunk.n.mgmtIn + 1 } } } := by
  unfold trunkFrameIn
  have held : ¬ (!holdsFixedPart f) = true := by simp [holdsFixedPart, long]
  rw [if_neg nonempty, if_neg (by omega)]
  exact (if_pos mine).trans ((if_neg held).trans ((if_neg (by simp [request])).trans rfl))

/-- Settles O38. -/
theorem trunkFramesDropped : Obligations.TrunkFramesDropped := by
  intro f s taking nonempty
  rw [exec_trunkFrameIn f taking]
  refine ⟨fun long => ?_, fun fits typed addressed => ?_⟩
  · rw [trunkFrameIn_long s.silent nonempty long]
    rfl
  · have mine : toManagement s.silent f = true := toManagement_iff.2 ⟨typed, addressed⟩
    refine ⟨fun short => ?_, fun long request => ?_⟩
    · rw [trunkFrameIn_malformed nonempty fits mine short]
      rfl
    · rw [trunkFrameIn_request nonempty fits mine long request]
      rfl

/-! ## Sends (R148) -/

theorem beginSend_idle {s : State} (h : s.trunk.sending = true ∨ s.trunk.egress = [] ∨ s.trunk.ready = false) :
    beginSend s = s := by
  unfold beginSend
  split
  · rfl
  · next e es queue =>
    refine if_neg fun both => ?_
    simp only [Bool.and_eq_true, Bool.not_eq_true'] at both
    rcases h with sending | nothing | unready
    · rw [sending] at both
      simp at both
    · rw [queue] at nothing
      simp at nothing
    · rw [unready] at both
      simp at both

theorem beginSend_begins {e : EgressEntry} {es : List EgressEntry} {s : State} (queue : s.trunk.egress = e :: es)
    (ready : s.trunk.ready = true) (free : s.trunk.sending = false) :
    beginSend s = emit (.trunkSend e.frame) { s with trunk := { s.trunk with sending := true } } := by
  unfold beginSend
  rw [queue]
  exact if_pos (by simp [ready, free])

theorem reportReset_none {s : State} (h : s.agent.reset = none) : reportReset s = s := by
  unfold reportReset
  rw [h]

/-- The state right after a send has completed, before the next begins (R148). -/
def sent (ready : Bool) (e : EgressEntry) (es : List EgressEntry) (s : State) : State :=
  { s with trunk := {
      egress := es, sending := false, ready := ready
      n := { s.trunk.n with
        trunkOut := s.trunk.n.trunkOut + 1
        trunkOctetOut := s.trunk.n.trunkOctetOut + BitVec.ofNat 32 e.frame.length } } }

theorem trunkSendComplete_sending {ready : Bool} {e : EgressEntry} {es : List EgressEntry} {s : State}
    (sending : s.trunk.sending = true) (queue : s.trunk.egress = e :: es) (noReset : s.agent.reset = none) :
    trunkSendComplete ready s = beginSend (sent ready e es s) := by
  have unreported : reportReset (sent ready e es s) = sent ready e es s := reportReset_none noReset
  have taken : trunkSendComplete ready s =
      checkReset (beginSend (if e.resetReply then reportReset (sent ready e es s) else sent ready e es s)) := by
    unfold trunkSendComplete
    rw [sending, queue]
    rfl
  rw [taken, unreported, ite_self]
  exact checkReset_none ((beginSend_follows _).reset noReset)

theorem trunkSendComplete_idle {ready : Bool} {s : State} (idle : s.trunk.sending = false) :
    trunkSendComplete ready s = s := by
  unfold trunkSendComplete
  rw [idle]

/-- Settles O40. -/
theorem trunkSends : Obligations.TrunkSends := by
  intro ready s ⟨taking, noReset⟩
  have turned : exec .trunkReady s = .next (beginSend (setReady true s.silent)) :=
    takeCommand_taking (fun s => beginSend (setReady true s)) taking
  have completed : exec (.trunkSendComplete ready) s = .next (trunkSendComplete ready s.silent) :=
    takeCommand_taking _ taking
  refine ⟨fun idle => ?_, fun e es queue => ⟨fun free => ?_, fun sending => ?_⟩, fun idle => ?_⟩
  · rw [turned, beginSend_idle (s := setReady true s.silent) (idle.imp_right .inl)]
    rfl
  · rw [turned, beginSend_begins (s := setReady true s.silent) queue rfl free]
    rfl
  · rw [completed, trunkSendComplete_sending (s := s.silent) sending queue noReset]
    match ready, es with
    | false, es =>
      rw [beginSend_idle (s := sent false e es s.silent) (.inr (.inr rfl))]
      rfl
    | true, [] =>
      rw [beginSend_idle (s := sent true e [] s.silent) (.inr (.inl rfl))]
      rfl
    | true, x :: xs =>
      rw [beginSend_begins (s := sent true e (x :: xs) s.silent) rfl rfl rfl]
      rfl
  · rw [completed, trunkSendComplete_idle (s := s.silent) idle]

end Sys2Proof.Proofs
end

