-- ==== Sys2Proof/Proofs/RequestsUnserved.lean ====
section
/-! PROOF. The requests that change nothing: the reads (O41) and those that a test refuses (O42). -/

namespace Sys2Proof.Proofs
open Sys2Proof Sys2Proof.Machine Sys2Proof.Laws

/-! ## A request that leaves only its reply -/

/-- A request whose service changed nothing is answered and leaves only its reply. -/
theorem takeRequest_unchanged {q : ReqHead} {b : ReqBody} {st : Status} {body : ReplyBody} {s : State}
    (noReset : s.agent.reset = none) (served : serve q b s.silent = ⟨st, body, counted s⟩)
    (plain : ¬ (b = .resetPart ∧ st = .ok)) (quiet : startsEvents b st = false) :
    Answers q (kindCode b) st body s.cfg.stationAddress (takeRequest q b s.silent) ∧
      OnlyReply q s (takeRequest q b s.silent) := by
  have answered := takeRequest_answered q b (s := s.silent) noReset (by rwa [served]) (by rw [served]; exact noReset)
  rw [served] at answered
  exact ⟨answered.reply, answered.onlyReply rfl noReset quiet⟩

/-- The same for a request command that no other request waits before. -/
theorem exec_unchanged {c : Instr} {q : ReqHead} {b : ReqBody} {st : Status} {body : ReplyBody} {s : State} (h : s.open)
    (request : requestOf c = some (q, b)) (noneWaits : s.agent.requests = [])
    (served : serve q b s.silent = ⟨st, body, counted s⟩) (plain : ¬ (b = .resetPart ∧ st = .ok))
    (quiet : startsEvents b st = false) :
    ∃ t, exec c s = .next t ∧ Answers q (kindCode b) st body s.cfg.stationAddress t ∧ OnlyReply q s t := by
  obtain ⟨taking, noReset⟩ := h
  refine ⟨takeRequest q b s.silent, ?_, takeRequest_unchanged noReset served plain quiet⟩
  rw [exec_request request, takeCommand_taking _ taking, ← State.silent,
    requestArrives_taken q b (s := s.silent) noneWaits]

/-- The statuses after which other blocks have events (R183). -/
theorem startsEvents_of_refused (b : ReqBody) {st : Status} (h : st ≠ .ok ∧ st ≠ .clamped ∧ st ≠ .provingAborted) :
    startsEvents b st = false := by
  obtain ⟨notOk, notClamped, notAborted⟩ := h
  cases b <;> simp [startsEvents, notOk, notClamped, notAborted]

/-- A request refused with nothing changed. -/
theorem exec_refused {c : Instr} {q : ReqHead} {b : ReqBody} {st : Status} {body : ReplyBody} {s : State} (h : s.open)
    (request : requestOf c = some (q, b)) (noneWaits : s.agent.requests = [])
    (served : serve q b s.silent = ⟨st, body, counted s⟩)
    (refused : st ≠ .ok ∧ st ≠ .clamped ∧ st ≠ .provingAborted) :
    ∃ t, exec c s = .next t ∧ Answers q (kindCode b) st body s.cfg.stationAddress t ∧ OnlyReply q s t :=
  exec_unchanged h request noneWaits served (fun both => refused.1 both.2) (startsEvents_of_refused b refused)

/-! ## The reads (R65, R189-R191, R200) -/

theorem classIndex_map_eq_some {α : Type} {o : Octet} {f : ClassNo → α} {r : α} (h : (classIndex o).map f = some r) :
    ∃ c, classIndex o = some c ∧ f c = r := Option.map_eq_some_iff.1 h

/-- A read is served with its report and changes nothing. -/
theorem serveBody_read {b : ReqBody} {r : ReplyBody} {s : State} (read : changesState b = false)
    (report : reportOf s b = some r) : serveBody b (counted s) = ⟨.ok, r, counted s⟩ := by
  cases b with
  | readIdentity =>
    obtain rfl := Option.some.inj report
    rfl
  | readSettings g =>
    cases g with
    | bond =>
      obtain rfl := Option.some.inj report
      rfl
    | notice =>
      obtain rfl := Option.some.inj report
      rfl
    | cls o =>
      obtain ⟨c, named, rfl⟩ := Option.map_eq_some_iff.1 report
      simp only [serveBody, serveReadSettings, named]
      rfl
    | pair o =>
      obtain ⟨p, named, rfl⟩ := Option.map_eq_some_iff.1 report
      simp only [serveBody, serveReadSettings, named]
      rfl
    | unknown g => exact absurd report (by simp [reportOf])
  | readPair o =>
    obtain ⟨p, named, rfl⟩ := Option.map_eq_some_iff.1 report
    simp only [serveBody, serveReadPair, named]
    rfl
  | readStage =>
    obtain rfl := Option.some.inj report
    rfl
  | readTableCounters =>
    obtain rfl := Option.some.inj report
    rfl
  | readNotices =>
    obtain rfl := Option.some.inj report
    rfl
  | readCounters g clear =>
    obtain rfl : clear = false := read
    cases g with
    | trunk =>
      obtain rfl := Option.some.inj report
      rfl
    | cls o =>
      obtain ⟨c, named, rfl⟩ := Option.map_eq_some_iff.1 report
      simp only [serveBody, serveReadCounters, named]
      rfl
    | pair o =>
      obtain ⟨p, named, rfl⟩ := Option.map_eq_some_iff.1 report
      simp only [serveBody, serveReadCounters, named]
      rfl
    | unknown g => exact absurd report (by simp [reportOf])
  | _ => simp [changesState, reportOf] at read report

/-- Settles O41. -/
theorem readsAnswered : Obligations.ReadsAnswered := by
  intro c q b r s h request noneWaits header read report
  have admission : Admits q b s := ⟨header, fun changes => absurd changes (by simp [read]), noneWaits⟩
  refine exec_unchanged h request noneWaits ((serve_admitted admission).trans (serveBody_read read report)) ?_ ?_
  · rintro ⟨rfl, -⟩
    simp [changesState] at read
  · cases b <;> first | rfl | simp [changesState] at read

/-! ## The tests (R184, R187, R188) -/

theorem serve_header {q : ReqHead} {b : ReqBody} {st : Status} (s : State) (fails : headerFails q b = some st) :
    serve q b s.silent = refuse st (counted s) := by
  simp only [serve, serveTested, fails]
  rfl

theorem serve_ungoverned {q : ReqHead} {b : ReqBody} {s : State} (header : headerFails q b = none)
    (changes : changesState b = true) (governed : pathGoverned s q.path = true) :
    serve q b s.silent = refuse .notPermitted (counted s) := by
  simp only [serve, serveTested, header]
  exact if_pos (by rw [changes, Bool.true_and]; exact governed)

theorem headerFails_malformed {q : ReqHead} (b : ReqBody) (h : q.version ≠ 1 ∨ q.present < q.bodyLen) :
    headerFails q b = some .malformed := by
  unfold headerFails
  by_cases version : q.version ≠ 1
  · rw [if_pos version]
  · rw [if_neg version, if_pos (h.resolve_left version)]

theorem headerFails_raw {q : ReqHead} (k : Octet) (version : q.version = 1) (whole : q.bodyLen ≤ q.present) :
    headerFails q (.raw k) = if isRequestKind k then some .malformed else some .badKind := by
  unfold headerFails
  rw [if_neg (by simpa using version), if_neg (by omega)]

theorem headerFails_form {q : ReqHead} {b : ReqBody} (version : q.version = 1) (whole : q.bodyLen ≤ q.present)
    (known : ∀ k : Octet, b ≠ .raw k) (ill : q.formed = false ∨ countsWell b = false) :
    headerFails q b = some .malformed := by
  have unformed : ¬ (q.formed && countsWell b) = true := by
    rcases ill with e | e <;> simp [e]
  unfold headerFails
  rw [if_neg (by simpa using version), if_neg (by omega)]
  cases b <;> first | exact if_neg unformed | exact absurd rfl (known _)

theorem countsWell_false_iff {b : ReqBody} : countsWell b = false ↔
    (∃ xs : List StageItem, b = .tableStage xs ∧ (xs = [] ∨ 25 < xs.length)) ∨
      (∃ w : SettingsWrite, b = .writeSettings w ∧ 40 < itemCount w) := by
  cases b <;> simp [countsWell]
  next xs =>
    cases xs <;> simp

theorem pathGoverned_iff {s : State} {path : ServicePath} : pathGoverned s path = true ↔
    (s.bond.role = .homestead ∧ path = .trunk ∧ s.cfg.trunkWrites = false) ∨
      (s.bond.role = .cabinet ∧ path = .bond ∧ s.cfg.bondWrites = false) := by
  simp [pathGoverned, and_assoc]

theorem pairIndex_beyond {o : Octet} (h : 8 ≤ o.toNat) : pairIndex o = none := dif_neg (by omega)

theorem classIndex_beyond {o : Octet} (h : 3 ≤ o.toNat) : classIndex o = none := dif_neg (by omega)

/-- An index outside its group is refused (R188 a). -/
theorem serveBody_badIndex {b : ReqBody} (s : State)
    (h : (∃ (o : Octet), 8 ≤ o.toNat ∧ (b = .readPair o ∨ b = .readSettings (.pair o) ∨
          (∃ a, b = .pairCommand o a) ∨ (∃ xs, b = .writeSettings (.pair o xs)) ∨
          (∃ clear, b = .readCounters (.pair o) clear))) ∨
        (∃ (o : Octet), 3 ≤ o.toNat ∧ (b = .readSettings (.cls o) ∨
          (∃ xs, b = .writeSettings (.cls o xs)) ∨ (∃ clear, b = .readCounters (.cls o) clear))) ∨
        (∃ (o : Octet), 32 ≤ o.toNat ∧ (b = .tableCommit o ∨ b = .tableFetch o ∨ b = .tableClear o))) :
    serveBody b s = refuse .badIndex s := by
  rcases h with ⟨o, beyond, h⟩ | ⟨o, beyond, h⟩ | ⟨o, beyond, h⟩
  · have unnamed := pairIndex_beyond beyond
    rcases h with rfl | rfl | ⟨a, rfl⟩ | ⟨xs, rfl⟩ | ⟨clear, rfl⟩
    · simp only [serveBody, serveReadPair, unnamed]
    · simp only [serveBody, serveReadSettings, unnamed]
    · simp only [serveBody, servePairCommand, unnamed]
    · simp only [serveBody, serveWriteSettings, unnamed]
    · simp only [serveBody, serveReadCounters, unnamed]
  · have unnamed := classIndex_beyond beyond
    rcases h with rfl | ⟨xs, rfl⟩ | ⟨clear, rfl⟩
    · simp only [serveBody, serveReadSettings, unnamed]
    · simp only [serveBody, serveWriteSettings, unnamed]
    · simp only [serveBody, serveReadCounters, unnamed]
  · have unnamed := entryIndex_beyond (o := o) (by omega)
    rcases h with rfl | rfl | rfl
    · simp only [serveBody, serveTableCommit, unnamed]
    · exact serveBody_tableFetch_refused unnamed s
    · exact serveBody_tableClear_refused unnamed s

/-- An unknown group is refused by its name (R188 b). -/
theorem serveBody_unknownGroup {b : ReqBody} (s : State)
    (h : (∃ g, b = .readSettings (.unknown g)) ∨ (∃ g, b = .writeSettings (.unknown g)) ∨
      (∃ g clear, b = .readCounters (.unknown g) clear)) : serveBody b s = badValue .group s := by
  rcases h with ⟨g, rfl⟩ | ⟨g, rfl⟩ | ⟨g, clear, rfl⟩ <;> rfl

/-- An unknown action on a pair without a run is refused by its name (R188 d). -/
theorem serveBody_unknownAction {o : Octet} {p : PairNo} {s : State} (named : pairIndex o = some p)
    (free : s.runOn p = false) : serveBody (.pairCommand o none) s = badValue .action s := by
  simp [serveBody, servePairCommand, named, free]

theorem step_idle {s : State} (noCommand : s.pending = []) : step s = .next (idle s) := by
  unfold step
  rw [noCommand]

theorem idle_serves {s : State} (taking : s.taking) (waits : s.agent.requests ≠ []) : idle s = serveNext s.silent := by
  unfold idle
  exact if_pos (by simpa [taking] using waits)

/-- The agent takes the first of the requests that wait (R183). -/
theorem step_serves {r : Request} {rs : List Request} {s : State} (taking : s.taking) (noCommand : s.pending = [])
    (waits : s.agent.requests = r :: rs) (near : r.farFrame = none) :
    step s = .next (takeRequest (readRequest r).1 (readRequest r).2
      { s.silent with agent := { s.agent with requests := rs } }) := by
  rw [step_idle noCommand, idle_serves taking (by simp [waits]), serveNext_served (s := s.silent) waits near]
  rfl

theorem farFrame_none {r : Request} (h : ∀ f : Frame, r = .framed .trunk f → targetFar f = false) : r.farFrame = none := by
  refine Option.eq_none_iff_forall_not_mem.2 fun f m => ?_
  obtain ⟨rfl, far⟩ := farFrame_eq_some.1 m
  simp [h f rfl] at far

/-- Settles O42. -/
theorem requestsRefused : Obligations.RequestsRefused := by
  intro c q b s h request noneWaits
  have malformed : ∀ {k : Octet}, headerFails q b = some .malformed → kindCode b = k →
      ∃ t, exec c s = .next t ∧ Answers q k .malformed .empty s.cfg.stationAddress t ∧ OnlyReply q s t := by
    rintro _ fails rfl
    exact exec_refused h request noneWaits (serve_header s fails) (by decide)
  refine ⟨fun ill => malformed (headerFails_malformed b ill) rfl, fun version whole => ⟨fun k e unknown => ?_, ?_⟩,
    fun header changes governed => ?_, fun admission beyond => ?_, fun admission unknown => ?_, ?_⟩
  · subst e
    have unkind : ¬ isRequestKind k = true := by
      simp only [isRequestKind, Bool.and_eq_true, decide_eq_true_eq]
      omega
    exact exec_refused h request noneWaits
      (serve_header s ((headerFails_raw k version whole).trans (if_neg unkind))) (by decide)
  · rintro (⟨k, rfl, low, high⟩ | ⟨known, ill⟩)
    · have kind : isRequestKind k = true := by simp [isRequestKind, low, high]
      exact malformed ((headerFails_raw k version whole).trans (if_pos kind)) rfl
    · exact malformed (headerFails_form version whole known (ill.imp_right countsWell_false_iff.2)) rfl
  · exact exec_refused h request noneWaits (serve_ungoverned header changes (pathGoverned_iff.2 governed)) (by decide)
  · exact exec_refused h request noneWaits
      ((serve_admitted admission).trans (serveBody_badIndex (counted s) beyond)) (by decide)
  · exact exec_refused h request noneWaits
      ((serve_admitted admission).trans (serveBody_unknownGroup (counted s) unknown)) (by decide)
  · intro r o p noCommand reads near admission named free
    obtain ⟨taking, noReset⟩ := h
    have alone : ({ s.agent with requests := [] } : Agent) = s.agent := by rw [← noneWaits]
    have taken := step_serves (s := { s with agent := { s.agent with requests := [r] } }) taking noCommand rfl
      (farFrame_none near)
    rw [reads] at taken
    refine ⟨takeRequest q (.pairCommand o none) s.silent, taken.trans (congrArg (fun a =>
      Host.Outcome.next (takeRequest q (.pairCommand o none) { s.silent with agent := a })) alone), ?_⟩
    exact takeRequest_unchanged noReset
      ((serve_admitted admission).trans (serveBody_unknownAction (s := counted s) named free)) (by simp) rfl

end Sys2Proof.Proofs
end

