-- ==== Sys2Proof/Proofs/Staging.lean ====
section
/-! PROOF. TABLE-STAGE and TABLE-COMMIT (R46, R59-R62): O49. -/

namespace Sys2Proof.Proofs
open Sys2Proof Sys2Proof.Machine Sys2Proof.Laws

/-! ## Sets named by a list of numbers -/

theorem getLsbD_bit {w : Nat} (i : Nat) {j : Nat} (h : j < w) : ((1#w) <<< i).getLsbD j = decide (j = i) := by
  simp only [BitVec.getLsbD_shiftLeft, BitVec.getLsbD_one, h, decide_true, Bool.true_and]
  by_cases e : j = i
  · simp [e]
    omega
  · simp [e]
    omega

/-- The set that a list of bit numbers names. -/
theorem getLsbD_bits {w : Nat} (is : List Nat) (m : BitVec w) {j : Nat} (h : j < w) :
    (is.foldl (fun m i => m ||| ((1#w) <<< i)) m).getLsbD j = (m.getLsbD j || decide (j ∈ is)) := by
  induction is generalizing m with
  | nil => simp
  | cons i is ih =>
    rw [List.foldl_cons, ih, BitVec.getLsbD_or, getLsbD_bit i h]
    simp [Bool.or_assoc]

theorem pairMapOf_holds (ps : List Nat) (p : PairNo) : (pairMapOf ps).holds p = decide (p.val ∈ ps) := by
  rw [PairMap.holds, pairMapOf, getLsbD_bits ps _ p.isLt]
  simp

theorem entrySetOf_holds (is : List Nat) (i : Fin 32) : (entrySetOf is).holds i = decide (i.val ∈ is) := by
  rw [EntrySet.holds, entrySetOf, getLsbD_bits is _ i.isLt]
  simp

/-! ## Staged values (R46, R60) -/

theorem stagesEach_of {β : Type} {field : Option β → StageItem} {write : β → EntryFields → EntryFields}
    (h : ∀ e v, stageInto e (field v) = v.map fun v => write v e) : StagesEach field write := fun e =>
  ⟨h e none, fun v => h e (some v)⟩

theorem stagesTo_of {field : Nat → StageItem} {write : Nat → EntryFields → EntryFields} {hi : Nat}
    (h : ∀ e n, stageInto e (field n) = if n < hi + 1 then some (write n e) else none) : StagesTo field write hi := by
  intro e n
  rw [h]
  exact if_congr (by omega) rfl rfl

theorem all_below_iff {ns : List Nat} {k : Nat} : ns.all (fun n => decide (n < k + 1)) = true ↔ ¬ ∃ n ∈ ns, k < n := by
  simp

/-- Which items are accepted does not hang on the image. -/
theorem stageInto_isSome (e f : EntryFields) (x : StageItem) : (stageInto e x).isSome = (stageInto f x).isSome := by
  cases x <;> simp only [stageInto, Option.isSome_map, Option.isSome_some] <;> split <;> rfl

theorem mem_addField {f g : Field} {fs : List Field} : g ∈ addField f fs ↔ g = f ∨ g ∈ fs := by
  unfold addField
  split
  · next m =>
    rw [List.contains_iff_mem] at m
    exact ⟨.inr, fun h => h.elim (fun e => e ▸ m) id⟩
  · simp [or_comm]

theorem addField_nodup {f : Field} {fs : List Field} (h : fs.Nodup) : (addField f fs).Nodup := by
  unfold addField
  split
  · exact h
  · next m =>
    refine List.nodup_append.2 ⟨h, by simp, fun a member b named => ?_⟩
    obtain rfl := List.mem_singleton.1 named
    rintro rfl
    exact m (List.contains_iff_mem.2 member)

/-- An accepted item has the name of a field. -/
theorem stageName_of_accepted {e : EntryFields} {x : StageItem} (h : (stageInto e x).isSome = true) :
    ∃ f, stageName x = .inl f := by
  cases x
  case unknown => simp [stageInto] at h
  all_goals exact ⟨_, rfl⟩

/-- What staging a list of accepted items gives (R60). -/
structure Staged (xs : List StageItem) (img : EntryFields) (en : List Field) (img' : EntryFields) (en' : List Field) :
    Prop where
  image : img' = xs.foldl (fun e x => (stageInto e x).getD e) img
  names : ∀ f : Field, f ∈ en' ↔ f ∈ en ∨ ∃ x ∈ xs, stageName x = .inl f
  once : en.Nodup → en'.Nodup

theorem stageAll_cons {e e' : EntryFields} {x : StageItem} {f : Field} (xs : List StageItem) (en : List Field)
    (name : stageName x = .inl f) (written : stageInto e x = some e') :
    stageAll (x :: xs) e en = stageAll xs e' (addField f en) := by
  rw [stageAll, name, written]

theorem stageAll_accepted {xs : List StageItem} {img : EntryFields} (en : List Field)
    (h : ∀ x ∈ xs, (stageInto img x).isSome = true) :
    ∃ img' en', stageAll xs img en = .ok (img', en') ∧ Staged xs img en img' en' := by
  induction xs generalizing img en with
  | nil => exact ⟨img, en, rfl, rfl, by simp, id⟩
  | cons x xs ih =>
    obtain ⟨e, written⟩ := Option.isSome_iff_exists.1 (h x List.mem_cons_self)
    obtain ⟨f, name⟩ := stageName_of_accepted (h x List.mem_cons_self)
    obtain ⟨img', en', all, image, names, once⟩ := ih (img := e) (addField f en) fun y m => by
      rw [stageInto_isSome e img]
      exact h y (List.mem_cons_of_mem x m)
    refine ⟨img', en', (stageAll_cons xs en name written).trans all, ?_, fun g => ?_, fun nodup => once (addField_nodup nodup)⟩
    · rw [image, List.foldl_cons, written, Option.getD_some]
    · rw [names, mem_addField]
      simp only [List.mem_cons, exists_eq_or_imp, name, Sum.inl.injEq]
      rw [or_assoc, or_left_comm, eq_comm (a := g)]

/-- What a refused item names (R60). -/
def stageRefused (x : StageItem) : Refused :=
  match stageName x with
  | .inl f => .field f
  | .inr m => .fieldName m

/-- The first refused item ends the staging (R60). -/
theorem stageAll_refused {pre : List StageItem} {x : StageItem} {img : EntryFields} (post : List StageItem)
    (en : List Field) (before : ∀ y ∈ pre, (stageInto img y).isSome = true) (refused : stageInto img x = none) :
    stageAll (pre ++ x :: post) img en = .error (stageRefused x) := by
  induction pre generalizing img en with
  | nil =>
    rw [List.nil_append, stageAll, refused, stageRefused]
    cases stageName x <;> rfl
  | cons y pre ih =>
    obtain ⟨e, written⟩ := Option.isSome_iff_exists.1 (before y List.mem_cons_self)
    obtain ⟨f, name⟩ := stageName_of_accepted (before y List.mem_cons_self)
    rw [List.cons_append, stageAll_cons (pre ++ x :: post) en name written]
    refine ih (addField f en) (fun z m => ?_) ?_
    · rw [stageInto_isSome e img]
      exact before z (List.mem_cons_of_mem y m)
    · rw [← Option.not_isSome_iff_eq_none, stageInto_isSome e img, refused]
      decide

/-! ## The committed entry (R61) -/

/-- The fields of an entry with those that a list names taken from an image (R61). -/
def mergedFields (a b : EntryFields) (en : List Field) : EntryFields :=
  (committed { table := Vector.replicate 32 { f := b }, image := a, enable := en } 0)

theorem mergedFields_nil (a b : EntryFields) : mergedFields a b [] = b := rfl

theorem mergedFields_cons (a b : EntryFields) (f : Field) (en : List Field) :
    mergedFields a (copyField a b f) en = mergedFields a b (f :: en) := by
  cases f <;> simp [mergedFields, committed, copyField, Vector.get]

theorem foldl_copyField (a b : EntryFields) (en : List Field) : en.foldl (copyField a) b = mergedFields a b en := by
  induction en generalizing b with
  | nil => rfl
  | cons f en ih => rw [List.foldl_cons, ih, mergedFields_cons]

theorem commitResult_eq (k : Classifier) (i : Fin 32) : commitResult k i = committed k i :=
  foldl_copyField k.image (k.table.get i).f k.enable

/-! ## The requests -/

/-- A request that meets its tests is served by its kind and answered (R183-R188). -/
theorem exec_answered {c : Instr} {q : ReqHead} {b : ReqBody} {v : Served} {s : State} (h : s.open)
    (request : requestOf c = some (q, b)) (a : Admits q b s) (plain : b ≠ .resetPart)
    (served : serveBody b (counted s) = v) (k : v.state.agent.reset = none) :
    ∃ t, exec c s = .next t ∧ Answered q b v t := by
  obtain ⟨t, next, answered⟩ := requestArrives_answered h a plain (by rwa [served])
  rw [served] at answered
  exact ⟨t, (exec_request request s).trans next, answered⟩

/-- TABLE-STAGE of accepted items (R60). -/
theorem tableStage_stages {q : ReqHead} {xs : List StageItem} {s : State} (h : s.open)
    (a : Admits q (.tableStage xs) s) (accepted : ∀ x ∈ xs, (stageInto s.classifier.image x).isSome = true) :
    ∃ t, exec (.tableStage q xs) s = .next t ∧ t.classifier.table = s.classifier.table ∧
      Staged xs s.classifier.image s.classifier.enable t.classifier.image t.classifier.enable ∧
      Answers q 6 .ok (.enableSet t.classifier.enable) s.cfg.stationAddress t ∧ AllLeft s t := by
  obtain ⟨img, en, all, staged⟩ := stageAll_accepted s.classifier.enable accepted
  have served : serveBody (.tableStage xs) (counted s) = ⟨.ok, .enableSet en,
      { counted s with classifier := { s.classifier with image := img, enable := en } }⟩ := by
    unfold serveBody serveTableStage
    simp only [counted, countTrunk, State.silent, all]
  obtain ⟨t, next, answered⟩ := exec_answered (c := .tableStage q xs) h rfl a (by simp) served h.2
  have after : t.classifier = { s.classifier with image := img, enable := en } := answered.follows.classifier
  refine ⟨t, next, ?_⟩
  rw [after]
  exact ⟨rfl, staged, answered.reply, answered.follows.pairs⟩

theorem tableStage_refused {q : ReqHead} {pre post : List StageItem} {x : StageItem} {s : State} (h : s.open)
    (a : Admits q (.tableStage (pre ++ x :: post)) s)
    (before : ∀ y ∈ pre, (stageInto s.classifier.image y).isSome = true) (refused : stageInto s.classifier.image x = none) :
    ∃ t, exec (.tableStage q (pre ++ x :: post)) s = .next t ∧
      Answers q 6 .badValue (.refused (stageRefused x)) s.cfg.stationAddress t ∧ OnlyReply q s t := by
  obtain ⟨-, -, noneWaits⟩ := id a
  have all := stageAll_refused post s.classifier.enable before refused
  have served : serveBody (.tableStage (pre ++ x :: post)) (counted s) = badValue (stageRefused x) (counted s) := by
    unfold serveBody serveTableStage
    simp only [counted, countTrunk, State.silent, all]
  exact exec_refused (c := .tableStage q (pre ++ x :: post)) h rfl noneWaits ((serve_admitted a).trans served) (by decide)

theorem serveBody_tableCommit {o : Octet} {i : Fin 32} (named : entryIndex o = some i) (s : State) :
    serveBody (.tableCommit o) s =
      match failedCheck i (committed s.classifier i) with
      | some c => badValue (.check c) s
      | none => ⟨.ok, .empty, commitEntry i (committed s.classifier i) s⟩ := by
  simp only [serveBody, serveTableCommit, named, commitResult_eq] <;> rfl

/-- A commit that fails a check changes nothing (R61). -/
theorem tableCommit_refused {q : ReqHead} {o : Octet} {i : Fin 32} {x : CommitCheck} {s : State} (h : s.open)
    (a : Admits q (.tableCommit o) s) (named : entryIndex o = some i)
    (fails : failedCheck i (committed s.classifier i) = some x) :
    ∃ t, exec (.tableCommit q o) s = .next t ∧ Answers q 7 .badValue (.refused (.check x)) s.cfg.stationAddress t ∧
      OnlyReply q s t := by
  obtain ⟨-, -, noneWaits⟩ := id a
  refine exec_refused (c := .tableCommit q o) h rfl noneWaits ((serve_admitted a).trans ?_) (by decide)
  rw [serveBody_tableCommit named, show (counted s).classifier = s.classifier from rfl, fails]
  rfl

/-- A commit that passes its checks (R62). -/
theorem tableCommit_applies {q : ReqHead} {o : Octet} {i : Fin 32} {s : State} (h : s.open)
    (a : Admits q (.tableCommit o) s) (named : entryIndex o = some i)
    (passes : failedCheck i (committed s.classifier i) = none) :
    ∃ t, exec (.tableCommit q o) s = .next t ∧ AllLeft s t ∧ ContextsLeft s t ∧
      Answers q 7 .ok .empty s.cfg.stationAddress t ∧
      t.classifier.table.get i = { f := committed s.classifier i, matched := 0 } ∧
      (∀ j : Fin 32, j ≠ i → t.classifier.table.get j = s.classifier.table.get j) ∧
      t.classifier.enable = [] ∧ t.classifier.image = s.classifier.image := by
  have served : serveBody (.tableCommit o) (counted s) =
      ⟨.ok, .empty, commitEntry i (committed s.classifier i) (counted s)⟩ := by
    rw [serveBody_tableCommit named, show (counted s).classifier = s.classifier from rfl, passes]
  obtain ⟨t, next, answered⟩ := exec_answered (c := .tableCommit q o) h rfl a (by simp) served h.2
  have after : t.classifier = (commitEntry i (committed s.classifier i) (counted s)).classifier :=
    answered.follows.classifier
  refine ⟨t, next, answered.follows.pairs, answered.follows.contexts, answered.reply, ?_, fun j other => ?_,
    by rw [after]; rfl, by rw [after]; rfl⟩
  · rw [after]
    change (modEntry i (fun _ => { f := committed s.classifier i, matched := 0 }) (counted s)).classifier.table.get i = _
    rw [modEntry_get, if_pos rfl]
  · rw [after]
    change (modEntry i (fun _ => { f := committed s.classifier i, matched := 0 }) (counted s)).classifier.table.get j = _
    rw [modEntry_get, if_neg other]
    rfl

theorem failedCheck_eq (i : Fin 32) (r : EntryFields) : failedCheck i r =
    if r.kind = .unused ∧ r.primary = true then some .unusedPrimary
    else if r.companions.holds i = true then some .ownCompanion
    else if (r.portMode = .inside ∨ r.portMode = .outside) ∧ r.portMax < r.portMin then some .portRange
    else if r.cls = 3 then some .classThree
    else none := by
  simp [failedCheck]

/-- Settles O49. -/
theorem stagingAndCommit : Obligations.StagingAndCommit := by
  intro q xs o i s h
  refine ⟨fun a => ⟨fun accepted => ?_, ?_⟩, fun a named => ?_, ?_⟩
  · obtain ⟨t, next, table, ⟨image, names, once⟩, reply, left⟩ := tableStage_stages h a accepted
    exact ⟨t, next, image, table, names, once, reply, left⟩
  · rintro pre post x rfl before refused
    obtain ⟨t, next, reply, only⟩ := tableStage_refused h a before refused
    exact ⟨t, next, only, reply⟩
  · have refused : ∀ x, failedCheck i (committed s.classifier i) = some x → ∃ t, exec (.tableCommit q o) s = .next t ∧
        AllLeft s t ∧ ContextsLeft s t ∧ OnlyReply q s t ∧
        Answers q 7 .badValue (.refused (.check x)) s.cfg.stationAddress t := by
      intro x fails
      obtain ⟨t, next, reply, only⟩ := tableCommit_refused h a named fails
      obtain ⟨-, -, left, -, contexts, -⟩ := id only
      exact ⟨t, next, left, contexts, only, reply⟩
    have check := failedCheck_eq i (committed s.classifier i)
    by_cases c1 : (committed s.classifier i).kind = .unused ∧ (committed s.classifier i).primary = true
    · obtain ⟨t, next, left, contexts, outcome⟩ := refused _ (check.trans (if_pos c1))
      exact ⟨t, next, left, contexts, (if_pos c1).mpr outcome⟩
    rw [if_neg c1] at check
    by_cases c2 : (committed s.classifier i).companions.holds i = true
    · obtain ⟨t, next, left, contexts, outcome⟩ := refused _ (check.trans (if_pos c2))
      exact ⟨t, next, left, contexts, (if_neg c1).mpr ((if_pos c2).mpr outcome)⟩
    rw [if_neg c2] at check
    by_cases c3 : ((committed s.classifier i).portMode = .inside ∨ (committed s.classifier i).portMode = .outside) ∧
        (committed s.classifier i).portMax < (committed s.classifier i).portMin
    · obtain ⟨t, next, left, contexts, outcome⟩ := refused _ (check.trans (if_pos c3))
      exact ⟨t, next, left, contexts, (if_neg c1).mpr ((if_neg c2).mpr ((if_pos c3).mpr outcome))⟩
    rw [if_neg c3] at check
    by_cases c4 : (committed s.classifier i).cls = 3
    · obtain ⟨t, next, left, contexts, outcome⟩ := refused _ (check.trans (if_pos c4))
      exact ⟨t, next, left, contexts, (if_neg c1).mpr ((if_neg c2).mpr ((if_neg c3).mpr ((if_pos c4).mpr outcome)))⟩
    obtain ⟨t, next, left, contexts, outcome⟩ := tableCommit_applies h a named (check.trans (if_neg c4))
    exact ⟨t, next, left, contexts, (if_neg c1).mpr ((if_neg c2).mpr ((if_neg c3).mpr ((if_neg c4).mpr outcome)))⟩
  · refine ⟨stagesEach_of fun _ _ => rfl, stagesEach_of fun _ _ => rfl, stagesEach_of fun _ _ => rfl,
      stagesEach_of fun _ _ => rfl, stagesEach_of fun _ _ => rfl, stagesEach_of fun _ _ => rfl,
      stagesEach_of fun _ _ => rfl, stagesEach_of fun _ _ => rfl, stagesEach_of fun _ _ => rfl,
      stagesEach_of fun _ _ => rfl, stagesEach_of fun _ _ => rfl, stagesEach_of fun _ _ => rfl,
      stagesTo_of fun _ _ => rfl, stagesTo_of fun _ _ => rfl, stagesTo_of fun _ _ => rfl, stagesTo_of fun _ _ => rfl,
      stagesTo_of fun _ _ => rfl, stagesTo_of fun _ _ => rfl, stagesTo_of fun _ _ => rfl, stagesTo_of fun _ _ => rfl,
      fun e => ⟨fun _ => rfl, fun _ => ⟨rfl, rfl⟩, fun is => ?_, fun ps => ?_, fun _ => rfl⟩⟩
    · split
      · next beyond => exact if_neg fun all => all_below_iff.1 all beyond
      · next within =>
        exact ⟨_, if_pos (all_below_iff.2 within), fun j => by rw [entrySetOf_holds, decide_eq_true_iff]⟩
    · split
      · next beyond => exact if_neg fun all => all_below_iff.1 all beyond
      · next within =>
        exact ⟨_, if_pos (all_below_iff.2 within), fun p => by rw [pairMapOf_holds, decide_eq_true_iff]⟩

end Sys2Proof.Proofs
end

