-- ==== Sys2Proof/Proofs/Settings.lean ====
section
/-! SUPPORT. A served request with what ensues on its reply, and the lists of settings: their validation and the
application of the last item of each name (R189). -/

namespace Sys2Proof.Proofs
open Sys2Proof Sys2Proof.Machine Sys2Proof.Laws

/-! ## What ensues on a reply -/

theorem offerReply_ensues (r : Reply) (m : Bool) (s : State) : Ensues (emit (.reply r) s) (offerReply r m s) := by
  unfold offerReply
  simp only
  split
  · exact offerEgress_ensues _ _
  · exact offerFrame_ensues _ _ _

theorem afterReply_ensues (path : ServicePath) (b : ReqBody) (st : Status) {s : State} (h : s.agent.reset = none) :
    Ensues s (afterReply path b st s) := by
  unfold afterReply
  split
  · exact settle_ensues h
  · exact beginSend_ensues s

/-- A served request that is no RESET-PART, with its reply put out. -/
theorem takeRequest_ensues {q : ReqHead} {b : ReqBody} {s : State} (h : s.agent.reset = none)
    (plain : ¬ (b = .resetPart ∧ (serve q b s).status = .ok)) (k : (serve q b s).state.agent.reset = none) :
    Ensues (emit (.reply (replyTo q b (serve q b s))) (serve q b s).state) (takeRequest q b s) := by
  have e : takeRequest q b s = afterReply q.path b (serve q b s).status
      (offerReply (replyTo q b (serve q b s)) false (serve q b s).state) := by
    simp [takeRequest, h, answer, plain]
  rw [e]
  exact (offerReply_ensues _ _ _).trans (afterReply_ensues _ _ _ ((offerReply_follows _ _ _).reset k))

/-- A request that meets its tests is served by its kind and answered, and what ensues follows its reply (R183-R188). -/
theorem exec_served {c : Instr} {q : ReqHead} {b : ReqBody} {v : Served} {s : State} (h : s.open)
    (request : requestOf c = some (q, b)) (a : Admits q b s) (plain : b ≠ .resetPart)
    (served : serveBody b (counted s) = v) (k : v.state.agent.reset = none) :
    ∃ t, exec c s = .next t ∧ Answered q b v t ∧ Ensues (emit (.reply (replyTo q b v)) v.state) t := by
  obtain ⟨taking, noReset⟩ := h
  obtain ⟨-, -, noneWaits⟩ := id a
  have serving : serve q b s.silent = v := (serve_admitted a).trans served
  refine ⟨takeRequest q b s.silent, ?_, ?_, ?_⟩
  · rw [exec_request request, takeCommand_taking _ taking, ← State.silent,
      requestArrives_taken q b (s := s.silent) noneWaits]
  · rw [← serving] at k ⊢
    exact takeRequest_answered q b noReset (fun r => plain r.1) k
  · rw [← serving] at k ⊢
    exact takeRequest_ensues noReset (fun r => plain r.1) k

/-! ## Validation (R189) -/

section
variable {α : Type} {check : α → Checked α} {name : α → SettingName}

theorem value_isSome_iff {c : Checked α} : c.value.isSome = true ↔ ∃ v b, c = .accept v b := by
  cases c <;> simp [Checked.value]

theorem validateItems_of_accepted {xs : List α} (h : ∀ x ∈ xs, (check x).value.isSome = true) :
    validateItems check name xs = .ok (xs.filterMap fun x => (check x).value,
      (xs.filter fun x => (check x).clamped).map name) := by
  induction xs with
  | nil => rfl
  | cons x xs ih =>
    obtain ⟨v, b, accepted⟩ := value_isSome_iff.1 (h x List.mem_cons_self)
    rw [validateItems, accepted, ih fun y m => h y (List.mem_cons_of_mem x m)]
    cases b <;> simp [accepted, Checked.value, Checked.clamped]

theorem validateItems_of_refused {pre : List α} {x : α} {st : Status} (post : List α)
    (before : ∀ y ∈ pre, (check y).value.isSome = true) (refused : check x = .refuse st) :
    validateItems check name (pre ++ x :: post) = .error (st, name x) := by
  induction pre with
  | nil => rw [List.nil_append, validateItems, refused]
  | cons y pre ih =>
    obtain ⟨v, b, accepted⟩ := value_isSome_iff.1 (before y List.mem_cons_self)
    rw [List.cons_append, validateItems, accepted, ih fun z m => before z (List.mem_cons_of_mem y m)]

theorem serveItems_accepted {xs : List α} (apply : α → State → State) (tests : α → Bool) (s : State)
    (h : ∀ x ∈ xs, (check x).value.isSome = true) :
    serveItems check name apply tests xs s = ⟨(writeReply check name xs).1, (writeReply check name xs).2,
      applyItems name apply tests (xs.filterMap fun x => (check x).value) s⟩ := by
  rw [serveItems, validateItems_of_accepted h]
  rfl

theorem serveItems_refused {pre : List α} {x : α} {st : Status} (post : List α) (apply : α → State → State)
    (tests : α → Bool) (s : State) (before : ∀ y ∈ pre, (check y).value.isSome = true) (refused : check x = .refuse st) :
    serveItems check name apply tests (pre ++ x :: post) s = ⟨st, .refused (.setting (name x)), s⟩ := by
  rw [serveItems, validateItems_of_refused post before refused]

/-! ## The last item of each name (R189 f) -/

/-- An item undoes what an item of its name before it has written. -/
def Overwrites {β : Type} (f : β → α → β) (name : α → SettingName) (x : α) : Prop :=
  ∀ (b : β) (y : α), name y = name x → f (f b y) x = f b x

theorem foldl_overwritten {β : Type} {f : β → α → β} {xs : List α} {x : α}
    (comm : ∀ (b : β) (x y : α), name x ≠ name y → f (f b x) y = f (f b y) x)
    (undoes : ∀ y ∈ xs, Overwrites f name y) (later : ∃ y ∈ xs, name y = name x) (b : β) :
    xs.foldl f (f b x) = xs.foldl f b := by
  induction xs generalizing b with
  | nil => simp at later
  | cons y xs ih =>
    rw [List.foldl_cons, List.foldl_cons]
    by_cases same : name y = name x
    · rw [undoes y List.mem_cons_self b x same.symm]
    · rw [comm b x y (Ne.symm same)]
      obtain ⟨z, m, named⟩ := later
      rcases List.mem_cons.1 m with rfl | m
      · exact absurd named same
      · exact ih (fun w mw => undoes w (List.mem_cons_of_mem y mw)) ⟨z, m, named⟩ (f b y)

/-- Items that overwrite those of their name and commute with the others give the same result by the last of each
name. -/
theorem foldl_lastOfEach {β : Type} {f : β → α → β} {xs : List α}
    (comm : ∀ (b : β) (x y : α), name x ≠ name y → f (f b x) y = f (f b y) x)
    (undoes : ∀ y ∈ xs, Overwrites f name y) (b : β) : (lastOfEach name xs).foldl f b = xs.foldl f b := by
  induction xs generalizing b with
  | nil => rfl
  | cons x xs ih =>
    have overRest : ∀ y ∈ xs, Overwrites f name y := fun y m => undoes y (List.mem_cons_of_mem x m)
    rw [lastOfEach, List.foldl_cons]
    split
    · next later =>
      have named : ∃ y ∈ xs, name y = name x := by simpa using later
      rw [ih overRest, foldl_overwritten comm overRest named]
    · rw [List.foldl_cons, ih overRest]

/-- What an observation of the state makes of the items, where each item acts on it alone. -/
theorem foldl_observed {β : Type} {apply : α → State → State} {f : β → α → β} {see : State → β}
    (h : ∀ x s, see (apply x s) = f (see s) x) (xs : List α) (s : State) :
    see (xs.foldl (fun s x => apply x s) s) = xs.foldl f (see s) := by
  induction xs generalizing s with
  | nil => rfl
  | cons x xs ih => rw [List.foldl_cons, List.foldl_cons, ih, h]

end

end Sys2Proof.Proofs
end

