-- ==== Sys2Proof/Proofs/BondSettings.lean ====
section
/-! PROOF. The BOND settings and the gate window (R74, R189): O47, and the part of O45 for the group. -/

namespace Sys2Proof.Proofs
open Sys2Proof Sys2Proof.Machine Sys2Proof.Laws

/-! ## The gate window (R74) -/

/-- The unit of a pair after a write of *gate window* (R74). -/
def gateUnit (old new : GateWindow) (now : Nat) (b : BondSettings) (u : PairUnit) : PairUnit :=
  if new = .trained then
    { u.stopWindow with rate := if u.state = .absent ∨ u.state = .down then u.rate else initialRate u.trained }
  else if old = .trained ∧ u.state = .serving then u.startWindow now b
  else u

theorem gateWindowPair_eq (old new : GateWindow) (q : PairNo) (s : State) :
    (∃ pairs, gateWindowPair old new q s = { s with pairs := pairs }) ∧
      ∀ p : PairNo, (gateWindowPair old new q s).pair p =
        if p = q then gateUnit old new s.now s.cfg (s.pair p) else s.pair p := by
  unfold gateWindowPair gateUnit
  split
  · refine ⟨⟨_, rfl⟩, fun p => ?_⟩
    rw [modPair_pair]
    split
    · next same =>
      rw [same]
      by_cases lineless : (s.pair q).state = .absent ∨ (s.pair q).state = .down
      · rw [if_pos lineless]
        exact if_pos (by rcases lineless with e | e <;> simp [PairUnit.stopWindow, e])
      · rw [if_neg lineless]
        obtain ⟨present, up⟩ := not_or.1 lineless
        exact if_neg (by simp [PairUnit.stopWindow, present, up])
    · rfl
  · simp only [Bool.and_eq_true, decide_eq_true_eq]
    split
    · next starts =>
      refine ⟨⟨_, rfl⟩, fun p => ?_⟩
      rw [modPair_pair]
      split
      · next same => rw [same, if_pos starts]
      · rfl
    · next unstarted =>
      refine ⟨⟨s.pairs, rfl⟩, fun p => ?_⟩
      split
      · next same => rw [same, if_neg unstarted]
      · rfl

theorem gateWindowPairs_eq (old new : GateWindow) {ps : List PairNo} (once : ps.Nodup) (s : State) :
    (∃ pairs, eachPair ps (gateWindowPair old new) s = { s with pairs := pairs }) ∧
      ∀ p : PairNo, (eachPair ps (gateWindowPair old new) s).pair p =
        if p ∈ ps then gateUnit old new s.now s.cfg (s.pair p) else s.pair p := by
  unfold eachPair
  induction ps generalizing s with
  | nil => exact ⟨⟨s.pairs, rfl⟩, fun p => rfl⟩
  | cons q ps ih =>
    obtain ⟨other, onceRest⟩ := List.nodup_cons.1 once
    obtain ⟨⟨pairs', e'⟩, one⟩ := gateWindowPair_eq old new q s
    obtain ⟨⟨pairs, e⟩, all⟩ := ih onceRest (gateWindowPair old new q s)
    refine ⟨⟨pairs, e.trans (by rw [e'])⟩, fun p => (all p).trans ?_⟩
    have fixed : (gateWindowPair old new q s).now = s.now ∧ (gateWindowPair old new q s).cfg = s.cfg := by
      rw [e']
      exact ⟨rfl, rfl⟩
    rw [one, fixed.1, fixed.2]
    by_cases same : p = q
    · subst same
      simp [other]
    · simp [same]

theorem allPairs_nodup : allPairs.Nodup := by decide

/-- A write of *gate window* touches the setting and the pair units (R74). -/
theorem writeGateWindow_eq (g : GateWindow) (s : State) :
    (∃ pairs, writeGateWindow g s = { s with pairs := pairs, cfg := { s.cfg with gateWindow := g } }) ∧
      ∀ p : PairNo, (writeGateWindow g s).pair p =
        if g = s.cfg.gateWindow then s.pair p
        else gateUnit s.cfg.gateWindow g s.now { s.cfg with gateWindow := g } (s.pair p) := by
  unfold writeGateWindow
  simp only
  split
  · next same => exact ⟨⟨s.pairs, by rw [same]⟩, fun p => rfl⟩
  · obtain ⟨⟨pairs, e⟩, units⟩ := gateWindowPairs_eq s.cfg.gateWindow g allPairs_nodup
      (modCfg (fun b => { b with gateWindow := g }) s)
    exact ⟨⟨pairs, e⟩, fun p => (units p).trans (if_pos (mem_allPairs p))⟩

theorem gateUnit_cfg (old new : GateWindow) (now : Nat) (b : BondSettings) (u : PairUnit) :
    (gateUnit old new now b u).cfg = u.cfg := by
  unfold gateUnit
  split
  · rfl
  · split
    · rw [startWindow_eq]
    · rfl

theorem gateUnit_state (old new : GateWindow) (now : Nat) (b : BondSettings) (u : PairUnit) :
    (gateUnit old new now b u).state = u.state := by
  unfold gateUnit
  split
  · rfl
  · split
    · rw [startWindow_eq]
    · rfl

/-! ## The BOND items -/

/-- A write of BOND settings has taken `s` to `t`: the settings of the other groups and the collector are left. -/
structure BondWritten (s t : State) : Prop where
  settings : SettingsKept { s with cfg := t.cfg } t
  classes : t.classes = s.classes
  agent : t.agent = s.agent

theorem BondWritten.trans {s t u : State} (h : BondWritten s t) (k : BondWritten t u) : BondWritten s u := by
  obtain ⟨⟨h1, h2, h3, h4, h5, h6, -, h8⟩, classes, agent⟩ := h
  exact ⟨SettingsKept_trans (t := { t with cfg := u.cfg }) ⟨h1, h2, h3, h4, h5, h6, rfl, h8⟩ k.settings,
    k.classes.trans classes, k.agent.trans agent⟩

theorem BondWritten.refl (s : State) : BondWritten s s := ⟨(Follows.refl s).settings, rfl, rfl⟩

theorem modCfg_bondWritten (f : BondSettings → BondSettings) (s : State) : BondWritten s (modCfg f s) :=
  ⟨(Follows.refl (modCfg f s)).settings, rfl, rfl⟩

theorem writeGateWindow_bondWritten (g : GateWindow) (s : State) : BondWritten s (writeGateWindow g s) := by
  obtain ⟨⟨pairs, e⟩, units⟩ := writeGateWindow_eq g s
  have cfgs : ∀ p : PairNo, ((writeGateWindow g s).pair p).cfg = (s.pair p).cfg := by
    intro p
    rw [units]
    split
    · rfl
    · exact gateUnit_cfg _ _ _ _ _
  rw [e] at cfgs ⊢
  exact ⟨⟨rfl, rfl, rfl, rfl, rfl, rfl, rfl, cfgs, fun _ => rfl, rfl, rfl, rfl, fun _ => ⟨rfl, rfl⟩, fun _ => rfl, rfl, rfl⟩,
    rfl, rfl⟩

theorem applyBond_written (x : BondItem) (s : State) :
    BondWritten s (applyBond x s) ∧ (applyBond x s).cfg = writeBond s.cfg x := by
  cases x
  case gateWindow v =>
    obtain ⟨⟨pairs, e⟩, -⟩ := writeGateWindow_eq (v.getD s.cfg.gateWindow) s
    exact ⟨writeGateWindow_bondWritten _ s, congrArg State.cfg e⟩
  all_goals
    refine ⟨?_, rfl⟩
    simp only [applyBond]
    exact modCfg_bondWritten _ s

theorem applyBonds_written (xs : List BondItem) (s : State) :
    BondWritten s (xs.foldl (fun s x => applyBond x s) s) := by
  induction xs generalizing s with
  | nil => exact .refl s
  | cons x xs ih => exact (applyBond_written x s).1.trans (ih _)

theorem testOffers_bondWritten (ps : List PairNo) (s : State) :
    BondWritten s (testOffers ps s) ∧ (testOffers ps s).cfg = s.cfg := by
  have event := testOffers_pairEvent 0 ps s
  obtain ⟨-, -, -, -, -, -, cfg, -⟩ := id event.settings
  refine ⟨⟨?_, event.classes, event.agent⟩, cfg⟩
  rw [cfg]
  exact event.settings

/-- Two BOND items of different names write different settings. -/
theorem writeBond_comm (b : BondSettings) (x y : BondItem)
    (names : SettingName.bond (bondName x) ≠ .bond (bondName y)) :
    writeBond (writeBond b x) y = writeBond (writeBond b y) x := by
  cases x <;> cases y <;> first | rfl | exact absurd rfl names

/-- An accepted BOND item writes its value whatever was written before. -/
theorem checkBond_overwrites {x y : BondItem} {c : Bool} (accepted : checkBond x = .accept y c) :
    Overwrites writeBond (fun x => .bond (bondName x)) y := by
  intro b z names
  cases x <;> simp only [checkBond, checkQty, checkEnum] at accepted
  case classOrderCode | stationAddress =>
    split at accepted <;> cases accepted
    cases z <;> simp [bondName, writeBond] at names ⊢
  case autoProve v | barOnFail v | gateWindow v | trunkWrites v | bondWrites v =>
    cases v <;> cases accepted
    cases z <;> simp [bondName, writeBond] at names ⊢
  all_goals
    cases accepted
    cases z <;> simp [bondName, writeBond] at names ⊢

/-- The values that a list of items is accepted with. -/
def acceptedValues {α : Type} (check : α → Checked α) (xs : List α) : List α := xs.filterMap fun x => (check x).value

theorem mem_acceptedValues {α : Type} {check : α → Checked α} {xs : List α} {y : α} (m : y ∈ acceptedValues check xs) :
    ∃ x c, check x = .accept y c := by
  obtain ⟨x, -, value⟩ := List.mem_filterMap.1 m
  cases accepted : check x with
  | refuse st => simp [accepted, Checked.value] at value
  | accept v c =>
    rw [accepted] at value
    exact ⟨x, c, by rw [accepted, Option.some.inj value]⟩

/-- The BOND settings after the accepted items of a list are applied (R189). -/
theorem applyItems_bond (xs : List BondItem) (s : State) :
    BondWritten s (applyItems (fun x => .bond (bondName x)) applyBond bondTests (acceptedValues checkBond xs) s) ∧
      (applyItems (fun x => .bond (bondName x)) applyBond bondTests (acceptedValues checkBond xs) s).cfg =
        (acceptedValues checkBond xs).foldl writeBond s.cfg := by
  have written := applyBonds_written (lastOfEach (fun x => .bond (bondName x)) (acceptedValues checkBond xs)) s
  have values : ((lastOfEach (fun x => .bond (bondName x)) (acceptedValues checkBond xs)).foldl
      (fun s x => applyBond x s) s).cfg = (acceptedValues checkBond xs).foldl writeBond s.cfg := by
    rw [foldl_observed (f := writeBond) (see := State.cfg) fun x s => (applyBond_written x s).2]
    refine foldl_lastOfEach writeBond_comm (fun y m => ?_) s.cfg
    obtain ⟨x, c, accepted⟩ := mem_acceptedValues m
    exact checkBond_overwrites accepted
  unfold applyItems
  simp only
  split
  · obtain ⟨tested, cfg⟩ := testOffers_bondWritten allPairs
      ((lastOfEach (fun x => .bond (bondName x)) (acceptedValues checkBond xs)).foldl (fun s x => applyBond x s) s)
    exact ⟨written.trans tested, cfg.trans values⟩
  · exact ⟨written, values⟩

theorem BondWritten.contexts {s t : State} (h : BondWritten s t) : ContextsLeft s t := fun c => by
  rw [State.cls, h.classes]
  rfl

/-- A WRITE-SETTINGS of accepted BOND items (R189). -/
theorem bondSettings_written {c : Instr} {q : ReqHead} {xs : List BondItem} {s : State} (h : s.open)
    (request : requestOf c = some (q, .writeSettings (.bond xs))) (a : Admits q (.writeSettings (.bond xs)) s)
    (accepted : ∀ x ∈ xs, (checkBond x).value.isSome = true) :
    ∃ t, exec c s = .next t ∧ t.cfg = (acceptedValues checkBond xs).foldl writeBond s.cfg ∧
      Answers q 3 (writeReply checkBond (fun x => .bond (bondName x)) xs).1
        (writeReply checkBond (fun x => .bond (bondName x)) xs).2 t.cfg.stationAddress t ∧
      SettingsKept { s with cfg := t.cfg } t ∧ ContextsLeft s t := by
  have served : serveBody (.writeSettings (.bond xs)) (counted s) =
      ⟨(writeReply checkBond (fun x => .bond (bondName x)) xs).1, (writeReply checkBond (fun x => .bond (bondName x)) xs).2,
        applyItems (fun x => .bond (bondName x)) applyBond bondTests (acceptedValues checkBond xs) (counted s)⟩ :=
    serveItems_accepted applyBond bondTests (counted s) accepted
  obtain ⟨written, values⟩ := applyItems_bond xs (counted s)
  obtain ⟨t, next, answered, ensues⟩ := exec_served h request a (by simp) served (written.agent ▸ h.2)
  have cfg : t.cfg = (acceptedValues checkBond xs).foldl writeBond s.cfg := ensues.cfg.trans values
  refine ⟨t, next, cfg, ?_, ?_, fun d => (answered.follows.contexts d).trans (written.contexts d)⟩
  · rw [ensues.cfg]
    exact answered.reply
  · rw [ensues.cfg]
    exact SettingsKept_trans written.settings answered.follows.settings

/-- A WRITE-SETTINGS with a refused item changes nothing (R189). -/
theorem settings_refused {α : Type} {check : α → Checked α} {name : α → SettingName} {apply : α → State → State}
    {tests : α → Bool} {c : Instr} {q : ReqHead} {w : SettingsWrite} {pre post : List α} {x : α} {st : Status} {s : State}
    (h : s.open) (request : requestOf c = some (q, .writeSettings w)) (a : Admits q (.writeSettings w) s)
    (served : serveWriteSettings w (counted s) = serveItems check name apply tests (pre ++ x :: post) (counted s))
    (before : ∀ y ∈ pre, (check y).value.isSome = true) (refused : check x = .refuse st)
    (refusal : st = .badValue ∨ st = .busy) :
    ∃ t, exec c s = .next t ∧ Answers q 3 st (.refused (.setting (name x))) s.cfg.stationAddress t ∧ OnlyReply q s t := by
  obtain ⟨-, -, noneWaits⟩ := id a
  refine exec_refused h request noneWaits ((serve_admitted a).trans (served.trans ?_)) ?_
  · rw [serveItems_refused post apply tests (counted s) before refused]
  · rcases refusal with rfl | rfl <;> decide

theorem checkEnum_refusal {α β : Type} {mk : Option β → α} {v : Option β} {st : Status}
    (h : checkEnum mk v = .refuse st) : st = .badValue := by
  unfold checkEnum at h
  split at h <;> cases h
  rfl

theorem checkBond_refusal {x : BondItem} {st : Status} (h : checkBond x = .refuse st) : st = .badValue := by
  cases x <;> simp only [checkBond] at h
  case classOrderCode | stationAddress =>
    split at h <;> cases h
    rfl
  case autoProve | barOnFail | gateWindow | trunkWrites | bondWrites => exact checkEnum_refusal h
  all_goals cases h

/-! ## O47 -/

/-- The unit of an awake pair after a write of *gate window*, in the terms of R74. -/
theorem gateUnit_steady (old new : GateWindow) (now : Nat) (b : BondSettings) (u : PairUnit) :
    (if new = old then u else gateUnit old new now { b with gateWindow := new } u).steady =
      (if new ≠ old ∧ new = .trained then { u.steady with
        window := none, windowCount := 0, busy := false
        rate := if u.state = .absent ∨ u.state = .down then u.rate else clampTo 16 16383 (u.trained / 8) }
      else if new ≠ old ∧ old = .trained ∧ u.state = .serving then
        { u.steady with
          window := (windowLength new).map fun n => ⟨now, ms n⟩
          windowCount := 0, busy := !u.queue.isEmpty }
      else u.steady) := by
  by_cases same : new = old
  · simp [same]
  · rw [if_neg same]
    by_cases trained : new = .trained
    · refine (congrArg PairUnit.steady (if_pos trained)).trans (Eq.trans ?_ (if_pos ⟨same, trained⟩).symm)
      rfl
    · refine (congrArg PairUnit.steady (if_neg trained)).trans (Eq.trans ?_ (if_neg fun both => trained both.2).symm)
      by_cases starts : old = .trained ∧ u.state = .serving
      · refine (congrArg PairUnit.steady (if_pos starts)).trans (Eq.trans ?_ (if_pos ⟨same, starts⟩).symm)
        have measured : (new != GateWindow.trained) = true := by simpa using trained
        rw [startWindow_eq]
        simp only [measured, Bool.true_and]
        rfl
      · exact (congrArg PairUnit.steady (if_neg starts)).trans (if_neg fun all => starts all.2).symm

/-- Settles O47. -/
theorem gateWindowWritten : Obligations.GateWindowWritten := by
  intro q g s h a
  have served : serveBody (.writeSettings (.bond [.gateWindow (some g)])) (counted s) =
      ⟨.ok, .clampedNames [], writeGateWindow g (counted s)⟩ := rfl
  obtain ⟨⟨pairs, e⟩, units⟩ := writeGateWindow_eq g (counted s)
  have written := writeGateWindow_bondWritten g (counted s)
  obtain ⟨t, next, answered, ensues⟩ := exec_served (c := .gateWindowWrite q (some g)) h rfl a (by simp) served
    (written.agent ▸ h.2)
  have value : (writeGateWindow g (counted s)).cfg = { s.cfg with gateWindow := g } := congrArg State.cfg e
  have cfg : t.cfg = { s.cfg with gateWindow := g } := ensues.cfg.trans value
  refine ⟨t, next, cfg, ?_, fun d => (answered.follows.contexts d).trans (written.contexts d), ?_, ?_, fun p awake => ?_,
    fun p quiet => ?_⟩
  · rw [ensues.cfg]
    exact SettingsKept_trans written.settings answered.follows.settings
  · have engine : (writeGateWindow g (counted s)).engine = s.engine := by
      rw [e]
      rfl
    have kept : EngineLeft (writeGateWindow g (counted s)) t := answered.follows.engine
    unfold EngineLeft at kept ⊢
    rw [kept, engine]
  · have station : (writeGateWindow g (counted s)).cfg.stationAddress = s.cfg.stationAddress :=
      congrArg (fun s => s.cfg.stationAddress) e
    rw [← station]
    exact answered.reply
  · have still : ((writeGateWindow g (counted s)).pair p).state ≠ .quiet := by
      rw [units]
      split
      · exact awake
      · rw [gateUnit_state]
        exact awake
    refine ((ensues.pairs p).steady still).trans ?_
    have unit := units p
    exact (congrArg PairUnit.steady unit).trans (gateUnit_steady s.cfg.gateWindow g s.now s.cfg (s.pair p))
  · have left : ((writeGateWindow g (counted s)).pair p).LeftBy (t.pair p) := answered.follows.pairs p
    rw [units] at left
    by_cases same : g = s.cfg.gateWindow
    · rw [if_neg fun changed => changed.1 same]
      rwa [if_pos (show g = (counted s).cfg.gateWindow from same)] at left
    · rw [if_neg (show ¬ g = (counted s).cfg.gateWindow from same)] at left
      unfold gateUnit at left
      by_cases trained : g = .trained
      · rw [if_pos ⟨same, trained⟩]
        rw [if_pos trained, if_neg (by rw [show ((counted s).pair p).state = .quiet from quiet]; decide)] at left
        exact left
      · rw [if_neg fun changed => trained changed.2]
        rw [if_neg trained, if_neg fun both => PairState.noConfusion (quiet.symm.trans both.2)] at left
        exact left

end Sys2Proof.Proofs
end

