-- ==== Sys2Proof/Proofs/ClassAndNoticeSettings.lean ====
section
/-! PROOF. The CLASS and NOTICE settings (R92, R96, R103, R110, R189): O45 and O46. -/

namespace Sys2Proof.Proofs
open Sys2Proof Sys2Proof.Machine Sys2Proof.Laws

/-! ## The CLASS items -/

theorem ofPred_holds (f : PairNo → Bool) (p : PairNo) : (PairMap.ofPred f).holds p = f p := by
  have bits : ∀ (ps : List PairNo) (m : PairMap),
      (ps.foldl (fun m p => if f p then m ||| (1#8 <<< p.val) else m) m).getLsbD p.val =
        (m.getLsbD p.val || (decide (p ∈ ps) && f p)) := by
    intro ps
    induction ps with
    | nil => simp
    | cons q ps ih =>
      intro m
      rw [List.foldl_cons, ih]
      have bit : (if f q then m ||| (1#8 <<< q.val) else m).getLsbD p.val =
          (m.getLsbD p.val || (decide (p = q) && f q)) := by
        cases f q with
        | false => simp
        | true =>
          rw [if_pos rfl, BitVec.getLsbD_or, getLsbD_bit _ p.isLt, Bool.and_true]
          simp only [Fin.ext_iff]
      rw [bit]
      by_cases same : p = q
      · subst same
        simp only [decide_true, Bool.true_and, List.mem_cons, true_or, Bool.or_assoc]
        cases f p <;> simp
      · simp [same]
  rw [PairMap.holds, PairMap.ofPred, bits]
  simp [mem_allPairs]

theorem pairMapOf_eq (ps : List Nat) : pairMapOf ps = PairMap.ofPred fun p => ps.contains p.val := by
  refine BitVec.eq_of_getLsbD_eq fun i h => ?_
  have left := pairMapOf_holds ps ⟨i, h⟩
  have right := ofPred_holds (fun p => ps.contains p.val) ⟨i, h⟩
  rw [PairMap.holds] at left right
  rw [left, right]
  simp

theorem applyClass_modClass (c : ClassNo) (x : ClassItem) (s : State) :
    applyClass c x s = modClass c (fun k => { k with cfg := writeClass k.cfg x }) s := by
  cases x
  case defaultMap ps =>
    simp only [applyClass, writeClass, ← pairMapOf_eq]
    rfl
  all_goals rfl

/-- A write of the settings of class `c` has taken `s` to `t`. -/
structure ClassCfgWritten (c : ClassNo) (s t : State) : Prop where
  cls : ∀ d : ClassNo, t.cls d = if d = c then { s.cls c with cfg := (t.cls c).cfg } else s.cls d
  rest : ∃ classes, t = { s with classes := classes }

theorem ClassCfgWritten.refl (c : ClassNo) (s : State) : ClassCfgWritten c s s where
  cls d := by
    split
    · next same => rw [same]
    · rfl
  rest := ⟨s.classes, rfl⟩

theorem ClassCfgWritten.trans {c : ClassNo} {s t u : State} (h : ClassCfgWritten c s t) (k : ClassCfgWritten c t u) :
    ClassCfgWritten c s u where
  cls d := by
    rw [k.cls d]
    split
    · rw [h.cls c, if_pos rfl]
    · next other => rw [h.cls d, if_neg other]
  rest := by
    obtain ⟨classes, rfl⟩ := h.rest
    exact k.rest

theorem applyClass_cfgWritten (c : ClassNo) (x : ClassItem) (s : State) :
    ClassCfgWritten c s (applyClass c x s) ∧ ((applyClass c x s).cls c).cfg = writeClass (s.cls c).cfg x := by
  rw [applyClass_modClass]
  have unit : (modClass c (fun k => { k with cfg := writeClass k.cfg x }) s).cls c =
      { s.cls c with cfg := writeClass (s.cls c).cfg x } := by rw [modClass_cls, if_pos rfl]
  refine ⟨⟨fun d => ?_, ⟨_, rfl⟩⟩, by rw [unit]⟩
  rw [unit, modClass_cls]

theorem applyClasses_cfgWritten (c : ClassNo) (xs : List ClassItem) (s : State) :
    ClassCfgWritten c s (xs.foldl (fun s x => applyClass c x s) s) := by
  induction xs generalizing s with
  | nil => exact .refl c s
  | cons x xs ih => exact (applyClass_cfgWritten c x s).1.trans (ih _)

theorem ClassCfgWritten.settings {c : ClassNo} {s t : State} (h : ClassCfgWritten c s t) :
    SettingsKept (modClass c (fun u => { u with cfg := (t.cls c).cfg }) s) t := by
  have cfgs : ∀ d : ClassNo, (t.cls d).cfg = ((modClass c (fun u => { u with cfg := (t.cls c).cfg }) s).cls d).cfg := by
    intro d
    rw [modClass_cls]
    by_cases same : d = c
    · rw [if_pos same, same]
    · rw [if_neg same, h.cls d, if_neg same]
  obtain ⟨classes, rfl⟩ := h.rest
  exact ⟨rfl, rfl, rfl, rfl, rfl, rfl, rfl, fun _ => rfl, cfgs, rfl, rfl, rfl, fun _ => ⟨rfl, rfl⟩, fun _ => rfl, rfl, rfl⟩

theorem ClassCfgWritten.contexts {c : ClassNo} {s t : State} (h : ClassCfgWritten c s t) : ContextsLeft s t := fun d => by
  rw [h.cls d]
  split
  · next same => rw [same]; rfl
  · rfl

theorem ClassCfgWritten.pairs {c : ClassNo} {s t : State} (h : ClassCfgWritten c s t) : t.pairs = s.pairs := by
  obtain ⟨classes, rfl⟩ := h.rest
  rfl

/-- Two CLASS items of different names write different settings. -/
theorem writeClass_comm (b : ClassSettings) (x y : ClassItem) (names : SettingName.cls (className x) ≠ .cls (className y)) :
    writeClass (writeClass b x) y = writeClass (writeClass b y) x := by
  cases x <;> cases y <;> first | rfl | exact absurd rfl names

theorem checkQuota_accepted {s : State} {c : ClassNo} {n : Nat} {y : ClassItem} {b : Bool}
    (accepted : checkQuota s c n = .accept y b) : ∃ v, y = .quota v := by
  unfold checkQuota at accepted
  simp only at accepted
  split at accepted
  · cases accepted; exact ⟨_, rfl⟩
  · split at accepted
    · split at accepted <;> cases accepted
      exact ⟨_, rfl⟩
    · split at accepted <;> cases accepted
      exact ⟨_, rfl⟩

/-- An accepted CLASS item writes its value whatever was written before. -/
theorem checkClass_overwrites {s : State} {c : ClassNo} {x y : ClassItem} {b : Bool}
    (accepted : checkClass s c x = .accept y b) : Overwrites writeClass (fun x => .cls (className x)) y := by
  intro d z names
  cases x <;> simp only [checkClass, checkQty, checkEnum] at accepted
  case quota n =>
    obtain ⟨v, rfl⟩ := checkQuota_accepted accepted
    cases z <;> simp [className, writeClass] at names ⊢
  case defaultMap ps =>
    split at accepted <;> cases accepted
    cases z <;> simp [className, writeClass] at names ⊢
  case spill v =>
    cases v <;> cases accepted
    cases z <;> simp [className, writeClass] at names ⊢
  all_goals
    cases accepted
    cases z <;> simp [className, writeClass] at names ⊢

/-- A WRITE-SETTINGS of accepted CLASS items (R189). -/
theorem classSettings_written {i : Instr} {q : ReqHead} {o : Octet} {c : ClassNo} {xs : List ClassItem} {s : State}
    (h : s.open) (request : requestOf i = some (q, .writeSettings (.cls o xs)))
    (a : Admits q (.writeSettings (.cls o xs)) s) (named : classIndex o = some c)
    (accepted : ∀ x ∈ xs, (checkClass s c x).value.isSome = true) :
    ∃ t, exec i s = .next t ∧ (t.cls c).cfg = (acceptedValues (checkClass s c) xs).foldl writeClass (s.cls c).cfg ∧
      Answers q 3 (writeReply (checkClass s c) (fun x => .cls (className x)) xs).1
        (writeReply (checkClass s c) (fun x => .cls (className x)) xs).2 s.cfg.stationAddress t ∧
      SettingsKept (modClass c (fun u => { u with cfg := (t.cls c).cfg }) s) t ∧ ContextsLeft s t ∧ AllLeft s t ∧
      ∀ r : Reply, Output.reply r ∈ t.out → r.status = (writeReply (checkClass s c) (fun x => .cls (className x)) xs).1 := by
  have served : serveBody (.writeSettings (.cls o xs)) (counted s) =
      ⟨(writeReply (checkClass s c) (fun x => .cls (className x)) xs).1,
        (writeReply (checkClass s c) (fun x => .cls (className x)) xs).2,
        applyItems (fun x => .cls (className x)) (applyClass c) (fun _ => false)
          (acceptedValues (checkClass s c) xs) (counted s)⟩ := by
    simp only [serveBody, serveWriteSettings, named]
    exact serveItems_accepted (applyClass c) (fun _ => false) (counted s) accepted
  have untested : applyItems (fun x => .cls (className x)) (applyClass c) (fun _ => false)
      (acceptedValues (checkClass s c) xs) (counted s) =
        (lastOfEach (fun x => .cls (className x)) (acceptedValues (checkClass s c) xs)).foldl
          (fun s x => applyClass c x s) (counted s) := applyItems_untested _ _ (fun _ _ => rfl) _
  rw [untested] at served
  have written := applyClasses_cfgWritten c
    (lastOfEach (fun x => .cls (className x)) (acceptedValues (checkClass s c) xs)) (counted s)
  have values : (((lastOfEach (fun x => .cls (className x)) (acceptedValues (checkClass s c) xs)).foldl
      (fun s x => applyClass c x s) (counted s)).cls c).cfg =
        (acceptedValues (checkClass s c) xs).foldl writeClass (s.cls c).cfg := by
    rw [foldl_observed (f := writeClass) (see := fun s => (s.cls c).cfg) fun x s => (applyClass_cfgWritten c x s).2]
    refine foldl_lastOfEach writeClass_comm (fun y m => ?_) _
    obtain ⟨x, b, e⟩ := mem_acceptedValues m
    exact checkClass_overwrites e
  generalize (lastOfEach (fun x => .cls (className x)) (acceptedValues (checkClass s c) xs)).foldl
      (fun s x => applyClass c x s) (counted s) = u at served written values
  have station : u.cfg.stationAddress = s.cfg.stationAddress ∧ u.agent = s.agent ∧ u.out = [] := by
    obtain ⟨classes, rfl⟩ := written.rest
    exact ⟨rfl, rfl, rfl⟩
  obtain ⟨station, agent, out⟩ := station
  obtain ⟨t, next, answered, ensues⟩ := exec_served h request a (by simp) served (agent ▸ h.2)
  obtain ⟨-, -, -, -, -, -, -, -, cfgs, -⟩ := id answered.follows.settings
  refine ⟨t, next, (cfgs c).trans values, ?_, ?_, fun d => (answered.follows.contexts d).trans (written.contexts d),
    fun p => ?_, fun r m => ?_⟩
  · rw [← station]
    exact answered.reply
  · rw [cfgs c]
    exact SettingsKept_trans written.settings answered.follows.settings
  · have left : (u.pair p).LeftBy (t.pair p) := answered.follows.pairs p
    rwa [State.pair, written.pairs] at left
  · have m := ensues.replies r m
    simp only [emit, out, List.nil_append, List.mem_singleton, Output.reply.injEq] at m
    rw [m]
    rfl

theorem otherQuotas_eq (s : State) (c : ClassNo) : otherQuotas s c =
    (s.cls 0).cfg.quota + (s.cls 1).cfg.quota + (s.cls 2).cfg.quota - (s.cls c).cfg.quota := by
  fin_cases c <;> simp [otherQuotas, allClasses] <;> omega

/-- The tests of a quota by R110. -/
theorem checkQuota_eq (s : State) (c : ClassNo) (n : Nat) : checkClass s c (.quota n) =
    if (s.cls c).cfg.quota < clampTo 16 752 n ∧ 768 < (s.cls 0).cfg.quota + (s.cls 1).cfg.quota +
        (s.cls 2).cfg.quota - (s.cls c).cfg.quota + clampTo 16 752 n then .refuse .badValue
    else if clampTo 16 752 n < (s.cls c).cfg.quota ∧ (s.cls c).held ≠ [] then .refuse .busy
    else .accept (.quota (clampTo 16 752 n)) (clampTo 16 752 n != n) := by
  rw [← otherQuotas_eq]
  simp only [checkClass, checkQuota]
  rcases lt_trichotomy (clampTo 16 752 n) (s.cls c).cfg.quota with lower | same | higher
  · have unraised : ¬ ((s.cls c).cfg.quota < clampTo 16 752 n ∧ 768 < otherQuotas s c + clampTo 16 752 n) :=
      fun both => Nat.lt_asymm lower both.1
    rw [if_neg (Nat.ne_of_lt lower), if_neg (Nat.lt_asymm lower)]
    refine Eq.trans ?_ (if_neg unraised).symm
    by_cases empty : (s.cls c).held = []
    · simp [empty]
    · simp [empty, lower]
  · simp [same]
  · rw [if_neg (Nat.ne_of_gt higher), if_pos higher]
    by_cases fits : clampTo 16 752 n + otherQuotas s c ≤ 768
    · rw [if_pos fits, if_neg (by omega), if_neg (by omega)]
    · rw [if_neg fits, if_pos (by omega)]

theorem roundFragmentSize_eq (n : Nat) :
    roundFragmentSize n = if n < 64 then 64 else if 512 < n then 512 else n - n % 32 := by
  unfold roundFragmentSize clampTo
  split
  · rfl
  · split
    · rfl
    · omega

end Sys2Proof.Proofs
end

