-- ==== Sys2Proof/Proofs/SettingsWritten.lean ====
section
/-! PROOF. The NOTICE settings and the ranges of section 10.5: O45 and O46. -/

namespace Sys2Proof.Proofs
open Sys2Proof Sys2Proof.Machine Sys2Proof.Laws

/-! ## The NOTICE items -/

/-- The destination of the notices after an item (R189). -/
def writeDestination (d : Option Addr) : NoticeItem → Option Addr
  | .destination a => a
  | _ => d

/-- The notice path after an item (R189). -/
def writePath (d : NoticePath) : NoticeItem → NoticePath
  | .path v => v.getD d
  | _ => d

/-- The enable of a source after an item (R189). -/
def writeEnable (src : Source) (d : Bool) : NoticeItem → Bool
  | .enable src' v => if src' = src then v.getD d else d
  | _ => d

/-- The level of a source after an item (R189). -/
def writeLevel (src : Source) (d : Level) : NoticeItem → Level
  | .level src' v => if src' = src then v.getD d else d
  | _ => d

/-- A write of NOTICE settings has taken `s` to `t`. -/
structure NoticesWritten (s t : State) : Prop where
  rest : ∃ notices, t = { s with notices := notices }
  record : t.notices.record = s.notices.record

theorem NoticesWritten.refl (s : State) : NoticesWritten s s := ⟨⟨s.notices, rfl⟩, rfl⟩

theorem NoticesWritten.trans {s t u : State} (h : NoticesWritten s t) (k : NoticesWritten t u) : NoticesWritten s u := by
  refine ⟨?_, k.record.trans h.record⟩
  obtain ⟨notices, rfl⟩ := h.rest
  exact k.rest

theorem modSource_noticesWritten (src : Source) (f : SourceUnit → SourceUnit) (s : State) :
    NoticesWritten s (modSource src f s) := ⟨⟨_, rfl⟩, rfl⟩

theorem applyNotice_written (x : NoticeItem) (s : State) : NoticesWritten s (applyNotice x s) := by
  cases x
  case enable src v => exact modSource_noticesWritten src (fun u => { u with enable := v.getD u.enable }) s
  case level src v => exact modSource_noticesWritten src (fun u => { u with level := v.getD u.level }) s
  all_goals exact ⟨⟨_, rfl⟩, rfl⟩

theorem applyNotice_destination (x : NoticeItem) (s : State) :
    (applyNotice x s).notices.destination = writeDestination s.notices.destination x := by
  cases x <;> rfl

theorem applyNotice_path (x : NoticeItem) (s : State) :
    (applyNotice x s).notices.path = writePath s.notices.path x := by
  cases x <;> rfl

theorem applyNotice_enable (src : Source) (x : NoticeItem) (s : State) :
    ((applyNotice x s).source src).enable = writeEnable src (s.source src).enable x := by
  cases x with
  | enable src' v =>
    simp only [applyNotice, modSource_source, writeEnable]
    by_cases same : src = src'
    · rw [if_pos same, if_pos same.symm, same]
    · rw [if_neg same, if_neg (Ne.symm same)]
  | level src' v =>
    simp only [applyNotice, modSource_source, writeEnable]
    split
    · next same => rw [same]
    · rfl
  | _ => rfl

theorem applyNotice_level (src : Source) (x : NoticeItem) (s : State) :
    ((applyNotice x s).source src).level = writeLevel src (s.source src).level x := by
  cases x with
  | level src' v =>
    simp only [applyNotice, modSource_source, writeLevel]
    by_cases same : src = src'
    · rw [if_pos same, if_pos same.symm, same]
    · rw [if_neg same, if_neg (Ne.symm same)]
  | enable src' v =>
    simp only [applyNotice, modSource_source, writeLevel]
    split
    · next same => rw [same]
    · rfl
  | _ => rfl

theorem checkNotice_value {x y : NoticeItem} {b : Bool} (accepted : checkNotice x = .accept y b) :
    y = x ∧ b = false := by
  cases x <;> simp only [checkNotice, checkEnum] at accepted
  case destination => cases accepted; exact ⟨rfl, rfl⟩
  all_goals
    split at accepted <;> cases accepted
    exact ⟨rfl, rfl⟩

theorem checkNotice_refusal {x : NoticeItem} {st : Status} (h : checkNotice x = .refuse st) : st = .badValue := by
  cases x <;> simp only [checkNotice] at h
  case destination => cases h
  all_goals exact checkEnum_refusal h

/-- The values of accepted NOTICE items are the items. -/
theorem acceptedValues_notice {xs : List NoticeItem} (accepted : ∀ x ∈ xs, (checkNotice x).value.isSome = true) :
    acceptedValues checkNotice xs = xs := by
  induction xs with
  | nil => rfl
  | cons x xs ih =>
    obtain ⟨y, b, e⟩ := value_isSome_iff.1 (accepted x List.mem_cons_self)
    obtain ⟨rfl, -⟩ := checkNotice_value e
    have rest := ih fun z m => accepted z (List.mem_cons_of_mem y m)
    rw [acceptedValues] at rest ⊢
    rw [List.filterMap_cons_some (b := y) (by rw [e]; rfl), rest]

/-- No NOTICE item is clamped. -/
theorem writeReply_notice {xs : List NoticeItem} (accepted : ∀ x ∈ xs, (checkNotice x).value.isSome = true) :
    writeReply checkNotice (fun x => .notice (noticeName x)) xs = (.ok, .clampedNames []) := by
  have unclamped : (xs.filter fun x => (checkNotice x).clamped) = [] := by
    refine List.filter_eq_nil_iff.2 fun x m => ?_
    obtain ⟨y, b, e⟩ := value_isSome_iff.1 (accepted x m)
    obtain ⟨-, rfl⟩ := checkNotice_value e
    simp [e, Checked.clamped]
  simp only [writeReply, unclamped]
  rfl

/-- What the items of a list make of one value that each of them writes or leaves, where the value of each accepted item
overwrites and the items of other names leave it. -/
theorem applyNotices_observed {β : Type} {f : β → NoticeItem → β} {see : State → β} {xs : List NoticeItem}
    (one : ∀ x s, see (applyNotice x s) = f (see s) x)
    (comm : ∀ (b : β) (x y : NoticeItem), SettingName.notice (noticeName x) ≠ .notice (noticeName y) →
      f (f b x) y = f (f b y) x)
    (undoes : ∀ x ∈ xs, Overwrites f (fun x => .notice (noticeName x)) x) (s : State) :
    see ((lastOfEach (fun x => .notice (noticeName x)) xs).foldl (fun s x => applyNotice x s) s) = xs.foldl f (see s) :=
  (foldl_observed one _ s).trans (foldl_lastOfEach comm undoes _)

/-- A value that the list gives an enumerated field is one of the field's. -/
theorem checkNotice_definite {x : NoticeItem} (accepted : (checkNotice x).value.isSome = true) :
    match x with
    | .destination _ => True
    | .path v => v.isSome = true
    | .enable _ v => v.isSome = true
    | .level _ v => v.isSome = true := by
  cases x
  case destination => trivial
  all_goals
    simp only [checkNotice, checkEnum] at accepted ⊢
    split at accepted
    · assumption
    · cases accepted

/-- A WRITE-SETTINGS of accepted NOTICE items (R189). -/
theorem noticeSettings_written {q : ReqHead} {xs : List NoticeItem} {s : State} (h : s.open)
    (a : Admits q (.writeSettings (.notice xs)) s) (accepted : ∀ x ∈ xs, (checkNotice x).value.isSome = true) :
    ∃ t, exec (.writeSettings q (.notice xs)) s = .next t ∧ Answers q 3 .ok (.clampedNames []) s.cfg.stationAddress t ∧
      t.notices.destination = xs.foldl writeDestination s.notices.destination ∧
      t.notices.path = xs.foldl writePath s.notices.path ∧
      (∀ src : Source, (t.source src).enable = xs.foldl (writeEnable src) (s.source src).enable ∧
        (t.source src).level = xs.foldl (writeLevel src) (s.source src).level) ∧
      t.notices.record = s.notices.record ∧ SettingsKept { s with notices := t.notices } t ∧ ContextsLeft s t ∧
      AllLeft s t := by
  have served : serveBody (.writeSettings (.notice xs)) (counted s) = ⟨.ok, .clampedNames [],
      (lastOfEach (fun x => .notice (noticeName x)) xs).foldl (fun s x => applyNotice x s) (counted s)⟩ := by
    have all := serveItems_accepted (name := fun x => .notice (noticeName x)) applyNotice (fun _ => false) (counted s) accepted
    rw [writeReply_notice accepted] at all
    have values : (xs.filterMap fun x => (checkNotice x).value) = xs := acceptedValues_notice accepted
    rw [values, applyItems_untested _ _ (fun _ _ => rfl)] at all
    exact all
  have destination := applyNotices_observed (f := writeDestination) (see := fun s => s.notices.destination) (xs := xs)
    applyNotice_destination (fun b x y names => by cases x <;> cases y <;> first | rfl | exact absurd rfl names)
    (fun x _ b y names => by cases x <;> cases y <;> simp [noticeName, writeDestination] at names ⊢) (counted s)
  have path := applyNotices_observed (f := writePath) (see := fun s => s.notices.path) (xs := xs)
    applyNotice_path (fun b x y names => by cases x <;> cases y <;> first | rfl | exact absurd rfl names)
    (fun x m b y names => by
      have definite := checkNotice_definite (accepted x m)
      cases x <;> cases y <;> simp [noticeName, writePath] at names definite ⊢
      obtain ⟨v, rfl⟩ := Option.isSome_iff_exists.1 definite
      simp) (counted s)
  have enable : ∀ src, _ := fun src => applyNotices_observed (f := writeEnable src)
    (see := fun s => (s.source src).enable) (xs := xs) (applyNotice_enable src)
    (fun b x y names => by
      cases x <;> cases y <;> simp only [writeEnable]
      next src' v src'' w =>
        by_cases e' : src' = src <;> by_cases e'' : src'' = src <;> simp [e', e'']
        exact absurd (by rw [e', e'']; rfl) names)
    (fun x m b y names => by
      have definite := checkNotice_definite (accepted x m)
      cases x <;> cases y <;> simp [noticeName, writeEnable] at names definite ⊢
      subst names
      obtain ⟨v, rfl⟩ := Option.isSome_iff_exists.1 definite
      split <;> rfl) (counted s)
  have level : ∀ src, _ := fun src => applyNotices_observed (f := writeLevel src)
    (see := fun s => (s.source src).level) (xs := xs) (applyNotice_level src)
    (fun b x y names => by
      cases x <;> cases y <;> simp only [writeLevel]
      next src' v src'' w =>
        by_cases e' : src' = src <;> by_cases e'' : src'' = src <;> simp [e', e'']
        exact absurd (by rw [e', e'']; rfl) names)
    (fun x m b y names => by
      have definite := checkNotice_definite (accepted x m)
      cases x <;> cases y <;> simp [noticeName, writeLevel] at names definite ⊢
      subst names
      obtain ⟨v, rfl⟩ := Option.isSome_iff_exists.1 definite
      split <;> rfl) (counted s)
  have written : NoticesWritten (counted s)
      ((lastOfEach (fun x => .notice (noticeName x)) xs).foldl (fun s x => applyNotice x s) (counted s)) := by
    generalize lastOfEach _ xs = ys
    generalize counted s = u
    induction ys generalizing u with
    | nil => exact .refl u
    | cons y ys ih => exact (applyNotice_written y u).trans (ih _)
  generalize (lastOfEach (fun x => .notice (noticeName x)) xs).foldl (fun s x => applyNotice x s) (counted s) = u
    at served destination path enable level written
  have record : u.notices.record = s.notices.record := written.record
  obtain ⟨notices, rfl⟩ := written.rest
  obtain ⟨t, next, answered, -⟩ := exec_served (c := .writeSettings q (.notice xs)) h rfl a (by simp) served h.2
  obtain ⟨k1, k2, k3, k4, k5, k6, k7, k8, k9, toDestination, toPath, toRecord, sources, k14, k15, k16⟩ :=
    id answered.follows.settings
  exact ⟨t, next, answered.reply, toDestination.trans destination, toPath.trans path,
    fun src => ⟨(sources (sourceIndex src)).1.trans (enable src), (sources (sourceIndex src)).2.trans (level src)⟩,
    toRecord.trans record, ⟨k1, k2, k3, k4, k5, k6, k7, k8, k9, rfl, rfl, rfl, fun _ => ⟨rfl, rfl⟩, k14, k15, k16⟩,
    answered.follows.contexts, answered.follows.pairs⟩

/-! ## The ranges of section 10.5 -/

theorem clampTo_bne (lo hi n : Nat) : (clampTo lo hi n != n) = decide (n < lo ∨ hi < n) := by
  rw [Bool.eq_iff_iff, bne_iff_ne, decide_eq_true_iff]
  unfold clampTo
  split
  · omega
  · split <;> omega

theorem clamps_of {α : Type} {check : α → Checked α} {field : Nat → α} {lo hi : Nat}
    (e : ∀ n, check (field n) = checkQty field lo hi n) : Clamps check field lo hi := by
  intro n
  rw [e, checkQty, clampTo_bne lo hi n]
  rfl

theorem enumerated_of {α β : Type} {check : α → Checked α} {field : Option β → α}
    (e : ∀ v, check (field v) = checkEnum field v) : Enumerated check field := ⟨e none, fun v => e (some v)⟩

theorem checkClass_refusal {s : State} {c : ClassNo} {x : ClassItem} {st : Status} (h : checkClass s c x = .refuse st) :
    st = .badValue ∨ st = .busy := by
  cases x
  case quota n =>
    rw [checkQuota_eq] at h
    split at h
    · cases h; exact .inl rfl
    · split at h <;> cases h
      exact .inr rfl
  case spill v => exact .inl (checkEnum_refusal h)
  case defaultMap ps =>
    simp only [checkClass] at h
    split at h <;> cases h
    exact .inl rfl
  all_goals cases h

/-- Settles O45. -/
theorem settingsWritten : Obligations.SettingsWritten := by
  intro c q s h
  refine ⟨fun xs request a => ⟨fun accepted => ?_, ?_⟩, fun o k xs request a named => ⟨fun accepted => ?_, ?_⟩, ?_, ?_,
    fun k => ?_, ?_⟩
  · exact bondSettings_written h request a accepted
  · rintro pre post x st rfl before refused
    exact settings_refused (check := checkBond) (name := fun x => .bond (bondName x)) (apply := applyBond)
      (tests := bondTests) h request a rfl before refused (.inl (checkBond_refusal refused))
  · obtain ⟨t, next, cfg, reply, settings, contexts, left, -⟩ := classSettings_written h request a named accepted
    exact ⟨t, next, cfg, reply, settings, contexts, left⟩
  · rintro pre post x st rfl before refused
    refine settings_refused (check := checkClass s k) (apply := applyClass k) (tests := fun _ => false)
      (name := fun x => .cls (className x)) (post := post) h request a ?_ before refused (checkClass_refusal refused)
    simp only [serveWriteSettings, named]
    rfl
  · rintro xs rfl a
    refine ⟨fun accepted => noticeSettings_written h a accepted, ?_⟩
    rintro pre post x st rfl before refused
    exact settings_refused (check := checkNotice) (name := fun x => .notice (noticeName x)) (apply := applyNotice)
      (tests := fun _ => false) (c := .writeSettings q (.notice (pre ++ x :: post))) h rfl a rfl before refused
      (.inl (checkNotice_refusal refused))
  · exact ⟨clamps_of fun _ => rfl, clamps_of fun _ => rfl, enumerated_of fun _ => rfl,
      enumerated_of fun _ => rfl, enumerated_of fun _ => rfl, fun n => by
        simp only [checkBond]
        by_cases outside : n = 0 ∨ 6 < n
        · rw [if_pos outside, if_neg]
          simp only [Bool.and_eq_true, decide_eq_true_eq]
          omega
        · rw [if_neg outside, if_pos]
          simp only [Bool.and_eq_true, decide_eq_true_eq]
          omega,
      clamps_of fun _ => rfl, clamps_of fun _ => rfl, clamps_of fun _ => rfl,
      clamps_of fun _ => rfl, clamps_of fun _ => rfl, clamps_of fun _ => rfl,
      fun _ => rfl, enumerated_of fun _ => rfl, enumerated_of fun _ => rfl⟩
  · refine ⟨clamps_of fun _ => rfl, clamps_of fun _ => rfl, enumerated_of fun _ => rfl,
      fun n => ?_, fun ps => ?_, fun n => ?_⟩
    · simp only [checkClass, roundFragmentSize_eq, bne, ne_eq, decide_not]
      rfl
    · simp only [checkClass]
      split
      · next within => exact (if_neg (all_below_iff.1 within)).symm
      · next beyond => exact (if_pos (not_not.1 fun none => beyond (all_below_iff.2 none))).symm
    · rw [checkQuota_eq]
      simp only [bne, ne_eq, decide_not]
      rw [Nat.add_comm _ (clampTo 16 752 n)]
      rfl
  · exact ⟨fun _ => rfl, enumerated_of fun _ => rfl, fun src => ⟨enumerated_of fun _ => rfl, enumerated_of fun _ => rfl⟩⟩

/-! ## Single items: O46 -/

theorem writeReply_single {α : Type} {check : α → Checked α} {name : α → SettingName} {x v : α} {b : Bool}
    (e : check x = .accept v b) : writeReply check name [x] =
      (if b = true then .clamped else .ok, .clampedNames (if b = true then [name x] else [])) := by
  cases b <;> simp [writeReply, e, Checked.clamped]

theorem acceptedValues_single {α : Type} {check : α → Checked α} {x v : α} {b : Bool} (e : check x = .accept v b) :
    acceptedValues check [x] = [v] := by
  simp [acceptedValues, e, Checked.value]

theorem accepted_single {α : Type} {check : α → Checked α} {x v : α} {b : Bool} (e : check x = .accept v b) :
    ∀ y ∈ [x], (check y).value.isSome = true := by
  simp [e, Checked.value]

/-- A WRITE-SETTINGS of one accepted CLASS item. -/
theorem classSetting_written {i : Instr} {q : ReqHead} {o : Octet} {c : ClassNo} {x v : ClassItem} {b : Bool} {s : State}
    (h : s.open) (request : requestOf i = some (q, .writeSettings (.cls o [x])))
    (a : Admits q (.writeSettings (.cls o [x])) s) (named : classIndex o = some c)
    (accepted : checkClass s c x = .accept v b) :
    ∃ t, exec i s = .next t ∧ (t.cls c).cfg = writeClass (s.cls c).cfg v ∧
      Answers q 3 (if b = true then .clamped else .ok)
        (.clampedNames (if b = true then [.cls (className x)] else [])) s.cfg.stationAddress t ∧
      SettingsKept (modClass c (fun u => { u with cfg := (t.cls c).cfg }) s) t ∧ ContextsLeft s t ∧ AllLeft s t ∧
      ∀ r : Reply, Output.reply r ∈ t.out → r.status = if b = true then .clamped else .ok := by
  have all := classSettings_written h request a named (accepted_single accepted)
  rw [writeReply_single accepted, acceptedValues_single accepted] at all
  exact all

/-- A WRITE-SETTINGS of one accepted BOND item whose write starts no offer test and moves no pair. -/
theorem bondSetting_written {i : Instr} {q : ReqHead} {x v : BondItem} {b : Bool} {f : BondSettings → BondSettings}
    {s : State} (h : s.open) (request : requestOf i = some (q, .writeSettings (.bond [x])))
    (a : Admits q (.writeSettings (.bond [x])) s) (accepted : checkBond x = .accept v b) (untested : bondTests v = false)
    (applied : ∀ s, applyBond v s = modCfg f s) (stays : (f s.cfg).stationAddress = s.cfg.stationAddress) :
    ∃ t, exec i s = .next t ∧ t.cfg = f s.cfg ∧ AllLeft s t ∧ ContextsLeft s t ∧
      Answers q 3 (if b = true then .clamped else .ok)
        (.clampedNames (if b = true then [.bond (bondName x)] else [])) s.cfg.stationAddress t := by
  have served : serveBody (.writeSettings (.bond [x])) (counted s) =
      ⟨if b = true then .clamped else .ok, .clampedNames (if b = true then [.bond (bondName x)] else []),
        modCfg f (counted s)⟩ := by
    have all := serveItems_accepted (name := fun x => .bond (bondName x)) applyBond bondTests (counted s)
      (accepted_single accepted)
    have values : ([x].filterMap fun x => (checkBond x).value) = [v] := acceptedValues_single accepted
    rw [writeReply_single accepted, values, applyItems_untested _ _ (fun y m => by
      rw [List.mem_singleton.1 m]; exact untested)] at all
    refine all.trans ?_
    rw [← applied]
    rfl
  obtain ⟨t, next, answered, ensues⟩ := exec_served h request a (by simp) served h.2
  refine ⟨t, next, ensues.cfg, answered.follows.pairs, answered.follows.contexts, ?_⟩
  rw [← stays]
  exact answered.reply

/-- Settles O46. -/
theorem quotaAndCodesWritten : Obligations.QuotaAndCodesWritten := by
  intro q o c n s h named
  have refusedClass : ∀ {i : Instr} {st : Status}, requestOf i = some (q, .writeSettings (.cls o [.quota n])) →
      Admits q (.writeSettings (.cls o [.quota n])) s → checkClass s c (.quota n) = .refuse st →
      ∃ t, exec i s = .next t ∧ OnlyReply q s t ∧
        Answers q 3 st (.refused (.setting (.cls .quota))) s.cfg.stationAddress t := by
    intro i st request a refused
    obtain ⟨t, next, reply, only⟩ := settings_refused (check := checkClass s c) (apply := applyClass c)
      (tests := fun _ => false) (name := fun x => .cls (className x)) (pre := []) (post := []) h request a
      (by simp only [serveWriteSettings, named]; rfl) (by simp) refused (checkClass_refusal refused)
    exact ⟨t, next, only, reply⟩
  refine ⟨fun a => ?_, fun a => ?_, fun a => ?_, fun a => ?_⟩
  · have check := checkQuota_eq s c n
    split
    · next beyond => exact refusedClass rfl a (check.trans (if_pos beyond))
    · next within =>
      rw [if_neg within] at check
      split
      · next busy => exact refusedClass rfl a (check.trans (if_pos busy))
      · next free =>
        obtain ⟨t, next, cfg, reply, settings, contexts, left, -⟩ := classSetting_written (i := .quotaWrite q o n) h rfl a
          named (check.trans (if_neg free))
        obtain ⟨-, -, -, -, -, -, bond, -, cfgs, -⟩ := id settings
        rw [clampTo_bne] at reply
        simp only [decide_eq_true_eq] at reply
        refine ⟨t, next, cfg, left, contexts, fun d other => ?_, bond, reply⟩
        rw [cfgs d, modClass_cls, if_neg other]
  · obtain ⟨t, next, cfg, left, contexts, reply⟩ := bondSetting_written (i := .wakeThresholdWrite q n)
      (f := fun b => { b with wakeThreshold := clampTo 64 65535 n }) h rfl a rfl rfl (fun _ => rfl) rfl
    rw [clampTo_bne] at reply
    simp only [decide_eq_true_eq] at reply
    exact ⟨t, next, cfg, left, contexts, reply⟩
  · by_cases within : 1 ≤ n ∧ n ≤ 6
    · obtain ⟨t, next, cfg, -⟩ := bondSetting_written (i := .writeSettings q (.bond [.classOrderCode n]))
        (x := .classOrderCode n) (v := .classOrderCode n) (b := false) (f := fun b => { b with classOrder := n }) h rfl a
        (by simp [checkBond, within]) rfl (fun _ => rfl) rfl
      exact ⟨t, next, (if_pos within).mpr cfg⟩
    · have refused : checkBond (.classOrderCode n) = .refuse .badValue :=
        if_neg (by simpa only [Bool.and_eq_true, decide_eq_true_eq] using within)
      obtain ⟨t, next, reply, only⟩ := settings_refused (check := checkBond) (apply := applyBond) (tests := bondTests)
        (name := fun x => .bond (bondName x)) (pre := []) (post := [])
        (c := .writeSettings q (.bond [.classOrderCode n])) h rfl a rfl (by simp) refused (.inl rfl)
      obtain ⟨-, -, -, settings, -⟩ := id only
      obtain ⟨-, -, -, -, -, -, cfg, -⟩ := settings
      exact ⟨t, next, (if_neg within).mpr ⟨cfg, only, reply⟩⟩
  · obtain ⟨t, next, cfg, reply, -, -, -, only⟩ := classSetting_written (x := .fragmentSize n)
      (i := .writeSettings q (.cls o [.fragmentSize n])) h rfl a named rfl
    have size : (t.cls c).cfg.fragmentSize = roundFragmentSize n := by rw [cfg]; rfl
    refine ⟨t, next, ?_, size.trans (roundFragmentSize_eq n), ?_⟩
    · rw [size, roundFragmentSize]
      exact Nat.mul_mod_left _ _
    · rw [size]
      by_cases same : roundFragmentSize n = n
      · rw [same, bne_self_eq_false] at reply
        exact ⟨fun _ => same, fun _ => reply⟩
      · refine ⟨fun answers => ?_, fun e => absurd e same⟩
        have status := only _ answers
        rw [if_pos (bne_iff_ne.2 same)] at status
        cases status

end Sys2Proof.Proofs
end

