-- ==== Sys2Proof/Proofs/Departures.lean ====
section
/-! SUPPORT. A pair that leaves its state (R4, R7, R12): what the withdrawal, the collector's exit and the entry of the new
state leave of the rest, and what they make of the pair's own unit, horizons and counters. -/

namespace Sys2Proof.Proofs
open Sys2Proof Sys2Proof.Machine Sys2Proof.Laws

/-! ## The notices and the distributor's counters through the collector -/

/-- The class counters of the distributor (R108). -/
def outbound (n : ClassCounters) : ClassCounters :=
  { admitted := n.admitted, queueDrop := n.queueDrop, noPath := n.noPath, spill := n.spill, wakeAsk := n.wakeAsk
    fragPlaced := n.fragPlaced, moved := n.moved, flushed := n.flushed }

/-- The collector and the reassembler raise no notice but GAP-LOSS and count nothing of the distributor's. -/
structure Gathered (s t : State) : Prop where
  unraised : ∀ src : Source, src ≠ .gapLoss → Unraised src s t
  counters : ∀ c : ClassNo, outbound (t.cls c).n = outbound (s.cls c).n

theorem Gathered.refl (s : State) : Gathered s s := ⟨fun _ _ => unraised_refl _ s, fun _ => rfl⟩

theorem Gathered.trans {s t u : State} (h : Gathered s t) (k : Gathered t u) : Gathered s u where
  unraised src other := unraised_trans (h.unraised src other) (k.unraised src other)
  counters c := (k.counters c).trans (h.counters c)

theorem gathered_of_eq {s t : State} (notices : t.notices = s.notices) (classes : t.classes = s.classes) :
    Gathered s t where
  unraised src _ := unraised_of_source (by rw [State.source, notices]; rfl)
  counters c := by rw [State.cls, classes]; rfl

theorem modClass_gathered {c : ClassNo} {f : ClassUnit → ClassUnit} {s : State}
    (h : outbound (f (s.cls c)).n = outbound (s.cls c).n) : Gathered s (modClass c f s) where
  unraised src _ := unraised_of_source rfl
  counters d := by
    rw [modClass_cls]
    split
    · next same => rw [same]; exact h
    · rfl

theorem countClass_gathered (c : ClassNo) {f : ClassCounters → ClassCounters} {s : State}
    (h : outbound (f (s.cls c).n) = outbound (s.cls c).n) : Gathered s (countClass c f s) := modClass_gathered h

theorem handToAgent_gathered (r : Request) (s : State) : Gathered s (handToAgent r s) := gathered_of_eq rfl rfl

theorem setCarried_gathered (s : State) : Gathered s (setCarried s) := gathered_of_eq rfl rfl

theorem raiseGapLoss_gathered (a : NoticeArg) (s : State) : Gathered s (raiseNotice .gapLoss a s) where
  unraised _ other := raiseNotice_unraised .gapLoss _ a s other
  counters _ := rfl

theorem offerEgress_gathered {e : EgressEntry} (unflagged : e.resetReply = false) (s : State) :
    Gathered s (offerEgress e s) := by
  unfold offerEgress
  split
  · exact gathered_of_eq rfl rfl
  · simp only [unflagged, Bool.false_eq_true, if_false]
    exact gathered_of_eq rfl rfl

theorem passOn_gathered (c : ClassNo) (f : Frame) (s : State) : Gathered s (passOn c f s) := by
  unfold passOn
  split
  · exact countClass_gathered c rfl
  · split
    · exact (countClass_gathered c rfl).trans (handToAgent_gathered _ _)
    · split
      · exact gathered_of_eq rfl rfl
      · exact (countClass_gathered c rfl).trans (offerEgress_gathered rfl _)

theorem setReasm_gathered (c : ClassNo) (r : Reasm) (s : State) : Gathered s (setReasm c r s) := modClass_gathered rfl

theorem tear_gathered (c : ClassNo) (s : State) : Gathered s (tear c s) := by
  unfold tear
  split
  · exact modClass_gathered rfl
  · exact .refl s

theorem reassemble_gathered (c : ClassNo) (first last : Bool) (payload : List Octet) (s : State) :
    Gathered s (reassemble c first last payload s) := by
  unfold reassemble
  split
  · exact (tear_gathered c s).trans (setReasm_gathered c _ _)
  · exact ((tear_gathered c s).trans (setReasm_gathered c _ _)).trans (passOn_gathered c _ _)
  · split
    · exact modClass_gathered rfl
    · exact Gathered.trans (modClass_gathered rfl) (setReasm_gathered c _ _)
    · split
      · exact Gathered.trans (modClass_gathered rfl) (setReasm_gathered c _ _)
      · split
        · exact (setReasm_gathered c _ s).trans (passOn_gathered c _ _)
        · exact setReasm_gathered c _ s

theorem reassembleLoss_gathered (c : ClassNo) (s : State) : Gathered s (reassembleLoss c s) := by
  unfold reassembleLoss
  split
  · exact Gathered.trans (modClass_gathered rfl) (setReasm_gathered c _ _)
  · exact setReasm_gathered c _ s

theorem deliverUpTo_gathered (n : Nat) (c : ClassNo) (s : State) : Gathered s (deliverUpTo n c s) := by
  induction n generalizing s with
  | zero => exact .refl s
  | succ n ih =>
    unfold deliverUpTo
    split
    · exact .refl s
    · exact ((modClass_gathered rfl).trans (reassemble_gathered c _ _ _ _)).trans (ih _)

theorem declared_gathered (c : ClassNo) (s : State) : Gathered s (declared c s) :=
  ((((reassembleLoss_gathered c s).trans (countClass_gathered c rfl)).trans (raiseGapLoss_gathered _ _)).trans
    (modClass_gathered rfl)).trans (setCarried_gathered _)

theorem declareLost_gathered (c : ClassNo) (s : State) : Gathered s (declareLost c s) :=
  (declared_gathered c s).trans (deliverUpTo_gathered _ c _)

theorem declareUpTo_gathered (n : Nat) (c : ClassNo) (s : State) : Gathered s (declareUpTo n c s) := by
  induction n generalizing s with
  | zero => exact .refl s
  | succ n ih =>
    unfold declareUpTo
    split
    · exact (declareLost_gathered c s).trans (ih _)
    · exact .refl s

theorem followGap_gathered (before : Seq) (c : ClassNo) (s : State) : Gathered s (followGap before c s) := by
  obtain ⟨hold, e⟩ := followGap_eq before c s
  rw [e]
  exact modClass_gathered rfl

theorem testLosses_gathered (c : ClassNo) (s : State) : Gathered s (testLosses c s) :=
  (declareUpTo_gathered 8192 c s).trans (followGap_gathered _ c _)

theorem pairExit_gathered (p : PairNo) (s : State) : Gathered s (pairExit p s) :=
  eachClass_collected (R := Gathered) Gathered.trans
    (fun c _ => (modClass_gathered rfl).trans (testLosses_gathered c _)) s

/-! ## What an event on one pair leaves -/

/-- An event on pair `p`, before the other blocks follow it, has left what `Beside` speaks of. -/
structure ActsOn (p : PairNo) (s t : State) : Prop where
  others : ∀ q : PairNo, q ≠ p → (t.pair q).steady = (s.pair q).steady
  settings : SettingsKept s t
  bond : BondLeft s t
  classifier : t.classifier = s.classifier
  reset : s.agent.reset = none → t.agent.reset = none

theorem ActsOn.refl (p : PairNo) (s : State) : ActsOn p s s where
  others _ _ := rfl
  settings := (Follows.refl s).settings
  bond := (Follows.refl s).bond
  classifier := rfl
  reset := id

theorem ActsOn.trans {p : PairNo} {s t u : State} (h : ActsOn p s t) (k : ActsOn p t u) : ActsOn p s u where
  others q other := (k.others q other).trans (h.others q other)
  settings := SettingsKept_trans h.settings k.settings
  bond := BondLeft_trans h.bond k.bond
  classifier := k.classifier.trans h.classifier
  reset x := k.reset (h.reset x)

theorem modPair_actsOn {p : PairNo} {f : PairUnit → PairUnit} {s : State} (h : (f (s.pair p)).cfg = (s.pair p).cfg) :
    ActsOn p s (modPair p f s) :=
  { ActsOn.refl p s with
    others := fun _ other => by rw [modPair_pair_other s p f other]
    settings := modPair_settingsKept p f s h }

theorem raiseNotice_actsOn (p : PairNo) (src : Source) (a : NoticeArg) (s : State) :
    ActsOn p s (raiseNotice src a s) :=
  { ActsOn.refl p s with settings := (raiseNotice_follows src a s).settings }

theorem raiseCtl_actsOn (k : Ctl) (p : PairNo) (s : State) : ActsOn p s (raiseCtl k p s) := modPair_actsOn (raise_cfg k _)

theorem modRecord_actsOn (p : PairNo) (f : ProvingRecord → ProvingRecord) (s : State) : ActsOn p s (modRecord p f s) :=
  modPair_actsOn rfl

theorem raiseEnd_actsOn (p : PairNo) (v : Verdict) (d : Nat) (s : State) : ActsOn p s (raiseEnd p v d s) :=
  (modRecord_actsOn p _ s).trans (raiseCtl_actsOn _ p _)

theorem cutUnit_cfg (b : Bool) (u : PairUnit) : (cutUnit b u).cfg = u.cfg := by
  unfold cutUnit
  split <;> rfl

theorem emit_actsOn (p : PairNo) (o : Output) (s : State) : ActsOn p s (emit o s) := { ActsOn.refl p s with }

theorem cutHandover_actsOn (b : Bool) (p : PairNo) (s : State) : ActsOn p s (cutHandover b p s) := by
  unfold cutHandover
  split
  · exact .refl p s
  · exact (modPair_actsOn (by rfl)).trans (emit_actsOn p _ _)

/-- The engine is none of these. -/
theorem engine_actsOn (p : PairNo) (e : Option Run) (s : State) : ActsOn p s { s with engine := e } :=
  { ActsOn.refl p s with }

theorem collects_actsOn {c : ClassNo} (p : PairNo) {s t : State} (h : Collects c s t) : ActsOn p s t where
  others q _ := by rw [State.pair, h.pairs]; rfl
  settings := h.settings
  bond := h.bond
  classifier := h.classifier
  reset := h.reset

theorem setHorizon_collects (c : ClassNo) (p : PairNo) (h : Option Seq) (s : State) :
    Collects c s (setHorizon c p h s) := modClass_collects c _ s rfl

theorem testLosses_delivers (c : ClassNo) (s : State) : Delivers c s (testLosses c s) :=
  (lossTests_delivers c s).trans (followGap_delivers _ c _)

theorem pairExit_actsOn (p q : PairNo) (s : State) : ActsOn q s (pairExit p s) :=
  eachClass_collected (R := ActsOn q) ActsOn.trans (fun c s => collects_actsOn q
    ((setHorizon_collects c p none s).trans (testLosses_delivers c _).toCollects)) s

theorem givenUnit_steady (added : List Desc) (u : PairUnit) : (givenUnit added 0 u).steady = u.steady := by
  simp [givenUnit, PairUnit.steady]

theorem giveBackAll_actsOn (p : PairNo) (es : List Desc) (s : State) : ActsOn p s (giveBackAll p es s) := by
  have given := giveBackAll_given p es s
  refine { ActsOn.refl p s with others := fun q other => ?_, settings := ?_, bond := ?_, classifier := ?_, reset := ?_ }
  · obtain ⟨added, d, unit, -, -, own⟩ := given.pairs q
    rw [unit, own other, givenUnit_steady]
  · have classes := classes_left given.classes
    obtain ⟨a, b, c, d, e, f, g, -, -, i⟩ := (Follows.refl s).settings
    rw [given.rest]
    refine ⟨a, b, c, d, e, f, g, fun q => ?_, fun c => (classes c).2.2.1, i⟩
    obtain ⟨added, d, unit, -, -, -⟩ := given.pairs q
    exact (congrArg PairUnit.cfg unit : ((giveBackAll p es s).pair q).cfg = _)
  · rw [given.rest]; exact (Follows.refl s).bond
  · rw [given.rest]
  · rw [given.rest]; exact id

theorem enterState_actsOn (p : PairNo) (st : PairState) (s : State) : ActsOn p s (enterState p st s) := by
  obtain ⟨-, -, -, -, -, cfg, -⟩ := enter_kept s.now s.cfg st (s.pair p)
  exact modPair_actsOn cfg

theorem emptied_actsOn (p : PairNo) (st : PairState) (s : State) : ActsOn p s (emptied p st s) :=
  ((modPair_actsOn (by rfl)).trans (cutHandover_actsOn true p _)).trans (modPair_actsOn (by rfl))

theorem departed_actsOn (p : PairNo) (st : PairState) (s : State) : ActsOn p s (departed p st s) := by
  unfold departed
  split
  · rw [withdrawTo_eq]
    exact ((emptied_actsOn p st s).trans (giveBackAll_actsOn p _ _)).trans (pairExit_actsOn p p _)
  · split
    · exact cutHandover_actsOn false p s
    · exact .refl p s

theorem moveTo_actsOn (p : PairNo) (st : PairState) (s : State) : ActsOn p s (moveTo p st s) :=
  (departed_actsOn p st s).trans (enterState_actsOn p st _)

/-- What follows an event on one pair leaves what `Beside` speaks of. -/
theorem ActsOn.beside {p : PairNo} {s t u : State} (h : ActsOn p s t) (k : Follows t u) (reset : s.agent.reset = none) :
    Beside p s u :=
  ⟨fun q other => LeftBy_trans (.inl (h.others q other)) (k.pairs q), SettingsKept_trans h.settings k.settings,
    BondLeft_trans h.bond k.bond, k.classifier.trans h.classifier, k.reset (h.reset reset)⟩

/-! ## Notices and horizons of a pair that leaves its state -/

theorem cutHandover_source (b : Bool) (p : PairNo) (s : State) (src : Source) :
    (cutHandover b p s).source src = s.source src := by
  unfold cutHandover
  split <;> rfl

theorem cutHandover_classes (b : Bool) (p : PairNo) (s : State) : (cutHandover b p s).classes = s.classes := by
  unfold cutHandover
  split <;> rfl

/-- A pair that leaves its state raises no notice but the GAP-LOSS of the losses that its exit lets the collector find. -/
theorem moveTo_unraised {src : Source} (other : src ≠ .gapLoss) (p : PairNo) (st : PairState) (s : State) :
    Unraised src s (moveTo p st s) := by
  have left : Unraised src s (departed p st s) := by
    unfold departed
    split
    · rw [withdrawTo_eq]
      refine unraised_trans (unraised_of_source ?_) ((pairExit_gathered p _).unraised src other)
      rw [(giveBackAll_given p _ _).rest]
      exact cutHandover_source true p _ src
    · split
      · exact unraised_of_source (cutHandover_source false p s src)
      · exact unraised_refl src s
  exact unraised_trans left (unraised_of_source rfl)

theorem testedExit_horizon (c d : ClassNo) (p q : PairNo) (s : State) :
    (testLosses c (setHorizon c p none s)).horizon d q = if d = c ∧ q = p then none else s.horizon d q := by
  have tested := testLosses_delivers c (setHorizon c p none s)
  by_cases same : d = c
  · subst same
    rw [State.horizon, tested.horizons, setHorizon, modClass_cls_same, get_set]
    simp [State.horizon]
  · rw [State.horizon, tested.others d same, setHorizon, modClass_cls_other _ _ _ same, if_neg (fun h => same h.1)]
    rfl

/-- The horizons of a pair that has left the horizon set are NONE, and the others are as they were (R128). -/
theorem pairExit_horizon (p q : PairNo) (c : ClassNo) (s : State) :
    (pairExit p s).horizon c q = if q = p then none else s.horizon c q := by
  have each : c = 0 ∨ c = 1 ∨ c = 2 := by revert c; decide
  unfold pairExit eachClass
  rw [testedExit_horizon, testedExit_horizon, testedExit_horizon]
  by_cases same : q = p
  · rcases each with e | e | e <;> simp [e, same]
  · simp [same]

section Service

variable {p : PairNo} {st : PairState} {s : State}

/-- A pair that takes part in the delivery of the classes: SERVING or WAKING (R12). -/
def InService (u : PairUnit) : Prop := u.state = .serving ∨ u.state = .waking

theorem departed_inService (service : InService (s.pair p)) : departed p st s = withdrawTo p st s := by
  unfold departed
  rw [if_pos]
  simpa [InService] using service

theorem emptied_classes (p : PairNo) (st : PairState) (s : State) : (emptied p st s).classes = s.classes :=
  cutHandover_classes true p _

/-- Giving entries back reads and leaves the collector's contexts. -/
theorem giveBackAll_context (p : PairNo) (es : List Desc) (s : State) (c : ClassNo) :
    ((giveBackAll p es s).cls c).context = (s.cls c).context := by
  have classes := (giveBackAll_given p es s).classes c
  rw [ClassUnit.mk.injEq] at classes
  simp [ClassUnit.context, classes]

theorem horizon_of_context {s t : State} {c : ClassNo} (h : (t.cls c).context = (s.cls c).context) (q : PairNo) :
    t.horizon c q = s.horizon c q := by
  have horizons : (t.cls c).horizons = (s.cls c).horizons := congrArg (fun x => x.2.2.1) h
  rw [State.horizon, horizons]
  rfl

theorem moveTo_horizon (service : InService (s.pair p)) (c : ClassNo) (q : PairNo) :
    (moveTo p st s).horizon c q = if q = p then none else s.horizon c q := by
  have entered : (moveTo p st s).horizon c q = (departed p st s).horizon c q := rfl
  rw [entered, departed_inService service, withdrawTo_eq, pairExit_horizon,
    horizon_of_context (giveBackAll_context p _ _ c)]
  rw [State.horizon, State.cls, emptied_classes]
  rfl

/-- Outside SERVING and WAKING a change of state touches nothing but the pair's own unit. -/
theorem moveTo_onlyPair (st : PairState) (idle : ¬ InService (s.pair p)) : OnlyPair p s (moveTo p st s) := by
  have left : OnlyPair p s (departed p st s) := by
    unfold departed
    rw [if_neg (by simpa [InService] using idle)]
    split
    · unfold cutHandover
      split
      · exact onlyPair_refl p s
      · exact onlyPair_trans (modPair_onlyPair p _ s) (emit_onlyPair p _ _)
    · exact onlyPair_refl p s
  exact onlyPair_trans left (modPair_onlyPair p _ _)

end Service

theorem onlyPair_contexts {p : PairNo} {s t : State} (h : OnlyPair p s t) : ContextsLeft s t := by
  obtain ⟨-, classes, -⟩ := h
  intro c
  rw [State.cls, classes]
  rfl

/-! ## The unit of a pair that leaves its state -/

/-- The pair record is as it was but for the state, the handover, the queue and the counters of a withdrawal. -/
theorem leavingUnit_left (st : PairState) (d : Count) (u : PairUnit) :
    ∃ (st' : PairState) (h : Option Handover) (q : List Desc) (o : Bool) (n : PairCounters),
      leavingUnit st d u = { u with state := st', handover := h, queue := q, offering := o, n := n } := by
  unfold leavingUnit
  split
  · unfold withdrawnUnit givenUnit cutUnit
    dsimp only
    split <;> exact ⟨_, _, _, _, _, rfl⟩
  · split
    · unfold cutUnit
      split <;> exact ⟨_, _, _, _, _, rfl⟩
    · exact ⟨u.state, u.handover, u.queue, u.offering, u.n, rfl⟩

/-- A withdrawal counts CUT-OFF and MOVED-DISCARD alone. -/
theorem leavingUnit_counters (st : PairState) (d : Count) (u : PairUnit) :
    ∃ x y : Count, (leavingUnit st d u).n = { u.n with cutOff := x, movedDiscard := y } := by
  unfold leavingUnit
  split
  · unfold withdrawnUnit givenUnit cutUnit
    dsimp only
    split <;> exact ⟨_, _, rfl⟩
  · split
    · unfold cutUnit
      split <;> exact ⟨u.n.cutOff, u.n.movedDiscard, rfl⟩
    · exact ⟨u.n.cutOff, u.n.movedDiscard, rfl⟩

theorem enter_recordKept (now : Nat) (b : BondSettings) {st : PairState} (present : st ≠ .absent) (u : PairUnit) :
    u.RecordKept (PairUnit.enter now b st u) := by
  obtain ⟨delay, strikes, wakeErrors, noQuiet, quietEntry, cfg, -⟩ := enter_kept now b st u
  refine ⟨?_, delay, ?_, ?_, strikes, wakeErrors, noQuiet, quietEntry, cfg⟩
  all_goals
    cases st <;> simp_all [PairUnit.enter, PairUnit.stopWindow, PairUnit.startWindow]; split <;> rfl

theorem recordKept_trans {u v w : PairUnit} (h : u.RecordKept v) (k : v.RecordKept w) : u.RecordKept w := by
  obtain ⟨h1, h2, h3, h4, h5, h6, h7, h8, h9⟩ := h
  obtain ⟨k1, k2, k3, k4, k5, k6, k7, k8, k9⟩ := k
  exact ⟨k1.trans h1, k2.trans h2, k3.trans h3, k4.trans h4, k5.trans h5, k6.trans h6, k7.trans h7, k8.trans h8,
    k9.trans h9⟩

section Moved

variable {p : PairNo} {st : PairState} (s : State)

theorem moveTo_enters (p : PairNo) (st : PairState) (s : State) :
    ((moveTo p st s).pair p).Entered s.now s.cfg st := by
  rw [moveTo_eq, enterState, modPair_pair_same, (departed_engine p st s).2]
  have cfg : (departed p st s).cfg = s.cfg := moveTo_cfg p st s
  rw [cfg]
  exact enter_entered _ _ _ _

theorem moveTo_recordKept (out : st ≠ .serving) (present : st ≠ .absent) :
    (s.pair p).RecordKept ((moveTo p st s).pair p) := by
  obtain ⟨d, unit⟩ := moveTo_pair p out s
  rw [unit]
  refine recordKept_trans ?_ (enter_recordKept s.now s.cfg present _)
  obtain ⟨_, _, _, _, _, left⟩ := leavingUnit_left st d (s.pair p)
  rw [left]
  exact ⟨rfl, rfl, rfl, rfl, rfl, rfl, rfl, rfl, rfl⟩

theorem moveTo_counters (out : st ≠ .serving) :
    ∃ x y : Count, ((moveTo p st s).pair p).n = { (s.pair p).n with cutOff := x, movedDiscard := y } := by
  obtain ⟨d, unit⟩ := moveTo_pair p out s
  obtain ⟨-, -, -, -, -, -, n, -⟩ := enter_kept s.now s.cfg st (leavingUnit st d (s.pair p))
  rw [unit, n]
  exact leavingUnit_counters st d _

theorem moveTo_rate (out : st ≠ .serving) : ((moveTo p st s).pair p).rate =
    if st = .absent ∨ st = .down then 0 else (s.pair p).rate := by
  obtain ⟨d, unit⟩ := moveTo_pair p out s
  rw [unit, enter_rate, leavingUnit_rate]

theorem enter_line (now : Nat) (b : BondSettings) (st : PairState) (u : PairUnit) : (PairUnit.enter now b st u).line =
    if st = .absent ∨ st = .down ∨ st = .quiet then false else u.line := by
  cases st <;> simp [PairUnit.enter, PairUnit.stopWindow, PairUnit.startWindow]
  split <;> rfl

theorem moveTo_line (out : st ≠ .serving) : ((moveTo p st s).pair p).line =
    if st = .absent ∨ st = .down ∨ st = .quiet then false else (s.pair p).line := by
  obtain ⟨d, unit⟩ := moveTo_pair p out s
  obtain ⟨_, _, _, _, _, left⟩ := leavingUnit_left st d (s.pair p)
  rw [unit, enter_line, left]

theorem moveTo_control (out : st ≠ .serving) : ((moveTo p st s).pair p).control = (s.pair p).control := by
  obtain ⟨d, unit⟩ := moveTo_pair p out s
  obtain ⟨-, -, -, -, -, -, -, -, -, control⟩ := enter_kept s.now s.cfg st (leavingUnit st d (s.pair p))
  obtain ⟨_, _, _, _, _, left⟩ := leavingUnit_left st d (s.pair p)
  rw [unit, control, left]

/-- The pending kinds of a pair that leaves its state are those that the new state permits, with its own (R29, R31). -/
theorem moveTo_ctl (out : st ≠ .serving) :
    ((moveTo p st s).pair p).ctl = raisedAtEntry st (keepPermitted st (s.pair p).ctl) := by
  obtain ⟨d, unit⟩ := moveTo_pair p out s
  obtain ⟨_, _, _, _, _, left⟩ := leavingUnit_left st d (s.pair p)
  rw [unit, left]
  cases st <;> simp [PairUnit.enter, PairUnit.stopWindow] at out ⊢

theorem enter_proveSlot (now : Nat) (b : BondSettings) (st : PairState) (u : PairUnit) :
    (PairUnit.enter now b st u).proveSlot = none := by
  cases st <;> simp [PairUnit.enter, PairUnit.stopWindow, PairUnit.startWindow]
  split <;> rfl

/-- A pair that leaves its state keeps its proving record but for the end slot (R153, R162). -/
theorem moveTo_provingRecord (out : st ≠ .serving) : ((moveTo p st s).pair p).record =
    { (s.pair p).record with
      endSlot := if st = .absent ∨ st = .down ∨ st = .barred then none else (s.pair p).record.endSlot } := by
  obtain ⟨d, unit⟩ := moveTo_pair p out s
  obtain ⟨_, _, _, _, _, left⟩ := leavingUnit_left st d (s.pair p)
  rw [unit, left]
  cases st <;> simp [PairUnit.enter, PairUnit.stopWindow] at out ⊢

theorem moveTo_proveSlot (out : st ≠ .serving) : ((moveTo p st s).pair p).proveSlot = none := by
  obtain ⟨d, unit⟩ := moveTo_pair p out s
  rw [unit, enter_proveSlot]

theorem keepPermitted_down (ks : List Ctl) : keepPermitted .down ks = [] :=
  List.filter_eq_nil_iff.2 fun k _ => by cases k <;> decide

theorem cutUnit_handover (b : Bool) (u : PairUnit) : (cutUnit b u).handover = none := by
  unfold cutUnit
  split
  · next none => exact none
  · rfl

theorem leavingUnit_down_handover (d : Count) (u : PairUnit) : (leavingUnit .down d u).handover = none := by
  unfold leavingUnit
  split
  · exact cutUnit_handover true { u with state := .down }
  · rw [if_pos (.inr (.inl rfl))]
    exact cutUnit_handover false u

theorem enter_down (now : Nat) (b : BondSettings) {u : PairUnit} (cut : u.handover = none) :
    (PairUnit.enter now b .down u).WentDown := by
  refine ⟨rfl, rfl, keepPermitted_down _, cut, rfl, rfl⟩

theorem moveTo_wentDown (p : PairNo) (s : State) : ((moveTo p .down s).pair p).WentDown := by
  obtain ⟨d, unit⟩ := moveTo_pair p (st := .down) (by decide) s
  rw [unit]
  exact enter_down _ _ (leavingUnit_down_handover d _)

theorem withdrawnUnit_left (st : PairState) (d : Count) (u : PairUnit) :
    (withdrawnUnit st d u).queue = [] ∧ (withdrawnUnit st d u).handover = none ∧
      (withdrawnUnit st d u).n.cutOff = u.n.cutOff + (if u.handover.isSome = true then 1 else 0) := by
  refine ⟨rfl, cutUnit_handover true { u with state := st }, ?_⟩
  unfold withdrawnUnit givenUnit cutUnit
  cases u.handover <;> simp

theorem leavingUnit_inService {u : PairUnit} (service : InService u) (st : PairState) (d : Count) :
    leavingUnit st d u = withdrawnUnit st d u := if_pos service

/-- A pair that leaves SERVING or WAKING has been withdrawn. -/
theorem moveTo_withdrawn (out : st ≠ .serving) (service : InService (s.pair p)) : Withdrawn p s (moveTo p st s) := by
  obtain ⟨d, unit⟩ := moveTo_pair p out s
  obtain ⟨-, -, -, -, -, -, n, queue, -⟩ := enter_kept s.now s.cfg st (leavingUnit st d (s.pair p))
  obtain ⟨empty, -, cut⟩ := withdrawnUnit_left st d (s.pair p)
  refine ⟨?_, fun c => ?_, ?_⟩
  · rw [unit, queue, leavingUnit_inService service, empty]
  · rw [moveTo_horizon service, if_pos rfl]
  · rw [unit, n, leavingUnit_inService service, cut]

end Moved

end Sys2Proof.Proofs
end

