-- ==== Sys2Proof/Proofs/LineDown.lean ====
section
/-! PROOF. A line-down report (R9) and the failure of supervision (R11): the departure to DOWN and what follows it. -/

namespace Sys2Proof.Proofs
open Sys2Proof Sys2Proof.Machine Sys2Proof.Laws

/-! ## Reading a unit through what follows -/

/-- What a departure says of a pair unit: its steady part without the proving record, the transceiver's control and the
wake cause. -/
def core (u : PairUnit) : PairUnit :=
  { u.steady with record := {}, control := .train, wakeCause := none, wakeStart := 0 }

theorem core_of_steady {u v : PairUnit} (h : v.steady = u.steady) : core v = core u := by rw [core, core, h]

theorem entered_of_core {now : Nat} {b : BondSettings} {st : PairState} {u v : PairUnit} (h : core v = core u)
    (k : u.Entered now b st) : v.Entered now b st := by
  have entered : (core u).Entered now b st := k
  rw [← h] at entered
  exact entered

theorem entered_of_steady {now : Nat} {b : BondSettings} {st : PairState} {u v : PairUnit} (h : v.steady = u.steady)
    (k : u.Entered now b st) : v.Entered now b st := entered_of_core (core_of_steady h) k

theorem recordKept_of_core {u v w : PairUnit} (h : core w = core v) (k : u.RecordKept v) : u.RecordKept w := by
  have kept : u.RecordKept (core v) := k
  rw [← h] at kept
  exact kept

theorem recordKept_of_steady {u v w : PairUnit} (h : w.steady = v.steady) (k : u.RecordKept v) : u.RecordKept w :=
  recordKept_of_core (core_of_steady h) k

theorem core_counters {u v : PairUnit} (h : core v = core u) : v.n = u.n := by
  have counters := congrArg PairUnit.n h
  exact counters

theorem steady_counters {u v : PairUnit} (h : v.steady = u.steady) : v.n = u.n := core_counters (core_of_steady h)

theorem core_rate {u v : PairUnit} (h : core v = core u) : v.rate = u.rate := by
  have rate := congrArg PairUnit.rate h
  exact rate

theorem core_line {u v : PairUnit} (h : core v = core u) : v.line = u.line := by
  have line := congrArg PairUnit.line h
  exact line

theorem steady_rate {u v : PairUnit} (h : v.steady = u.steady) : v.rate = u.rate := core_rate (core_of_steady h)

/-- A withdrawn pair stays so through what follows: outside SERVING it is given no fragment. -/
theorem withdrawn_after {p : PairNo} {r s t : State} (h : Withdrawn p r s) (follows : Follows s t) (ensues : Ensues s t)
    (awake : (s.pair p).state ≠ .quiet) (out : (s.pair p).state ≠ .serving) : Withdrawn p r t := by
  obtain ⟨empty, unknown, cut⟩ := h
  refine ⟨?_, fun c => ?_, ?_⟩
  · rw [(ensues.pairs p).queue_left awake (.inl out), empty]
  · rw [horizon_of_context (follows.contexts c), unknown c]
  · rw [steady_counters ((ensues.pairs p).steady awake), cut]

theorem raisedOnce_after {src : Source} {a : NoticeArg} {s t u : State} (h : Unraised src s t) (k : RaisedOnce src a t u) :
    RaisedOnce src a s u := by
  obtain ⟨pending, repeats, arg⟩ := h
  unfold RaisedOnce at k ⊢
  rw [← pending, ← repeats, ← arg]
  exact k

theorem raisedOnce_before {src : Source} {a : NoticeArg} {s t u : State} (h : RaisedOnce src a s t)
    (k : Unraised src t u) : RaisedOnce src a s u := by
  obtain ⟨pending, repeats, arg⟩ := k
  unfold RaisedOnce at h ⊢
  rw [pending, repeats, arg]
  exact h

/-! ## A departure with what follows it -/

section Departure

variable {p : PairNo} {st : PairState} {s t : State}

/-- What a departure to a state outside SERVING, QUIET and ABSENT leaves once the other blocks have followed it, read at
the state that it began in. -/
structure Departure (p : PairNo) (st : PairState) (s t : State) : Prop where
  enters : (t.pair p).Entered s.now s.cfg st
  record : (s.pair p).RecordKept (t.pair p)
  counters : ∃ x y : Count, (t.pair p).n = { (s.pair p).n with cutOff := x, movedDiscard := y }
  rate : (t.pair p).rate = if st = .absent ∨ st = .down then 0 else (s.pair p).rate
  line : (t.pair p).line = if st = .absent ∨ st = .down ∨ st = .quiet then false else (s.pair p).line
  withdrawn : InService (s.pair p) → Withdrawn p s t
  contexts : ¬ InService (s.pair p) → ContextsLeft s t

theorem moveTo_departure (s : State) (out : st ≠ .serving) (present : st ≠ .absent) : Departure p st s (moveTo p st s) where
  enters := moveTo_enters p st s
  record := moveTo_recordKept s out present
  counters := moveTo_counters s out
  rate := moveTo_rate s out
  line := moveTo_line s out
  withdrawn service := moveTo_withdrawn s out service
  contexts idle := onlyPair_contexts (moveTo_onlyPair st idle)

/-- A departure with a step that leaves what it says of the pair's unit, its queue and the contexts. -/
theorem Departure.through {u : State} (h : Departure p st s t) (same : core (u.pair p) = core (t.pair p))
    (queue : (u.pair p).queue = (t.pair p).queue) (contexts : ContextsLeft t u) : Departure p st s u where
  enters := entered_of_core same h.enters
  record := recordKept_of_core same h.record
  counters := by rw [core_counters same]; exact h.counters
  rate := (core_rate same).trans h.rate
  line := (core_line same).trans h.line
  withdrawn service := by
    obtain ⟨empty, unknown, cut⟩ := h.withdrawn service
    exact ⟨queue.trans empty, fun c => by rw [horizon_of_context (contexts c), unknown c],
      by rw [core_counters same, cut]⟩
  contexts idle c := (contexts c).trans (h.contexts idle c)

theorem Departure.state (h : Departure p st s t) : (t.pair p).state = st := h.enters.1

theorem Departure.after {u : State} (h : Departure p st s t) (follows : Follows t u) (ensues : Ensues t u)
    (out : st ≠ .serving) (awake : st ≠ .quiet) : Departure p st s u := by
  have asleep : (t.pair p).state ≠ .quiet := by rw [h.state]; exact awake
  exact h.through (core_of_steady ((ensues.pairs p).steady asleep))
    ((ensues.pairs p).queue_left asleep (.inl (by rw [h.state]; exact out))) follows.contexts

/-- A departure read at a state whose pair, clock, BOND settings and contexts are the same. -/
theorem Departure.of_start {r : State} (h : Departure p st s t) (same : core (s.pair p) = core (r.pair p))
    (handover : (s.pair p).handover = (r.pair p).handover) (now : s.now = r.now) (cfg : s.cfg = r.cfg)
    (contexts : ContextsLeft r s) : Departure p st r t := by
  have states := congrArg PairUnit.state same
  have start : (s.pair p).state = (r.pair p).state := states
  have service : InService (r.pair p) ↔ InService (s.pair p) := by unfold InService; rw [start]
  have kept : ∀ v : PairUnit, (s.pair p).RecordKept v ↔ (r.pair p).RecordKept v := fun v => by
    have left : (core (s.pair p)).RecordKept v ↔ (core (r.pair p)).RecordKept v := by rw [same]
    exact left
  refine ⟨?_, (kept _).1 h.record, ?_, ?_, ?_, fun k => ?_, fun idle c => ?_⟩
  · rw [← now, ← cfg]; exact h.enters
  · rw [← core_counters same]; exact h.counters
  · rw [← core_rate same]; exact h.rate
  · rw [← core_line same]; exact h.line
  · obtain ⟨empty, unknown, cut⟩ := h.withdrawn (service.1 k)
    exact ⟨empty, unknown, by rw [cut, core_counters same, handover]⟩
  · exact (h.contexts (fun k => idle (service.2 k)) c).trans (contexts c)

/-- A departure that began with a count on the pair. -/
theorem Departure.counted {f : PairCounters → PairCounters} (h : Departure p st (countPair p f s) t)
    (cut : (f (s.pair p).n).cutOff = (s.pair p).n.cutOff) :
    (t.pair p).Entered s.now s.cfg st ∧ (s.pair p).RecordKept (t.pair p) ∧
      (∃ x y : Count, (t.pair p).n = { f (s.pair p).n with cutOff := x, movedDiscard := y }) ∧
      (InService (s.pair p) → Withdrawn p s t) ∧ (¬ InService (s.pair p) → ContextsLeft s t) := by
  have unit : (countPair p f s).pair p = { s.pair p with n := f (s.pair p).n } := modPair_pair_same ..
  obtain ⟨enters, record, counters, -, -, withdrawn, contexts⟩ := h
  rw [unit] at record counters withdrawn contexts
  refine ⟨enters, record, counters, fun service => ?_, contexts⟩
  obtain ⟨empty, unknown, count⟩ := withdrawn service
  rw [unit] at count
  exact ⟨empty, unknown, by rw [count, cut]⟩

end Departure

/-! ## Line down -/

/-- A line-down report counted on its pair (R19). -/
def lineDownCounted (n : PairCounters) : PairCounters := { n with lineDown := n.lineDown + 1 }

/-- A source that an event raises as its last act has been raised once (R197). -/
theorem settle_raises {src : Source} {s u : State} (a : NoticeArg) (before : Unraised src s u)
    (reset : u.agent.reset = none) (plain : src ≠ .queueDrop) : RaisedOnce src a s (settle (raiseNotice src a u)) :=
  raisedOnce_before (raisedOnce_after before (raiseNotice_raisedOnce src a u))
    ((settle_ensues (s := raiseNotice src a u) reset).unraised src plain)

theorem silent_actsOn (p : PairNo) (s : State) : ActsOn p s s.silent := { ActsOn.refl p s with }

theorem cutUnit_steady (u : PairUnit) : (cutUnit false u).steady = u.steady := by
  unfold cutUnit
  split <;> rfl

theorem cutHandover_onlyPair (b : Bool) (p : PairNo) (s : State) : OnlyPair p s (cutHandover b p s) := by
  unfold cutHandover
  split
  · exact onlyPair_refl p s
  · exact onlyPair_trans (modPair_onlyPair p _ s) (emit_onlyPair p _ _)

section LineDown

variable {p : PairNo} {s : State}

theorem exec_lineDown (taking : s.taking) : exec (.lineDown p) s = .next (lineDown p s.silent) :=
  takeCommand_taking (lineDown p) taking

theorem lineDown_serving (serving : (s.pair p).state = .serving) : lineDown p s =
    settle (raiseForPair .pairDown p (moveTo p .down (countPair p lineDownCounted s))) := by
  simp only [lineDown, serving]
  rfl

theorem lineDown_departs (unserving : (s.pair p).state = .waking ∨ (s.pair p).state = .standby ∨
    (s.pair p).state = .joining ∨ (s.pair p).state = .halted) :
    lineDown p s = settle (moveTo p .down (countPair p lineDownCounted s)) := by
  rcases unserving with e | e | e | e <;> simp only [lineDown, e] <;> rfl

theorem lineDown_barred (barred : (s.pair p).state = .barred) : lineDown p s =
    modPair p (fun u => { u with line := false }) (cutHandover false p (countPair p lineDownCounted s)) := by
  simp only [lineDown, barred]
  rfl

theorem lineDown_down (down : (s.pair p).state = .down) : lineDown p s = countPair p lineDownCounted s := by
  simp only [lineDown, down]
  rfl

theorem lineDown_asleep (asleep : (s.pair p).state = .absent ∨ (s.pair p).state = .quiet) : lineDown p s = s := by
  rcases asleep with e | e <;> simp only [lineDown, e]

theorem countedDown_actsOn (p : PairNo) (f : PairCounters → PairCounters) (s : State) :
    ActsOn p s (moveTo p .down (countPair p f s)) :=
  ActsOn.trans (t := countPair p f s) (modPair_actsOn rfl) (moveTo_actsOn p .down _)

theorem countedDown_unraised {src : Source} (other : src ≠ .gapLoss) (p : PairNo) (f : PairCounters → PairCounters)
    (s : State) : Unraised src s (moveTo p .down (countPair p f s)) :=
  moveTo_unraised other p .down (countPair p f s)

/-- What a pair's way to DOWN leaves once the other blocks have followed it, read where its expiry or report was
counted (R9, R11, R181). -/
theorem settled_down {f : PairCounters → PairCounters} {u : State} (reset : s.agent.reset = none)
    (cut : (f (s.pair p).n).cutOff = (s.pair p).n.cutOff) (acts : ActsOn p s u) (engine : u.engine = s.engine)
    (departure : Departure p .down (countPair p f s) u) (down : (u.pair p).WentDown) :
    Beside p s (settle u) ∧ EngineLeft s (settle u) ∧ ((settle u).pair p).Entered s.now s.cfg .down ∧
      (settle u).pair p = u.pair p ∧ ((settle u).pair p).WentDown ∧ (s.pair p).RecordKept ((settle u).pair p) ∧
      (∃ x y : Count, ((settle u).pair p).n = { f (s.pair p).n with cutOff := x, movedDiscard := y }) ∧
      (InService (s.pair p) → Withdrawn p s (settle u)) ∧ (¬ InService (s.pair p) → ContextsLeft s (settle u)) := by
  have still := acts.reset reset
  have follows := settle_follows still
  have ensues := settle_ensues still
  have unit : (settle u).pair p = u.pair p := (ensues.pairs p).still (.inl departure.state)
  obtain ⟨enters, record, counters, withdrawn, contexts⟩ :=
    (departure.after follows ensues (by decide) (by decide)).counted cut
  have left := follows.engine
  rw [EngineLeft, engine] at left
  exact ⟨acts.beside follows reset, left, enters, unit, by rw [unit]; exact down, record, counters, withdrawn, contexts⟩

end LineDown

/-- Settles O32: by the pair's state, with the departure of `lineDown_departure`. -/
theorem lineDownTaken : Obligations.LineDownTaken := by
  intro p s opened
  have ran := exec_lineDown (p := p) opened.1
  refine ⟨fun state => ?_, fun barred => ?_, fun down => ?_, fun asleep => ?_⟩
  · have moved := moveTo_departure (p := p) (st := .down) (countPair p lineDownCounted s.silent) (by decide) (by decide)
    have acts := countedDown_actsOn p lineDownCounted s.silent
    have engine := moveTo_engine p .down (countPair p lineDownCounted s.silent)
    have wentDown := moveTo_wentDown p (countPair p lineDownCounted s.silent)
    have unraised := countedDown_unraised (src := .pairDown) (by decide) p lineDownCounted s.silent
    by_cases serving : (s.pair p).state = .serving
    · rw [lineDown_serving (s := s.silent) serving] at ran
      obtain ⟨beside, left, enters, -, down, record, ⟨x, y, counters⟩, withdrawn, -⟩ :=
        settled_down (s := s.silent) (f := lineDownCounted)
          (u := raiseForPair .pairDown p (moveTo p .down (countPair p lineDownCounted s.silent))) opened.2 rfl
          (acts.trans (raiseNotice_actsOn p _ _ _)) engine (moved.through rfl rfl fun _ => rfl) wentDown
      refine ⟨_, ran, beside, left, enters, down, record, by rw [counters]; rfl, ?_, ?_⟩
      · rw [if_pos serving]
        exact settle_raises (s := s.silent) _ unraised (acts.reset opened.2) (by decide)
      · rw [if_pos (.inl serving)]
        exact withdrawn (.inl serving)
    · rw [lineDown_departs (s := s.silent) (state.resolve_left serving)] at ran
      obtain ⟨beside, left, enters, -, down, record, ⟨x, y, counters⟩, withdrawn, contexts⟩ :=
        settled_down (s := s.silent) (f := lineDownCounted) opened.2 rfl acts engine moved wentDown
      refine ⟨_, ran, beside, left, enters, down, record, by rw [counters]; rfl, ?_, ?_⟩
      · rw [if_neg serving]
        exact unraised_trans (s := s.silent) unraised
          ((settle_ensues (acts.reset opened.2)).unraised .pairDown (by decide))
      · split
        · next service => exact withdrawn service
        · next idle => exact contexts idle
  · rw [lineDown_barred (s := s.silent) barred] at ran
    have cut := cutUnit_steady ((countPair p lineDownCounted s.silent).pair p)
    refine ⟨_, ran, ?_, ?_, ?_⟩
    · exact onlyPair_trans (onlyPair_trans (modPair_onlyPair p _ s.silent) (cutHandover_onlyPair false p _))
        (modPair_onlyPair p _ _)
    · rw [modPair_pair_same, cutHandover_pair, if_pos rfl]
      exact cutUnit_handover false _
    · rw [modPair_pair_same, cutHandover_pair, if_pos rfl]
      calc PairUnit.steady { cutUnit false ((countPair p lineDownCounted s.silent).pair p) with line := false }
          = { (cutUnit false ((countPair p lineDownCounted s.silent).pair p)).steady with line := false } := rfl
        _ = _ := by rw [cut, countPair, modPair_pair_same]; rfl
  · rw [ran, lineDown_down (s := s.silent) down]
    rfl
  · rw [ran, lineDown_asleep (s := s.silent) asleep]

end Sys2Proof.Proofs
end

