-- ==== Sys2Proof/Proofs/Supervision.lean ====
section
/-! PROOF. The supervision timer in its three meanings (R10): the failure of supervision (R11), the probe and the wake
timeout, with the other wakes of a QUIET pair (R178, R179, R181, R182). -/

namespace Sys2Proof.Proofs
open Sys2Proof Sys2Proof.Machine Sys2Proof.Laws

/-! ## Departures told to the transceiver -/

section Told

variable {p : PairNo} {s : State}

theorem tell_pair_same (p : PairNo) (c : Control) (s : State) :
    (Machine.tell p c s).pair p = { s.pair p with control := c } :=
  modPair_pair_same s p fun u => { u with control := c }

theorem tell_actsOn (p : PairNo) (c : Control) (s : State) : ActsOn p s (Machine.tell p c s) :=
  (modPair_actsOn (by rfl)).trans (emit_actsOn p _ _)

theorem Departure.told {st : PairState} {t : State} (h : Departure p st s t) (c : Control) :
    Departure p st s (Machine.tell p c t) := by
  have unit := tell_pair_same p c t
  refine h.through ?_ ?_ fun _ => rfl <;> rw [unit]
  rfl

theorem reach_actsOn (p : PairNo) (tm : Timer) (s : State) : ActsOn p s (reach tm s) := { ActsOn.refl p s with }

end Told

/-! ## The heard timer -/

/-- A failure of supervision counted on its pair (R19). -/
def supervisionCounted (n : PairCounters) : PairCounters := { n with supervisionExpiry := n.supervisionExpiry + 1 }

/-- The failure of supervision before the other blocks follow it (R11). -/
def supervisionFailed (p : PairNo) (s : State) : State :=
  raiseForPair .pairDown p (Machine.tell p .retrain (moveTo p .down (countPair p supervisionCounted s)))

theorem supervisionExpiry_eq (p : PairNo) (s : State) :
    supervisionExpiry p s = settle (supervisionFailed p s) := rfl

theorem supervisionFailed_actsOn (p : PairNo) (s : State) : ActsOn p s (supervisionFailed p s) :=
  ((countedDown_actsOn p supervisionCounted s).trans (tell_actsOn p .retrain _)).trans (raiseNotice_actsOn p _ _ _)

theorem supervisionFailed_departure (p : PairNo) (s : State) :
    Departure p .down (countPair p supervisionCounted s) (supervisionFailed p s) :=
  ((moveTo_departure _ (by decide) (by decide)).told .retrain).through rfl rfl fun _ => rfl

theorem supervisionFailed_unit (p : PairNo) (s : State) : (supervisionFailed p s).pair p =
    { (moveTo p .down (countPair p supervisionCounted s)).pair p with control := .retrain } := tell_pair_same p .retrain _

theorem supervisionFailed_engine (p : PairNo) (s : State) :
    (supervisionFailed p s).engine = s.engine ∧ (supervisionFailed p s).now = s.now :=
  ⟨moveTo_engine p .down (countPair p supervisionCounted s), moveTo_now p .down (countPair p supervisionCounted s)⟩

theorem supervisionFailed_raises {p : PairNo} {s : State} (reset : s.agent.reset = none) :
    RaisedOnce .pairDown (valueArg p.val) s (settle (supervisionFailed p s)) :=
  settle_raises (u := Machine.tell p .retrain (moveTo p .down (countPair p supervisionCounted s))) _
    (countedDown_unraised (by decide) p supervisionCounted s)
    ((countedDown_actsOn p supervisionCounted s).reset reset) (by decide)

/-- The failure of supervision with what follows it (R11). -/
theorem supervisionExpiry_fails {p : PairNo} {s : State} (reset : s.agent.reset = none)
    (serving : (s.pair p).state = .serving) :
    Beside p s (settle (supervisionFailed p s)) ∧ EngineLeft s (settle (supervisionFailed p s)) ∧
      (settle (supervisionFailed p s)).now = s.now ∧ Withdrawn p s (settle (supervisionFailed p s)) ∧
      ((settle (supervisionFailed p s)).pair p).Entered s.now s.cfg .down ∧
      ((settle (supervisionFailed p s)).pair p).WentDown ∧
      ((settle (supervisionFailed p s)).pair p).control = .retrain ∧
      (s.pair p).RecordKept ((settle (supervisionFailed p s)).pair p) ∧
      ((settle (supervisionFailed p s)).pair p).n.supervisionExpiry = (s.pair p).n.supervisionExpiry + 1 := by
  have acts := supervisionFailed_actsOn p s
  have unit := supervisionFailed_unit p s
  have wentDown := moveTo_wentDown p (countPair p supervisionCounted s)
  obtain ⟨beside, left, enters, same, down, record, ⟨x, y, counters⟩, withdrawn, -⟩ :=
    settled_down (f := supervisionCounted) reset rfl acts (supervisionFailed_engine p s).1
      (supervisionFailed_departure p s) (by rw [unit]; exact wentDown)
  refine ⟨beside, left, (settle_ensues (acts.reset reset)).now.trans (supervisionFailed_engine p s).2, withdrawn (.inl serving),
    enters, down, ?_, record, by rw [counters]; rfl⟩
  rw [same, unit]

/-- Settles O33: the departure to DOWN with what follows it. -/
theorem supervisionFails : Obligations.SupervisionFails := by
  intro p tm s opened serving running
  have expired : (s.silent.pair p).supervisionAs .heard = some tm := by
    have same : s.silent.pair p = s.pair p := rfl
    simp [PairUnit.supervisionAs, same, running]
  have ran : exec (.supervisionExpiry p) s = .next (settle (supervisionFailed p (reach tm s.silent))) :=
    expire_running (timer := fun s => (s.pair p).supervisionAs .heard) opened.1 expired
  obtain ⟨beside, left, now, withdrawn, enters, down, told, record, counted⟩ :=
    supervisionExpiry_fails (p := p) (s := reach tm s.silent) opened.2 serving
  have raised := supervisionFailed_raises (p := p) (s := reach tm s.silent) opened.2
  generalize settle (supervisionFailed p (reach tm s.silent)) = t at *
  exact ⟨t, ran, now, now ▸ enters, down, told, record, counted, raised, withdrawn, beside, left⟩

end Sys2Proof.Proofs
end

