-- ==== Sys2Proof/Proofs/PairEvents.lean ====
section
/-! SUPPORT. An event on one pair with what follows it: departures, wakes and runs that begin, and the pair commands that
the agent accepts (R20, R151, R179). -/

namespace Sys2Proof.Proofs
open Sys2Proof Sys2Proof.Machine Sys2Proof.Laws

/-! ## What follows, in one -/

/-- The other blocks have followed an event (R94). -/
structure Followed (s t : State) : Prop where
  follows : Follows s t
  ensues : Ensues s t

theorem settle_followed {s : State} (reset : s.agent.reset = none) : Followed s (settle s) :=
  ⟨settle_follows reset, settle_ensues reset⟩

theorem finish_followed {s : State} (reset : s.agent.reset = none) : Followed s (finish s) :=
  ⟨finish_follows reset, finish_ensues reset⟩

section Followed

variable {p : PairNo} {s t u : State}

theorem Followed.engineLeft (k : Followed t u) (engine : t.engine = s.engine) : EngineLeft s u := by
  have left := k.follows.engine
  rwa [EngineLeft, engine] at left

theorem Followed.unraised {src : Source} (k : Followed t u) (h : Unraised src s t) (plain : src ≠ .queueDrop) :
    Unraised src s u := unraised_trans h (k.ensues.unraised src plain)

theorem Followed.raised {src : Source} {a : NoticeArg} (k : Followed t u) (h : RaisedOnce src a s t)
    (plain : src ≠ .queueDrop) : RaisedOnce src a s u := raisedOnce_before h (k.ensues.unraised src plain)

theorem Followed.steady (k : Followed t u) (awake : (t.pair p).state ≠ .quiet) :
    (u.pair p).steady = (t.pair p).steady := (k.ensues.pairs p).steady awake

theorem Followed.sends {c : Ctl} (k : Followed t u) (awake : (t.pair p).state ≠ .quiet) (sent : (t.pair p).sends c) :
    (u.pair p).sends c := (k.ensues.pairs p).sends awake sent

theorem Departure.followed {st : PairState} (h : Departure p st s t) (k : Followed t u) (out : st ≠ .serving)
    (awake : st ≠ .quiet) : Departure p st s u := h.after k.follows k.ensues out awake

end Followed

/-! ## A pair that leaves its state, as an event -/

section Left

variable {p : PairNo} {st : PairState} {s t u : State}

/-- Pair `p` has left its state for `st`, and no more has happened than `Beside` and `EngineLeft` allow. -/
structure Left (p : PairNo) (st : PairState) (s t : State) : Prop where
  acts : ActsOn p s t
  departure : Departure p st s t
  engine : t.engine = s.engine
  now : t.now = s.now
  cfg : t.cfg = s.cfg

theorem moveTo_left (s : State) (out : st ≠ .serving) (present : st ≠ .absent) : Left p st s (moveTo p st s) :=
  ⟨moveTo_actsOn p st s, moveTo_departure s out present, moveTo_engine p st s, moveTo_now p st s, moveTo_cfg p st s⟩

/-- A change of the pair's unit that a departure does not speak of. -/
theorem Left.modPair (h : Left p st s t) {f : PairUnit → PairUnit} (same : core (f (t.pair p)) = core (t.pair p))
    (queue : (f (t.pair p)).queue = (t.pair p).queue) : Left p st s (Machine.modPair p f t) where
  acts := by
    have cfg := congrArg PairUnit.cfg same
    exact h.acts.trans (modPair_actsOn cfg)
  departure := h.departure.through (by rw [modPair_pair_same, same]) (by rw [modPair_pair_same, queue]) fun _ => rfl
  engine := h.engine
  now := h.now
  cfg := h.cfg

theorem Left.raiseCtl (h : Left p st s t) (k : Ctl) : Left p st s (Machine.raiseCtl k p t) :=
  h.modPair (core_of_steady (raise_steady k _)) (raise_queue k _)

theorem Left.raiseNotice (h : Left p st s t) (src : Source) (a : NoticeArg) :
    Left p st s (Machine.raiseNotice src a t) where
  acts := h.acts.trans (raiseNotice_actsOn p src a t)
  departure := h.departure.through rfl rfl fun _ => rfl
  engine := h.engine
  now := h.now
  cfg := h.cfg

theorem Left.emit (h : Left p st s t) (o : Output) : Left p st s (Machine.emit o t) where
  acts := h.acts.trans (emit_actsOn p o t)
  departure := h.departure.through rfl rfl fun _ => rfl
  engine := h.engine
  now := h.now
  cfg := h.cfg

theorem Left.told (h : Left p st s t) (c : Control) : Left p st s (Machine.tell p c t) :=
  (h.modPair (f := fun u => { u with control := c }) rfl rfl).emit _

/-- The pair leaves its state after a step that a departure does not speak of. -/
theorem Left.of_start {r : State} (h : Left p st s t) (acts : ActsOn p r s) (same : core (s.pair p) = core (r.pair p))
    (handover : (s.pair p).handover = (r.pair p).handover) (engine : s.engine = r.engine) (now : s.now = r.now)
    (cfg : s.cfg = r.cfg) (contexts : ContextsLeft r s) : Left p st r t where
  acts := acts.trans h.acts
  departure := h.departure.of_start same handover now cfg contexts
  engine := h.engine.trans engine
  now := h.now.trans now
  cfg := h.cfg.trans cfg

theorem Left.of_tell {c : Control} (h : Left p st (Machine.tell p c s) t) : Left p st s t := by
  have unit := tell_pair_same p c s
  refine h.of_start (tell_actsOn p c s) ?_ ?_ rfl rfl rfl fun _ => rfl <;> rw [unit]
  rfl

/-- What a departure leaves once the other blocks have followed it. -/
theorem Left.followed (h : Left p st s t) (k : Followed t u) (reset : s.agent.reset = none) (out : st ≠ .serving)
    (awake : st ≠ .quiet) : Beside p s u ∧ EngineLeft s u ∧ Departure p st s u :=
  ⟨h.acts.beside k.follows reset, k.engineLeft h.engine, h.departure.followed k out awake⟩

theorem Left.reset (h : Left p st s t) (reset : s.agent.reset = none) : t.agent.reset = none := h.acts.reset reset

theorem Left.state (h : Left p st s t) : (t.pair p).state = st := h.departure.state

theorem Departure.withdrawnOr (h : Departure p st s t) :
    if (s.pair p).state = .serving ∨ (s.pair p).state = .waking then Withdrawn p s t else ContextsLeft s t := by
  split
  · next service => exact h.withdrawn service
  · next idle => exact h.contexts idle

theorem Departure.kept_rate (h : Departure p st s t) (up : ¬ (st = .absent ∨ st = .down)) :
    (t.pair p).rate = (s.pair p).rate := h.rate.trans (if_neg up)

/-- Entering JOINING raises JOIN (R31). -/
theorem moveTo_joining_sends (p : PairNo) (s : State) : ((moveTo p .joining s).pair p).sends .join := by
  refine .inl ?_
  rw [moveTo_ctl s (by decide)]
  exact mem_addCtl.2 (.inl rfl)

end Left

/-! ## A run begins -/

section Run

variable {p : PairNo} {s t u : State}

/-- The run that the engine takes on a pair (R151, R155). -/
def newRun (p : PairNo) (s : State) : Run :=
  { pair := p, running := false, step := 0, outstanding := false, started := none
    answerTimer := some ⟨s.now, ms (4 * s.cfg.stepTimeout)⟩, stepTimer := none }

theorem startRun_eq (p : PairNo) (s : State) : startRun p s = Machine.raiseCtl .proveRequest p
    { modRecord p ProvingRecord.started (moveTo p .proving s) with engine := some (newRun p s) } := by
  have now := moveTo_now p .proving s
  have cfg := moveTo_cfg p .proving s
  unfold startRun newRun
  simp only [modRecord, modPair_now, modPair_cfg, now, cfg]

theorem startRun_engine (p : PairNo) (s : State) : (startRun p s).engine = some (newRun p s) := by
  rw [startRun_eq]
  rfl

/-- The unit of a pair whose run begins. -/
theorem startRun_unit (p : PairNo) (s : State) : (startRun p s).pair p = PairUnit.raise .proveRequest
    { (moveTo p .proving s).pair p with record := ((moveTo p .proving s).pair p).record.started } := by
  rw [startRun_eq, Machine.raiseCtl, modPair_pair_same]
  exact congrArg (PairUnit.raise .proveRequest) (modPair_pair_same (moveTo p .proving s) p
    fun u => { u with record := u.record.started })

/-- The state that a run begins in leaves the engine to it: what else it does is a departure to PROVING. -/
theorem startRun_acts (p : PairNo) (s : State) : ActsOn p s (startRun p s) := by
  rw [startRun_eq]
  exact (((moveTo_actsOn p .proving s).trans (modRecord_actsOn p _ _)).trans (engine_actsOn p _ _)).trans
    (raiseCtl_actsOn _ p _)

theorem startRun_departure (p : PairNo) (s : State) : Departure p .proving s (startRun p s) := by
  refine (moveTo_departure s (by decide) (by decide)).through ?_ ?_ fun c => ?_
  · rw [startRun_unit, core_of_steady (raise_steady _ _)]
    rfl
  · rw [startRun_unit, raise_queue]
  · rw [startRun_eq]
    rfl

theorem startRun_now (p : PairNo) (s : State) : (startRun p s).now = s.now := by
  rw [startRun_eq]
  exact moveTo_now p .proving s

theorem startRun_unraised {src : Source} (other : src ≠ .gapLoss) (p : PairNo) (s : State) :
    Unraised src s (startRun p s) := by
  refine unraised_trans (moveTo_unraised other p .proving s) (unraised_of_source ?_)
  rw [startRun_eq]
  rfl

/-- The proving record of a pair whose run begins (R153). -/
theorem startRun_record (p : PairNo) (s : State) :
    ((startRun p s).pair p).record = (s.pair p).record.started := by
  have record : ((startRun p s).pair p).record = ((moveTo p .proving s).pair p).record.started := by
    rw [startRun_unit]
    unfold PairUnit.raise
    split <;> rfl
  rw [record, moveTo_provingRecord s (by decide)]
  rfl

theorem startRun_sends (p : PairNo) (s : State) : ((startRun p s).pair p).sends .proveRequest := by
  have state : ((moveTo p .proving s).pair p).state = .proving := (moveTo_enters p .proving s).1
  rw [startRun_unit]
  refine raise_sends ?_
  dsimp only
  rw [state]
  rfl

theorem startRun_started (p : PairNo) (s : State) : RunStarted p s (startRun p s) := by
  have now := startRun_now p s
  refine ⟨?_, ?_⟩
  · rw [startRun_engine, now]
    rfl
  · rw [startRun_record]
    exact ⟨rfl, rfl, rfl, rfl, rfl, rfl, rfl, rfl, rfl, rfl, rfl, startRun_sends p s⟩

/-- A run that has begun is as it began once the other blocks have followed it: no pattern waits yet (R158). -/
theorem runStarted_followed (h : RunStarted p s t) (k : Followed t u) (proving : (t.pair p).state = .proving) :
    RunStarted p s u := by
  obtain ⟨engine, status, abort, decline, done, failures, first, least, most, result, verdict, received, sent⟩ := h
  have awake : (t.pair p).state ≠ .quiet := by rw [proving]; decide
  have record := congrArg PairUnit.record (k.steady awake)
  simp only [PairUnit.steady, ProvingRecord.mk.injEq] at record
  obtain ⟨r1, r2, r3, r4, r5, r6, r7, r8, r9, r10, r11, -⟩ := record
  have idle := k.ensues.engine (by rw [engine]; rfl)
  refine ⟨by rw [idle, engine, k.ensues.now], ?_⟩
  simp_all [k.sends awake sent]

/-- A run has begun on pair `p`, and no more has happened than `Beside` allows. -/
structure Begun (p : PairNo) (s t : State) : Prop where
  acts : ActsOn p s t
  departure : Departure p .proving s t
  started : RunStarted p s t

theorem startRun_begun (p : PairNo) (s : State) : Begun p s (startRun p s) :=
  ⟨startRun_acts p s, startRun_departure p s, startRun_started p s⟩

theorem Begun.followed (h : Begun p s t) (k : Followed t u) (reset : s.agent.reset = none) :
    Beside p s u ∧ Departure p .proving s u ∧ RunStarted p s u :=
  ⟨h.acts.beside k.follows reset, h.departure.followed k (by decide) (by decide),
    runStarted_followed h.started k h.departure.state⟩

end Run

end Sys2Proof.Proofs
end

