-- ==== Sys2Proof/Proofs/PairCommandsServed.lean ====
section
/-! PROOF. The pair commands ADMIT, WITHDRAW, BAR and PROVE and their refusals (R20-R22, R151 c, R166 c). -/

namespace Sys2Proof.Proofs
open Sys2Proof Sys2Proof.Machine Sys2Proof.Laws

section Command

variable {c : Instr} {q : ReqHead} {o : Octet} {a : PairAction} {p : PairNo} {s : State}

/-- A pair command for a pair without a run is served by its action, or refused BUSY (R20). -/
theorem servePairCommand_free (named : pairIndex o = some p) (free : s.runOn p = false) :
    servePairCommand o (some a) s = if actionAccepted a (s.pair p).state s.engine.isNone = true then
      ⟨.ok, .empty, applyAction a p s⟩ else refuse .busy s := by
  simp [servePairCommand, named, free]

/-- An accepted pair command has its action's effect, which the reply and the other blocks follow (R20 e, R186). -/
theorem pairCommand_accepted (h : s.open) (request : requestOf c = some (q, .pairCommand o (some a)))
    (admits : Admits q (.pairCommand o (some a)) s) (named : pairIndex o = some p) (free : s.runOn p = false)
    (accepted : actionAccepted a (s.pair p).state s.engine.isNone = true)
    (reset : (applyAction a p (counted s)).agent.reset = none) (cfg : (applyAction a p (counted s)).cfg = s.cfg) :
    ∃ (r : Reply) (t : State), exec c s = .next t ∧ Answers q 5 .ok .empty s.cfg.stationAddress t ∧
      Followed (emit (.reply r) (applyAction a p (counted s))) t := by
  have served : serveBody (.pairCommand o (some a)) (counted s) = ⟨.ok, .empty, applyAction a p (counted s)⟩ :=
    (servePairCommand_free (s := counted s) named free).trans (if_pos accepted)
  obtain ⟨t, ran, answered, ensues⟩ := exec_served h request admits (by simp) served reset
  refine ⟨_, t, ran, ?_, { answered.follows with }, ensues⟩
  have reply := answered.reply
  rw [replyTo, cfg] at reply
  exact reply

/-- A pair command that is refused BUSY leaves its reply alone (R20 c, R166 c). -/
theorem pairCommand_busy (h : s.open) (request : requestOf c = some (q, .pairCommand o (some a)))
    (admits : Admits q (.pairCommand o (some a)) s) (named : pairIndex o = some p)
    (busy : (s.runOn p = true ∧ a = .prove) ∨
      (s.runOn p = false ∧ actionAccepted a (s.pair p).state s.engine.isNone = false)) :
    ∃ t, exec c s = .next t ∧ Answers q 5 .busy .empty s.cfg.stationAddress t ∧ OnlyReply q s t := by
  have served : serveBody (.pairCommand o (some a)) (counted s) = refuse .busy (counted s) := by
    rcases busy with ⟨run, rfl⟩ | ⟨free, refused⟩
    · have same : (counted s).runOn p = true := run
      simp [serveBody, servePairCommand, named, same]
    · exact (servePairCommand_free (s := counted s) named free).trans (if_neg (by
        have same : actionAccepted a ((counted s).pair p).state (counted s).engine.isNone = false := refused
        rw [same]
        decide))
  obtain ⟨t, ran, answered⟩ := exec_answered h request admits (by simp) served h.2
  exact ⟨t, ran, answered.reply, answered.onlyReply rfl h.2 rfl⟩

end Command

/-! ## The actions -/

section Actions

variable {p : PairNo} {s t : State}

theorem withdrawPair_left (p : PairNo) (s : State) : Left p .standby s (withdrawPair p s) := by
  unfold withdrawPair
  split
  · exact (moveTo_left _ (by decide) (by decide)).of_tell
  · exact moveTo_left s (by decide) (by decide)

theorem steady_control {u v : PairUnit} (h : v.steady = u.steady) : v.control = u.control := by
  have control := congrArg PairUnit.control h
  exact control

theorem withdrawPair_control (p : PairNo) (s : State) : ((withdrawPair p s).pair p).control =
    if (s.pair p).state = .quiet then .wake else (s.pair p).control := by
  unfold withdrawPair
  dsimp only
  rw [moveTo_control _ (by decide)]
  split
  · rw [tell_pair_same]
  · rfl

theorem withdrawPair_unraised {src : Source} (other : src ≠ .gapLoss) (p : PairNo) (s : State) :
    Unraised src s (withdrawPair p s) := by
  unfold withdrawPair
  split
  · exact moveTo_unraised other p .standby (Machine.tell p .wake s)
  · exact moveTo_unraised other p .standby s

theorem withdrawPair_ctl (p : PairNo) (s : State) : Ctl.join ∉ ((withdrawPair p s).pair p).ctl := by
  have closed : ∀ ks : List Ctl, Ctl.join ∉ raisedAtEntry .standby (keepPermitted .standby ks) := fun ks m =>
    absurd (List.mem_filter.1 m).2 (by decide)
  unfold withdrawPair
  dsimp only
  rw [moveTo_ctl _ (by decide)]
  exact closed _

/-- The pair's way to BARRED by the BAR command, before PAIR-BARRED is raised (R22, R69 d). -/
def barMoved (p : PairNo) (s : State) : State :=
  moveTo p .barred (if (s.pair p).state = .quiet then Machine.tell p .wake s else s)

/-- The pair's way to BARRED with the initial R of one that was DOWN. -/
def barRated (p : PairNo) (s : State) : State :=
  if (s.pair p).state = .down then modPair p (fun u => { u with rate := initialRate u.trained }) (barMoved p s)
  else barMoved p s

theorem barPair_eq (unbarred : (s.pair p).state ≠ .barred) :
    barPair p s = raiseForPair .pairBarred p (barRated p s) := if_neg unbarred

theorem barMoved_left (p : PairNo) (s : State) : Left p .barred s (barMoved p s) := by
  unfold barMoved
  split
  · exact (moveTo_left _ (by decide) (by decide)).of_tell
  · exact moveTo_left s (by decide) (by decide)

theorem barMoved_unit (p : PairNo) (s : State) : ((barMoved p s).pair p).control =
    (if (s.pair p).state = .quiet then .wake else (s.pair p).control) ∧ ((barMoved p s).pair p).ctl = [] := by
  have closed : ∀ ks : List Ctl, keepPermitted .barred ks = [] := fun ks =>
    List.filter_eq_nil_iff.2 fun k _ => by cases k <;> decide
  unfold barMoved
  rw [moveTo_control _ (by decide), moveTo_ctl _ (by decide)]
  refine ⟨?_, closed _⟩
  split
  · rw [tell_pair_same]
  · rfl

theorem barMoved_unraised {src : Source} (other : src ≠ .gapLoss) (p : PairNo) (s : State) :
    Unraised src s (barMoved p s) := by
  unfold barMoved
  split
  · exact moveTo_unraised other p .barred (Machine.tell p .wake s)
  · exact moveTo_unraised other p .barred s

/-- The unit of a pair that the BAR command has barred: one barred in DOWN takes its initial R (R69 d). -/
theorem barRated_unit (p : PairNo) (s : State) : (barRated p s).pair p =
    { (barMoved p s).pair p with
      rate := if (s.pair p).state = .down then initialRate (s.pair p).trained else (s.pair p).rate } := by
  have moved := (barMoved_left p s).departure
  have trained : ((barMoved p s).pair p).trained = (s.pair p).trained := moved.record.1
  have rate := moved.kept_rate (by decide)
  unfold barRated
  split
  · rw [modPair_pair_same, ← trained]
  · rw [← rate]

theorem barRated_acts (p : PairNo) (s : State) : ActsOn p s (barRated p s) ∧ (barRated p s).engine = s.engine ∧
    (barRated p s).cfg = s.cfg := by
  have moved := barMoved_left p s
  unfold barRated
  split
  · exact ⟨moved.acts.trans (modPair_actsOn rfl), moved.engine, moved.cfg⟩
  · exact ⟨moved.acts, moved.engine, moved.cfg⟩

theorem barRated_unraised {src : Source} (other : src ≠ .gapLoss) (p : PairNo) (s : State) :
    Unraised src s (barRated p s) := by
  have moved := barMoved_unraised other p s
  unfold barRated
  split
  · exact unraised_trans moved (unraised_of_source (modPair_source ..))
  · exact moved

theorem barRated_contexts (p : PairNo) (s : State) : ContextsLeft (barMoved p s) (barRated p s) := fun c => by
  unfold barRated
  split
  · rw [modPair_cls]
  · rfl

theorem barPair_acts (p : PairNo) (s : State) : ActsOn p s (barPair p s) ∧ (barPair p s).engine = s.engine ∧
    (barPair p s).cfg = s.cfg := by
  by_cases barred : (s.pair p).state = .barred
  · have same : barPair p s = s := if_pos barred
    rw [same]
    exact ⟨.refl p s, rfl, rfl⟩
  · obtain ⟨acts, engine, cfg⟩ := barRated_acts p s
    rw [barPair_eq barred]
    exact ⟨acts.trans (raiseNotice_actsOn p _ _ _), engine, cfg⟩

/-- A pair that the BAR command has barred, with what follows (R22). -/
theorem barPair_bars {o : Output} (unbarred : (s.pair p).state ≠ .barred) (reset : s.agent.reset = none)
    (k : Followed (emit o (barPair p s)) t) : Beside p s t ∧ EngineLeft s t ∧
      (t.pair p).Entered s.now s.cfg .barred ∧ (s.pair p).RecordKept (t.pair p) ∧ (t.pair p).ctl = [] ∧
      RaisedOnce .pairBarred (valueArg p.val) s t ∧ Unraised .pairDown s t ∧
      (t.pair p).rate = (if (s.pair p).state = .down then clampTo 16 16383 ((s.pair p).trained / 8)
        else (s.pair p).rate) ∧
      (t.pair p).control = (if (s.pair p).state = .quiet then .wake else (s.pair p).control) ∧
      (if (s.pair p).state = .serving ∨ (s.pair p).state = .waking then Withdrawn p s t else ContextsLeft s t) := by
  obtain ⟨acts, engine, -⟩ := barPair_acts p s
  have raised := raisedOnce_after (barRated_unraised (src := .pairBarred) (by decide) p s)
    (raiseNotice_raisedOnce .pairBarred (valueArg p.val) (barRated p s))
  have unraised := unraised_trans (barRated_unraised (src := .pairDown) (by decide) p s)
    (raiseNotice_unraised .pairBarred .pairDown (valueArg p.val) (barRated p s) (by decide))
  obtain ⟨control, ctl⟩ := barMoved_unit p s
  have moved := (barMoved_left p s).departure
  have unit := barRated_unit p s
  have final : (emit o (barPair p s)).pair p = (barRated p s).pair p := by
    rw [emit_pair, barPair_eq unbarred, raiseForPair_pair]
  have barred : ((emit o (barPair p s)).pair p).state = .barred := by
    rw [final, unit]
    exact moved.state
  have still : t.pair p = (barRated p s).pair p := ((k.ensues.pairs p).still (.inr (.inr barred))).trans final
  have contexts : ContextsLeft (barMoved p s) t := fun c => by
    rw [k.follows.contexts c, emit_cls, barPair_eq unbarred, raiseForPair_cls, barRated_contexts p s c]
  refine ⟨(acts.trans (emit_actsOn p o _)).beside k.follows reset, k.engineLeft engine, ?_⟩
  rw [still, unit]
  rw [barPair_eq unbarred] at k
  refine ⟨moved.enters, moved.record, ctl, k.raised (t := emit o (raiseForPair .pairBarred p (barRated p s))) raised
    (by decide), k.unraised (t := emit o (raiseForPair .pairBarred p (barRated p s))) unraised (by decide), rfl, control, ?_⟩
  have withdrawn := moved.withdrawnOr
  split at withdrawn
  · next service =>
    rw [if_pos service]
    obtain ⟨empty, unknown, cut⟩ := withdrawn
    refine ⟨?_, fun c => by rw [horizon_of_context (contexts c), unknown c], ?_⟩ <;> rw [still, unit]
    · exact empty
    · exact cut
  · next idle =>
    rw [if_neg idle]
    exact fun c => (contexts c).trans (withdrawn c)

end Actions

/-! ## The commands -/

theorem clearHorizons_actsOn (p q : PairNo) (s : State) : ActsOn q s (clearHorizons p s) :=
  eachClass_collected (R := ActsOn q) ActsOn.trans (fun c s => collects_actsOn q (setHorizon_collects c p none s)) s

/-- CLEAR before the offer tests (R22). -/
def cleared (p : PairNo) (s : State) : State :=
  modPair p (fun u => { u with strikes := 0, wakeErrors := 0, noQuiet := false })
    (moveTo p (if (s.pair p).line then .standby else .down) s)

/-- RESET before the offer tests (R23). -/
def restored (p : PairNo) (s : State) : State :=
  Machine.tell p (if (s.pair p).state = .quiet then .wake else .retrain)
    (clearHorizons p (modPair p PairUnit.resetRecord (moveTo p .down s)))

theorem clearPair_eq (p : PairNo) (s : State) :
    clearPair p s = if (s.pair p).noQuiet = true then testOffers allPairs (cleared p s) else cleared p s := rfl

theorem resetPair_eq (p : PairNo) (s : State) :
    resetPair p s = if (s.pair p).noQuiet = true then testOffers allPairs (restored p s) else restored p s := rfl

theorem cleared_acts (p : PairNo) (s : State) : ActsOn p s (cleared p s) :=
  (moveTo_actsOn p _ s).trans (modPair_actsOn rfl)

theorem restored_acts (p : PairNo) (s : State) : ActsOn p s (restored p s) :=
  (((moveTo_actsOn p .down s).trans (modPair_actsOn rfl)).trans (clearHorizons_actsOn p p _)).trans (tell_actsOn p _ _)

theorem releasePair_left (p : PairNo) (s : State) : Left p .standby (raiseEnd p .released 0 s) (releasePair p s) :=
  moveTo_left _ (by decide) (by decide)

/-- An accepted action acts on its pair, and CLEAR and RESET may test the offers after it (R20 e). -/
theorem applyAction_acts (a : PairAction) (p : PairNo) (s : State) :
    ∃ u, ActsOn p s u ∧ (applyAction a p s = u ∨ applyAction a p s = testOffers allPairs u) := by
  cases a with
  | admitPair => exact ⟨_, moveTo_actsOn p .joining s, .inl rfl⟩
  | withdraw => exact ⟨_, (withdrawPair_left p s).acts, .inl rfl⟩
  | bar => exact ⟨_, (barPair_acts p s).1, .inl rfl⟩
  | prove => exact ⟨_, startRun_acts p s, .inl rfl⟩
  | release => exact ⟨_, (raiseEnd_actsOn p _ _ s).trans (releasePair_left p s).acts, .inl rfl⟩
  | wake =>
    exact ⟨_, ((enterState_actsOn p .waking s).trans (modPair_actsOn rfl)).trans (tell_actsOn p .wake _), .inl rfl⟩
  | clear =>
    refine ⟨cleared p s, cleared_acts p s, ?_⟩
    rw [applyAction, clearPair_eq]
    split
    · exact .inr rfl
    · exact .inl rfl
  | reset =>
    refine ⟨restored p s, restored_acts p s, ?_⟩
    rw [applyAction, resetPair_eq]
    split
    · exact .inr rfl
    · exact .inl rfl

theorem applyAction_kept (a : PairAction) (p : PairNo) (s : State) : SettingsKept s (applyAction a p s) ∧
    BondLeft s (applyAction a p s) ∧ (applyAction a p s).classifier = s.classifier ∧
    (s.agent.reset = none → (applyAction a p s).agent.reset = none) := by
  obtain ⟨u, acts, same | tested⟩ := applyAction_acts a p s
  · rw [same]
    exact ⟨acts.settings, acts.bond, acts.classifier, acts.reset⟩
  · have event := testOffers_pairEvent p allPairs u
    rw [tested]
    refine ⟨SettingsKept_trans acts.settings event.settings, ?_, event.classifier.trans acts.classifier, fun none => ?_⟩
    · have bond := acts.bond
      rw [BondLeft, ← event.bond] at bond
      exact bond
    · rw [event.agent]
      exact acts.reset none

theorem settingsKept_cfg {s t : State} (h : SettingsKept s t) : t.cfg = s.cfg := by
  obtain ⟨-, -, -, -, -, -, cfg, -⟩ := h
  exact cfg

section

variable {c : Instr} {q : ReqHead} {o : Octet} {a : PairAction} {p : PairNo} {s : State}

/-- An accepted pair command with its reply and what follows (R20 e). -/
theorem pairCommand_followed (h : s.open) (request : requestOf c = some (q, .pairCommand o (some a)))
    (admits : Admits q (.pairCommand o (some a)) s) (named : pairIndex o = some p) (free : s.runOn p = false)
    (accepted : actionAccepted a (s.pair p).state s.engine.isNone = true) :
    ∃ (r : Reply) (t : State), exec c s = .next t ∧ Answers q 5 .ok .empty s.cfg.stationAddress t ∧
      Followed (emit (.reply r) (applyAction a p (counted s))) t := by
  obtain ⟨settings, -, -, reset⟩ := applyAction_kept a p (counted s)
  exact pairCommand_accepted h request admits named free accepted (reset h.2) (settingsKept_cfg settings)

theorem action_kept {r : Reply} {t : State} (k : Followed (emit (.reply r) (applyAction a p (counted s))) t) :
    SettingsKept s t ∧ BondLeft s t ∧ t.classifier = s.classifier := by
  obtain ⟨settings, bond, classifier, -⟩ := applyAction_kept a p (counted s)
  exact ⟨SettingsKept_trans (s := s) settings k.follows.settings, BondLeft_trans (s := s) bond k.follows.bond,
    k.follows.classifier.trans classifier⟩

end

section

variable {p : PairNo} {o : Output} {s t : State}

/-- ADMIT of a STANDBY pair, with what follows (R21). -/
theorem admission_followed (idle : ¬ InService (s.pair p)) (reset : s.agent.reset = none)
    (k : Followed (emit o (moveTo p .joining s)) t) : Beside p s t ∧ ContextsLeft s t ∧ EngineLeft s t ∧
      (t.pair p).Entered s.now s.cfg .joining ∧ (s.pair p).RecordKept (t.pair p) ∧
      (t.pair p).rate = (s.pair p).rate ∧ (t.pair p).sends .join := by
  have moved := (moveTo_left (p := p) (st := .joining) s (by decide) (by decide)).emit o
  have awake : ((emit o (moveTo p .joining s)).pair p).state ≠ .quiet := by rw [moved.state]; decide
  obtain ⟨beside, engine, departure⟩ := moved.followed k reset (by decide) (by decide)
  exact ⟨beside, departure.contexts idle, engine, departure.enters, departure.record, departure.kept_rate (by decide),
    k.sends awake (moveTo_joining_sends p s)⟩

/-- WITHDRAW, with what follows (R21). -/
theorem withdrawal_followed (reset : s.agent.reset = none) (k : Followed (emit o (withdrawPair p s)) t) :
    Beside p s t ∧ EngineLeft s t ∧ (t.pair p).Entered s.now s.cfg .standby ∧ (s.pair p).RecordKept (t.pair p) ∧
      (t.pair p).rate = (s.pair p).rate ∧ Unraised .pairDown s t ∧ Ctl.join ∉ (t.pair p).ctl ∧
      (t.pair p).control = (if (s.pair p).state = .quiet then .wake else (s.pair p).control) ∧
      (if (s.pair p).state = .serving ∨ (s.pair p).state = .waking then Withdrawn p s t else ContextsLeft s t) := by
  have moved := (withdrawPair_left p s).emit o
  have awake : ((emit o (withdrawPair p s)).pair p).state ≠ .quiet := by rw [moved.state]; decide
  obtain ⟨beside, engine, departure⟩ := moved.followed k reset (by decide) (by decide)
  have unraised : Unraised .pairDown s (emit o (withdrawPair p s)) := withdrawPair_unraised (by decide) p s
  have control : (t.pair p).control = ((withdrawPair p s).pair p).control := steady_control (k.steady awake)
  exact ⟨beside, engine, departure.enters, departure.record, departure.kept_rate (by decide),
    k.unraised unraised (by decide), fun m => withdrawPair_ctl p s ((k.ensues.pairs p).ctl awake _ m),
    control.trans (withdrawPair_control p s), departure.withdrawnOr⟩

/-- PROVE, with what follows (R151 c). -/
theorem proving_followed (reset : s.agent.reset = none) (k : Followed (emit o (startRun p s)) t)
    (awake : (s.pair p).state ≠ .waking) : Beside p s t ∧ (t.pair p).Entered s.now s.cfg .proving ∧ RunStarted p s t ∧
      (s.pair p).RecordKept (t.pair p) ∧ (t.pair p).rate = (s.pair p).rate ∧ Unraised .pairDown s t ∧
      (if (s.pair p).state = .serving then Withdrawn p s t else ContextsLeft s t) := by
  have begun := startRun_begun p s
  have emitted : Begun p s (emit o (startRun p s)) :=
    ⟨begun.acts.trans (emit_actsOn p _ _), begun.departure.through rfl rfl fun _ => rfl, begun.started⟩
  have unraised : Unraised .pairDown s (emit o (startRun p s)) := startRun_unraised (by decide) p s
  obtain ⟨beside, departure, started⟩ := emitted.followed k reset
  refine ⟨beside, departure.enters, started, departure.record, departure.kept_rate (by decide),
    k.unraised unraised (by decide), ?_⟩
  simpa [awake] using departure.withdrawnOr

end

/-- Settles O43: each refusal leaves the reply alone, and each accepted action is a departure or the start of a run. -/
theorem pairCommandsServed : Obligations.PairCommandsServed := by
  intro c q o a p s opened request admits named
  refine ⟨pairCommand_busy opened request admits named, fun free accepted => ?_⟩
  obtain ⟨r, t, ran, answers, followed⟩ := pairCommand_followed opened request admits named free accepted
  obtain ⟨settings, bond, classifier⟩ := action_kept followed
  have reset : (counted s).agent.reset = none := opened.2
  refine ⟨t, ran, answers, settings, bond, classifier, ?_, ?_, ?_, ?_, ?_⟩
  · rintro rfl
    have idle : ¬ InService (s.pair p) := by simp_all [actionAccepted, InService]
    exact admission_followed (s := counted s) idle reset followed
  · rintro rfl
    exact withdrawal_followed (s := counted s) reset followed
  · rintro rfl barred
    have same : applyAction .bar p (counted s) = counted s := if_pos barred
    rw [same] at followed
    exact ⟨followed.follows.pairs, followed.follows.contexts, followed.follows.engine,
      followed.ensues.unraised .pairBarred (by decide), followed.ensues.unraised .pairDown (by decide)⟩
  · rintro rfl unbarred
    exact barPair_bars (s := counted s) unbarred reset followed
  · rintro rfl
    have awake : (s.pair p).state ≠ .waking := by
      intro waking
      simp [actionAccepted, waking] at accepted
    exact proving_followed (s := counted s) reset followed awake

end Sys2Proof.Proofs
end

