-- ==== Sys2Proof/Proofs/Wakes.lean ====
section
/-! PROOF. A QUIET pair that wakes, and a wake that times out (R178, R179, R181, R182). -/

namespace Sys2Proof.Proofs
open Sys2Proof Sys2Proof.Machine Sys2Proof.Laws

section Waking

variable {p : PairNo} {cause : WakeCause} {s t : State}

/-- A QUIET pair leaves its state by its entry alone: it has no handover to cut off (R12, R177). -/
theorem moveTo_of_quiet (quiet : (s.pair p).state = .quiet) : moveTo p .waking s = enterState p .waking s := by
  have same : departed p .waking s = s := by simp [departed, quiet]
  rw [moveTo_eq, same]

/-- The wake cause and the wake start of a pair that wakes (R179). -/
def wakeMarked (now : Nat) (cause : WakeCause) (u : PairUnit) : PairUnit := { u with wakeCause := some cause, wakeStart := now }

theorem enterWaking_told (quiet : (s.pair p).state = .quiet) (plain : cause ≠ .line) : enterWaking p cause s =
    Machine.tell p .wake (modPair p (wakeMarked s.now cause) (moveTo p .waking s)) := by
  rw [moveTo_of_quiet quiet]
  exact if_neg plain

theorem enterWaking_line (quiet : (s.pair p).state = .quiet) : enterWaking p .line s =
    Machine.raiseCtl .alive p (modPair p (wakeMarked s.now .line) (moveTo p .waking s)) := by
  rw [moveTo_of_quiet quiet]
  rfl

theorem wakeMarked_left (s : State) (cause : WakeCause) :
    Left p .waking s (modPair p (wakeMarked s.now cause) (moveTo p .waking s)) :=
  (moveTo_left s (by decide) (by decide)).modPair rfl rfl

theorem steady_wake {u v : PairUnit} (h : v.steady = u.steady) : v.wakeCause = u.wakeCause ∧ v.wakeStart = u.wakeStart := by
  have cause := congrArg PairUnit.wakeCause h
  have start := congrArg PairUnit.wakeStart h
  exact ⟨cause, start⟩

/-- What a QUIET pair's wake leaves, by probe or command, where `u` is the wake with its reply (R179). -/
theorem wake_followed {u : State} (quiet : (s.pair p).state = .quiet) (reset : s.agent.reset = none)
    (woken : u = enterWaking p cause s ∨ ∃ o, u = emit o (enterWaking p cause s)) (plain : cause ≠ .line)
    (k : Followed u t) : t.now = s.now ∧ (t.pair p).Entered s.now s.cfg .waking ∧ (t.pair p).wakeCause = some cause ∧
      (t.pair p).wakeStart = s.now ∧ (t.pair p).control = .wake ∧ (t.pair p).line = (s.pair p).line ∧
      (t.pair p).rate = (s.pair p).rate ∧ (s.pair p).RecordKept (t.pair p) ∧ Beside p s t ∧ ContextsLeft s t := by
  have idle : ¬ InService (s.pair p) := by simp [InService, quiet]
  have woke : Left p .waking s (enterWaking p cause s) := by
    rw [enterWaking_told quiet plain]
    exact (wakeMarked_left s cause).told .wake
  have unit : (enterWaking p cause s).pair p = { wakeMarked s.now cause ((moveTo p .waking s).pair p) with
      control := .wake } := by
    rw [enterWaking_told quiet plain, tell_pair_same, modPair_pair_same]
  have left : Left p .waking s u ∧ u.pair p = (enterWaking p cause s).pair p := by
    rcases woken with e | ⟨o, e⟩ <;> rw [e]
    · exact ⟨woke, rfl⟩
    · exact ⟨woke.emit o, rfl⟩
  obtain ⟨left, same⟩ := left
  have steady := k.steady (p := p) (by rw [left.state]; decide)
  rw [same, unit] at steady
  obtain ⟨causes, start⟩ := steady_wake steady
  obtain ⟨beside, -, departure⟩ := left.followed k reset (by decide) (by decide)
  exact ⟨k.ensues.now.trans left.now, departure.enters, causes, start, steady_control steady,
    departure.line.trans (if_neg (by decide)), departure.kept_rate (by decide), departure.record, beside,
    departure.contexts idle⟩

/-- The same of a wake by a line-up report, which raises ALIVE and tells the transceiver nothing (R178 d, R179). -/
theorem lineWake_followed (quiet : (s.pair p).state = .quiet) (reset : s.agent.reset = none)
    (k : Followed (enterWaking p .line s) t) : (t.pair p).wakeCause = some .line ∧ (t.pair p).wakeStart = s.now ∧
      (t.pair p).control = (s.pair p).control ∧ (t.pair p).sends .alive ∧ Beside p s t ∧ ContextsLeft s t ∧
      Departure p .waking s t := by
  have idle : ¬ InService (s.pair p) := by simp [InService, quiet]
  rw [enterWaking_line quiet] at k
  have marked := wakeMarked_left (p := p) s .line
  have left := marked.raiseCtl .alive
  have awake : ((Machine.raiseCtl .alive p (modPair p (wakeMarked s.now .line) (moveTo p .waking s))).pair p).state ≠
      .quiet := by rw [left.state]; decide
  have steady := k.steady awake
  have sent : ((Machine.raiseCtl .alive p (modPair p (wakeMarked s.now .line) (moveTo p .waking s))).pair p).sends
      .alive := by
    rw [raiseCtl, modPair_pair_same]
    exact raise_sends (by rw [marked.state]; rfl)
  rw [raiseCtl, modPair_pair_same, raise_steady, modPair_pair_same] at steady
  obtain ⟨causes, start⟩ := steady_wake steady
  obtain ⟨beside, -, departure⟩ := left.followed k reset (by decide) (by decide)
  exact ⟨causes, start, (steady_control steady).trans (moveTo_control s (by decide)), k.sends awake sent, beside,
    departure.contexts idle, departure⟩

theorem lineUp_quiet (rate : Nat) (quiet : (s.pair p).state = .quiet) :
    lineUp p rate s = settle (enterWaking p .line (modPair p (reported rate) s)) := by
  unfold lineUp
  simp only [countPair_state, quiet]
  exact congrArg (fun t => settle (enterWaking p .line t)) (lineReported_eq p rate s)

end Waking

/-! ## The wake timeout -/

section Timeout

variable {p : PairNo} {s t : State}

/-- The unit of a pair with a wake error (R182). -/
def wakeErred (limit : Nat) (u : PairUnit) : PairUnit :=
  { u with
    wakeErrors := min 15 (u.wakeErrors + 1)
    noQuiet := u.noQuiet || limit ≤ min 15 (u.wakeErrors + 1)
    n := { u.n with wakeError := u.n.wakeError + 1 } }

theorem wakeError_eq (p : PairNo) (s : State) :
    wakeError p s = raiseForPair .wakeError p (modPair p (wakeErred s.cfg.wakeErrorLimit) s) := rfl

/-- A WAKING pair whose wake timeout has expired, before the other blocks follow (R181 a, R182). -/
def wakeFailed (p : PairNo) (s : State) : State :=
  modPair p (wakeErred s.cfg.wakeErrorLimit) (Machine.tell p .retrain (moveTo p .down s))

theorem wakeTimeout_eq (p : PairNo) (s : State) : wakeTimeout p s = settle (raiseForPair .wakeError p (wakeFailed p s)) := by
  unfold wakeTimeout wakeFailed
  rw [wakeError_eq, tell_cfg, moveTo_cfg]

theorem wakeFailed_unit (p : PairNo) (s : State) : (wakeFailed p s).pair p =
    wakeErred s.cfg.wakeErrorLimit { (moveTo p .down s).pair p with control := .retrain } := by
  rw [wakeFailed, modPair_pair_same, tell_pair_same]

theorem wakeFailed_acts (p : PairNo) (s : State) : ActsOn p s (wakeFailed p s) :=
  ((moveTo_actsOn p .down s).trans (tell_actsOn p .retrain _)).trans (modPair_actsOn rfl)

theorem wakeFailed_unraised {src : Source} (other : src ≠ .gapLoss) (p : PairNo) (s : State) :
    Unraised src s (wakeFailed p s) := moveTo_unraised other p .down s

/-- The wake timeout with what follows it (R181 a, R182). -/
theorem wakeTimeout_fails (waking : (s.pair p).state = .waking) (reset : s.agent.reset = none)
    (ran : t = settle (raiseForPair .wakeError p (wakeFailed p s))) : t.now = s.now ∧
      (t.pair p).Entered s.now s.cfg .down ∧ (t.pair p).WentDown ∧ (t.pair p).control = .retrain ∧
      (t.pair p).wakeErrors = min 15 ((s.pair p).wakeErrors + 1) ∧
      ((t.pair p).noQuiet = true ↔
        (s.pair p).noQuiet = true ∨ s.cfg.wakeErrorLimit ≤ min 15 ((s.pair p).wakeErrors + 1)) ∧
      (t.pair p).n.wakeError = (s.pair p).n.wakeError + 1 ∧ (t.pair p).strikes = (s.pair p).strikes ∧
      RaisedOnce .wakeError (valueArg p.val) s t ∧ Unraised .pairDown s t ∧ Withdrawn p s t ∧ Beside p s t := by
  have acts := (wakeFailed_acts p s).trans (raiseNotice_actsOn p .wakeError (valueArg p.val) _)
  have followed := settle_followed (s := raiseForPair .wakeError p (wakeFailed p s)) (acts.reset reset)
  have moved := moveTo_departure (p := p) (st := .down) s (by decide) (by decide)
  obtain ⟨x, y, counters⟩ := moved.counters
  obtain ⟨-, -, -, -, strikes, wakeErrors, noQuiet, -⟩ := id moved.record
  obtain ⟨empty, unknown, cut⟩ := moved.withdrawn (.inr waking)
  have unit := wakeFailed_unit p s
  have down : ((raiseForPair .wakeError p (wakeFailed p s)).pair p).state = .down := by
    rw [raiseForPair_pair, unit]
    exact moved.state
  have still : t.pair p = (wakeFailed p s).pair p := by
    rw [ran]
    exact (followed.ensues.pairs p).still (.inl down)
  have now : (wakeFailed p s).now = s.now := moveTo_now p .down s
  rw [← ran] at followed
  have unraised := fun src other => wakeFailed_unraised (src := src) other p s
  refine ⟨followed.ensues.now.trans now, ?_⟩
  rw [still, unit]
  refine ⟨moved.enters, moveTo_wentDown p s, rfl, ?_, ?_, ?_, strikes, ?_, ?_, ⟨?_, fun c => ?_, ?_⟩, ?_⟩
  · simp only [wakeErred, wakeErrors]
  · simp only [wakeErred, wakeErrors, noQuiet, Bool.or_eq_true, decide_eq_true_eq]
  · simp only [wakeErred, counters]
  · exact followed.raised (raisedOnce_after (unraised _ (by decide)) (raiseNotice_raisedOnce ..)) (by decide)
  · exact followed.unraised (unraised_trans (unraised _ (by decide))
      (raiseNotice_unraised _ _ _ _ (by decide))) (by decide)
  · rw [still, unit]
    exact empty
  · rw [horizon_of_context (followed.follows.contexts c), raiseForPair_horizon, wakeFailed, modPair_horizon,
      tell_horizon, unknown c]
  · rw [still, unit]
    exact cut
  · exact acts.beside followed.follows reset

end Timeout

/-- Settles O21: the wakes by `wake_followed` and `lineWake_followed`, and the timeout by its departure to DOWN. -/
theorem wakeBeginsAndFails : Obligations.WakeBeginsAndFails := by
  intro p tm rate q o s opened
  have reset : s.silent.agent.reset = none := opened.2
  refine ⟨fun quiet => ⟨fun running => ?_, ?_, fun named free admits => ?_⟩, fun waking running => ?_⟩
  · have expired : (s.silent.pair p).supervisionAs .probe = some tm := by
      have same : s.silent.pair p = s.pair p := rfl
      simp [PairUnit.supervisionAs, same, running]
    have ran : exec (.probeTimerExpiry p) s = .next (settle (enterWaking p .probe (reach tm s.silent))) :=
      expire_running (timer := fun s => (s.pair p).supervisionAs .probe)
        (f := fun s => settle (enterWaking p .probe s)) opened.1 expired
    have acts : ActsOn p (reach tm s.silent) (enterWaking p .probe (reach tm s.silent)) := by
      rw [enterWaking_told (s := reach tm s.silent) (cause := .probe) quiet (by decide)]
      exact ((wakeMarked_left _ _).told .wake).acts
    obtain ⟨now, enters, cause, start, told, line, rate', record, beside, contexts⟩ :=
      wake_followed (s := reach tm s.silent) quiet reset (.inl rfl) (by decide) (settle_followed (acts.reset reset))
    exact ⟨_, ran, now, by rw [now]; exact enters, cause, by rw [now]; exact start, told, line, rate', record, beside,
      contexts⟩
  · have ran : exec (.lineUp p rate) s = .next (lineUp p rate s.silent) := takeCommand_taking (lineUp p rate) opened.1
    rw [lineUp_quiet (s := s.silent) rate quiet] at ran
    have unit : (modPair p (reported rate) s.silent).pair p = reported rate (s.pair p) := modPair_pair_same ..
    have still : ((modPair p (reported rate) s.silent).pair p).state = .quiet := by rw [unit]; exact quiet
    have acts : ActsOn p (modPair p (reported rate) s.silent) (enterWaking p .line (modPair p (reported rate) s.silent)) := by
      rw [enterWaking_line still]
      exact ((wakeMarked_left _ _).raiseCtl .alive).acts
    have start : ActsOn p s (modPair p (reported rate) s.silent) := (silent_actsOn p s).trans (modPair_actsOn rfl)
    obtain ⟨cause, begun, control, sent, beside, contexts, departure⟩ :=
      lineWake_followed still (start.reset opened.2) (settle_followed (acts.reset (start.reset opened.2)))
    obtain ⟨trained, -⟩ := id departure.record
    obtain ⟨x, y, counters⟩ := departure.counters
    have line := departure.line.trans (if_neg (by decide))
    have rates := departure.kept_rate (by decide)
    rw [unit] at control trained counters line rates
    exact ⟨_, ran, departure.enters, cause, begun, control, line, trained, rates, sent, by rw [counters]; rfl,
      (start.trans acts).beside (settle_follows (acts.reset (start.reset opened.2))) opened.2, contexts⟩
  · obtain ⟨r, t, ran, answers, followed⟩ := pairCommand_followed (c := .wake q o) (a := .wake) opened rfl admits named
      free (by simp [actionAccepted, quiet])
    obtain ⟨now, enters, cause, start, told, line, rate', record, beside, contexts⟩ :=
      wake_followed (s := counted s) quiet opened.2 (.inr ⟨_, rfl⟩) (cause := .command) (by decide) followed
    exact ⟨t, ran, answers, enters, cause, start, told, line, rate', record, beside, contexts⟩
  · have expired : (s.silent.pair p).supervisionAs .wakeTimeout = some tm := by
      have same : s.silent.pair p = s.pair p := rfl
      simp [PairUnit.supervisionAs, same, running]
    have ran : exec (.wakeTimeout p) s = .next (wakeTimeout p (reach tm s.silent)) :=
      expire_running (timer := fun s => (s.pair p).supervisionAs .wakeTimeout) opened.1 expired
    rw [wakeTimeout_eq] at ran
    obtain ⟨now, enters, result⟩ := wakeTimeout_fails (s := reach tm s.silent) waking reset rfl
    exact ⟨_, ran, now, by rw [now]; exact enters, result⟩

end Sys2Proof.Proofs
end

