-- ==== Sys2Proof/Proofs/ProveOrWait.lean ====
section
/-! PROOF. A pair that proves or waits for the engine (R8 a, R15 a): a line-up report in DOWN, and a damaged fragment with
the strike that takes its pair out of SERVING. -/

namespace Sys2Proof.Proofs
open Sys2Proof Sys2Proof.Machine Sys2Proof.Laws

section Waiting

variable {p : PairNo} {s t u : State}

/-- The prove-wanted flag is set on a pair unit (R7, R152). -/
def wanting (u : PairUnit) : PairUnit := { u with proveWanted := true }

/-- In STANDBY alone the entry of the state leaves the prove-wanted flag open (R7). -/
theorem Left.wanting (h : Left p .standby s t) : Left p .standby s (Machine.modPair p wanting t) := by
  obtain ⟨acts, ⟨enters, record, counters, rate, line, withdrawn, contexts⟩, engine, now, cfg⟩ := h
  have unit : (Machine.modPair p Proofs.wanting t).pair p = Proofs.wanting (t.pair p) := modPair_pair_same ..
  refine ⟨acts.trans (modPair_actsOn rfl), ⟨?_, ?_, ?_, ?_, ?_, fun service => ?_, contexts⟩, engine, now, cfg⟩
  · obtain ⟨e1, e2, e3, e4, e5, e6, e7, e8, e9, e10, -⟩ := enters
    rw [unit]
    exact ⟨e1, e2, e3, e4, e5, e6, e7, e8, e9, e10, fun k => absurd rfl k⟩
  · rw [unit]; exact record
  · rw [unit]; exact counters
  · rw [unit]; exact rate
  · rw [unit]; exact line
  · obtain ⟨empty, unknown, cut⟩ := withdrawn service
    refine ⟨?_, unknown, ?_⟩ <;> rw [unit]
    · exact empty
    · exact cut

theorem proveOrWait_free (free : s.engine = none) : proveOrWait p s = startRun p s := by
  unfold proveOrWait
  rw [free]

theorem proveOrWait_busy (busy : s.engine ≠ none) : proveOrWait p s = modPair p wanting (moveTo p .standby s) := by
  unfold proveOrWait
  split
  · next free => exact absurd free busy
  · rfl

theorem steady_wanted {u v : PairUnit} (h : v.steady = u.steady) : v.proveWanted = u.proveWanted := by
  have wanted := congrArg PairUnit.proveWanted h
  exact wanted

/-- A pair that has entered STANDBY and waits for the engine, with what follows (R8 a, R15 a). -/
theorem waiting_followed (reset : s.agent.reset = none) (pairs : ∀ x, u.pair x = (modPair p wanting t).pair x)
    (h : Left p .standby s u) (k : Followed u v) : Beside p s v ∧ EngineLeft s v ∧ Departure p .standby s v ∧
      (v.pair p).proveWanted = true := by
  obtain ⟨beside, engine, departure⟩ := h.followed k reset (by decide) (by decide)
  refine ⟨beside, engine, departure, ?_⟩
  rw [steady_wanted (k.steady (by rw [h.state]; decide)), pairs, modPair_pair_same]
  rfl

end Waiting

/-! ## Line up -/

section LineUp

variable {p : PairNo} {rate : Nat} {s t : State}

theorem lineUp_down (rate : Nat) (down : (s.pair p).state = .down) : lineUp p rate s = settle
    (if s.cfg.autoProve = true then proveOrWait p (modPair p (reported rate) s)
      else moveTo p .joining (modPair p (reported rate) s)) := by
  unfold lineUp
  simp only [countPair_state, down]
  rw [show (fun n : PairCounters => { n with lineUp := n.lineUp + 1 }) = lineUpCounted from rfl, lineReported_eq]
  rfl

/-- What a departure that a line-up report begins says of the pair (R8 a, R69 a). -/
theorem Departure.reported {st : PairState} (h : Departure p st (modPair p (reported rate) s) t)
    (up : ¬ (st = .absent ∨ st = .down ∨ st = .quiet)) : (t.pair p).line = true ∧ (t.pair p).trained = rate ∧
      (t.pair p).rate = clampTo 16 16383 (rate / 8) ∧ (t.pair p).delay = (s.pair p).delay ∧
      (t.pair p).strikes = (s.pair p).strikes ∧ (t.pair p).n.lineUp = (s.pair p).n.lineUp + 1 := by
  have unit : (modPair p (Proofs.reported rate) s).pair p = Proofs.reported rate (s.pair p) := modPair_pair_same ..
  have line := h.line.trans (if_neg up)
  have rates := h.kept_rate (fun k => up (k.imp id .inl))
  obtain ⟨trained, delay, -, -, strikes, -⟩ := h.record
  obtain ⟨x, y, counters⟩ := h.counters
  rw [unit] at line rates trained delay strikes counters
  exact ⟨line, trained, rates, delay, strikes, by rw [counters]; rfl⟩

end LineUp

/-- Settles O30: by *auto-prove* and the engine, each case a departure from the reported pair. -/
theorem lineUpFromDown : Obligations.LineUpFromDown := by
  intro p rate s opened down
  have ran : exec (.lineUp p rate) s = .next (lineUp p rate s.silent) := takeCommand_taking (lineUp p rate) opened.1
  rw [lineUp_down (s := s.silent) rate down] at ran
  have unit : (modPair p (reported rate) s.silent).pair p = reported rate (s.pair p) := modPair_pair_same ..
  have start : ActsOn p s (modPair p (reported rate) s.silent) := (silent_actsOn p s).trans (modPair_actsOn rfl)
  have reset := start.reset opened.2
  have idle : ¬ InService ((modPair p (reported rate) s.silent).pair p) := by
    rw [unit]
    simp [InService, reported, PairUnit.lineReport, down]
  have beside : ∀ {t u : State}, ActsOn p (modPair p (reported rate) s.silent) t → Followed t u → Beside p s u :=
    fun acts k => (start.trans acts).beside k.follows opened.2
  by_cases off : s.cfg.autoProve = false
  · have plain : ¬ s.silent.cfg.autoProve = true := by rw [Bool.not_eq_true]; exact off
    rw [if_neg plain] at ran
    have left := moveTo_left (p := p) (st := .joining) (modPair p (reported rate) s.silent) (by decide) (by decide)
    have k := settle_followed (left.reset reset)
    obtain ⟨-, engine, departure⟩ := left.followed k reset (by decide) (by decide)
    obtain ⟨line, trained, rates, delay, strikes, counted⟩ := departure.reported (by decide)
    have sent := k.sends (by rw [left.state]; decide) (moveTo_joining_sends p _)
    refine ⟨_, ran, beside left.acts k, departure.contexts idle, line, trained, rates, delay, strikes, counted, ?_⟩
    rw [if_pos off]
    exact ⟨departure.enters, sent, engine⟩
  · have on : s.silent.cfg.autoProve = true := by rwa [Bool.not_eq_false] at off
    rw [if_pos on] at ran
    by_cases free : s.engine = none
    · rw [proveOrWait_free (s := modPair p (reported rate) s.silent) free] at ran
      have begun := startRun_begun p (modPair p (reported rate) s.silent)
      have k := settle_followed (begun.acts.reset reset)
      obtain ⟨-, departure, started⟩ := begun.followed k reset
      obtain ⟨line, trained, rates, delay, strikes, counted⟩ := departure.reported (by decide)
      refine ⟨_, ran, beside begun.acts k, departure.contexts idle, line, trained, rates, delay, strikes, counted, ?_⟩
      rw [if_neg off, if_pos free]
      refine ⟨departure.enters, ?_⟩
      unfold RunStarted at started ⊢
      rw [unit] at started
      exact started
    · rw [proveOrWait_busy (s := modPair p (reported rate) s.silent) free] at ran
      have left := (moveTo_left (p := p) (st := .standby) (modPair p (reported rate) s.silent) (by decide)
        (by decide)).wanting
      have k := settle_followed (left.reset reset)
      obtain ⟨-, engine, departure, wanted⟩ := waiting_followed reset (fun _ => rfl) left k
      obtain ⟨line, trained, rates, delay, strikes, counted⟩ := departure.reported (by decide)
      refine ⟨_, ran, beside left.acts k, departure.contexts idle, line, trained, rates, delay, strikes, counted, ?_⟩
      rw [if_neg off, if_neg free]
      exact ⟨departure.enters, wanted, engine⟩

/-! ## Strikes -/

section Strike

variable {p : PairNo} {st : PairState} {s t x : State}

/-- A damaged fragment counted on its pair (R19). -/
def damagedCounted (n : PairCounters) : PairCounters := { n with damaged := n.damaged + 1 }

/-- The unit of a SERVING pair that takes a damaged fragment (R14). -/
def damagedUnit (u : PairUnit) : PairUnit := { u with errCount := u.errCount + 1, n := damagedCounted u.n }

/-- The unit of a pair that has a strike (R15). -/
def struckUnit (u : PairUnit) : PairUnit :=
  { u with strikes := min 15 (u.strikes + 1), n := { u.n with strike := u.n.strike + 1 } }

/-- A damaged fragment with the strike that it causes, before the pair leaves SERVING (R14, R15). -/
def struck (p : PairNo) (s : State) : State :=
  raiseForPair .strike p (modPair p struckUnit (modPair p damagedUnit s))

theorem struck_unit (p : PairNo) (s : State) : (struck p s).pair p = struckUnit (damagedUnit (s.pair p)) := by
  rw [struck, raiseForPair_pair, modPair_pair_same, modPair_pair_same]

/-- Where a pair with a strike goes (R15). -/
def strikeMoved (p : PairNo) (s : State) : State :=
  if (s.pair p).cfg.strikeLimit ≤ (s.pair p).strikes then raiseForPair .pairBarred p (moveTo p .barred s)
  else if s.cfg.autoProve then proveOrWait p s
  else moveTo p .standby s

theorem damaged_serving (serving : (s.pair p).state = .serving) : damaged p s =
    if (s.pair p).cfg.errorLimit < (s.pair p).errCount + 1 then
      settle (raiseForPair .pairDown p (strikeMoved p (struck p s)))
    else modPair p damagedUnit s := by
  have counted : modPair p (fun u => { u with errCount := u.errCount + 1 }) (countPair p damagedCounted s) =
      modPair p damagedUnit s := by rw [countPair, modPair_modPair]; rfl
  have unit : (modPair p damagedUnit s).pair p = damagedUnit (s.pair p) := modPair_pair_same ..
  unfold damaged
  simp only [serving]
  rw [show (fun n : PairCounters => { n with damaged := n.damaged + 1 }) = damagedCounted from rfl, counted, unit]
  rfl

theorem damaged_idle (unserving : (s.pair p).state ≠ .serving) (present : Receives p s)
    (idle : (s.pair p).state ≠ .proving ∨ (s.engine.any fun r => r.pair = p && r.outstanding) = false) :
    damaged p s = countPair p damagedCounted s := by
  obtain ⟨absent, down⟩ := present
  unfold damaged
  cases state : (s.pair p).state <;> simp_all <;> rfl

theorem struck_acts (p : PairNo) (s : State) : ActsOn p s (struck p s) :=
  ((modPair_actsOn rfl).trans (modPair_actsOn rfl)).trans (raiseNotice_actsOn p _ _ _)

theorem struck_notices (p : PairNo) (s : State) : RaisedOnce .strike (valueArg p.val) s (struck p s) ∧
    ∀ src : Source, src ≠ .strike → Unraised src s (struck p s) :=
  ⟨raiseNotice_raisedOnce .strike (valueArg p.val) (modPair p struckUnit (modPair p damagedUnit s)),
    fun src other => raiseNotice_unraised .strike src (valueArg p.val) (modPair p struckUnit (modPair p damagedUnit s)) other⟩

/-- What every strike leaves, wherever it takes its pair (R15). -/
theorem strike_followed (serving : (s.pair p).state = .serving) (reset : s.agent.reset = none)
    (acts : ActsOn p (struck p s) x) (departure : Departure p st (struck p s) x)
    (unraised : ∀ src, src = .strike ∨ src = .pairDown → Unraised src (struck p s) x) (out : st ≠ .serving)
    (awake : st ≠ .quiet) (k : Followed (raiseForPair .pairDown p x) t) :
    (Beside p s t ∧ Withdrawn p s t ∧ (t.pair p).n.damaged = (s.pair p).n.damaged + 1 ∧
      (t.pair p).n.strike = (s.pair p).n.strike + 1 ∧ (t.pair p).strikes = min 15 ((s.pair p).strikes + 1) ∧
      RaisedOnce .strike (valueArg p.val) s t ∧ RaisedOnce .pairDown (valueArg p.val) s t) ∧
    (t.pair p).Entered s.now s.cfg st := by
  obtain ⟨struckOnce, others⟩ := struck_notices p s
  have unit := struck_unit p s
  have after := (departure.through (u := raiseForPair .pairDown p x) rfl rfl fun _ => rfl).followed k out awake
  obtain ⟨-, -, -, -, strikes, -⟩ := after.record
  obtain ⟨a, b, counters⟩ := after.counters
  obtain ⟨empty, unknown, cut⟩ := after.withdrawn (.inl (by rw [unit]; exact serving))
  rw [unit] at strikes counters cut
  have strikeLeft : RaisedOnce .strike (valueArg p.val) s (raiseForPair .pairDown p x) :=
    raisedOnce_before (raisedOnce_before struckOnce (unraised _ (.inl rfl)))
      (raiseNotice_unraised .pairDown .strike (valueArg p.val) x (by decide))
  have downOnce : RaisedOnce .pairDown (valueArg p.val) s (raiseForPair .pairDown p x) :=
    raisedOnce_after (unraised_trans (others _ (by decide)) (unraised _ (.inr rfl)))
      (raiseNotice_raisedOnce .pairDown (valueArg p.val) x)
  refine ⟨⟨(((struck_acts p s).trans acts).trans (raiseNotice_actsOn p _ _ _)).beside k.follows reset,
    ⟨empty, unknown, cut⟩, by rw [counters]; rfl, by rw [counters]; rfl, strikes,
    k.raised strikeLeft (by decide), k.raised downOnce (by decide)⟩, after.enters⟩

theorem strikeMoved_barred (limit : (s.pair p).cfg.strikeLimit ≤ (s.pair p).strikes) :
    strikeMoved p s = raiseForPair .pairBarred p (moveTo p .barred s) := if_pos limit

theorem strikeMoved_below (limit : ¬ (s.pair p).cfg.strikeLimit ≤ (s.pair p).strikes) :
    strikeMoved p s = if s.cfg.autoProve = true then proveOrWait p s else moveTo p .standby s := if_neg limit

theorem moveTo_unraised_both (st : PairState) (p : PairNo) (s : State) (src : Source)
    (which : src = .strike ∨ src = .pairDown) : Unraised src s (moveTo p st s) :=
  moveTo_unraised (by rcases which with rfl | rfl <;> decide) p st s

theorem barredOnce_followed {y : State} (before : Unraised .pairBarred s y) (k : Followed
    (raiseForPair .pairDown p (raiseForPair .pairBarred p y)) t) : RaisedOnce .pairBarred (valueArg p.val) s t :=
  k.raised (raisedOnce_before (raisedOnce_after before (raiseNotice_raisedOnce .pairBarred (valueArg p.val) y))
    (raiseNotice_unraised .pairDown .pairBarred (valueArg p.val) _ (by decide))) (by decide)

/-- A strike at the strike limit (R15 b). -/
theorem strike_bars (serving : (s.pair p).state = .serving) (reset : s.agent.reset = none)
    (k : Followed (raiseForPair .pairDown p (raiseForPair .pairBarred p (moveTo p .barred (struck p s)))) t) :
    (Beside p s t ∧ Withdrawn p s t ∧ (t.pair p).n.damaged = (s.pair p).n.damaged + 1 ∧
      (t.pair p).n.strike = (s.pair p).n.strike + 1 ∧ (t.pair p).strikes = min 15 ((s.pair p).strikes + 1) ∧
      RaisedOnce .strike (valueArg p.val) s t ∧ RaisedOnce .pairDown (valueArg p.val) s t) ∧
    (t.pair p).Entered s.now s.cfg .barred ∧ RaisedOnce .pairBarred (valueArg p.val) s t ∧ EngineLeft s t := by
  have moved := moveTo_left (p := p) (st := .barred) (struck p s) (by decide) (by decide)
  have barred := moved.raiseNotice .pairBarred (valueArg p.val)
  have unraised : ∀ src, src = .strike ∨ src = .pairDown →
      Unraised src (struck p s) (raiseForPair .pairBarred p (moveTo p .barred (struck p s))) := fun src which =>
    unraised_trans (moveTo_unraised_both .barred p _ src which)
      (raiseNotice_unraised .pairBarred src (valueArg p.val) _ (by rcases which with rfl | rfl <;> decide))
  obtain ⟨common, enters⟩ := strike_followed serving reset barred.acts barred.departure unraised (by decide)
    (by decide) k
  have before : Unraised .pairBarred s (moveTo p .barred (struck p s)) :=
    unraised_trans ((struck_notices p s).2 _ (by decide)) (moveTo_unraised (by decide) p .barred _)
  exact ⟨common, enters, barredOnce_followed before k, k.engineLeft (s := s) moved.engine⟩

/-- A strike below the strike limit raises no PAIR-BARRED. -/
theorem unbarred_followed (before : Unraised .pairBarred (struck p s) x) (k : Followed (raiseForPair .pairDown p x) t) :
    Unraised .pairBarred s t :=
  k.unraised (unraised_trans (unraised_trans ((struck_notices p s).2 _ (by decide)) before)
    (raiseNotice_unraised .pairDown .pairBarred (valueArg p.val) x (by decide))) (by decide)

/-- A strike that starts a run (R15 a). -/
theorem strike_proves (serving : (s.pair p).state = .serving) (reset : s.agent.reset = none)
    (k : Followed (raiseForPair .pairDown p (startRun p (struck p s))) t) :
    (Beside p s t ∧ Withdrawn p s t ∧ (t.pair p).n.damaged = (s.pair p).n.damaged + 1 ∧
      (t.pair p).n.strike = (s.pair p).n.strike + 1 ∧ (t.pair p).strikes = min 15 ((s.pair p).strikes + 1) ∧
      RaisedOnce .strike (valueArg p.val) s t ∧ RaisedOnce .pairDown (valueArg p.val) s t) ∧
    Unraised .pairBarred s t ∧ (t.pair p).Entered s.now s.cfg .proving ∧ RunStarted p s t := by
  have begun := startRun_begun p (struck p s)
  obtain ⟨common, enters⟩ := strike_followed serving reset begun.acts begun.departure
    (fun src which => startRun_unraised (by rcases which with rfl | rfl <;> decide) p _) (by decide) (by decide) k
  have started := runStarted_followed (t := raiseForPair .pairDown p (startRun p (struck p s))) begun.started k
    begun.departure.state
  refine ⟨common, unbarred_followed (startRun_unraised (by decide) p _) k, enters, ?_⟩
  unfold RunStarted at started ⊢
  rw [struck_unit] at started
  exact started

/-- A strike that leaves its pair in STANDBY (R15 a). -/
theorem strike_stands (serving : (s.pair p).state = .serving) (reset : s.agent.reset = none)
    (moved : x = moveTo p .standby (struck p s) ∨ x = modPair p wanting (moveTo p .standby (struck p s)))
    (k : Followed (raiseForPair .pairDown p x) t) :
    (Beside p s t ∧ Withdrawn p s t ∧ (t.pair p).n.damaged = (s.pair p).n.damaged + 1 ∧
      (t.pair p).n.strike = (s.pair p).n.strike + 1 ∧ (t.pair p).strikes = min 15 ((s.pair p).strikes + 1) ∧
      RaisedOnce .strike (valueArg p.val) s t ∧ RaisedOnce .pairDown (valueArg p.val) s t) ∧
    Unraised .pairBarred s t ∧ (t.pair p).Entered s.now s.cfg .standby ∧ EngineLeft s t ∧
      (t.pair p).proveWanted = (x.pair p).proveWanted := by
  have left : Left p .standby (struck p s) x ∧ ∀ src, src ≠ .gapLoss → Unraised src (struck p s) x := by
    have own := moveTo_left (p := p) (st := .standby) (struck p s) (by decide) (by decide)
    have quietly := fun src (other : src ≠ .gapLoss) => moveTo_unraised (src := src) other p .standby (struck p s)
    rcases moved with e | e <;> rw [e]
    · exact ⟨own, quietly⟩
    · exact ⟨own.wanting, quietly⟩
  obtain ⟨left, quietly⟩ := left
  obtain ⟨common, enters⟩ := strike_followed serving reset left.acts left.departure
    (fun src which => quietly src (by rcases which with rfl | rfl <;> decide)) (by decide) (by decide) k
  have steady := k.steady (p := p) (by rw [raiseForPair_pair, left.state]; decide)
  exact ⟨common, unbarred_followed (quietly _ (by decide)) k, enters, k.engineLeft (s := s) left.engine,
    steady_wanted steady⟩

end Strike

theorem damaged_followed {p : PairNo} {s x : State} (reset : s.agent.reset = none) (acts : ActsOn p (struck p s) x) :
    Followed (raiseForPair .pairDown p x) (settle (raiseForPair .pairDown p x)) :=
  settle_followed ((((struck_acts p s).trans acts).trans (raiseNotice_actsOn p _ _ _)).reset reset)

/-- Settles O10: by the pair's state and its error count, and a strike by its limit, *auto-prove* and the engine. -/
theorem damagedTaken : Obligations.DamagedTaken := by
  intro p s receives opened
  have ran : exec (.damaged p) s = .next (damaged p s.silent) := takeCommand_taking (damaged p) opened.1
  have same : s.silent.pair p = s.pair p := rfl
  refine ⟨fun unserving idle => ?_, fun serving below => ?_, fun serving above => ?_⟩
  · rw [ran, damaged_idle (s := s.silent) unserving receives idle]
    rfl
  · rw [ran, damaged_serving (s := s.silent) serving, same, if_neg (Nat.not_lt.2 below)]
    rfl
  · have reset : s.silent.agent.reset = none := opened.2
    have unit := struck_unit p s.silent
    rw [damaged_serving (s := s.silent) serving, same, if_pos above] at ran
    have strikes : ((struck p s.silent).pair p).strikes = min 15 ((s.pair p).strikes + 1) := by rw [unit]; rfl
    have limits : ((struck p s.silent).pair p).cfg.strikeLimit = (s.pair p).cfg.strikeLimit := by rw [unit]; rfl
    by_cases limit : (s.pair p).cfg.strikeLimit ≤ min 15 ((s.pair p).strikes + 1)
    · rw [strikeMoved_barred (by rw [strikes, limits]; exact limit)] at ran
      have left := (moveTo_left (p := p) (st := .barred) (struck p s.silent) (by decide) (by decide)).raiseNotice
        .pairBarred (valueArg p.val)
      obtain ⟨⟨beside, withdrawn, counted, struckCount, rose, raised⟩, barred⟩ :=
        strike_bars (s := s.silent) serving reset (damaged_followed reset left.acts)
      refine ⟨_, ran, beside, withdrawn, counted, struckCount, rose, raised.1, raised.2, ?_⟩
      rw [rose, same, if_pos limit]
      exact barred
    · rw [strikeMoved_below (by rw [strikes, limits]; exact limit)] at ran
      by_cases auto : s.cfg.autoProve = true
      · have autoNow : (struck p s.silent).cfg.autoProve = true := auto
        rw [if_pos autoNow] at ran
        by_cases free : s.engine = none
        · have freeNow : (struck p s.silent).engine = none := free
          rw [proveOrWait_free freeNow] at ran
          obtain ⟨⟨beside, withdrawn, counted, struckCount, rose, raised⟩, unbarred, proves⟩ :=
            strike_proves (s := s.silent) serving reset (damaged_followed reset (startRun_acts p _))
          refine ⟨_, ran, beside, withdrawn, counted, struckCount, rose, raised.1, raised.2, ?_⟩
          rw [rose, same, if_neg limit]
          exact ⟨unbarred, (if_pos ⟨auto, free⟩).mpr proves⟩
        · have busyNow : (struck p s.silent).engine ≠ none := free
          rw [proveOrWait_busy busyNow] at ran
          have left := (moveTo_left (p := p) (st := .standby) (struck p s.silent) (by decide) (by decide)).wanting
          obtain ⟨⟨beside, withdrawn, counted, struckCount, rose, raised⟩, unbarred, enters, engine, wanted⟩ :=
            strike_stands (s := s.silent) serving reset (.inr rfl) (damaged_followed reset left.acts)
          refine ⟨_, ran, beside, withdrawn, counted, struckCount, rose, raised.1, raised.2, ?_⟩
          rw [rose, same, if_neg limit]
          refine ⟨unbarred, (if_neg fun k => free k.2).mpr ⟨enters, fun _ => ?_, engine⟩⟩
          rw [wanted, modPair_pair_same]
          rfl
      · have plain : ¬ (struck p s.silent).cfg.autoProve = true := auto
        rw [if_neg plain] at ran
        have left := moveTo_left (p := p) (st := .standby) (struck p s.silent) (by decide) (by decide)
        obtain ⟨⟨beside, withdrawn, counted, struckCount, rose, raised⟩, unbarred, enters, engine, -⟩ :=
          strike_stands (s := s.silent) serving reset (.inl rfl) (damaged_followed reset left.acts)
        refine ⟨_, ran, beside, withdrawn, counted, struckCount, rose, raised.1, raised.2, ?_⟩
        rw [rose, same, if_neg limit]
        exact ⟨unbarred, (if_neg fun k => auto k.1).mpr ⟨enters, fun k => absurd k auto, engine⟩⟩

end Sys2Proof.Proofs
end

