-- ==== Sys2Proof/Proofs/HaltEnds.lean ====
section
/-! PROOF. A pair in HALTED: how a PROVE-REQUEST brings it there (R156, R163) and how it leaves (R164). -/

namespace Sys2Proof.Proofs
open Sys2Proof Sys2Proof.Machine Sys2Proof.Laws

/-! ## What a raised kind carries -/

section Carried

variable {now : Nat} {b : BondSettings} {u v : PairUnit}

/-- The end slot holds `e`, or a PROVE-END that carries it is being handed over (R162). -/
def EndPut (e : EndContent) (x : PairUnit) : Prop :=
  x.record.endSlot = some e ∨ ∃ h : Handover, x.handover = some h ∧
    h.frag.payload = verdictCode e.verdict :: octets16 (BitVec.ofNat 16 e.delay)

theorem PairSteps.endPut {e : EndContent} (h : PairSteps now b u v) (awake : u.state ≠ .quiet) (put : EndPut e u) :
    EndPut e v := by
  refine (h.keep awake (P := EndPut e) (fun x y state _ one put => ?_) put).2
  cases one with
  | control j js h free first frag =>
    obtain ⟨idle, -⟩ := canBegin_iff.1 free
    have slot := put.resolve_right (by simp [idle])
    by_cases ending : j = .proveEnd
    · obtain ⟨-, -, payload⟩ := frag
      refine .inr ⟨h, rfl, ?_⟩
      rw [payload ending, slot]
      rfl
    · refine .inl ?_
      simp only [controlBegun, if_neg ending]
      exact slot
  | prove n h free slot frag =>
    obtain ⟨idle, -⟩ := canBegin_iff.1 free
    exact .inl (put.resolve_right (by simp [idle]))
  | data h free =>
    obtain ⟨idle, -⟩ := canBegin_iff.1 free
    exact .inl (put.resolve_right (by simp [idle]))
  | place => exact put
  | wake quiet => exact absurd (state ▸ quiet) awake

/-- The decline reason `r` is kept for a PROVE-DECLINE, or one that carries it is being handed over (R156). -/
def DeclinePut (r : DeclineReason) (x : PairUnit) : Prop :=
  x.declineOut = some r ∨ ∃ h : Handover, x.handover = some h ∧ h.frag.payload = [reasonCode r]

theorem PairSteps.declinePut {r : DeclineReason} (h : PairSteps now b u v) (awake : u.state ≠ .quiet)
    (put : DeclinePut r u) : DeclinePut r v := by
  refine (h.keep awake (P := DeclinePut r) (fun x y state _ one put => ?_) put).2
  cases one with
  | control j js h free first frag =>
    obtain ⟨idle, -⟩ := canBegin_iff.1 free
    have kept := put.resolve_right (by simp [idle])
    by_cases declining : j = .proveDecline
    · obtain ⟨-, payload, -⟩ := frag
      refine .inr ⟨h, rfl, ?_⟩
      rw [payload declining, kept]
      rfl
    · refine .inl ?_
      simp only [controlBegun, if_neg declining]
      exact kept
  | prove n h free slot frag =>
    obtain ⟨idle, -⟩ := canBegin_iff.1 free
    exact .inl (put.resolve_right (by simp [idle]))
  | data h free =>
    obtain ⟨idle, -⟩ := canBegin_iff.1 free
    exact .inl (put.resolve_right (by simp [idle]))
  | place => exact put
  | wake quiet => exact absurd (state ▸ quiet) awake

theorem any_of_payload {h : Option Handover} {os : List Octet} (k : ∃ x : Handover, h = some x ∧ x.frag.payload = os) :
    (h.any fun x => x.frag.payload = os) = true := by
  obtain ⟨x, some, payload⟩ := k
  simp [some, payload]

end Carried

/-! ## The halt ends -/

section Halt

variable {p : PairNo} {s t : State}

/-- The pair unit of a HALTED pair that has taken a PROVE-END (R164 a, R75 b). -/
def endTaken (v : Verdict) (delay : Nat) (u : PairUnit) : PairUnit :=
  { u with
    record := { u.record with lastVerdict := some v, receivedD := some delay }
    delay := if v = .passed then delay else u.delay }

theorem endHalt_eq (p : PairNo) (v : Verdict) (delay : Nat) (s : State) : endHalt p v delay s =
    moveTo p (if v = .passed then .joining else .standby) (modPair p (endTaken v delay) s) := by
  unfold endHalt modRecord
  dsimp only
  split
  · next passed =>
    have unit : endTaken v delay = fun u => { u with
        record := { u.record with lastVerdict := some v, receivedD := some delay }, delay := delay } :=
      funext fun u => by rw [endTaken, if_pos passed]
    rw [modPair_modPair, unit]
  · next failed =>
    have unit : endTaken v delay = fun u => { u with
        record := { u.record with lastVerdict := some v, receivedD := some delay } } :=
      funext fun u => by rw [endTaken, if_neg failed]
    rw [unit]

theorem steady_record {u v : PairUnit} (h : v.steady = u.steady) :
    { v.record with endSlot := none } = { u.record with endSlot := none } := by
  have record := congrArg PairUnit.record h
  exact record

theorem record_fields {r r' : ProvingRecord} (h : { r' with endSlot := none } = { r with endSlot := none }) :
    r'.status = r.status ∧ r'.abortCause = r.abortCause ∧ r'.declineReason = r.declineReason ∧
      r'.stepsDone = r.stepsDone ∧ r'.failures = r.failures ∧ r'.firstFailure = r.firstFailure ∧
      r'.minTrip = r.minTrip ∧ r'.maxTrip = r.maxTrip ∧ r'.resultD = r.resultD ∧
      r'.lastVerdict = r.lastVerdict ∧ r'.receivedD = r.receivedD := by
  rw [ProvingRecord.mk.injEq] at h
  simp [h]

/-- What a PROVE-END leaves of a HALTED pair, with what follows (R164 a). -/
theorem endHalt_followed (v : Verdict) (delay : Nat) (halted : (s.pair p).state = .halted)
    (reset : s.agent.reset = none) (k : Followed (endHalt p v delay s) t) : Beside p s t ∧ ContextsLeft s t ∧
      EngineLeft s t ∧ (t.pair p).record.lastVerdict = some v ∧ (t.pair p).record.receivedD = some delay ∧
      (t.pair p).record.status = (s.pair p).record.status ∧
      (if v = .passed then (t.pair p).Entered s.now s.cfg .joining ∧ (t.pair p).sends .join ∧
        (t.pair p).delay = delay
      else (t.pair p).Entered s.now s.cfg .standby ∧ (t.pair p).delay = (s.pair p).delay) := by
  have target : (if v = .passed then PairState.joining else .standby) = .joining ∨
      (if v = .passed then PairState.joining else .standby) = .standby := by
    split
    · exact .inl rfl
    · exact .inr rfl
  have unit : (modPair p (endTaken v delay) s).pair p = endTaken v delay (s.pair p) := modPair_pair_same ..
  have idle : ¬ InService ((modPair p (endTaken v delay) s).pair p) := by
    rw [unit]
    simp [InService, endTaken, halted]
  have sendsJoin := moveTo_joining_sends p (modPair p (endTaken v delay) s)
  rw [endHalt_eq] at k
  generalize goal : (if v = .passed then PairState.joining else .standby) = st at target k
  have plain : st ≠ .serving ∧ st ≠ .absent ∧ st ≠ .quiet ∧ st ≠ .down ∧ st ≠ .barred := by
    rcases target with e | e <;> rw [e] <;> decide
  obtain ⟨out, present, awake, up, unbarred⟩ := plain
  have start : ActsOn p s (modPair p (endTaken v delay) s) := modPair_actsOn rfl
  have left := moveTo_left (p := p) (st := st) (modPair p (endTaken v delay) s) out present
  obtain ⟨-, engine, departure⟩ := left.followed k (start.reset reset) out awake
  have steady := k.steady (p := p) (by rw [left.state]; exact awake)
  obtain ⟨status, -, -, -, -, -, -, -, -, verdict, received⟩ := record_fields (steady_record steady)
  have record := moveTo_provingRecord (p := p) (modPair p (endTaken v delay) s) out
  rw [unit] at record
  obtain ⟨-, delays, -⟩ := departure.record
  rw [unit] at delays
  refine ⟨(start.trans left.acts).beside k.follows reset, departure.contexts idle, engine, ?_, ?_, ?_, ?_⟩
  · rw [verdict, record]; rfl
  · rw [received, record]; rfl
  · rw [status, record]; rfl
  · have enters := departure.enters
    rw [← goal] at enters
    split
    · next passed =>
      rw [if_pos passed] at enters goal
      subst goal
      exact ⟨enters, k.sends (by rw [left.state]; decide) sendsJoin, delays.trans (if_pos passed)⟩
    · next failed =>
      rw [if_neg failed] at enters
      exact ⟨enters, delays.trans (if_neg failed)⟩

/-- What a RELEASE leaves of a HALTED pair, with its reply and what follows (R164 b). -/
theorem release_followed {o : Output} (halted : (s.pair p).state = .halted) (reset : s.agent.reset = none)
    (k : Followed (emit o (releasePair p s)) t) : (t.pair p).Entered s.now s.cfg .standby ∧
      (s.pair p).RecordKept (t.pair p) ∧ (t.pair p).sends .proveEnd ∧ EndPut ⟨.released, 0⟩ (t.pair p) ∧
      Beside p s t ∧ ContextsLeft s t ∧ EngineLeft s t := by
  have idle : ¬ InService (s.pair p) := by simp [InService, halted]
  have raised : (raiseEnd p .released 0 s).pair p = PairUnit.raise .proveEnd
      { s.pair p with record := { (s.pair p).record with endSlot := some ⟨.released, 0⟩ } } := by
    rw [raiseEnd, raiseCtl, modPair_pair_same, modRecord, modPair_pair_same]
  have permitted : PairUnit.raise .proveEnd { s.pair p with record :=
      { (s.pair p).record with endSlot := some ⟨.released, 0⟩ } } = { s.pair p with
        ctl := addCtl .proveEnd (s.pair p).ctl
        record := { (s.pair p).record with endSlot := some ⟨.released, 0⟩ } } := if_pos (by rw [halted]; rfl)
  rw [permitted] at raised
  have left : Left p .standby s (releasePair p s) := by
    refine (releasePair_left p s).of_start (raiseEnd_actsOn p _ _ s) ?_ ?_ rfl rfl rfl fun _ => rfl <;> rw [raised]
    rfl
  have awake : ((emit o (releasePair p s)).pair p).state ≠ .quiet := by
    rw [emit_pair, left.state]
    decide
  have ctl : ((releasePair p s).pair p).ctl = keepPermitted .standby (addCtl .proveEnd (s.pair p).ctl) := by
    rw [releasePair, moveTo_ctl _ (by decide), raised]
    rfl
  have sent : Ctl.proveEnd ∈ ((releasePair p s).pair p).ctl := by
    rw [ctl]
    exact List.mem_filter.2 ⟨mem_addCtl.2 (.inl rfl), rfl⟩
  have slot : ((releasePair p s).pair p).record.endSlot = some ⟨.released, 0⟩ := by
    rw [releasePair, moveTo_provingRecord _ (by decide), raised]
    rfl
  obtain ⟨beside, engine, departure⟩ := (left.emit o).followed k reset (by decide) (by decide)
  exact ⟨departure.enters, departure.record, k.sends awake (.inl sent), (k.ensues.pairs p).endPut awake (.inl slot),
    beside, departure.contexts idle, engine⟩

end Halt

/-- Settles O29: the three ways out of HALTED. -/
theorem haltEnds : Obligations.HaltEnds := by
  intro p h e v tm q o s opened halted free
  refine ⟨fun length verdict => ?_, fun running => ?_, fun named admits => ?_⟩
  · have known : verdictOf e.verdict = some v := by rw [verdict]; cases v <;> rfl
    have receives : Receives p s := by rw [Receives, halted]; decide
    have ran := exec_proveEnd opened.1 receives length known
    have heard : ((Heard p 3 s).pair p).state = .halted := by rw [heard_state, halted]
    have taken : takeEnd p v e.delay.toNat (Heard p 3 s) = settle (endHalt p v e.delay.toNat (Heard p 3 s)) := by
      simp only [takeEnd, heard]
    rw [taken] at ran
    have acts : ActsOn p (Heard p 3 s) (endHalt p v e.delay.toNat (Heard p 3 s)) := by
      rw [endHalt_eq]
      exact ActsOn.trans (t := modPair p (endTaken v e.delay.toNat) (Heard p 3 s)) (modPair_actsOn rfl)
        (moveTo_actsOn p _ _)
    have start : ActsOn p s (Heard p 3 s) := (silent_actsOn p s).trans (modPair_actsOn rfl)
    have k := settle_followed (acts.reset (start.reset opened.2))
    obtain ⟨-, contexts, engine, last, received, status, result⟩ :=
      endHalt_followed v e.delay.toNat heard (start.reset opened.2) k
    rw [heard_pair] at status result
    exact ⟨_, ran, (start.trans acts).beside k.follows opened.2, contexts, engine, last, received, status, result⟩
  · have ran : exec (.haltTimerExpiry p) s = .next (settle (moveTo p .standby (reach tm s.silent))) :=
      expire_running (timer := fun s => (s.pair p).haltTimer) (f := fun s => settle (moveTo p .standby s)) opened.1 running
    have idle : ¬ InService ((reach tm s.silent).pair p) := by
      have same : (reach tm s.silent).pair p = s.pair p := rfl
      rw [same]
      simp [InService, halted]
    have reset : (reach tm s.silent).agent.reset = none := opened.2
    have left := moveTo_left (p := p) (st := .standby) (reach tm s.silent) (by decide) (by decide)
    have k := settle_followed (left.reset reset)
    obtain ⟨beside, engine, departure⟩ := left.followed k reset (by decide) (by decide)
    have now := k.ensues.now.trans left.now
    exact ⟨_, ran, now, by rw [now]; exact departure.enters, departure.record, beside, departure.contexts idle, engine⟩
  · obtain ⟨r, t, ran, answers, followed⟩ := pairCommand_followed (c := .release q o) (a := .release) opened rfl admits
      named free (by simp [actionAccepted, halted])
    obtain ⟨enters, record, sent, put, beside, contexts, engine⟩ := release_followed (s := counted s) halted opened.2 followed
    exact ⟨t, ran, answers, enters, record, sent, put.imp id any_of_payload, beside, contexts, engine⟩

end Sys2Proof.Proofs
end

