-- ==== Sys2Proof/Proofs/ProveRequests.lean ====
section
/-! PROOF. A PROVE-REQUEST by the first case of R156 that applies: declined, accepted by a pair that enters HALTED, or
accepted again. -/

namespace Sys2Proof.Proofs
open Sys2Proof Sys2Proof.Machine Sys2Proof.Laws

section Requests

variable {p : PairNo} {r : DeclineReason} {s t : State}

/-- A pair that is neither BARRED, QUIET, DOWN nor ABSENT permits the proving answers (R29). -/
theorem answers_permitted {st : PairState} (h : st ≠ .absent ∧ st ≠ .down ∧ st ≠ .barred ∧ st ≠ .quiet) {k : Ctl}
    (answer : k = .proveAccept ∨ k = .proveDecline ∨ k = .proveEnd) : k.permitted st = true := by
  obtain ⟨absent, down, barred, quiet⟩ := h
  rcases answer with rfl | rfl | rfl <;> cases st <;> simp_all [Ctl.permitted]

theorem answers_shut {st : PairState} (h : st = .barred ∨ st = .quiet) {k : Ctl}
    (answer : k = .proveAccept ∨ k = .proveDecline ∨ k = .proveEnd) : k.permitted st = false := by
  rcases h with rfl | rfl <;> rcases answer with rfl | rfl | rfl <;> rfl

/-- A BARRED or QUIET pair begins no handover (R30). -/
theorem chooseHandover_shut (shut : (s.pair p).state = .barred ∨ (s.pair p).state = .quiet) : chooseHandover p s = s := by
  have unable : ¬ (s.pair p).canBegin = true := fun free => by
    obtain ⟨-, -, state⟩ := canBegin_iff.1 free
    rcases shut with e | e <;> simp [e] at state
  exact if_neg unable

/-- The pair unit with the decline reason that a raise of PROVE-DECLINE leaves (R156). -/
def declining (r : DeclineReason) (u : PairUnit) : PairUnit := { u with declineOut := u.declineWith r }

theorem declineWith_new {u : PairUnit} (new : Ctl.proveDecline ∉ u.ctl) : u.declineWith r = some r := by
  have absent : u.ctl.contains .proveDecline = false := by simpa using new
  unfold PairUnit.declineWith
  rw [absent]

theorem raise_declineOut (k : Ctl) (u : PairUnit) : (u.raise k).declineOut = u.declineOut := by
  unfold PairUnit.raise
  split <;> rfl

/-- A decline changes nothing but what waits on its pair (R156). -/
theorem decline_answers (r : DeclineReason) (receives : Receives p s) : OnlyPair p s (chooseHandover p (raiseDecline p r s)) ∧
    EngineLeft s (chooseHandover p (raiseDecline p r s)) ∧
    ((chooseHandover p (raiseDecline p r s)).pair p).steady = (s.pair p).steady ∧
    ((s.pair p).state ≠ .barred → (s.pair p).state ≠ .quiet →
      ((chooseHandover p (raiseDecline p r s)).pair p).sends .proveDecline ∧
      (Ctl.proveDecline ∉ (s.pair p).ctl → DeclinePut r ((chooseHandover p (raiseDecline p r s)).pair p))) := by
  by_cases shut : (s.pair p).state = .barred ∨ (s.pair p).state = .quiet
  · have unraised : raiseDecline p r s = s := if_neg (by rw [answers_shut shut (.inr (.inl rfl))]; decide)
    rw [unraised, chooseHandover_shut shut]
    exact ⟨onlyPair_refl p s, rfl, rfl, fun unbarred awake => absurd shut (by simp [unbarred, awake])⟩
  · obtain ⟨unbarred, awake⟩ := not_or.1 shut
    have permitted := answers_permitted ⟨receives.1, receives.2, unbarred, awake⟩ (k := .proveDecline) (.inr (.inl rfl))
    have raised : raiseDecline p r s = raiseCtl .proveDecline p (modPair p (declining r) s) := if_pos permitted
    rw [raised]
    obtain ⟨only, steps, steady, sent⟩ := modPair_chosen (k := .proveDecline) (p := p) (f := declining r) (s := s) rfl
      awake permitted
    refine ⟨only, (chooseHandover_follows p _).engine, steady, fun _ _ => ⟨sent, fun new => ?_⟩⟩
    refine steps.declinePut (by rw [raise_state]; exact awake) (.inl ?_)
    rw [raise_declineOut]
    exact declineWith_new new

theorem takeProveRequest_unconsented (off : (s.pair p).cfg.echoConsent = false) :
    takeProveRequest p s = chooseHandover p (raiseDecline p .noConsent s) := if_pos (by rw [off]; rfl)

theorem takeProveRequest_won (on : (s.pair p).cfg.echoConsent = true) (proving : (s.pair p).state = .proving)
    (cabinet : s.bond.role = .cabinet) : takeProveRequest p s = chooseHandover p (raiseDecline p .crossedWin s) := by
  simp [takeProveRequest, on, proving, cabinet]

theorem takeProveRequest_waking (on : (s.pair p).cfg.echoConsent = true) (waking : (s.pair p).state = .waking) :
    takeProveRequest p s = chooseHandover p (raiseDecline p .state s) := by
  simp [takeProveRequest, on, waking]

/-- The pair has entered HALTED and PROVE-ACCEPT is raised (R156 d, R163). -/
def haltEntered (p : PairNo) (s : State) : State := raiseCtl .proveAccept p (moveTo p .halted s)

theorem takeProveRequest_standing (on : (s.pair p).cfg.echoConsent = true)
    (state : (s.pair p).state = .standby ∨ (s.pair p).state = .joining) :
    takeProveRequest p s = settle (haltEntered p s) := by
  rcases state with e | e <;> simp [takeProveRequest, on, e, haltEntered]

theorem takeProveRequest_serving (on : (s.pair p).cfg.echoConsent = true) (serving : (s.pair p).state = .serving) :
    takeProveRequest p s = settle (raiseForPair .pairDown p (haltEntered p s)) := by
  simp [takeProveRequest, on, serving, haltEntered]

theorem haltEntered_left (p : PairNo) (s : State) : Left p .halted s (haltEntered p s) :=
  (moveTo_left s (by decide) (by decide)).raiseCtl .proveAccept

theorem haltEntered_unit (p : PairNo) (s : State) : ((haltEntered p s).pair p).proveSlot = none ∧
    ((haltEntered p s).pair p).sends .proveAccept := by
  have state := (moveTo_left (p := p) (st := .halted) s (by decide) (by decide)).state
  have permitted : Ctl.permitted .proveAccept ((moveTo p .halted s).pair p).state = true := by rw [state]; rfl
  rw [haltEntered, raiseCtl, modPair_pair_same]
  refine ⟨?_, raise_sends permitted⟩
  rw [PairUnit.raise, if_pos permitted]
  exact moveTo_proveSlot s (by decide)

/-- What an entry to HALTED leaves, once `u` has followed it with PAIR-DOWN or without (R163). -/
theorem haltEntered_followed {u : State} (reset : s.agent.reset = none) (start : Left p .halted s u)
    (unit : u.pair p = (haltEntered p s).pair p) (k : Followed u t) : Beside p s t ∧ EngineLeft s t ∧
      (t.pair p).Entered s.now s.cfg .halted ∧ (s.pair p).RecordKept (t.pair p) ∧
      (t.pair p).rate = (s.pair p).rate ∧ (t.pair p).proveSlot = none ∧ (t.pair p).sends .proveAccept ∧
      (InService (s.pair p) → Withdrawn p s t) ∧ (¬ InService (s.pair p) → ContextsLeft s t) := by
  obtain ⟨empty, sent⟩ := haltEntered_unit p s
  have awake : (u.pair p).state ≠ .quiet := by rw [start.state]; decide
  rw [← unit] at empty sent
  obtain ⟨beside, engine, departure⟩ := start.followed k reset (by decide) (by decide)
  exact ⟨beside, engine, departure.enters, departure.record, departure.kept_rate (by decide),
    (k.ensues.pairs p).proveSlot awake empty, k.sends awake sent, departure.withdrawn, departure.contexts⟩

/-- The pair unit of a HALTED pair that accepts again (R156 e). -/
def acceptedAgain (now : Nat) (b : BondSettings) (u : PairUnit) : PairUnit :=
  { u with haltTimer := some ⟨now, ms (4 * b.stepTimeout)⟩, proveSlot := none }

theorem takeProveRequest_halted (on : (s.pair p).cfg.echoConsent = true) (halted : (s.pair p).state = .halted) :
    takeProveRequest p s = chooseHandover p (raiseCtl .proveAccept p (modPair p (acceptedAgain s.now s.cfg) s)) := by
  unfold takeProveRequest
  simp only [on, halted]
  rfl

end Requests

/-- Settles O23: the declines, the entries to HALTED, and the acceptance again. -/
theorem proveRequestAnswered : Obligations.ProveRequestAnswered := by
  intro p h s opened receives length
  have ran := exec_proveRequest opened.1 receives length
  have unit := heard_pair p 0 s
  have heard : ((Heard p 0 s).pair p).state = (s.pair p).state := heard_state p 0 s
  have consent : ((Heard p 0 s).pair p).cfg.echoConsent = (s.pair p).cfg.echoConsent := by rw [unit]; rfl
  have start : ActsOn p s (Heard p 0 s) := (silent_actsOn p s).trans (modPair_actsOn rfl)
  have reset := start.reset opened.2
  refine ⟨fun r cases => ?_, fun on state => ?_, fun on halted => ?_⟩
  · have declined : takeProveRequest p (Heard p 0 s) = chooseHandover p (raiseDecline p r (Heard p 0 s)) := by
      rcases cases with ⟨rfl, off⟩ | ⟨on, ⟨rfl, proving, cabinet⟩ | ⟨rfl, waking⟩⟩
      · exact takeProveRequest_unconsented (by rw [consent, off])
      · exact takeProveRequest_won (by rw [consent, on]) (by rw [heard, proving]) cabinet
      · exact takeProveRequest_waking (by rw [consent, on]) (by rw [heard, waking])
    obtain ⟨only, engine, steady, answers⟩ := decline_answers (p := p) (s := Heard p 0 s) r (by rw [Receives, heard]; exact receives)
    rw [declined] at ran
    refine ⟨_, ran, onlyPair_trans (heard_onlyPair p 0 s) only, engine, steady, fun unbarred awake => ?_⟩
    obtain ⟨sent, put⟩ := answers (by rw [heard]; exact unbarred) (by rw [heard]; exact awake)
    rw [unit] at put
    exact ⟨sent, fun new => (put new).imp id any_of_payload⟩
  · by_cases serving : (s.pair p).state = .serving
    · rw [takeProveRequest_serving (by rw [consent, on]) (by rw [heard, serving])] at ran
      have left : Left p .halted (Heard p 0 s) (raiseForPair .pairDown p (haltEntered p (Heard p 0 s))) :=
        (haltEntered_left p (Heard p 0 s)).raiseNotice .pairDown (valueArg p.val)
      have k : Followed (raiseForPair .pairDown p (haltEntered p (Heard p 0 s)))
          (settle (raiseForPair .pairDown p (haltEntered p (Heard p 0 s)))) :=
        settle_followed (left.reset reset)
      obtain ⟨beside, engine, enters, record, rate, empty, sent, withdrawn, -⟩ := haltEntered_followed
        (u := raiseForPair .pairDown p (haltEntered p (Heard p 0 s))) reset left rfl k
      have before : Unraised .pairDown s (haltEntered p (Heard p 0 s)) :=
        moveTo_unraised (src := .pairDown) (by decide) p .halted (Heard p 0 s)
      rw [unit] at record rate
      refine ⟨_, ran, start.trans left.acts |>.beside k.follows opened.2, engine, enters, record, rate, empty, sent, ?_⟩
      rw [if_pos serving]
      obtain ⟨queue, unknown, cut⟩ := withdrawn (.inl (by rw [heard, serving]))
      rw [unit] at cut
      exact ⟨⟨queue, unknown, cut⟩, k.raised (raisedOnce_after (t := haltEntered p (Heard p 0 s)) before
        (raiseNotice_raisedOnce ..)) (by decide)⟩
    · have standing := state.imp id fun x => x.resolve_right serving
      rw [takeProveRequest_standing (by rw [consent, on]) (by rw [heard]; exact standing)] at ran
      have left := haltEntered_left p (Heard p 0 s)
      have k := settle_followed (left.reset reset)
      obtain ⟨beside, engine, enters, record, rate, empty, sent, -, contexts⟩ := haltEntered_followed reset left rfl k
      have before : Unraised .pairDown s (haltEntered p (Heard p 0 s)) :=
        moveTo_unraised (src := .pairDown) (by decide) p .halted (Heard p 0 s)
      have idle : ¬ InService ((Heard p 0 s).pair p) := by
        rw [InService, heard]
        rcases standing with e | e <;> simp [e]
      rw [unit] at record rate
      refine ⟨_, ran, start.trans left.acts |>.beside k.follows opened.2, engine, enters, record, rate, empty, sent, ?_⟩
      rw [if_neg serving]
      exact ⟨contexts idle, k.unraised before (by decide)⟩
  · rw [takeProveRequest_halted (by rw [consent, on]) (by rw [heard, halted])] at ran
    have awake : ((Heard p 0 s).pair p).state ≠ .quiet := by rw [heard, halted]; decide
    have permitted : Ctl.permitted .proveAccept ((Heard p 0 s).pair p).state = true := by rw [heard, halted]; rfl
    obtain ⟨only, steps, steady, sent⟩ := modPair_chosen (k := .proveAccept) (p := p)
      (f := acceptedAgain (Heard p 0 s).now (Heard p 0 s).cfg) (s := Heard p 0 s) rfl awake permitted
    refine ⟨_, ran, onlyPair_trans (heard_onlyPair p 0 s) only, steady, ?_, sent⟩
    refine steps.proveSlot (by rw [raise_state]; exact awake) ?_
    rw [PairUnit.raise]
    split <;> rfl

end Sys2Proof.Proofs
end

