-- ==== Sys2Proof/Proofs/PairsCleared.lean ====
section
/-! PROOF. CLEAR and RESET of a pair (R22, R23), and what the offer tests that follow an event leave (R173). -/

namespace Sys2Proof.Proofs
open Sys2Proof Sys2Proof.Machine Sys2Proof.Laws

/-! ## The offer tests after an event -/

section Offers

variable {p q : PairNo} {s t u v : State}

theorem testOffers_offered (ps : List PairNo) (s : State) (q : PairNo) :
    (testOffers ps s).pair q = s.pair q ∨ (s.pair q).Offered ((testOffers ps s).pair q) :=
  (testOffers_pairEvent (q + 1) ps s).others q (by revert q; decide)

/-- A pair that is not SERVING begins no offer (R173 a). -/
theorem testOffers_idle (ps : List PairNo) (idle : (s.pair q).state ≠ .serving) :
    (testOffers ps s).pair q = s.pair q :=
  (testOffers_offered ps s q).resolve_right fun offered => idle offered.1

/-- The offer tests touch the pair units alone. -/
theorem testOffers_pairs (ps : List PairNo) (s : State) :
    testOffers ps s = { s with pairs := (testOffers ps s).pairs } := by
  unfold testOffers eachPair
  induction ps generalizing s with
  | nil => rfl
  | cons p ps ih =>
    have tested : testOffer p s = { s with pairs := (testOffer p s).pairs } := by
      by_cases passed : offerPasses s p = true
      · rw [testOffer_passed passed]
        rfl
      · rw [testOffer_failed passed]
    have rest := ih (testOffer p s)
    rw [tested] at rest
    rw [List.foldl_cons, tested]
    exact rest

theorem testOffers_source (ps : List PairNo) (s : State) (src : Source) : (testOffers ps s).source src = s.source src := by
  rw [testOffers_pairs]
  rfl

theorem PairSteps.offersEmpty {now : Nat} {b : BondSettings} {u v : PairUnit} (h : PairSteps now b u v)
    (k : OffersEmpty u) : OffersEmpty v := by
  obtain ⟨serving, offering, empty⟩ := k
  have awake : u.state ≠ .quiet := by rw [serving]; decide
  have steady := h.steady awake
  exact ⟨(steady_state steady).trans serving, (steady_offering steady).trans offering,
    (h.queue_left awake (.inr offering)).trans empty⟩

/-- What a command on pair `p` leaves, once other pairs may have begun to offer and `t` has followed. -/
theorem ActsOn.offers (acts : ActsOn p s u) (grown : ∀ q : PairNo, q ≠ p → (u.pair q).queue = [] → (s.pair q).queue = [])
    (event : PairEvent p u v) (k : Followed v t) (reset : s.agent.reset = none) : BesideOffers p s t := by
  have agent : v.agent.reset = none := (congrArg Agent.reset event.agent).trans (acts.reset reset)
  refine ⟨fun q other => ?_, SettingsKept_trans (SettingsKept_trans acts.settings event.settings) k.follows.settings,
    ?_, ?_, k.follows.reset agent⟩
  · have same := acts.others q other
    have left := k.follows.pairs q
    rcases event.others q other with unmoved | offered
    · rw [unmoved] at left
      exact .inl (LeftBy_trans (.inl same) left)
    · obtain ⟨serving, idle, -, empty, steady⟩ := offered_of_leftBy offered left (k.ensues.pairs q).offersEmpty
      refine .inr ⟨(steady_state same).symm.trans serving, (steady_offering same).symm.trans idle,
        grown q other offered.2.2.1, empty, ?_⟩
      rw [steady, same]
  · have bond := acts.bond
    rw [BondLeft, ← event.bond] at bond
    exact BondLeft_trans bond k.follows.bond
  · rw [k.follows.classifier, event.classifier, acts.classifier]

end Offers

/-! ## The entries that a withdrawal discards -/

section Discards

variable {p : PairNo} {s : State}

/-- The counters of pair `p` with some entries counted MOVED-DISCARD, `n` at most (R104). -/
def Discards (n : Nat) (a b : PairCounters) : Prop :=
  ∃ d : Count, d.toNat ≤ n ∧ b = { a with movedDiscard := a.movedDiscard + d }

theorem giveBack_discards (w : PairNo) (e : Desc) (s : State) :
    Discards 1 (s.pair w).n ((giveBack w e s).pair w).n := by
  unfold giveBack
  split
  · refine ⟨0, by simp, ?_⟩
    rw [countClass_pair, append, modPair_pair]
    split
    · next same => subst same; simp
    · simp
  · refine ⟨1, by simp, ?_⟩
    rw [countPair, modPair_pair_same]

theorem giveBackAll_discards (w : PairNo) (es : List Desc) (s : State) :
    Discards es.length (s.pair w).n ((giveBackAll w es s).pair w).n := by
  unfold giveBackAll
  induction es generalizing s with
  | nil => exact ⟨0, by simp, by simp⟩
  | cons e es ih =>
    obtain ⟨d, one, first⟩ := giveBack_discards w e s
    obtain ⟨r, bound, rest⟩ := ih (giveBack w e s)
    refine ⟨d + r, ?_, ?_⟩
    · rw [BitVec.toNat_add, List.length_cons]
      omega
    · rw [List.foldl_cons, rest, first, ← BitVec.add_assoc]

theorem cutUnit_queue_le (b : Bool) (u : PairUnit) : (cutUnit b u).queue.length ≤ u.queue.length := by
  unfold cutUnit
  split
  · exact le_rfl
  · split
    · rw [List.length_tail]
      exact Nat.sub_le _ _
    · exact le_rfl

theorem cutUnit_counted (u : PairUnit) : (cutUnit true u).n =
    { u.n with cutOff := u.n.cutOff + (if u.handover.isSome = true then 1 else 0) } := by
  unfold cutUnit
  split
  · next idle => rw [idle]; simp
  · next busy => rw [busy]; simp

/-- What the withdrawal of a pair in service counts on it (R12 a, R104). -/
theorem moveTo_discards (st : PairState) (service : InService (s.pair p)) : ∃ d : Count,
    d.toNat ≤ (s.pair p).queue.length ∧ ((moveTo p st s).pair p).n = { (s.pair p).n with
      cutOff := (s.pair p).n.cutOff + (if (s.pair p).handover.isSome = true then 1 else 0)
      movedDiscard := (s.pair p).n.movedDiscard + d } := by
  obtain ⟨d, bound, discards⟩ := giveBackAll_discards p (givenBack p s) (emptied p st s)
  obtain ⟨-, -, -, -, -, -, n, -⟩ := enter_kept (departed p st s).now (departed p st s).cfg st ((departed p st s).pair p)
  have counted : ((emptied p st s).pair p).n = (cutUnit true { s.pair p with state := st }).n := by
    rw [emptied_pair, if_pos rfl]
  refine ⟨d, bound.trans (cutUnit_queue_le true (s.pair p)), ?_⟩
  rw [moveTo_eq, enterState, modPair_pair_same, n, departed_inService service, withdrawTo_eq, pairExit_pair, discards,
    counted, cutUnit_counted]

end Discards

/-! ## CLEAR -/

section Clear

variable {p : PairNo} {s t : State}

theorem moveTo_grown {q : PairNo} (other : q ≠ p) {st : PairState} (out : st ≠ .serving)
    (empty : ((moveTo p st s).pair q).queue = []) : (s.pair q).queue = [] := by
  obtain ⟨added, unit, -⟩ := moveTo_pair_other other out s
  rw [unit] at empty
  exact (List.append_eq_nil_iff.1 empty).1

theorem clearPair_event (p : PairNo) (s : State) : PairEvent p (cleared p s) (clearPair p s) ∧
    (clearPair p s).engine = s.engine := by
  have engine : (cleared p s).engine = s.engine := by rw [cleared, modPair_engine, moveTo_engine]
  rw [clearPair_eq]
  split
  · exact ⟨testOffers_pairEvent p _ _, (KeptByRequests.testOffers_engine _ _).trans engine⟩
  · exact ⟨.refl p _, engine⟩

/-- The state of a BARRED pair after CLEAR (R22). -/
def clearedState (u : PairUnit) : PairState := if u.line = true then .standby else .down

theorem clearedState_idle (u : PairUnit) : clearedState u ≠ .serving ∧ clearedState u ≠ .quiet ∧
    clearedState u ≠ .absent := by
  unfold clearedState
  split <;> decide

theorem cleared_unit (p : PairNo) (s : State) : (cleared p s).pair p =
    { (moveTo p (clearedState (s.pair p)) s).pair p with strikes := 0, wakeErrors := 0, noQuiet := false } :=
  modPair_pair_same _ p _

theorem clearPair_unit (p : PairNo) (s : State) : (clearPair p s).pair p = (cleared p s).pair p := by
  obtain ⟨out, -, present⟩ := clearedState_idle (s.pair p)
  have idle : ((cleared p s).pair p).state ≠ .serving := by
    rw [cleared_unit]
    exact fun serving => out ((moveTo_departure s out present).state.symm.trans serving)
  rw [clearPair_eq]
  split
  · exact testOffers_idle _ idle
  · rfl

/-- No entry to a state sets the prove-wanted flag (R150). -/
theorem moveTo_unwanted (p : PairNo) {st : PairState} (out : st ≠ .serving) (s : State) :
    ((moveTo p st s).pair p).proveWanted = false := by
  obtain ⟨d, unit⟩ := moveTo_pair p out s
  rw [unit]
  unfold PairUnit.enter PairUnit.stopWindow
  simp only [out, if_false]

theorem steady_fields {u v : PairUnit} (h : v.steady = u.steady) : v.strikes = u.strikes ∧ v.wakeErrors = u.wakeErrors ∧
    v.noQuiet = u.noQuiet ∧ v.n = u.n ∧ v.delay = u.delay ∧ v.trained = u.trained ∧ v.rate = u.rate := by
  have strikes := congrArg PairUnit.strikes h
  have errors := congrArg PairUnit.wakeErrors h
  have flag := congrArg PairUnit.noQuiet h
  have delay := congrArg PairUnit.delay h
  have trained := congrArg PairUnit.trained h
  exact ⟨strikes, errors, flag, steady_counters h, delay, trained, steady_rate h⟩

/-- A BARRED pair that CLEAR has moved, with what follows (R22). -/
theorem clear_followed {o : Output} (barred : (s.pair p).state = .barred) (reset : s.agent.reset = none)
    (k : Followed (emit o (clearPair p s)) t) : BesideOffers p s t ∧ EngineLeft s t ∧ ContextsLeft s t ∧
      (t.pair p).Entered s.now s.cfg (clearedState (s.pair p)) ∧ (t.pair p).strikes = 0 ∧
      (t.pair p).wakeErrors = 0 ∧ (t.pair p).noQuiet = false ∧ (t.pair p).proveWanted = false ∧
      (t.pair p).n = (s.pair p).n ∧
      (t.pair p).delay = (s.pair p).delay ∧ (t.pair p).trained = (s.pair p).trained ∧
      (t.pair p).rate = (if (s.pair p).line = true then (s.pair p).rate else 0) := by
  obtain ⟨out, awake, present⟩ := clearedState_idle (s.pair p)
  obtain ⟨event, engine⟩ := clearPair_event p s
  have departure : Departure p (clearedState (s.pair p)) s (moveTo p (clearedState (s.pair p)) s) :=
    moveTo_departure s out present
  have idle : ¬ InService (s.pair p) := by simp [InService, barred]
  have unit : (emit o (clearPair p s)).pair p =
      { (moveTo p (clearedState (s.pair p)) s).pair p with strikes := 0, wakeErrors := 0, noQuiet := false } := by
    rw [emit_pair, clearPair_unit, cleared_unit]
  have steady := k.steady (p := p) (by rw [unit]; exact fun quiet => awake (departure.state.symm.trans quiet))
  have entered : ((emit o (clearPair p s)).pair p).Entered s.now s.cfg (clearedState (s.pair p)) := by
    rw [unit]
    exact departure.enters
  have counters : ((moveTo p (clearedState (s.pair p)) s).pair p).n = (s.pair p).n := by
    obtain ⟨d, moved⟩ := moveTo_pair p out s
    obtain ⟨-, -, -, -, -, -, n, -⟩ := enter_kept s.now s.cfg (clearedState (s.pair p))
      (leavingUnit (clearedState (s.pair p)) d (s.pair p))
    rw [moved, n, leavingUnit, if_neg (c := _ ∨ _) idle]
    split
    · exact steady_counters (cutUnit_steady _)
    · rfl
  obtain ⟨trained, delay, -⟩ := departure.record
  obtain ⟨strikes, errors, flag, n, delay', trained', rate⟩ := steady_fields steady
  rw [unit] at strikes errors flag n delay' trained' rate
  replace n := n.trans counters
  replace delay' := delay'.trans delay
  replace trained' := trained'.trans trained
  replace rate := rate.trans departure.rate
  refine ⟨(cleared_acts p s).offers (v := emit o (clearPair p s)) (fun q other => ?_) ?_ k reset,
    k.engineLeft (t := emit o (clearPair p s)) engine, fun c => ?_, entered_of_steady steady entered, strikes, errors,
    flag, ?_, n, delay', trained', ?_⟩
  · rw [cleared, modPair_pair_other _ _ _ other]
    exact moveTo_grown other out
  · exact event.trans (emit_pairEvent p o _)
  · rw [k.follows.contexts c, emit_cls, event.cls c, cleared, modPair_cls]
    exact onlyPair_contexts (moveTo_onlyPair _ idle) c
  · rw [steady_wanted steady, unit]
    exact moveTo_unwanted p out s
  · rw [rate]
    unfold clearedState
    cases (s.pair p).line <;> rfl

end Clear

/-! ## RESET -/

section Reset

variable {p : PairNo} {s t : State}

theorem clearHorizons_pairs (p : PairNo) (s : State) : (clearHorizons p s).pairs = s.pairs ∧
    (clearHorizons p s).engine = s.engine ∧ (clearHorizons p s).notices = s.notices := ⟨rfl, rfl, rfl⟩

theorem setHorizon_horizon (c d : ClassNo) (p q : PairNo) (h : Option Seq) (s : State) :
    (setHorizon c p h s).horizon d q = if d = c ∧ q = p then h else s.horizon d q := by
  by_cases same : d = c
  · subst same
    rw [State.horizon, setHorizon, modClass_cls_same, get_set]
    simp [State.horizon]
  · rw [State.horizon, setHorizon, modClass_cls_other _ _ _ same, if_neg (fun h => same h.1)]
    rfl

theorem clearHorizons_horizon (p : PairNo) (c : ClassNo) (s : State) : (clearHorizons p s).horizon c p = none := by
  have each : c = 0 ∨ c = 1 ∨ c = 2 := by revert c; decide
  unfold clearHorizons eachClass
  rw [setHorizon_horizon, setHorizon_horizon, setHorizon_horizon]
  rcases each with rfl | rfl | rfl <;> simp

theorem restored_unit (p : PairNo) (s : State) : (restored p s).pair p =
    { PairUnit.resetRecord ((moveTo p .down s).pair p) with
      control := if (s.pair p).state = .quiet then .wake else .retrain } := by
  rw [restored, tell_pair_same, State.pair, (clearHorizons_pairs p _).1, ← State.pair, modPair_pair_same]

theorem restored_down (p : PairNo) (s : State) : ((restored p s).pair p).state = .down := by
  rw [restored_unit]
  exact (moveTo_departure s (by decide) (by decide)).state

/-- The record, the horizons and the report to the transceiver touch neither the notices nor the engine. -/
theorem restored_away (p : PairNo) (s : State) : (restored p s).notices = (moveTo p .down s).notices ∧
    (restored p s).engine = (moveTo p .down s).engine := by
  unfold restored
  generalize moveTo p .down s = x
  exact ⟨rfl, rfl⟩

theorem resetPair_event (p : PairNo) (s : State) : PairEvent p (restored p s) (resetPair p s) ∧
    (resetPair p s).engine = s.engine := by
  have engine : (restored p s).engine = s.engine := by rw [(restored_away p s).2, moveTo_engine]
  rw [resetPair_eq]
  split
  · exact ⟨testOffers_pairEvent p _ _, (KeptByRequests.testOffers_engine _ _).trans engine⟩
  · exact ⟨.refl p _, engine⟩

theorem resetPair_unit (p : PairNo) (s : State) : (resetPair p s).pair p = (restored p s).pair p := by
  rw [resetPair_eq]
  split
  · exact testOffers_idle _ (by rw [restored_down]; decide)
  · rfl

theorem reset_unraised {src : Source} (other : src ≠ .gapLoss) (p : PairNo) (s : State) :
    Unraised src s (resetPair p s) := by
  have moved : Unraised src s (restored p s) := by
    have source : (restored p s).source src = (moveTo p .down s).source src := by
      rw [State.source, (restored_away p s).1]
      rfl
    exact unraised_trans (moveTo_unraised other p .down s) (unraised_of_source source)
  rw [resetPair_eq]
  split
  · exact unraised_trans moved (unraised_of_source (testOffers_source ..))
  · exact moved

theorem wentDown_reset {u : PairUnit} {c : Control} (h : u.WentDown) :
    PairUnit.WentDown { PairUnit.resetRecord u with control := c } := by
  obtain ⟨line, rate, ctl, handover, slot, -⟩ := h
  exact ⟨line, rate, ctl, handover, slot, rfl⟩

/-- What RESET counts on its pair (R12, R19, R23). -/
theorem moveTo_down_counters (p : PairNo) (s : State) : ∃ d : Count, ((moveTo p .down s).pair p).n = { (s.pair p).n with
      cutOff := (s.pair p).n.cutOff + (if ((s.pair p).state = .serving ∨ (s.pair p).state = .waking) ∧
        (s.pair p).handover.isSome = true then 1 else 0)
      movedDiscard := (s.pair p).n.movedDiscard + d } ∧ d.toNat ≤ (s.pair p).queue.length ∧
    ((s.pair p).state ≠ .serving → (s.pair p).state ≠ .waking → d = 0) := by
  by_cases service : (s.pair p).state = .serving ∨ (s.pair p).state = .waking
  · obtain ⟨d, bound, counters⟩ := moveTo_discards (p := p) (s := s) .down service
    refine ⟨d, ?_, bound, fun x y => absurd service (not_or.2 ⟨x, y⟩)⟩
    rw [counters]
    simp only [service, true_and]
  · obtain ⟨d, unit⟩ := moveTo_pair p (st := .down) (by decide) s
    obtain ⟨-, -, -, -, -, -, n, -⟩ := enter_kept s.now s.cfg .down (leavingUnit .down d (s.pair p))
    refine ⟨0, ?_, Nat.zero_le _, fun _ _ => rfl⟩
    rw [unit, n, leavingUnit, if_neg service, if_pos (.inr (.inl rfl)), steady_counters (cutUnit_steady _)]
    simp [service]

/-- A pair that RESET has taken DOWN, with what follows (R23). -/
theorem reset_followed {o : Output} (reset : s.agent.reset = none) (k : Followed (emit o (resetPair p s)) t) :
    BesideOffers p s t ∧ EngineLeft s t ∧ t.pair p = { PairUnit.resetRecord ((moveTo p .down s).pair p) with
      control := if (s.pair p).state = .quiet then .wake else .retrain } ∧
      (∀ c : ClassNo, t.horizon c p = none) ∧ Unraised .pairDown s t := by
  obtain ⟨event, engine⟩ := resetPair_event p s
  have unit : (emit o (resetPair p s)).pair p = (restored p s).pair p := by rw [emit_pair, resetPair_unit]
  refine ⟨(restored_acts p s).offers (v := emit o (resetPair p s)) (fun q other => ?_)
    (event.trans (emit_pairEvent p o _)) k reset, k.engineLeft (t := emit o (resetPair p s)) engine, ?_, fun c => ?_,
    k.unraised (t := emit o (resetPair p s)) (reset_unraised (by decide) p s) (by decide)⟩
  · have same : (restored p s).pair q = (moveTo p .down s).pair q := by
      rw [restored, Machine.tell, emit_pair, modPair_pair_other _ _ _ other, State.pair, (clearHorizons_pairs p _).1,
        ← State.pair, modPair_pair_other _ _ _ other]
    rw [same]
    exact moveTo_grown other (by decide)
  · rw [(k.ensues.pairs p).still (.inl (by rw [unit, restored_down])), unit, restored_unit]
  · rw [horizon_of_context (k.follows.contexts c), State.horizon, emit_cls, event.cls c]
    exact clearHorizons_horizon p c _

end Reset

/-- Settles O44: both commands with what the offer tests leave. -/
theorem pairsCleared : Obligations.PairsCleared := by
  intro q o p s opened named free
  refine ⟨fun admits barred => ?_, fun admits present => ?_⟩
  · obtain ⟨r, t, ran, answers, k⟩ := pairCommand_followed (c := .clear q o) (a := .clear) opened rfl admits named free
      (by simp [actionAccepted, barred])
    exact ⟨t, ran, answers, clear_followed (s := counted s) barred opened.2 k⟩
  · obtain ⟨r, t, ran, answers, k⟩ := pairCommand_followed (c := .reset q o) (a := .reset) opened rfl admits named free
      (by simp [actionAccepted, present])
    obtain ⟨beside, engine, unit, horizons, unraised⟩ := reset_followed (s := counted s) (p := p) opened.2 k
    have departure : Departure p .down (counted s) (moveTo p .down (counted s)) :=
      moveTo_departure _ (by decide) (by decide)
    obtain ⟨d, counters, bound, outside⟩ := moveTo_down_counters p (counted s)
    refine ⟨t, ran, answers, beside, engine, ?_⟩
    rw [unit]
    exact ⟨departure.enters, wentDown_reset (moveTo_wentDown p _), departure.record.1, rfl, rfl, rfl, rfl, rfl, rfl, rfl, rfl,
      rfl, ⟨d, counters, bound, outside⟩, horizons, unraised⟩

end Sys2Proof.Proofs
end

