-- ==== Sys2Proof/Proofs/FallsQuiet.lean ====
section
/-! PROOF. The entry to QUIET, by a QUIET-AGREE taken and by one handed over (R174, R175, R177). -/

namespace Sys2Proof.Proofs
open Sys2Proof Sys2Proof.Machine Sys2Proof.Laws

section Units

variable {now : Nat} {b : BondSettings} {u v : PairUnit}

/-- The unit of a pair that enters QUIET (R177). -/
def fallenUnit (now : Nat) (b : BondSettings) (u : PairUnit) : PairUnit :=
  { PairUnit.enter now b .quiet (cutUnit false u) with
    quietEntry := quietEntryTime now, n := { u.n with quietEntry := u.n.quietEntry + 1 }, control := .lowPower }

/-- No kind is permitted in QUIET (R29). -/
theorem keepPermitted_quiet (ks : List Ctl) : keepPermitted .quiet ks = [] :=
  List.filter_eq_nil_iff.2 fun k _ => by cases k <;> decide

/-- A QUIET pair with its line down hands nothing over and takes no entry, also after a demand wake (R4, R99, R103). -/
theorem PairSteps.of_quiet (h : PairSteps now b u v) (quiet : u.state = .quiet) (line : u.line = false) :
    v = u ∨ v = wokenUnit now b u := by
  induction h with
  | refl => exact .inl rfl
  | @tail x y _ step ih =>
    have shut : x.line = false ∧ x.state ≠ .serving ∧ (x.state = .quiet → x = u) := by
      rcases ih with rfl | rfl
      · exact ⟨line, by rw [quiet]; decide, fun _ => rfl⟩
      · have waking : (wokenUnit now b u).state = .waking := (enter_entered now b .waking u).1
        rw [waking]
        exact ⟨(enter_line now b .waking u).trans (by simp [line]), by decide, fun asleep => by cases asleep⟩
    obtain ⟨down, unserving, asleep⟩ := shut
    have closed : x.canBegin ≠ true := fun free => by
      obtain ⟨-, up, -⟩ := canBegin_iff.1 free
      rw [down] at up
      cases up
    cases step with
    | control k ks h free => exact absurd free closed
    | prove m h free => exact absurd free closed
    | data h free => exact absurd free closed
    | place e serving => exact absurd serving unserving
    | wake asleep' => exact .inr (by rw [asleep asleep'])

/-- What an entry to QUIET or WAKING leaves of a pair unit (R7, R29 c, R179). -/
theorem enter_asleep {st : PairState} (asleep : st = .quiet ∨ st = .waking) (now : Nat) (b : BondSettings)
    (u : PairUnit) : (PairUnit.enter now b st u).ctl = keepPermitted st u.ctl ∧
      (PairUnit.enter now b st u).rate = u.rate ∧ (u.line = false → (PairUnit.enter now b st u).line = false) := by
  rw [enter_rate, enter_line]
  rcases asleep with rfl | rfl
  · exact ⟨rfl, rfl, fun _ => rfl⟩
  · exact ⟨rfl, rfl, fun line => line⟩

/-- The fields that O19 names, as the entry to QUIET leaves them (R177). -/
def FellQuiet (now : Nat) (u v : PairUnit) : Prop :=
  v.line = false ∧ v.ctl = [] ∧ v.handover = none ∧ v.rate = u.rate ∧ v.delay = u.delay ∧ v.strikes = u.strikes ∧
    v.wakeErrors = u.wakeErrors ∧ v.quietEntry = quietEntryTime now ∧ v.n.quietEntry = u.n.quietEntry + 1

theorem fallenUnit_fell (now : Nat) (b : BondSettings) (u : PairUnit) : FellQuiet now u (fallenUnit now b u) := by
  have steady := cutUnit_steady u
  obtain ⟨delay, strikes, errors, -, -, -, -, -, handover, -⟩ := enter_kept now b .quiet (cutUnit false u)
  obtain ⟨ctl, rate, -⟩ := enter_asleep (.inl rfl) now b (cutUnit false u)
  obtain ⟨strikes', errors', -, -, delay', -, rate'⟩ := steady_fields steady
  exact ⟨enter_line now b .quiet (cutUnit false u), ctl.trans (keepPermitted_quiet _), handover.trans (cutUnit_handover false u),
    rate.trans rate', delay.trans delay', strikes.trans strikes', errors.trans errors', rfl, rfl⟩

theorem FellQuiet.woken (h : FellQuiet now u v) : FellQuiet now u (wokenUnit now b v) := by
  obtain ⟨line, ctl, handover, rate, delay, strikes, errors, entry, n⟩ := h
  obtain ⟨delay', strikes', errors', -, entry', -, n', -, handover', -⟩ := enter_kept now b .waking v
  obtain ⟨ctl', rate', line'⟩ := enter_asleep (.inr rfl) now b v
  rw [ctl] at ctl'
  exact ⟨line' line, ctl', handover'.trans handover, rate'.trans rate, delay'.trans delay, strikes'.trans strikes,
    errors'.trans errors, entry'.trans entry, (congrArg PairCounters.quietEntry n').trans n⟩

theorem wokenUnit_entered (now : Nat) (b : BondSettings) (u : PairUnit) : (wokenUnit now b u).Entered now b .waking ∧
    (wokenUnit now b u).control = .wake ∧ (wokenUnit now b u).wakeCause = some .demand :=
  ⟨enter_entered now b .waking u, rfl, rfl⟩

theorem fallenUnit_entered (now : Nat) (b : BondSettings) (u : PairUnit) : (fallenUnit now b u).Entered now b .quiet ∧
    (fallenUnit now b u).control = .lowPower := ⟨enter_entered now b .quiet (cutUnit false u), rfl⟩

end Units

section Falls

variable {p : PairNo} {s t : State}

theorem enterQuiet_pair (p : PairNo) (s : State) : (enterQuiet p s).pair p = fallenUnit s.now s.cfg (s.pair p) := by
  have cut : (cutHandover false p s).pair p = cutUnit false (s.pair p) := by rw [cutHandover_pair, if_pos rfl]
  have now : (cutHandover false p s).now = s.now := cutHandover_now false p s
  have cfg : (cutHandover false p s).cfg = s.cfg := settingsKept_cfg (cutHandover_actsOn false p s).settings
  have n : (PairUnit.enter s.now s.cfg .quiet (cutUnit false (s.pair p))).n = (s.pair p).n := by
    obtain ⟨-, -, -, -, -, -, n, -⟩ := enter_kept s.now s.cfg .quiet (cutUnit false (s.pair p))
    exact n.trans (steady_counters (cutUnit_steady _))
  unfold enterQuiet
  rw [pairExit_pair, tell_pair_same, modPair_pair_same, enterState, modPair_pair_same, cut, now, cfg, fallenUnit, n,
    modPair_now, now]

theorem enterQuiet_actsOn (p : PairNo) (s : State) : ActsOn p s (enterQuiet p s) :=
  ((((cutHandover_actsOn false p s).trans (enterState_actsOn p .quiet _)).trans (modPair_actsOn rfl)).trans
    (tell_actsOn p _ _)).trans (pairExit_actsOn p p _)

theorem enterQuiet_unraised {src : Source} (other : src ≠ .gapLoss) (p : PairNo) (s : State) :
    Unraised src s (enterQuiet p s) := by
  have before := cutHandover_source false p s src
  unfold enterQuiet
  generalize cutHandover false p s = x at before
  refine unraised_trans (unraised_of_source (t := Machine.tell p .lowPower _) ?_) ((pairExit_gathered p _).unraised src other)
  rw [← before]
  rfl

theorem quietEntryTime_early {now : Nat} (early : now < 4294967296000000) : quietEntryTime now = now / 1000000 := by
  have seconds : now / 1000000 < 4294967296 := by omega
  simp only [quietEntryTime, if_pos seconds]

theorem enterQuiet_now (p : PairNo) (s : State) : (enterQuiet p s).now = s.now := by
  rw [enterQuiet, (pairExit_pairs p _).2.2, tell_now, modPair_now, enterState, modPair_now, cutHandover_now]

/-- What the entry to QUIET leaves, with a demand wake that may follow it (R103, R177). -/
theorem enterQuiet_followed (reset : s.agent.reset = none) (k : Followed (enterQuiet p s) t) : Beside p s t ∧
    (((t.pair p).Entered s.now s.cfg .quiet ∧ (t.pair p).control = .lowPower) ∨
      ((t.pair p).Entered s.now s.cfg .waking ∧ (t.pair p).control = .wake ∧ (t.pair p).wakeCause = some .demand)) ∧
    (t.pair p).line = false ∧ (t.pair p).ctl = [] ∧ (t.pair p).handover = none ∧
    (t.pair p).rate = (s.pair p).rate ∧ (t.pair p).delay = (s.pair p).delay ∧
    (t.pair p).strikes = (s.pair p).strikes ∧ (t.pair p).wakeErrors = (s.pair p).wakeErrors ∧
    (s.now < 4294967296000000 → (t.pair p).quietEntry = s.now / 1000000) ∧
    (t.pair p).n.quietEntry = (s.pair p).n.quietEntry + 1 ∧ Unraised .pairDown s t ∧
    (∀ d : ClassNo, t.horizon d p = none) := by
  have unit := enterQuiet_pair p s
  have cfg : (enterQuiet p s).cfg = s.cfg := settingsKept_cfg (enterQuiet_actsOn p s).settings
  have entered : ((enterQuiet p s).pair p).Entered s.now s.cfg .quiet := by
    rw [unit]
    exact (fallenUnit_entered ..).1
  have fell : FellQuiet s.now (s.pair p) ((enterQuiet p s).pair p) := by
    rw [unit]
    exact fallenUnit_fell s.now s.cfg (s.pair p)
  have steps := (k.ensues.pairs p).of_quiet entered.1 fell.1
  rw [enterQuiet_now, cfg] at steps
  have after : FellQuiet s.now (s.pair p) (t.pair p) := by
    rcases steps with e | e <;> rw [e]
    · exact fell
    · exact fell.woken
  obtain ⟨line, ctl, handover, rate, delay, strikes, errors, entry, n⟩ := after
  refine ⟨(enterQuiet_actsOn p s).beside k.follows reset, ?_, line, ctl, handover, rate, delay, strikes, errors,
    fun early => ?_, n, k.unraised (enterQuiet_unraised (by decide) p s) (by decide), fun d => ?_⟩
  · rcases steps with e | e <;> rw [e]
    · exact .inl ⟨entered, by rw [unit]; exact (fallenUnit_entered ..).2⟩
    · exact .inr (wokenUnit_entered ..)
  · exact entry.trans (quietEntryTime_early early)
  · rw [horizon_of_context (k.follows.contexts d), enterQuiet, pairExit_horizon, if_pos rfl]

end Falls

/-! ## Its own QUIET-AGREE handed over -/

section HandedOver

variable {p : PairNo} {h : Handover} {s : State}

/-- The pair unit with a handed-over fragment counted (R4, R19, R71). -/
def sentUnit (f : Fragment) (u : PairUnit) : PairUnit :=
  { u with
    handover := none
    windowCount := if u.window.isSome then u.windowCount + f.len else u.windowCount
    n := { u.n with fragOut := u.n.fragOut + 1, octetOut := u.n.octetOut + BitVec.ofNat 32 f.len } }

/-- The same with a DATA entry gone from the queue (R72). -/
def sentData (f : Fragment) (u : PairUnit) : PairUnit :=
  { sentUnit f u with queue := u.queue.tail, busy := u.busy && !u.queue.tail.isEmpty }

theorem handedOver_data (now : Nat) {f : Fragment} (u : PairUnit) (data : f.kind = 0) :
    u.handedOver now f = (sentData f u).restartIdle now := if_pos data

theorem handedOver_control (now : Nat) {f : Fragment} (u : PairUnit) (control : f.kind ≠ 0) :
    u.handedOver now f = sentUnit f u := if_neg control

theorem exec_handoverComplete (taking : s.taking) :
    exec (.handoverComplete p) s = .next (handoverComplete p s.silent) :=
  takeCommand_taking (handoverComplete p) taking

theorem handoverComplete_agreed (busy : (s.pair p).handover = some h) (agree : h.frag.kind = 6)
    (serving : (s.pair p).state = .serving) : handoverComplete p s =
      settle (enterQuiet p (modPair p (PairUnit.handedOver s.now h.frag) s)) := by
  have still : ((modPair p (PairUnit.handedOver s.now h.frag) s).pair p).state = .serving := by
    rw [modPair_pair_same, (KeptByEvents.handedOver_settled _ _ _).state, serving]
  simp only [handoverComplete, busy, agree, still]
  rfl

end HandedOver

/-- Settles O19. -/
theorem pairFallsQuiet : Obligations.PairFallsQuiet := by
  intro c p h s opened
  refine ⟨fun receives length epoch idle => ?_, fun serving cases => ?_⟩
  · rw [exec_quietAgree opened.1 receives length epoch, takeAgree, if_neg]
    rw [heard_pair]
    simpa [PairUnit.heard, ← not_or, imp_iff_not_or] using idle
  · rcases cases with ⟨rfl, length, epoch, offering⟩ | ⟨rfl, f, busy, agree⟩
    · have receives : Receives p s := by
        rw [Receives, serving]
        decide
      have ran := exec_quietAgree opened.1 receives length epoch
      have unit := heard_pair p 0 s
      have fallen : takeAgree p (Heard p 0 s) = settle (enterQuiet p (Heard p 0 s)) := by
        rw [takeAgree, if_pos (by simp [serving, unit, PairUnit.heard, offering])]
      rw [fallen] at ran
      have start : ActsOn p s (Heard p 0 s) := (silent_actsOn p s).trans (modPair_actsOn rfl)
      have reset := start.reset opened.2
      have k : Followed (enterQuiet p (Heard p 0 s)) (settle (enterQuiet p (Heard p 0 s))) :=
        settle_followed ((enterQuiet_actsOn p _).reset reset)
      obtain ⟨-, facts⟩ := enterQuiet_followed reset k
      rw [unit] at facts
      exact ⟨_, ran, (start.trans (enterQuiet_actsOn p _)).beside k.follows opened.2, facts⟩
    · have unit := handedOver_control s.now (s.silent.pair p) (f := f.frag) (by rw [agree]; decide)
      have ran := exec_handoverComplete (p := p) opened.1
      have done : handoverComplete p s.silent =
        settle (enterQuiet p (modPair p (PairUnit.handedOver s.now f.frag) s.silent)) := handoverComplete_agreed busy agree serving
      rw [done] at ran
      have start : ActsOn p s (modPair p (PairUnit.handedOver s.now f.frag) s.silent) :=
        (silent_actsOn p s).trans (modPair_actsOn (by rw [unit]; rfl))
      have reset := start.reset opened.2
      have k := settle_followed ((enterQuiet_actsOn p _).reset reset)
      obtain ⟨-, facts⟩ := enterQuiet_followed reset k
      rw [modPair_pair_same, unit] at facts
      exact ⟨_, ran, (start.trans (enterQuiet_actsOn p _)).beside k.follows opened.2, facts⟩

end Sys2Proof.Proofs
end

