-- ==== Sys2Proof/Proofs/HandoverDone.lean ====
section
/-! PROOF. A completed handover that puts its pair in no other state (R4, R19, R71, R72, R172). -/

namespace Sys2Proof.Proofs
open Sys2Proof Sys2Proof.Machine Sys2Proof.Laws

section Sent

variable {u v : PairUnit} {f : Fragment}

/-- What a restart of the idle timer leaves, and what it sets in SERVING (R172). -/
theorem restartIdle_fields (now : Nat) (u : PairUnit) :
    { u.restartIdle now with idleTimer := u.idleTimer, idle := u.idle, offerSpent := u.offerSpent } = u ∧
      (u.state = .serving → (u.restartIdle now).idle = false ∧ (u.restartIdle now).offerSpent = false ∧
        (u.restartIdle now).idleTimer = u.idleStart now) := by
  unfold PairUnit.restartIdle
  split
  · exact ⟨rfl, fun _ => ⟨rfl, rfl, rfl⟩⟩
  · next other => exact ⟨rfl, fun serving => absurd serving other⟩

/-- The fields of a pair unit that O20 names and that no choice of a handover touches. -/
theorem steady_handed (h : v.steady = u.steady) : v.supervision = u.supervision ∧ v.window = u.window ∧
    v.windowCount = u.windowCount ∧ v.busy = u.busy ∧ v.idle = u.idle ∧ v.offerSpent = u.offerSpent ∧
    v.idleTimer = u.idleTimer := by
  have supervision := congrArg PairUnit.supervision h
  have window := congrArg PairUnit.window h
  have count := congrArg PairUnit.windowCount h
  have busy := congrArg PairUnit.busy h
  have idle := congrArg PairUnit.idle h
  have spent := congrArg PairUnit.offerSpent h
  have timer := congrArg PairUnit.idleTimer h
  exact ⟨supervision, window, count, busy, idle, spent, timer⟩

end Sent

section Done

variable {p : PairNo} {h : Handover} {s : State}

theorem handoverComplete_plain (busy : (s.pair p).handover = some h)
    (plain : h.frag.kind ≠ 6 ∨ (s.pair p).state ≠ .serving) :
    handoverComplete p s = settle (modPair p (PairUnit.handedOver s.now h.frag) s) := by
  have still : ((modPair p (PairUnit.handedOver s.now h.frag) s).pair p).state = (s.pair p).state := by
    rw [modPair_pair_same, (KeptByEvents.handedOver_settled _ _ _).state]
  simp only [handoverComplete, busy, still]
  rw [if_neg (by simpa [imp_iff_not_or] using plain)]

/-- What a handover of `f` leaves of its pair, whatever is chosen after it (R4, R19, R71). -/
theorem handedOver_kept (now : Nat) (f : Fragment) (u : PairUnit) :
    ∃ (i : Option Timer) (x y : Bool) (q : List Desc) (b : Bool), u.handedOver now f =
      { sentUnit f u with idleTimer := i, idle := x, offerSpent := y, queue := q, busy := b } := by
  by_cases data : f.kind = 0
  · have restarted := (restartIdle_fields now (sentData f u)).1
    rw [handedOver_data now u data]
    unfold PairUnit.restartIdle
    split
    · exact ⟨_, _, _, _, _, rfl⟩
    · exact ⟨_, _, _, _, _, rfl⟩
  · exact ⟨_, _, _, _, _, handedOver_control now u data⟩

/-- The fields that a handover of `f` leaves and counts, for every kind (R4, R19, R71). -/
theorem handedOver_counted (now : Nat) (f : Fragment) (u : PairUnit) : (u.handedOver now f).state = u.state ∧
    u.RecordKept (u.handedOver now f) ∧ (u.handedOver now f).rate = u.rate ∧
    (u.handedOver now f).supervision = u.supervision ∧
    (u.handedOver now f).n = { u.n with
      fragOut := u.n.fragOut + 1, octetOut := u.n.octetOut + BitVec.ofNat 32 (f.payload.length + 7) } ∧
    (u.handedOver now f).window = u.window ∧
    (u.window.isSome = true → (u.handedOver now f).windowCount = u.windowCount + (f.payload.length + 7)) := by
  obtain ⟨i, x, y, q, b, unit⟩ := handedOver_kept now f u
  rw [unit]
  exact ⟨rfl, ⟨rfl, rfl, rfl, rfl, rfl, rfl, rfl, rfl, rfl⟩, rfl, rfl, rfl, rfl, fun running => if_pos running⟩

/-- What the handover of a DATA entry leaves (R72, R172). -/
theorem handedOver_taken (now : Nat) {f : Fragment} (u : PairUnit) (data : f.kind = 0) :
    (u.handedOver now f).queue = u.queue.tail ∧
      ((u.handedOver now f).busy = true ↔ u.busy = true ∧ u.queue.tail ≠ []) ∧
      (u.state = .serving → (u.handedOver now f).idle = false ∧ (u.handedOver now f).offerSpent = false ∧
        (u.handedOver now f).idleTimer = u.idleStart now) := by
  obtain ⟨rest, restarts⟩ := restartIdle_fields now (sentData f u)
  have queue := congrArg PairUnit.queue rest
  have busy := congrArg PairUnit.busy rest
  rw [handedOver_data now u data]
  refine ⟨queue, ?_, restarts⟩
  rw [show ((sentData f u).restartIdle now).busy = (u.busy && !u.queue.tail.isEmpty) from busy]
  simp

end Done

/-- Settles O20. -/
theorem handoverCounted : Obligations.HandoverCounted := by
  intro p s opened
  refine ⟨fun idle => ?_, fun h busy awake plain => ?_⟩
  · rw [exec_handoverComplete opened.1]
    simp only [handoverComplete]
    have still : (s.silent.pair p).handover = none := idle
    rw [still]
  · have ran := exec_handoverComplete (p := p) opened.1
    have done : handoverComplete p s.silent = settle (modPair p (PairUnit.handedOver s.now h.frag) s.silent) :=
      handoverComplete_plain busy plain
    rw [done] at ran
    obtain ⟨state, record, rate, supervision, n, window, count⟩ := handedOver_counted s.now h.frag (s.silent.pair p)
    have kept := record
    obtain ⟨-, -, -, -, -, -, -, -, cfg⟩ := kept
    have start : ActsOn p s (modPair p (PairUnit.handedOver s.now h.frag) s.silent) :=
      (silent_actsOn p s).trans (modPair_actsOn cfg)
    have k := settle_followed (start.reset opened.2)
    have awake' : ((modPair p (PairUnit.handedOver s.now h.frag) s.silent).pair p).state ≠ .quiet := by
      rw [modPair_pair_same, state]
      exact awake
    have steady := k.steady awake'
    have queue := (k.ensues.pairs p).queue awake'
    rw [modPair_pair_same] at steady queue
    obtain ⟨supervision', window', count', busy', idle', spent', timer'⟩ := steady_handed steady
    refine ⟨_, ran, start.beside k.follows opened.2, fun c => k.follows.contexts c, (steady_state steady).trans state,
      recordKept_of_steady steady record, (steady_rate steady).trans rate, supervision'.trans supervision,
      (steady_counters steady).trans n, window'.trans window, fun running => count'.trans (count running), ?_⟩
    split
    · next data =>
      obtain ⟨left, working, restarts⟩ := handedOver_taken s.now (s.silent.pair p) data
      rw [left] at queue
      refine ⟨queue, by rw [busy']; exact working, fun serving => ?_⟩
      obtain ⟨idle, spent, timer⟩ := restarts serving
      exact ⟨idle'.trans idle, spent'.trans spent, timer'.trans timer⟩
    · next control =>
      rw [handedOver_control s.now (s.silent.pair p) control] at queue busy' idle' timer'
      exact ⟨queue, busy', idle', timer'⟩

end Sys2Proof.Proofs
end

