-- ==== Sys2Proof/Proofs/OffersTested.lean ====
section
/-! PROOF. The offer tests of a list of pairs (R173), the idle timer and the offer timer (R172, R176 b). -/

namespace Sys2Proof.Proofs
open Sys2Proof Sys2Proof.Machine Sys2Proof.Laws

/-! ## The tests of a list in increasing pair number -/

section Tested

variable {p q : PairNo} {ps : List PairNo} {n : Nat} {s t : State}

theorem offerPasses_iff : offerPasses s p = true ↔ (s.pair p).ReadyToOffer = true ∧ s.cfg.minimumAwake < s.awakeCount := by
  simp only [offerPasses, mayAgree, PairUnit.ReadyToOffer, Bool.and_eq_true, decide_eq_true_eq]
  tauto

theorem readyToOffer_serving {u : PairUnit} (ready : u.ReadyToOffer = true) : u.state = .serving ∧ u.offering = false := by
  simp only [PairUnit.ReadyToOffer, Bool.and_eq_true, decide_eq_true_eq, Bool.not_eq_true'] at ready
  obtain ⟨⟨⟨⟨⟨⟨serving, -⟩, -⟩, -⟩, offering⟩, -⟩, -⟩ := ready
  exact ⟨serving, offering⟩

theorem testOffers_cons (p : PairNo) (ps : List PairNo) (s : State) :
    testOffers (p :: ps) s = testOffers ps (testOffer p s) := rfl

theorem testOffer_pair_other (other : q ≠ p) (s : State) : (testOffer p s).pair q = s.pair q := by
  by_cases passed : offerPasses s p = true
  · rw [testOffer_passed passed, modPair_pair_other _ _ _ other]
  · rw [testOffer_failed passed]

theorem testOffers_outside (outside : q ∉ ps) (s : State) : (testOffers ps s).pair q = s.pair q := by
  induction ps generalizing s with
  | nil => rfl
  | cons p ps ih =>
    rw [List.mem_cons, not_or] at outside
    rw [testOffers_cons, ih outside.2, testOffer_pair_other outside.1]

/-- A list loses one member of a filter where the test fails for that member alone. -/
theorem length_filter_without {f g : PairNo → Bool} {l : List PairNo} (nodup : l.Nodup) (m : p ∈ l) (inside : f p = true)
    (outside : g p = false) (same : ∀ q : PairNo, q ≠ p → g q = f q) : (l.filter f).length = (l.filter g).length + 1 := by
  induction l with
  | nil => cases m
  | cons x l ih =>
    obtain ⟨fresh, nodup⟩ := List.nodup_cons.1 nodup
    by_cases first : x = p
    · subst first
      have rest : l.filter f = l.filter g := List.filter_congr fun q m => (same q fun e => fresh (e ▸ m)).symm
      rw [List.filter_cons_of_pos inside, List.filter_cons_of_neg (by simp [outside]), rest, List.length_cons]
    · have later := ih nodup ((List.mem_cons.1 m).resolve_left fun e => first e.symm)
      rw [List.filter_cons, List.filter_cons, same x first]
      split
      · rw [List.length_cons, List.length_cons, later]
      · exact later

/-- A pair that begins to offer lowers the awake count by one (R170, R173). -/
theorem awakeCount_offered (serving : (s.pair p).state = .serving) (idle : (s.pair p).offering = false) (o : Timer) :
    s.awakeCount = (modPair p (offerBegun o) s).awakeCount + 1 := by
  have begun : (offerBegun o (s.pair p)).offering = true := steady_offering (raise_steady _ _)
  refine length_filter_without (p := p) (by decide) (mem_allPairs p) (by simp [serving, idle]) ?_ fun q other => ?_
  · rw [modPair_pair_same, begun, Bool.not_true, Bool.and_false]
  · rw [modPair_pair_other _ _ _ other]

theorem offersAmong_congr (same : ∀ r ∈ ps, t.pair r = s.pair r) (cfg : t.cfg = s.cfg) :
    OffersAmong ps n t q ↔ OffersAmong ps n s q := by
  have lower : (ps.filter fun r => r < q && (t.pair r).ReadyToOffer) =
      ps.filter fun r => r < q && (s.pair r).ReadyToOffer :=
    List.filter_congr fun r m => by rw [same r m]
  unfold OffersAmong
  rw [lower, cfg]
  exact and_congr_right fun m => by rw [same q m]

theorem testOffer_cfg (p : PairNo) (s : State) : (testOffer p s).cfg = s.cfg ∧ (testOffer p s).now = s.now := by
  by_cases passed : offerPasses s p = true
  · rw [testOffer_passed passed]
    exact ⟨rfl, rfl⟩
  · rw [testOffer_failed passed]
    exact ⟨rfl, rfl⟩

theorem offersAmong_head (below : ∀ r ∈ ps, p < r) : OffersAmong (p :: ps) n s p ↔
    (s.pair p).ReadyToOffer = true ∧ s.cfg.minimumAwake < n := by
  have lower : ((p :: ps).filter fun r => r < p && (s.pair r).ReadyToOffer) = [] :=
    List.filter_eq_nil_iff.2 fun r m => by
      rcases List.mem_cons.1 m with rfl | m
      · simp
      · simp [lt_asymm (below r m)]
  simp only [OffersAmong, lower, List.length_nil, Nat.add_zero, List.mem_cons_self, true_and]

theorem offersAmong_tail (below : ∀ r ∈ ps, p < r) (other : q ≠ p) : OffersAmong (p :: ps) n s q ↔
    OffersAmong ps (n - (if (s.pair p).ReadyToOffer = true then 1 else 0)) s q := by
  simp only [OffersAmong, List.mem_cons, other, false_or]
  refine and_congr_right fun m => and_congr_right fun _ => ?_
  rw [List.filter_cons]
  by_cases ready : (s.pair p).ReadyToOffer = true
  · simp only [below q m, ready, decide_true, Bool.and_self, if_true, List.length_cons]
    omega
  · simp only [ready, Bool.and_false, Bool.false_eq_true, if_false, Nat.sub_zero]

theorem offersAmong_mono {m : Nat} (le : m ≤ s.cfg.minimumAwake) : ¬ OffersAmong ps m s q := fun among => by
  obtain ⟨-, -, count⟩ := among
  omega

/-- Which pairs begin to offer when a list is tested in increasing pair number, and as which units (R173). -/
theorem testOffers_pair (sorted : ps.Pairwise (· < ·)) (s : State) (q : PairNo) : ((testOffers ps s).pair q =
    offerBegun (offerTime s) (s.pair q) ∧ OffersAmong ps s.awakeCount s q) ∨
      ((testOffers ps s).pair q = s.pair q ∧ ¬ OffersAmong ps s.awakeCount s q) := by
  induction ps generalizing s with
  | nil => exact .inr ⟨rfl, fun among => by cases among.1⟩
  | cons p ps ih =>
    obtain ⟨below, sorted⟩ := List.pairwise_cons.1 sorted
    have fresh : p ∉ ps := fun m => lt_irrefl p (below p m)
    have kept : ∀ r ∈ ps, (testOffer p s).pair r = s.pair r := fun r m =>
      testOffer_pair_other (by rintro rfl; exact fresh m) s
    obtain ⟨cfg, now⟩ := testOffer_cfg p s
    have count : (testOffer p s).awakeCount =
        s.awakeCount - (if (s.pair p).ReadyToOffer = true then 1 else 0) ∨
          s.awakeCount ≤ s.cfg.minimumAwake ∧ (testOffer p s).awakeCount = s.awakeCount := by
      by_cases passed : offerPasses s p = true
      · obtain ⟨ready, -⟩ := offerPasses_iff.1 passed
        obtain ⟨serving, idle⟩ := readyToOffer_serving ready
        rw [testOffer_passed passed, if_pos ready, awakeCount_offered serving idle (offerTime s)]
        exact .inl (Nat.add_sub_cancel ..).symm
      · rw [testOffer_failed passed]
        by_cases ready : (s.pair p).ReadyToOffer = true
        · exact .inr ⟨not_lt.1 fun above => passed (offerPasses_iff.2 ⟨ready, above⟩), rfl⟩
        · rw [if_neg ready]
          exact .inl rfl
    rw [testOffers_cons]
    by_cases same : q = p
    · subst same
      rw [testOffers_outside fresh, offersAmong_head below, ← offerPasses_iff]
      by_cases passed : offerPasses s q = true
      · rw [testOffer_passed passed, modPair_pair_same]
        exact .inl ⟨rfl, passed⟩
      · rw [testOffer_failed passed]
        exact .inr ⟨rfl, passed⟩
    · have tail : OffersAmong (p :: ps) s.awakeCount s q ↔ OffersAmong ps (testOffer p s).awakeCount (testOffer p s) q := by
        rw [offersAmong_tail below same, offersAmong_congr kept cfg]
        rcases count with count | ⟨low, count⟩
        · rw [count]
        · rw [count]
          exact iff_of_false (offersAmong_mono (le_trans (Nat.sub_le ..) low)) (offersAmong_mono low)
      rw [tail, ← testOffer_pair_other same s]
      have timer : offerTime (testOffer p s) = offerTime s := by rw [offerTime, cfg, now, offerTime]
      rw [← timer]
      exact ih sorted (testOffer p s)

end Tested

/-! ## The idle timer -/

section Idle

variable {p : PairNo} {tm : Timer} {s : State}

/-- The unit of a pair whose idle timer has expired (R172). -/
def idled (u : PairUnit) : PairUnit := { u with idleTimer := none, idle := u.cfg.quietWait != 0 }

theorem idleTimerExpiry_eq (p : PairNo) (s : State) :
    idleTimerExpiry p s = chooseHandover p (testOffer p (modPair p idled s)) := rfl

/-- The offer test that follows the expiry (R173). -/
theorem idled_passes (serving : (s.pair p).state = .serving) : offerPasses (modPair p idled s) p = true ↔
    (s.pair p).queue = [] ∧ (s.pair p).offerSpent = false ∧ (s.pair p).offering = false ∧ (s.pair p).noQuiet = false ∧
      (s.pair p).cfg.quietWait ≠ 0 ∧ s.cfg.minimumAwake < s.awakeCount := by
  have awake : (modPair p idled s).awakeCount = s.awakeCount := awakeCount_congr fun q => by
    rw [modPair_pair]
    split
    · next same => subst same; exact ⟨rfl, rfl⟩
    · exact ⟨rfl, rfl⟩
  rw [offerPasses_iff, awake, modPair_pair_same, modPair_cfg]
  simp only [PairUnit.ReadyToOffer, idled, serving, decide_true, Bool.true_and, Bool.and_eq_true, List.isEmpty_iff,
    Bool.not_eq_true', bne_iff_ne, ne_eq]
  tauto

/-- What the idle timer's expiry leaves of a SERVING pair (R172, R173). -/
theorem idleTimerExpiry_acts (serving : (s.pair p).state = .serving) : OnlyPair p s (idleTimerExpiry p s) ∧
    if offerPasses (modPair p idled s) p = true then
      ((idleTimerExpiry p s).pair p).steady = { (s.pair p).steady with
        idle := (s.pair p).cfg.quietWait != 0, idleTimer := none, offering := true, offerSpent := true
        offerTimer := some (offerTime s) } ∧ ((idleTimerExpiry p s).pair p).sends .quietOffer
    else ((idleTimerExpiry p s).pair p).steady = { (s.pair p).steady with
      idle := (s.pair p).cfg.quietWait != 0, idleTimer := none } := by
  rw [idleTimerExpiry_eq]
  by_cases passed : offerPasses (modPair p idled s) p = true
  · have begun : testOffer p (modPair p idled s) = raiseCtl .quietOffer p (modPair p
        (fun u => { idled u with offering := true, offerSpent := true, offerTimer := some (offerTime s) }) s) := by
      rw [testOffer, if_pos passed, modPair_modPair]
      rfl
    rw [begun, if_pos passed]
    obtain ⟨only, -, steady, sent⟩ := modPair_chosen (k := .quietOffer) (p := p) (s := s)
      (f := fun u => { idled u with offering := true, offerSpent := true, offerTimer := some (offerTime s) }) rfl
      (by rw [idled, serving]; decide) (by rw [idled, serving]; rfl)
    exact ⟨only, steady, sent⟩
  · rw [testOffer_failed passed, if_neg passed]
    obtain ⟨only, -, steady⟩ := modPair_chooses (f := idled) (p := p) (s := s) rfl (by rw [idled, serving]; decide)
    exact ⟨only, steady⟩

end Idle

/-! ## The offer timer -/

section Lapsed

variable {p q : PairNo} {s t : State}

/-- The unit of a pair whose offer has lapsed (R176). -/
def lapsed (u : PairUnit) : PairUnit :=
  dropCtl [.quietOffer, .quietAgree] { u with offering := false, offerTimer := none }

theorem lapse_eq (p : PairNo) (s : State) :
    lapse p s = testOffers (allPairs.filter (· ≠ p)) (modPair p lapsed s) := rfl

theorem lapsed_actsOn (p : PairNo) (s : State) : ActsOn p s (modPair p lapsed s) := modPair_actsOn rfl

theorem lapse_pair (p : PairNo) (s : State) : (lapse p s).pair p = lapsed (s.pair p) := by
  rw [lapse_eq, testOffers_outside (by simp), modPair_pair_same]

theorem lapsed_awakeCount (serving : (s.pair p).state = .serving) : (modPair p lapsed s).awakeCount =
    (allPairs.filter fun r => (s.pair r).state = .serving && (!(s.pair r).offering || r = p)).length := by
  unfold State.awakeCount
  congr 1
  refine List.filter_congr fun r _ => ?_
  rw [modPair_pair]
  split
  · next same => subst same; simp [lapsed, dropCtl]
  · next other => simp [other]

/-- The other pairs after a lapse: each that passes the test with the raised awake count begins to offer (R173, R176). -/
theorem lapse_pair_other (other : q ≠ p) (serving : (s.pair p).state = .serving) :
    ((lapse p s).pair q = offerBegun (offerTime s) (s.pair q) ∧ OffersAmong (allPairs.filter (· ≠ p))
      (allPairs.filter fun r => (s.pair r).state = .serving && (!(s.pair r).offering || r = p)).length s q) ∨
    ((lapse p s).pair q = s.pair q ∧ ¬ OffersAmong (allPairs.filter (· ≠ p))
      (allPairs.filter fun r => (s.pair r).state = .serving && (!(s.pair r).offering || r = p)).length s q) := by
  have sorted : (allPairs.filter (· ≠ p)).Pairwise (· < ·) := List.Pairwise.filter _ (by decide)
  have tested := testOffers_pair sorted (modPair p lapsed s) q
  have same : ∀ r ∈ allPairs.filter (· ≠ p), (modPair p lapsed s).pair r = s.pair r := fun r m =>
    modPair_pair_other _ _ _ (by simpa using (List.mem_filter.1 m).2)
  rwa [lapsed_awakeCount serving, offersAmong_congr same rfl, ← lapse_eq, modPair_pair_other _ _ _ other] at tested

/-- What the end of an offer leaves, with what follows (R173, R176 b). -/
theorem lapse_followed (serving : (s.pair p).state = .serving) (reset : s.agent.reset = none)
    (k : Followed (lapse p s) t) : BesideOffers p s t ∧ ContextsLeft s t ∧
      (t.pair p).steady = { (s.pair p).steady with offering := false, offerTimer := none } ∧
      Ctl.quietOffer ∉ (t.pair p).ctl ∧ Ctl.quietAgree ∉ (t.pair p).ctl ∧
      ∀ q : PairNo, q ≠ p → (s.pair q).state = .serving →
        ((t.pair q).offering = true ↔ (s.pair q).offering = true ∨ OffersAmong (allPairs.filter (· ≠ p))
          (allPairs.filter fun r => (s.pair r).state = .serving && (!(s.pair r).offering || r = p)).length s q) ∧
        ((s.pair q).offering = false → (t.pair q).offering = true → (t.pair q).sends .quietOffer ∧
          (t.pair q).offerTimer = some ⟨t.now, ms (2 * s.cfg.aliveInterval)⟩) := by
  have event : PairEvent p (modPair p lapsed s) (lapse p s) := testOffers_pairEvent p _ _
  have unit := lapse_pair p s
  have state : (lapsed (s.pair p)).state = .serving := serving
  have awake : ((lapse p s).pair p).state ≠ .quiet := by rw [unit, state]; decide
  have ctl := (k.ensues.pairs p).ctl awake
  have steady := k.steady awake
  rw [unit] at ctl steady
  refine ⟨(lapsed_actsOn p s).offers (fun q other => by rw [modPair_pair_other _ _ _ other]; exact id) event k reset,
    fun c => ?_, steady, fun m => ?_, fun m => ?_, fun q other active => ?_⟩
  · rw [k.follows.contexts c, event.cls c, modPair_cls]
  · simpa [lapsed, dropCtl] using ctl _ m
  · simpa [lapsed, dropCtl] using ctl _ m
  · have now : t.now = s.now := by
      rw [k.ensues.now, lapse_eq, testOffers_pairs]
      rfl
    rcases lapse_pair_other other serving with ⟨unit, among⟩ | ⟨unit, outside⟩
    · have begun : (offerBegun (offerTime s) (s.pair q)).steady =
          { (s.pair q).steady with offering := true, offerSpent := true, offerTimer := some (offerTime s) } :=
        raise_steady _ _
      have open' : (offerBegun (offerTime s) (s.pair q)).state = .serving := (raise_state _ _).trans active
      have awake : ((lapse p s).pair q).state ≠ .quiet := by rw [unit, open']; decide
      have sent : ((lapse p s).pair q).sends .quietOffer := by
        rw [unit]
        exact raise_sends (by rw [active]; rfl)
      have steady := (k.steady awake).trans (by rw [unit, begun])
      have timer := congrArg PairUnit.offerTimer steady
      rw [now]
      exact ⟨iff_of_true (congrArg PairUnit.offering steady) (.inr among), fun _ _ => ⟨k.sends awake sent, timer⟩⟩
    · have steady := k.steady (p := q) (by rw [unit, active]; decide)
      have offering := (steady_offering steady).trans (congrArg PairUnit.offering unit)
      rw [offering]
      exact ⟨⟨.inl, fun x => x.resolve_right outside⟩, fun idle offers => by rw [idle] at offers; cases offers⟩

end Lapsed

/-- Settles O22. -/
theorem idleAndOfferExpiry : Obligations.IdleAndOfferExpiry := by
  intro p tm s opened serving
  refine ⟨fun running => ?_, fun running => ⟨fun begun => ?_, fun unbegun => ?_⟩⟩
  · have ran : exec (.idleTimerExpiry p) s = .next (idleTimerExpiry p (reach tm s.silent)) :=
      expire_running (timer := fun s => (s.pair p).idleTimer) opened.1 running
    obtain ⟨only, acts⟩ := idleTimerExpiry_acts (p := p) (s := reach tm s.silent) serving
    have passes := idled_passes (p := p) (s := reach tm s.silent) serving
    refine ⟨_, ran, only, ?_⟩
    split
    · next ready =>
      rw [if_pos (passes.2 ready)] at acts
      obtain ⟨steady, sent⟩ := acts
      obtain ⟨-, -, -, -, wait, -⟩ := ready
      have idle : (((reach tm s.silent).pair p).cfg.quietWait != 0) = true := bne_iff_ne.2 wait
      rw [idle] at steady
      exact ⟨steady, sent⟩
    · next shut =>
      rw [if_neg fun passed => shut (passes.1 passed)] at acts
      exact acts
  · have ran : exec (.offerTimerExpiry p) s = .next (offerTimerExpiry p (reach tm s.silent)) :=
      expire_running (timer := fun s => (s.pair p).offerTimer) opened.1 running
    rw [ran, offerTimerExpiry, if_pos (show ((reach tm s.silent).pair p).agreeBegun = true from begun)]
  · have ran : exec (.offerTimerExpiry p) s = .next (offerTimerExpiry p (reach tm s.silent)) :=
      expire_running (timer := fun s => (s.pair p).offerTimer) opened.1 running
    have ends : offerTimerExpiry p (reach tm s.silent) = settle (lapse p (reach tm s.silent)) :=
      if_neg (by rw [show ((reach tm s.silent).pair p).agreeBegun = false from unbegun]; decide)
    rw [ends] at ran
    have event : PairEvent p (modPair p lapsed (reach tm s.silent)) (lapse p (reach tm s.silent)) :=
      testOffers_pairEvent p _ _
    have reset : (lapse p (reach tm s.silent)).agent.reset = none := (congrArg Agent.reset event.agent).trans opened.2
    exact ⟨_, ran, lapse_followed (s := reach tm s.silent) serving opened.2 (settle_followed reset)⟩

end Sys2Proof.Proofs
end

