-- ==== Sys2Proof/Proofs/Choices.lean ====
section
/-! SUPPORT. Which pair the pair choice and the wake choice give (R77-R79, R99, R103). -/

namespace Sys2Proof.Proofs
open Sys2Proof Sys2Proof.Machine Sys2Proof.Laws

/-! ## A choice along increasing pair numbers -/

section Pick

variable {better : PairNo → PairNo → Prop} {pick : PairNo → PairNo → PairNo}

/-- The choice after one more pair (R79). -/
def pickNext (pick : PairNo → PairNo → PairNo) (best : Option PairNo) (q : PairNo) : Option PairNo :=
  match best with
  | none => some q
  | some p => some (pick p q)

theorem foldl_pick_some (trans : ∀ p q r : PairNo, better p q → better q r → better p r)
    (picks : ∀ p q : PairNo, p < q → (pick p q = q ∧ better q p) ∨ (pick p q = p ∧ better p q)) (l : List PairNo)
    (p : PairNo) (sorted : (p :: l).Pairwise (· < ·)) : ∃ r : PairNo, l.foldl (pickNext pick) (some p) = some r ∧
      r ∈ p :: l ∧ ∀ x ∈ p :: l, x ≠ r → better r x := by
  induction l generalizing p with
  | nil => exact ⟨p, rfl, List.mem_singleton_self p, fun x m other => absurd (List.mem_singleton.1 m) other⟩
  | cons q l ih =>
    obtain ⟨below, sorted'⟩ := List.pairwise_cons.1 sorted
    obtain ⟨above, sorted''⟩ := List.pairwise_cons.1 sorted'
    rcases picks p q (below q List.mem_cons_self) with ⟨picked, beats⟩ | ⟨picked, beats⟩
    · obtain ⟨r, chosen, m, best⟩ := ih q sorted'
      refine ⟨r, by rw [List.foldl_cons, pickNext, picked, chosen], List.mem_cons_of_mem _ m, fun x mx other => ?_⟩
      rcases List.mem_cons.1 mx with rfl | mx
      · by_cases same : r = q
        · rw [same]
          exact beats
        · exact trans r q x (best q List.mem_cons_self (Ne.symm same)) beats
      · exact best x mx other
    · obtain ⟨r, chosen, m, best⟩ := ih p
        (List.pairwise_cons.2 ⟨fun x mx => below x (List.mem_cons_of_mem _ mx), sorted''⟩)
      refine ⟨r, by rw [List.foldl_cons, pickNext, picked, chosen], ?_, fun x mx other => ?_⟩
      · rcases List.mem_cons.1 m with rfl | m
        · exact List.mem_cons_self
        · exact List.mem_cons_of_mem _ (List.mem_cons_of_mem _ m)
      · rcases List.mem_cons.1 mx with rfl | mx
        · exact best x List.mem_cons_self other
        · rcases List.mem_cons.1 mx with rfl | mx
          · by_cases same : r = p
            · rw [same]
              exact beats
            · exact trans r p x (best p List.mem_cons_self (Ne.symm same)) beats
          · exact best x (List.mem_cons_of_mem _ mx) other

/-- The choice among the pairs that pass a test: none where none passes, and otherwise the best of them. -/
theorem foldl_pick (trans : ∀ p q r : PairNo, better p q → better q r → better p r)
    (picks : ∀ p q : PairNo, p < q → (pick p q = q ∧ better q p) ∨ (pick p q = p ∧ better p q))
    (f : PairNo → Bool) :
    ((allPairs.filter f).foldl (pickNext pick) none = none ∧ ∀ p : PairNo, f p = false) ∨
      ∃ r : PairNo, (allPairs.filter f).foldl (pickNext pick) none = some r ∧ f r = true ∧
        ∀ x : PairNo, f x = true → x ≠ r → better r x := by
  have sorted : (allPairs.filter f).Pairwise (· < ·) := List.Pairwise.filter _ (by decide)
  have members : ∀ x : PairNo, x ∈ allPairs.filter f ↔ f x = true := fun x => by simp [mem_allPairs]
  cases passing : allPairs.filter f with
  | nil =>
    refine .inl ⟨rfl, fun p => ?_⟩
    have outside := (members p).not
    rw [passing] at outside
    simpa using outside
  | cons p l =>
    rw [passing] at sorted members
    obtain ⟨r, chosen, m, best⟩ := foldl_pick_some trans picks l p sorted
    exact .inr ⟨r, chosen, (members r).1 m, fun x fx other => best x ((members x).2 fx) other⟩

end Pick

/-! ## The pair choice -/

section Chosen

variable {s : State} {m : PairMap} {l : Nat} {p : PairNo}

/-- Pair `p` comes before `q` for a fragment of length `l`: a smaller estimate, an equal one and a larger R, or the lower
number (R79). -/
def Nearer (s : State) (l : Nat) (p q : PairNo) : Prop :=
  (s.pair p).estimate l < (s.pair q).estimate l ∨ ((s.pair p).estimate l = (s.pair q).estimate l ∧
    ((s.pair q).rate < (s.pair p).rate ∨ ((s.pair q).rate = (s.pair p).rate ∧ p < q)))

theorem nearer_trans (s : State) (l : Nat) (p q r : PairNo) (h : Nearer s l p q) (k : Nearer s l q r) :
    Nearer s l p r := by
  simp only [Nearer, Fin.lt_def] at *
  omega

theorem betterPair_nearer (s : State) (l : Nat) (p q : PairNo) (below : p < q) :
    (betterPair s l p q = q ∧ Nearer s l q p) ∨ (betterPair s l p q = p ∧ Nearer s l p q) := by
  simp only [betterPair, Nearer, Fin.lt_def] at below ⊢
  split
  · next wins =>
    simp only [Bool.or_eq_true, Bool.and_eq_true, decide_eq_true_eq] at wins
    exact .inl ⟨rfl, by omega⟩
  · next loses =>
    simp only [Bool.or_eq_true, Bool.and_eq_true, decide_eq_true_eq] at loses
    exact .inr ⟨rfl, by omega⟩

theorem choosePair_eq (s : State) (m : PairMap) (l : Nat) :
    choosePair s m l = (allPairs.filter (eligible s m)).foldl (pickNext (betterPair s l)) none := rfl

/-- Pair choice gives none where no pair is eligible, and otherwise the nearest of those that are (R77-R79). -/
theorem choosePair_cases (s : State) (m : PairMap) (l : Nat) :
    (choosePair s m l = none ∧ ∀ p : PairNo, eligible s m p = false) ∨
      ∃ p : PairNo, choosePair s m l = some p ∧ eligible s m p = true ∧
        ∀ r : PairNo, eligible s m r = true → r ≠ p → Nearer s l p r := by
  rw [choosePair_eq]
  exact foldl_pick (nearer_trans s l) (betterPair_nearer s l) (eligible s m)

theorem choosePair_none_iff : choosePair s m l = none ↔ ∀ p : PairNo, eligible s m p = false := by
  rcases choosePair_cases s m l with ⟨none', shut⟩ | ⟨p, chosen, fits, -⟩
  · exact iff_of_true none' shut
  · rw [chosen]
    exact iff_of_false (by simp) fun shut => by rw [shut p] at fits; cases fits

theorem choosePair_nearest (chosen : choosePair s m l = some p) : ∀ r : PairNo, eligible s m r = true → r ≠ p →
    Nearer s l p r := by
  rcases choosePair_cases s m l with ⟨none', -⟩ | ⟨q, chosen', -, nearest⟩
  · rw [none'] at chosen
    cases chosen
  · rw [chosen'] at chosen
    cases chosen
    exact nearest

/-- The one pair that is eligible is chosen. -/
theorem choosePair_only (fits : eligible s m p = true) (alone : ∀ r : PairNo, eligible s m r = true → r = p) :
    choosePair s m l = some p := by
  rcases choosePair_cases s m l with ⟨-, shut⟩ | ⟨q, chosen, fits', -⟩
  · rw [shut p] at fits
    cases fits
  · rw [chosen, alone q fits']

end Chosen

/-! ## The wake choice -/

section Fastest

variable {s : State} {f : PairNo → Bool} {p : PairNo}

/-- Pair `p` is asked before `q`: a larger R, or an equal one and the lower number (R99, R103). -/
def Faster (s : State) (p q : PairNo) : Prop :=
  (s.pair q).rate < (s.pair p).rate ∨ ((s.pair q).rate = (s.pair p).rate ∧ p < q)

theorem fastestPair_eq (s : State) (f : PairNo → Bool) : fastestPair s f =
    (allPairs.filter f).foldl (pickNext fun p q => if (s.pair p).rate < (s.pair q).rate then q else p) none := by
  unfold fastestPair
  congr 1
  funext best q
  cases best with
  | none => rfl
  | some p => exact (apply_ite some ..).symm

theorem fastestPair_cases (s : State) (f : PairNo → Bool) : (fastestPair s f = none ∧ ∀ p : PairNo, f p = false) ∨
    ∃ p : PairNo, fastestPair s f = some p ∧ f p = true ∧ ∀ q : PairNo, f q = true → q ≠ p → Faster s p q := by
  rw [fastestPair_eq]
  refine foldl_pick (fun p q r h k => ?_) (fun p q below => ?_) f
  · simp only [Faster, Fin.lt_def] at *
    omega
  · simp only [Faster, Fin.lt_def] at below ⊢
    split
    · exact .inl ⟨rfl, by omega⟩
    · exact .inr ⟨rfl, by omega⟩

end Fastest

end Sys2Proof.Proofs
end

