-- ==== Sys2Proof/Proofs/QueueMoved.lean ====
section
/-! PROOF. Where the entries of a withdrawn pair go (R12 b, R104). -/

namespace Sys2Proof.Proofs
open Sys2Proof Sys2Proof.Machine Sys2Proof.Laws

/-! ## Entries given back with no other pair open, and with one -/

section Given

variable {w q : PairNo} {s : State}

theorem giveBack_discarded {e : Desc} (shut : ∀ r : PairNo, (s.pair r).state ≠ .serving) : giveBack w e s =
    countPair w (fun n => { n with movedDiscard := n.movedDiscard + 1 }) s := by
  have none' : choosePair s e.allowed e.len = none := choosePair_none_iff.2 fun r => by simp [eligible, shut r]
  simp only [giveBack, none']

/-- With no pair SERVING every entry is discarded and counted (R104). -/
theorem giveBackAll_discarded (es : List Desc) (s : State) (shut : ∀ r : PairNo, (s.pair r).state ≠ .serving) :
    ((giveBackAll w es s).pair w).n.movedDiscard = (s.pair w).n.movedDiscard + BitVec.ofNat 32 es.length ∧
      (giveBackAll w es s).classes = s.classes := by
  unfold giveBackAll
  induction es generalizing s with
  | nil => exact ⟨by simp, rfl⟩
  | cons e es ih =>
    have first := giveBack_discarded (w := w) (e := e) shut
    obtain ⟨count, classes⟩ := ih (giveBack w e s) fun r => by
      rw [first, countPair, modPair_pair]
      split
      · next same => subst same; exact shut r
      · exact shut r
    rw [List.foldl_cons, count, classes, first, countPair, modPair_pair_same, modPair_classes]
    refine ⟨?_, rfl⟩
    rw [List.length_cons, Nat.add_comm es.length 1, BitVec.ofNat_add, BitVec.add_assoc]
    rfl

/-- Pair `q` alone takes entries that are given back: it is SERVING, does not offer and has room for `n` of them. -/
def TakesAlone (q : PairNo) (n : Nat) (s : State) : Prop :=
  (s.pair q).state = .serving ∧ (s.pair q).offering = false ∧ (s.pair q).queue.length + n ≤ 32 ∧
    ∀ r : PairNo, r ≠ q → (s.pair r).state ≠ .serving

theorem giveBack_moved {e : Desc} {n : Nat} (alone : TakesAlone q (n + 1) s) (allowed : e.allowed.holds q = true) :
    giveBack w e s = countClass e.cls (fun n => { n with moved := n.moved + 1 }) (append q e s) := by
  obtain ⟨serving, awake, room, others⟩ := alone
  have chosen : choosePair s e.allowed e.len = some q := by
    refine choosePair_only ?_ fun r fits => ?_
    · have short : (s.pair q).queue.length < 32 := by omega
      simp [eligible, serving, awake, allowed, short]
    · simp only [eligible, Bool.and_eq_true, decide_eq_true_eq] at fits
      by_contra other
      exact others r other fits.1.1.1
  simp only [giveBack, chosen]

/-- With one pair open for them all the entries are appended to its queue in queue order and counted in their classes
(R104). -/
theorem giveBackAll_moved (other : q ≠ w) (es : List Desc) (s : State) (alone : TakesAlone q es.length s)
    (allowed : ∀ e ∈ es, e.allowed.holds q = true) :
    (giveBackAll w es s).pair q = { s.pair q with queue := (s.pair q).queue ++ es } ∧
      (giveBackAll w es s).pair w = s.pair w ∧ ∀ c : ClassNo, ((giveBackAll w es s).cls c).n.moved =
        (s.cls c).n.moved + BitVec.ofNat 32 (es.filter fun e => e.cls = c).length := by
  unfold giveBackAll
  induction es generalizing s with
  | nil => exact ⟨by simp, rfl, fun c => by simp⟩
  | cons e es ih =>
    have first := giveBack_moved (w := w) alone (allowed e List.mem_cons_self)
    have unit : (giveBack w e s).pair q = { s.pair q with queue := (s.pair q).queue ++ [e] } := by
      rw [first, countClass_pair, append, modPair_pair_same]
    have rest : ∀ r : PairNo, r ≠ q → (giveBack w e s).pair r = s.pair r := fun r off => by
      rw [first, countClass_pair, append, modPair_pair_other _ _ _ off]
    obtain ⟨serving, awake, room, others⟩ := alone
    obtain ⟨queue, same, moved⟩ := ih (giveBack w e s)
      ⟨by rw [unit]; exact serving, by rw [unit]; exact awake,
        by rw [unit, List.length_append]; simp only [List.length_cons, List.length_nil] at room ⊢; omega,
        fun r off => by rw [rest r off]; exact others r off⟩
      fun x m => allowed x (List.mem_cons_of_mem _ m)
    rw [List.foldl_cons, queue, same, unit, rest w (Ne.symm other)]
    refine ⟨by simp, rfl, fun c => ?_⟩
    rw [moved c, first, countClass, modClass_cls, List.filter_cons]
    by_cases here : c = e.cls
    · subst here
      simp only [if_true, decide_true, List.length_cons]
      rw [Nat.add_comm _ 1, BitVec.ofNat_add, ← BitVec.add_assoc]
      rfl
    · rw [if_neg here, if_neg (by simpa using Ne.symm here)]
      rfl

end Given

/-! ## The withdrawal -/

section Withdrawal

variable {p q : PairNo} {st : PairState} {s : State}

theorem givenBack_eq (p : PairNo) (s : State) : givenBack p s = (s.pair p).queue.drop
    (if ((s.pair p).handover.any fun h => h.frag.kind = 0) = true then 1 else 0) := by
  unfold givenBack cutUnit
  split
  · next idle => simp [idle]
  · next h busy =>
    by_cases data : h.frag.kind = 0
    · simp only [busy, Option.any_some, data, if_true, decide_true, List.drop_one]
    · simp only [busy, Option.any_some, data, if_false, decide_false, Bool.false_eq_true, List.drop_zero]

theorem outbound_moved {m n : ClassCounters} (h : outbound m = outbound n) : m.moved = n.moved := by
  have moved := congrArg ClassCounters.moved h
  exact moved

/-- What a withdrawal leaves comes from the entries given back alone, but for the unit of its pair (R12, R104). -/
theorem moveTo_given (service : InService (s.pair p)) (other : q ≠ p) (c : ClassNo) :
    (moveTo p st s).pair q = (giveBackAll p (givenBack p s) (emptied p st s)).pair q ∧
      ((moveTo p st s).pair p).n.movedDiscard =
        ((giveBackAll p (givenBack p s) (emptied p st s)).pair p).n.movedDiscard ∧
      ((moveTo p st s).cls c).n.moved = ((giveBackAll p (givenBack p s) (emptied p st s)).cls c).n.moved := by
  obtain ⟨-, -, -, -, -, -, n, -⟩ := enter_kept (departed p st s).now (departed p st s).cfg st ((departed p st s).pair p)
  have moved := outbound_moved ((pairExit_gathered p (giveBackAll p (givenBack p s) (emptied p st s))).counters c)
  rw [moveTo_eq, enterState, modPair_pair_other _ _ _ other, modPair_pair_same, n, modPair_cls,
    departed_inService service, withdrawTo_eq, pairExit_pair, pairExit_pair]
  exact ⟨rfl, rfl, moved⟩

theorem cutUnit_state (b : Bool) (u : PairUnit) : (cutUnit b u).state = u.state := by
  unfold cutUnit
  split <;> rfl

theorem cutUnit_discards (b : Bool) (u : PairUnit) : (cutUnit b u).n.movedDiscard = u.n.movedDiscard := by
  unfold cutUnit
  split
  · rfl
  · cases b <;> rfl

/-- A pair that is not SERVING stays so while a SERVING one is emptied for DOWN (R12). -/
theorem emptied_down (p r : PairNo) (s : State) : ((emptied p .down s).pair r).state =
    if r = p then .down else (s.pair r).state := by
  rw [emptied_pair]
  split
  · exact cutUnit_state true { s.pair p with state := .down }
  · rfl

theorem emptied_discards (p : PairNo) (st : PairState) (s : State) :
    ((emptied p st s).pair p).n.movedDiscard = (s.pair p).n.movedDiscard := by
  rw [emptied_pair, if_pos rfl]
  exact cutUnit_discards true { s.pair p with state := st }

/-- A SERVING pair that has gone down after `f` counted it, with what follows (R9, R12 b). -/
theorem downed_followed {f : PairCounters → PairCounters} {es : List Desc} (serving : (s.pair p).state = .serving)
    (other : q ≠ p)
    (entries : es = (s.pair p).queue.drop (if ((s.pair p).handover.any fun h => h.frag.kind = 0) = true then 1 else 0))
    (plain : (f (s.pair p).n).movedDiscard = (s.pair p).n.movedDiscard)
    (alone : ∀ r : PairNo, r ≠ p → r ≠ q → (s.pair r).state ≠ .serving)
    (k : Followed (raiseForPair .pairDown p (moveTo p .down (countPair p f s))) t) :
    ((s.pair q).state ≠ .serving →
      (t.pair p).n.movedDiscard = (s.pair p).n.movedDiscard + BitVec.ofNat 32 es.length ∧
        ∀ c : ClassNo, (t.cls c).n.moved = (s.cls c).n.moved) ∧
    ((s.pair q).state = .serving → (s.pair q).offering = false → (∀ e ∈ es, e.allowed.holds q = true) →
      (s.pair q).queue.length + es.length ≤ 32 → (s.pair q).queue ++ es <+: (t.pair q).queue ∧
        (t.pair p).n.movedDiscard = (s.pair p).n.movedDiscard ∧
        ∀ c : ClassNo, (t.cls c).n.moved =
          (s.cls c).n.moved + BitVec.ofNat 32 (es.filter fun e => e.cls = c).length) := by
  have counted : (countPair p f s).pair p = { s.pair p with n := f (s.pair p).n } := modPair_pair_same s p _
  have rest : ∀ r : PairNo, r ≠ p → (countPair p f s).pair r = s.pair r := fun r off => modPair_pair_other s p _ off
  have service : InService ((countPair p f s).pair p) := .inl (by rw [counted]; exact serving)
  have back : givenBack p (countPair p f s) = es := by rw [givenBack_eq, counted, entries]
  have state : ∀ r : PairNo, ((emptied p .down (countPair p f s)).pair r).state =
      if r = p then .down else (s.pair r).state := fun r => by
    rw [emptied_down]
    split
    · rfl
    · next off => rw [rest r off]
  have target : (emptied p .down (countPair p f s)).pair q = s.pair q := by
    rw [emptied_pair, if_neg other, rest q other]
  have discards : ((emptied p .down (countPair p f s)).pair p).n.movedDiscard = (s.pair p).n.movedDiscard := by
    rw [emptied_discards, counted]
    exact plain
  have classes : (emptied p .down (countPair p f s)).classes = s.classes := emptied_classes p .down (countPair p f s)
  have down : (raiseForPair .pairDown p (moveTo p .down (countPair p f s))).pair p =
      (moveTo p .down (countPair p f s)).pair p := raiseForPair_pair ..
  have still : t.pair p = (moveTo p .down (countPair p f s)).pair p := ((k.ensues.pairs p).still (.inl (by
    rw [down]
    exact (moveTo_departure (countPair p f s) (by decide) (by decide)).state))).trans down
  have moved : ∀ c : ClassNo, (t.cls c).n.moved = ((moveTo p .down (countPair p f s)).cls c).n.moved := fun c => by
    rw [k.ensues.moved c, raiseForPair_cls]
  have given := fun c : ClassNo => moveTo_given (st := .down) service other c
  rw [back] at given
  generalize emptied p .down (countPair p f s) = x at *
  obtain ⟨fromGiven, discarded, -⟩ := given 0
  refine ⟨fun shut => ?_, fun active awake allowed room => ?_⟩
  · obtain ⟨count, same⟩ := giveBackAll_discarded (w := p) es x fun r => by
      rw [state r]
      split
      · decide
      · next off =>
        by_cases here : r = q
        · rw [here]
          exact shut
        · exact alone r off here
    refine ⟨by rw [still, discarded, count, discards], fun c => ?_⟩
    rw [moved c, (given c).2.2, State.cls, same, classes]
    rfl
  · obtain ⟨queue, unit, counts⟩ := giveBackAll_moved (w := p) other es x ⟨by rw [target]; exact active,
      by rw [target]; exact awake, by rw [target]; exact room, fun r off => by
        rw [state r]
        split
        · decide
        · next here => exact alone r here off⟩ allowed
    have moving : (raiseForPair .pairDown p (moveTo p .down (countPair p f s))).pair q =
        { s.pair q with queue := (s.pair q).queue ++ es } := by
      rw [raiseForPair_pair, fromGiven, queue, target]
    have later := (k.ensues.pairs q).queue (by rw [moving, active]; decide)
    rw [moving] at later
    refine ⟨later, by rw [still, discarded, unit, discards], fun c => ?_⟩
    rw [moved c, (given c).2.2, counts c, State.cls, classes]
    rfl

end Withdrawal

/-- Settles O34. -/
theorem withdrawalMovesQueue : Obligations.WithdrawalMovesQueue := by
  intro p q es s opened serving other entries alone
  have ran := exec_lineDown (p := p) opened.1
  rw [lineDown_serving (s := s.silent) serving] at ran
  have acts : ActsOn p s.silent (raiseForPair .pairDown p (moveTo p .down (countPair p lineDownCounted s.silent))) :=
    (countedDown_actsOn p lineDownCounted s.silent).trans (raiseNotice_actsOn p _ _ _)
  obtain ⟨discarded, moved⟩ := downed_followed (s := s.silent) (f := lineDownCounted) serving other entries rfl alone
    (settle_followed (acts.reset opened.2))
  exact ⟨fun shut => ⟨_, ran, discarded shut⟩,
    fun active awake allowed room => ⟨_, ran, moved active awake allowed room⟩⟩

end Sys2Proof.Proofs
end

