-- ==== Sys2Proof/Proofs/PairSettings.lean ====
section
/-! PROOF. The writes of the PAIR group (R2, R75 c, R171, R189). -/

namespace Sys2Proof.Proofs
open Sys2Proof Sys2Proof.Machine Sys2Proof.Laws

/-! ## What a write of the PAIR group leaves -/

section Written

variable {p : PairNo} {s t u : State}

/-- The settings of pair `p` are those of another unit. -/
def withCfg (b : PairSettings) (u : PairUnit) : PairUnit := { u with cfg := b }

/-- Of the settings, those of pair `p` alone have changed, and no RESET-PART has become pending. -/
structure PairWritten (p : PairNo) (s t : State) : Prop where
  settings : SettingsKept (modPair p (withCfg (t.pair p).cfg) s) t
  reset : s.agent.reset = none → t.agent.reset = none

theorem settingsKept_withCfg {b : PairSettings} (h : SettingsKept s t) :
    SettingsKept (modPair p (withCfg b) s) (modPair p (withCfg b) t) := by
  obtain ⟨a1, a2, a3, a4, a5, a6, a7, pairs, rest⟩ := h
  refine ⟨a1, a2, a3, a4, a5, a6, a7, fun q => ?_, rest⟩
  rw [modPair_pair, modPair_pair]
  split
  · rfl
  · exact pairs q

theorem PairWritten.trans (h : PairWritten p s t) (k : PairWritten p t u) : PairWritten p s u where
  settings := by
    have first := settingsKept_withCfg (p := p) (b := (u.pair p).cfg) h.settings
    rw [modPair_modPair] at first
    exact SettingsKept_trans first k.settings
  reset x := k.reset (h.reset x)

theorem PairWritten.of_kept (settings : SettingsKept s t) (reset : s.agent.reset = none → t.agent.reset = none) :
    PairWritten p s t where
  settings := by
    obtain ⟨a1, a2, a3, a4, a5, a6, a7, pairs, rest⟩ := settings
    refine ⟨a1, a2, a3, a4, a5, a6, a7, fun q => ?_, rest⟩
    rw [modPair_pair]
    split
    · next same => rw [same]; rfl
    · exact pairs q
  reset := reset

theorem modPair_pairWritten {f : PairUnit → PairUnit} : PairWritten p s (modPair p f s) where
  settings := by
    refine ⟨rfl, rfl, rfl, rfl, rfl, rfl, rfl, fun q => ?_, fun _ => rfl, rfl, rfl, rfl, fun _ => ⟨rfl, rfl⟩,
      fun _ => rfl, rfl, rfl⟩
    rw [modPair_pair_same, modPair_pair, modPair_pair]
    split <;> rfl
  reset := id

theorem actsOn_pairWritten (h : ActsOn p s t) : PairWritten p s t := .of_kept h.settings h.reset

/-- What a request's write of the PAIR group is read by (R189). -/
def pairFigures (p : PairNo) (s : State) : PairSettings × Nat := ((s.pair p).cfg, (s.pair p).delay)

theorem modPair_figures {f : PairUnit → PairUnit} : pairFigures p (modPair p f s) =
    ((f (s.pair p)).cfg, (f (s.pair p)).delay) := by rw [pairFigures, modPair_pair_same]

theorem moveTo_figures {st : PairState} (out : st ≠ .serving) (s : State) :
    pairFigures p (moveTo p st s) = pairFigures p s := by
  obtain ⟨d, unit⟩ := moveTo_pair p out s
  obtain ⟨delay, -, -, -, -, cfg, -⟩ := enter_kept s.now s.cfg st (leavingUnit st d (s.pair p))
  obtain ⟨_, _, _, _, _, left⟩ := leavingUnit_left st d (s.pair p)
  rw [pairFigures, unit, cfg, delay, left]
  rfl

theorem tell_figures (c : Control) (s : State) : pairFigures p (Machine.tell p c s) = pairFigures p s := by
  rw [pairFigures, tell_pair_same]
  rfl

/-- The write of an allotment by the state it finds (R2). -/
theorem writeAllotment_cases (p : PairNo) (a : Allotment) (s : State) :
    let w := modPairCfg p (fun b => { b with allotment := a }) s
    ((a = .reserved ↔ (s.pair p).state = .absent) ∧ writeAllotment p a s = w) ∨
      (a = .reserved ∧ (s.pair p).state ≠ .absent ∧
        writeAllotment p a s = Machine.tell p .holdOff (moveTo p .absent w)) ∨
      (a = .bond ∧ (s.pair p).state = .absent ∧ writeAllotment p a s = Machine.tell p .train (moveTo p .down w)) := by
  have state : ((modPairCfg p (fun b => { b with allotment := a }) s).pair p).state = (s.pair p).state := by
    rw [modPairCfg, modPair_pair_same]
  by_cases absent : (s.pair p).state = .absent <;> cases a <;> simp [writeAllotment, state, absent]

theorem writeAllotment_written (p : PairNo) (a : Allotment) (s : State) : PairWritten p s (writeAllotment p a s) ∧
    pairFigures p (writeAllotment p a s) = ({ (s.pair p).cfg with allotment := a }, (s.pair p).delay) ∧
    (writeAllotment p a s).engine = s.engine := by
  have written : PairWritten p s (modPairCfg p (fun b => { b with allotment := a }) s) := modPair_pairWritten
  have figures : pairFigures p (modPairCfg p (fun b => { b with allotment := a }) s) =
    ({ (s.pair p).cfg with allotment := a }, (s.pair p).delay) := modPair_figures
  rcases writeAllotment_cases p a s with ⟨-, e⟩ | ⟨-, -, e⟩ | ⟨-, -, e⟩ <;> rw [e]
  · exact ⟨written, figures, rfl⟩
  · refine ⟨written.trans (actsOn_pairWritten ((moveTo_actsOn p .absent _).trans (tell_actsOn p _ _))), ?_, ?_⟩
    · rw [tell_figures, moveTo_figures (by decide), figures]
    · rw [tell_engine, moveTo_engine]
      rfl
  · refine ⟨written.trans (actsOn_pairWritten ((moveTo_actsOn p .down _).trans (tell_actsOn p _ _))), ?_, ?_⟩
    · rw [tell_figures, moveTo_figures (by decide), figures]
    · rw [tell_engine, moveTo_engine]
      rfl

theorem applyPair_written (p : PairNo) (x : PairItem) (s : State) : PairWritten p s (applyPair p x s) ∧
    pairFigures p (applyPair p x s) = writePair (pairFigures p s) x ∧ (applyPair p x s).engine = s.engine := by
  cases x
  case allotment v => exact writeAllotment_written p _ s
  all_goals
    simp only [applyPair, modPairCfg, writeQuietWait]
    exact ⟨modPair_pairWritten, modPair_figures, rfl⟩

theorem applyPairs_written (p : PairNo) (xs : List PairItem) (s : State) :
    PairWritten p s (xs.foldl (fun s x => applyPair p x s) s) := by
  induction xs generalizing s with
  | nil => exact .of_kept (Follows.refl s).settings id
  | cons x xs ih => exact (applyPair_written p x s).1.trans (ih _)

theorem testOffers_pairWritten (ps : List PairNo) (s : State) : PairWritten p s (testOffers ps s) ∧
    pairFigures p (testOffers ps s) = pairFigures p s := by
  have event := testOffers_pairEvent p ps s
  refine ⟨.of_kept event.settings fun x => (congrArg Agent.reset event.agent).trans x, ?_⟩
  rcases testOffers_offered ps s p with same | offered
  · rw [pairFigures, same, pairFigures]
  · obtain ⟨-, -, -, -, steady⟩ := offered
    have cfg := congrArg PairUnit.cfg steady
    have delay := congrArg PairUnit.delay steady
    exact Prod.ext cfg delay

/-! ## The values -/

theorem writePair_comm (b : PairSettings × Nat) (x y : PairItem)
    (names : SettingName.pair (pairName x) ≠ .pair (pairName y)) :
    writePair (writePair b x) y = writePair (writePair b y) x := by
  cases x <;> cases y <;> first | rfl | exact absurd rfl names

/-- An accepted PAIR item writes its value whatever was written before. -/
theorem checkPair_overwrites {x y : PairItem} {c : Bool} (accepted : checkPair x = .accept y c) :
    Overwrites writePair (fun x => .pair (pairName x)) y := by
  intro b z names
  cases x <;> simp only [checkPair, checkQty, checkEnum] at accepted
  case allotment v | echoConsent v =>
    cases v <;> cases accepted
    cases z <;> simp [pairName, writePair] at names ⊢
  all_goals
    cases accepted
    cases z <;> simp [pairName, writePair] at names ⊢

theorem checkPair_refusal {x : PairItem} {st : Status} (h : checkPair x = .refuse st) : st = .badValue := by
  cases x <;> simp only [checkPair, checkQty, checkEnum] at h
  case allotment v | echoConsent v => cases v <;> cases h; rfl
  all_goals cases h

/-- The values that a list of accepted items leaves, with the tests that may follow them (R189). -/
theorem applyItems_pair (p : PairNo) (xs : List PairItem) (s : State) :
    PairWritten p s (applyItems (fun x => .pair (pairName x)) (applyPair p) pairTests (acceptedValues checkPair xs) s) ∧
      pairFigures p (applyItems (fun x => .pair (pairName x)) (applyPair p) pairTests (acceptedValues checkPair xs) s) =
        (acceptedValues checkPair xs).foldl writePair (pairFigures p s) := by
  have values : pairFigures p ((lastOfEach (fun x => .pair (pairName x)) (acceptedValues checkPair xs)).foldl
      (fun s x => applyPair p x s) s) = (acceptedValues checkPair xs).foldl writePair (pairFigures p s) := by
    rw [foldl_observed (f := writePair) (see := pairFigures p) fun x s => (applyPair_written p x s).2.1]
    refine foldl_lastOfEach writePair_comm (fun y m => ?_) _
    obtain ⟨x, b, e⟩ := mem_acceptedValues m
    exact checkPair_overwrites e
  have written := applyPairs_written p (lastOfEach (fun x => .pair (pairName x)) (acceptedValues checkPair xs)) s
  unfold applyItems
  dsimp only
  split
  · obtain ⟨tested, figures⟩ := testOffers_pairWritten (p := p) allPairs
      ((lastOfEach (fun x => .pair (pairName x)) (acceptedValues checkPair xs)).foldl (fun s x => applyPair p x s) s)
    exact ⟨written.trans tested, figures.trans values⟩
  · exact ⟨written, values⟩

end Written

/-! ## The requests -/

section Requests

variable {i : Instr} {q : ReqHead} {o : Octet} {p : PairNo} {s : State}

/-- A WRITE-SETTINGS of accepted PAIR items on a pair without a run, with what follows (R189). -/
theorem pairSettings_followed {xs : List PairItem} (h : s.open)
    (request : requestOf i = some (q, .writeSettings (.pair o xs))) (a : Admits q (.writeSettings (.pair o xs)) s)
    (named : pairIndex o = some p) (free : s.runOn p = false)
    (accepted : ∀ x ∈ xs, (checkPair x).value.isSome = true) : ∃ (r : Reply) (t : State), exec i s = .next t ∧
      Answers q 3 (writeReply checkPair (fun x => .pair (pairName x)) xs).1
        (writeReply checkPair (fun x => .pair (pairName x)) xs).2 s.cfg.stationAddress t ∧
      Followed (emit (.reply r) (applyItems (fun x => .pair (pairName x)) (applyPair p) pairTests
        (acceptedValues checkPair xs) (counted s))) t := by
  have served : serveBody (.writeSettings (.pair o xs)) (counted s) =
      ⟨(writeReply checkPair (fun x => .pair (pairName x)) xs).1,
        (writeReply checkPair (fun x => .pair (pairName x)) xs).2,
        applyItems (fun x => .pair (pairName x)) (applyPair p) pairTests (acceptedValues checkPair xs) (counted s)⟩ := by
    have unrun : (counted s).runOn p = false := free
    simp only [serveBody, serveWriteSettings, named, unrun]
    exact serveItems_accepted (applyPair p) pairTests (counted s) accepted
  obtain ⟨written, -⟩ := applyItems_pair p xs (counted s)
  have cfg := settingsKept_cfg written.settings
  generalize applyItems (fun x => .pair (pairName x)) (applyPair p) pairTests (acceptedValues checkPair xs)
    (counted s) = u at *
  obtain ⟨t, ran, answered, ensues⟩ := exec_served h request a (by simp) served (written.reset h.2)
  refine ⟨_, t, ran, ?_, { answered.follows with }, ensues⟩
  have reply := answered.reply
  rw [replyTo, cfg] at reply
  exact reply

/-- A WRITE-SETTINGS of one accepted PAIR item that starts no offer test. -/
theorem pairSetting_followed {x v : PairItem} {b : Bool} (h : s.open)
    (request : requestOf i = some (q, .writeSettings (.pair o [x]))) (a : Admits q (.writeSettings (.pair o [x])) s)
    (named : pairIndex o = some p) (free : s.runOn p = false) (accepted : checkPair x = .accept v b) :
    ∃ (r : Reply) (t : State), exec i s = .next t ∧
      Answers q 3 (if b = true then .clamped else .ok)
        (.clampedNames (if b = true then [.pair (pairName x)] else [])) s.cfg.stationAddress t ∧
      Followed (emit (.reply r) (if pairTests v = true then testOffers allPairs (applyPair p v (counted s))
        else applyPair p v (counted s))) t := by
  have all := pairSettings_followed h request a named free (accepted_single accepted)
  rw [writeReply_single accepted, acceptedValues_single accepted] at all
  have one : applyItems (fun x => .pair (pairName x)) (applyPair p) pairTests [v] (counted s) =
      if pairTests v = true then testOffers allPairs (applyPair p v (counted s)) else applyPair p v (counted s) := by
    simp only [applyItems, lastOfEach, List.any_nil, List.any_cons, Bool.or_false, Bool.false_eq_true, if_false,
      List.foldl_cons, List.foldl_nil]
  rw [one] at all
  exact all

end Requests

/-! ## The allotment -/

section Allotment

variable {p : PairNo} {o : Output} {s t : State}

theorem moveTo_wentAbsent (p : PairNo) (s : State) : ((moveTo p .absent s).pair p).WentDown ∧
    ((moveTo p .absent s).pair p).trained = 0 ∧ ((moveTo p .absent s).pair p).farPair = none ∧
    ((moveTo p .absent s).pair p).farRole = none := by
  obtain ⟨d, unit⟩ := moveTo_pair p (st := .absent) (by decide) s
  have cut : (leavingUnit .absent d (s.pair p)).handover = none := by
    unfold leavingUnit
    split
    · exact cutUnit_handover true { s.pair p with state := .absent }
    · rw [if_pos (.inr (.inr rfl))]
      exact cutUnit_handover false (s.pair p)
  have kinds : keepPermitted .absent (leavingUnit .absent d (s.pair p)).ctl = [] :=
    List.filter_eq_nil_iff.2 fun k _ => by cases k <;> decide
  rw [unit]
  exact ⟨⟨rfl, rfl, kinds, cut, rfl, rfl⟩, rfl, rfl, rfl⟩

/-- The pair unit with a written allotment (R2). -/
def allotted (a : Allotment) (u : PairUnit) : PairUnit := { u with cfg := { u.cfg with allotment := a } }

/-- What the entry to ABSENT or DOWN by an allotment write leaves, with what follows (R2). -/
theorem allotment_followed {a : Allotment} {st : PairState} {c : Control} (shut : st = .down ∨ st = .absent)
    (k : Followed (emit o (Machine.tell p c (moveTo p st (modPair p (allotted a) s)))) t) :
    OthersLeft p s t ∧ EngineLeft s t ∧
      t.pair p = { (moveTo p st (modPair p (allotted a) s)).pair p with control := c } ∧
      (if (s.pair p).state = .serving ∨ (s.pair p).state = .waking then Withdrawn p s t else ContextsLeft s t) := by
  have out : st ≠ .serving := by rcases shut with rfl | rfl <;> decide
  have unit : (modPair p (allotted a) s).pair p = allotted a (s.pair p) := modPair_pair_same ..
  have told := tell_pair_same p c (moveTo p st (modPair p (allotted a) s))
  have state : ((moveTo p st (modPair p (allotted a) s)).pair p).state = st := (moveTo_enters p st _).1
  have still : t.pair p = { (moveTo p st (modPair p (allotted a) s)).pair p with control := c } := by
    rw [← told]
    refine (k.ensues.pairs p).still ?_
    rw [emit_pair, told]
    exact shut.imp state.trans fun e => .inl (state.trans e)
  have acts : ActsOn p (modPair p (allotted a) s) (emit o (Machine.tell p c (moveTo p st (modPair p (allotted a) s)))) :=
    ((moveTo_actsOn p st _).trans (tell_actsOn p c _)).trans (emit_actsOn p o _)
  have contexts : ContextsLeft (moveTo p st (modPair p (allotted a) s)) t := fun d => by
    rw [k.follows.contexts d, emit_cls, tell_cls]
  refine ⟨fun q other => ?_, k.engineLeft ?_, still, ?_⟩
  · have same := acts.others q other
    rw [modPair_pair_other _ _ _ other] at same
    exact LeftBy_trans (.inl same) (k.follows.pairs q)
  · rw [emit_engine, tell_engine, moveTo_engine, modPair_engine]
  · by_cases service : (s.pair p).state = .serving ∨ (s.pair p).state = .waking
    · obtain ⟨empty, unknown, cut⟩ := moveTo_withdrawn (p := p) (s := modPair p (allotted a) s) out (by
        rw [InService, unit]
        exact service)
      rw [if_pos service]
      rw [unit] at cut
      refine ⟨?_, fun d => (horizon_of_context (contexts d) p).trans (unknown d), ?_⟩ <;> rw [still]
      · exact empty
      · exact cut
    · rw [if_neg service]
      have left := onlyPair_contexts (moveTo_onlyPair (p := p) (s := modPair p (allotted a) s) st (by
        rw [InService, unit]
        exact service))
      exact fun d => (contexts d).trans ((left d).trans (by rw [modPair_cls]))

end Allotment

/-! ## The *quiet wait* and the delay figure -/

section Figures

variable {now : Nat} {b : BondSettings} {x y : PairUnit} {p : PairNo} {u v t : State}

/-- What follows an event leaves these fields of a pair unit in every state. -/
theorem PairSteps.figures (h : PairSteps now b x y) : y.cfg = x.cfg ∧ y.delay = x.delay ∧
    y.wakeErrors = x.wakeErrors ∧ y.noQuiet = x.noQuiet := by
  induction h with
  | refl => exact ⟨rfl, rfl, rfl, rfl⟩
  | tail _ step ih =>
    obtain ⟨cfg, delay, errors, flag⟩ := ih
    cases step with
    | control k ks h free first frag => exact ⟨cfg, delay, errors, flag⟩
    | prove m h free slot frag => exact ⟨cfg, delay, errors, flag⟩
    | data h free kind => exact ⟨cfg, delay, errors, flag⟩
    | place e serving awake => exact ⟨cfg, delay, errors, flag⟩
    | wake quiet =>
      obtain ⟨delay', -, errors', flag', -, cfg', -⟩ := enter_kept now b .waking _
      exact ⟨cfg'.trans cfg, delay'.trans delay, errors'.trans errors, flag'.trans flag⟩

/-- The other pairs after an event with its offer tests and what follows. -/
theorem PairEvent.mayOffer (event : PairEvent p u v) (k : Followed v t) : OthersMayOffer p u t := fun q other => by
  have left := k.follows.pairs q
  rcases event.others q other with unmoved | offered
  · rw [unmoved] at left
    exact .inl left
  · exact .inr (offered_of_leftBy offered left (k.ensues.pairs q).offersEmpty)

/-- The pair unit after a write of its *quiet wait* (R171). -/
def waited (n : Nat) (u : PairUnit) : PairUnit :=
  { u with cfg := { u.cfg with quietWait := n }, wakeErrors := 0, noQuiet := false }

theorem waited_offered {n : Nat} (h : (waited n x).Offered y) : y.wakeErrors = 0 ∧ y.noQuiet = false ∧
    y.state = x.state ∧ y.idleTimer = x.idleTimer := by
  obtain ⟨-, -, -, -, steady⟩ := h
  have errors := congrArg PairUnit.wakeErrors steady
  have flag := congrArg PairUnit.noQuiet steady
  have state := congrArg PairUnit.state steady
  have timer := congrArg PairUnit.idleTimer steady
  exact ⟨errors, flag, state, timer⟩

/-- What a write of *quiet wait* leaves, with the offer tests and what follows (R171, R173). -/
theorem quietWait_followed {n : Nat} {o : Output} {s : State}
    (k : Followed (emit o (testOffers allPairs (modPair p (waited n) s))) t) :
    (t.pair p).wakeErrors = 0 ∧ (t.pair p).noQuiet = false ∧
      (t.pair p).cfg = { (s.pair p).cfg with quietWait := n } ∧ OthersMayOffer p s t ∧ ContextsLeft s t ∧
      ((s.pair p).state ≠ .quiet → (t.pair p).state = (s.pair p).state ∧
        (t.pair p).idleTimer = (s.pair p).idleTimer) := by
  have event : PairEvent p (modPair p (waited n) s) (emit o (testOffers allPairs (modPair p (waited n) s))) :=
    (testOffers_pairEvent p _ _).trans (emit_pairEvent p o _)
  have unit : (modPair p (waited n) s).pair p = waited n (s.pair p) := modPair_pair_same ..
  obtain ⟨cfg, -, errors, flag⟩ := (k.ensues.pairs p).figures
  have tested : ((emit o (testOffers allPairs (modPair p (waited n) s))).pair p).wakeErrors = 0 ∧
      ((emit o (testOffers allPairs (modPair p (waited n) s))).pair p).noQuiet = false ∧
      ((emit o (testOffers allPairs (modPair p (waited n) s))).pair p).state = (s.pair p).state ∧
      ((emit o (testOffers allPairs (modPair p (waited n) s))).pair p).idleTimer = (s.pair p).idleTimer := by
    rw [emit_pair]
    rcases testOffers_offered allPairs (modPair p (waited n) s) p with same | offered
    · rw [same, unit]
      exact ⟨rfl, rfl, rfl, rfl⟩
    · rw [unit] at offered
      exact waited_offered offered
  obtain ⟨noErrors, unset, state, timer⟩ := tested
  refine ⟨errors.trans noErrors, flag.trans unset, cfg.trans ?_, fun q other => ?_, fun c => ?_, fun awake => ?_⟩
  · obtain ⟨-, -, -, -, -, -, -, cfgs, -⟩ := event.settings
    rw [cfgs p, unit]
    rfl
  · have may := event.mayOffer k q other
    rwa [modPair_pair_other _ _ _ other] at may
  · rw [k.follows.contexts c, event.cls c, modPair_cls]
  · have steady := k.steady (p := p) (by rw [state]; exact awake)
    obtain ⟨-, -, -, -, -, -, timer'⟩ := steady_handed steady
    exact ⟨(steady_state steady).trans state, timer'.trans timer⟩

/-- The pair unit after a write of its delay figure (R75 c). -/
def figured (n : Nat) (u : PairUnit) : PairUnit := { u with delay := n }

theorem clampTo_zero (n : Nat) : clampTo 0 65535 n = min 65535 n := by
  rw [clampTo, if_neg (Nat.not_lt_zero n)]
  split <;> omega

theorem clamped_iff (n : Nat) : (clampTo 0 65535 n != n) = decide (65535 < n) := by
  rw [clampTo_bne]
  simp

end Figures

/-- Settles O48. -/
theorem pairSettingsWritten : Obligations.PairSettingsWritten := by
  intro q o p n xs s opened named free
  refine ⟨fun a present => ?_, fun a absent => ?_, fun v a same awake => ?_, fun a => ?_, fun a => ?_, fun a => ⟨fun accepted => ?_, fun pre post x st e before refused => ?_⟩,
    enumerated_of fun _ => rfl, clamps_of fun _ => rfl, clamps_of fun _ => rfl, clamps_of fun _ => rfl,
    clamps_of fun _ => rfl, clamps_of fun _ => rfl, enumerated_of fun _ => rfl, clamps_of fun _ => rfl⟩
  · obtain ⟨r, t, ran, answers, k⟩ := pairSetting_followed (i := .allotmentWrite q o (some .reserved))
      (v := .allotment (some .reserved)) opened rfl a named free rfl
    have moved : writeAllotment p .reserved (counted s) =
        Machine.tell p .holdOff (moveTo p .absent (modPair p (allotted .reserved) (counted s))) := by
      rcases writeAllotment_cases p .reserved (counted s) with ⟨same, -⟩ | ⟨-, -, e⟩ | ⟨no, -⟩
      · exact absurd (same.1 rfl) present
      · exact e
      · cases no
    have k' : Followed (emit (.reply r) (writeAllotment p .reserved (counted s))) t := k
    rw [moved] at k'
    obtain ⟨others, engine, unit, contexts⟩ := allotment_followed (s := counted s) (.inr rfl) k'
    obtain ⟨down, trained, farPair, farRole⟩ := moveTo_wentAbsent p (modPair p (allotted .reserved) (counted s))
    have figures := moveTo_figures (p := p) (st := .absent) (by decide) (modPair p (allotted .reserved) (counted s))
    refine ⟨t, ran, answers, others, engine, ?_, ?_, ?_, ?_, ?_, ?_, ?_, contexts⟩ <;> rw [unit]
    · exact moveTo_enters p .absent (modPair p (allotted .reserved) (counted s))
    · exact down
    · exact trained
    · exact farPair
    · exact farRole
    · exact (congrArg Prod.fst figures).trans (by rw [modPair_figures]; rfl)
  · obtain ⟨r, t, ran, answers, k⟩ := pairSetting_followed (i := .allotmentWrite q o (some .bond))
      (v := .allotment (some .bond)) opened rfl a named free rfl
    have moved : writeAllotment p .bond (counted s) =
        Machine.tell p .train (moveTo p .down (modPair p (allotted .bond) (counted s))) := by
      rcases writeAllotment_cases p .bond (counted s) with ⟨same, -⟩ | ⟨no, -⟩ | ⟨-, -, e⟩
      · cases same.2 absent
      · cases no
      · exact e
    have k' : Followed (emit (.reply r) (writeAllotment p .bond (counted s))) t := k
    rw [moved] at k'
    obtain ⟨others, engine, unit, contexts⟩ := allotment_followed (s := counted s) (.inl rfl) k'
    have idle : ¬ (((counted s).pair p).state = .serving ∨ ((counted s).pair p).state = .waking) := by
      rw [show ((counted s).pair p).state = .absent from absent]
      decide
    rw [if_neg idle] at contexts
    have figures := moveTo_figures (p := p) (st := .down) (by decide) (modPair p (allotted .bond) (counted s))
    refine ⟨t, ran, answers, others, engine, contexts, ?_, ?_, ?_, ?_⟩ <;> rw [unit]
    · exact moveTo_enters p .down (modPair p (allotted .bond) (counted s))
    · exact moveTo_wentDown p (modPair p (allotted .bond) (counted s))
    · exact (congrArg Prod.fst figures).trans (by rw [modPair_figures]; rfl)
  · obtain ⟨r, t, ran, answers, k⟩ := pairSetting_followed (i := .allotmentWrite q o (some v))
      (v := .allotment (some v)) opened rfl a named free rfl
    have kept : writeAllotment p v (counted s) = modPair p (allotted v) (counted s) := by
      rcases writeAllotment_cases p v (counted s) with ⟨-, e⟩ | ⟨no, present, -⟩ | ⟨no, absent, -⟩
      · exact e
      · exact absurd (same.1 no) present
      · rw [no] at same
        cases same.2 absent
    have k' : Followed (emit (.reply r) (writeAllotment p v (counted s))) t := k
    rw [kept] at k'
    have unit : (emit (.reply r) (modPair p (allotted v) (counted s))).pair p = allotted v (s.pair p) :=
      modPair_pair_same (counted s) p _
    have steady := k'.steady (p := p) (by rw [unit]; exact awake)
    rw [unit] at steady
    refine ⟨t, ran, fun r other => ?_, fun c => ?_, answers, steady⟩
    · have left := k'.follows.pairs r
      rwa [emit_pair, modPair_pair_other _ _ _ other] at left
    · rw [k'.follows.contexts c, emit_cls, modPair_cls]
      rfl
  · obtain ⟨r, t, ran, answers, k⟩ := pairSetting_followed (i := .quietWaitWrite q o n)
      (v := .quietWait (clampTo 0 65535 n)) opened rfl a named free rfl
    have facts := quietWait_followed (p := p) (n := clampTo 0 65535 n) (s := counted s) k
    rw [clampTo_zero] at facts
    obtain ⟨errors, flag, cfg, others, contexts, idle⟩ := facts
    refine ⟨t, ran, errors, flag, cfg, others, contexts, idle, ?_⟩
    rw [clamped_iff] at answers
    simpa only [decide_eq_true_eq, pairName] using answers
  · obtain ⟨r, t, ran, answers, k⟩ := pairSetting_followed (i := .delayFigureWrite q o n)
      (v := .delayFigure (clampTo 0 65535 n)) opened rfl a named free rfl
    have k' : Followed (emit (.reply r) (modPair p (figured (min 65535 n)) (counted s))) t := by
      rw [← clampTo_zero n]
      exact k
    have unit : (emit (.reply r) (modPair p (figured (min 65535 n)) (counted s))).pair p =
      figured (min 65535 n) (s.pair p) := modPair_pair_same (counted s) p _
    obtain ⟨cfg, delay, -⟩ := (k'.ensues.pairs p).figures
    rw [unit] at cfg delay
    refine ⟨t, ran, delay, cfg, fun r other => ?_, fun c => ?_, fun awake => ?_, ?_⟩
    · have left := k'.follows.pairs r
      rwa [emit_pair, modPair_pair_other _ _ _ other] at left
    · rw [k'.follows.contexts c, emit_cls, modPair_cls]
      rfl
    · have steady := k'.steady (p := p) (by rw [unit]; exact awake)
      rw [unit] at steady
      exact steady
    · rw [clamped_iff] at answers
      simpa only [decide_eq_true_eq, pairName] using answers
  · obtain ⟨r, t, ran, answers, k⟩ := pairSettings_followed (i := .writeSettings q (.pair o xs)) opened rfl a named free accepted
    obtain ⟨written, figures⟩ := applyItems_pair p xs (counted s)
    obtain ⟨cfg, delay, -⟩ := (k.ensues.pairs p).figures
    refine ⟨t, ran, ?_, ?_, answers⟩
    · rw [cfg, delay]
      exact figures
    · rw [cfg]
      exact SettingsKept_trans written.settings k.follows.settings
  · subst e
    have unrun : (counted s).runOn p = false := free
    obtain ⟨t, ran, reply, only⟩ := settings_refused (check := checkPair) (apply := applyPair p) (tests := pairTests)
      (name := fun x => .pair (pairName x)) (c := .writeSettings q (.pair o (pre ++ x :: post))) opened rfl a
      (by simp only [serveWriteSettings, named, unrun]; rfl) before refused (.inl (checkPair_refusal refused))
    exact ⟨t, ran, reply, only⟩

end Sys2Proof.Proofs
end

