-- ==== Sys2Proof/Proofs/EngineFreed.lean ====
section
/-! SUPPORT. The engine that becomes free and serves the waiting pairs (R152). -/

namespace Sys2Proof.Proofs
open Sys2Proof Sys2Proof.Machine Sys2Proof.Laws

section Freed

variable {p q : PairNo} {s t x y : State}

/-- A pair waits for the engine (R152). -/
def Waiting (u : PairUnit) : Prop := u.state = .standby ∧ u.proveWanted = true

theorem waitingPair_congr (h : ∀ q : PairNo, Waiting (t.pair q) ↔ Waiting (s.pair q)) : waitingPair t = waitingPair s := by
  unfold waitingPair
  congr 1
  funext q
  have same := h q
  simp only [Waiting] at same
  rw [Bool.eq_iff_iff]
  simpa using same

theorem waitingPair_waits (h : waitingPair s = some p) : Waiting (s.pair p) := by
  have found := List.find?_some h
  simpa [Waiting] using found

/-- What the engine leaves of `x` once it has become free (R152). -/
structure Freed (x y : State) : Prop where
  others : ∀ r : PairNo, waitingPair x ≠ some r → y.pair r = x.pair r
  settings : SettingsKept x y
  bond : BondLeft x y
  contexts : ContextsLeft x y
  classifier : y.classifier = x.classifier
  reset : x.agent.reset = none → y.agent.reset = none
  now : y.now = x.now
  cfg : y.cfg = x.cfg
  unraised : ∀ src : Source, src ≠ .gapLoss → Unraised src x y
  engine : (waitingPair x = none ∧ y.engine = none) ∨
    ∃ (q : PairNo) (r : Run), waitingPair x = some q ∧ y.engine = some r ∧ r.pair = q ∧ r.running = false ∧
      r.outstanding = false ∧ (y.pair q).state = .proving

/-- A run that begins on a pair out of service leaves the units of the others (R151). -/
theorem startRun_pair_other (other : p ≠ q) (idle : ¬ InService (s.pair q)) : (startRun q s).pair p = s.pair p := by
  obtain ⟨others, -⟩ := moveTo_onlyPair .proving idle
  have recorded : (modRecord q ProvingRecord.started (moveTo q .proving s)).pair p = s.pair p := by
    rw [modRecord, modPair_pair_other _ _ _ other, others p other]
  rw [startRun_eq, raiseCtl, modPair_pair_other _ _ _ other]
  exact recorded

theorem freeEngine_freed (x : State) : Freed x (freeEngine x) := by
  unfold freeEngine
  cases waits : waitingPair x with
  | none =>
    have same : waitingPair { x with engine := none } = none := waits
    simp only [same]
    exact ⟨fun _ _ => rfl, (Follows.refl x).settings, (Follows.refl x).bond, fun _ => rfl, rfl, id, rfl, rfl,
      fun src _ => unraised_refl src x, .inl ⟨waits, rfl⟩⟩
  | some q =>
    have same : waitingPair { x with engine := none } = some q := waits
    simp only [same]
    have standby : (x.pair q).state = .standby := (waitingPair_waits waits).1
    have begun := startRun_begun q { x with engine := none }
    have idle : ¬ InService (({ x with engine := none } : State).pair q) := by
      rw [InService]
      show ¬ ((x.pair q).state = .serving ∨ (x.pair q).state = .waking)
      rw [standby]
      decide
    have acts : ActsOn q x (startRun q { x with engine := none }) := (engine_actsOn q none x).trans begun.acts
    refine ⟨fun r unwaiting => ?_, acts.settings, acts.bond, begun.departure.contexts idle, acts.classifier, acts.reset,
      startRun_now q _, settingsKept_cfg acts.settings, fun src other => startRun_unraised (s := { x with engine := none }) other q,
      .inr ⟨q, newRun q { x with engine := none }, waits, startRun_engine q _, rfl, rfl, rfl, begun.departure.state⟩⟩
    have other : r ≠ q := fun e => unwaiting (by rw [waits, e])
    exact startRun_pair_other other idle

/-- What an event on pair `p` leaves once it has freed the engine and the other blocks have followed: `x` is the state
that the engine finds, and `y` what the event goes on with. -/
structure EngineServed (p : PairNo) (s x y t : State) : Prop where
  acts : ActsOn p s x
  contexts : ContextsLeft s x
  unwaiting : Waiting (x.pair p) ↔ Waiting (s.pair p)
  others : ∀ r : PairNo, r ≠ p → y.pair r = (freeEngine x).pair r
  aside : ActsOn p (freeEngine x) y
  kept : ContextsLeft (freeEngine x) y
  engine : y.engine = (freeEngine x).engine
  followed : Followed y t

theorem EngineServed.waits (h : EngineServed p s x y t) : waitingPair x = waitingPair s :=
  waitingPair_congr fun q => by
    by_cases same : q = p
    · rw [same]
      exact h.unwaiting
    · have steady := h.acts.others q same
      rw [Waiting, steady_state steady, steady_wanted steady, Waiting]

theorem EngineServed.freed (h : EngineServed p s x y t) (busy : ¬ Waiting (s.pair p)) : EngineFreed s t ∧
    WaitersLeft p s t ∧ SettingsKept s t ∧ ContextsLeft s t ∧ BondLeft s t := by
  have freed := freeEngine_freed x
  have waits := h.waits
  refine ⟨?_, fun r other unwaiting => ?_, ?_, fun c => ?_, ?_⟩
  · rw [EngineFreed, ← waits]
    rcases freed.engine with ⟨none', engine⟩ | ⟨q, r, some', engine, pair, stage, outstanding, proving⟩
    · rw [none']
      have empty : y.engine = none := h.engine.trans engine
      exact (h.followed.ensues.engine (by rw [empty]; rfl)).trans empty
    · rw [some']
      have run : y.engine = some r := h.engine.trans engine
      have other : q ≠ p := fun e => busy (e ▸ waitingPair_waits (waits.symm.trans some'))
      have unit : (y.pair q).state = .proving := by rw [h.others q other, proving]
      have same := h.followed.ensues.engine (by rw [run]; simp [outstanding])
      refine ⟨by rw [same, run, Option.map_some, pair, stage], ?_⟩
      exact (steady_state (h.followed.steady (by rw [unit]; decide))).trans unit
  · have left := h.followed.follows.pairs r
    rw [h.others r other, freed.others r (by rwa [waits])] at left
    exact LeftBy_trans (.inl (h.acts.others r other)) left
  · exact SettingsKept_trans (SettingsKept_trans (SettingsKept_trans h.acts.settings freed.settings) h.aside.settings)
      h.followed.follows.settings
  · rw [h.followed.follows.contexts c, h.kept c, freed.contexts c, h.contexts c]
  · exact BondLeft_trans (BondLeft_trans (BondLeft_trans h.acts.bond freed.bond) h.aside.bond) h.followed.follows.bond

end Freed

end Sys2Proof.Proofs
end

