-- ==== Sys2Proof/Proofs/RunAborted.lean ====
section
/-! PROOF. The abort of a run by each of its causes (R165). -/

namespace Sys2Proof.Proofs
open Sys2Proof Sys2Proof.Machine Sys2Proof.Laws

section Abort

variable {p : PairNo} {cause : AbortCause} {a x y t : State}

/-- The record of an aborted run (R165 b). -/
def abortRecord (cause : AbortCause) (r : ProvingRecord) : ProvingRecord :=
  { r with status := .aborted, abortCause := some cause }

/-- The unit of the pair at the abort of its run, before it leaves PROVING (R165 b and c). -/
def abortUnit (cause : AbortCause) (u : PairUnit) : PairUnit :=
  if cause = .write || cause = .noAnswer then
    PairUnit.raise .proveEnd { u with record := { abortRecord cause u.record with endSlot := some ⟨.aborted, 0⟩ } }
  else { u with record := abortRecord cause u.record }

theorem aborted_eq (p : PairNo) (cause : AbortCause) (s : State) : aborted p cause s =
    moveTo p cause.stateAfter (modPair p (abortUnit cause) { s with engine := none }) := by
  unfold aborted abortUnit
  dsimp only
  split
  · rw [raiseEnd, raiseCtl, modRecord, modRecord, modPair_modPair, modPair_modPair]
    rfl
  · rfl

theorem abortUnit_core (cause : AbortCause) (u : PairUnit) : core (abortUnit cause u) = core u ∧
    (abortUnit cause u).queue = u.queue ∧ (abortUnit cause u).handover = u.handover ∧
    (abortUnit cause u).state = u.state ∧ (abortUnit cause u).cfg = u.cfg := by
  unfold abortUnit
  split
  · refine ⟨(core_of_steady (raise_steady _ _)).trans rfl, raise_queue _ _, ?_, raise_state _ _, raise_cfg _ _⟩
    unfold PairUnit.raise
    split <;> rfl
  · exact ⟨rfl, rfl, rfl, rfl, rfl⟩

theorem abortUnit_record (cause : AbortCause) (u : PairUnit) :
    { (abortUnit cause u).record with endSlot := none } = { abortRecord cause u.record with endSlot := none } := by
  unfold abortUnit
  split
  · exact (steady_record (raise_steady _ _)).trans rfl
  · rfl

theorem stateAfter_out (cause : AbortCause) : cause.stateAfter ≠ .serving ∧ cause.stateAfter ≠ .absent ∧
    cause.stateAfter ≠ .quiet := by cases cause <;> decide

/-- What the engine finds of an aborted run when it becomes free (R165 e). -/
def abandoned (p : PairNo) (cause : AbortCause) (s : State) : State :=
  raiseNotice .provingDone (doneArg .aborted p) (aborted p cause s)

theorem abandoned_pair (p q : PairNo) (cause : AbortCause) (s : State) :
    (abandoned p cause s).pair q = (aborted p cause s).pair q := rfl

theorem abandoned_actsOn (p : PairNo) (cause : AbortCause) (s : State) : ActsOn p s (abandoned p cause s) := by
  obtain ⟨-, -, -, -, cfg⟩ := abortUnit_core cause (s.pair p)
  rw [abandoned, aborted_eq]
  exact (((engine_actsOn p none s).trans (modPair_actsOn cfg)).trans (moveTo_actsOn p _ _)).trans (raiseNotice_actsOn p _ _ _)

theorem abandoned_departure (p : PairNo) (cause : AbortCause) (s : State) :
    Departure p cause.stateAfter s (abandoned p cause s) := by
  obtain ⟨same, -, handover, -⟩ := abortUnit_core cause (s.pair p)
  obtain ⟨out, present, -⟩ := stateAfter_out cause
  have moved := moveTo_departure (p := p) (modPair p (abortUnit cause) { s with engine := none }) out present
  rw [← aborted_eq] at moved
  refine (moved.through (u := abandoned p cause s) rfl rfl fun _ => rfl).of_start ?_ ?_ rfl rfl fun _ => rfl
  · rw [modPair_pair_same]
    exact same
  · rw [modPair_pair_same]
    exact handover

theorem abandoned_now (p : PairNo) (cause : AbortCause) (s : State) : (abandoned p cause s).now = s.now := by
  have now := moveTo_now p cause.stateAfter (modPair p (abortUnit cause) { s with engine := none })
  rw [← aborted_eq] at now
  exact now

theorem abandoned_unwaiting (p : PairNo) (cause : AbortCause) (s : State) : ¬ Waiting ((abandoned p cause s).pair p) :=
  fun waits => by
    obtain ⟨-, wanted⟩ := waits
    rw [abandoned_pair, aborted_eq, moveTo_unwanted p (stateAfter_out cause).1] at wanted
    cases wanted

theorem abandoned_raised (p : PairNo) (cause : AbortCause) (s : State) :
    RaisedOnce .provingDone (doneArg .aborted p) s (abandoned p cause s) := by
  have before : Unraised .provingDone s (aborted p cause s) := by
    rw [aborted_eq]
    exact unraised_trans (t := modPair p (abortUnit cause) { s with engine := none })
      (unraised_of_source (modPair_source ..)) (moveTo_unraised (by decide) p _ _)
  exact raisedOnce_after before (raiseNotice_raisedOnce ..)

/-- The record that an abort leaves (R165 b and c). -/
theorem abandoned_record (p : PairNo) (cause : AbortCause) (s : State) :
    { ((abandoned p cause s).pair p).record with endSlot := none } =
      { abortRecord cause (s.pair p).record with endSlot := none } := by
  have record := abortUnit_record cause (s.pair p)
  rw [abandoned_pair, aborted_eq, moveTo_provingRecord _ (stateAfter_out cause).1, modPair_pair_same]
  exact record

/-- A PROVE-END that the abort raises outlives the exit to STANDBY (R29 c, R162). -/
theorem abandoned_tells (proving : (s.pair p).state = .proving) (told : cause = .write ∨ cause = .noAnswer) :
    .proveEnd ∈ ((abandoned p cause s).pair p).ctl ∧
      ((abandoned p cause s).pair p).record.endSlot = some ⟨.aborted, 0⟩ := by
  have after : cause.stateAfter = .standby := by rcases told with rfl | rfl <;> rfl
  have unit : abortUnit cause (s.pair p) = PairUnit.raise .proveEnd
      { s.pair p with record := { abortRecord cause (s.pair p).record with endSlot := some ⟨.aborted, 0⟩ } } := by
    rw [abortUnit, if_pos]
    simpa using told
  have permitted : Ctl.permitted .proveEnd (s.pair p).state = true := by rw [proving]; rfl
  rw [abandoned_pair, aborted_eq, moveTo_ctl _ (stateAfter_out cause).1, moveTo_provingRecord _ (stateAfter_out cause).1,
    modPair_pair_same, after]
  have marked : (({ s with engine := none } : State).pair p) = s.pair p := rfl
  rw [marked, unit, PairUnit.raise, if_pos permitted]
  exact ⟨List.mem_filter.2 ⟨mem_addCtl.2 (.inl rfl), rfl⟩, rfl⟩

/-- What the abort of a run leaves of its pair, where the event goes on from `y` once the engine is free (R165). -/
theorem abort_followed (proving : (s.pair p).state = .proving)
    (unit : y.pair p = (abandoned p cause s).pair p ∨
      cause = .crossed ∧ y.pair p = PairUnit.raise .proveAccept ((abandoned p cause s).pair p))
    (contexts : ContextsLeft (abandoned p cause s) y) (unraised : Unraised .provingDone (abandoned p cause s) y)
    (k : Followed y t) : (t.pair p).Entered s.now s.cfg cause.stateAfter ∧ (s.pair p).RecordKept (t.pair p) ∧
      { (t.pair p).record with endSlot := none } = { abortRecord cause (s.pair p).record with endSlot := none } ∧
      RaisedOnce .provingDone (doneArg .aborted p) s t ∧
      ((t.pair p).state = .down → (t.pair p).WentDown) ∧
      (cause = .write ∨ cause = .noAnswer → (t.pair p).sends .proveEnd ∧ EndPut ⟨.aborted, 0⟩ (t.pair p)) ∧
      (cause = .crossed → y.pair p = PairUnit.raise .proveAccept ((abandoned p cause s).pair p) →
        (t.pair p).sends .proveAccept) := by
  obtain ⟨out, -, rouses⟩ := stateAfter_out cause
  have left := abandoned_departure p cause s
  have same : core (y.pair p) = core ((abandoned p cause s).pair p) ∧
      (y.pair p).queue = ((abandoned p cause s).pair p).queue ∧
      (y.pair p).steady = ((abandoned p cause s).pair p).steady := by
    rcases unit with e | ⟨-, e⟩ <;> rw [e]
    · exact ⟨rfl, rfl, rfl⟩
    · exact ⟨core_of_steady (raise_steady _ _), raise_queue _ _, raise_steady _ _⟩
  obtain ⟨cores, queue, steady⟩ := same
  have departed := (left.through cores queue contexts).followed k out rouses
  have state : (y.pair p).state = cause.stateAfter := (steady_state steady).trans left.state
  have awake : (y.pair p).state ≠ .quiet := by rw [state]; exact rouses
  refine ⟨departed.enters, departed.record, ?_, ?_, fun down => ?_, fun told => ?_, fun crossed raised => ?_⟩
  · exact ((steady_record (k.steady awake)).trans (steady_record steady)).trans (abandoned_record p cause s)
  · exact k.raised (raisedOnce_before (abandoned_raised p cause s) unraised) (by decide)
  · have line : cause.stateAfter = .down := departed.state.symm.trans down
    have plain := unit.resolve_right fun crossed => by
      rw [crossed.1] at line
      cases line
    have still := (k.ensues.pairs p).still (.inl (state.trans line))
    rw [still, plain, abandoned_pair, aborted_eq, line]
    exact moveTo_wentDown p _
  · obtain ⟨raised, slot⟩ := abandoned_tells (cause := cause) proving told
    have plain := unit.resolve_right fun crossed => by
      rw [crossed.1] at told
      rcases told with e | e <;> cases e
    refine ⟨k.sends awake (.inl (by rw [plain]; exact raised)), (k.ensues.pairs p).endPut awake (.inl ?_)⟩
    rw [plain]
    exact slot
  · refine k.sends awake ?_
    rw [raised]
    exact raise_sends (by rw [left.state, crossed]; rfl)

end Abort

/-! ## The six causes -/

section Causes

variable {p : PairNo} {cause : AbortCause} {s x y t : State}

/-- What a run's abort by a command leaves, where `a` is the state that the command aborts it in (R165). -/
structure AbortStart (p : PairNo) (s a : State) : Prop where
  acts : ActsOn p s a
  contexts : ContextsLeft s a
  state : (a.pair p).state = (s.pair p).state
  delay : (a.pair p).delay = (s.pair p).delay
  strikes : (a.pair p).strikes = (s.pair p).strikes
  record : ∃ d : Option DeclineReason, (a.pair p).record = { (s.pair p).record with declineReason := d }
  unraised : Unraised .provingDone s a

/-- How the event goes on from the engine that the abort has freed: at once, with PROVE-ACCEPT raised, or with a
reply. -/
structure AbortEnd (p : PairNo) (x y : State) : Prop where
  others : ∀ r : PairNo, r ≠ p → y.pair r = x.pair r
  acts : ActsOn p x y
  classes : y.classes = x.classes
  notices : y.notices = x.notices
  engine : y.engine = x.engine
  now : y.now = x.now

theorem AbortEnd.refl (p : PairNo) (x : State) : AbortEnd p x x := ⟨fun _ _ => rfl, .refl p x, rfl, rfl, rfl, rfl⟩

theorem emit_abortEnd (p : PairNo) (o : Output) (x : State) : AbortEnd p x (emit o x) :=
  ⟨fun _ _ => rfl, emit_actsOn p o x, rfl, rfl, rfl, rfl⟩

theorem raiseCtl_abortEnd (k : Ctl) (p : PairNo) (x : State) : AbortEnd p x (raiseCtl k p x) :=
  ⟨fun _ other => modPair_pair_other _ _ _ other, raiseCtl_actsOn k p x, rfl, rfl, rfl, rfl⟩

/-- All that O25 says of an abort but what the command that causes it adds. -/
def Aborts (p : PairNo) (cause : AbortCause) (s t : State) : Prop :=
  (t.pair p).Entered t.now s.cfg cause.stateAfter ∧ (t.pair p).delay = (s.pair p).delay ∧
    (t.pair p).strikes = (s.pair p).strikes ∧ (t.pair p).record.status = .aborted ∧
    (t.pair p).record.abortCause = some cause ∧ (t.pair p).record.stepsDone = (s.pair p).record.stepsDone ∧
    (t.pair p).record.failures = (s.pair p).record.failures ∧
    (t.pair p).record.firstFailure = (s.pair p).record.firstFailure ∧
    (t.pair p).record.minTrip = (s.pair p).record.minTrip ∧ (t.pair p).record.maxTrip = (s.pair p).record.maxTrip ∧
    (t.pair p).record.resultD = (s.pair p).record.resultD ∧
    RaisedOnce .provingDone { hi := 2, lo := BitVec.ofNat 8 p.val } s t ∧
    ((t.pair p).state = .down → (t.pair p).WentDown) ∧
    (cause = .write ∨ cause = .noAnswer → (t.pair p).sends .proveEnd ∧ EndPut ⟨.aborted, 0⟩ (t.pair p)) ∧
    EngineFreed s t ∧ WaitersLeft p s t ∧ SettingsKept s t ∧ ContextsLeft s t ∧ BondLeft s t

theorem AbortStart.aborts {a : State} (start : AbortStart p s a) (proving : (s.pair p).state = .proving)
    (ends : AbortEnd p (abortRun p cause a) y)
    (unit : y.pair p = (abortRun p cause a).pair p ∨
      cause = .crossed ∧ y.pair p = PairUnit.raise .proveAccept ((abortRun p cause a).pair p))
    (k : Followed y t) : Aborts p cause s t ∧ (t.pair p).record.declineReason = (a.pair p).record.declineReason ∧
      (cause = .crossed → y.pair p = PairUnit.raise .proveAccept ((abortRun p cause a).pair p) →
        (t.pair p).sends .proveAccept) := by
  have run : abortRun p cause a = freeEngine (abandoned p cause a) := rfl
  have freed := freeEngine_freed (abandoned p cause a)
  have own : (abortRun p cause a).pair p = (abandoned p cause a).pair p := freed.others p fun waits =>
    abandoned_unwaiting p cause a (waitingPair_waits waits)
  have begun : (a.pair p).state = .proving := start.state.trans proving
  have idle : ¬ InService (a.pair p) := by rw [InService, begun]; decide
  have unwaiting : ¬ Waiting (s.pair p) := fun waits => by
    cases proving.symm.trans waits.1
  have contexts : ContextsLeft (abortRun p cause a) y := fun c => by rw [State.cls, ends.classes]; rfl
  have served : EngineServed p s (abandoned p cause a) y t :=
    { acts := start.acts.trans (abandoned_actsOn p cause a)
      contexts := fun c => ((abandoned_departure p cause a).contexts idle c).trans (start.contexts c)
      unwaiting := iff_of_false (abandoned_unwaiting p cause a) unwaiting
      others := ends.others
      aside := ends.acts
      kept := contexts
      engine := ends.engine
      followed := k }
  have unraised : Unraised .provingDone (abandoned p cause a) y :=
    unraised_trans (freed.unraised .provingDone (by decide)) (unraised_of_source (by rw [State.source, ends.notices]; rfl))
  rw [own] at unit
  obtain ⟨enters, record, fields, raised, down, told, crossed⟩ := abort_followed begun unit
    (fun c => (contexts c).trans (freed.contexts c)) unraised k
  obtain ⟨status, by_, reason, steps, failures, first, minTrip, maxTrip, result, -⟩ := record_fields fields
  obtain ⟨d, before⟩ := start.record
  obtain ⟨-, delay, -, -, strikes, -⟩ := record
  have now : t.now = a.now := by rw [k.ensues.now, ends.now, run, freed.now, abandoned_now]
  have cfg : a.cfg = s.cfg := settingsKept_cfg start.acts.settings
  rw [cfg, ← now] at enters
  rw [abortRecord, before] at steps failures first minTrip maxTrip result
  rw [own]
  exact ⟨⟨enters, delay.trans start.delay, strikes.trans start.strikes, status, by_, steps, failures, first, minTrip, maxTrip,
    result, raisedOnce_after start.unraised raised, down, told, served.freed unwaiting⟩, reason, crossed⟩

theorem abortRun_reset {a : State} (reset : a.agent.reset = none) : (abortRun p cause a).agent.reset = none :=
  (freeEngine_freed (abandoned p cause a)).reset ((abandoned_actsOn p cause a).reset reset)

/-- An abort that the other blocks follow at once. -/
theorem AbortStart.settled {a : State} (start : AbortStart p s a) (proving : (s.pair p).state = .proving)
    (reset : s.agent.reset = none) : Aborts p cause s (settle (abortRun p cause a)) ∧
      ((settle (abortRun p cause a)).pair p).record.declineReason = (a.pair p).record.declineReason := by
  obtain ⟨aborts, reason, -⟩ := start.aborts (cause := cause) proving (.refl p _) (.inl rfl)
    (settle_followed (abortRun_reset (start.acts.reset reset)))
  exact ⟨aborts, reason⟩

theorem counted_abortStart (p : PairNo) (f : PairCounters → PairCounters) (s : State) :
    AbortStart p s (countPair p f s.silent) where
  acts := (silent_actsOn p s).trans (modPair_actsOn rfl)
  contexts c := by
    rw [countPair, modPair_cls]
    rfl
  state := by
    rw [countPair, modPair_pair_same]
    rfl
  delay := by
    rw [countPair, modPair_pair_same]
    rfl
  strikes := by
    rw [countPair, modPair_pair_same]
    rfl
  record := ⟨(s.pair p).record.declineReason, by rw [countPair, modPair_pair_same]; rfl⟩
  unraised := unraised_of_source rfl

theorem heard_abortStart (p : PairNo) (n : Nat) (s : State) : AbortStart p s (Heard p n s) where
  acts := (silent_actsOn p s).trans (modPair_actsOn rfl)
  contexts c := by
    rw [Heard, modPair_cls]
    rfl
  state := heard_state p n s
  delay := by
    rw [heard_pair]
    rfl
  strikes := by
    rw [heard_pair]
    rfl
  record := ⟨(s.pair p).record.declineReason, by rw [heard_pair]; rfl⟩
  unraised := unraised_of_source rfl

theorem AbortStart.declined {a : State} (start : AbortStart p s a) (r : DeclineReason) :
    AbortStart p s (modRecord p (fun x => { x with declineReason := some r }) a) := by
  have unit : (modRecord p (fun x => { x with declineReason := some r }) a).pair p =
      { a.pair p with record := { (a.pair p).record with declineReason := some r } } := modPair_pair_same ..
  obtain ⟨d, record⟩ := start.record
  refine ⟨start.acts.trans (modRecord_actsOn p _ a), fun c => (start.contexts c), ?_, ?_, ?_, ⟨some r, ?_⟩,
    unraised_trans start.unraised (unraised_of_source rfl)⟩ <;> rw [unit]
  · exact start.state
  · exact start.delay
  · exact start.strikes
  · dsimp only
    rw [record]

theorem follows_of_emit {o : Output} {u : State} (h : Follows u t) : Follows (emit o u) t := { h with }

theorem exec_answerTimer {r : Run} {tm : Timer} (taking : s.taking) (engine : s.engine = some r)
    (running : r.answerTimer = some tm) :
    exec .answerTimerExpiry s = .next (settle (abortRun r.pair .noAnswer (reach tm s.silent))) := by
  have same : s.silent.engine = some r := engine
  have step : exec .answerTimerExpiry s = execAnswerTimerExpiry s := rfl
  rw [step, execAnswerTimerExpiry, takeCommand_taking _ taking]
  split
  · next idle => cases idle.symm.trans same
  · next r' held =>
    cases same.symm.trans held
    simp only [running, expire, answerTimerExpiry, State.silent]

/-- A request that aborts the run of its pair and is refused PROVING-ABORTED (R166 b). -/
theorem request_aborts {c : Instr} {q : ReqHead} {b : ReqBody} (opened : s.open) (proving : (s.pair p).state = .proving)
    (request : requestOf c = some (q, b)) (admits : Admits q b s) (plain : b ≠ .resetPart)
    (served : serveBody b (counted s) = refuse .provingAborted (abortRun p .write (counted s))) :
    ∃ t, exec c s = .next t ∧ Aborts p .write s t ∧
      (∀ (h : CtlHead) (r : Octet), c = .proveDecline p h r → (t.pair p).record.declineReason = reasonOf r) ∧
      (AbortCause.write = .crossed → (t.pair p).sends .proveAccept) ∧
      (∀ (q : ReqHead) (b : ReqBody), requestOf c = some (q, b) →
        Answers q (kindCode b) .provingAborted .empty s.cfg.stationAddress t) := by
  have start : AbortStart p s (counted s) :=
    ⟨{ ActsOn.refl p s with }, fun _ => rfl, rfl, rfl, rfl, ⟨_, rfl⟩, unraised_refl _ s⟩
  obtain ⟨t, ran, answered, ensues⟩ := exec_served opened request admits plain served (abortRun_reset opened.2)
  obtain ⟨aborted, -⟩ := start.aborts (cause := .write) (t := t)
    (y := emit (.reply (replyTo q b (refuse .provingAborted (abortRun p .write (counted s))))) (abortRun p .write (counted s)))
    proving (emit_abortEnd p _ _) (.inl (emit_pair ..)) ⟨follows_of_emit answered.follows, ensues⟩
  refine ⟨t, ran, aborted, fun h r same => ?_, by simp, fun q' b' request' => ?_⟩
  · rw [same] at request
    cases request
  · rw [request] at request'
    cases request'
    have cfg : (abortRun p .write (counted s)).cfg = s.cfg := by
      have kept : (abandoned p .write (counted s)).cfg = s.cfg :=
        settingsKept_cfg (abandoned_actsOn p .write (counted s)).settings
      exact (freeEngine_freed _).cfg.trans kept
    rw [Answers, ← cfg]
    exact answered.reply

end Causes

/-- Settles O25. -/
theorem runAborted : Obligations.RunAborted := by
  intro c p cause s opened proving run aborts admits
  suffices h : ∃ t, exec c s = .next t ∧ Aborts p cause s t ∧
      (∀ (h : CtlHead) (r : Octet), c = .proveDecline p h r → (t.pair p).record.declineReason = reasonOf r) ∧
      (cause = .crossed → (t.pair p).sends .proveAccept) ∧
      (∀ (q : ReqHead) (b : ReqBody), requestOf c = some (q, b) →
        Answers q (kindCode b) .provingAborted .empty s.cfg.stationAddress t) by
    obtain ⟨t, ran, ⟨a1, a2, a3, a4, a5, a6, a7, a8, a9, a10, a11, raised, down, told, freed⟩, reason, accept, answers⟩ := h
    refine ⟨t, ran, a1, a2, a3, a4, a5, a6, a7, a8, a9, a10, a11, reason, raised, down, fun by_ => ?_, accept, answers, freed⟩
    obtain ⟨sent, put⟩ := told by_
    exact ⟨sent, put.imp id fun x => .inl (any_of_payload x)⟩
  have receives : Receives p s := by rw [Receives, proving]; decide
  unfold abortedBy at aborts
  split at aborts
  · next q =>
    obtain ⟨rfl, rfl⟩ : q = p ∧ AbortCause.line = cause := by simpa using aborts
    have ran := exec_lineDown (p := q) opened.1
    have taken : lineDown q s.silent = settle (abortRun q .line (countPair q lineDownCounted s.silent)) := by
      have state : (s.silent.pair q).state = .proving := proving
      simp only [lineDown, state]
      rfl
    rw [taken] at ran
    obtain ⟨aborted, -⟩ := (counted_abortStart q lineDownCounted s).settled (cause := .line) proving opened.2
    exact ⟨_, ran, aborted, by simp, by simp, by simp [requestOf]⟩
  · next q h r =>
    split at aborts
    · next declines =>
      obtain ⟨length, code, requesting⟩ := declines
      obtain ⟨rfl, rfl⟩ : q = p ∧ AbortCause.declined = cause := by simpa using aborts
      obtain ⟨reason, named⟩ := reasonOf_of_le code
      have ran := exec_proveDecline opened.1 receives length named
      have still : (Heard q 1 s).requestingOn q = true := by
        rw [requestingOn_iff, heard_state]
        exact requestingOn_iff.1 requesting
      rw [takeDecline, if_pos still] at ran
      obtain ⟨aborted, kept⟩ := ((heard_abortStart q 1 s).declined reason).settled (cause := .declined) proving opened.2
      refine ⟨_, ran, aborted, fun h' r' same => ?_, by simp, by simp [requestOf]⟩
      cases same
      rw [kept, modRecord, modPair_pair_same, named]
    · cases aborts
  · obtain ⟨r, engine, timed⟩ := Option.bind_eq_some_iff.1 aborts
    split at timed
    · next running =>
      obtain ⟨rfl, rfl⟩ : r.pair = p ∧ AbortCause.noAnswer = cause := by simpa using timed
      obtain ⟨tm, timer⟩ := Option.isSome_iff_exists.1 running
      have ran : exec .answerTimerExpiry s = .next (settle (abortRun r.pair .noAnswer (reach tm s.silent))) :=
        exec_answerTimer opened.1 engine timer
      have start : AbortStart r.pair s (reach tm s.silent) :=
        ⟨(silent_actsOn r.pair s).trans (reach_actsOn r.pair tm _), fun _ => rfl, rfl, rfl, rfl, ⟨_, rfl⟩, unraised_refl _ s⟩
      obtain ⟨aborted, -⟩ := start.settled (cause := .noAnswer) proving opened.2
      exact ⟨_, ran, aborted, by simp, by simp, by simp [requestOf]⟩
    · cases timed
  · next q h e =>
    split at aborts
    · next releases =>
      obtain ⟨length, verdict⟩ := releases
      obtain ⟨rfl, rfl⟩ : q = p ∧ AbortCause.released = cause := by simpa using aborts
      have ran := exec_proveEnd (v := .released) opened.1 receives length (by rw [verdict]; rfl)
      have taken : takeEnd q .released e.delay.toNat (Heard q 3 s) = settle (abortRun q .released (Heard q 3 s)) := by
        have state : ((Heard q 3 s).pair q).state = .proving := (heard_state q 3 s).trans proving
        have same : (Heard q 3 s).runOn q = true := run
        simp [takeEnd, state, same]
      rw [taken] at ran
      obtain ⟨aborted, -⟩ := (heard_abortStart q 3 s).settled (cause := .released) proving opened.2
      exact ⟨_, ran, aborted, by simp, by simp, by simp [requestOf]⟩
    · cases aborts
  · next q h =>
    split at aborts
    · next crosses =>
      obtain ⟨length, consent, role⟩ := crosses
      obtain ⟨rfl, rfl⟩ : q = p ∧ AbortCause.crossed = cause := by simpa using aborts
      have ran := exec_proveRequest opened.1 receives length
      have taken : takeProveRequest q (Heard q 0 s) =
          settle (raiseCtl .proveAccept q (abortRun q .crossed (Heard q 0 s))) := by
        have state : ((Heard q 0 s).pair q).state = .proving := (heard_state q 0 s).trans proving
        have on : ((Heard q 0 s).pair q).cfg.echoConsent = true := by
          rw [heard_pair]
          exact consent
        have same : (Heard q 0 s).bond.role = .homestead := role
        simp [takeProveRequest, on, state, same]
      rw [taken] at ran
      have start := heard_abortStart q 0 s
      have unit : (raiseCtl .proveAccept q (abortRun q .crossed (Heard q 0 s))).pair q =
        PairUnit.raise .proveAccept ((abortRun q .crossed (Heard q 0 s)).pair q) := modPair_pair_same ..
      obtain ⟨aborted, -, accepts⟩ := start.aborts (cause := .crossed) proving (raiseCtl_abortEnd .proveAccept q _)
        (.inr ⟨rfl, unit⟩) (settle_followed (s := raiseCtl .proveAccept q (abortRun q .crossed (Heard q 0 s)))
          (abortRun_reset opened.2))
      exact ⟨_, ran, aborted, by simp, fun _ => accepts rfl unit, by simp [requestOf]⟩
    · cases aborts
  · split at aborts
    · next q o xs request =>
      obtain ⟨named, rfl⟩ : pairIndex o = some p ∧ AbortCause.write = cause := by simpa using aborts
      have served : serveBody (.writeSettings (.pair o xs)) (counted s) =
          refuse .provingAborted (abortRun p .write (counted s)) := by
        have same : (counted s).runOn p = true := run
        simp only [serveBody, serveWriteSettings, named, same, if_true]
      exact request_aborts opened proving request (admits _ _ request) (by simp) served
    · next q o action request =>
      split at aborts
      · cases aborts
      · next other =>
        obtain ⟨named, rfl⟩ : pairIndex o = some p ∧ AbortCause.write = cause := by simpa using aborts
        have served : serveBody (.pairCommand o action) (counted s) =
            refuse .provingAborted (abortRun p .write (counted s)) := by
          have same : (counted s).runOn p = true := run
          simp only [serveBody, servePairCommand, named, same, if_true, if_neg other]
        exact request_aborts opened proving request (admits _ _ request) (by simp) served
    · cases aborts

end Sys2Proof.Proofs
end

