-- ==== Sys2Proof/Proofs/ProvingSteps.lean ====
section
/-! PROOF. The outcome of a step and what the run goes on with (R158, R159, R161). -/

namespace Sys2Proof.Proofs
open Sys2Proof Sys2Proof.Machine Sys2Proof.Laws

/-! ## The comparison of an echo -/

/-- Two runs of octets differ first at offset `k` (R159 b). -/
def DiffersAt (es gs : List Octet) (k : Nat) (e g : Option Octet) : Prop :=
  gs.take k = es.take k ∧ e = es[k]? ∧ g = gs[k]? ∧ e ≠ g

theorem firstDifference_none_iff (i : Nat) (es gs : List Octet) : firstDifference i es gs = none ↔ gs = es := by
  induction es generalizing i gs with
  | nil => cases gs <;> simp [firstDifference]
  | cons e es ih =>
    cases gs with
    | nil => simp [firstDifference]
    | cons g gs =>
      by_cases same : e = g
      · simp [firstDifference, same, ih]
      · simp [firstDifference, same, Ne.symm same]

theorem firstDifference_some {i j : Nat} {es gs : List Octet} {e g : Option Octet}
    (h : firstDifference i es gs = some (j, e, g)) : ∃ k : Nat, j = i + k ∧ DiffersAt es gs k e g := by
  induction es generalizing i gs with
  | nil =>
    cases gs with
    | nil => cases h
    | cons y gs =>
      cases h
      exact ⟨0, rfl, rfl, rfl, rfl, by simp⟩
  | cons x es ih =>
    cases gs with
    | nil =>
      cases h
      exact ⟨0, rfl, rfl, rfl, rfl, by simp⟩
    | cons y gs =>
      by_cases same : x = y
      · simp only [firstDifference, if_pos same] at h
        obtain ⟨k, rfl, before, expected, received, differ⟩ := ih h
        exact ⟨k + 1, by omega, by simp [same, before], expected, received, differ⟩
      · simp only [firstDifference, if_neg same] at h
        cases h
        exact ⟨0, rfl, rfl, rfl, rfl, by simpa using same⟩

/-- The outcome that an echo gives (R159 a and b). -/
theorem echoOutcome_cases (now : Nat) (r : Run) (os : List Octet) :
    (os = stepPattern r.step ∧ echoOutcome now r os = .pass (roundTrip now r.started)) ∨
      os ≠ stepPattern r.step ∧ ∃ (k : Nat) (e g : Option Octet),
        echoOutcome now r os = .fail .mismatch (some k) e g ∧ DiffersAt (stepPattern r.step) os k e g := by
  unfold echoOutcome
  cases compared : firstDifference 0 (stepPattern r.step) os with
  | none => exact .inl ⟨(firstDifference_none_iff 0 _ _).1 compared, rfl⟩
  | some d =>
    obtain ⟨j, e, g⟩ := d
    obtain ⟨k, rfl, differs⟩ := firstDifference_some compared
    refine .inr ⟨fun same => ?_, k, e, g, by simp, differs⟩
    rw [(firstDifference_none_iff 0 _ _).2 same] at compared
    cases compared

/-! ## The command that ends a step -/

section Ending

variable {c : Instr} {p : PairNo} {r : Run} {o : StepOutcome} {s a t : State}

/-- The state that a command ends the outstanding step of pair `p` in: nothing but counts, the clock and the heard timer
has changed. -/
structure StepStart (p : PairNo) (s a : State) : Prop where
  acts : ActsOn p s a
  contexts : ContextsLeft s a
  state : (a.pair p).state = (s.pair p).state
  kept : (s.pair p).RecordKept (a.pair p)
  record : (a.pair p).record = (s.pair p).record
  engine : a.engine = s.engine
  sources : a.notices = s.notices

theorem heard_stepStart (p : PairNo) (n : Nat) (s : State) : StepStart p s (Heard p n s) := by
  have unit := heard_pair p n s
  refine ⟨(silent_actsOn p s).trans (modPair_actsOn rfl), fun c => ?_, heard_state p n s, ?_, ?_, rfl, rfl⟩
  · rw [Heard, modPair_cls]
    rfl
  · rw [unit]
    exact ⟨rfl, rfl, rfl, rfl, rfl, rfl, rfl, rfl, rfl⟩
  · rw [unit]
    rfl

theorem counted_stepStart (p : PairNo) (f : PairCounters → PairCounters) (s : State) :
    StepStart p s (countPair p f s.silent) := by
  have unit : (countPair p f s.silent).pair p = { s.pair p with n := f (s.pair p).n } := modPair_pair_same s.silent p _
  refine ⟨(silent_actsOn p s).trans (modPair_actsOn rfl), fun c => ?_, by rw [unit], ?_, by rw [unit], rfl, rfl⟩
  · rw [countPair, modPair_cls]
    rfl
  · rw [unit]
    exact ⟨rfl, rfl, rfl, rfl, rfl, rfl, rfl, rfl, rfl⟩

theorem reach_stepStart (p : PairNo) (tm : Timer) (s : State) : StepStart p s (reach tm s.silent) :=
  ⟨(silent_actsOn p s).trans (reach_actsOn p tm _), fun _ => rfl, rfl, ⟨rfl, rfl, rfl, rfl, rfl, rfl, rfl, rfl, rfl⟩, rfl, rfl,
    rfl⟩

theorem exec_stepTimer {tm : Timer} (taking : s.taking) (engine : s.engine = some r)
    (running : r.stepTimer = some tm) :
    exec .stepTimerExpiry s = .next (settle (endStep (.fail .timeout none none none) (reach tm s.silent))) := by
  have same : s.silent.engine = some r := engine
  have step : exec .stepTimerExpiry s = execStepTimerExpiry s := rfl
  rw [step, execStepTimerExpiry, takeCommand_taking _ taking]
  split
  · next idle => cases idle.symm.trans same
  · next r' held =>
    cases same.symm.trans held
    simp only [running, expire, stepTimerExpiry, State.silent]

/-- A command that gives the outstanding step its outcome ends the step and starts selections (R158, R159). -/
theorem exec_endsStep (opened : s.open) (proving : (s.pair p).state = .proving) (engine : s.engine = some r)
    (pair : r.pair = p) (outstanding : r.outstanding = true) (outcome : stepOutcome s r c = some o) :
    ∃ a : State, StepStart p s a ∧ exec c s = .next (settle (endStep o a)) := by
  have receives : Receives p s := by rw [Receives, proving]; decide
  unfold stepOutcome at outcome
  split at outcome
  · next q f =>
    split at outcome
    · next echoes =>
      obtain ⟨rfl, index, running⟩ := echoes
      obtain ⟨k, step, value⟩ := stepOf_of_le (q := f.step) (by have := r.step.isLt; omega)
      have current : r.step = k := Fin.ext (by rw [value, index])
      have ran := exec_proveEcho (f := f) opened.1 (pair ▸ receives) step
      have held : (Heard r.pair f.octets.length s).engine = some r := engine
      have state : ((Heard r.pair f.octets.length s).pair r.pair).state = .proving :=
        (heard_state ..).trans (pair ▸ proving)
      have taken : takeEcho r.pair k f.octets (Heard r.pair f.octets.length s) =
          settle (endStep (echoOutcome s.now r f.octets) (Heard r.pair f.octets.length s)) := by
        simp only [takeEcho, held, state, running, outstanding, current, decide_true, Bool.and_self, if_true]
        rfl
      rw [taken] at ran
      cases outcome
      exact ⟨_, pair ▸ heard_stepStart r.pair f.octets.length s, ran⟩
    · cases outcome
  · next q =>
    split at outcome
    · next same =>
      cases outcome
      have state : (s.silent.pair q).state = .proving := by rw [same]; exact pair ▸ proving
      have awaited : (s.silent.engine.any fun r => r.pair = q && r.outstanding) = true := by
        have held : s.silent.engine = some r := engine
        simp [held, same, outstanding]
      have taken : damaged q s.silent = settle (endStep (.fail .damaged none none none)
          (countPair q (fun n => { n with damaged := n.damaged + 1 }) s.silent)) := by
        simp only [damaged, state, awaited, if_true]
      have here : q = p := same.trans pair
      subst here
      exact ⟨_, counted_stepStart q (fun n => { n with damaged := n.damaged + 1 }) s,
        (takeCommand_taking (damaged q) opened.1).trans (congrArg Host.Outcome.next taken)⟩
    · cases outcome
  · split at outcome
    · next timed =>
      obtain ⟨tm, timer⟩ := Option.isSome_iff_exists.1 timed
      cases outcome
      exact ⟨_, reach_stepStart p tm s, exec_stepTimer opened.1 engine timer⟩
    · cases outcome
  · cases outcome

/-- The state in which a step has its outcome and the next has not begun (R159). -/
def stepped (r : Run) (o : StepOutcome) (s : State) : State :=
  modRecord r.pair (ProvingRecord.afterStep r.step o)
    { s with engine := some { r with outstanding := false, started := none, stepTimer := none } }

theorem stepped_pair (r : Run) (o : StepOutcome) (s : State) : (stepped r o s).pair r.pair =
    { s.pair r.pair with record := (s.pair r.pair).record.afterStep r.step o } :=
  modPair_pair_same { s with engine := some { r with outstanding := false, started := none, stepTimer := none } } r.pair _

theorem stepped_actsOn (r : Run) (o : StepOutcome) (s : State) : ActsOn r.pair s (stepped r o s) :=
  (engine_actsOn r.pair _ s).trans (modRecord_actsOn r.pair _ _)

theorem afterStep_done (k : Fin 16) (o : StepOutcome) (x : ProvingRecord) :
    (x.afterStep k o).stepsDone = x.stepsDone + 1 := by cases o <;> rfl

theorem endStep_eq (engine : a.engine = some r) : endStep o a =
    if 15 ≤ (a.pair r.pair).record.stepsDone then endRun r.pair (stepped r o a)
    else beginStep (r.step + 1) (stepped r o a) := by
  have done : ((stepped r o a).pair r.pair).record.stepsDone = (a.pair r.pair).record.stepsDone + 1 := by
    rw [stepped_pair, afterStep_done]
  have split_ : (16 ≤ ((stepped r o a).pair r.pair).record.stepsDone) = (15 ≤ (a.pair r.pair).record.stepsDone) := by
    rw [done]
    exact propext (by omega)
  unfold endStep
  rw [engine]
  simp only [← split_]
  rfl

/-- The record after a failed step (R159 b). -/
theorem afterStep_failed (k : Fin 16) (kind : FailKind) (off : Option Nat) (e g : Option Octet) (x : ProvingRecord) :
    (x.afterStep k (.fail kind off e g)).failures = x.failures + 1 ∧
      (x.afterStep k (.fail kind off e g)).minTrip = x.minTrip ∧
      (x.afterStep k (.fail kind off e g)).maxTrip = x.maxTrip ∧
      if x.failures ≠ 0 then (x.afterStep k (.fail kind off e g)).firstFailure = x.firstFailure
      else (x.afterStep k (.fail kind off e g)).firstFailure =
        some { step := k, kind := kind, offset := off, expected := e, received := g } := by
  refine ⟨rfl, rfl, rfl, ?_⟩
  split
  · next some' => exact if_neg some'
  · next none' => exact if_pos (not_not.1 none')

theorem afterStep_status (k : Fin 16) (o : StepOutcome) (x : ProvingRecord) :
    (x.afterStep k o).status = x.status ∧ (x.afterStep k o).endSlot = x.endSlot := by cases o <;> exact ⟨rfl, rfl⟩

end Ending

/-! ## The next step -/

section Next

variable {p : PairNo} {r : Run} {o : StepOutcome} {s a t : State}

/-- The state in which the next step has begun (R158). -/
def nextBegun (r : Run) (o : StepOutcome) (s : State) : State :=
  modPair r.pair (fun u => { u with
    proveSlot := some { echo := false, step := r.step + 1, octets := stepPattern (r.step + 1) } })
    { stepped r o s with engine := some { r with
      running := true, step := r.step + 1, outstanding := true, started := none, stepTimer := none } }

theorem next_eq (r : Run) (o : StepOutcome) (s : State) : beginStep (r.step + 1) (stepped r o s) = nextBegun r o s :=
  beginStep_eq (s := stepped r o s) (r := { r with outstanding := false, started := none, stepTimer := none }) (r.step + 1) rfl

theorem nextBegun_pair (r : Run) (o : StepOutcome) (s : State) : (nextBegun r o s).pair r.pair =
    { s.pair r.pair with
      record := (s.pair r.pair).record.afterStep r.step o
      proveSlot := some { echo := false, step := r.step + 1, octets := stepPattern (r.step + 1) } } := by
  have unit := stepped_pair r o s
  rw [nextBegun, modPair_pair_same]
  exact congrArg (fun u : PairUnit => { u with
    proveSlot := some { echo := false, step := r.step + 1, octets := stepPattern (r.step + 1) } }) unit

theorem nextBegun_actsOn (r : Run) (o : StepOutcome) (s : State) : ActsOn r.pair s (nextBegun r o s) :=
  ((stepped_actsOn r o s).trans (engine_actsOn r.pair _ _)).trans (modPair_actsOn rfl)

theorem nextBegun_cls (r : Run) (o : StepOutcome) (s : State) (c : ClassNo) : (nextBegun r o s).cls c = s.cls c := rfl

/-- What the end of a step that is not the last leaves, with what follows (R158, R159). -/
theorem step_followed (start : StepStart p s a) (proving : (s.pair p).state = .proving)
    (pair : r.pair = p) (reset : s.agent.reset = none) (k : Followed (nextBegun r o a) t) : (t.pair p).state = .proving ∧ (s.pair p).RecordKept (t.pair p) ∧ Beside p s t ∧
      ContextsLeft s t ∧
      t.engine.map (fun x => (x.pair, x.running, x.step, x.outstanding)) = some (p, true, r.step + 1, true) ∧
      (t.pair p).PatternPut (r.step + 1) ∧ { (t.pair p).record with endSlot := none } =
        { (s.pair p).record.afterStep r.step o with endSlot := none } := by
  subst pair
  have unit := nextBegun_pair r o a
  have state : ((nextBegun r o a).pair r.pair).state = .proving := by
    rw [unit]
    exact start.state.trans proving
  have awake : ((nextBegun r o a).pair r.pair).state ≠ .quiet := by rw [state]; decide
  have acts : ActsOn r.pair s (nextBegun r o a) := start.acts.trans (nextBegun_actsOn r o a)
  have steady := k.steady awake
  have contexts : ContextsLeft s t := fun c => by
    rw [k.follows.contexts c, nextBegun_cls, start.contexts c]
  have run := k.follows.engine
  refine ⟨(steady_state steady).trans state, recordKept_of_steady steady ?_, acts.beside k.follows reset, contexts, ?_,
    patternPut_of_slotPut ((k.ensues.pairs r.pair).slotPut awake (.inl ?_)), ?_⟩
  · rw [unit]
    exact start.kept
  · have mapped := congrArg (Option.map fun x : PairNo × Bool × Fin 16 × Bool × Option Timer => (x.1, x.2.1, x.2.2.1, x.2.2.2.1)) run
    rw [Option.map_map, Option.map_map] at mapped
    exact mapped
  · rw [unit]
  · rw [steady_record steady, unit, start.record]

/-- The trip times after a step that has passed (R159 a). -/
theorem afterStep_passed (k : Fin 16) (trip : Nat) (x : ProvingRecord) :
    (x.afterStep k (.pass trip)).failures = x.failures ∧ (x.afterStep k (.pass trip)).firstFailure = x.firstFailure ∧
      (x.afterStep k (.pass trip)).minTrip = some (min (x.minTrip.getD trip) trip) ∧
      (x.afterStep k (.pass trip)).maxTrip = some (max (x.maxTrip.getD trip) trip) := by
  refine ⟨rfl, rfl, ?_, ?_⟩
  · cases shortest : x.minTrip <;> simp [ProvingRecord.afterStep, shortest]
  · cases longest : x.maxTrip <;> simp [ProvingRecord.afterStep, longest]

/-- What a failed outcome says of the command that gives it (R158, R159 b). -/
theorem stepOutcome_failed {c : Instr} (outcome : stepOutcome s r c = some o) (pair : r.pair = p)
    (failed : ∀ f : ProbeFields, c = .proveEcho p f → f.octets ≠ stepPattern r.step) :
    ∃ (kind : FailKind) (off : Option Nat) (e g : Option Octet), o = .fail kind off e g ∧
      (c = .damaged p → kind = .damaged ∧ off = none ∧ e = none ∧ g = none) ∧
      (c = .stepTimerExpiry → kind = .timeout ∧ off = none ∧ e = none ∧ g = none) ∧
      ∀ f : ProbeFields, c = .proveEcho p f →
        kind = .mismatch ∧ ∃ k : Nat, off = some k ∧ DiffersAt (stepPattern r.step) f.octets k e g := by
  unfold stepOutcome at outcome
  split at outcome
  · next q f =>
    split at outcome
    · next echoes =>
      cases outcome
      obtain ⟨same, -⟩ := echoes
      have differs := failed f (by rw [same, pair])
      obtain ⟨equal, -⟩ | ⟨-, k, e, g, fails, at_⟩ := echoOutcome_cases s.now r f.octets
      · exact absurd equal differs
      · refine ⟨.mismatch, some k, e, g, fails, by simp, by simp, fun f' same => ?_⟩
        cases same
        exact ⟨rfl, k, rfl, at_⟩
    · cases outcome
  · split at outcome
    · cases outcome
      exact ⟨_, _, _, _, rfl, fun _ => ⟨rfl, rfl, rfl, rfl⟩, by simp, by simp⟩
    · cases outcome
  · split at outcome
    · cases outcome
      exact ⟨_, _, _, _, rfl, by simp, fun _ => ⟨rfl, rfl, rfl, rfl⟩, by simp⟩
    · cases outcome
  · cases outcome

end Next

/-- Settles O26. -/
theorem stepEnds : Obligations.StepEnds := by
  intro c p r s opened proving engine pair outstanding gives early
  obtain ⟨o, outcome⟩ := Option.isSome_iff_exists.1 gives
  obtain ⟨a, start, ran⟩ := exec_endsStep opened proving engine pair outstanding outcome
  have more : ¬ 15 ≤ (a.pair r.pair).record.stepsDone := by
    rw [pair, start.record]
    omega
  rw [endStep_eq (start.engine.trans engine), if_neg more, next_eq] at ran
  have reset : (nextBegun r o a).agent.reset = none := (nextBegun_actsOn r o a).reset (start.acts.reset opened.2)
  obtain ⟨state, kept, beside, contexts, run, put, record⟩ := step_followed start proving pair opened.2 (settle_followed reset)
  obtain ⟨status, -, -, steps, failures, first, minTrip, maxTrip, -⟩ := record_fields record
  refine ⟨_, ran, state, kept, beside, contexts, status.trans (afterStep_status ..).1, steps.trans (afterStep_done ..), run, put,
    fun f echo same => ?_, fun failed => ?_⟩
  · subst echo
    have pass : o = .pass (roundTrip s.now r.started) := by
      obtain ⟨-, passes⟩ | ⟨differs, -⟩ := echoOutcome_cases s.now r f.octets
      · simp only [stepOutcome, Option.ite_none_right_eq_some, Option.some.injEq] at outcome
        rw [← outcome.2, passes]
      · exact absurd same differs
    subst pass
    obtain ⟨failures', first', minTrip', maxTrip'⟩ := afterStep_passed r.step (roundTrip s.now r.started) (s.pair p).record
    refine ⟨failures.trans failures', first.trans first', fun started begun => ?_⟩
    rw [minTrip, maxTrip, minTrip', maxTrip', begun]
    exact ⟨rfl, rfl⟩
  · obtain ⟨kind, off, e, g, rfl, hit, late, echoed⟩ := stepOutcome_failed outcome pair failed
    obtain ⟨failures', minTrip', maxTrip', first'⟩ := afterStep_failed r.step kind off e g (s.pair p).record
    refine ⟨failures.trans failures', minTrip.trans minTrip', maxTrip.trans maxTrip', ?_⟩
    rw [first]
    split at first'
    · next some' => rw [if_pos some', first']
    · next none' =>
      rw [if_neg none']
      refine ⟨_, first', rfl, hit, late, fun f echo => ?_⟩
      obtain ⟨mismatch, k, offset, before, expected, received, differ⟩ := echoed f echo
      exact ⟨mismatch, k, offset, before, expected, received, differ⟩

end Sys2Proof.Proofs
end

