-- ==== Sys2Proof/Proofs/RunEnded.lean ====
section
/-! PROOF. The end of a run by its sixteenth outcome (R161). -/

namespace Sys2Proof.Proofs
open Sys2Proof Sys2Proof.Machine Sys2Proof.Laws

/-- The verdict that a record gives at the end of its run (R161 a). -/
def endVerdict (r : ProvingRecord) : Verdict := if r.failures = 0 then .passed else .failed

/-- Half the minimum round trip, where a step has passed (R161 b). -/
def endDelay (r : ProvingRecord) : Option Nat := r.minTrip.map (· / 2)

/-- The record at the end of its run, but for its end slot (R161 a and b). -/
def endRecord (r : ProvingRecord) : ProvingRecord :=
  { r with status := if r.failures = 0 then .passed else .failed, resultD := endDelay r }

/-- The unit of the pair at the end of its run, before it leaves PROVING (R161 a-c). -/
def endUnit (u : PairUnit) : PairUnit :=
  PairUnit.raise .proveEnd { u with
    record := { endRecord u.record with endSlot := some ⟨endVerdict u.record, (endDelay u.record).getD 0⟩ }
    delay := (endDelay u.record).getD u.delay }

/-- The state that a run's end sends its pair to (R161 d). -/
def stateAtEnd (r : ProvingRecord) (b : BondSettings) : PairState :=
  if r.failures = 0 then .joining else if b.barOnFail then .barred else .standby

theorem stateAtEnd_out (r : ProvingRecord) (b : BondSettings) : stateAtEnd r b ≠ .serving ∧ stateAtEnd r b ≠ .absent ∧
    stateAtEnd r b ≠ .quiet ∧ stateAtEnd r b ≠ .down := by
  unfold stateAtEnd
  split
  · decide
  · split <;> decide

section Ended

theorem keepPermitted_barred (ks : List Ctl) : keepPermitted .barred ks = [] :=
  List.filter_eq_nil_iff.2 fun k _ => by cases k <;> decide

theorem modPair_congr {p : PairNo} {f g : PairUnit → PairUnit} {s : State} (h : f (s.pair p) = g (s.pair p)) :
    modPair p f s = modPair p g s := by rw [modPair, modPair, h]

variable {p : PairNo} {s x y t : State}

/-- What the pair's exit from PROVING leaves at a run's end (R161 d). -/
def leftProving (p : PairNo) (s : State) : State :=
  moveTo p (stateAtEnd (s.pair p).record s.cfg) (modPair p endUnit s)

theorem concluded_eq (p : PairNo) (s : State) : concluded p s =
    if stateAtEnd (s.pair p).record s.cfg = .barred then raiseForPair .pairBarred p (leftProving p s)
    else leftProving p s := by
  have unit : raiseEnd p (if (s.pair p).record.failures = 0 then .passed else .failed)
      (((s.pair p).record.minTrip.map (· / 2)).getD 0)
      (modPair p (fun u => { u with delay := ((s.pair p).record.minTrip.map (· / 2)).getD u.delay })
        (modRecord p (fun r => { r with
          status := if r.failures = 0 then .passed else .failed,
          resultD := (s.pair p).record.minTrip.map (· / 2) }) s)) = modPair p endUnit s := by
    rw [raiseEnd, raiseCtl, modRecord, modRecord, modPair_modPair, modPair_modPair, modPair_modPair]
    exact modPair_congr rfl
  unfold concluded
  dsimp only
  rw [unit, leftProving, stateAtEnd]
  by_cases clean : (s.pair p).record.failures = 0
  · simp [clean]
  · by_cases bars : s.cfg.barOnFail = true
    · simp [clean, bars]
    · simp [clean, bars]

/-- What the engine finds of a run that has ended when it becomes free (R161 f). -/
def endedRun (p : PairNo) (s : State) : State :=
  raiseNotice .provingDone (doneArg (endVerdict (s.pair p).record) p) (concluded p s)

theorem endRun_freed (p : PairNo) (s : State) : endRun p s = freeEngine (endedRun p s) := endRun_eq p s

theorem endUnit_cfg (u : PairUnit) : (endUnit u).cfg = u.cfg := raise_cfg _ _

theorem concluded_pair (p q : PairNo) (s : State) : (concluded p s).pair q = (leftProving p s).pair q := by
  rw [concluded_eq]
  split <;> rfl

theorem endedRun_pair (p q : PairNo) (s : State) : (endedRun p s).pair q = (leftProving p s).pair q :=
  concluded_pair p q s

theorem endedRun_now (p : PairNo) (s : State) : (endedRun p s).now = s.now := by
  have now : (concluded p s).now = (leftProving p s).now := by
    rw [concluded_eq]
    split <;> rfl
  exact now.trans (moveTo_now p _ _)

theorem endedRun_actsOn (p : PairNo) (s : State) : ActsOn p s (endedRun p s) := by
  have left : ActsOn p s (leftProving p s) := (modPair_actsOn (endUnit_cfg _)).trans (moveTo_actsOn p _ _)
  have ended : ActsOn p s (concluded p s) := by
    rw [concluded_eq]
    split
    · exact left.trans (raiseNotice_actsOn p _ _ _)
    · exact left
  exact ended.trans (raiseNotice_actsOn p _ _ _)

theorem endedRun_departure (p : PairNo) (s : State) :
    Departure p (stateAtEnd (s.pair p).record s.cfg) (modPair p endUnit s) (endedRun p s) := by
  obtain ⟨out, present, -⟩ := stateAtEnd_out (s.pair p).record s.cfg
  refine (moveTo_departure (p := p) (modPair p endUnit s) out present).through ?_ ?_ fun c => ?_
  · rw [endedRun_pair, leftProving]
  · rw [endedRun_pair, leftProving]
  · rw [endedRun, raiseNotice, State.cls, concluded_eq]
    split <;> rfl

theorem endedRun_unwaiting (p : PairNo) (s : State) : ¬ Waiting ((endedRun p s).pair p) := fun waits => by
  obtain ⟨-, wanted⟩ := waits
  rw [endedRun_pair, leftProving, moveTo_unwanted p (stateAtEnd_out _ _).1] at wanted
  cases wanted

theorem leftProving_unraised {src : Source} (other : src ≠ .gapLoss) (p : PairNo) (s : State) :
    Unraised src s (leftProving p s) :=
  unraised_trans (t := modPair p endUnit s) (unraised_of_source (modPair_source ..)) (moveTo_unraised other p _ _)

theorem endedRun_raised (p : PairNo) (s : State) :
    RaisedOnce .provingDone (doneArg (endVerdict (s.pair p).record) p) s (endedRun p s) := by
  have before : Unraised .provingDone s (concluded p s) := by
    have left := leftProving_unraised (src := .provingDone) (by decide) p s
    rw [concluded_eq]
    split
    · exact unraised_trans left (raiseNotice_unraised _ _ _ _ (by decide))
    · exact left
  exact raisedOnce_after before (raiseNotice_raisedOnce ..)

/-- PAIR-BARRED is raised where the run's end bars its pair, and nowhere else (R161 d). -/
theorem endedRun_barred (p : PairNo) (s : State) : if stateAtEnd (s.pair p).record s.cfg = .barred then
    RaisedOnce .pairBarred (valueArg p.val) s (endedRun p s) else Unraised .pairBarred s (endedRun p s) := by
  have left := leftProving_unraised (src := .pairBarred) (by decide) p s
  rw [endedRun, concluded_eq]
  split
  · exact raisedOnce_before (raisedOnce_after left (raiseNotice_raisedOnce ..)) (raiseNotice_unraised _ _ _ _ (by decide))
  · exact unraised_trans left (raiseNotice_unraised _ _ _ _ (by decide))

/-- The record that the end of a run leaves (R161 a and b). -/
theorem endedRun_record (p : PairNo) (s : State) :
    { ((endedRun p s).pair p).record with endSlot := none } = { endRecord (s.pair p).record with endSlot := none } := by
  rw [endedRun_pair, leftProving, moveTo_provingRecord _ (stateAtEnd_out _ _).1, modPair_pair_same]
  exact (steady_record (raise_steady _ _)).trans rfl

/-- PROVE-END outlives the exit to JOINING and STANDBY (R29 c, R162). -/
theorem endedRun_tells (proving : (s.pair p).state = .proving)
    (unbarred : stateAtEnd (s.pair p).record s.cfg ≠ .barred) : .proveEnd ∈ ((endedRun p s).pair p).ctl := by
  obtain ⟨out, -, -, up⟩ := stateAtEnd_out (s.pair p).record s.cfg
  have permitted : Ctl.permitted .proveEnd (s.pair p).state = true := by rw [proving]; rfl
  have raised : .proveEnd ∈ (endUnit (s.pair p)).ctl := by
    rw [endUnit, PairUnit.raise, if_pos permitted]
    exact mem_addCtl.2 (.inl rfl)
  rw [endedRun_pair, leftProving, moveTo_ctl _ out, modPair_pair_same]
  unfold stateAtEnd at unbarred ⊢
  split
  · exact mem_addCtl.2 (.inr (List.mem_filter.2 ⟨raised, rfl⟩))
  · next failed =>
    rw [if_neg failed] at unbarred
    rw [if_neg fun bars => unbarred (if_pos bars)]
    exact List.mem_filter.2 ⟨raised, rfl⟩

/-- What the end of a run leaves of its pair, with what follows (R161). -/
theorem ended_followed (proving : (s.pair p).state = .proving) (k : Followed (freeEngine (endedRun p s)) t) :
    (t.pair p).Entered t.now s.cfg (stateAtEnd (s.pair p).record s.cfg) ∧
      (t.pair p).delay = (endDelay (s.pair p).record).getD (s.pair p).delay ∧ (t.pair p).strikes = (s.pair p).strikes ∧
      { (t.pair p).record with endSlot := none } = { endRecord (s.pair p).record with endSlot := none } ∧
      RaisedOnce .provingDone (doneArg (endVerdict (s.pair p).record) p) s t ∧
      (if stateAtEnd (s.pair p).record s.cfg = .barred then
        RaisedOnce .pairBarred (valueArg p.val) s t ∧ (t.pair p).ctl = [] ∧ (t.pair p).record.endSlot = none
      else Unraised .pairBarred s t ∧ (t.pair p).sends .proveEnd) ∧
      (stateAtEnd (s.pair p).record s.cfg = .joining → (t.pair p).sends .join) := by
  obtain ⟨out, -, rouses, -⟩ := stateAtEnd_out (s.pair p).record s.cfg
  have freed := freeEngine_freed (endedRun p s)
  have own : (freeEngine (endedRun p s)).pair p = (endedRun p s).pair p := freed.others p fun waits =>
    endedRun_unwaiting p s (waitingPair_waits waits)
  have departed := ((endedRun_departure p s).through (u := freeEngine (endedRun p s)) (by rw [own]) (by rw [own])
    freed.contexts).followed k out rouses
  obtain ⟨-, delay, -, -, strikes, -⟩ := departed.record
  have state : ((freeEngine (endedRun p s)).pair p).state = stateAtEnd (s.pair p).record s.cfg := by
    rw [own]
    exact (endedRun_departure p s).state
  have awake : ((freeEngine (endedRun p s)).pair p).state ≠ .quiet := by rw [state]; exact rouses
  have unit : (modPair p endUnit s).pair p = endUnit (s.pair p) := modPair_pair_same ..
  have steady := raise_steady .proveEnd { s.pair p with
    record := { endRecord (s.pair p).record with
      endSlot := some ⟨endVerdict (s.pair p).record, (endDelay (s.pair p).record).getD 0⟩ }
    delay := (endDelay (s.pair p).record).getD (s.pair p).delay }
  obtain ⟨strikes', -, -, -, delay', -⟩ := steady_fields steady
  have now : t.now = s.now := by rw [k.ensues.now, freed.now, endedRun_now]
  refine ⟨?_, ?_, ?_, ?_, k.raised (raisedOnce_before (endedRun_raised p s) (freed.unraised _ (by decide))) (by decide), ?_,
    fun joins => ?_⟩
  · rw [now]
    exact departed.enters
  · rw [delay, unit]
    exact delay'
  · rw [strikes, unit]
    exact strikes'
  · rw [steady_record (k.steady awake), own]
    exact endedRun_record p s
  · have raised := endedRun_barred p s
    split
    · next bars =>
      rw [if_pos bars] at raised
      have still := (k.ensues.pairs p).still (.inr (.inr (state.trans bars)))
      rw [still, own, endedRun_pair, leftProving, bars, moveTo_ctl _ (by decide), moveTo_provingRecord _ (by decide)]
      exact ⟨k.raised (raisedOnce_before raised (freed.unraised _ (by decide))) (by decide), keepPermitted_barred _, rfl⟩
    · next stays =>
      rw [if_neg stays] at raised
      refine ⟨k.unraised (unraised_trans raised (freed.unraised _ (by decide))) (by decide), k.sends awake (.inl ?_)⟩
      rw [own]
      exact endedRun_tells proving stays
  · refine k.sends awake ?_
    rw [own, endedRun_pair, leftProving, joins]
    exact moveTo_joining_sends p _

end Ended

/-- Settles O27. -/
theorem runEnds : Obligations.RunEnds := by
  intro c p r o s opened proving engine pair outstanding outcome last
  obtain ⟨a, start, ran⟩ := exec_endsStep opened proving engine pair outstanding outcome
  have done : 15 ≤ (a.pair r.pair).record.stepsDone := by rw [pair, start.record, last]
  rw [endStep_eq (start.engine.trans engine), if_pos done, endRun_freed] at ran
  subst pair
  have unit := stepped_pair r o a
  have running : ((stepped r o a).pair r.pair).state = .proving := by
    rw [unit]
    exact start.state.trans proving
  have acts : ActsOn r.pair s (stepped r o a) := start.acts.trans (stepped_actsOn r o a)
  have reset : (freeEngine (endedRun r.pair (stepped r o a))).agent.reset = none :=
    (freeEngine_freed _).reset ((acts.trans (endedRun_actsOn r.pair _)).reset opened.2)
  have k := settle_followed reset
  have idle : ¬ InService ((modPair r.pair endUnit (stepped r o a)).pair r.pair) := by
    have state : (endUnit ((stepped r o a).pair r.pair)).state = .proving := (raise_state _ _).trans running
    rw [InService, modPair_pair_same, state]
    decide
  have unwaiting : ¬ Waiting (s.pair r.pair) := fun waits => by cases proving.symm.trans waits.1
  have served : EngineServed r.pair s (endedRun r.pair (stepped r o a)) (freeEngine (endedRun r.pair (stepped r o a))) _ :=
    { acts := acts.trans (endedRun_actsOn r.pair _)
      contexts := fun c => ((endedRun_departure r.pair _).contexts idle c).trans (start.contexts c)
      unwaiting := iff_of_false (endedRun_unwaiting r.pair _) unwaiting
      others := fun _ _ => rfl
      aside := .refl r.pair _
      kept := fun _ => rfl
      engine := rfl
      followed := k }
  have cfg : (stepped r o a).cfg = s.cfg := settingsKept_cfg acts.settings
  have record : ((stepped r o a).pair r.pair).record = (s.pair r.pair).record.afterStep r.step o := by
    rw [unit, start.record]
  have delay : ((stepped r o a).pair r.pair).delay = (s.pair r.pair).delay := by
    obtain ⟨-, same, -⟩ := start.kept
    rw [unit]
    exact same
  have strikes : ((stepped r o a).pair r.pair).strikes = (s.pair r.pair).strikes := by
    obtain ⟨-, -, -, -, same, -⟩ := start.kept
    rw [unit]
    exact same
  have before : ∀ src : Source, Unraised src s (stepped r o a) := fun src =>
    unraised_of_source (show (stepped r o a).source src = s.source src from congrArg (fun n => n.sources.get (sourceIndex src)) start.sources)
  obtain ⟨enters, delay', strikes', fields, raised, barred, joins⟩ := ended_followed running k
  rw [record, cfg] at enters barred joins
  rw [record] at fields delay' raised
  obtain ⟨status, -, -, steps, failures, -, minTrip, -, result, -⟩ := record_fields fields
  have half : ((settle (freeEngine (endedRun r.pair (stepped r o a)))).pair r.pair).record.resultD =
      endDelay ((s.pair r.pair).record.afterStep r.step o) := result
  refine ⟨_, ran, steps.trans ((afterStep_done ..).trans (by rw [last])), failures, minTrip, ?_, ?_, strikes'.trans strikes, ?_,
    served.freed unwaiting⟩
  · rw [half, minTrip]
    rfl
  · rw [half, delay', delay]
  · have once := raisedOnce_after (before .provingDone) raised
    rw [failures]
    split
    · next clean =>
      have verdict : endVerdict ((s.pair r.pair).record.afterStep r.step o) = .passed := if_pos clean
      have joining : stateAtEnd ((s.pair r.pair).record.afterStep r.step o) s.cfg = .joining := if_pos clean
      rw [joining, if_neg (by decide)] at barred
      obtain ⟨unbarred, ends⟩ := barred
      rw [verdict] at once
      rw [joining] at enters
      exact ⟨status.trans (if_pos clean), enters, joins joining, ends, once, unraised_trans (before _) unbarred⟩
    · next failed =>
      have verdict : endVerdict ((s.pair r.pair).record.afterStep r.step o) = .failed := if_neg failed
      rw [verdict] at once
      refine ⟨status.trans (if_neg failed), once, ?_⟩
      have state : stateAtEnd ((s.pair r.pair).record.afterStep r.step o) s.cfg =
          if s.cfg.barOnFail then .barred else .standby := if_neg failed
      split
      · next bars =>
        rw [state, if_pos bars] at enters barred
        obtain ⟨raised', empty, slot⟩ := barred
        exact ⟨enters, empty, slot, raisedOnce_after (before _) raised'⟩
      · next stays =>
        rw [state, if_neg stays] at enters barred
        obtain ⟨unbarred, ends⟩ := barred
        exact ⟨enters, ends, unraised_trans (before _) unbarred⟩

end Sys2Proof.Proofs
end

