-- ==== Sys2Proof/Proofs/HoldTimer.lean ====
section
/-! PROOF. The expiry of a hold timer (R123, R124, R126, R138): what the collector's later work leaves of the count and
of the notice, and the declaration of next alone where the horizon rule is blocked. -/

namespace Sys2Proof.Proofs
open Sys2Proof Sys2Proof.Machine Sys2Proof.Laws

/-! ## HOLD-LOSS and GAP-LOSS through the work of the collector -/

section Marks

variable {s t u : State}

/-- No hold rule is counted, and a GAP-LOSS that is pending stays pending. -/
structure Unheld (s t : State) : Prop where
  counted : ∀ d : ClassNo, (t.cls d).n.holdLoss = (s.cls d).n.holdLoss
  pending : Raised .gapLoss s → Raised .gapLoss t

theorem Unheld.refl (s : State) : Unheld s s := ⟨fun _ => rfl, id⟩

theorem Unheld.trans (h : Unheld s t) (k : Unheld t u) : Unheld s u :=
  ⟨fun d => (k.counted d).trans (h.counted d), fun r => k.pending (h.pending r)⟩

theorem modClass_unheld {c : ClassNo} {f : ClassUnit → ClassUnit} {s : State}
    (h : (f (s.cls c)).n.holdLoss = (s.cls c).n.holdLoss) : Unheld s (modClass c f s) := by
  refine ⟨fun d => ?_, id⟩
  rw [modClass_cls]
  split
  · next same => rw [h, same]
  · rfl

theorem countClass_unheld (c : ClassNo) {f : ClassCounters → ClassCounters} {s : State}
    (h : (f (s.cls c).n).holdLoss = (s.cls c).n.holdLoss) : Unheld s (countClass c f s) := modClass_unheld h

theorem unheld_of_eq (classes : t.classes = s.classes) (notices : t.notices = s.notices) : Unheld s t :=
  ⟨fun d => by rw [State.cls, classes]; rfl, fun r => by rw [Raised, State.source, notices]; exact r⟩

theorem offerEgress_unheld {e : EgressEntry} (unflagged : e.resetReply = false) (s : State) :
    Unheld s (offerEgress e s) := by
  unfold offerEgress
  split
  · exact unheld_of_eq rfl rfl
  · simp only [unflagged]
    exact unheld_of_eq rfl rfl

theorem passOn_unheld (c : ClassNo) (f : Frame) (s : State) : Unheld s (passOn c f s) := by
  unfold passOn
  split
  · exact modClass_unheld rfl
  · split
    · exact (countClass_unheld (s := s) (f := fun n => { n with mgmtBond := n.mgmtBond + 1 }) c rfl).trans
        (unheld_of_eq rfl rfl)
    · split
      · exact unheld_of_eq rfl rfl
      · exact (modClass_unheld (s := s) (c := c) rfl).trans (offerEgress_unheld rfl _)

theorem tear_unheld (c : ClassNo) (s : State) : Unheld s (tear c s) := by
  unfold tear
  split
  · exact modClass_unheld rfl
  · exact .refl s

theorem setReasm_unheld (c : ClassNo) (r : Reasm) (s : State) : Unheld s (setReasm c r s) := modClass_unheld rfl

theorem reassemble_unheld (c : ClassNo) (first last : Bool) (payload : List Octet) (s : State) :
    Unheld s (reassemble c first last payload s) := by
  unfold reassemble
  split
  · exact (tear_unheld c s).trans (setReasm_unheld c _ _)
  · exact ((tear_unheld c s).trans (setReasm_unheld c _ _)).trans (passOn_unheld c _ _)
  · split
    · exact modClass_unheld rfl
    · exact (modClass_unheld (s := s) (c := c) rfl).trans (setReasm_unheld c _ _)
    · split
      · exact (modClass_unheld (s := s) (c := c) rfl).trans (setReasm_unheld c _ _)
      · split
        · exact (setReasm_unheld c _ s).trans (passOn_unheld c _ _)
        · exact setReasm_unheld c _ s

theorem reassembleLoss_unheld (c : ClassNo) (s : State) : Unheld s (reassembleLoss c s) := by
  unfold reassembleLoss
  split
  · exact (modClass_unheld (s := s) (c := c) rfl).trans (setReasm_unheld c _ _)
  · exact setReasm_unheld c _ s

theorem deliverUpTo_unheld (n : Nat) (c : ClassNo) (s : State) : Unheld s (deliverUpTo n c s) := by
  induction n generalizing s with
  | zero => exact .refl s
  | succ n ih =>
    rw [deliverUpTo]
    split
    · exact .refl s
    · exact ((modClass_unheld (s := s) (c := c) rfl).trans (reassemble_unheld c _ _ _ _)).trans (ih _)

theorem raiseNotice_pending (src other : Source) (a : NoticeArg) (s : State) (raised : Raised other s) :
    Raised other (raiseNotice src a s) := by
  by_cases same : other = src
  · subst same
    exact (raiseNotice_raisedOnce other a s).1
  · obtain ⟨pending, -⟩ := raiseNotice_unraised src other a s same
    exact pending.trans raised

theorem declared_unheld (c : ClassNo) (s : State) : Unheld s (declared c s) := by
  have counted := (reassembleLoss_unheld c s).trans (countClass_unheld (s := reassembleLoss c s)
    (f := fun n => { n with gapLost := n.gapLost + 1 }) c rfl)
  have raised : Unheld (countClass c (fun n => { n with gapLost := n.gapLost + 1 }) (reassembleLoss c s))
      (raiseNotice .gapLoss (valueArg c.val)
        (countClass c (fun n => { n with gapLost := n.gapLost + 1 }) (reassembleLoss c s))) :=
    ⟨fun _ => rfl, raiseNotice_pending .gapLoss .gapLoss _ _⟩
  have advanced := (counted.trans raised).trans (modClass_unheld (c := c) (f := fun k => { k with next := k.next + 1 }) rfl)
  exact advanced.trans (unheld_of_eq (t := declared c s) rfl rfl)

theorem declareLost_unheld (c : ClassNo) (s : State) : Unheld s (declareLost c s) := by
  rw [declareLost_eq]
  exact (declared_unheld c s).trans (deliverUpTo_unheld _ c _)

theorem declareUpTo_unheld (n : Nat) (c : ClassNo) (s : State) : Unheld s (declareUpTo n c s) := by
  induction n generalizing s with
  | zero => exact .refl s
  | succ n ih =>
    rw [declareUpTo]
    split
    · exact (declareLost_unheld c s).trans (ih _)
    · exact .refl s

theorem followGap_unheld (before : Seq) (c : ClassNo) (s : State) : Unheld s (followGap before c s) := by
  obtain ⟨hold, same⟩ := followGap_eq before c s
  rw [same]
  exact modClass_unheld rfl

/-- A declaration raises GAP-LOSS and sets the carried flag (R126). -/
theorem declared_marks (c : ClassNo) (s : State) : Raised .gapLoss (declared c s) ∧ (declared c s).bond.carried = true :=
  ⟨(raiseNotice_raisedOnce .gapLoss (valueArg c.val) _).1, rfl⟩

end Marks

/-! ## One declaration -/

/-- The class unit after one declaration of next, before the delivery pass (R126, R138). -/
theorem declared_cls (c : ClassNo) (s : State) : (declared c s).cls c = { s.cls c with
    next := (s.cls c).next + 1
    reasm := .discarding
    n := { (s.cls c).n with
      gapLost := (s.cls c).n.gapLost + 1
      lostFrame := (s.cls c).n.lostFrame + (match (s.cls c).reasm with | .building _ => 1 | _ => 0) } } := by
  have lost : (declared c s).cls c = { (reassembleLoss c s).cls c with
      next := ((reassembleLoss c s).cls c).next + 1
      n := { ((reassembleLoss c s).cls c).n with gapLost := ((reassembleLoss c s).cls c).n.gapLost + 1 } } := by
    rw [declared, setCarried_cls, modClass_cls_same, raiseNotice_cls, countClass, modClass_cls_same]
  have loss : (reassembleLoss c s).cls c = { s.cls c with
      reasm := .discarding
      n := { (s.cls c).n with
        lostFrame := (s.cls c).n.lostFrame + (match (s.cls c).reasm with | .building _ => 1 | _ => 0) } } := by
    unfold reassembleLoss
    split
    · next part building =>
      rw [setReasm, countClass, modClass_cls_same, modClass_cls_same, building]
    · next other =>
      rw [setReasm, modClass_cls_same]
      cases reasm : (s.cls c).reasm with
      | building part => exact absurd reasm (other part)
      | idle => simp
      | discarding => simp
  rw [lost, loss]

/-- A horizon set that is empty, or holds a pair whose horizon is NONE, blocks the horizon rule (R125). -/
theorem horizonRule_stopped {c : ClassNo} {s : State} (blocked : (∀ q : PairNo, (s.pair q).inHorizonSet = false) ∨
    ∃ q : PairNo, (s.pair q).inHorizonSet = true ∧ s.horizon c q = none) : horizonRule c s = false := by
  rcases blocked with empty | ⟨q, member, unknown⟩
  · simp [horizonRule, empty]
  · exact horizonRule_blocked member unknown

/-- The state in which the hold rule has been counted and its timer has stopped (R124). -/
def holdRuled (c : ClassNo) (s : State) : State :=
  modClass c (fun k => { k with hold := none, n := { k.n with holdLoss := k.n.holdLoss + 1 } }) s

theorem holdExpires_eq (c : ClassNo) (s : State) : holdExpires c s =
    followGap (s.cls c).next c (lossTests c (deliveryPass c (declared c (holdRuled c s)))) := rfl

/-- What the hold rule leaves where it declares next alone (R123, R124). -/
theorem holdExpires_alone {c : ClassNo} {s : State} (blocked : (∀ q : PairNo, (s.pair q).inHorizonSet = false) ∨
    ∃ q : PairNo, (s.pair q).inHorizonSet = true ∧ s.horizon c q = none)
    (missing : (s.cls c).next + 1 ∉ (s.cls c).held.map (·.seq)) : (holdExpires c s).cls c = { s.cls c with
      next := (s.cls c).next + 1
      reasm := .discarding
      hold := if (s.cls c).held = [] then none else some ⟨s.now, ms (s.cls c).cfg.holdTime⟩
      n := { (s.cls c).n with
        holdLoss := (s.cls c).n.holdLoss + 1
        gapLost := (s.cls c).n.gapLost + 1
        lostFrame := (s.cls c).n.lostFrame + (match (s.cls c).reasm with | .building _ => 1 | _ => 0) } } := by
  have marked : (holdRuled c s).cls c =
      { s.cls c with hold := none, n := { (s.cls c).n with holdLoss := (s.cls c).n.holdLoss + 1 } } := modClass_cls_same ..
  have unit := declared_cls c (holdRuled c s)
  rw [marked] at unit
  rw [holdExpires_eq]
  have pairs : (declared c (holdRuled c s)).pairs = s.pairs := (declared_collected c (holdRuled c s)).pairs
  have now : (declared c (holdRuled c s)).now = s.now := (declared_collected c (holdRuled c s)).now
  have passed : deliveryPass c (declared c (holdRuled c s)) = declared c (holdRuled c s) := deliveryPass_of_next_missing (by rw [unit]; exact missing)
  have unitOf : ∀ q : PairNo, (declared c (holdRuled c s)).pair q = s.pair q := fun q => by rw [State.pair, pairs]; rfl
  have horizons : ∀ q : PairNo, (declared c (holdRuled c s)).horizon c q = s.horizon c q := fun q => by rw [State.horizon, unit]; rfl
  have stopped : horizonRule c (declared c (holdRuled c s)) = false := by
    refine horizonRule_stopped (blocked.imp (fun empty q => ?_) fun ⟨q, member, unknown⟩ => ⟨q, ?_, ?_⟩)
    · rw [unitOf, empty]
    · rw [unitOf, member]
    · rw [horizons, unknown]
  rw [passed, lossTests_of_blocked stopped, followGap, modClass_cls_same, unit]
  have advanced : (s.cls c).next + 1 ≠ (s.cls c).next := by simp
  by_cases empty : (s.cls c).held = []
  · simp [ClassUnit.gap, empty]
  · have absent : heldAt ((s.cls c).next + 1) (s.cls c).held = none := heldAt_eq_none.2 missing
    have gap : (!(s.cls c).held.isEmpty && (heldAt ((s.cls c).next + 1) (s.cls c).held).isNone) = true := by
      rw [absent]
      simp [empty]
    simp only [ClassUnit.gap, gap, now, empty, Bool.not_true, Bool.false_eq_true, if_false, if_true, advanced, ne_eq,
      not_false_eq_true, decide_true, Bool.true_or]

/-- The hold rule is counted once, raises GAP-LOSS and sets the carried flag (R124, R126). -/
theorem holdExpires_marks (c : ClassNo) (s : State) : ((holdExpires c s).cls c).n.holdLoss = (s.cls c).n.holdLoss + 1 ∧
    (holdExpires c s).bond.carried = true ∧ Raised .gapLoss (holdExpires c s) := by
  have ruled := holdExpires_eq c s
  obtain ⟨raised, carried⟩ := declared_marks c (holdRuled c s)
  have counted : ((declared c (holdRuled c s)).cls c).n.holdLoss = (s.cls c).n.holdLoss + 1 := by
    rw [declared_cls, holdRuled, modClass_cls_same]
  generalize declared c (holdRuled c s) = d at ruled raised carried counted
  have passed : Unheld d (holdExpires c s) := by
    rw [ruled]
    exact (deliverUpTo_unheld _ c d).trans ((declareUpTo_unheld 8192 c _).trans (followGap_unheld (s.cls c).next c _))
  have later : Collected c d (holdExpires c s) := by
    rw [ruled]
    exact (deliveryPass_collected c d).trans ((declareUpTo_collected 8192 c _).trans (followGap_collected (s.cls c).next c _))
  exact ⟨(passed.counted c).trans counted, later.carried carried, passed.pending raised⟩

theorem holdExpires_delivers (c : ClassNo) (s : State) : Delivers c s (holdExpires c s) := by
  have ruled : Delivers c s (holdRuled c s) := modClass_delivers c _ s rfl rfl rfl
  have lost := ruled.trans (declareLost_delivers c (holdRuled c s))
  exact (lost.trans (lossTests_delivers c _)).trans (followGap_delivers (s.cls c).next c _)

/-- Settles O37. -/
theorem holdTimerDeclares : Obligations.HoldTimerDeclares := by
  intro c tm s opened running
  have delivers : Delivers c s (holdExpires c (reach tm s.silent)) := by
    have begun : Delivers c s (reach tm s.silent) := { Delivers.refl c s with }
    exact begun.trans (holdExpires_delivers c _)
  obtain ⟨t, ran, k⟩ : ∃ t, exec (.holdTimerExpiry c) s = .next t ∧ Followed (holdExpires c (reach tm s.silent)) t :=
    ⟨_, expire_running (timer := fun s => (s.cls c).hold) (f := fun s => finish (holdExpires c s)) opened.1 running,
      finish_followed (delivers.reset opened.2)⟩
  have marks : ((holdExpires c (reach tm s.silent)).cls c).n.holdLoss = (s.cls c).n.holdLoss + 1 ∧
    (holdExpires c (reach tm s.silent)).bond.carried = true ∧ Raised .gapLoss (holdExpires c (reach tm s.silent)) :=
    holdExpires_marks c (reach tm s.silent)
  have collected := holdExpires_collected c (reach tm s.silent)
  have alone := holdExpires_alone (c := c) (s := reach tm s.silent)
  have engine : (holdExpires c (reach tm s.silent)).engine = s.engine := collected.engine
  have reached : (holdExpires c (reach tm s.silent)).now = max s.now (tm.start + tm.dur) := collected.now
  generalize holdExpires c (reach tm s.silent) = h at delivers k marks engine reached alone
  obtain ⟨counted, carried, raised⟩ := marks
  have counters := k.ensues.counters c
  have now := k.ensues.now.trans reached
  have holdLoss : (t.cls c).n.holdLoss = (h.cls c).n.holdLoss := by
    have same := congrArg ClassCounters.holdLoss counters
    exact same
  obtain ⟨pending, -⟩ := k.ensues.unraised .gapLoss (by decide)
  refine ⟨t, ran, now, holdLoss.trans counted, k.follows.bond.2 carried, pending.trans raised, fun q => ?_, fun d other => ?_,
    SettingsKept_trans delivers.settings k.follows.settings, BondLeft_trans delivers.bond k.follows.bond,
    k.engineLeft engine, fun q => ?_, fun blocked missing => ?_⟩
  · rw [horizon_of_context (k.follows.contexts c), State.horizon, delivers.horizons]
    rfl
  · rw [k.follows.contexts d, delivers.others d other]
  · have same : h.pair q = s.pair q := by rw [State.pair, delivers.pairs]; rfl
    rw [← same]
    exact k.follows.pairs q
  · have unit := alone blocked missing
    have context := k.follows.contexts c
    have gapLost : (t.cls c).n.gapLost = (h.cls c).n.gapLost := by
      have same := congrArg ClassCounters.gapLost counters
      exact same
    have lostFrame : (t.cls c).n.lostFrame = (h.cls c).n.lostFrame := by
      have same := congrArg ClassCounters.lostFrame counters
      exact same
    obtain ⟨next, held, -, hold, reasm⟩ : (t.cls c).next = (h.cls c).next ∧ (t.cls c).held = (h.cls c).held ∧
        (t.cls c).horizons = (h.cls c).horizons ∧ (t.cls c).hold = (h.cls c).hold ∧
        (t.cls c).reasm = (h.cls c).reasm := by
      simpa only [ClassUnit.context, Prod.mk.injEq] using context
    rw [unit] at next held hold reasm gapLost lostFrame
    rw [now]
    exact ⟨next, held, gapLost, reasm, lostFrame, hold⟩

end Sys2Proof.Proofs
end

