-- ==== Sys2Proof/Proofs/ServiceEntry.lean ====
section
/-! SUPPORT. The entry to SERVING from JOINING and the completion of a wake (R35, R180): the pair's unit, what an offer, a
lapse and what follows the event leave of it, and the notices. -/

namespace Sys2Proof.Proofs
open Sys2Proof Sys2Proof.Machine Sys2Proof.Laws

/-! ## What an offer and its lapse leave of a unit -/

/-- The unit differs in its offer flags and its waiting kinds and handover alone, and sends the kinds that it sent but for
those of an offer. -/
structure Onward (u v : PairUnit) : Prop where
  steady : v.steady = { u.steady with
    offering := v.offering, offerSpent := v.offerSpent, offerTimer := v.offerTimer }
  sends : ∀ k : Ctl, k ≠ .quietOffer → k ≠ .quietAgree → u.sends k → v.sends k

section Onward

variable {now : Nat} {b : BondSettings} {u v w : PairUnit}

theorem Onward.refl (u : PairUnit) : Onward u u := ⟨rfl, fun _ _ _ => id⟩

theorem Onward.trans (h : Onward u v) (k : Onward v w) : Onward u w := by
  refine ⟨?_, fun c n m sent => k.sends c n m (h.sends c n m sent)⟩
  rw [k.steady, h.steady]

/-- What the unit keeps but for its offer flags, its queue and its kinds. -/
def plain (u : PairUnit) : PairUnit := { u.steady with offering := false, offerSpent := false, offerTimer := none }

theorem Onward.plain (h : Onward u v) : Proofs.plain v = Proofs.plain u := by rw [Proofs.plain, h.steady, Proofs.plain]

theorem onward_of_steady (steady : v.steady = u.steady) (sends : ∀ k : Ctl, u.sends k → v.sends k) : Onward u v := by
  have offering := steady_offering steady
  obtain ⟨spent, timer⟩ : v.offerSpent = u.offerSpent ∧ v.offerTimer = u.offerTimer := by
    have spent := congrArg PairUnit.offerSpent steady
    have timer := congrArg PairUnit.offerTimer steady
    exact ⟨spent, timer⟩
  refine ⟨?_, fun k _ _ => sends k⟩
  rw [offering, spent, timer, steady]
  rfl

theorem PairSteps.onward (h : PairSteps now b u v) (awake : u.state ≠ .quiet) : Onward u v :=
  onward_of_steady (h.steady awake) fun _ => h.sends awake

theorem raise_keeps (k c : Ctl) (u : PairUnit) (sent : u.sends c) : (u.raise k).sends c := by
  unfold PairUnit.raise
  split
  · exact sent.imp (fun m => mem_addCtl.2 (.inr m)) id
  · exact sent

theorem raise_onward (k : Ctl) (u : PairUnit) : Onward u (u.raise k) :=
  onward_of_steady (raise_steady k u) fun c => raise_keeps k c u

theorem offerBegun_onward (o : Timer) (u : PairUnit) : Onward u (offerBegun o u) := by
  have steady := raise_steady .quietOffer { u with offering := true, offerSpent := true, offerTimer := some o }
  have begun : Onward u { u with offering := true, offerSpent := true, offerTimer := some o } := ⟨rfl, fun _ _ _ => id⟩
  exact begun.trans (raise_onward .quietOffer _)

theorem lapsed_onward (u : PairUnit) : Onward u (lapsed u) := by
  refine ⟨rfl, fun k plain plain' sent => sent.imp (fun m => ?_) id⟩
  simpa [lapsed, dropCtl, plain, plain'] using m

theorem testOffers_onward (s : State) (q : PairNo) : Onward (s.pair q) ((testOffers allPairs s).pair q) := by
  have sorted : allPairs.Pairwise (· < ·) := by decide
  rcases testOffers_pair sorted s q with ⟨begun, -⟩ | ⟨same, -⟩
  · rw [begun]
    exact offerBegun_onward _ _
  · rw [same]
    exact .refl _

end Onward

/-! ## The unit that enters SERVING -/

/-- The unit of a pair that enters SERVING, before the offer tests: with RESTART-ASK raised where the bond asks, and with the
idle flag set where a wake by probe or line completes (R35, R43, R172, R180). -/
def servingUnit (asks idle : Bool) (now : Nat) (b : BondSettings) (u : PairUnit) : PairUnit :=
  let v := PairUnit.enter now b .serving u
  let v := if asks then v.raise .restartAsk else v
  if idle then { v with idleTimer := none, idle := v.cfg.quietWait != 0 } else v

/-- The bond asks for a restart (R43). -/
def asksRestart (s : State) : Bool := s.bond.role = .homestead && s.bond.asking

theorem enterServing_eq (idle : Bool) (p : PairNo) (s : State) : enterServing idle p s =
    testOffers allPairs (modPair p (servingUnit (asksRestart s) idle s.now s.cfg) s) := by
  have bond : (enterState p .serving s).bond = s.bond := rfl
  unfold enterServing servingUnit asksRestart
  dsimp only
  rw [bond]
  by_cases asks : (decide (s.bond.role = .homestead) && s.bond.asking) = true
  · cases idle
    · simp only [asks, if_true, Bool.false_eq_true, if_false]
      rw [raiseCtl, enterState, modPair_modPair]
    · simp only [asks, if_true]
      rw [raiseCtl, enterState, modPair_modPair, modPair_modPair]
  · cases idle
    · simp only [asks, if_false, Bool.false_eq_true]
      rfl
    · simp only [asks, if_false, if_true, Bool.false_eq_true]
      rw [enterState, modPair_modPair]

/-- What a pair has of its entry to SERVING: the timers and figures, and ALIVE and RESTART-ASK on their way (R35). -/
structure Serves (now : Nat) (b : BondSettings) (asks : Bool) (u v : PairUnit) : Prop where
  entered : v.Entered now b .serving
  rate : v.rate = u.rate
  delay : v.delay = u.delay
  strikes : v.strikes = u.strikes
  far : v.farPair = u.farPair ∧ v.farRole = u.farRole
  alive : v.sends .alive
  asked : asks = true → v.sends .restartAsk

section Serves

variable {now : Nat} {b : BondSettings} {asks idle : Bool} {u v w : PairUnit}

theorem enter_serving_sends (now : Nat) (b : BondSettings) (u : PairUnit) : .alive ∈ (PairUnit.enter now b .serving u).ctl := by
  have ctl : (PairUnit.enter now b .serving u).ctl = addCtl .alive (keepPermitted .serving u.ctl) := by
    simp only [PairUnit.enter, if_true, PairUnit.startWindow]
    split <;> rfl
  rw [ctl]
  exact mem_addCtl.2 (.inl rfl)

theorem enter_serving_far (now : Nat) (b : BondSettings) (u : PairUnit) :
    (PairUnit.enter now b .serving u).farPair = u.farPair ∧ (PairUnit.enter now b .serving u).farRole = u.farRole := by
  simp only [PairUnit.enter, if_true, PairUnit.startWindow]
  split <;> exact ⟨rfl, rfl⟩

theorem enter_serving_idle (now : Nat) (b : BondSettings) (u : PairUnit) :
    (PairUnit.enter now b .serving u).idle = false ∧ (PairUnit.enter now b .serving u).idleTimer = u.idleStart now := by
  simp only [PairUnit.enter, if_true, PairUnit.startWindow]
  split <;> exact ⟨rfl, rfl⟩

/-- The unit that enters SERVING but for the idle flag and timer. -/
theorem servingUnit_onward (asks idle : Bool) (now : Nat) (b : BondSettings) (u : PairUnit) :
    Onward { PairUnit.enter now b .serving u with
      idle := (servingUnit asks idle now b u).idle, idleTimer := (servingUnit asks idle now b u).idleTimer }
      (servingUnit asks idle now b u) := by
  have raised : Onward (PairUnit.enter now b .serving u)
      (if asks then (PairUnit.enter now b .serving u).raise .restartAsk else PairUnit.enter now b .serving u) := by
    split
    · exact raise_onward _ _
    · exact .refl _
  unfold servingUnit
  dsimp only
  generalize (if asks then (PairUnit.enter now b .serving u).raise .restartAsk else PairUnit.enter now b .serving u) = v
    at raised
  split
  · refine ⟨?_, raised.sends⟩
    have steady := congrArg (fun x : PairUnit => { x with idleTimer := none, idle := v.cfg.quietWait != 0 }) raised.steady
    exact steady
  · obtain ⟨idle, timer⟩ : v.idle = (PairUnit.enter now b .serving u).idle ∧
        v.idleTimer = (PairUnit.enter now b .serving u).idleTimer := by
      have idle := congrArg PairUnit.idle raised.steady
      have timer := congrArg PairUnit.idleTimer raised.steady
      exact ⟨idle, timer⟩
    rw [idle, timer]
    exact raised

/-- What the unit keeps of an offer and of the idle timer besides (R172). -/
def calm (u : PairUnit) : PairUnit := { plain u with idle := false, idleTimer := none }

theorem Onward.calm (h : Onward u v) : Proofs.calm v = Proofs.calm u := by rw [Proofs.calm, h.plain, Proofs.calm]

theorem Onward.idling (h : Onward u v) : v.idle = u.idle ∧ v.idleTimer = u.idleTimer := by
  have idle := congrArg PairUnit.idle h.steady
  have timer := congrArg PairUnit.idleTimer h.steady
  exact ⟨idle, timer⟩

theorem entered_calm (u : PairUnit) : u.Entered now b .serving ↔ (calm u).Entered now b .serving := by
  simp [PairUnit.Entered, calm, plain, PairUnit.steady]

/-- The fields of a unit that neither an offer nor the idle timer touches. -/
theorem calm_fields (h : calm v = calm u) : v.rate = u.rate ∧ v.delay = u.delay ∧ v.strikes = u.strikes ∧
    v.farPair = u.farPair ∧ v.farRole = u.farRole ∧ v.wakeErrors = u.wakeErrors ∧ v.noQuiet = u.noQuiet ∧ v.n = u.n ∧
    v.cfg = u.cfg ∧ v.state = u.state := by
  have rate := congrArg PairUnit.rate h
  have delay := congrArg PairUnit.delay h
  have strikes := congrArg PairUnit.strikes h
  have far := congrArg PairUnit.farPair h
  have role := congrArg PairUnit.farRole h
  have errors := congrArg PairUnit.wakeErrors h
  have flag := congrArg PairUnit.noQuiet h
  have counters := congrArg PairUnit.n h
  have cfg := congrArg PairUnit.cfg h
  have state := congrArg PairUnit.state h
  exact ⟨rate, delay, strikes, far, role, errors, flag, counters, cfg, state⟩

theorem Serves.of_calm (h : Serves now b asks u v) (same : calm w = calm v)
    (sends : ∀ k : Ctl, k ≠ .quietOffer → k ≠ .quietAgree → v.sends k → w.sends k) : Serves now b asks u w := by
  obtain ⟨rate, delay, strikes, far, role, -⟩ := calm_fields same
  exact {
    entered := by rw [entered_calm, same, ← entered_calm]; exact h.entered
    rate := rate.trans h.rate
    delay := delay.trans h.delay
    strikes := strikes.trans h.strikes
    far := ⟨far.trans h.far.1, role.trans h.far.2⟩
    alive := sends _ (by decide) (by decide) h.alive
    asked := fun asks => sends _ (by decide) (by decide) (h.asked asks) }

theorem Serves.onward (h : Serves now b asks u v) (k : Onward v w) : Serves now b asks u w := h.of_calm k.calm k.sends

theorem servingUnit_calm (asks idle : Bool) (now : Nat) (b : BondSettings) (u : PairUnit) :
    calm (servingUnit asks idle now b u) = calm (PairUnit.enter now b .serving u) := (servingUnit_onward ..).calm

theorem servingUnit_flags (asks idle : Bool) (now : Nat) (b : BondSettings) (u : PairUnit) :
    (servingUnit asks idle now b u).idle = (idle && u.cfg.quietWait != 0) ∧
      (servingUnit asks idle now b u).idleTimer = if idle then none else u.idleStart now := by
  obtain ⟨-, -, -, -, -, cfg, -⟩ := enter_kept now b .serving u
  obtain ⟨flag, timer⟩ := enter_serving_idle now b u
  have raised : Onward (PairUnit.enter now b .serving u)
      (if asks then (PairUnit.enter now b .serving u).raise .restartAsk else PairUnit.enter now b .serving u) := by
    split
    · exact raise_onward _ _
    · exact .refl _
  obtain ⟨same, same'⟩ := raised.idling
  obtain ⟨-, -, -, -, -, -, -, -, settings, -⟩ := calm_fields raised.calm
  unfold servingUnit
  cases idle
  · exact ⟨same.trans flag, same'.trans timer⟩
  · dsimp only
    rw [if_pos rfl, settings, cfg]
    exact ⟨by simp, rfl⟩

theorem servingUnit_serves (asks idle : Bool) (now : Nat) (b : BondSettings) (u : PairUnit) :
    Serves now b asks u (servingUnit asks idle now b u) := by
  obtain ⟨delay, strikes, -⟩ := enter_kept now b .serving u
  have entered : Serves now b false u (PairUnit.enter now b .serving u) :=
    ⟨enter_entered .., (enter_rate ..).trans (if_neg (by decide)), delay, strikes, enter_serving_far .., .inl (enter_serving_sends ..), by simp⟩
  have away := entered.of_calm (servingUnit_calm asks idle now b u) fun k plain plain' => (servingUnit_onward asks idle now b u).sends k plain plain'
  refine { away with asked := fun asks' => ?_ }
  have permitted : Ctl.permitted .restartAsk (PairUnit.enter now b .serving u).state = true := by
    rw [(enter_entered now b .serving u).1]
    rfl
  have sent := raise_sends permitted
  unfold servingUnit
  dsimp only
  rw [if_pos asks']
  split <;> exact sent

end Serves

/-! ## The two ways into SERVING -/

section Entering

variable {p : PairNo} {idle : Bool} {s x y t : State}

/-- The wake errors and the counts that an entry to SERVING leaves, from WAKING and otherwise (R180, R182). -/
def WakeFigures (p : PairNo) (s t : State) : Prop :=
  if (s.pair p).state = .waking then
    (t.pair p).n.wakeDone = (s.pair p).n.wakeDone + 1 ∧
    (if ms s.cfg.wakeLimit < s.now - (s.pair p).wakeStart then
      (t.pair p).wakeErrors = min 15 ((s.pair p).wakeErrors + 1) ∧
      (t.pair p).n.wakeError = (s.pair p).n.wakeError + 1 ∧ RaisedOnce .wakeError (valueArg p.val) s t ∧
      ((t.pair p).noQuiet = true ↔
        (s.pair p).noQuiet = true ∨ s.cfg.wakeErrorLimit ≤ min 15 ((s.pair p).wakeErrors + 1))
    else (t.pair p).wakeErrors = (s.pair p).wakeErrors ∧ (t.pair p).noQuiet = (s.pair p).noQuiet ∧
      Unraised .wakeError s t)
  else (t.pair p).wakeErrors = (s.pair p).wakeErrors ∧ Unraised .wakeError s t

/-- Pair `p` has entered SERVING from `s`; `idle` says whether its idle flag may be set (R35, R172, R180). -/
structure Entering (p : PairNo) (idle : Bool) (s x : State) : Prop where
  event : PairEvent p s x
  now : x.now = s.now
  engine : x.engine = s.engine
  serves : Serves s.now s.cfg (asksRestart s) (s.pair p) (x.pair p)
  flags : (x.pair p).idle = (idle && (s.pair p).cfg.quietWait != 0) ∧
    (x.pair p).idleTimer = if idle then none else (s.pair p).idleStart s.now
  up : RaisedOnce .pairUp (valueArg p.val) s x
  figures : WakeFigures p s x

theorem enterServing_rest (idle : Bool) (p : PairNo) (s : State) :
    enterServing idle p s = { s with pairs := (enterServing idle p s).pairs } := by
  rw [enterServing_eq]
  exact testOffers_pairs _ _

theorem enterServing_others (idle : Bool) (p : PairNo) (s : State) : (enterServing idle p s).notices = s.notices ∧
    (enterServing idle p s).now = s.now ∧ (enterServing idle p s).engine = s.engine := by
  have rest := enterServing_rest idle p s
  have notices := congrArg State.notices rest
  have now := congrArg State.now rest
  have engine := congrArg State.engine rest
  exact ⟨notices, now, engine⟩

theorem unraised_of_notices (h : t.notices = s.notices) (src : Source) : Unraised src s t :=
  unraised_of_source (congrArg (fun n => n.sources.get (sourceIndex src)) h)

theorem enterServing_unit (idle : Bool) (p : PairNo) (s : State) :
    Onward (servingUnit (asksRestart s) idle s.now s.cfg (s.pair p)) ((enterServing idle p s).pair p) := by
  have tested := testOffers_onward (modPair p (servingUnit (asksRestart s) idle s.now s.cfg) s) p
  rw [modPair_pair_same] at tested
  rw [enterServing_eq]
  exact tested

theorem joinServing_entering (joining : (s.pair p).state = .joining) : Entering p false s (joinServing p s) := by
  have whole : joinServing p s = raiseForPair .pairUp p (enterServing false p s) := rfl
  have event := enterServing_pairEvent false p s
  obtain ⟨notices, now, engine⟩ := enterServing_others false p s
  have unit := enterServing_unit false p s
  obtain ⟨flag', timer'⟩ := servingUnit_flags (asksRestart s) false s.now s.cfg (s.pair p)
  obtain ⟨-, -, errors, -⟩ := enter_kept s.now s.cfg .serving (s.pair p)
  have same := servingUnit_calm (asksRestart s) false s.now s.cfg (s.pair p)
  have served := servingUnit_serves (asksRestart s) false s.now s.cfg (s.pair p)
  have unwaking : (s.pair p).state ≠ .waking := by rw [joining]; decide
  rw [whole]
  generalize enterServing false p s = x at *
  generalize servingUnit (asksRestart s) false s.now s.cfg (s.pair p) = v at *
  obtain ⟨flag, timer⟩ := unit.idling
  obtain ⟨-, -, -, -, -, errors', -⟩ := calm_fields (unit.calm.trans same)
  exact {
    event := event.trans (raiseForPair_pairEvent p _ _ _)
    now := now
    engine := engine
    serves := served.onward unit
    flags := ⟨flag.trans flag', timer.trans timer'⟩
    up := raisedOnce_after (unraised_of_notices notices _) (raiseNotice_raisedOnce ..)
    figures := by
      rw [WakeFigures, if_neg unwaking]
      exact ⟨errors'.trans errors, unraised_trans (unraised_of_notices notices _)
        (raiseNotice_unraised .pairUp .wakeError _ _ (by decide))⟩ }

/-- The cause of the wake lets the idle flag be set at its completion (R172, R180 c). -/
def wakesIdle (u : PairUnit) : Bool := u.wakeCause = some .probe || u.wakeCause = some .line

/-- A wake took longer than the *wake limit* (R180 a). -/
abbrev WokeLate (u : PairUnit) (s : State) : Prop := ms s.cfg.wakeLimit < s.now - u.wakeStart

/-- The state in which a wake's lateness has been tested and its handover cut off (R4, R180 a). -/
def wakeTested (p : PairNo) (s : State) : State :=
  cutHandover false p (if WokeLate (s.pair p) s then wakeError p s else s)

theorem completeWake_whole (p : PairNo) (s : State) : completeWake p s = raiseForPair .pairUp p
    (countPair p (fun n => { n with wakeDone := n.wakeDone + 1 })
      (enterServing (wakesIdle (s.pair p)) p (wakeTested p s))) := rfl

/-- What the tests at the completion of a wake leave (R180 a, R182). -/
theorem wakeTested_leaves (p : PairNo) (s : State) : PairEvent p s (wakeTested p s) ∧ (wakeTested p s).now = s.now ∧
    (wakeTested p s).engine = s.engine ∧ Unraised .pairUp s (wakeTested p s) ∧
    ((wakeTested p s).pair p).steady =
      (if WokeLate (s.pair p) s then wakeErred s.cfg.wakeErrorLimit (s.pair p) else s.pair p).steady ∧
    if WokeLate (s.pair p) s then RaisedOnce .wakeError (valueArg p.val) s (wakeTested p s)
    else Unraised .wakeError s (wakeTested p s) := by
  have cut : ∀ x : State, PairEvent p x (cutHandover false p x) ∧ (cutHandover false p x).now = x.now ∧
      (cutHandover false p x).engine = x.engine ∧ (cutHandover false p x).notices = x.notices ∧
      ((cutHandover false p x).pair p).steady = (x.pair p).steady := fun x => by
    refine ⟨cutHandover_pairEvent false p x, ?_, ?_, ?_, ?_⟩
    · unfold cutHandover
      split <;> rfl
    · unfold cutHandover
      split <;> rfl
    · unfold cutHandover
      split <;> rfl
    · rw [cutHandover_pair, if_pos rfl, cutUnit_steady]
  unfold wakeTested
  obtain ⟨event, now, engine, notices, steady⟩ := cut (if WokeLate (s.pair p) s then wakeError p s else s)
  generalize cutHandover false p (if WokeLate (s.pair p) s then wakeError p s else s) = x at *
  by_cases late : WokeLate (s.pair p) s
  · rw [if_pos late] at event now engine notices steady
    rw [if_pos late, if_pos late]
    have unit : (wakeError p s).pair p = wakeErred s.cfg.wakeErrorLimit (s.pair p) := by
      rw [wakeError_eq, raiseForPair_pair, modPair_pair_same]
    have raised : RaisedOnce .wakeError (valueArg p.val) s (wakeError p s) :=
      raisedOnce_after (t := modPair p (wakeErred s.cfg.wakeErrorLimit) s) (unraised_of_notices rfl _)
        (raiseNotice_raisedOnce ..)
    have quiet : Unraised .pairUp s (wakeError p s) :=
      unraised_trans (t := modPair p (wakeErred s.cfg.wakeErrorLimit) s) (unraised_of_notices rfl _)
        (raiseNotice_unraised .wakeError .pairUp _ _ (by decide))
    exact ⟨(wakeError_pairEvent p s).trans event, now, engine, unraised_trans quiet (unraised_of_notices notices _),
      by rw [steady, unit], raisedOnce_before raised (unraised_of_notices notices _)⟩
  · rw [if_neg late] at event now engine notices steady
    rw [if_neg late, if_neg late]
    exact ⟨event, now, engine, unraised_of_notices notices _, steady, unraised_of_notices notices _⟩

theorem calm_of_steady {u v : PairUnit} (h : v.steady = u.steady) : calm v = calm u := by rw [calm, plain, h, calm, plain]

theorem Serves.counted {now : Nat} {b : BondSettings} {asks : Bool} {u v : PairUnit} (h : Serves now b asks u v)
    (n : PairCounters) : Serves now b asks u { v with n := n } :=
  ⟨h.entered, h.rate, h.delay, h.strikes, h.far, h.alive, h.asked⟩

/-- The figures of an entry count from any unit that agrees with its own but for counts, errors and the offer. -/
theorem Serves.from {now : Nat} {b : BondSettings} {asks : Bool} {u u' v : PairUnit} (h : Serves now b asks u v)
    (rate : u.rate = u'.rate) (delay : u.delay = u'.delay) (strikes : u.strikes = u'.strikes)
    (far : u.farPair = u'.farPair ∧ u.farRole = u'.farRole) : Serves now b asks u' v :=
  ⟨h.entered, h.rate.trans rate, h.delay.trans delay, h.strikes.trans strikes, ⟨h.far.1.trans far.1, h.far.2.trans far.2⟩,
    h.alive, h.asked⟩

theorem asksRestart_congr (h : t.bond = s.bond) : asksRestart t = asksRestart s := by rw [asksRestart, h, asksRestart]

theorem completeWake_entering (waking : (s.pair p).state = .waking) :
    Entering p (wakesIdle (s.pair p)) s (completeWake p s) := by
  obtain ⟨before, now', engine', quiet, steady, error⟩ := wakeTested_leaves p s
  have whole := completeWake_whole p s
  have event := enterServing_pairEvent (wakesIdle (s.pair p)) p (wakeTested p s)
  obtain ⟨notices, now, engine⟩ := enterServing_others (wakesIdle (s.pair p)) p (wakeTested p s)
  have unit := enterServing_unit (wakesIdle (s.pair p)) p (wakeTested p s)
  have cfg : (wakeTested p s).cfg = s.cfg := settingsKept_cfg before.settings
  rw [asksRestart_congr before.bond, now', cfg] at unit
  have flags := servingUnit_flags (asksRestart s) (wakesIdle (s.pair p)) s.now s.cfg ((wakeTested p s).pair p)
  obtain ⟨-, -, errors, noQuiet, -, -, counters, -⟩ := enter_kept s.now s.cfg .serving ((wakeTested p s).pair p)
  have same := servingUnit_calm (asksRestart s) (wakesIdle (s.pair p)) s.now s.cfg ((wakeTested p s).pair p)
  have served := servingUnit_serves (asksRestart s) (wakesIdle (s.pair p)) s.now s.cfg ((wakeTested p s).pair p)
  obtain ⟨rate', delay', strikes', far', role', errors', noQuiet', counters', settings', -⟩ :=
    calm_fields (calm_of_steady steady)
  rw [whole]
  generalize enterServing (wakesIdle (s.pair p)) p (wakeTested p s) = x at *
  generalize servingUnit (asksRestart s) (wakesIdle (s.pair p)) s.now s.cfg ((wakeTested p s).pair p) = v at *
  generalize wakeTested p s = m at *
  obtain ⟨flag, timer⟩ := unit.idling
  obtain ⟨flag', timer'⟩ := flags
  obtain ⟨-, -, -, -, -, xErrors, xNoQuiet, xCounters, -⟩ := calm_fields (unit.calm.trans same)
  have own : (raiseForPair .pairUp p (countPair p (fun n => { n with wakeDone := n.wakeDone + 1 }) x)).pair p =
      { x.pair p with n := { (x.pair p).n with wakeDone := (x.pair p).n.wakeDone + 1 } } := by
    rw [raiseForPair_pair, countPair, modPair_pair_same]
  have upNotices : Unraised .pairUp s (countPair p (fun n => { n with wakeDone := n.wakeDone + 1 }) x) :=
    unraised_trans quiet (unraised_of_notices (t := countPair p (fun n => { n with wakeDone := n.wakeDone + 1 }) x) notices _)
  have later : Unraised .wakeError m
      (raiseForPair .pairUp p (countPair p (fun n => { n with wakeDone := n.wakeDone + 1 }) x)) :=
    unraised_trans (unraised_of_notices (t := countPair p (fun n => { n with wakeDone := n.wakeDone + 1 }) x) notices _)
      (raiseNotice_unraised .pairUp .wakeError _ _ (by decide))
  refine {
    event := ((before.trans event).trans (countPair_pairEvent p _ x)).trans (raiseForPair_pairEvent p _ _ _)
    now := now.trans now'
    engine := engine.trans engine'
    serves := ?_
    flags := ?_
    up := raisedOnce_after upNotices (raiseNotice_raisedOnce ..)
    figures := ?_ }
  · rw [own]
    refine ((served.onward unit).counted _).from ?_ ?_ ?_ ⟨?_, ?_⟩
    · rw [rate']
      split <;> rfl
    · rw [delay']
      split <;> rfl
    · rw [strikes']
      split <;> rfl
    · rw [far']
      split <;> rfl
    · rw [role']
      split <;> rfl
  · have quietWait : (m.pair p).cfg = (s.pair p).cfg := by
      rw [settings']
      split <;> rfl
    rw [own]
    refine ⟨flag.trans (flag'.trans ?_), timer.trans (timer'.trans ?_)⟩
    · rw [quietWait]
    · rw [PairUnit.idleStart, quietWait]
      rfl
  · rw [WakeFigures, if_pos waking, own]
    by_cases late : WokeLate (s.pair p) s
    · rw [if_pos late] at errors' noQuiet' counters' error
      rw [if_pos late]
      refine ⟨?_, xErrors.trans (errors.trans errors'), ?_, raisedOnce_before error later, ?_⟩
      · show (x.pair p).n.wakeDone + 1 = _
        rw [xCounters, counters, counters']
        rfl
      · show (x.pair p).n.wakeError = _
        rw [xCounters, counters, counters']
        rfl
      · show (x.pair p).noQuiet = true ↔ _
        rw [xNoQuiet, noQuiet, noQuiet']
        simp [wakeErred]
    · rw [if_neg late] at errors' noQuiet' counters' error
      rw [if_neg late]
      refine ⟨?_, xErrors.trans (errors.trans errors'), xNoQuiet.trans (noQuiet.trans noQuiet'), unraised_trans error later⟩
      show (x.pair p).n.wakeDone + 1 = _
      rw [xCounters, counters, counters']

end Entering

end Sys2Proof.Proofs
end

