-- ==== Sys2Proof/Proofs/ServiceEntered.lean ====
section
/-! PROOF. The entry to SERVING by a DATA fragment, an ALIVE or a JOIN of the current epoch (R34, R35, R37, R180). -/

namespace Sys2Proof.Proofs
open Sys2Proof Sys2Proof.Machine Sys2Proof.Laws

/-! ## What the collector leaves of the pairs -/

/-- The collector's work: the pairs, the engine and the clock stay, and of the notices GAP-LOSS alone is raised. -/
structure Gathers (p : PairNo) (s t : State) : Prop where
  pairs : t.pairs = s.pairs
  acts : ActsOn p s t
  gathered : Gathered s t
  engine : t.engine = s.engine
  now : t.now = s.now

section Gathers

variable {p : PairNo} {c : ClassNo} {s t u : State}

theorem Gathers.refl (p : PairNo) (s : State) : Gathers p s s := ⟨rfl, .refl p s, .refl s, rfl, rfl⟩

theorem Gathers.trans (h : Gathers p s t) (k : Gathers p t u) : Gathers p s u :=
  ⟨k.pairs.trans h.pairs, h.acts.trans k.acts, h.gathered.trans k.gathered, k.engine.trans h.engine, k.now.trans h.now⟩

theorem gathers_of (collects : Collects c s t) (collected : Collected c s t) (gathered : Gathered s t) : Gathers p s t :=
  ⟨collects.pairs, collects_actsOn p collects, gathered, collected.engine, collected.now⟩

theorem collectData_gathered (c : ClassNo) (p : PairNo) (f : Held) (s : State) : Gathered s (collectData c p f s) := by
  unfold collectData
  dsimp only
  split
  · exact countClass_gathered c rfl
  · split
    · exact countClass_gathered c rfl
    · split
      · exact countClass_gathered c rfl
      · have stored : Gathered s (storeData c p f s) := (modClass_gathered rfl).trans (setCarried_gathered _)
        exact ((stored.trans (deliverUpTo_gathered _ c _)).trans (declareUpTo_gathered 8192 c _)).trans
          (followGap_gathered _ c _)

theorem collectData_gathers (c : ClassNo) (q p : PairNo) (f : Held) (s : State) : Gathers p s (collectData c q f s) :=
  gathers_of (collectData_collects c q f s) (collectData_collected c q f s) (collectData_gathered c q f s)

theorem setHorizon_gathers (c : ClassNo) (q p : PairNo) (h : Option Seq) (s : State) : Gathers p s (setHorizon c q h s) :=
  gathers_of (setHorizon_collects c q h s) (setHorizon_collected c q h s) (modClass_gathered rfl)

theorem testLosses_gathers (c : ClassNo) (p : PairNo) (s : State) : Gathers p s (testLosses c s) :=
  gathers_of (testLosses_delivers c s).toCollects (testLosses_collected c s) (testLosses_gathered c s)

theorem clearHorizons_gathers (q p : PairNo) (s : State) : Gathers p s (clearHorizons q s) :=
  eachClass_collected (R := Gathers p) Gathers.trans (fun c s => setHorizon_gathers c q p none s) s

theorem takeHorizons_gathers (q p : PairNo) (h : ClassNo → Seq) (s : State) : Gathers p s (takeHorizons q h s) := by
  have set := eachClass_collected (R := Gathers p) Gathers.trans (fun c s => setHorizon_gathers c q p (some (h c)) s) s
  unfold takeHorizons
  dsimp only
  split
  · exact set.trans (eachClass_collected (R := Gathers p) Gathers.trans (fun c s => testLosses_gathers c p s) _)
  · exact set

theorem Gathers.pair (h : Gathers p s t) (q : PairNo) : t.pair q = s.pair q := by rw [State.pair, h.pairs, State.pair]

/-- What an event on one pair and the collector's work after it leave, once the other blocks have followed. -/
theorem Gathers.offers (event : PairEvent p s t) (h : Gathers p t u) {v : State} (k : Followed u v)
    (reset : s.agent.reset = none) : BesideOffers p s v := by
  have agent : u.agent.reset = none := h.acts.reset ((congrArg Agent.reset event.agent).trans reset)
  have bond := BondLeft_trans h.acts.bond k.follows.bond
  rw [BondLeft, event.bond] at bond
  refine ⟨fun q other => ?_, SettingsKept_trans (SettingsKept_trans event.settings h.acts.settings) k.follows.settings,
    bond, (k.follows.classifier.trans h.acts.classifier).trans event.classifier, k.follows.reset agent⟩
  have left := k.follows.pairs q
  have steps := k.ensues.pairs q
  rw [h.pair] at left steps
  rcases event.others q other with unmoved | offered
  · rw [unmoved] at left
    exact .inl left
  · exact .inr (offered_of_leftBy offered left steps.offersEmpty)

end Gathers

/-! ## What arrives, and what happens after the entry -/

/-- The unit without what every good fragment and every JOIN changes (R5, R10, R34). -/
def arrival (u : PairUnit) : PairUnit :=
  { u with supervision := none, farPair := none, farRole := none, n := { u.n with fragIn := 0, octetIn := 0 } }

/-- A fragment has been counted, and the far pair of a JOIN recorded, on pair `p`. -/
structure Arrived (p : PairNo) (s a : State) : Prop where
  event : PairEvent p s a
  now : a.now = s.now
  engine : a.engine = s.engine
  notices : a.notices = s.notices
  unit : arrival (a.pair p) = arrival (s.pair p)

section Arrival

variable {p : PairNo} {idle : Bool} {s a x y z t : State}

theorem heard_arrived (p : PairNo) (n : Nat) (s : State) : Arrived p s (Heard p n s) := by
  refine ⟨heard_pairEvent p n s, rfl, rfl, rfl, ?_⟩
  rw [heard_pair]
  rfl

theorem Arrived.recorded (h : Arrived p s a) (far : PairNo) (role : Role) :
    Arrived p s (modPair p (fun u => { u with farPair := some far, farRole := some role }) a) := by
  refine ⟨h.event.trans (modPair_pairEvent p _ a rfl), h.now, h.engine, h.notices, ?_⟩
  rw [modPair_pair_same]
  exact h.unit

theorem arrival_fields {u v : PairUnit} (h : arrival v = arrival u) : v.state = u.state ∧ v.rate = u.rate ∧
    v.delay = u.delay ∧ v.strikes = u.strikes ∧ v.cfg = u.cfg ∧ v.wakeErrors = u.wakeErrors ∧ v.noQuiet = u.noQuiet ∧
    v.wakeStart = u.wakeStart ∧ v.wakeCause = u.wakeCause ∧ v.n.wakeDone = u.n.wakeDone ∧ v.n.wakeError = u.n.wakeError := by
  have state := congrArg PairUnit.state h
  have rate := congrArg PairUnit.rate h
  have delay := congrArg PairUnit.delay h
  have strikes := congrArg PairUnit.strikes h
  have cfg := congrArg PairUnit.cfg h
  have errors := congrArg PairUnit.wakeErrors h
  have flag := congrArg PairUnit.noQuiet h
  have start := congrArg PairUnit.wakeStart h
  have cause := congrArg PairUnit.wakeCause h
  have done := congrArg (fun u => u.n.wakeDone) h
  have counted := congrArg (fun u => u.n.wakeError) h
  exact ⟨state, rate, delay, strikes, cfg, errors, flag, start, cause, done, counted⟩

theorem WakeFigures.of_calm (h : WakeFigures p s x) (same : calm (y.pair p) = calm (x.pair p))
    (unraised : Unraised .wakeError x y) : WakeFigures p s y := by
  obtain ⟨-, -, -, -, -, errors, flag, counters, -⟩ := calm_fields same
  unfold WakeFigures at h ⊢
  rw [errors, flag, counters]
  split at h
  · next waking =>
    rw [if_pos waking]
    obtain ⟨done, error⟩ := h
    refine ⟨done, ?_⟩
    split at error
    · next late =>
      rw [if_pos late]
      obtain ⟨count, counted, raised, noQuiet⟩ := error
      exact ⟨count, counted, raisedOnce_before raised unraised, noQuiet⟩
    · next early =>
      rw [if_neg early]
      obtain ⟨count, noQuiet, quiet⟩ := error
      exact ⟨count, noQuiet, unraised_trans quiet unraised⟩
  · next awake =>
    rw [if_neg awake]
    obtain ⟨count, quiet⟩ := h
    exact ⟨count, unraised_trans quiet unraised⟩

/-- An event on the pair that has entered SERVING keeps the entry, where it leaves the pair's unit but for its offer. -/
theorem Entering.goes (h : Entering p idle s x) (event : PairEvent p x y) (now : y.now = x.now) (engine : y.engine = x.engine)
    (notices : y.notices = x.notices) (unit : Onward (x.pair p) (y.pair p)) : Entering p idle s y := by
  obtain ⟨flag, timer⟩ := unit.idling
  obtain ⟨flag', timer'⟩ := h.flags
  exact {
    event := h.event.trans event
    now := now.trans h.now
    engine := engine.trans h.engine
    serves := h.serves.onward unit
    flags := ⟨flag.trans flag', timer.trans timer'⟩
    up := raisedOnce_before h.up (unraised_of_notices notices _)
    figures := h.figures.of_calm unit.calm (unraised_of_notices notices _) }

theorem lapse_others (p : PairNo) (s : State) : (lapse p s).now = s.now ∧ (lapse p s).engine = s.engine ∧
    (lapse p s).notices = s.notices := by
  have rest := testOffers_pairs (allPairs.filter (· ≠ p)) (modPair p lapsed s)
  rw [← lapse_eq] at rest
  have now := congrArg State.now rest
  have engine := congrArg State.engine rest
  have notices := congrArg State.notices rest
  exact ⟨now, engine, notices⟩

/-- A DATA fragment restarts the idle timer of a pair that has entered SERVING (R172, R176 a). -/
theorem Entering.takesData (h : Entering p idle s x) : Entering p false s (dataOnPair p x) := by
  have serving : (x.pair p).state = .serving := h.serves.entered.1
  have cfg : (x.pair p).cfg = (s.pair p).cfg := by
    obtain ⟨-, -, -, -, -, -, -, cfg, -⟩ := h.event.settings
    exact cfg p
  have unit : (modPair p (PairUnit.restartIdle x.now) x).pair p =
      { x.pair p with idleTimer := (x.pair p).idleStart x.now, idle := false, offerSpent := false } := by
    rw [modPair_pair_same, PairUnit.restartIdle, if_pos serving]
  have restarted : Entering p false s (modPair p (PairUnit.restartIdle x.now) x) := {
    event := h.event.trans (modPair_pairEvent p _ x (restartIdle_cfg ..))
    now := h.now
    engine := h.engine
    serves := by
      rw [unit]
      exact h.serves.of_calm rfl fun _ _ _ sent => sent
    flags := by
      rw [unit]
      refine ⟨by simp, ?_⟩
      rw [h.now]
      simp only [PairUnit.idleStart, cfg, Bool.false_eq_true, if_false]
    up := h.up
    figures := h.figures.of_calm (by rw [unit]; rfl) (unraised_of_notices rfl _) }
  unfold dataOnPair
  dsimp only
  split
  · obtain ⟨now, engine, notices⟩ := lapse_others p (modPair p (PairUnit.restartIdle x.now) x)
    refine restarted.goes (lapse_pairEvent p _) now engine notices ?_
    rw [lapse_pair]
    exact lapsed_onward _
  · exact restarted

/-- All that O13 says of the pair once the other blocks have followed. -/
theorem Entering.followed (h : Entering p idle a y) (arrived : Arrived p s a) (gathers : Gathers p y z) (k : Followed z t)
    (reset : s.agent.reset = none) : (t.pair p).Entered s.now s.cfg .serving ∧ (t.pair p).rate = (s.pair p).rate ∧
      (t.pair p).delay = (s.pair p).delay ∧ (t.pair p).strikes = (s.pair p).strikes ∧ (t.pair p).sends .alive ∧
      (s.bond.role = .homestead → s.bond.asking = true → (t.pair p).sends .restartAsk) ∧
      RaisedOnce .pairUp (valueArg p.val) s t ∧ BesideOffers p s t ∧ EngineLeft s t ∧
      ((t.pair p).idle = (idle && (s.pair p).cfg.quietWait != 0) ∧
        (t.pair p).idleTimer = if idle then none else (s.pair p).idleStart s.now) ∧ WakeFigures p s t := by
  obtain ⟨state, rate, delay, strikes, cfg, errors, flag, start, -, done, counted⟩ := arrival_fields arrived.unit
  have settings : a.cfg = s.cfg := settingsKept_cfg arrived.event.settings
  have awake : (z.pair p).state ≠ .quiet := by
    rw [gathers.pair, h.serves.entered.1]
    decide
  have unit : Onward (y.pair p) (t.pair p) := by
    rw [← gathers.pair]
    exact (k.ensues.pairs p).onward awake
  have later : ∀ src : Source, src ≠ .gapLoss → src ≠ .queueDrop → Unraised src y t := fun src other other' =>
    unraised_trans (gathers.gathered.unraised src other) (k.ensues.unraised src other')
  have before : ∀ src : Source, Unraised src s a := unraised_of_notices arrived.notices
  have serves := h.serves.onward unit
  have asks : asksRestart a = asksRestart s := asksRestart_congr arrived.event.bond
  obtain ⟨idling, timing⟩ := unit.idling
  obtain ⟨idling', timing'⟩ := h.flags
  have event := arrived.event.trans h.event
  refine ⟨?_, serves.rate.trans rate, serves.delay.trans delay, serves.strikes.trans strikes, serves.alive,
    fun homestead asking => serves.asked ?_, ?_, ?_, ?_, ⟨idling.trans (idling'.trans (by rw [cfg])), ?_⟩, ?_⟩
  · rw [← arrived.now, ← settings]
    exact serves.entered
  · rw [asks, asksRestart, homestead, asking]
    rfl
  · exact raisedOnce_before (raisedOnce_after (before _) h.up) (later _ (by decide) (by decide))
  · exact gathers.offers event k reset
  · exact k.engineLeft (gathers.engine.trans (h.engine.trans arrived.engine))
  · rw [timing, timing', PairUnit.idleStart, PairUnit.idleStart, cfg, arrived.now]
  · have figures := h.figures.of_calm unit.calm (later .wakeError (by decide) (by decide))
    unfold WakeFigures at figures ⊢
    rw [state, start, settings, arrived.now, errors, flag, done, counted] at figures
    split at figures
    · next waking =>
      rw [if_pos waking]
      obtain ⟨done', error⟩ := figures
      refine ⟨done', ?_⟩
      split at error
      · next late =>
        rw [if_pos late]
        obtain ⟨count, counted', raised, noQuiet⟩ := error
        exact ⟨count, counted', raisedOnce_after (before _) raised, noQuiet⟩
      · next early =>
        rw [if_neg early]
        obtain ⟨count, noQuiet, quiet⟩ := error
        exact ⟨count, noQuiet, unraised_trans (before _) quiet⟩
    · next awake =>
      rw [if_neg awake]
      obtain ⟨count, quiet⟩ := figures
      exact ⟨count, unraised_trans (before _) quiet⟩

end Arrival

/-! ## The three messages -/

section Messages

variable {p : PairNo} {s a t : State}

/-- The entry to SERVING that a message of the current epoch brings about (R34 a and d, R37 b and c). -/
def enteredBy (p : PairNo) (s : State) : State :=
  if (s.pair p).state = .joining then joinServing p s else completeWake p s

/-- The idle flag may be set at the entry (R172, R180 c). -/
def mayIdle (u : PairUnit) : Bool := u.state = .waking && wakesIdle u

theorem enteredBy_entering (service : (s.pair p).state = .joining ∨ (s.pair p).state = .waking) :
    Entering p (mayIdle (s.pair p)) s (enteredBy p s) := by
  rw [enteredBy, mayIdle]
  rcases service with joining | waking
  · rw [if_pos joining, joining]
    exact joinServing_entering joining
  · rw [if_neg (by rw [waking]; decide), waking]
    exact completeWake_entering waking

theorem takeDataFragment_enters (c : ClassNo) (f : DataFields)
    (service : (s.pair p).state = .joining ∨ (s.pair p).state = .waking) :
    takeDataFragment p c f s = settle (takeData c p (heldOf f) (dataOnPair p (enteredBy p s))) := by
  rw [enteredBy]
  unfold takeDataFragment
  rcases service with joining | waking
  · simp only [joining, if_true]
    rfl
  · simp only [waking, reduceCtorEq, if_false]
    rfl

theorem aliveByState_enters (f : AliveFields) (service : (s.pair p).state = .joining ∨ (s.pair p).state = .waking) :
    aliveByState p f s = settle (takeHorizons p (fun c => (aliveHorizons f c).setWidth 14) (enteredBy p s)) := by
  rw [enteredBy]
  unfold aliveByState
  rcases service with joining | waking
  · simp only [joining, if_true]
  · simp only [waking, reduceCtorEq, if_false]

/-- A JOIN that no restart accompanies acts by the state of its pair alone (R34). -/
theorem takeJoin_plain {h : CtlHead} {role : Role} {far : PairNo} {fresh : Bool} (plain : PlainJoin p h role fresh s)
    (arrived : Arrived p s a) : takeJoin p h.epoch role far fresh a =
      settle (joinByState p h.epoch (modPair p (fun u => { u with farPair := some far, farRole := some role }) a)) := by
  obtain ⟨-, -, -, -, uncarried, homestead⟩ := plain
  have bond : (modPair p (fun u => { u with farPair := some far, farRole := some role }) a).bond = s.bond :=
    arrived.event.bond
  have states : ∀ q : PairNo, (s.pair q).state ≠ .serving →
      ((modPair p (fun u => { u with farPair := some far, farRole := some role }) a).pair q).state ≠ .serving := fun q idle => by
    obtain ⟨same, -⟩ := arrival_fields (arrived.recorded far role).unit
    by_cases own : q = p
    · subst own
      rwa [same]
    · rcases (arrived.recorded far role).event.others q own with kept | offered
      · rwa [kept]
      · exact absurd offered.1 idle
  unfold takeJoin
  generalize modPair p (fun u => { u with farPair := some far, farRole := some role }) a = m at bond states
  dsimp only
  split
  · have stays : ¬ (fresh && m.bond.carried) = true := fun restarts => by
      rw [bond, Bool.and_eq_true] at restarts
      obtain ⟨fresh, carried⟩ := restarts
      rw [uncarried fresh] at carried
      cases carried
    rw [if_neg stays]
  · next home =>
    rw [bond] at home
    obtain ⟨epoch, idle⟩ := homestead home
    have adopted : adopt h.epoch m = m := by rw [adopt, bond, if_pos epoch]
    have stays : ¬ (fresh && (!m.fresh || m.bond.carried)) = true := fun restarts => by
      simp only [Bool.and_eq_true, Bool.or_eq_true, Bool.not_eq_true'] at restarts
      obtain ⟨fresh, carried | carried⟩ := restarts
      · have quiet : m.fresh = true := List.all_eq_true.2 fun q _ => by simpa using states q (idle fresh q)
        rw [quiet] at carried
        cases carried
      · rw [bond, uncarried fresh] at carried
        cases carried
    rw [adopted, freshTest, if_neg stays]

theorem joinByState_joining {e : Epoch} (joining : (s.pair p).state = .joining) (epoch : s.bond.epoch = some e) :
    joinByState p e s = joinServing p s := by
  unfold joinByState
  simp [joining, epoch]

theorem joinByState_waking {e : Epoch} (waking : (s.pair p).state = .waking) (epoch : s.bond.epoch = some e) :
    joinByState p e s = joinOnServing p (completeWake p s) := by
  unfold joinByState
  simp [waking, epoch]

theorem joinOnServing_goes {idle : Bool} {x : State} (h : Entering p idle s x) :
    ∃ y : State, Entering p idle s y ∧ Gathers p y (joinOnServing p x) := by
  refine ⟨raiseCtl .alive p x, h.goes (raiseCtl_pairEvent .alive p x) rfl rfl rfl ?_, clearHorizons_gathers p p _⟩
  rw [raiseCtl, modPair_pair_same]
  exact raise_onward _ _

/-- A JOIN of the current epoch takes a JOINING or WAKING pair into SERVING (R34 a and d). -/
theorem joinByState_enters {e : Epoch} (current : s.bond.epoch = some e)
    (service : (s.pair p).state = .joining ∨ (s.pair p).state = .waking) :
    ∃ y : State, Entering p (mayIdle (s.pair p)) s y ∧ Gathers p y (joinByState p e s) := by
  have entering := enteredBy_entering service
  rcases service with joining | waking
  · rw [joinByState_joining joining current]
    rw [enteredBy, if_pos joining] at entering
    exact ⟨_, entering, .refl p _⟩
  · rw [joinByState_waking waking current]
    rw [enteredBy, if_neg (by rw [waking]; decide)] at entering
    exact joinOnServing_goes entering

theorem classOf_of_ne {c : BitVec 2} (known : c ≠ 3) : ∃ d, classOf c = some d := by
  have below : c.toNat < 3 := by
    have width := c.isLt
    have other : c.toNat ≠ 3 := fun same => known (BitVec.eq_of_toNat_eq (by simpa using same))
    omega
  exact ⟨_, dif_pos below⟩

/-- An ALIVE of the current epoch acts by the state of its pair (R37). -/
theorem exec_alive_current {h : CtlHead} {f : AliveFields} (taking : s.taking) (receives : Receives p s) (length : h.len = 6)
    (formed : aliveFormed f = true) (awake : (s.pair p).state ≠ .quiet) (epoch : s.bond.epoch = some h.epoch) :
    exec (.alive p h f) s = .next (aliveByState p f (Heard p 6 s)) := by
  have current : (Heard p 6 s).bond.epoch = some h.epoch := epoch
  have adopted : adopt h.epoch (Heard p 6 s) = Heard p 6 s := by rw [adopt, if_pos current]
  rw [exec_alive taking receives length formed awake]
  split
  · rw [inEpoch, if_pos current]
  · rw [adopted]

/-- A JOIN that no restart accompanies acts by the state of its pair, once it is recorded (R34). -/
theorem exec_join_plain {h : CtlHead} {role : Role} {far : PairNo} {fresh : Bool} (taking : s.taking)
    (plain : PlainJoin p h role fresh s) : exec (.join p h (joinCarries role far fresh)) s = .next (settle (joinByState p h.epoch
      (modPair p (fun u => { u with farPair := some far, farRole := some role }) (Heard p 2 s)))) := by
  have acts := takeJoin_plain (far := far) plain (heard_arrived p 2 s)
  obtain ⟨length, other, receives, awake, -⟩ := plain
  rw [exec_join taking receives length other awake, acts]

end Messages

/-- Settles O13. -/
theorem serviceEntered : Obligations.ServiceEntered := by
  intro c p s opened service message
  suffices taken : ∃ (idle : Bool) (a y z : State), idle = (mayIdle (s.pair p) && !isData c) ∧ Arrived p s a ∧
      Entering p idle a y ∧ Gathers p y z ∧ exec c s = .next (settle z) by
    obtain ⟨idle, a, y, z, rfl, arrived, entering, gathers, ran⟩ := taken
    have reset : z.agent.reset = none :=
      gathers.acts.reset ((congrArg Agent.reset (arrived.event.trans entering.event).agent).trans opened.2)
    obtain ⟨enters, rate, delay, strikes, alive, asks, up, beside, engine, flags, figures⟩ :=
      entering.followed arrived gathers (settle_followed reset) opened.2
    refine ⟨_, ran, enters, rate, delay, strikes, alive, asks, up, beside, engine, ?_, figures⟩
    obtain ⟨flag, timer⟩ := flags
    rw [flag, timer]
    split
    · next probed =>
      obtain ⟨waking, cause, plain⟩ := probed
      have may : (mayIdle (s.pair p) && !isData c) = true := by
        simpa [mayIdle, wakesIdle, waking, plain] using cause
      rw [may]
      exact ⟨rfl, by simp⟩
    · next other =>
      have not : (mayIdle (s.pair p) && !isData c) = false := by
        rw [Bool.eq_false_iff]
        intro may
        refine other ?_
        simpa [mayIdle, wakesIdle, and_assoc] using may
      rw [not]
      exact ⟨rfl, by simp [PairUnit.idleStart]⟩
  have receives : Receives p s := by
    rw [Receives]
    rcases service with e | e <;> rw [e] <;> decide
  have awake : (s.pair p).state ≠ .quiet := by rcases service with e | e <;> rw [e] <;> decide
  have served : ∀ {a : State}, Arrived p s a → ((a.pair p).state = .joining ∨ (a.pair p).state = .waking) ∧
      mayIdle (a.pair p) = mayIdle (s.pair p) := fun arrived => by
    obtain ⟨state, -, -, -, -, -, -, -, cause, -⟩ := arrival_fields arrived.unit
    rw [mayIdle, wakesIdle, state, cause]
    exact ⟨service, rfl⟩
  rcases message with ⟨f, rfl, known, epoch⟩ | ⟨h, f, rfl, length, formed, epoch⟩ | ⟨h, role, far, fresh, rfl, epoch, plain⟩
  · obtain ⟨c, cls⟩ := classOf_of_ne known
    have arrived := heard_arrived p f.payload.length s
    obtain ⟨service', -⟩ := served arrived
    have ran := exec_data opened.1 receives epoch cls
    have entering := (enteredBy_entering service').takesData
    rw [takeDataFragment_enters c f service', takeData_member entering.serves.entered.1] at ran
    exact ⟨false, _, _, _, by simp [isData], arrived, entering, collectData_gathers c p p _ _, ran⟩
  · have arrived := heard_arrived p 6 s
    obtain ⟨service', may⟩ := served arrived
    have entering := enteredBy_entering service'
    have ran := exec_alive_current opened.1 receives length formed awake epoch
    rw [aliveByState_enters f service'] at ran
    exact ⟨_, _, _, _, by simp [isData, may], arrived, entering, takeHorizons_gathers p p _ _, ran⟩
  · have arrived := (heard_arrived p 2 s).recorded far role
    obtain ⟨service', may⟩ := served arrived
    obtain ⟨y, entering, gathers⟩ := joinByState_enters (e := h.epoch) (arrived.event.bond ▸ epoch) service'
    exact ⟨_, _, _, _, by rw [may]; simp [isData], arrived, entering, gathers, exec_join_plain opened.1 plain⟩

end Sys2Proof.Proofs
end

