-- ==== Sys2Proof/Proofs/AliveTaken.lean ====
section
/-! PROOF. What an ALIVE of the current epoch does to the horizons (R37, R121, R125). -/

namespace Sys2Proof.Proofs
open Sys2Proof Sys2Proof.Machine Sys2Proof.Laws

section Horizons

variable {p : PairNo} {s t u v : State}

/-- The loss tests keep every horizon and every unit, and a class whose horizon rule a pair blocks keeps its numbers, its held
fragments and its reassembly (R125). -/
structure Tested (s t : State) : Prop where
  pairs : t.pairs = s.pairs
  horizons : ∀ (c : ClassNo) (q : PairNo), t.horizon c q = s.horizon c q
  blocked : ∀ c : ClassNo, (∃ q : PairNo, (s.pair q).inHorizonSet = true ∧ s.horizon c q = none) →
    (t.cls c).next = (s.cls c).next ∧ (t.cls c).held = (s.cls c).held ∧ (t.cls c).reasm = (s.cls c).reasm

theorem Tested.trans (h : Tested s t) (k : Tested t u) : Tested s u where
  pairs := k.pairs.trans h.pairs
  horizons c q := (k.horizons c q).trans (h.horizons c q)
  blocked c stops := by
    obtain ⟨q, member, unknown⟩ := stops
    obtain ⟨next, held, reasm⟩ := h.blocked c ⟨q, member, unknown⟩
    have same : t.pair q = s.pair q := by rw [State.pair, h.pairs, State.pair]
    obtain ⟨next', held', reasm'⟩ := k.blocked c ⟨q, by rw [same, member], by rw [h.horizons, unknown]⟩
    exact ⟨next'.trans next, held'.trans held, reasm'.trans reasm⟩

theorem testLosses_tested (c : ClassNo) (s : State) : Tested s (testLosses c s) := by
  have delivers := testLosses_delivers c s
  refine ⟨delivers.pairs, fun d q => ?_, fun d stops => ?_⟩
  · by_cases own : d = c
    · subst own
      rw [State.horizon, delivers.horizons, State.horizon]
    · rw [State.horizon, delivers.others d own, State.horizon]
  · by_cases own : d = c
    · subst own
      obtain ⟨q, member, unknown⟩ := stops
      obtain ⟨hold, gap⟩ := followGap_eq (s.cls d).next d s
      rw [testLosses, lossTests_of_blocked (horizonRule_blocked member unknown), gap, modClass_cls_same]
      exact ⟨rfl, rfl, rfl⟩
    · rw [delivers.others d own]
      exact ⟨rfl, rfl, rfl⟩

/-- The state in which the horizons that an ALIVE carries stand (R121). -/
def horizonsSet (p : PairNo) (g : ClassNo → Seq) (s : State) : State :=
  eachClass (fun c => setHorizon c p (some (g c))) s

theorem horizonsSet_horizon (p : PairNo) (g : ClassNo → Seq) (s : State) (c : ClassNo) (q : PairNo) :
    (horizonsSet p g s).horizon c q = if q = p then some (g c) else s.horizon c q := by
  have each : c = 0 ∨ c = 1 ∨ c = 2 := by revert c; decide
  unfold horizonsSet eachClass
  rw [setHorizon_horizon, setHorizon_horizon, setHorizon_horizon]
  by_cases own : q = p
  · rcases each with rfl | rfl | rfl <;> simp [own]
  · simp [own]

theorem setHorizon_cls (c d : ClassNo) (p : PairNo) (h : Option Seq) (s : State) :
    ((setHorizon c p h s).cls d).next = (s.cls d).next ∧ ((setHorizon c p h s).cls d).held = (s.cls d).held ∧
      ((setHorizon c p h s).cls d).reasm = (s.cls d).reasm := by
  rw [setHorizon, modClass_cls]
  split
  · next own =>
    subst own
    exact ⟨rfl, rfl, rfl⟩
  · exact ⟨rfl, rfl, rfl⟩

theorem horizonsSet_cls (p : PairNo) (g : ClassNo → Seq) (s : State) (d : ClassNo) :
    ((horizonsSet p g s).cls d).next = (s.cls d).next ∧ ((horizonsSet p g s).cls d).held = (s.cls d).held ∧
      ((horizonsSet p g s).cls d).reasm = (s.cls d).reasm :=
  eachClass_collected (R := fun s t => (t.cls d).next = (s.cls d).next ∧ (t.cls d).held = (s.cls d).held ∧
    (t.cls d).reasm = (s.cls d).reasm)
    (fun h k => ⟨k.1.trans h.1, k.2.1.trans h.2.1, k.2.2.trans h.2.2⟩) (fun c s => setHorizon_cls c d p _ s) s

/-- What an ALIVE does to the horizons and the contexts, once the other blocks have followed (R121, R125). -/
theorem takeHorizons_sets {g : ClassNo → Seq} (member : (s.pair p).inHorizonSet = true) (k : Followed (takeHorizons p g s) t)
    (c : ClassNo) : t.horizon c p = some (g c) ∧ (∀ q : PairNo, q ≠ p → t.horizon c q = s.horizon c q) ∧
      ((∃ q : PairNo, q ≠ p ∧ (s.pair q).inHorizonSet = true ∧ s.horizon c q = none) →
        (t.cls c).next = (s.cls c).next ∧ (t.cls c).held = (s.cls c).held ∧ (t.cls c).reasm = (s.cls c).reasm) := by
  have whole : takeHorizons p g s = eachClass testLosses (horizonsSet p g s) := if_pos member
  have tested := eachClass_collected (R := Tested) Tested.trans testLosses_tested (horizonsSet p g s)
  rw [← whole] at tested
  have horizon : ∀ q : PairNo, t.horizon c q = if q = p then some (g c) else s.horizon c q := fun q => by
    rw [horizon_of_context (k.follows.contexts c), tested.horizons, horizonsSet_horizon]
  obtain ⟨next, held, -, -, reasm⟩ : (t.cls c).next = ((takeHorizons p g s).cls c).next ∧
      (t.cls c).held = ((takeHorizons p g s).cls c).held ∧ (t.cls c).horizons = ((takeHorizons p g s).cls c).horizons ∧
      (t.cls c).hold = ((takeHorizons p g s).cls c).hold ∧ (t.cls c).reasm = ((takeHorizons p g s).cls c).reasm := by
    simpa only [ClassUnit.context, Prod.mk.injEq] using k.follows.contexts c
  refine ⟨by rw [horizon, if_pos rfl], fun q other => by rw [horizon, if_neg other], fun stops => ?_⟩
  obtain ⟨q, other, inside, unknown⟩ := stops
  obtain ⟨next', held', reasm'⟩ := tested.blocked c ⟨q, inside, by rw [horizonsSet_horizon, if_neg other, unknown]⟩
  obtain ⟨next'', held'', reasm''⟩ := horizonsSet_cls p g s c
  exact ⟨next.trans (next'.trans next''), held.trans (held'.trans held''), reasm.trans (reasm'.trans reasm'')⟩

/-- The same, counted from before the event that took the pair to where the ALIVE finds it. -/
theorem alive_sets {g : ClassNo → Seq} (event : PairEvent p s u) (serving : (u.pair p).state = .serving)
    (k : Followed (takeHorizons p g u) t) (c : ClassNo) : t.horizon c p = some (g c) ∧
      (∀ q : PairNo, q ≠ p → t.horizon c q = s.horizon c q) ∧
      ((∃ q : PairNo, q ≠ p ∧ (s.pair q).inHorizonSet = true ∧ s.horizon c q = none) →
        (t.cls c).next = (s.cls c).next ∧ (t.cls c).held = (s.cls c).held ∧ (t.cls c).reasm = (s.cls c).reasm) := by
  have member : (u.pair p).inHorizonSet = true := by
    rw [PairUnit.inHorizonSet, serving]
    rfl
  obtain ⟨own, others, stopped⟩ := takeHorizons_sets member k c
  refine ⟨own, fun q other => (others q other).trans (event.horizon c q), fun stops => ?_⟩
  obtain ⟨q, other, inside, unknown⟩ := stops
  rw [← event.cls c]
  exact stopped ⟨q, other, event.inHorizonSet other inside, (event.horizon c q).trans unknown⟩

end Horizons

/-- Settles O14. -/
theorem aliveSetsHorizons : Obligations.AliveSetsHorizons := by
  intro p h f s opened length formed epoch
  have arrived := heard_arrived p 6 s
  have state := heard_state p 6 s
  have acts : ActsOn p s (Heard p 6 s) := (silent_actsOn p s).trans (modPair_actsOn rfl)
  refine ⟨fun service => ?_, fun idle => ?_⟩
  · have receives : Receives p s := by
      rw [Receives]
      rcases service with e | e | e <;> rw [e] <;> decide
    have awake : (s.pair p).state ≠ .quiet := by rcases service with e | e | e <;> rw [e] <;> decide
    have ran := exec_alive_current opened.1 receives length formed awake epoch
    by_cases serving : (s.pair p).state = .serving
    · have gathers := takeHorizons_gathers p p (fun c => (aliveHorizons f c).setWidth 14) (Heard p 6 s)
      have whole : aliveByState p f (Heard p 6 s) =
          finish (takeHorizons p (fun c => (aliveHorizons f c).setWidth 14) (Heard p 6 s)) := by
        rw [aliveByState, state, serving]
      rw [whole] at ran
      have both := acts.trans gathers.acts
      have k := finish_followed (both.reset opened.2)
      have unit : ((takeHorizons p (fun c => (aliveHorizons f c).setWidth 14) (Heard p 6 s)).pair p).steady =
          ((Heard p 6 s).pair p).steady := by rw [gathers.pair]
      have beside := both.beside k.follows opened.2
      have steady := k.steady (p := p) (by rw [gathers.pair, state, serving]; decide)
      obtain ⟨others, settings, bond, classifier, reset⟩ := beside
      exact ⟨_, ran, ⟨fun q other => .inl (others q other), settings, bond, classifier, reset⟩,
        fun _ => ⟨others, steady.trans unit⟩, alive_sets arrived.event (state.trans serving) k⟩
    · have service' : ((Heard p 6 s).pair p).state = .joining ∨ ((Heard p 6 s).pair p).state = .waking := by
        rw [state]
        exact service.resolve_left serving
      have entering := enteredBy_entering service'
      have event := arrived.event.trans entering.event
      have gathers := takeHorizons_gathers p p (fun c => (aliveHorizons f c).setWidth 14) (enteredBy p (Heard p 6 s))
      rw [aliveByState_enters f service'] at ran
      have k := settle_followed (gathers.acts.reset ((congrArg Agent.reset event.agent).trans opened.2))
      exact ⟨_, ran, gathers.offers event k opened.2, fun now => absurd now serving, alive_sets event entering.serves.entered.1 k⟩
  · have receives : Receives p s := by
      rw [Receives]
      rcases idle with e | e | e | e <;> rw [e] <;> decide
    have awake : (s.pair p).state ≠ .quiet := by rcases idle with e | e | e | e <;> rw [e] <;> decide
    have ran := exec_alive_current opened.1 receives length formed awake epoch
    have whole : aliveByState p f (Heard p 6 s) = settle (Heard p 6 s) := by
      rw [aliveByState, state]
      rcases idle with e | e | e | e <;> rw [e]
    rw [whole] at ran
    have k := settle_followed (acts.reset opened.2)
    exact ⟨_, ran, acts.beside k.follows opened.2, fun c => k.follows.contexts c, k.engineLeft rfl,
      k.steady (by rw [state]; exact awake)⟩

end Sys2Proof.Proofs
end

