-- ==== Sys2Proof/Proofs/JoinTaken.lean ====
section
/-! PROOF. What a JOIN that no restart accompanies, and a RESTART-ASK of another epoch, leave (R34, R40). -/

namespace Sys2Proof.Proofs
open Sys2Proof Sys2Proof.Machine Sys2Proof.Laws

section Join

variable {p far : PairNo} {role : Role} {s a t : State}

/-- The state in which a JOIN has been counted and recorded (R5, R34). -/
def recordedJoin (p far : PairNo) (role : Role) (s : State) : State :=
  modPair p (fun u => { u with farPair := some far, farRole := some role }) (Heard p 2 s)

theorem recordedJoin_unit (p far : PairNo) (role : Role) (s : State) : (recordedJoin p far role s).pair p =
    { (Heard p 2 s).pair p with farPair := some far, farRole := some role } := modPair_pair_same ..

theorem recordedJoin_state (p far : PairNo) (role : Role) (s : State) :
    ((recordedJoin p far role s).pair p).state = (s.pair p).state := by
  rw [recordedJoin_unit]
  exact heard_state p 2 s

theorem recordedJoin_actsOn (p far : PairNo) (role : Role) (s : State) : ActsOn p s (recordedJoin p far role s) :=
  ((silent_actsOn p s).trans (modPair_actsOn rfl)).trans (modPair_actsOn rfl)

theorem recordedJoin_contexts (p far : PairNo) (role : Role) (s : State) : ContextsLeft s (recordedJoin p far role s) :=
  fun _ => rfl

theorem steady_far {u v : PairUnit} (h : v.steady = u.steady) : v.farPair = u.farPair ∧ v.farRole = u.farRole := by
  have far := congrArg PairUnit.farPair h
  have role := congrArg PairUnit.farRole h
  exact ⟨far, role⟩

/-- A JOIN in a state that it does not act in (R34). -/
theorem joinByState_idle {e : Epoch} (idle : (a.pair p).state ≠ .joining) (idle' : (a.pair p).state ≠ .serving)
    (idle'' : (a.pair p).state ≠ .waking) : joinByState p e a = a := by
  unfold joinByState
  split
  · next state => exact absurd state idle
  · next state => exact absurd state idle'
  · next state => exact absurd state idle''
  · rfl

/-- A JOIN of another epoch on a pair that is joined raises RESTART (R34 b). -/
theorem joinByState_other {e : Epoch} (joined : (a.pair p).state = .joining ∨ (a.pair p).state = .serving ∨
    (a.pair p).state = .waking) (other : a.bond.epoch ≠ some e) : joinByState p e a = raiseCtl .restart p a := by
  unfold joinByState
  rcases joined with state | state | state <;> simp [state, other]

theorem joinByState_serving {e : Epoch} (serving : (a.pair p).state = .serving) (epoch : a.bond.epoch = some e) :
    joinByState p e a = joinOnServing p a := by
  unfold joinByState
  simp [serving, epoch]

theorem clearHorizons_horizon_other {q : PairNo} (other : q ≠ p) (c : ClassNo) (s : State) :
    (clearHorizons p s).horizon c q = s.horizon c q := by
  unfold clearHorizons eachClass
  rw [setHorizon_horizon, setHorizon_horizon, setHorizon_horizon]
  simp [other]

theorem clearHorizons_cls (p : PairNo) (s : State) (d : ClassNo) :
    ((clearHorizons p s).cls d).next = (s.cls d).next ∧ ((clearHorizons p s).cls d).held = (s.cls d).held :=
  eachClass_collected (R := fun s t => (t.cls d).next = (s.cls d).next ∧ (t.cls d).held = (s.cls d).held)
    (fun h k => ⟨k.1.trans h.1, k.2.trans h.2⟩)
    (fun c s => by
      obtain ⟨next, held, -⟩ := setHorizon_cls c d p none s
      exact ⟨next, held⟩) s

/-- A JOIN of the current epoch on a SERVING pair (R34 c). -/
theorem joinOnServing_followed (serving : (a.pair p).state = .serving) (acts : ActsOn p s a)
    (contexts : ContextsLeft s a) (reset : s.agent.reset = none) (k : Followed (joinOnServing p a) t) :
    (t.pair p).steady = (a.pair p).steady ∧ (t.pair p).state = .serving ∧ (t.pair p).sends .alive ∧ Beside p s t ∧
      ∀ c : ClassNo, t.horizon c p = none ∧ (∀ q : PairNo, q ≠ p → t.horizon c q = s.horizon c q) ∧
        (t.cls c).next = (s.cls c).next ∧ (t.cls c).held = (s.cls c).held := by
  have gathers := clearHorizons_gathers p p (raiseCtl .alive p a)
  have unit : (joinOnServing p a).pair p = (a.pair p).raise .alive := by
    rw [joinOnServing, gathers.pair, raiseCtl, modPair_pair_same]
  have state : ((joinOnServing p a).pair p).state = .serving := by rw [unit, raise_state, serving]
  have awake : ((joinOnServing p a).pair p).state ≠ .quiet := by rw [state]; decide
  have steady : ((joinOnServing p a).pair p).steady = (a.pair p).steady := by rw [unit, raise_steady]
  have both : ActsOn p s (joinOnServing p a) := (acts.trans (raiseCtl_actsOn .alive p a)).trans gathers.acts
  refine ⟨(k.steady awake).trans steady, (steady_state (k.steady awake)).trans state, k.sends awake ?_,
    both.beside k.follows reset, fun c => ?_⟩
  · rw [unit]
    exact raise_sends (by rw [serving]; rfl)
  · obtain ⟨next, held⟩ := clearHorizons_cls p (raiseCtl .alive p a) c
    have context := (k.follows.contexts c)
    obtain ⟨next', held', -⟩ : (t.cls c).next = ((joinOnServing p a).cls c).next ∧
        (t.cls c).held = ((joinOnServing p a).cls c).held ∧ (t.cls c).horizons = ((joinOnServing p a).cls c).horizons ∧
        (t.cls c).hold = ((joinOnServing p a).cls c).hold ∧ (t.cls c).reasm = ((joinOnServing p a).cls c).reasm := by
      simpa only [ClassUnit.context, Prod.mk.injEq] using context
    obtain ⟨next'', held'', -⟩ : (a.cls c).next = (s.cls c).next ∧ (a.cls c).held = (s.cls c).held ∧
        (a.cls c).horizons = (s.cls c).horizons ∧ (a.cls c).hold = (s.cls c).hold ∧ (a.cls c).reasm = (s.cls c).reasm := by
      simpa only [ClassUnit.context, Prod.mk.injEq] using contexts c
    refine ⟨?_, fun q other => ?_, next'.trans (next.trans next''), held'.trans (held.trans held'')⟩
    · rw [horizon_of_context context, joinOnServing, clearHorizons_horizon]
    · rw [horizon_of_context context, joinOnServing, clearHorizons_horizon_other other]
      exact horizon_of_context (contexts c) q

/-- A JOIN whose effect stays within the pair's waiting kinds. -/
theorem joinKept_followed {f : State} (acts : ActsOn p s f) (contexts : ContextsLeft s f)
    (awake : (f.pair p).state ≠ .quiet) (reset : s.agent.reset = none) (k : Followed f t) :
    (t.pair p).steady = (f.pair p).steady ∧ Beside p s t ∧ ContextsLeft s t :=
  ⟨k.steady awake, acts.beside k.follows reset, fun c => (k.follows.contexts c).trans (contexts c)⟩

end Join

/-- Settles O15. -/
theorem joinTaken : Obligations.JoinTaken := by
  intro p h role far fresh s opened
  refine ⟨fun plain => ?_, fun receives awake length cabinet other => ?_⟩
  · have ran := exec_join_plain (far := far) opened.1 plain
    rw [← recordedJoin] at ran
    obtain ⟨-, -, receives, awake, -⟩ := plain
    have acts := recordedJoin_actsOn p far role s
    have contexts := recordedJoin_contexts p far role s
    have state := recordedJoin_state p far role s
    have unit := recordedJoin_unit p far role s
    have bond : (recordedJoin p far role s).bond = s.bond := rfl
    have arrived : Arrived p s (recordedJoin p far role s) := (heard_arrived p 2 s).recorded far role
    generalize recordedJoin p far role s = a at *
    have far' : (a.pair p).farPair = some far ∧ (a.pair p).farRole = some role := by
      rw [unit]
      exact ⟨rfl, rfl⟩
    by_cases joined : (s.pair p).state = .joining ∨ (s.pair p).state = .serving ∨ (s.pair p).state = .waking
    · have joined' : (a.pair p).state = .joining ∨ (a.pair p).state = .serving ∨ (a.pair p).state = .waking := by
        rwa [state]
      by_cases epoch : s.bond.epoch = some h.epoch
      · have current : a.bond.epoch = some h.epoch := by rw [bond, epoch]
        by_cases serving : (s.pair p).state = .serving
        · rw [joinByState_serving (state.trans serving) current] at ran
          have reset : (joinOnServing p a).agent.reset = none :=
            ((acts.trans (raiseCtl_actsOn .alive p a)).trans (clearHorizons_gathers p p _).acts).reset opened.2
          obtain ⟨steady, serves, alive, beside, horizons⟩ :=
            joinOnServing_followed (state.trans serving) acts contexts opened.2 (settle_followed reset)
          obtain ⟨farPair, farRole⟩ := steady_far steady
          refine ⟨_, ran, farPair.trans far'.1, farRole.trans far'.2, ?_, fun _ _ => ⟨serves, alive, beside, horizons⟩,
            fun _ other => absurd epoch other, fun idle => ?_⟩
          · obtain ⟨-, -, left, -⟩ := beside
            rw [left.1]
          · rw [serving] at idle
            rcases idle with e | e | e | e <;> cases e
        · have service : (a.pair p).state = .joining ∨ (a.pair p).state = .waking := by
            rw [state]
            rcases joined with e | e | e
            · exact .inl e
            · exact absurd e serving
            · exact .inr e
          obtain ⟨y, entering, gathers⟩ := joinByState_enters current service
          have event := arrived.event.trans entering.event
          have reset := gathers.acts.reset ((congrArg Agent.reset event.agent).trans opened.2)
          have k := settle_followed reset
          have beside := gathers.offers event k opened.2
          have onward : Onward (y.pair p) ((settle (joinByState p h.epoch a)).pair p) := by
            rw [← gathers.pair]
            refine (k.ensues.pairs p).onward ?_
            rw [gathers.pair, entering.serves.entered.1]
            decide
          have serves := entering.serves.onward onward
          obtain ⟨farPair, farRole⟩ := serves.far
          refine ⟨_, ran, farPair.trans far'.1, farRole.trans far'.2, ?_, fun now => absurd now serving,
            fun _ other => absurd epoch other, fun idle => ?_⟩
          · obtain ⟨-, -, left, -⟩ := beside
            rw [left.1]
          · rcases joined with j | j | j <;> rw [j] at idle <;> rcases idle with e | e | e | e <;> cases e
      · have other : a.bond.epoch ≠ some h.epoch := by rw [bond]; exact epoch
        rw [joinByState_other joined' other] at ran
        have raised := acts.trans (raiseCtl_actsOn .restart p a)
        have k := settle_followed (raised.reset opened.2)
        have own : (raiseCtl .restart p a).pair p = (a.pair p).raise .restart := modPair_pair_same ..
        have up : ((raiseCtl .restart p a).pair p).state ≠ .quiet := by rw [own, raise_state, state]; exact awake
        obtain ⟨steady, beside, left⟩ := joinKept_followed raised contexts up opened.2 k
        have steady' := steady.trans (by rw [own, raise_steady])
        obtain ⟨farPair, farRole⟩ := steady_far steady'
        refine ⟨_, ran, farPair.trans far'.1, farRole.trans far'.2, ?_, fun _ now => absurd now epoch,
          fun _ _ => ⟨(steady_state steady').trans state, k.sends up ?_, beside, left⟩, fun idle => ?_⟩
        · obtain ⟨-, -, left, -⟩ := beside
          rw [left.1]
        · rw [own]
          refine raise_sends ?_
          rcases joined' with e | e | e <;> rw [e] <;> rfl
        · rcases joined with j | j | j <;> rw [j] at idle <;> rcases idle with e | e | e | e <;> cases e
    · rw [not_or, not_or] at joined
      obtain ⟨unjoined, unserving, unwaking⟩ := joined
      rw [joinByState_idle (by rwa [state]) (by rwa [state]) (by rwa [state])] at ran
      have k := settle_followed (acts.reset opened.2)
      obtain ⟨steady, beside, left⟩ := joinKept_followed acts contexts (by rw [state]; exact awake) opened.2 k
      obtain ⟨farPair, farRole⟩ := steady_far steady
      refine ⟨_, ran, farPair.trans far'.1, farRole.trans far'.2, ?_, fun now => absurd now unserving,
        fun now => ?_, fun _ => ⟨steady.trans (by rw [unit]; rfl), beside, left⟩⟩
      · obtain ⟨-, -, left, -⟩ := beside
        rw [left.1]
      · rcases now with e | e | e
        · exact absurd e unjoined
        · exact absurd e unserving
        · exact absurd e unwaking
  · have ran := exec_restartAsk (p := p) opened.1 receives length
    rw [cabinet] at ran
    simp only [if_neg awake, if_neg other] at ran
    have state := heard_state p 0 s
    refine ⟨_, ran, onlyPair_trans (onlyPair_trans (heard_onlyPair p 0 s) (raiseCtl_onlyPair .restart p _))
      (chooseHandover_onlyPair p _), chosen_steady (by rw [state]; exact awake), fun joined => ?_⟩
    refine chosen_sends (by rw [state]; exact awake) ?_
    rw [state]
    rcases joined with e | e | e <;> rw [e] <;> rfl

end Sys2Proof.Proofs
end

