-- ==== Sys2Proof/Proofs/LocalRestart.lean ====
section
/-! SUPPORT. The local restart (R13, R44): the pairs, the classes and the bond controller that it leaves, and that no
selection follows while no pair is in service. -/

namespace Sys2Proof.Proofs
open Sys2Proof Sys2Proof.Machine Sys2Proof.Laws

/-! ## The pairs -/

section Pairs

variable {s t u : State}

/-- Nothing but the pair units and the outputs has changed. -/
def PairsOnly (s t : State) : Prop := t = { s with pairs := t.pairs, out := t.out }

theorem PairsOnly.refl (s : State) : PairsOnly s s := rfl

theorem PairsOnly.trans (h : PairsOnly s t) (k : PairsOnly t u) : PairsOnly s u := by
  rw [PairsOnly] at h k ⊢
  rw [k, h]

theorem pairsOnly_fields (h : PairsOnly s t) : t.classes = s.classes ∧ t.bond = s.bond ∧ t.engine = s.engine ∧
    t.classifier = s.classifier ∧ t.trunk = s.trunk ∧ t.agent = s.agent ∧ t.cfg = s.cfg ∧ t.notices = s.notices ∧
    t.now = s.now := by
  rw [PairsOnly] at h
  have classes := congrArg State.classes h
  have bond := congrArg State.bond h
  have engine := congrArg State.engine h
  have classifier := congrArg State.classifier h
  have trunk := congrArg State.trunk h
  have agent := congrArg State.agent h
  have cfg := congrArg State.cfg h
  have notices := congrArg State.notices h
  have now := congrArg State.now h
  exact ⟨classes, bond, engine, classifier, trunk, agent, cfg, notices, now⟩

theorem modPair_pairsOnly (p : PairNo) (f : PairUnit → PairUnit) (s : State) : PairsOnly s (modPair p f s) := rfl

theorem cutHandover_pairsOnly (b : Bool) (p : PairNo) (s : State) : PairsOnly s (cutHandover b p s) := by
  unfold cutHandover
  split <;> rfl

theorem restartPair_pairsOnly (p : PairNo) (s : State) : PairsOnly s (restartPair p s) := by
  unfold restartPair
  dsimp only
  split
  · refine PairsOnly.trans (cutHandover_pairsOnly true p s) ?_
    split <;> rfl
  · exact .refl s

/-- The unit of a pair after the local restart (R13, R44 step 1). -/
def restartedUnit (now : Nat) (b : BondSettings) (u : PairUnit) : PairUnit :=
  if restartsPair u.state then PairUnit.enter now b .joining (restartingUnit u) else u

theorem restartPair_unit (p q : PairNo) (s : State) : (restartPair p s).pair q =
    if q = p then restartedUnit s.now s.cfg (s.pair q) else s.pair q := by
  rw [restartPair_pair, restartedUnit]
  by_cases own : q = p
  · subst own
    simp
  · simp [own]

theorem restartPairs_pairsOnly (ps : List PairNo) (s : State) : PairsOnly s (eachPair ps restartPair s) := by
  unfold eachPair
  induction ps generalizing s with
  | nil => exact .refl s
  | cons p ps ih => exact (restartPair_pairsOnly p s).trans (ih _)

theorem restartPairs_unit {ps : List PairNo} (distinct : ps.Nodup) (q : PairNo) (s : State) :
    (eachPair ps restartPair s).pair q = if q ∈ ps then restartedUnit s.now s.cfg (s.pair q) else s.pair q := by
  unfold eachPair
  induction ps generalizing s with
  | nil => simp
  | cons p ps ih =>
    obtain ⟨away, distinct⟩ := List.nodup_cons.1 distinct
    obtain ⟨-, -, -, -, -, -, cfg, -, now⟩ := pairsOnly_fields (restartPair_pairsOnly p s)
    rw [List.foldl_cons, ih distinct, restartPair_unit, now, cfg]
    by_cases own : q = p
    · subst own
      simp [away]
    · simp [own]

end Pairs

/-! ## The classes -/

section Classes

variable {s : State}

/-- What the distributor of a class leaves of its unit (R44 step 2, R106). -/
def unnumbered (k : ClassUnit) : ClassUnit :=
  { k with nextSeq := 0, current := none, n := { k.n with flushed := k.n.flushed + if k.current.isSome then 1 else 0 } }

/-- What the collector and the reassembler of a class leave of its unit (R44 steps 3 and 4, R130). -/
def contextCleared (k : ClassUnit) : ClassUnit :=
  { k with
    n := { k.n with cleared := k.n.cleared + BitVec.ofNat 32 k.held.length }
    held := [], next := 0, horizons := Vector.replicate 8 none, hold := none, reasm := .idle }

theorem restartDistributor_modClass (c : ClassNo) (reset : s.agent.reset = none) :
    restartDistributor c s = modClass c unnumbered s := by
  unfold restartDistributor
  split
  · next idle =>
    refine congrArg (fun u => { s with classes := s.classes.set c.val u c.isLt }) ?_
    have same : (s.classes.get c).current = none := idle
    simp [unnumbered, State.cls, same]
  · next g busy =>
    have unit : modClass c (fun k => { k with
        nextSeq := 0, current := none, n := { k.n with flushed := k.n.flushed + 1 } }) s = modClass c unnumbered s := by
      refine congrArg (fun u => { s with classes := s.classes.set c.val u c.isLt }) ?_
      have same : (s.classes.get c).current = some g := busy
      simp [unnumbered, State.cls, same]
    rw [unit]
    have stays : reportReset (modClass c unnumbered s) = modClass c unnumbered s := by
      have none' : (modClass c unnumbered s).agent.reset = none := reset
      rw [reportReset, none']
    simp [stays]

theorem restartClass_modClass (c : ClassNo) (s : State) : restartClass c s = modClass c contextCleared s := rfl

/-- A change of one class unit at a time changes each by itself. -/
theorem eachClass_modClass (f : ClassUnit → ClassUnit) (s : State) : ∃ ks : Vector ClassUnit 3,
    eachClass (fun c => modClass c f) s = { s with classes := ks } ∧ ∀ c : ClassNo, ks.get c = f (s.cls c) := by
  refine ⟨_, rfl, fun c => ?_⟩
  have each : c = 0 ∨ c = 1 ∨ c = 2 := by revert c; decide
  show (modClass 2 f (modClass 1 f (modClass 0 f s))).cls c = _
  rcases each with rfl | rfl | rfl <;> simp [modClass_cls]

theorem restartDistributors (reset : s.agent.reset = none) : ∃ ks : Vector ClassUnit 3,
    eachClass restartDistributor s = { s with classes := ks } ∧ ∀ c : ClassNo, ks.get c = unnumbered (s.cls c) := by
  obtain ⟨ks, whole, units⟩ := eachClass_modClass unnumbered s
  refine ⟨ks, ?_, units⟩
  rw [← whole]
  unfold eachClass
  rw [restartDistributor_modClass 0 reset, restartDistributor_modClass 1 (s := modClass 0 unnumbered s) reset,
    restartDistributor_modClass 2 (s := modClass 1 unnumbered (modClass 0 unnumbered s)) reset]

end Classes

/-! ## The whole of it -/

section Whole

variable {e : Option Epoch} {s t : State}

/-- What the local restart into epoch `e` leaves (R44). -/
structure Restarted (e : Option Epoch) (s r : State) : Prop where
  units : ∀ p : PairNo, r.pair p = restartedUnit s.now s.cfg (s.pair p)
  classes : ∀ c : ClassNo, r.cls c = contextCleared (unnumbered (s.cls c))
  bond : r.bond = { role := s.bond.role, epoch := e, carried := false, asking := false, askTimer := none }
  raised : RaisedOnce .epochChanged (valueArg (e.getD 0).toNat) s r
  unraised : ∀ src : Source, src ≠ .epochChanged → Unraised src s r
  engine : r.engine = s.engine
  settings : SettingsKept s r
  classifier : r.classifier = s.classifier
  trunk : r.trunk = s.trunk
  agent : r.agent = s.agent
  now : r.now = s.now

theorem localRestart_restarted (reset : s.agent.reset = none) : Restarted s.bond.epoch s (localRestart s) := by
  have settings : SettingsKept s (localRestart s) :=
    ((settingsStand_events s).restarted ⟨(Follows.refl s).settings, reset⟩).1
  have distinct : allPairs.Nodup := by decide
  have units := fun q => restartPairs_unit distinct q s
  obtain ⟨classes, bond, engine, classifier, trunk, agent, -, notices, now⟩ :=
    pairsOnly_fields (restartPairs_pairsOnly allPairs s)
  have whole : localRestart s = raiseNotice .epochChanged
      (valueArg ((restartStores (eachPair allPairs restartPair s)).bond.epoch.getD 0).toNat)
      (restartStores (eachPair allPairs restartPair s)) := rfl
  rw [whole] at settings ⊢
  generalize eachPair allPairs restartPair s = x at *
  obtain ⟨ks, distributors, numbers⟩ := restartDistributors (s := x) (by rw [agent, reset])
  obtain ⟨ks', collectors, contexts⟩ := eachClass_modClass contextCleared { x with classes := ks }
  have stores : restartStores x =
      { x with classes := ks', bond := { x.bond with carried := false, asking := false, askTimer := none } } := by
    have all : eachClass restartClass { x with classes := ks } = { x with classes := ks' } := collectors
    rw [restartStores, distributors, all]
  rw [stores] at settings ⊢
  have sources : ∀ src : Source, Unraised src s
      { x with classes := ks', bond := { x.bond with carried := false, asking := false, askTimer := none } } :=
    unraised_of_notices notices
  exact {
    units := fun p => by
      have member : p ∈ allPairs := mem_allPairs p
      have unit := units p
      rw [if_pos member] at unit
      exact unit
    classes := fun c => by
      have unit : ks'.get c = contextCleared (ks.get c) := contexts c
      rw [numbers c, State.cls, classes] at unit
      exact unit
    bond := by
      show { x.bond with carried := false, asking := false, askTimer := none } = _
      rw [bond]
    raised := by
      have raised := raisedOnce_after (sources .epochChanged) (raiseNotice_raisedOnce .epochChanged
        (valueArg (x.bond.epoch.getD 0).toNat)
        { x with classes := ks', bond := { x.bond with carried := false, asking := false, askTimer := none } })
      rw [bond] at raised ⊢
      exact raised
    unraised := fun src other => unraised_trans (sources src) (raiseNotice_unraised .epochChanged src _ _ other)
    engine := engine
    settings := settings
    classifier := classifier
    trunk := trunk
    agent := agent
    now := now }

/-- The restart counts from the state before its epoch was set. -/
theorem setEpoch_restarted (e : Option Epoch) (reset : s.agent.reset = none) :
    Restarted e s (localRestart (setEpoch e s)) := by
  have k := localRestart_restarted (s := setEpoch e s) reset
  exact { k with
    settings := SettingsKept_trans ((settingsStand_events s).epoch ⟨(Follows.refl s).settings, reset⟩).1 k.settings }

/-! ## What follows while no pair is in service -/

/-- No pair sends DATA or may be asked to wake. -/
def Dormant (s : State) : Prop := ∀ p : PairNo, (s.pair p).state ≠ .serving ∧ (s.pair p).state ≠ .quiet

/-- The distributor's numbering, its frames in progress and the queues of the classes other than 0, and the bond
controller, are left. -/
structure Unselected (s t : State) : Prop where
  dormant : Dormant s → Dormant t
  bond : t.bond = s.bond
  numbers : ∀ c : ClassNo, (t.cls c).nextSeq = (s.cls c).nextSeq ∧ (t.cls c).current = (s.cls c).current
  queues : ∀ c : ClassNo, c ≠ 0 → (t.cls c).queue = (s.cls c).queue

theorem Unselected.trans {u : State} (h : Unselected s t) (k : Unselected t u) : Unselected s u where
  dormant d := k.dormant (h.dormant d)
  bond := k.bond.trans h.bond
  numbers c := ⟨(k.numbers c).1.trans (h.numbers c).1, (k.numbers c).2.trans (h.numbers c).2⟩
  queues c other := (k.queues c other).trans (h.queues c other)

theorem unselected_of_eq (states : ∀ p : PairNo, (t.pair p).state = (s.pair p).state) (bond : t.bond = s.bond)
    (classes : t.classes = s.classes) : Unselected s t where
  dormant d p := by rw [states]; exact d p
  bond := bond
  numbers c := by rw [State.cls, classes]; exact ⟨rfl, rfl⟩
  queues c _ := by rw [State.cls, classes]; rfl

theorem Unselected.refl (s : State) : Unselected s s := unselected_of_eq (fun _ => rfl) rfl rfl

/-- No demand wake and no selection while no pair is in service (R94, R103). -/
theorem distribute_dormant (dormant : Dormant s) : distribute s = s := by
  have asleep : fastestPair s (fun p => (s.pair p).state = .quiet) = none := by
    have none' : (allPairs.filter fun p => decide ((s.pair p).state = .quiet)) = [] :=
      List.filter_eq_nil_iff.2 fun p _ => by simpa using (dormant p).2
    rw [fastestPair, none']
    rfl
  have wakes : demandWake s = s := by
    unfold demandWake
    split
    · rw [asleep]
    · rfl
  have shut : selectionRuns s = false := by
    have none' : (allPairs.any fun p => (s.pair p).isOpen) = false :=
      List.any_eq_false.2 fun p _ => by simp [PairUnit.isOpen, (dormant p).1]
    rw [selectionRuns, none', Bool.false_and]
  rw [distribute, wakes, selectUpTo, shut]
  rfl

theorem modClass_unselected {c : ClassNo} {f : ClassUnit → ClassUnit} (s : State)
    (numbers : (f (s.cls c)).nextSeq = (s.cls c).nextSeq ∧ (f (s.cls c)).current = (s.cls c).current)
    (queue : c ≠ 0 → (f (s.cls c)).queue = (s.cls c).queue) : Unselected s (modClass c f s) where
  dormant := id
  bond := rfl
  numbers d := by
    rw [modClass_cls]
    split
    · next own => rw [own]; exact numbers
    · exact ⟨rfl, rfl⟩
  queues d other := by
    rw [modClass_cls]
    split
    · next own => rw [own] at other ⊢; exact queue other
    · rfl

theorem offerFrame_unselected (f : FrameRec) (s : State) : Unselected s (offerFrame 0 f s) := by
  have drop : ∀ s : State, Unselected s (countQueueDrop 0 s) := fun s =>
    (modClass_unselected (c := 0) (f := fun k => { k with n := { k.n with queueDrop := k.n.queueDrop + 1 } }) s
      ⟨rfl, rfl⟩ fun _ => rfl).trans (unselected_of_eq (fun _ => rfl) rfl rfl)
  have report : ∀ s : State, Unselected s (reportReset s) := fun s => by
    unfold reportReset
    split
    · exact .refl s
    · exact unselected_of_eq (fun _ => rfl) rfl rfl
  have dropped : ∀ s : State, Unselected s (if f.resetReply then reportReset (countQueueDrop 0 s) else countQueueDrop 0 s) :=
    fun s => by
      split
      · exact (drop s).trans (report _)
      · exact drop s
  have taken : ∀ s : State, Unselected s (takeSlot 0 f s) := fun s =>
    (modClass_unselected (c := 0) (f := fun k => { k with
      queue := insertFrame { f with order := s.nextOrder } k.queue, n := { k.n with admitted := k.n.admitted + 1 } }) s
      ⟨rfl, rfl⟩ fun zero => absurd rfl zero).trans (unselected_of_eq (fun _ => rfl) rfl rfl)
  unfold offerFrame
  dsimp only
  split
  · exact taken s
  · split
    · split
      · exact ((modClass_unselected (c := 0) (f := fun k => { k with queue := k.queue.dropLast }) s
          ⟨rfl, rfl⟩ fun zero => absurd rfl zero).trans (drop _)).trans (taken _)
      · exact dropped s
    · exact dropped s

theorem chooseHandovers_unselected (s : State) : Unselected s (chooseHandovers s) := by
  unfold chooseHandovers eachPair
  generalize allPairs = ps
  induction ps generalizing s with
  | nil => exact .refl s
  | cons p ps ih =>
    obtain ⟨others, classes, bond, -⟩ := chooseHandover_onlyPair p s
    refine Unselected.trans ⟨fun dormant q => ?_, bond, fun c => ?_, fun c _ => ?_⟩ (ih (chooseHandover p s))
    · by_cases own : q = p
      · subst own
        have same := steady_state ((chooseHandover_steps q s).steady (dormant q).2)
        rw [same]
        exact dormant q
      · rw [others q own]
        exact dormant q
    · rw [State.cls, classes]
      exact ⟨rfl, rfl⟩
    · rw [State.cls, classes]
      rfl

theorem sendNotice_unselected (src : Source) (d : Addr) (dormant : Dormant s) : Unselected s (sendNotice src d s) := by
  unfold sendNotice
  dsimp only
  split
  · unfold offerEgress
    split
    · exact unselected_of_eq (fun _ => rfl) rfl rfl
    · exact unselected_of_eq (fun _ => rfl) rfl rfl
  · have formed : Unselected s (emit (.notice src (noticeFrame s src d))
        { modSource src (fun u => { u with due := false }) s with
          notices := { (modSource src (fun u => { u with due := false }) s).notices with
            number := (modSource src (fun u => { u with due := false }) s).notices.number + 1 } }) :=
      unselected_of_eq (fun _ => rfl) rfl rfl
    have offered := formed.trans (offerFrame_unselected
      { octets := noticeFrame s src d, urgency := 7, map := everyPair, order := 0, resetReply := false } _)
    rw [offerOwnFrame, distribute_dormant (offered.dormant dormant)]
    exact offered

theorem sendUpTo_unselected (n : Nat) (dormant : Dormant s) : Unselected s (sendUpTo n s) := by
  induction n generalizing s with
  | zero => exact .refl s
  | succ n ih =>
    rw [sendUpTo]
    split
    · next _ _ src d _ _ =>
      have sent := sendNotice_unselected src d dormant
      exact sent.trans (ih (sent.dormant dormant))
    · exact .refl s

theorem beginSend_unselected (s : State) : Unselected s (beginSend s) := by
  unfold beginSend
  split
  · exact .refl s
  · split
    · exact unselected_of_eq (fun _ => rfl) rfl rfl
    · exact .refl s

/-- What follows an event that leaves no pair in service (R94, R198). -/
theorem settle_unselected (dormant : Dormant s) (reset : s.agent.reset = none) : Unselected s (settle s) := by
  have chosen := chooseHandovers_unselected s
  have sent := chosen.trans (sendUpTo_unselected 12 (chosen.dormant dormant))
  have begun := (sent.trans (chooseHandovers_unselected _)).trans (beginSend_unselected _)
  have same : distribute (chooseHandovers s) = chooseHandovers s := distribute_dormant (chosen.dormant dormant)
  have kept : (beginSend (chooseHandovers (sendNotices (chooseHandovers s)))).agent.reset = none := by
    have chosen' := chooseHandovers_follows s
    exact (((chosen'.trans (sendNotices_follows _)).trans (chooseHandovers_follows _)).trans (beginSend_follows _)).reset reset
  have whole : settle s = beginSend (chooseHandovers (sendNotices (chooseHandovers s))) := by
    rw [settle, same, finish, checkReset_none kept]
  rw [whole]
  exact begun

end Whole

/-! ## What the restart says of a pair -/

section Units

variable {e : Option Epoch} {now : Nat} {b : BondSettings} {u : PairUnit} {s r y t : State}

theorem restartsPair_iff {st : PairState} : restartsPair st = true ↔ st = .serving ∨ st = .waking ∨ st = .quiet := by
  cases st <;> decide

/-- What a pair in service has of the local restart (R13). -/
def Rejoins (now : Nat) (b : BondSettings) (u v : PairUnit) : Prop :=
  v.Entered now b .joining ∧ u.RecordKept v ∧ v.rate = u.rate ∧ v.queue = [] ∧ v.sends .join ∧
    v.n.flushed = u.n.flushed + BitVec.ofNat 32
      (u.queue.drop (if (u.handover.any fun h => h.frag.kind = 0) = true then 1 else 0)).length ∧
    v.n.cutOff = u.n.cutOff + (if u.handover.isSome = true then 1 else 0) ∧ (u.state = .quiet → v.control = .wake)

theorem cutUnit_queue_drop (u : PairUnit) : (cutUnit true u).queue =
    u.queue.drop (if (u.handover.any fun h => h.frag.kind = 0) = true then 1 else 0) := by
  unfold cutUnit
  split
  · next idle => simp [idle]
  · next h busy =>
    rw [busy]
    by_cases data : h.frag.kind = 0
    · simp [data, List.drop_one]
    · have other : h.frag.kind ≠ 0#4 := data
      simp [other]

theorem restartedUnit_rejoins (service : restartsPair u.state = true) : Rejoins now b u (restartedUnit now b u) := by
  have unit : restartedUnit now b u = PairUnit.enter now b .joining (restartingUnit u) := if_pos service
  obtain ⟨-, -, -, -, -, -, counters, queue, -, control⟩ := enter_kept now b .joining (restartingUnit u)
  have course' := cutUnit_course true u
  rw [unit]
  refine ⟨enter_entered .., ?_, ?_, queue, .inl (mem_addCtl.2 (.inl rfl)), ?_, ?_, fun quiet => ?_⟩
  · have kept := enter_recordKept now b (st := .joining) (by decide) (restartingUnit u)
    have same : u.RecordKept (restartingUnit u) := by
      unfold restartingUnit cutUnit
      split <;> exact ⟨rfl, rfl, rfl, rfl, rfl, rfl, rfl, rfl, rfl⟩
    obtain ⟨a1, a2, a3, a4, a5, a6, a7, a8, a9⟩ := kept
    obtain ⟨b1, b2, b3, b4, b5, b6, b7, b8, b9⟩ := same
    exact ⟨a1.trans b1, a2.trans b2, a3.trans b3, a4.trans b4, a5.trans b5, a6.trans b6, a7.trans b7, a8.trans b8, a9.trans b9⟩
  · rw [enter_rate, if_neg (by decide)]
    exact course_rate course'
  · rw [counters]
    show (cutUnit true u).n.flushed + BitVec.ofNat 32 (cutUnit true u).queue.length = _
    rw [cutUnit_counted, cutUnit_queue_drop]
  · rw [counters]
    show (cutUnit true u).n.cutOff = _
    rw [cutUnit_counted]
  · rw [control]
    exact if_pos quiet

/-- What an event leaves of a unit that has been restarted. -/
theorem Rejoins.later {u v w : PairUnit} (h : Rejoins now b u v) (steady : w.steady = v.steady) (queue : w.queue = v.queue)
    (sends : ∀ k : Ctl, v.sends k → w.sends k) : Rejoins now b u w := by
  obtain ⟨entered, record, rate, empty, join, flushed, cut, control⟩ := h
  obtain ⟨-, -, -, counters, -, -, rate'⟩ := steady_fields steady
  have told : w.control = v.control := by
    have same := congrArg PairUnit.control steady
    exact same
  refine ⟨entered_of_steady steady entered, recordKept_of_steady steady record, rate'.trans rate, queue.trans empty, sends _ join, ?_, ?_,
    fun quiet => told.trans (control quiet)⟩
  · rw [counters, flushed]
  · rw [counters, cut]

/-- A kind has been raised on some of the pairs, and nothing else done (R39, R43). -/
structure Raises (k : Ctl) (r y : State) : Prop where
  only : PairsOnly r y
  settings : SettingsKept r y
  units : ∀ p : PairNo, y.pair p = r.pair p ∨ y.pair p = (r.pair p).raise k

theorem Raises.refl (k : Ctl) (r : State) : Raises k r r := ⟨.refl r, (Follows.refl r).settings, fun _ => .inl rfl⟩

theorem addCtl_twice (k : Ctl) (ks : List Ctl) : addCtl k (addCtl k ks) = addCtl k ks := by
  induction ks with
  | nil => simp [addCtl]
  | cons x xs ih =>
    by_cases same : k = x
    · simp [addCtl, same]
    · by_cases before : k.code < x.code <;> simp [addCtl, same, before, ih]

theorem raise_twice (k : Ctl) (u : PairUnit) : (u.raise k).raise k = u.raise k := by
  by_cases permitted : k.permitted u.state = true
  · have raised : u.raise k = { u with ctl := addCtl k u.ctl } := if_pos permitted
    rw [raised, PairUnit.raise, if_pos (show k.permitted u.state = true from permitted), addCtl_twice]
  · have same : u.raise k = u := if_neg permitted
    rw [same, same]

theorem Raises.raised {k : Ctl} (h : Raises k r y) (p : PairNo) : Raises k r (raiseCtl k p y) where
  only := h.only.trans (modPair_pairsOnly p _ y)
  settings := SettingsKept_trans h.settings (modPair_settingsKept p _ y (raise_cfg _ _))
  units q := by
    by_cases own : q = p
    · subst own
      rw [raiseCtl, modPair_pair_same]
      rcases h.units q with same | raised
      · exact .inr (by rw [same])
      · exact .inr (by rw [raised, raise_twice])
    · rw [raiseCtl, modPair_pair_other _ _ _ own]
      exact h.units q

/-- A kind raised on a list of pairs stands on each of them and on those that had it. -/
theorem Raises.each {k : Ctl} (h : Raises k r y) (ps : List PairNo) : Raises k r (eachPair ps (raiseCtl k) y) ∧
    ∀ q : PairNo, q ∈ ps ∨ y.pair q = (r.pair q).raise k →
      (eachPair ps (raiseCtl k) y).pair q = (r.pair q).raise k := by
  unfold eachPair
  induction ps generalizing y with
  | nil => exact ⟨h, fun q stands => stands.resolve_left (List.not_mem_nil)⟩
  | cons p ps ih =>
    have own : (raiseCtl k p y).pair p = (r.pair p).raise k := by
      rw [raiseCtl, modPair_pair_same]
      rcases h.units p with same | raised
      · rw [same]
      · rw [raised, raise_twice]
    obtain ⟨raises, stand⟩ := ih (h.raised p)
    refine ⟨raises, fun q stands => stand q ?_⟩
    by_cases here : q = p
    · rw [here]
      exact .inr own
    · rw [raiseCtl, modPair_pair_other _ _ _ here]
      exact stands.imp_left fun m => (List.mem_cons.1 m).resolve_left here

theorem Raises.unit {k : Ctl} (h : Raises k r y) (p : PairNo) : (y.pair p).steady = (r.pair p).steady ∧
    (y.pair p).queue = (r.pair p).queue ∧ ∀ k : Ctl, (r.pair p).sends k → (y.pair p).sends k := by
  rcases h.units p with same | raised
  · rw [same]
    exact ⟨rfl, rfl, fun _ => id⟩
  · rw [raised]
    exact ⟨raise_steady _ _, raise_queue _ _, fun c => raise_keeps k c _⟩

theorem restartedUnit_state (now : Nat) (b : BondSettings) (u : PairUnit) : (restartedUnit now b u).state =
    if restartsPair u.state then .joining else u.state := by
  unfold restartedUnit
  split
  · exact (enter_entered ..).1
  · rfl

theorem Restarted.dormant (h : Restarted e s r) : Dormant r := fun p => by
  rw [h.units, restartedUnit_state]
  split
  · decide
  · next idle =>
    rw [restartsPair_iff, not_or, not_or] at idle
    exact ⟨idle.1, idle.2.2⟩

/-- All that a local restart leaves, once the other blocks have followed (R44). -/
theorem Restarted.locally (h : Restarted e s r) (raises : Raises .restart r y) (k : Followed y t) (unselected : Unselected y t)
    (reset : s.agent.reset = none) : LocallyRestarted e s t := by
  obtain ⟨classes, bond, engine, classifier, trunk, agent, -, notices, now⟩ := pairsOnly_fields raises.only
  have awake : ∀ p : PairNo, (y.pair p).state ≠ .quiet ∧ (y.pair p).state ≠ .serving := fun p => by
    rw [steady_state (raises.unit p).1]
    exact (h.dormant p).symm
  refine ⟨fun p => ?_, fun c => ?_, ?_, ?_, k.engineLeft (engine.trans h.engine),
    SettingsKept_trans (SettingsKept_trans h.settings raises.settings) k.follows.settings,
    (k.follows.classifier.trans classifier).trans h.classifier, ?_, k.follows.reset (by rw [agent, h.agent, reset])⟩
  · obtain ⟨steady, queue, sends⟩ := raises.unit p
    obtain ⟨asleep, idle⟩ := awake p
    have steady' := (k.steady asleep).trans steady
    have queue' := ((k.ensues.pairs p).queue_left asleep (.inl idle)).trans queue
    have unit := h.units p
    split
    · next service =>
      have rejoins := restartedUnit_rejoins (now := s.now) (b := s.cfg) (restartsPair_iff.2 service)
      rw [← unit] at rejoins
      exact rejoins.later steady' queue' fun c sent => k.sends asleep (sends c sent)
    · next out =>
      rw [steady', unit, restartedUnit, if_neg fun restarts => out (restartsPair_iff.1 restarts)]
  · have unit : y.cls c = contextCleared (unnumbered (s.cls c)) := by rw [State.cls, classes]; exact h.classes c
    obtain ⟨number, current⟩ := unselected.numbers c
    have counters := k.ensues.counters c
    have cleared' : (t.cls c).n.cleared = (y.cls c).n.cleared := by
      have same := congrArg ClassCounters.cleared counters
      exact same
    have flushed' : (t.cls c).n.flushed = (y.cls c).n.flushed := by
      have same := congrArg ClassCounters.flushed counters
      exact same
    refine ⟨number.trans (by rw [unit]; rfl), current.trans (by rw [unit]; rfl), (k.follows.contexts c).trans (by rw [unit]; rfl),
      cleared'.trans (by rw [unit]; rfl), flushed'.trans (by rw [unit]; rfl), fun other => ?_⟩
    rw [unselected.queues c other, unit]
    rfl
  · rw [unselected.bond, bond, h.bond]
  · exact k.raised (raisedOnce_before h.raised (unraised_of_notices notices _)) (by decide)
  · rw [← h.trunk, ← trunk]
    exact k.follows.egress

end Units

end Sys2Proof.Proofs
end

