-- ==== Sys2Proof/Proofs/AdoptionRestarts.lean ====
section
/-! PROOF. The adoption of an epoch at a HOMESTEAD, and a FRESH JOIN there (R41, R42, R44). -/

namespace Sys2Proof.Proofs
open Sys2Proof Sys2Proof.Machine Sys2Proof.Laws

/-- The pair of an ALIVE or a JOIN enters SERVING from here once the restart has been made (R34, R37). -/
abbrev Joined (u : PairUnit) : Prop := u.state = .joining ∨ u.state = .serving ∨ u.state = .waking

section After

variable {e : Option Epoch} {p : PairNo} {s a r y z t : State}

/-- What a message that restarts the bond leaves, once its pair has acted and the other blocks have followed (R34, R37,
R44). -/
structure TakenAfter (e : Option Epoch) (p : PairNo) (a y t : State) : Prop where
  bond : t.bond.epoch = e ∧ t.bond.asking = false ∧ t.bond.askTimer = none
  changed : RaisedOnce .epochChanged (valueArg (e.getD 0).toNat) a t
  settings : SettingsKept a t
  engine : EngineLeft a t
  others : ∀ q : PairNo, q ≠ p → restartsPair (a.pair q).state = true →
    Rejoins a.now a.cfg (a.pair q) (t.pair q) ∧ ∀ k : Ctl, (y.pair q).sends k → (t.pair q).sends k
  own : if Joined (a.pair p) then
      (t.pair p).Entered a.now a.cfg .serving ∧ RaisedOnce .pairUp (valueArg p.val) a t ∧
        (t.pair p).farPair = (a.pair p).farPair ∧ (t.pair p).farRole = (a.pair p).farRole
    else (t.pair p).steady = (a.pair p).steady

theorem Restarted.state_joined (h : Restarted e a r) (joined : Joined (a.pair p)) :
    (r.pair p).state = .joining := by
  rw [h.units, restartedUnit_state]
  rcases joined with state | state | state <;> rw [state] <;> rfl

theorem Restarted.unit_idle (h : Restarted e a r) (awake : (a.pair p).state ≠ .quiet) (idle : ¬ Joined (a.pair p)) :
    r.pair p = a.pair p := by
  rw [h.units, restartedUnit, if_neg]
  rw [restartsPair_iff]
  rw [Joined, not_or, not_or] at idle
  rintro (state | state | state)
  · exact idle.2.1 state
  · exact idle.2.2 state
  · exact awake state

/-- A restarted pair that is not the message's own. -/
theorem Restarted.rejoined (h : Restarted e a r) (raises : Raises .restart r y) {q : PairNo} (service : restartsPair (a.pair q).state = true)
    (left : PairSteps a.now a.cfg (y.pair q) (t.pair q)) :
    Rejoins a.now a.cfg (a.pair q) (t.pair q) ∧ ∀ k : Ctl, (y.pair q).sends k → (t.pair q).sends k := by
  obtain ⟨steady, queue, sends⟩ := raises.unit q
  obtain ⟨idle, asleep⟩ : (y.pair q).state ≠ .serving ∧ (y.pair q).state ≠ .quiet := by
    rw [steady_state steady]
    exact h.dormant q
  have rejoins := restartedUnit_rejoins (now := a.now) (b := a.cfg) service
  rw [← h.units] at rejoins
  exact ⟨rejoins.later ((left.steady asleep).trans steady) ((left.queue_left asleep (.inl idle)).trans queue) fun k sent =>
    left.sends asleep (sends k sent), fun k sent => left.sends asleep sent⟩

theorem Restarted.figures (h : Restarted e a r) (raises : Raises .restart r y) (acts : ActsOn p y z) (k : Followed z t)
    (engine : z.engine = y.engine) (changed : Unraised .epochChanged y z) :
    (t.bond.epoch = e ∧ t.bond.asking = false ∧ t.bond.askTimer = none) ∧
      RaisedOnce .epochChanged (valueArg (e.getD 0).toNat) a t ∧ SettingsKept a t ∧ EngineLeft a t := by
  obtain ⟨-, bond, engine', -, -, -, -, notices, -⟩ := pairsOnly_fields raises.only
  have left := BondLeft_trans acts.bond k.follows.bond
  obtain ⟨same, -⟩ := left
  refine ⟨?_, k.raised (raisedOnce_before (raisedOnce_before h.raised (unraised_of_notices notices _)) changed) (by decide),
    SettingsKept_trans (SettingsKept_trans (SettingsKept_trans h.settings raises.settings) acts.settings) k.follows.settings,
    k.engineLeft (engine.trans (engine'.trans h.engine))⟩
  rw [same, bond, h.bond]
  exact ⟨rfl, rfl, rfl⟩

theorem joinServing_unraised {src : Source} (other : src ≠ .pairUp) (p : PairNo) (s : State) :
    Unraised src s (joinServing p s) := by
  have whole : joinServing p s = raiseForPair .pairUp p (enterServing false p s) := rfl
  obtain ⟨notices, -⟩ := enterServing_others false p s
  rw [whole]
  generalize enterServing false p s = x at notices ⊢
  exact unraised_trans (unraised_of_notices notices _) (raiseNotice_unraised .pairUp src _ _ other)

theorem restartedUnit_far (now : Nat) (b : BondSettings) (u : PairUnit) :
    (restartedUnit now b u).farPair = u.farPair ∧ (restartedUnit now b u).farRole = u.farRole := by
  by_cases service : restartsPair u.state = true
  · obtain ⟨-, ⟨-, -, far, role, -⟩, -⟩ := restartedUnit_rejoins (now := now) (b := b) service
    exact ⟨far, role⟩
  · rw [restartedUnit, if_neg service]
    exact ⟨rfl, rfl⟩

/-- The pair of the message was joined: it is JOINING after the restart, and enters SERVING (R34 a, R37 b). -/
theorem Restarted.serves (h : Restarted e a r) (raises : Raises .restart r y) (joined : Joined (a.pair p)) (gathers : Gathers p (joinServing p y) z) (k : Followed z t) : TakenAfter e p a y t := by
  obtain ⟨-, -, -, -, -, -, cfg, notices, now⟩ := pairsOnly_fields raises.only
  have joining : (y.pair p).state = .joining :=
    (steady_state (raises.unit p).1).trans (h.state_joined joined)
  have entering := joinServing_entering joining
  have acts : ActsOn p y (joinServing p y) := by
    refine ⟨fun q other => ?_, entering.event.settings, ?_, entering.event.classifier, fun reset => ?_⟩
    · rcases entering.event.others q other with same | offered
      · rw [same]
      · have state := steady_state (raises.unit q).1
        exact absurd (state.symm.trans offered.1) (h.dormant q).1
    · rw [BondLeft, entering.event.bond]
      exact ⟨rfl, id⟩
    · exact (congrArg Agent.reset entering.event.agent).trans reset
  have now' : y.now = a.now := now.trans h.now
  have cfg' : y.cfg = a.cfg := cfg.trans (settingsKept_cfg h.settings)
  have later : Unraised .epochChanged y (joinServing p y) := joinServing_unraised (by decide) p y
  obtain ⟨bond, changed, settings, engine⟩ := h.figures raises (acts.trans gathers.acts) k
    (gathers.engine.trans entering.engine) (unraised_trans later (gathers.gathered.unraised _ (by decide)))
  refine ⟨bond, changed, settings, engine, fun q other service => ?_, ?_⟩
  · have same : z.pair q = y.pair q := by
      rw [gathers.pair]
      rcases entering.event.others q other with same | offered
      · exact same
      · have state := steady_state (raises.unit q).1
        exact absurd (state.symm.trans offered.1) (h.dormant q).1
    have steps := k.ensues.pairs q
    have zNow : z.now = a.now := gathers.now.trans (entering.now.trans now')
    have zCfg : z.cfg = a.cfg := (settingsKept_cfg (acts.trans gathers.acts).settings).trans cfg'
    rw [same, zNow, zCfg] at steps
    exact h.rejoined raises service steps
  · rw [if_pos joined]
    have onward : Onward ((joinServing p y).pair p) (t.pair p) := by
      rw [← gathers.pair]
      refine (k.ensues.pairs p).onward ?_
      rw [gathers.pair, entering.serves.entered.1]
      decide
    have serves := entering.serves.onward onward
    obtain ⟨far, role⟩ := serves.far
    obtain ⟨far', role'⟩ := steady_far (raises.unit p).1
    obtain ⟨far'', role''⟩ := restartedUnit_far a.now a.cfg (a.pair p)
    rw [← h.units] at far'' role''
    have entered := serves.entered
    rw [now', cfg'] at entered
    have before : Unraised .pairUp a y := unraised_trans (h.unraised _ (by decide)) (unraised_of_notices notices _)
    exact ⟨entered, k.raised (raisedOnce_before (raisedOnce_after before entering.up)
      (gathers.gathered.unraised _ (by decide))) (by decide), far.trans (far'.trans far''), role.trans (role'.trans role'')⟩

/-- The pair of the message was not joined: it stays as it is (R34, R37). -/
theorem Restarted.stays (h : Restarted e a r) (raises : Raises .restart r y) (awake : (a.pair p).state ≠ .quiet)
    (idle : ¬ Joined (a.pair p)) (k : Followed y t) : TakenAfter e p a y t := by
  obtain ⟨-, -, -, -, -, -, cfg, -, now⟩ := pairsOnly_fields raises.only
  obtain ⟨bond, changed, settings, engine⟩ := h.figures raises (.refl p y) k rfl (unraised_refl _ y)
  refine ⟨bond, changed, settings, engine, fun q other service => ?_, ?_⟩
  · have steps := k.ensues.pairs q
    rw [now, h.now, cfg, settingsKept_cfg h.settings] at steps
    exact h.rejoined raises service steps
  · have steady := (raises.unit p).1
    have asleep : (y.pair p).state ≠ .quiet := by
      rw [steady_state steady]
      exact (h.dormant p).2
    rw [if_neg idle, k.steady asleep, steady, h.unit_idle awake idle]

theorem Arrived.state_any (h : Arrived p s a) (q : PairNo) : (a.pair q).state = (s.pair q).state := by
  by_cases own : q = p
  · subst own
    exact (arrival_fields h.unit).1
  · rcases h.event.others q own with same | offered
    · rw [same]
    · obtain ⟨serving, -, -, -, steady⟩ := offered
      have same := congrArg PairUnit.state steady
      exact same

/-- All that O16 says of an adoption by an ALIVE or a JOIN. -/
theorem TakenAfter.adopted (h : TakenAfter e p a y t) (arrived : Arrived p s a) :
    t.bond.epoch = e ∧ t.bond.asking = false ∧ t.bond.askTimer = none ∧
      RaisedOnce .epochChanged (valueArg (e.getD 0).toNat) s t ∧ SettingsKept s t ∧
      (∀ q : PairNo, q ≠ p → (s.pair q).state = .serving ∨ (s.pair q).state = .waking ∨ (s.pair q).state = .quiet →
        (t.pair q).state = .joining ∧ (t.pair q).queue = []) ∧
      (if Joined (s.pair p) then
        (t.pair p).Entered s.now s.cfg .serving ∧ RaisedOnce .pairUp (valueArg p.val) s t
      else (t.pair p).state = (s.pair p).state) := by
  have before : ∀ src : Source, Unraised src s a := unraised_of_notices arrived.notices
  have cfg : a.cfg = s.cfg := settingsKept_cfg arrived.event.settings
  have state := arrived.state_any p
  obtain ⟨epoch, asking, timer⟩ := h.bond
  refine ⟨epoch, asking, timer, raisedOnce_after (before _) h.changed, SettingsKept_trans arrived.event.settings h.settings,
    fun q other service => ?_, ?_⟩
  · obtain ⟨⟨entered, -, -, empty, -⟩, -⟩ := h.others q other (by rw [arrived.state_any, restartsPair_iff]; exact service)
    exact ⟨entered.1, empty⟩
  · have own := h.own
    have same : Joined (a.pair p) ↔ Joined (s.pair p) := by rw [Joined, Joined, state]
    split
    · next joined =>
      rw [if_pos (same.2 joined)] at own
      obtain ⟨entered, up, -⟩ := own
      rw [arrived.now, cfg] at entered
      exact ⟨entered, raisedOnce_after (before _) up⟩
    · next idle =>
      rw [if_neg (mt same.1 idle)] at own
      exact (steady_state own).trans state

theorem adopt_restarted {n : Epoch} (reset : s.agent.reset = none) (other : s.bond.epoch ≠ some n) :
    Restarted (some n) s (adopt n s) := by
  rw [adopt, if_neg other]
  exact setEpoch_restarted (some n) reset

/-- A JOIN after the restart: its pair enters SERVING where it was joined and the JOIN is of the new epoch (R34 a). -/
theorem Restarted.joins {n : Epoch} (h : Restarted (some n) a r) (raises : Raises .restart r y) (reset : a.agent.reset = none)
    (awake : (a.pair p).state ≠ .quiet) : TakenAfter (some n) p a y (settle (joinByState p n y)) := by
  obtain ⟨-, bond, -, -, -, agent, -⟩ := pairsOnly_fields raises.only
  have reset' : y.agent.reset = none := by rw [agent, h.agent, reset]
  have state := steady_state (raises.unit p).1
  by_cases joined : Joined (a.pair p)
  · have joining : (y.pair p).state = .joining := state.trans (h.state_joined joined)
    have current : y.bond.epoch = some n := by rw [bond, h.bond]
    have event := joinServing_pairEvent p y
    rw [joinByState_joining joining current]
    exact h.serves raises joined (.refl p _)
      (settle_followed ((congrArg Agent.reset event.agent).trans reset'))
  · have same : (y.pair p).state = (a.pair p).state := by rw [state, h.unit_idle awake joined]
    have idle := joined
    rw [Joined, not_or, not_or, ← same] at idle
    rw [joinByState_idle idle.1 idle.2.1 idle.2.2]
    exact h.stays raises awake joined (settle_followed reset')

/-- An ALIVE after the restart (R37 b). -/
theorem Restarted.alive {n : Epoch} {f : AliveFields} (h : Restarted (some n) a r) (reset : a.agent.reset = none)
    (awake : (a.pair p).state ≠ .quiet) : TakenAfter (some n) p a r (aliveByState p f r) := by
  have reset' : r.agent.reset = none := by rw [h.agent, reset]
  by_cases joined : Joined (a.pair p)
  · have joining : (r.pair p).state = .joining := h.state_joined joined
    have event := joinServing_pairEvent p r
    have gathers := takeHorizons_gathers p p (fun c => (aliveHorizons f c).setWidth 14) (joinServing p r)
    rw [aliveByState_enters f (.inl joining), enteredBy, if_pos joining]
    exact h.serves (.refl .restart r) joined gathers
      (settle_followed (gathers.acts.reset ((congrArg Agent.reset event.agent).trans reset')))
  · have same : (r.pair p).state = (a.pair p).state := by rw [h.unit_idle awake joined]
    have idle := joined
    rw [Joined, not_or, not_or, ← same] at idle
    have whole : aliveByState p f r = settle r := by
      unfold aliveByState
      dsimp only
      split
      · next state => exact absurd state idle.2.1
      · next state => exact absurd state idle.1
      · next state => exact absurd state idle.2.2
      · rfl
    rw [whole]
    exact h.stays (.refl .restart r) awake joined (settle_followed reset')

/-- After a restart the part is fresh and carries nothing, so that no second one follows (R33, R42). -/
theorem Restarted.freshTest (h : Restarted e a r) (fresh : Bool) : Machine.freshTest fresh r = r := by
  have quiet : r.fresh = true := List.all_eq_true.2 fun q _ => by simpa using (h.dormant q).1
  have empty : r.bond.carried = false := by rw [h.bond]
  rw [Machine.freshTest, quiet, empty]
  simp

/-- A HOMESTEAD's tests on a JOIN that restart it (R41, R42). -/
theorem joinTests_restarted {n : Epoch} {fresh : Bool} (reset : a.agent.reset = none)
    (restarts : a.bond.epoch ≠ some n ∨ (fresh = true ∧ (a.bond.carried = true ∨ ∃ q : PairNo, (a.pair q).state = .serving))) :
    Restarted (some n) a (Machine.freshTest fresh (adopt n a)) := by
  by_cases epoch : a.bond.epoch = some n
  · obtain ⟨fresh', busy⟩ := restarts.resolve_left fun other => other epoch
    have adopted : adopt n a = a := by rw [adopt, if_pos epoch]
    have test : (fresh && (!a.fresh || a.bond.carried)) = true := by
      rw [fresh', Bool.true_and]
      rcases busy with carried | ⟨q, serving⟩
      · rw [carried, Bool.or_true]
      · have stale : a.fresh = false := List.all_eq_false.2 ⟨q, mem_allPairs q, by simp [serving]⟩
        rw [stale]
        rfl
    have restarted := localRestart_restarted reset
    rw [epoch] at restarted
    rw [adopted, Machine.freshTest, if_pos test]
    exact restarted
  · have restarted := adopt_restarted reset epoch
    rw [restarted.freshTest]
    exact restarted

end After

/-- Settles O16. -/
theorem adoptionRestarts : Obligations.AdoptionRestarts := by
  intro p h f far fresh s opened homestead receives awake
  refine ⟨fun length other => ?_, fun length same => ?_, fun c message restarts => ?_⟩
  · have ran := exec_restart (p := p) opened.1 receives length
    rw [homestead] at ran
    simp only [if_neg awake] at ran
    have reset : (Heard p 0 s).agent.reset = none := opened.2
    have restarted := adopt_restarted (s := Heard p 0 s) reset other
    have reset' : (adopt h.epoch (Heard p 0 s)).agent.reset = none := by rw [restarted.agent]; exact reset
    exact ⟨_, ran, restarted.locally (.refl .restart _) (settle_followed reset') (settle_unselected restarted.dormant reset') reset⟩
  · have ran := exec_restart (p := p) opened.1 receives length
    have current : (Heard p 0 s).bond.epoch = some h.epoch := same
    have adopted : adopt h.epoch (Heard p 0 s) = Heard p 0 s := by rw [adopt, if_pos current]
    rw [homestead] at ran
    simp only [if_neg awake] at ran
    rw [adopted] at ran
    have acts : ActsOn p s (Heard p 0 s) := (silent_actsOn p s).trans (modPair_actsOn rfl)
    have k := settle_followed (acts.reset opened.2)
    exact ⟨_, ran, acts.beside k.follows opened.2, fun c => k.follows.contexts c, k.engineLeft rfl,
      k.steady (by rw [heard_state]; exact awake)⟩
  · rcases message with ⟨rfl, formed⟩ | rfl
    · have other : s.bond.epoch ≠ some h.epoch := restarts.resolve_right (by simp)
      have arrived := heard_arrived p 6 s
      have reset : (Heard p 6 s).agent.reset = none := opened.2
      have ran := exec_alive (p := p) (h := { h with len := 6 }) opened.1 receives rfl formed awake
      rw [homestead] at ran
      have restarted := adopt_restarted (s := Heard p 6 s) reset other
      exact ⟨_, ran, (restarted.alive reset (by rw [heard_state]; exact awake)).adopted arrived⟩
    · have arrived := (heard_arrived p 2 s).recorded far .cabinet
      have ran := exec_join (p := p) (h := { h with len := 2 }) (role := .cabinet) (far := far) (fresh := fresh)
        opened.1 receives rfl (by rw [homestead]; decide) awake
      have taken : takeJoin p h.epoch .cabinet far fresh (Heard p 2 s) = settle (joinByState p h.epoch
          (Machine.freshTest fresh (adopt h.epoch (recordedJoin p far .cabinet s)))) := by
        have role : (Heard p 2 s).bond.role = .homestead := homestead
        simp [takeJoin, recordedJoin, role]
      rw [taken] at ran
      have reset : (recordedJoin p far .cabinet s).agent.reset = none := opened.2
      have restarted := joinTests_restarted (a := recordedJoin p far .cabinet s) (n := h.epoch) (fresh := fresh) reset
        (restarts.imp id fun x => by
          obtain ⟨-, fresh', busy⟩ := x
          exact ⟨fresh', busy.imp id fun ⟨q, serving⟩ => ⟨q, (arrived.state_any q).trans serving⟩⟩)
      exact ⟨_, ran, (restarted.joins (.refl .restart _) reset (by rw [recordedJoin_state]; exact awake)).adopted arrived⟩

end Sys2Proof.Proofs
end

