-- ==== Sys2Proof/Proofs/BondRestarted.lean ====
section
/-! PROOF. The bond restart of a CABINET and the asking of a HOMESTEAD (R39, R43, R44). -/

namespace Sys2Proof.Proofs
open Sys2Proof Sys2Proof.Machine Sys2Proof.Laws

section Bond

variable {e : Epoch} {p : PairNo} {s a r y t : State}

/-- The bond restart is a local restart into the next epoch, with RESTART raised on every pair that it moved (R39). -/
theorem bondRestart_restarted (reset : s.agent.reset = none) (epoch : s.bond.epoch = some e) :
    ∃ r : State, Restarted (some (e + 1)) s r ∧ Raises .restart r (bondRestart s) ∧
      ∀ p : PairNo, restartsPair (s.pair p).state = true → ((bondRestart s).pair p).sends .restart := by
  have restarted := setEpoch_restarted (s := s) (some (e + 1)) reset
  obtain ⟨raises, stand⟩ := (Raises.refl .restart (localRestart (setEpoch (some (e + 1)) s))).each
    (allPairs.filter fun p => restartsPair (s.pair p).state)
  have whole : bondRestart s = eachPair (allPairs.filter fun p => restartsPair (s.pair p).state) (raiseCtl .restart)
      (localRestart (setEpoch (some (e + 1)) s)) := by
    rw [bondRestart, epoch]
    rfl
  rw [← whole] at raises stand
  refine ⟨_, restarted, raises, fun p service => ?_⟩
  rw [stand p (.inl (List.mem_filter.2 ⟨mem_allPairs p, service⟩))]
  refine raise_sends ?_
  rw [restarted.units, restartedUnit_state, if_pos service]
  rfl

theorem Raises.reset {k : Ctl} (h : Raises k r y) (reset : r.agent.reset = none) : y.agent.reset = none := by
  obtain ⟨-, -, -, -, -, agent, -⟩ := pairsOnly_fields h.only
  rw [agent, reset]

theorem Raises.dormant {k : Ctl} (h : Raises k r y) (dormant : Dormant r) : Dormant y := fun p => by
  rw [steady_state (h.unit p).1]
  exact dormant p

/-- What a bond restart leaves, once the other blocks have followed. -/
theorem bondRestart_settled (restarted : Restarted (some e) s r) (raises : Raises .restart r y)
    (reset : s.agent.reset = none) : LocallyRestarted (some e) s (settle y) ∧
      ∀ (p : PairNo) (k : Ctl), (y.pair p).sends k → ((settle y).pair p).sends k := by
  have reset' : y.agent.reset = none := raises.reset (by rw [restarted.agent, reset])
  have dormant := raises.dormant restarted.dormant
  have k := settle_followed reset'
  exact ⟨restarted.locally raises k (settle_unselected dormant reset') reset, fun p c sent => k.sends (dormant p).2 sent⟩

/-- The kinds that SERVING permits outlive the entry to it (R29 c). -/
theorem joinServing_keeps {k : Ctl} (permitted : k.permitted .serving = true) (plain : k ≠ .quietOffer)
    (plain' : k ≠ .quietAgree) (sent : (s.pair p).sends k) : ((joinServing p s).pair p).sends k := by
  have unit : (joinServing p s).pair p = (enterServing false p s).pair p := raiseForPair_pair ..
  rw [unit]
  refine (enterServing_unit false p s).sends k plain plain' ((servingUnit_onward ..).sends k plain plain' ?_)
  obtain ⟨-, -, -, -, -, -, -, -, handover, -⟩ := enter_kept s.now s.cfg .serving (s.pair p)
  have ctl : (PairUnit.enter s.now s.cfg .serving (s.pair p)).ctl = addCtl .alive (keepPermitted .serving (s.pair p).ctl) := by
    simp only [PairUnit.enter, if_true, PairUnit.startWindow]
    split <;> rfl
  refine sent.imp (fun waits => ?_) fun going => ?_
  · show k ∈ (PairUnit.enter s.now s.cfg .serving (s.pair p)).ctl
    rw [ctl]
    exact mem_addCtl.2 (.inr (List.mem_filter.2 ⟨waits, permitted⟩))
  · show ((PairUnit.enter s.now s.cfg .serving (s.pair p)).handover.any _) = true
    rw [handover]
    exact going

/-- A RESTART that waits outlives a JOIN that takes its pair into SERVING (R29, R34 a). -/
theorem Restarted.joins_keeps (h : Restarted (some e) a r) (raises : Raises .restart r y) (reset : a.agent.reset = none)
    (joined : Joined (a.pair p)) (sent : (y.pair p).sends .restart) : ((settle (joinByState p e y)).pair p).sends .restart := by
  obtain ⟨-, bond, -⟩ := pairsOnly_fields raises.only
  have joining : (y.pair p).state = .joining := (steady_state (raises.unit p).1).trans (h.state_joined joined)
  have event := joinServing_pairEvent p y
  rw [joinByState_joining joining (by rw [bond, h.bond])]
  have k := settle_followed ((congrArg Agent.reset event.agent).trans (raises.reset (by rw [h.agent, reset])))
  refine k.sends ?_ (joinServing_keeps rfl (by decide) (by decide) sent)
  rw [joinServing_state]
  decide

end Bond

/-! ## The request -/

section Request

variable {q : ReqHead} {b : ReqBody} {e : Epoch} {s r y t : State}

theorem reportReset_unselected (s : State) : Unselected s (reportReset s) := by
  unfold reportReset
  split <;> exact unselected_of_eq (fun _ => rfl) rfl rfl

theorem offerEgress_unselected (x : EgressEntry) (s : State) : Unselected s (offerEgress x s) := by
  unfold offerEgress
  split
  · exact unselected_of_eq (fun _ => rfl) rfl rfl
  · have counted : Unselected s (countTrunk (fun n => { n with egressFull := n.egressFull + 1 }) s) :=
      unselected_of_eq (fun _ => rfl) rfl rfl
    split
    · exact counted.trans (reportReset_unselected _)
    · exact counted

theorem offerReply_unselected (r : Reply) (m : Bool) (s : State) : Unselected s (offerReply r m s) := by
  have put : Unselected s (emit (.reply r) s) := unselected_of_eq (fun _ => rfl) rfl rfl
  unfold offerReply
  dsimp only
  split
  · exact put.trans (offerEgress_unselected _ _)
  · exact put.trans (offerFrame_unselected _ _)

/-- The answer to a request that leaves no pair in service starts no selection (R94, R186). -/
theorem takeRequest_unselected (reset : s.agent.reset = none) (plain : b ≠ .resetPart)
    (dormant : Dormant (serve q b s).state) (k : (serve q b s).state.agent.reset = none) :
    Unselected (serve q b s).state (takeRequest q b s) := by
  have whole : takeRequest q b s = afterReply q.path b (serve q b s).status
      (offerReply (replyTo q b (serve q b s)) false (serve q b s).state) := by
    simp [takeRequest, reset, answer, plain]
  have offered : Unselected (serve q b s).state (offerReply (replyTo q b (serve q b s)) false (serve q b s).state) :=
    offerReply_unselected ..
  rw [whole, afterReply]
  split
  · have reset' := (offerReply_follows (replyTo q b (serve q b s)) false (serve q b s).state).reset k
    exact offered.trans (settle_unselected (offered.dormant dormant) reset')
  · exact offered.trans (beginSend_unselected _)

/-- BOND-RESTART at a CABINET (R39 a). -/
theorem bondRestart_cabinet (opened : s.open) (cabinet : s.bond.role = .cabinet) (epoch : s.bond.epoch = some e)
    (admits : Admits q .bondRestart s) : ∃ t, exec (.bondRestart q) s = .next t ∧ LocallyRestarted (some (e + 1)) s t ∧
      Answers q 15 .ok .empty s.cfg.stationAddress t ∧
      ∀ r : PairNo, restartsPair (s.pair r).state = true → (t.pair r).sends .restart := by
  have reset : (counted s).agent.reset = none := opened.2
  obtain ⟨r, restarted, raises, sends⟩ := bondRestart_restarted (s := counted s) reset epoch
  have served : serveBody .bondRestart (counted s) = ⟨.ok, .empty, bondRestart (counted s)⟩ := by
    have role : (counted s).bond.role = .cabinet := cabinet
    rw [serveBody, serveBondRestart, role]
  have reset' : (bondRestart (counted s)).agent.reset = none := raises.reset (by rw [restarted.agent]; exact reset)
  have dormant := raises.dormant restarted.dormant
  obtain ⟨t, ran, answered, ensues⟩ := exec_served (c := .bondRestart q) opened rfl admits (by simp) served reset'
  have serving : serve q .bondRestart s.silent = ⟨.ok, .empty, bondRestart (counted s)⟩ := (serve_admitted admits).trans served
  have taken : t = takeRequest q .bondRestart s.silent := by
    obtain ⟨-, -, noneWaits⟩ := admits
    have step := (exec_request (c := .bondRestart q) rfl s).trans (takeCommand_taking _ opened.1)
    rw [← State.silent, requestArrives_taken q .bondRestart (s := s.silent) noneWaits, ran] at step
    exact Host.Outcome.next.inj step
  have unselected : Unselected (bondRestart (counted s)) t := by
    have left := takeRequest_unselected (q := q) (b := .bondRestart) (s := s.silent) opened.2 (by simp)
      (by rw [serving]; exact dormant) (by rw [serving]; exact reset')
    rw [serving, ← taken] at left
    exact left
  have k : Followed (emit (.reply (replyTo q .bondRestart ⟨.ok, .empty, bondRestart (counted s)⟩)) (bondRestart (counted s))) t :=
    ⟨follows_of_emit answered.follows, ensues⟩
  have raises' : Raises .restart r
      (emit (.reply (replyTo q .bondRestart ⟨.ok, .empty, bondRestart (counted s)⟩)) (bondRestart (counted s))) :=
    ⟨raises.only.trans rfl, raises.settings, raises.units⟩
  have locally := restarted.locally raises' k
    ⟨unselected.dormant, unselected.bond, unselected.numbers, unselected.queues⟩ reset
  have cfg : (bondRestart (counted s)).cfg = s.cfg :=
    (settingsKept_cfg raises.settings).trans (settingsKept_cfg restarted.settings)
  refine ⟨t, ran, locally, ?_, fun p service => k.sends (dormant p).2 (sends p service)⟩
  rw [Answers, ← cfg]
  exact answered.reply

/-- BOND-RESTART at a HOMESTEAD with a pair SERVING (R43). -/
theorem bondRestart_asks (opened : s.open) (homestead : s.bond.role = .homestead) (admits : Admits q .bondRestart s)
    (up : ∃ r : PairNo, (s.pair r).state = .serving) :
    ∃ t, exec (.bondRestart q) s = .next t ∧ Answers q 15 .ok .empty s.cfg.stationAddress t ∧
      t.bond = { s.bond with carried := t.bond.carried, asking := true, askTimer := some ⟨s.now, 1000000⟩ } ∧
      AllLeft s t ∧ SettingsKept s t ∧ ContextsLeft s t ∧
      ∀ r : PairNo, (s.pair r).state = .serving → (t.pair r).sends .restartAsk := by
  obtain ⟨raises, stand⟩ := (Raises.refl .restartAsk (counted s)).each
    (allPairs.filter fun p => (s.pair p).state = .serving)
  generalize asked : eachPair (allPairs.filter fun p => (s.pair p).state = .serving) (raiseCtl .restartAsk) (counted s) = y
    at raises stand
  obtain ⟨classes, bond, -, -, -, agent, cfg, -, now⟩ := pairsOnly_fields raises.only
  obtain ⟨r, serving⟩ := up
  have some' : (allPairs.filter fun p => decide ((s.pair p).state = .serving)).isEmpty = false := by
    rw [List.isEmpty_eq_false_iff_exists_mem]
    exact ⟨r, List.mem_filter.2 ⟨mem_allPairs r, by simpa using serving⟩⟩
  have served : serveBody .bondRestart (counted s) = ⟨.ok, .empty,
      { y with bond := { y.bond with asking := true, askTimer := some ⟨s.now, ms 1000⟩ } }⟩ := by
    have role : (counted s).bond.role = .homestead := homestead
    have units : ∀ p : PairNo, (counted s).pair p = s.pair p := fun _ => rfl
    rw [serveBody, serveBondRestart, role]
    simp only [units, some', asked, Bool.false_eq_true, if_false]
    rw [now]
    rfl
  have reset : y.agent.reset = none := by
    rw [agent]
    exact opened.2
  obtain ⟨t, ran, answered, ensues⟩ := exec_served (c := .bondRestart q) opened rfl admits (by simp) served reset
  have steady : ∀ p : PairNo, (y.pair p).steady = (s.pair p).steady := fun p => (raises.unit p).1
  have settings : SettingsKept s { y with bond := { y.bond with asking := true, askTimer := some ⟨s.now, ms 1000⟩ } } := by
    obtain ⟨a1, a2, a3, a4, a5, role, a7⟩ := raises.settings
    exact ⟨a1, a2, a3, a4, a5, role, a7⟩
  refine ⟨t, ran, ?_, ?_, fun p => ?_, SettingsKept_trans settings answered.follows.settings, fun c => ?_, fun p up' => ?_⟩
  · have same : y.cfg = s.cfg := cfg
    rw [Answers, ← same]
    exact answered.reply
  · obtain ⟨same, -⟩ := answered.follows.bond
    rw [same, bond]
    rfl
  · exact LeftBy_trans (.inl (steady p)) (answered.follows.pairs p)
  · rw [answered.follows.contexts c]
    show (y.cls c).context = _
    rw [State.cls, classes]
    rfl
  · have state := steady_state (steady p)
    refine (ensues.pairs p).sends ?_ ?_
    · show (y.pair p).state ≠ .quiet
      rw [state, up']
      decide
    · show (y.pair p).sends .restartAsk
      rw [stand p (.inl (List.mem_filter.2 ⟨mem_allPairs p, by simpa using up'⟩))]
      refine raise_sends ?_
      have same : ((counted s).pair p).state = .serving := up'
      rw [same]
      rfl

/-- BOND-RESTART at a HOMESTEAD without a pair SERVING (R43). -/
theorem bondRestart_busy (opened : s.open) (homestead : s.bond.role = .homestead) (admits : Admits q .bondRestart s)
    (idle : ∀ r : PairNo, (s.pair r).state ≠ .serving) :
    ∃ t, exec (.bondRestart q) s = .next t ∧ Answers q 15 .busy .empty s.cfg.stationAddress t ∧ OnlyReply q s t := by
  have served : serveBody .bondRestart (counted s) = refuse .busy (counted s) := by
    have role : (counted s).bond.role = .homestead := homestead
    have none' : (allPairs.filter fun p => decide (((counted s).pair p).state = .serving)) = [] :=
      List.filter_eq_nil_iff.2 fun p _ => by
        have same : ((counted s).pair p).state = (s.pair p).state := rfl
        rw [same]
        simpa using idle p
    rw [serveBody, serveBondRestart, role]
    simp [none']
  obtain ⟨t, ran, answered⟩ := exec_answered (c := .bondRestart q) opened rfl admits (by simp) served opened.2
  exact ⟨t, ran, answered.reply, answered.onlyReply rfl opened.2 rfl⟩

end Request

/-- Settles O17. -/
theorem bondRestarted : Obligations.BondRestarted := by
  intro p h far q s e opened
  refine ⟨fun cabinet epoch receives awake => ?_, fun cabinet epoch admits => ?_, fun homestead admits =>
    ⟨bondRestart_asks opened homestead admits, bondRestart_busy opened homestead admits⟩⟩
  · have joined : ∀ carried : s.bond.carried = true, h.len = 2 →
        ∃ r : State, Restarted (some (e + 1)) (recordedJoin p far .homestead s) r ∧
          Raises .restart r (bondRestart (recordedJoin p far .homestead s)) ∧
          (∀ r : PairNo, restartsPair (s.pair r).state = true →
            ((bondRestart (recordedJoin p far .homestead s)).pair r).sends .restart) ∧
          exec (.join p h (joinCarries .homestead far true)) s =
            .next (settle (joinByState p h.epoch (bondRestart (recordedJoin p far .homestead s)))) := by
      intro carried length
      have arrived : Arrived p s (recordedJoin p far .homestead s) := (heard_arrived p 2 s).recorded far .homestead
      have reset : (recordedJoin p far .homestead s).agent.reset = none := opened.2
      obtain ⟨r, restarted, raises, sends⟩ := bondRestart_restarted (s := recordedJoin p far .homestead s) reset epoch
      have ran := exec_join (p := p) (role := .homestead) (far := far) (fresh := true) opened.1 receives length
        (by rw [cabinet]; decide) awake
      have role : (Heard p 2 s).bond.role = .cabinet := cabinet
      have fresh : (Heard p 2 s).bond.carried = true := carried
      refine ⟨r, restarted, raises, fun r service => sends r ?_, ran.trans ?_⟩
      · rw [arrived.state_any]
        exact service
      · simp [takeJoin, recordedJoin, role, fresh]
    have awake' : ((recordedJoin p far .homestead s).pair p).state ≠ .quiet := by
      rw [recordedJoin_state]
      exact awake
    refine ⟨fun length same => ?_, fun length other carried => ?_, fun length same carried => ?_⟩
    · have ran := exec_restartAsk (p := p) opened.1 receives length
      rw [cabinet] at ran
      simp only [if_neg awake, if_pos (show s.bond.epoch = some h.epoch by rw [epoch, same])] at ran
      obtain ⟨r, restarted, raises, sends⟩ := bondRestart_restarted (s := Heard p 0 s) opened.2 epoch
      obtain ⟨locally, stands⟩ := bondRestart_settled restarted raises opened.2
      refine ⟨_, ran, locally, fun r service => stands r .restart (sends r ?_)⟩
      rw [(heard_arrived p 0 s).state_any, restartsPair_iff]
      exact service
    · obtain ⟨r, restarted, raises, sends, ran⟩ := joined carried length
      have reset : (recordedJoin p far .homestead s).agent.reset = none := opened.2
      have state := recordedJoin_state p far .homestead s
      have next : (bondRestart (recordedJoin p far .homestead s)).bond.epoch ≠ some h.epoch := by
        obtain ⟨-, bond, -⟩ := pairsOnly_fields raises.only
        rw [bond, restarted.bond]
        exact fun eq => other (Option.some.inj eq).symm
      by_cases was : Joined (s.pair p)
      · have was' : Joined ((recordedJoin p far .homestead s).pair p) := by rwa [Joined, state]
        have joining := (steady_state (raises.unit p).1).trans (restarted.state_joined was')
        rw [joinByState_other (.inl joining) next] at ran
        obtain ⟨locally, stands⟩ := bondRestart_settled restarted (raises.raised p) reset
        have own : ((raiseCtl .restart p (bondRestart (recordedJoin p far .homestead s))).pair p).sends .restart := by
          rw [raiseCtl, modPair_pair_same]
          exact raise_sends (by rw [joining]; rfl)
        refine ⟨_, ran, locally, fun r service => ?_, fun _ => stands p .restart own⟩
        by_cases here : r = p
        · rw [here]
          exact stands p .restart own
        · refine stands r .restart ?_
          rw [raiseCtl, modPair_pair_other _ _ _ here]
          exact sends r (restartsPair_iff.2 service)
      · have idle := was
        rw [Joined, not_or, not_or] at idle
        have unit := restarted.unit_idle awake' (by rwa [Joined, state])
        have same : ((bondRestart (recordedJoin p far .homestead s)).pair p).state = (s.pair p).state := by
          rw [steady_state (raises.unit p).1, unit, state]
        rw [joinByState_idle (by rw [same]; exact idle.1) (by rw [same]; exact idle.2.1) (by rw [same]; exact idle.2.2)] at ran
        obtain ⟨locally, stands⟩ := bondRestart_settled restarted raises reset
        exact ⟨_, ran, locally, fun r service => stands r .restart (sends r (restartsPair_iff.2 service)),
          fun now => absurd now was⟩
    · obtain ⟨r, restarted, raises, sends, ran⟩ := joined carried length
      have reset : (recordedJoin p far .homestead s).agent.reset = none := opened.2
      have arrived : Arrived p s (recordedJoin p far .homestead s) := (heard_arrived p 2 s).recorded far .homestead
      have taken := restarted.joins (p := p) raises reset awake'
      rw [same] at ran
      obtain ⟨bond, asking, timer, changed, settings, -, own⟩ := taken.adopted arrived
      have unit := recordedJoin_unit p far .homestead s
      have far' : ((settle (joinByState p (e + 1) (bondRestart (recordedJoin p far .homestead s)))).pair p).farPair =
          ((recordedJoin p far .homestead s).pair p).farPair ∧
          ((settle (joinByState p (e + 1) (bondRestart (recordedJoin p far .homestead s)))).pair p).farRole =
          ((recordedJoin p far .homestead s).pair p).farRole := by
        have own' := taken.own
        split at own'
        · obtain ⟨-, -, far⟩ := own'
          exact far
        · exact steady_far own'
      refine ⟨_, ran, bond, asking, timer, settings, taken.engine, changed, ?_, ?_, fun r service => ?_, own⟩
      · rw [far'.1, unit]
      · rw [far'.2, unit]
      · have service' : restartsPair ((recordedJoin p far .homestead s).pair r).state = true := by
          rw [arrived.state_any, restartsPair_iff]
          exact service
        by_cases here : r = p
        · subst here
          have was : Joined ((recordedJoin r far .homestead s).pair r) :=
            .inr ((restartsPair_iff.1 service').imp_right fun x => x.resolve_right awake')
          exact ⟨restarted.joins_keeps raises reset was (sends r (restartsPair_iff.2 service)), fun other => absurd rfl other⟩
        · obtain ⟨⟨entered, -, -, empty, join, -⟩, keeps⟩ := taken.others r here service'
          refine ⟨keeps _ (sends r (restartsPair_iff.2 service)), fun _ => ⟨?_, empty, join⟩⟩
          rw [arrived.now, settingsKept_cfg arrived.event.settings] at entered
          exact entered
  · obtain ⟨t, ran, locally, answers, sends⟩ := bondRestart_cabinet opened cabinet epoch admits
    exact ⟨t, ran, locally, answers, fun r service => sends r (restartsPair_iff.2 service)⟩

end Sys2Proof.Proofs
end


-- ==== Sys2Proof/Proofs/PairChoice.lean ====
section
/-! PROOF. The distributor's steps one by one (R77-R79, R90-R103): the arrival estimate, the placement, the path
decision, the selection and the demand wake. Settles O53. -/

namespace Sys2Proof.Proofs
open Sys2Proof Sys2Proof.Machine Sys2Proof.Laws

section Choice

variable {m : PairMap} {l : Nat} {s : State} {p : PairNo}

theorem eligible_serving (fits : eligible s m p = true) : (s.pair p).state = .serving := by
  simp only [eligible, Bool.and_eq_true, decide_eq_true_eq] at fits
  exact fits.1.1.1

/-- The sum that the estimate adds to D is the least number of microseconds in which R brings in the backlog and the
fragment (R78). -/
theorem estimate_ceiling (l : Nat) (u : PairUnit) (moving : 0 < u.rate) : ∃ a : Nat, u.estimate l = u.delay + a ∧
    (u.backlog + l) * 1000 ≤ a * u.rate ∧ ∀ b : Nat, (u.backlog + l) * 1000 ≤ b * u.rate → a ≤ b := by
  refine ⟨((u.backlog + l) * 1000 + (u.rate - 1)) / u.rate, rfl, ?_, fun b fits => ?_⟩
  · have below := Nat.lt_div_mul_add (a := (u.backlog + l) * 1000 + (u.rate - 1)) moving
    omega
  · refine Nat.le_of_lt_succ ((Nat.div_lt_iff_lt_mul moving).2 ?_)
    rw [Nat.succ_mul]
    omega

theorem any_eligible (s : State) (m : PairMap) : allPairs.any (eligible s m) = true ↔ ∃ p : PairNo, eligible s m p = true := by
  simp [mem_allPairs]

theorem any_pair (f : PairNo → Bool) : allPairs.any f = true ↔ ∃ p : PairNo, f p = true := by simp [mem_allPairs]

end Choice

section Placement

variable {s : State} {c : ClassNo} {g : InProgress} {p : PairNo} {n : Nat}

theorem startFrame_current {k : ClassUnit} (current : k.current = some g) : k.startFrame = k := by
  simp [ClassUnit.startFrame, current]

theorem startFrame_head {k : ClassUnit} {f : FrameRec} {fs : List FrameRec} (current : k.current = none)
    (queue : k.queue = f :: fs) : k.startFrame =
      { k with queue := fs, current := some { frame := f, size := k.cfg.fragmentSize, offset := 0 } } := by
  simp [ClassUnit.startFrame, current, queue]

/-- The next fragment of a frame in progress, with its `n` octets (R91, R93). -/
def nextFragment (c : ClassNo) (q : Seq) (g : InProgress) (n : Nat) : Desc :=
  { cls := c, seq := q, first := decide (g.offset = 0)
    last := decide (g.frame.octets.length ≤ g.offset + n)
    payload := (g.frame.octets.drop g.offset).take n, allowed := g.frame.map
    resetReply := g.frame.resetReply }

theorem descriptor_eq (size : n = min g.size (g.frame.octets.length - g.offset)) (c : ClassNo) (q : Seq) :
    g.descriptor c q = nextFragment c q g n := by
  have cut : (g.frame.octets.drop g.offset).take g.size = (g.frame.octets.drop g.offset).take n := by
    rw [size, ← List.length_drop, ← List.take_eq_take_min]
  have length : ((g.frame.octets.drop g.offset).take n).length = n := by
    rw [List.length_take, List.length_drop, size]
    omega
  simp only [InProgress.descriptor, nextFragment, cut, length]

theorem nextFragment_length (size : n = min g.size (g.frame.octets.length - g.offset)) (c : ClassNo) (q : Seq) :
    (nextFragment c q g n).payload.length = n := by
  simp only [nextFragment, List.length_take, List.length_drop]
  omega

/-- The class that has placed `n` octets of its frame in progress (R90, R93 d and e). -/
def fragmentPlaced (g : InProgress) (n : Nat) (k : ClassUnit) : ClassUnit :=
  { k with
    current := if g.frame.octets.length ≤ g.offset + n then none else some { g with offset := g.offset + n }
    nextSeq := k.nextSeq + 1
    n := { k.n with fragPlaced := k.n.fragPlaced + 1 } }

theorem placeFragment_eq (current : (s.cls c).current = some g)
    (size : n = min g.size (g.frame.octets.length - g.offset)) (chosen : choosePair s g.frame.map (n + 7) = some p) :
    placeFragment c s = append p (nextFragment c (s.cls c).nextSeq g n)
      (setCarried (modClass c (fragmentPlaced g n) (modClass c ClassUnit.startFrame s))) := by
  have started : (modClass c ClassUnit.startFrame s).cls c = s.cls c := by
    rw [modClass_cls_same, startFrame_current current]
  have length := nextFragment_length size c (s.cls c).nextSeq
  have chosen' : choosePair (modClass c ClassUnit.startFrame s) (nextFragment c (s.cls c).nextSeq g n).allowed
      (nextFragment c (s.cls c).nextSeq g n).len = some p := by
    rw [Desc.len, length]
    exact chosen
  unfold placeFragment
  simp only [started, current, descriptor_eq size, chosen', length]
  rfl

/-- What the placement of a fragment leaves (R79, R93). -/
theorem placeFragment_leaves (current : (s.cls c).current = some g)
    (size : n = min g.size (g.frame.octets.length - g.offset)) (chosen : choosePair s g.frame.map (n + 7) = some p) :
    ((placeFragment c s).pair p).queue = (s.pair p).queue ++ [nextFragment c (s.cls c).nextSeq g n] ∧
      ((placeFragment c s).pair p).steady = (s.pair p).steady ∧
      (∀ r : PairNo, r ≠ p → (placeFragment c s).pair r = s.pair r) ∧
      (placeFragment c s).bond = { s.bond with carried := true } ∧
      (∀ d : ClassNo, d ≠ c → (placeFragment c s).cls d = s.cls d) ∧
      (placeFragment c s).cls c = fragmentPlaced g n (s.cls c) := by
  rw [placeFragment_eq current size chosen, append]
  refine ⟨?_, ?_, fun r other => modPair_pair_other _ p _ other, rfl, fun d other => ?_, ?_⟩
  · rw [modPair_pair_same]; rfl
  · rw [modPair_pair_same]; rfl
  · rw [modPair_cls, setCarried_cls, modClass_cls_other _ _ _ other, modClass_cls_other _ _ _ other]
  · rw [modPair_cls, setCarried_cls, modClass_cls_same, modClass_cls_same, startFrame_current current]

/-- The head of a class without a frame in progress becomes that frame first (R90). -/
theorem placeFragment_head {f : FrameRec} {fs : List FrameRec} (current : (s.cls c).current = none)
    (queue : (s.cls c).queue = f :: fs) : placeFragment c s = placeFragment c (modClass c (fun k => { k with
      queue := fs, current := some { frame := f, size := k.cfg.fragmentSize, offset := 0 } }) s) := by
  have same : modClass c ClassUnit.startFrame (modClass c (fun k => { k with
      queue := fs, current := some { frame := f, size := k.cfg.fragmentSize, offset := 0 } }) s) =
      modClass c ClassUnit.startFrame s := by
    rw [modClass_modClass]
    simp only [modClass]
    rw [startFrame_head current queue, startFrame_current rfl]
  unfold placeFragment
  rw [same]

end Placement

section Decision

variable {s : State} {c : ClassNo} {m : PairMap}

theorem bit_holds (p q : PairNo) : PairMap.holds (1#8 <<< q.val) p = decide (p = q) := by
  revert p q
  decide

theorem or_holds (m m' : PairMap) (p : PairNo) : PairMap.holds (m ||| m') p = (m.holds p || m'.holds p) :=
  BitVec.getLsbD_or

theorem holds_ofPred (f : PairNo → Bool) (p : PairNo) : (PairMap.ofPred f).holds p = f p := by
  have each (l : List PairNo) (m : PairMap) : PairMap.holds (l.foldl (fun m p => if f p then m ||| (1#8 <<< p.val) else m) m) p =
      (PairMap.holds m p || (decide (p ∈ l) && f p)) := by
    induction l generalizing m with
    | nil => simp
    | cons q l ih =>
      rw [List.foldl_cons, ih]
      by_cases same : p = q
      · subst same
        cases e : f p <;> simp [or_holds, bit_holds]
      · cases e : f q <;> simp [or_holds, bit_holds, same]
  have all := each allPairs 0
  simp only [mem_allPairs, decide_true, Bool.true_and] at all
  rw [PairMap.ofPred, all]
  simp [PairMap.holds]

/-- A wake request moves the QUIET pair that it goes to, and nothing else (R99, R178 a, R179). -/
theorem wakeRequest_asked {p : PairNo} (quiet : (s.pair p).state = .quiet) : AskedToWake p s (wakeRequest p s) := by
  have woken : wakeRequest p s = emit (.control p .wake) (modPair p (wokenUnit s.now s.cfg) s) := by
    rw [wakeRequest, if_pos quiet]
    simp only [enterWaking, Machine.tell, enterState, modPair_modPair]
    rfl
  have unit : (wakeRequest p s).pair p = wokenUnit s.now s.cfg (s.pair p) := by
    rw [woken, emit_pair, modPair_pair_same]
  obtain ⟨entered, told, cause⟩ := wokenUnit_entered s.now s.cfg (s.pair p)
  refine ⟨?_, ?_⟩
  · rw [woken]
    exact onlyPair_trans (modPair_onlyPair p _ s) (emit_onlyPair p _ _)
  · rw [unit]
    exact ⟨entered, cause, rfl, told⟩

/-- The pair that a wake request goes to, where a pair of the test is QUIET (R99, R103). -/
theorem fastest_choice (s : State) (test : PairNo → Bool) (some : ∃ p : PairNo, test p = true ∧ (s.pair p).state = .quiet) :
    ∃ p : PairNo, (fastestPair s fun p => test p && (s.pair p).state = .quiet) = Option.some p ∧ WakeChoice s test p := by
  rcases fastestPair_cases s fun p => test p && (s.pair p).state = .quiet with ⟨-, no⟩ | ⟨p, e, passes, best⟩
  · obtain ⟨p, passes, quiet⟩ := some
    have := no p
    simp [passes, quiet] at this
  · simp only [Bool.and_eq_true, decide_eq_true_eq] at passes best
    exact ⟨p, e, passes.1, passes.2, fun q passes quiet other => best q ⟨passes, quiet⟩ other⟩

theorem demandWake_asks (full : s.cfg.wakeThreshold ≤ s.waiting) (still : ∀ p : PairNo, (s.pair p).state ≠ .waking)
    (some : ∃ p : PairNo, (s.pair p).state = .quiet) :
    ∃ p : PairNo, WakeChoice s (fun _ => true) p ∧ AskedToWake p s (demandWake s) := by
  obtain ⟨p, chosen, choice⟩ := fastest_choice s (fun _ => true) (by simpa using some)
  have all : (allPairs.all fun p => (s.pair p).state != .waking) = true := by simpa using fun p _ => still p
  simp only [Bool.true_and] at chosen
  have woken : demandWake s = wakeRequest p s := by simp [demandWake, full, all, chosen]
  exact ⟨p, choice, woken ▸ wakeRequest_asked choice.2.1⟩

theorem demandWake_rests (rests : ¬ (s.cfg.wakeThreshold ≤ s.waiting ∧ (∀ p : PairNo, (s.pair p).state ≠ .waking) ∧
    ∃ p : PairNo, (s.pair p).state = .quiet)) : demandWake s = s := by
  unfold demandWake
  split
  · next tested =>
    simp only [Bool.and_eq_true, decide_eq_true_eq, List.all_eq_true, bne_iff_ne, ne_eq] at tested
    rcases fastestPair_cases s fun p => (s.pair p).state = .quiet with ⟨e, -⟩ | ⟨p, e, quiet, -⟩
    · rw [e]
    · exact absurd ⟨tested.1, fun p => tested.2 p (mem_allPairs p), p, by simpa using quiet⟩ rests
  · rfl

/-- The class after the spill of the frame that its path decision looks at (R100). -/
theorem setDecisionMap_keeps (m' : PairMap) {k : ClassUnit} (looks : k.decisionMap = some m) :
    (k.setDecisionMap m').decisionMap = some m' ∧
      (k.current = none → (k.setDecisionMap m').current = none ∧
        (k.setDecisionMap m').queue.map (·.octets) = k.queue.map (·.octets)) ∧
      ∀ g : InProgress, k.current = some g → (k.setDecisionMap m').queue = k.queue ∧
        (k.setDecisionMap m').current.map (fun x => (x.frame.octets, x.size, x.offset)) =
          some (g.frame.octets, g.size, g.offset) := by
  cases current : k.current with
  | some g =>
    have set : k.setDecisionMap m' = { k with current := some { g with frame := { g.frame with map := m' } } } := by
      simp [ClassUnit.setDecisionMap, current]
    rw [set]
    refine ⟨rfl, fun none => absurd none (by simp), fun g' same => ⟨rfl, ?_⟩⟩
    rw [← Option.some.inj same]
    rfl
  | none =>
    cases queue : k.queue with
    | nil => simp [ClassUnit.decisionMap, current, queue] at looks
    | cons f fs =>
      have set : k.setDecisionMap m' = { k with queue := { f with map := m' } :: fs } := by
        simp [ClassUnit.setDecisionMap, current, queue]
      rw [set]
      refine ⟨?_, fun _ => ⟨current, rfl⟩, fun g same => absurd same (by simp)⟩
      simp [ClassUnit.decisionMap, current]

theorem reportReset_cls (s : State) (c : ClassNo) : (reportReset s).cls c = s.cls c := by
  unfold reportReset
  split <;> rfl

theorem dropNoPath_cls_other (c : ClassNo) {d : ClassNo} (other : d ≠ c) (s : State) : (dropNoPath c s).cls d = s.cls d := by
  unfold dropNoPath
  extract_lets k flagged t
  have dropped : t.cls d = s.cls d := modClass_cls_other _ c _ other
  split
  · exact (reportReset_cls t d).trans dropped
  · exact dropped

theorem dropNoPath_cls_same (c : ClassNo) (s : State) : (dropNoPath c s).cls c = { s.cls c with
    current := none
    queue := if (s.cls c).current.isSome then (s.cls c).queue else (s.cls c).queue.tail
    n := { (s.cls c).n with noPath := (s.cls c).n.noPath + 1 } } := by
  unfold dropNoPath
  extract_lets k flagged t
  have dropped := modClass_cls_same s c (fun k => { k with
    current := none
    queue := if k.current.isSome then k.queue else k.queue.tail
    n := { k.n with noPath := k.n.noPath + 1 } })
  split
  · exact (reportReset_cls t c).trans dropped
  · exact dropped

theorem dropNoPath_pairs (c : ClassNo) (s : State) : (dropNoPath c s).pairs = s.pairs := by
  unfold dropNoPath
  extract_lets k flagged t
  split
  · exact (reportReset_aside t).pairs
  · rfl

/-- The cases of the path decision over one map (R97-R101). -/
theorem pathDecision_succ (k : Nat) (c : ClassNo) (looks : (s.cls c).decisionMap = some m) :
    pathDecision (k + 1) c s =
      if ∃ p : PairNo, eligible s m p = true then (true, s)
      else if ∃ p : PairNo, m.holds p = true ∧ (s.pair p).state = .serving then (false, s)
      else if ∃ p : PairNo, m.holds p = true ∧ ((s.pair p).state = .quiet ∨ (s.pair p).state = .waking) then
        (false, askWake c m s)
      else if (s.cls c).cfg.spill then pathDecision k c (spillFrame c s)
      else pathDecision k c (dropNoPath c s) := by
  conv_lhs => unfold pathDecision
  simp [looks, mem_allPairs]

theorem askWake_waits (c : ClassNo) (waking : ∃ p : PairNo, m.holds p = true ∧ (s.pair p).state = .waking) :
    askWake c m s = s := by
  rw [askWake, if_pos]
  simpa [mem_allPairs] using waking

theorem askWake_asks (c : ClassNo) (still : ¬ ∃ p : PairNo, m.holds p = true ∧ (s.pair p).state = .waking)
    (quiet : ∃ p : PairNo, m.holds p = true ∧ (s.pair p).state = .quiet) :
    ∃ p : PairNo, WakeChoice s m.holds p ∧
      AskedToWake p (countClass c (fun n => { n with wakeAsk := n.wakeAsk + 1 }) s) (askWake c m s) := by
  obtain ⟨p, chosen, choice⟩ := fastest_choice s m.holds quiet
  have asked : askWake c m s = wakeRequest p (countClass c (fun n => { n with wakeAsk := n.wakeAsk + 1 }) s) := by
    rw [askWake, if_neg (by simpa [mem_allPairs] using still), chosen]
  exact ⟨p, choice, asked ▸ wakeRequest_asked choice.2.1⟩

end Decision

section Selection

variable {s : State}

theorem selectFrom_cons {c : ClassNo} {u : State} {x : Bool} (cs : List ClassNo)
    (decided : pathDecision (decisionsOf (s.cls c)) c s = (x, u)) :
    selectFrom (c :: cs) s = if x = true then (true, placeFragment c u) else selectFrom cs u := by
  conv_lhs => unfold selectFrom
  cases x <;> simp [decided]

theorem isOpen_iff (u : PairUnit) : u.isOpen = true ↔ u.state = .serving ∧ u.offering = false ∧ u.queue.length < 32 := by
  simp [PairUnit.isOpen, and_assoc]

theorem decisionMap_isSome (k : ClassUnit) : k.decisionMap.isSome = true ↔ k.current ≠ none ∨ k.queue ≠ [] := by
  unfold ClassUnit.decisionMap
  cases k.current <;> cases k.queue <;> simp

theorem mem_allClasses (c : ClassNo) : c ∈ allClasses := by
  revert c
  decide

theorem selectionRuns_iff (s : State) : selectionRuns s = true ↔
    (∃ p : PairNo, (s.pair p).state = .serving ∧ (s.pair p).offering = false ∧ (s.pair p).queue.length < 32) ∧
      ∃ c : ClassNo, (s.cls c).current ≠ none ∨ (s.cls c).queue ≠ [] := by
  simp [selectionRuns, isOpen_iff, decisionMap_isSome, mem_allPairs, mem_allClasses]

theorem selectUpTo_succ (k : Nat) (s : State) : selectUpTo (k + 1) s =
    if (∃ p : PairNo, (s.pair p).state = .serving ∧ (s.pair p).offering = false ∧ (s.pair p).queue.length < 32) ∧
        (∃ c : ClassNo, (s.cls c).current ≠ none ∨ (s.cls c).queue ≠ []) then
      if (selectFrom (classOrder s.cfg.classOrder) s).1 = true then
        selectUpTo k (demandWake (selectFrom (classOrder s.cfg.classOrder) s).2)
      else demandWake (selectFrom (classOrder s.cfg.classOrder) s).2
    else s := by
  conv_lhs => unfold selectUpTo
  simp only [← selectionRuns_iff]
  generalize selectFrom (classOrder s.cfg.classOrder) s = r
  obtain ⟨_ | _, t⟩ := r <;> rfl

end Selection

/-- Settles O53, rule by rule. -/
theorem pairChosen : Obligations.PairChosen := by
  unfold Obligations.PairChosen
  intro m l s moving
  refine ⟨choosePair_none_iff, fun p chosen => ?_, fun c g p n current size chosen =>
    placeFragment_leaves current size chosen, fun c f fs current queue => placeFragment_head current queue,
    fun c k => ⟨fun nothing => ?_, fun looks => ?_⟩, ⟨rfl, rfl, rfl, rfl, rfl, rfl⟩, ?_, fun k => selectUpTo_succ k s, ?_⟩
  · have fits := choosePair_eligible chosen
    exact ⟨fits, estimate_ceiling l _ (moving p (eligible_serving fits)), choosePair_nearest chosen⟩
  · unfold pathDecision
    rw [nothing]
  · rw [pathDecision_succ k c looks]
    by_cases fits : ∃ p : PairNo, eligible s m p = true
    · simp only [if_pos fits]
    by_cases serving : ∃ p : PairNo, m.holds p = true ∧ (s.pair p).state = .serving
    · simp only [if_neg fits, if_pos serving]
    simp only [if_neg fits, if_neg serving]
    by_cases waking : ∃ p : PairNo, m.holds p = true ∧ (s.pair p).state = .waking
    · obtain ⟨p, member, awake⟩ := waking
      rw [if_pos ⟨p, member, awake⟩, if_pos ⟨p, member, .inr awake⟩, askWake_waits c ⟨p, member, awake⟩]
    rw [if_neg waking]
    by_cases quiet : ∃ p : PairNo, m.holds p = true ∧ (s.pair p).state = .quiet
    · obtain ⟨p, choice, asked⟩ := askWake_asks c waking quiet
      obtain ⟨q, member, asleep⟩ := quiet
      rw [if_pos ⟨q, member, asleep⟩, if_pos ⟨q, member, .inl asleep⟩]
      exact ⟨p, choice, rfl, asked⟩
    have none : ¬ ∃ p : PairNo, m.holds p = true ∧ ((s.pair p).state = .quiet ∨ (s.pair p).state = .waking) := by
      rintro ⟨p, member, asleep | awake⟩
      · exact quiet ⟨p, member, asleep⟩
      · exact waking ⟨p, member, awake⟩
    rw [if_neg quiet, if_neg none]
    by_cases spills : (s.cls c).cfg.spill = true
    · simp only [if_pos spills]
      obtain ⟨map, head, progress⟩ := setDecisionMap_keeps (PairMap.ofPred fun p => (s.pair p).state = .serving) looks
      refine ⟨spillFrame c s, rfl, rfl, fun d other => modClass_cls_other _ c _ other, ?_⟩
      have unit : (spillFrame c s).cls c = _ := modClass_cls_same _ c _
      rw [unit]
      exact ⟨rfl, ⟨_, map, fun p => by simp [holds_ofPred]⟩, head, progress⟩
    · simp only [if_neg spills]
      refine ⟨dropNoPath c s, rfl, dropNoPath_pairs c s, fun d other => dropNoPath_cls_other c other s, ?_⟩
      rw [dropNoPath_cls_same]
      exact ⟨rfl, rfl, rfl⟩
  · intro a b c u v w x y z first second third
    rw [selectFrom_cons _ first, selectFrom_cons _ second, selectFrom_cons _ third, selectFrom]
  · split
    · next asks => exact demandWake_asks asks.1 asks.2.1 asks.2.2
    · next rests => exact demandWake_rests rests

end Sys2Proof.Proofs
end


-- ==== Sys2Proof/Proofs/ReadBack.lean ====
section
/-! PROOF. What crosses the pair (R24-R31, R36, R195): the fragment that its octets spell, the command that it is, the
next handover and the horizons of an ALIVE. Settles O54. -/

namespace Sys2Proof.Proofs
open Sys2Proof Sys2Proof.Machine Sys2Proof.Laws

section Octets

theorem octets_append (w : BitVec 16) : w.extractLsb' 8 8 ++ w.extractLsb' 0 8 = w :=
  BitVec.extractLsb'_append_extractLsb' (w := 8) (len := 8)

/-- A number of two octets, as it is sent, reads back (R195). -/
theorem wordAt_octets16 (w : BitVec 16) (os pre : List Octet) (i : Nat) (at_ : pre.length = i) :
    wordAt (pre ++ octets16 w ++ os) i = w := by
  subst at_
  simp [wordAt, octetAt, octets16, octets_append]

theorem firstOctet_fields (kind : BitVec 4) (epoch : Epoch) (first last : Bool) :
    (kind ++ epoch ++ BitVec.ofBool first ++ BitVec.ofBool last).extractLsb' 4 4 = kind ∧
      (kind ++ epoch ++ BitVec.ofBool first ++ BitVec.ofBool last).extractLsb' 2 2 = epoch ∧
      (kind ++ epoch ++ BitVec.ofBool first ++ BitVec.ofBool last).getLsbD 1 = first ∧
      (kind ++ epoch ++ BitVec.ofBool first ++ BitVec.ofBool last).getLsbD 0 = last := by
  revert kind epoch first last
  decide

theorem classWord_fields (cls : BitVec 2) (seq : Seq) :
    (cls ++ seq).extractLsb' 14 2 = cls ∧ (cls ++ seq).extractLsb' 0 14 = seq :=
  ⟨BitVec.extractLsb'_append_eq_left, BitVec.extractLsb'_append_eq_right⟩

theorem lengthWord_field {n : Nat} (bound : n ≤ 512) : ((BitVec.ofNat 16 n).extractLsb' 0 10).toNat = n := by
  simp only [BitVec.extractLsb'_toNat, BitVec.toNat_ofNat, Nat.shiftRight_zero]
  omega

/-- The header octets of a fragment read back, with its payload length (R195). -/
theorem readHeader_header (f : Fragment) (bound : f.payload.length ≤ 512) :
    readHeader (f.kind ++ f.epoch ++ BitVec.ofBool f.first ++ BitVec.ofBool f.last)
      ((f.cls ++ f.seq).extractLsb' 8 8) ((f.cls ++ f.seq).extractLsb' 0 8)
      ((BitVec.ofNat 16 f.payload.length).extractLsb' 8 8) ((BitVec.ofNat 16 f.payload.length).extractLsb' 0 8)
      f.payload = (f, f.payload.length) := by
  obtain ⟨kind, epoch, first, last⟩ := firstOctet_fields f.kind f.epoch f.first f.last
  obtain ⟨cls, seq⟩ := classWord_fields f.cls f.seq
  simp only [readHeader, octets_append, kind, epoch, first, last, cls, seq, lengthWord_field bound]

theorem readFragment_octets {f : Fragment} (bound : f.payload.length ≤ 512) : readFragment f.octets = some f := by
  have long : f.octets.length = f.payload.length + 7 := by
    simp [Fragment.octets, Fragment.header, octets16]
  have spelled : f.octets = (f.kind ++ f.epoch ++ BitVec.ofBool f.first ++ BitVec.ofBool f.last) ::
      (f.cls ++ f.seq).extractLsb' 8 8 :: (f.cls ++ f.seq).extractLsb' 0 8 ::
      (BitVec.ofNat 16 f.payload.length).extractLsb' 8 8 :: (BitVec.ofNat 16 f.payload.length).extractLsb' 0 8 ::
      (f.payload ++ octets16 f.check) := by
    simp [Fragment.octets, Fragment.header, octets16]
  have head : f.octets.take (f.payload.length + 5) = f.header ++ f.payload := by
    rw [Fragment.octets, List.take_append_of_le_length (by simp [Fragment.header, octets16])]
    exact List.take_of_length_le (by simp [Fragment.header, octets16])
  rw [spelled] at long head ⊢
  have header := readHeader_header f bound
  simp only [readFragment, long, Nat.add_sub_cancel, List.take_left', List.drop_left', head, header]
  simp [bound, Fragment.check]

theorem deliver_octets {f : Fragment} (p : PairNo) (bound : f.payload.length ≤ 512) :
    deliver p f.octets = commandOf p f := by
  rw [deliver, readFragment_octets bound]

/-! ## The control kinds -/

theorem ctlPayload_length (s : State) (p : PairNo) (k : Ctl) : (ctlPayload s p k).length =
    (match k with
      | .join => 2
      | .alive => 6
      | .proveDecline => 1
      | .proveEnd => 3
      | _ => 0) := by
  cases k <;> simp [ctlPayload, octets16, allClasses]

theorem ctlFragment_bound (s : State) (p : PairNo) (k : Ctl) : (ctlFragment s p k).payload.length ≤ 512 := by
  rw [ctlFragment, ctlPayload_length]
  cases k <;> decide

theorem zeros_append (q : Seq) : (0#2 ++ q : BitVec 16) = q.setWidth 16 :=
  (BitVec.setWidth_eq_append (v := 14) (w := 16) (by decide)).symm

/-- The horizons that an ALIVE's payload spells (R26, R36). -/
theorem alivePayload_words (s : State) (p : PairNo) :
    wordAt (ctlPayload s p .alive) 0 = (aliveHorizon s p 0).setWidth 16 ∧
      wordAt (ctlPayload s p .alive) 2 = (aliveHorizon s p 1).setWidth 16 ∧
      wordAt (ctlPayload s p .alive) 4 = (aliveHorizon s p 2).setWidth 16 := by
  have spelled : ctlPayload s p .alive = octets16 (0#2 ++ aliveHorizon s p 0) ++
      octets16 (0#2 ++ aliveHorizon s p 1) ++ octets16 (0#2 ++ aliveHorizon s p 2) := rfl
  rw [spelled]
  simp only [← zeros_append]
  refine ⟨?_, wordAt_octets16 _ _ (octets16 _) 2 rfl, ?_⟩
  · rw [List.append_assoc]
    exact wordAt_octets16 _ _ [] 0 rfl
  · have last := wordAt_octets16 (0#2 ++ aliveHorizon s p 2) []
      (octets16 (0#2 ++ aliveHorizon s p 0) ++ octets16 (0#2 ++ aliveHorizon s p 1)) 4 rfl
    rwa [List.append_nil] at last

/-- The command that a control fragment is on its delivery (R26). -/
theorem deliver_control (s : State) (p : PairNo) (k : Ctl) : deliver p (ctlFragment s p k).octets =
    (match k with
      | .join => .join p ⟨s.bond.epoch.getD 0, 2⟩ (readJoin (ctlPayload s p .join))
      | .alive => .alive p ⟨s.bond.epoch.getD 0, 6⟩ {
          h0 := (aliveHorizon s p 0).setWidth 16, h1 := (aliveHorizon s p 1).setWidth 16
          h2 := (aliveHorizon s p 2).setWidth 16 }
      | .restart => .restart p ⟨s.bond.epoch.getD 0, 0⟩
      | .restartAsk => .restartAsk p ⟨s.bond.epoch.getD 0, 0⟩
      | .quietOffer => .quietOffer p ⟨s.bond.epoch.getD 0, 0⟩
      | .quietAgree => .quietAgree p ⟨s.bond.epoch.getD 0, 0⟩
      | .proveRequest => .proveRequest p ⟨s.bond.epoch.getD 0, 0⟩
      | .proveAccept => .proveAccept p ⟨s.bond.epoch.getD 0, 0⟩
      | .proveDecline => .proveDecline p ⟨s.bond.epoch.getD 0, 1⟩
          (reasonCode ((s.pair p).declineOut.getD .state))
      | .proveEnd => .proveEnd p ⟨s.bond.epoch.getD 0, 3⟩ {
          verdict := verdictCode ((s.pair p).record.endSlot.getD ⟨.aborted, 0⟩).verdict
          delay := BitVec.ofNat 16 ((s.pair p).record.endSlot.getD ⟨.aborted, 0⟩).delay }) := by
  rw [deliver_octets p (ctlFragment_bound s p k)]
  have length := ctlPayload_length s p k
  cases k with
  | alive =>
    obtain ⟨h0, h1, h2⟩ := alivePayload_words s p
    simp only [commandOf, ctlFragment, Ctl.code, length, h0, h1, h2]
    rfl
  | proveEnd =>
    have delay := wordAt_octets16 (BitVec.ofNat 16 ((s.pair p).record.endSlot.getD ⟨.aborted, 0⟩).delay) []
      [verdictCode ((s.pair p).record.endSlot.getD ⟨.aborted, 0⟩).verdict] 1 rfl
    rw [List.append_nil] at delay
    simp only [commandOf, ctlFragment, Ctl.code, length]
    exact congrArg (fun d => Instr.proveEnd p ⟨s.bond.epoch.getD 0, 3⟩ ⟨_, d⟩) delay
  | _ => rfl

end Octets

section Handovers

variable {s : State} {p : PairNo}

theorem begins_iff (u : PairUnit) : u.canBegin = true ↔ u.handover = none ∧ u.line = true ∧ u.state ≠ .absent ∧
    u.state ≠ .down ∧ u.state ≠ .quiet ∧ u.state ≠ .barred := by
  rw [canBegin_iff]
  cases u.state <;> simp

theorem startHandover_pair (f : Fragment) : (startHandover p f s).pair p = { s.pair p with handover := some ⟨f, f.check⟩ } := by
  rw [startHandover, emit_pair, modPair_pair_same]

theorem beginCtl_pair (k : Ctl) : (beginCtl p k s).pair p = controlBegun k ⟨ctlFragment s p k, (ctlFragment s p k).check⟩ (s.pair p) := by
  rw [beginCtl, startHandover_pair, modPair_pair_same]
  rfl

theorem patternStarts_pair (q : PairNo) : (patternStarts q s).pair p = s.pair p := by
  rcases patternStarts_eq q s with same | ⟨r, -, begun⟩
  · rw [same]
  · rw [begun]
    rfl

theorem beginProve_pair (m : ProveMsg) : (beginProve p m s).pair p =
    { s.pair p with proveSlot := none, handover := some ⟨proveFragment s m, (proveFragment s m).check⟩ } := by
  have begun : (startHandover p (proveFragment s m) (modPair p (fun u => { u with proveSlot := none }) s)).pair p =
      { s.pair p with proveSlot := none, handover := some ⟨proveFragment s m, (proveFragment s m).check⟩ } := by
    rw [startHandover_pair, modPair_pair_same]
  unfold beginProve
  dsimp only
  split
  · exact begun
  · rw [patternStarts_pair]
    exact begun

/-- The kind with the lowest number stands first in an ordered control set (R29). -/
theorem ctl_lowest {k : Ctl} {l : List Ctl} (sorted : (l.map Ctl.code).Pairwise (· < ·)) (mem : k ∈ l)
    (lowest : ∀ j ∈ l, k.code ≤ j.code) : ∃ ks : List Ctl, l = k :: ks ∧ k ∉ ks := by
  cases l with
  | nil => simp at mem
  | cons j ks =>
    rw [List.map_cons, List.pairwise_cons] at sorted
    obtain ⟨first, -⟩ := sorted
    have later : ∀ x ∈ ks, j.code < x.code := fun x m => first x.code (List.mem_map_of_mem m)
    rcases List.mem_cons.1 mem with same | m
    · exact ⟨ks, by rw [same], fun m => absurd (later k m) (by rw [same]; exact lt_irrefl _)⟩
    · exact absurd (later k m) (not_lt_of_ge (lowest j List.mem_cons_self))

theorem chooseHandover_control {k : Ctl} (free : (s.pair p).canBegin = true) (kept : (s.pair p).ControlKept)
    (mem : k ∈ (s.pair p).ctl) (lowest : ∀ j ∈ (s.pair p).ctl, k.code ≤ j.code) :
    ((chooseHandover p s).pair p).handover = some ⟨ctlFragment s p k, (ctlFragment s p k).check⟩ ∧
      ((chooseHandover p s).pair p).ctl = (s.pair p).ctl.filter (· ≠ k) ∧
      ((chooseHandover p s).pair p).proveSlot = (s.pair p).proveSlot := by
  obtain ⟨ks, ctl, once⟩ := ctl_lowest kept.1 mem lowest
  have begun : chooseHandover p s = beginCtl p k s := by simp [chooseHandover, free, ctl]
  rw [begun, beginCtl_pair]
  refine ⟨rfl, ?_, rfl⟩
  have others : ∀ x ∈ ks, x ≠ k := fun x m same => once (same ▸ m)
  simp only [controlBegun, ctl, List.erase_cons_head, List.filter_cons, ne_eq, not_true_eq_false, decide_false]
  exact (List.filter_eq_self.2 fun x m => decide_eq_true (others x m)).symm

theorem chooseHandover_prove {m : ProveMsg} (free : (s.pair p).canBegin = true) (ctl : (s.pair p).ctl = [])
    (slot : (s.pair p).proveSlot = some m) :
    ((chooseHandover p s).pair p).handover = some ⟨proveFragment s m, (proveFragment s m).check⟩ ∧
      ((chooseHandover p s).pair p).proveSlot = none := by
  have begun : chooseHandover p s = beginProve p m s := by simp [chooseHandover, free, ctl, slot]
  rw [begun, beginProve_pair]
  exact ⟨rfl, rfl⟩

theorem chooseHandover_data {e : Desc} (free : (s.pair p).canBegin = true) (ctl : (s.pair p).ctl = [])
    (slot : (s.pair p).proveSlot = none) (serving : (s.pair p).state = .serving)
    (head : (s.pair p).queue.head? = some e) :
    ((chooseHandover p s).pair p).handover = some ⟨dataFragment s e, (dataFragment s e).check⟩ ∧
      ((chooseHandover p s).pair p).queue = (s.pair p).queue := by
  obtain ⟨es, queue⟩ := List.head?_eq_some_iff.1 head
  have begun : chooseHandover p s = startHandover p (dataFragment s e) s := by
    simp [chooseHandover, free, ctl, slot, serving, queue]
  rw [begun, startHandover_pair]
  exact ⟨rfl, rfl⟩

theorem chooseHandover_waits (ctl : (s.pair p).ctl = []) (slot : (s.pair p).proveSlot = none)
    (idle : (s.pair p).state ≠ .serving ∨ (s.pair p).queue = []) : chooseHandover p s = s := by
  unfold chooseHandover
  rcases idle with state | queue
  · cases queue : (s.pair p).queue <;> simp [ctl, slot, queue, state]
  · simp [ctl, slot, queue]

end Handovers

section Horizons

/-- The farther behind of the sequence found so far and that of a queue entry of class `c` (R36 b). -/
def fartherBehind (n : Seq) (c : ClassNo) (best : Option Seq) (e : Desc) : Option Seq :=
  if e.cls = c then
    match best with
    | none => some e.seq
    | some b => if dist n b < dist n e.seq then some e.seq else some b
  else best

theorem farthestBehind_append (n : Seq) (c : ClassNo) (q : List Desc) (e : Desc) :
    farthestBehind n c (q ++ [e]) = fartherBehind n c (farthestBehind n c q) e := by
  rw [farthestBehind, List.foldl_append]
  rfl

theorem fartherBehind_other {n : Seq} {c : ClassNo} {e : Desc} (other : e.cls ≠ c) (best : Option Seq) :
    fartherBehind n c best e = best := if_neg other

theorem fartherBehind_first {n : Seq} {c : ClassNo} {e : Desc} (own : e.cls = c) :
    fartherBehind n c none e = some e.seq := if_pos own

theorem fartherBehind_next {n : Seq} {c : ClassNo} {e : Desc} (own : e.cls = c) (b : Seq) :
    fartherBehind n c (some b) e = if dist n b < dist n e.seq then some e.seq else some b := if_pos own

/-- The sequence that an ALIVE carries, as a queue is read from its head (R36 b). -/
theorem farthestBehind_cases (n : Seq) (c : ClassNo) (q : List Desc) :
    (farthestBehind n c q = none ∧ ∀ d ∈ q, d.cls ≠ c) ∨
      ∃ d ∈ q, d.cls = c ∧ farthestBehind n c q = some d.seq ∧
        ∀ x ∈ q, x.cls = c → dist n x.seq ≤ dist n d.seq := by
  induction q using List.reverseRecOn with
  | nil => exact .inl ⟨rfl, by simp⟩
  | append_singleton q e ih =>
    rw [farthestBehind_append]
    by_cases same : e.cls = c
    · rcases ih with ⟨none, without⟩ | ⟨d, mem, cls, far, most⟩
      · refine .inr ⟨e, by simp, same, by rw [none, fartherBehind_first same], fun x m own => ?_⟩
        rcases List.mem_append.1 m with m | m
        · exact absurd own (without x m)
        · rw [List.mem_singleton.1 m]
      · rw [far, fartherBehind_next same]
        by_cases farther : dist n d.seq < dist n e.seq
        · refine .inr ⟨e, by simp, same, if_pos farther, fun x m own => ?_⟩
          rcases List.mem_append.1 m with m | m
          · exact (most x m own).trans farther.le
          · rw [List.mem_singleton.1 m]
        · refine .inr ⟨d, by simp [mem], cls, if_neg farther, fun x m own => ?_⟩
          rcases List.mem_append.1 m with m | m
          · exact most x m own
          · rw [List.mem_singleton.1 m]
            exact not_lt.1 farther
    · rw [fartherBehind_other same]
      rcases ih with ⟨none, without⟩ | ⟨d, mem, cls, far, most⟩
      · refine .inl ⟨none, fun x m => ?_⟩
        rcases List.mem_append.1 m with m | m
        · exact without x m
        · rw [List.mem_singleton.1 m]
          exact same
      · refine .inr ⟨d, by simp [mem], cls, far, fun x m own => ?_⟩
        rcases List.mem_append.1 m with m | m
        · exact most x m own
        · rw [List.mem_singleton.1 m] at own
          exact absurd own same

variable {s : State} {p : PairNo} {c : ClassNo}

theorem aliveHorizon_without (without : ∀ d ∈ (s.pair p).queue, d.cls ≠ c) : aliveHorizon s p c = (s.cls c).nextSeq := by
  rcases farthestBehind_cases (s.cls c).nextSeq c (s.pair p).queue with ⟨none, -⟩ | ⟨d, mem, cls, -⟩
  · rw [aliveHorizon, none]
    rfl
  · exact absurd cls (without d mem)

theorem aliveHorizon_farthest (some : ∃ d ∈ (s.pair p).queue, d.cls = c) :
    ∃ d ∈ (s.pair p).queue, d.cls = c ∧ aliveHorizon s p c = d.seq ∧
      ∀ x ∈ (s.pair p).queue, x.cls = c → dist (s.cls c).nextSeq x.seq ≤ dist (s.cls c).nextSeq d.seq := by
  rcases farthestBehind_cases (s.cls c).nextSeq c (s.pair p).queue with ⟨-, without⟩ | ⟨d, mem, cls, far, most⟩
  · obtain ⟨d, mem, cls⟩ := some
    exact absurd cls (without d mem)
  · exact ⟨d, mem, cls, by rw [aliveHorizon, far]; rfl, most⟩

end Horizons

/-- Settles O54, part by part. -/
theorem fragmentsReadBack : Obligations.FragmentsReadBack := by
  unfold Obligations.FragmentsReadBack
  intro f s p e m k
  refine ⟨readFragment_octets, fun bound => deliver_octets p bound, fun bound => ?_, deliver_control s p k, ?_,
    fun c => ⟨aliveHorizon_without, aliveHorizon_farthest⟩⟩
  · rw [deliver_octets p (f := proveFragment s m) bound]
    cases e : m.echo <;> simp [commandOf, proveFragment, e, State.sentEpoch]
  · split
    · next begins =>
      have free := (begins_iff (s.pair p)).2 begins
      exact ⟨chooseHandover_control free, chooseHandover_prove free, fun ctl slot =>
        ⟨chooseHandover_data free ctl slot, chooseHandover_waits ctl slot⟩⟩
    · next stays =>
      rw [← begins_iff] at stays
      exact if_neg stays

end Sys2Proof.Proofs
end


-- ==== Sys2Proof/Proofs/FrameOffer.lean ====
section
/-! SUPPORT. What an offer to a class comes to (R87, R88), and that what follows an event offers nothing to a class while
no notice goes to path BOND (R94, R199). -/

namespace Sys2Proof.Proofs
open Sys2Proof Sys2Proof.Machine Sys2Proof.Laws

/-! ## The offer -/

section Offer

variable {c : ClassNo} {f : FrameRec} {s t u : State}

/-- A class has room for a frame (R87). -/
abbrev HasRoom (c : ClassNo) (s : State) : Prop := (s.cls c).holding < (s.cls c).cfg.classLimit ∧ s.slotsInUse < 128

/-- The tail of a class queue is of lower urgency (R88). -/
abbrev YieldsTo (c : ClassNo) (urgency : Nat) (s : State) : Prop :=
  ((s.cls c).queue.getLast?.any fun v => v.urgency < urgency) = true

/-- The state after the victim at the tail of a class queue has gone (R88). -/
def victimGone (c : ClassNo) (s : State) : State := modClass c (fun k => { k with queue := k.queue.dropLast }) s

theorem offerFrame_admitted (room : HasRoom c s) : offerFrame c f s = takeSlot c f s := by
  simp [offerFrame, room.1, room.2]

theorem offerFrame_displaces (full : ¬ HasRoom c s) (yields : YieldsTo c f.urgency s) :
    offerFrame c f s = takeSlot c f (countQueueDrop c (victimGone c s)) := by
  have closed : ¬ (decide ((s.cls c).holding < (s.cls c).cfg.classLimit) && decide (s.slotsInUse < 128)) = true := by
    simpa [HasRoom] using full
  unfold offerFrame
  dsimp only
  rw [if_neg closed]
  cases tail : (s.cls c).queue.getLast? with
  | none => simp [YieldsTo, tail] at yields
  | some v =>
    have lower : v.urgency < f.urgency := by simpa [YieldsTo, tail] using yields
    exact if_pos lower

theorem offerFrame_refused (full : ¬ HasRoom c s) (stays : ¬ YieldsTo c f.urgency s) :
    offerFrame c f s = if f.resetReply then reportReset (countQueueDrop c s) else countQueueDrop c s := by
  have closed : ¬ (decide ((s.cls c).holding < (s.cls c).cfg.classLimit) && decide (s.slotsInUse < 128)) = true := by
    simpa [HasRoom] using full
  unfold offerFrame
  dsimp only
  rw [if_neg closed]
  cases tail : (s.cls c).queue.getLast? with
  | none => rfl
  | some v =>
    have lower : ¬ v.urgency < f.urgency := by simpa [YieldsTo, tail] using stays
    exact if_neg lower

/-- An inserted frame stands behind those of its urgency or higher and ahead of the rest (R87). -/
theorem insertFrame_splits (f : FrameRec) {q : List FrameRec} (sorted : q.Pairwise fun f g => g.urgency ≤ f.urgency) :
    ∃ pre post : List FrameRec, q = pre ++ post ∧ insertFrame f q = pre ++ f :: post ∧
      (∀ g ∈ pre, f.urgency ≤ g.urgency) ∧ ∀ g ∈ post, g.urgency < f.urgency := by
  induction q with
  | nil => exact ⟨[], [], rfl, rfl, by simp, by simp⟩
  | cons g gs ih =>
    obtain ⟨first, rest⟩ := List.pairwise_cons.1 sorted
    by_cases behind : f.urgency ≤ g.urgency
    · obtain ⟨pre, post, split, inserted, above, below⟩ := ih rest
      refine ⟨g :: pre, post, by rw [split]; rfl, by rw [insertFrame, if_pos behind, inserted]; rfl, fun x m => ?_, below⟩
      rcases List.mem_cons.1 m with same | m
      · rw [same]; exact behind
      · exact above x m
    · refine ⟨[], g :: gs, rfl, by rw [insertFrame, if_neg behind]; rfl, by simp, fun x m => ?_⟩
      have lower := not_le.1 behind
      rcases List.mem_cons.1 m with same | m
      · rw [same]; exact lower
      · exact (first x m).trans_lt lower

/-- A class that has taken a frame (R87). -/
def frameTaken (f : FrameRec) (order : Nat) (k : ClassUnit) : ClassUnit :=
  { k with queue := insertFrame { f with order := order } k.queue, n := { k.n with admitted := k.n.admitted + 1 } }

/-- A class that has counted a QUEUE-DROP (R88). -/
def dropCounted (k : ClassUnit) : ClassUnit := { k with n := { k.n with queueDrop := k.n.queueDrop + 1 } }

theorem takeSlot_cls (d : ClassNo) : (takeSlot c f s).cls d = if d = c then frameTaken f s.nextOrder (s.cls c) else s.cls d :=
  modClass_cls s c (frameTaken f s.nextOrder) d

theorem takeSlot_cls_same : (takeSlot c f s).cls c = frameTaken f s.nextOrder (s.cls c) :=
  modClass_cls_same s c (frameTaken f s.nextOrder)

theorem takeSlot_cls_other {d : ClassNo} (other : d ≠ c) : (takeSlot c f s).cls d = s.cls d := by
  rw [takeSlot_cls, if_neg other]

theorem countQueueDrop_cls_same : (countQueueDrop c s).cls c = dropCounted (s.cls c) :=
  modClass_cls_same s c dropCounted

theorem countQueueDrop_cls_other {d : ClassNo} (other : d ≠ c) : (countQueueDrop c s).cls d = s.cls d :=
  modClass_cls_other s c dropCounted other

theorem countQueueDrop_source (src : Source) : (countQueueDrop c s).source src =
    (raiseNotice .queueDrop (valueArg c.val) s).source src := rfl

/-- The class and the frame buffer tell what an offer comes to (R87, R88). -/
theorem offerFrame_admission (c : ClassNo) (f : FrameRec) (s : State) : AdmissionTaken c f.urgency s (offerFrame c f s) := by
  have once (t : State) (same : ∀ src, t.source src = (raiseNotice .queueDrop (valueArg c.val) s).source src) :
      RaisedOnce .queueDrop (valueArg c.val) s t :=
    raisedOnce_before (raiseNotice_raisedOnce .queueDrop (valueArg c.val) s) (unraised_of_source (same _))
  unfold AdmissionTaken
  by_cases room : HasRoom c s
  · rw [if_pos room, offerFrame_admitted room, takeSlot_cls_same]
    exact ⟨rfl, rfl⟩
  · rw [if_neg room]
    by_cases yields : YieldsTo c f.urgency s
    · rw [offerFrame_displaces room yields, if_pos yields, takeSlot_cls_same, countQueueDrop_cls_same, victimGone,
        modClass_cls_same]
      exact ⟨rfl, once _ fun _ => rfl, rfl⟩
    · rw [offerFrame_refused room yields, if_neg yields]
      split
      · rw [reportReset_cls, countQueueDrop_cls_same]
        refine ⟨rfl, once _ fun src => ?_, (BitVec.add_zero _).symm⟩
        unfold reportReset
        split <;> rfl
      · rw [countQueueDrop_cls_same]
        exact ⟨rfl, once _ fun _ => rfl, (BitVec.add_zero _).symm⟩

/-- The offer leaves the pairs, the settings, the bond controller and the other classes. -/
theorem offerFrame_beside (c : ClassNo) (f : FrameRec) (s : State) : (offerFrame c f s).pairs = s.pairs ∧
    (offerFrame c f s).cfg = s.cfg ∧ (offerFrame c f s).bond = s.bond ∧
    ((offerFrame c f s).cls c).current = (s.cls c).current ∧
    ∀ d : ClassNo, d ≠ c → (offerFrame c f s).cls d = s.cls d := by
  by_cases room : HasRoom c s
  · rw [offerFrame_admitted room, takeSlot_cls_same]
    exact ⟨rfl, rfl, rfl, rfl, fun d other => takeSlot_cls_other other⟩
  · by_cases yields : YieldsTo c f.urgency s
    · rw [offerFrame_displaces room yields, takeSlot_cls_same, countQueueDrop_cls_same, victimGone, modClass_cls_same]
      refine ⟨rfl, rfl, rfl, rfl, fun d other => ?_⟩
      rw [takeSlot_cls_other other, countQueueDrop_cls_other other, modClass_cls_other _ _ _ other]
    · rw [offerFrame_refused room yields]
      have dropped : (countQueueDrop c s).pairs = s.pairs ∧ (countQueueDrop c s).cfg = s.cfg ∧
          (countQueueDrop c s).bond = s.bond ∧ ((countQueueDrop c s).cls c).current = (s.cls c).current ∧
          ∀ d : ClassNo, d ≠ c → (countQueueDrop c s).cls d = s.cls d := by
        rw [countQueueDrop_cls_same]
        exact ⟨rfl, rfl, rfl, rfl, fun d other => countQueueDrop_cls_other other⟩
      split
      · simp only [reportReset_cls]
        unfold reportReset
        split <;> exact dropped
      · exact dropped

/-- An offer is decided by the class, the buffer and the tail, and the frame takes its place by its urgency (R87,
R88). -/
theorem offerFrame_decided (c : ClassNo) (f : FrameRec) (sorted : QueuesByUrgency s) :
    OfferDecided c f s (offerFrame c f s) := by
  obtain ⟨pairs, cfg, bond, current, others⟩ := offerFrame_beside c f s
  refine ⟨pairs, cfg, bond, current, others, ?_⟩
  by_cases room : HasRoom c s
  · rw [if_pos room, offerFrame_admitted room, takeSlot_cls_same]
    exact ⟨rfl, insertFrame_splits _ (sorted c)⟩
  · rw [if_neg room]
    by_cases yields : YieldsTo c f.urgency s
    · rw [offerFrame_displaces room yields, if_pos yields, takeSlot_cls_same, countQueueDrop_cls_same, victimGone,
        modClass_cls_same]
      exact ⟨rfl, insertFrame_splits _ ((sorted c).sublist (List.dropLast_sublist _))⟩
    · rw [offerFrame_refused room yields, if_neg yields]
      split
      · rw [reportReset_cls, countQueueDrop_cls_same]
        refine ⟨rfl, ?_⟩
        unfold reportReset
        split <;> rfl
      · rw [countQueueDrop_cls_same]
        exact ⟨rfl, rfl⟩

/-- The same of a state that differs in no pair, class, setting or order from the one offered to. -/
theorem OfferDecided.of_start {r : State} (h : OfferDecided c f s u) (pairs : s.pairs = r.pairs)
    (classes : s.classes = r.classes) (cfg : s.cfg = r.cfg) (bond : s.bond = r.bond)
    (order : s.nextOrder = r.nextOrder) : OfferDecided c f r u := by
  have each : ∀ d : ClassNo, s.cls d = r.cls d := fun d => by rw [State.cls, classes]; rfl
  have slots : s.slotsInUse = r.slotsInUse := by simp only [State.slotsInUse, each]
  unfold OfferDecided at h ⊢
  simp only [each, slots, pairs, cfg, bond, order] at h
  exact h

theorem offerFrame_agent (plain : f.resetReply = false) : (offerFrame c f s).agent = s.agent := by
  by_cases room : HasRoom c s
  · rw [offerFrame_admitted room]; rfl
  · by_cases yields : YieldsTo c f.urgency s
    · rw [offerFrame_displaces room yields]; rfl
    · rw [offerFrame_refused room yields, plain]; rfl

theorem offerFrame_notices (c : ClassNo) (f : FrameRec) (s : State) :
    (offerFrame c f s).notices.destination = s.notices.destination ∧ (offerFrame c f s).notices.path = s.notices.path := by
  have kept := (offerFrame_follows c f s).settings
  obtain ⟨-, -, -, -, -, -, -, -, -, destination, path, -⟩ := kept
  exact ⟨destination, path⟩

/-- What an offer comes to, read after steps that offer nothing. -/
theorem AdmissionTaken.kept {urgency : Nat} (h : AdmissionTaken c urgency s u)
    (counts : (t.cls c).n.admitted = (u.cls c).n.admitted ∧ (t.cls c).n.queueDrop = (u.cls c).n.queueDrop)
    (left : Unraised .queueDrop u t) : AdmissionTaken c urgency s t := by
  unfold AdmissionTaken at h ⊢
  rw [counts.1, counts.2]
  split at h
  · next room => rw [if_pos room]; exact h
  · next full =>
    rw [if_neg full]
    obtain ⟨drop, raised, admission⟩ := h
    exact ⟨drop, raisedOnce_before raised left, admission⟩

end Offer

/-! ## Steps that offer nothing -/

/-- The counts of admissions and of drops of a class (R87, R88). -/
def offerCounts (n : ClassCounters) : Count × Count := (n.admitted, n.queueDrop)

/-- Nothing has been offered to a class, and the notice unit is as it was. -/
structure Unoffered (s t : State) : Prop where
  counts : ∀ c : ClassNo, offerCounts (t.cls c).n = offerCounts (s.cls c).n
  notices : t.notices = s.notices

section Unoffered

variable {s t u : State}

theorem Unoffered.refl (s : State) : Unoffered s s := ⟨fun _ => rfl, rfl⟩

theorem Unoffered.trans (h : Unoffered s t) (k : Unoffered t u) : Unoffered s u :=
  ⟨fun c => (k.counts c).trans (h.counts c), k.notices.trans h.notices⟩

theorem Unoffered.source (h : Unoffered s t) (src : Source) : t.source src = s.source src := by
  rw [State.source, h.notices]
  rfl

theorem unoffered_of_eq (classes : t.classes = s.classes) (notices : t.notices = s.notices) : Unoffered s t := by
  refine ⟨fun c => ?_, notices⟩
  rw [State.cls, classes]
  rfl

theorem onlyPair_unoffered {p : PairNo} (h : OnlyPair p s t) : Unoffered s t := by
  obtain ⟨-, classes, -, -, -, -, -, -, notices, -⟩ := h
  exact unoffered_of_eq classes notices

theorem modClass_unoffered {c : ClassNo} {f : ClassUnit → ClassUnit}
    (h : offerCounts (f (s.cls c)).n = offerCounts (s.cls c).n) : Unoffered s (modClass c f s) := by
  refine ⟨fun d => ?_, rfl⟩
  rw [modClass_cls]
  split
  · next same => rw [same]; exact h
  · rfl

theorem reportReset_unoffered (s : State) : Unoffered s (reportReset s) := by
  unfold reportReset
  split
  · exact .refl s
  · exact unoffered_of_eq rfl rfl

theorem chooseHandovers_unoffered (s : State) : Unoffered s (chooseHandovers s) := by
  unfold chooseHandovers eachPair
  generalize allPairs = ps
  induction ps generalizing s with
  | nil => exact .refl s
  | cons p ps ih => exact (onlyPair_unoffered (chooseHandover_onlyPair p s)).trans (ih _)

theorem wakeRequest_unoffered (p : PairNo) (s : State) : Unoffered s (wakeRequest p s) := by
  by_cases quiet : (s.pair p).state = .quiet
  · obtain ⟨only, -⟩ := wakeRequest_asked quiet
    exact onlyPair_unoffered only
  · rw [wakeRequest, if_neg quiet]
    exact .refl s

theorem demandWake_unoffered (s : State) : Unoffered s (demandWake s) := by
  unfold demandWake
  split
  · split
    · exact wakeRequest_unoffered _ s
    · exact .refl s
  · exact .refl s

theorem askWake_unoffered (c : ClassNo) (m : PairMap) (s : State) : Unoffered s (askWake c m s) := by
  unfold askWake
  split
  · exact .refl s
  · split
    · exact (modClass_unoffered (c := c) (f := fun k => { k with n := { k.n with wakeAsk := k.n.wakeAsk + 1 } }) rfl).trans
        (wakeRequest_unoffered _ _)
    · exact .refl s

theorem setDecisionMap_counters (m : PairMap) (k : ClassUnit) : (k.setDecisionMap m).n = k.n := by
  unfold ClassUnit.setDecisionMap
  split <;> rfl

theorem dropNoPath_unoffered (c : ClassNo) (s : State) : Unoffered s (dropNoPath c s) := by
  unfold dropNoPath
  extract_lets k flagged t
  have dropped : Unoffered s t := modClass_unoffered rfl
  split
  · exact dropped.trans (reportReset_unoffered t)
  · exact dropped

theorem pathDecision_unoffered (n : Nat) (c : ClassNo) (s : State) : Unoffered s (pathDecision n c s).2 := by
  induction n generalizing s with
  | zero => exact .refl s
  | succ n ih =>
    cases looks : (s.cls c).decisionMap with
    | none =>
      unfold pathDecision
      rw [looks]
      exact .refl s
    | some m =>
      rw [pathDecision_succ n c looks]
      split
      · exact .refl s
      · split
        · exact .refl s
        · split
          · exact askWake_unoffered c m s
          · split
            · exact (modClass_unoffered (c := c) (f := fun k => { k.setDecisionMap _ with n := { k.n with
                spill := k.n.spill + 1 } }) rfl).trans (ih _)
            · exact (dropNoPath_unoffered c s).trans (ih _)

theorem startFrame_counters (k : ClassUnit) : k.startFrame.n = k.n := by
  unfold ClassUnit.startFrame
  split <;> rfl

theorem placeFragment_unoffered (c : ClassNo) (s : State) : Unoffered s (placeFragment c s) := by
  have started : Unoffered s (modClass c ClassUnit.startFrame s) := modClass_unoffered (by rw [startFrame_counters])
  unfold placeFragment
  dsimp only
  split
  · exact started
  · next g _ =>
    split
    · exact started
    · refine started.trans (.trans (modClass_unoffered (c := c) (f := fun k => { k with
          current := g.advance (g.descriptor c ((modClass c ClassUnit.startFrame s).cls c).nextSeq).payload.length
          nextSeq := k.nextSeq + 1
          n := { k.n with fragPlaced := k.n.fragPlaced + 1 } }) rfl) (unoffered_of_eq rfl rfl))

theorem selectFrom_unoffered (cs : List ClassNo) (s : State) : Unoffered s (selectFrom cs s).2 := by
  induction cs generalizing s with
  | nil => exact .refl s
  | cons c cs ih =>
    have decided := pathDecision_unoffered (decisionsOf (s.cls c)) c s
    generalize e : pathDecision (decisionsOf (s.cls c)) c s = decision at decided
    rw [selectFrom_cons cs e]
    split
    · exact decided.trans (placeFragment_unoffered c _)
    · exact decided.trans (ih _)

theorem selectUpTo_unoffered (n : Nat) (s : State) : Unoffered s (selectUpTo n s) := by
  induction n generalizing s with
  | zero => exact .refl s
  | succ n ih =>
    have selected := selectFrom_unoffered (classOrder s.cfg.classOrder) s
    rw [selectUpTo_succ]
    split
    · split
      · exact (selected.trans (demandWake_unoffered _)).trans (ih _)
      · exact selected.trans (demandWake_unoffered _)
    · exact .refl s

theorem distribute_unoffered (s : State) : Unoffered s (distribute s) :=
  (demandWake_unoffered s).trans (selectUpTo_unoffered 257 _)

end Unoffered

/-! ## Notices that go past the classes -/

/-- No notice can go to class 0: the notice path is TRUNK, or the notices have no destination (R198, R199). -/
abbrev NoticesAside (s : State) : Prop := s.notices.path = .trunk ∨ s.notices.destination = none

/-- A source whose notice has been formed (R198). -/
def dueCleared (u : SourceUnit) : SourceUnit := { u with due := false }

/-- Nothing has been offered to a class; notices may have been sent (R198). -/
structure Noticed (s t : State) : Prop where
  counts : ∀ c : ClassNo, offerCounts (t.cls c).n = offerCounts (s.cls c).n
  sources : ∀ src : Source, t.source src = s.source src ∨ t.source src = dueCleared (s.source src)
  destination : t.notices.destination = s.notices.destination
  path : t.notices.path = s.notices.path

section Noticed

variable {s t u : State}

theorem Unoffered.noticed (h : Unoffered s t) : Noticed s t :=
  ⟨h.counts, fun src => .inl (h.source src), by rw [h.notices], by rw [h.notices]⟩

theorem dueCleared_trans {u v w : SourceUnit} (h : v = u ∨ v = dueCleared u) (k : w = v ∨ w = dueCleared v) :
    w = u ∨ w = dueCleared u := by
  rcases h with rfl | rfl
  · exact k
  · rcases k with rfl | rfl <;> exact .inr rfl

theorem Noticed.trans (h : Noticed s t) (k : Noticed t u) : Noticed s u :=
  ⟨fun c => (k.counts c).trans (h.counts c), fun src => dueCleared_trans (h.sources src) (k.sources src),
    k.destination.trans h.destination, k.path.trans h.path⟩

theorem Noticed.unraised (h : Noticed s t) (src : Source) : Unraised src s t := by
  unfold Unraised
  rcases h.sources src with same | cleared
  · rw [same]; exact ⟨rfl, rfl, rfl⟩
  · rw [cleared]; exact ⟨rfl, rfl, rfl⟩

theorem Noticed.aside (h : Noticed s t) (aside : NoticesAside s) : NoticesAside t := by
  rw [NoticesAside, h.path, h.destination]
  exact aside

theorem offerEgress_unoffered (e : EgressEntry) (s : State) : Unoffered s (offerEgress e s) := by
  unfold offerEgress
  dsimp only
  split
  · exact unoffered_of_eq rfl rfl
  · have counted : Unoffered s (countTrunk (fun n => { n with egressFull := n.egressFull + 1 }) s) :=
      unoffered_of_eq rfl rfl
    split
    · exact counted.trans (reportReset_unoffered _)
    · exact counted

/-- The state from which a source's notice is offered to the notice path (R198). -/
def noticeFormed (src : Source) (d : Addr) (s : State) : State :=
  emit (.notice src (noticeFrame s src d)) { modSource src dueCleared s with
    notices := { (modSource src dueCleared s).notices with number := s.notices.number + 1 } }

theorem sendNotice_trunk {src : Source} {d : Addr} (path : s.notices.path = .trunk) : sendNotice src d s =
    offerEgress { frame := noticeFrame s src d, source := .notice, resetReply := false } (noticeFormed src d s) := by
  have formed : (noticeFormed src d s).notices.path = .trunk := path
  unfold sendNotice
  dsimp only
  split
  · rfl
  · next bond => exact absurd (formed.symm.trans bond) (by decide)

theorem sendNotice_bond {src : Source} {d : Addr} (path : s.notices.path = .bond) : sendNotice src d s =
    distribute (offerOwnFrame (noticeFrame s src d) false (noticeFormed src d s)) := by
  have formed : (noticeFormed src d s).notices.path = .bond := path
  unfold sendNotice
  dsimp only
  split
  · next trunk => exact absurd (formed.symm.trans trunk) (by decide)
  · rfl

theorem noticeFormed_source (src : Source) (d : Addr) (s : State) (x : Source) : (noticeFormed src d s).source x =
    if x = src then dueCleared (s.source src) else s.source x :=
  modSource_source s src dueCleared x

theorem noticeFormed_noticed (src : Source) (d : Addr) (s : State) : Noticed s (noticeFormed src d s) := by
  refine ⟨fun _ => rfl, fun x => ?_, rfl, rfl⟩
  rw [noticeFormed_source]
  split
  · next same => rw [same]; exact .inr rfl
  · exact .inl rfl

theorem sendUpTo_noticed (n : Nat) (aside : NoticesAside s) : Noticed s (sendUpTo n s) := by
  induction n generalizing s with
  | zero => exact (Unoffered.refl s).noticed
  | succ n ih =>
    rw [sendUpTo]
    split
    · next _ _ src d _ destination =>
      have path : s.notices.path = .trunk := aside.resolve_right (by simp [destination])
      have sent : Noticed s (sendNotice src d s) := by
        rw [sendNotice_trunk path]
        exact (noticeFormed_noticed src d s).trans (offerEgress_unoffered _ _).noticed
      exact sent.trans (ih (sent.aside aside))
    · exact (Unoffered.refl s).noticed

theorem beginSend_unoffered (s : State) : Unoffered s (beginSend s) := by
  unfold beginSend
  split
  · exact .refl s
  · split
    · exact unoffered_of_eq rfl rfl
    · exact .refl s

theorem finish_unreset (reset : s.agent.reset = none) : finish s = beginSend (chooseHandovers (sendNotices s)) := by
  have kept : (beginSend (chooseHandovers (sendNotices s))).agent.reset = none :=
    (((sendNotices_follows s).trans (chooseHandovers_follows _)).trans (beginSend_follows _)).reset reset
  rw [finish, checkReset_none kept]

theorem finish_noticed (aside : NoticesAside s) (reset : s.agent.reset = none) : Noticed s (finish s) := by
  rw [finish_unreset reset]
  exact (sendUpTo_noticed 12 aside).trans ((chooseHandovers_unoffered _).trans (beginSend_unoffered _)).noticed

theorem settle_noticed (aside : NoticesAside s) (reset : s.agent.reset = none) : Noticed s (settle s) := by
  have before := ((chooseHandovers_unoffered s).trans (distribute_unoffered _)).noticed
  exact before.trans (finish_noticed (before.aside aside)
    (((chooseHandovers_follows s).trans (distribute_follows _)).reset reset))

end Noticed

end Sys2Proof.Proofs
end


-- ==== Sys2Proof/Proofs/Classification.lean ====
section
/-! PROOF. A trunk frame is classified, counted and offered to its class (R53-R58, R86 a). Settles O39. -/

namespace Sys2Proof.Proofs
open Sys2Proof Sys2Proof.Machine Sys2Proof.Laws

section Classification

variable {f : Frame} {s t u : State} {i : Fin 32}

/-- The match counter of a winner, and whether it raises TABLE-MATCH (R57). -/
theorem countMatch_eq (i : Fin 32) (s : State) : countMatch i s =
    (let e := s.classifier.table.get i
    if 0 < e.f.threshold ∧ e.f.threshold ≤ e.matched + 1 then
      raiseNotice .tableMatch (valueArg i.val) (modEntry i (fun e => { e with matched := 0 }) s)
    else modEntry i (fun e => { e with
      matched := if e.f.threshold = 0 then min 65535 (e.matched + 1) else e.matched + 1 }) s) := by
  have entry : ∀ (g h : Entry → Entry), g (s.classifier.table.get i) = h (s.classifier.table.get i) →
      modEntry i g s = modEntry i h s := fun g h same => by rw [modEntry, modEntry, same]
  unfold countMatch
  dsimp only
  by_cases some : 0 < (s.classifier.table.get i).f.threshold
  · rw [if_pos some]
    by_cases reached : (s.classifier.table.get i).f.threshold ≤ (s.classifier.table.get i).matched + 1
    · rw [if_pos reached, if_pos ⟨some, reached⟩]
    · rw [if_neg reached, if_neg fun both => reached both.2]
      exact entry _ _ (by rw [if_neg some.ne'])
  · rw [if_neg some, if_neg fun both => some both.1]
    exact entry _ _ (by rw [if_pos (Nat.eq_zero_of_not_pos some)])

/-- A frame counted by the trunk port (R142) and by the classifier, with its winner where it has one (R56, R57). -/
def frameCounted (f : Frame) (w : Option (Fin 32)) (s : State) : State :=
  countClassified w (countTrunk (fun n => { n with
    trunkIn := n.trunkIn + 1, trunkOctetIn := n.trunkOctetIn + BitVec.ofNat 32 f.length }) s)

/-- The counting leaves everything but the trunk counters, the sort table's match counters and the notice sources. -/
theorem countMatch_leaves (i : Fin 32) (s : State) : ∃ (cl : Classifier) (nt : NoticeUnit),
    countMatch i s = { s with classifier := cl, notices := nt } ∧ nt.path = s.notices.path ∧
      nt.destination = s.notices.destination := by
  rw [countMatch_eq]
  dsimp only
  split <;> exact ⟨_, _, rfl, rfl, rfl⟩

theorem frameCounted_leaves (f : Frame) (w : Option (Fin 32)) (s : State) :
    ∃ (n : TrunkCounters) (cl : Classifier) (nt : NoticeUnit),
      frameCounted f w s = { s with trunk := { s.trunk with n := n }, classifier := cl, notices := nt } ∧
        nt.path = s.notices.path ∧ nt.destination = s.notices.destination := by
  unfold frameCounted countClassified
  cases w with
  | none => exact ⟨_, _, _, rfl, rfl, rfl⟩
  | some i =>
    obtain ⟨cl, nt, e, path, destination⟩ := countMatch_leaves i (countTrunk (fun n => { n with classified := n.classified + 1 })
      (countTrunk (fun n => { n with
        trunkIn := n.trunkIn + 1, trunkOctetIn := n.trunkOctetIn + BitVec.ofNat 32 f.length }) s))
    exact ⟨_, cl, nt, e, path, destination⟩

theorem frameCounted_trunk (f : Frame) (w : Option (Fin 32)) (s : State) :
    (frameCounted f w s).trunk.n.trunkIn = s.trunk.n.trunkIn + 1 ∧
      (frameCounted f w s).trunk.n.classified = s.trunk.n.classified + 1 ∧
      (frameCounted f w s).trunk.n.mgmtIn = s.trunk.n.mgmtIn ∧
      (frameCounted f w s).trunk.n.noWinner = s.trunk.n.noWinner + if w = none then 1 else 0 := by
  unfold frameCounted countClassified
  cases w with
  | none => exact ⟨rfl, rfl, rfl, rfl⟩
  | some i =>
    obtain ⟨cl, nt, e, -, -⟩ := countMatch_leaves i (countTrunk (fun n => { n with classified := n.classified + 1 })
      (countTrunk (fun n => { n with
        trunkIn := n.trunkIn + 1, trunkOctetIn := n.trunkOctetIn + BitVec.ofNat 32 f.length }) s))
    dsimp only
    rw [e]
    exact ⟨rfl, rfl, rfl, (BitVec.add_zero _).symm⟩

/-- The winner's match counter and TABLE-MATCH, in a state `t` (R57). -/
def WinnerCounted (i : Fin 32) (s t : State) : Prop :=
  let e := s.classifier.table.get i
  (∀ j : Fin 32, j ≠ i → t.classifier.table.get j = s.classifier.table.get j) ∧
    if 0 < e.f.threshold ∧ e.f.threshold ≤ e.matched + 1 then
      t.classifier.table.get i = { e with matched := 0 } ∧ RaisedOnce .tableMatch (valueArg i.val) s t
    else t.classifier.table.get i = { e with
        matched := if e.f.threshold = 0 then min 65535 (e.matched + 1) else e.matched + 1 } ∧
      Unraised .tableMatch s t

theorem countMatch_counted (i : Fin 32) (s : State) : WinnerCounted i s (countMatch i s) := by
  have others (g : Entry → Entry) (j : Fin 32) (other : j ≠ i) :
      (modEntry i g s).classifier.table.get j = s.classifier.table.get j := by rw [modEntry_get, if_neg other]
  have own (g : Entry → Entry) : (modEntry i g s).classifier.table.get i = g (s.classifier.table.get i) := by
    rw [modEntry_get, if_pos rfl]
  unfold WinnerCounted
  rw [countMatch_eq]
  dsimp only
  split
  · exact ⟨others fun e => { e with matched := 0 }, own fun e => { e with matched := 0 },
      raisedOnce_after (unraised_of_source rfl) (raiseNotice_raisedOnce ..)⟩
  · exact ⟨others _, own _, unraised_of_source rfl⟩

theorem frameCounted_winner (f : Frame) (i : Fin 32) (s : State) : WinnerCounted i s (frameCounted f (some i) s) :=
  countMatch_counted i (countTrunk (fun n => { n with classified := n.classified + 1 }) (countTrunk (fun n => { n with
    trunkIn := n.trunkIn + 1, trunkOctetIn := n.trunkOctetIn + BitVec.ofNat 32 f.length }) s))

theorem WinnerCounted.kept (h : WinnerCounted i s u) (classifier : t.classifier = u.classifier)
    (left : Unraised .tableMatch u t) : WinnerCounted i s t := by
  unfold WinnerCounted at h ⊢
  rw [classifier]
  refine ⟨h.1, ?_⟩
  have counted := h.2
  split
  · next reached =>
    rw [if_pos reached] at counted
    exact ⟨counted.1, raisedOnce_before counted.2 left⟩
  · next below =>
    rw [if_neg below] at counted
    exact ⟨counted.1, unraised_trans counted.2 left⟩

theorem actionMap_holds (e : EntryFields) (m : PairMap) (p : PairNo) : (actionMap e m).holds p =
    (match e.mapMode with
      | .keep => m.holds p
      | .union => e.pairMap.holds p || m.holds p
      | .intersect => e.pairMap.holds p && m.holds p
      | .replace => e.pairMap.holds p) := by
  unfold actionMap
  cases e.mapMode <;> simp [PairMap.holds]

theorem actionClass_val {e : EntryFields} (low : e.cls < 3) : (actionClass e).val = e.cls := by
  unfold actionClass
  have cases : e.cls = 0 ∨ e.cls = 1 ∨ e.cls = 2 := by omega
  rcases cases with h | h | h <;> rw [h] <;> rfl

/-- What the classifier gives with a frame, by its winner (R54-R56). -/
theorem classification_cases (s : State) (f : Frame) :
    (winner s.classifier.table (readFields f) = none ∧ classification s f =
      { cls := 2, urgency := (readFields f).urgency, map := (s.cls 2).cfg.defaultMap, winner := none }) ∨
    ∃ i : Fin 32, winner s.classifier.table (readFields f) = some i ∧ classification s f =
      (let e := (s.classifier.table.get i).f
      { cls := actionClass e, urgency := actionUrgency e (readFields f).urgency
        map := actionMap e (s.cls (actionClass e)).cfg.defaultMap, winner := some i }) := by
  unfold classification
  dsimp only
  cases winner s.classifier.table (readFields f) with
  | none => exact .inl ⟨rfl, rfl⟩
  | some i => exact .inr ⟨i, rfl, rfl⟩

/-! ## The frame -/

/-- A frame that is no request for this part. -/
abbrev GoesOn (f : Frame) (s : State) : Prop :=
  ¬ (mgmtTyped f = true ∧ (destinationOf f = s.cfg.stationAddress ∨ destinationOf f = 0x0B4E4B000001)) ∨
    (22 ≤ f.length ∧ replyFlag f = true)

/-- The frame record that is offered to the class (R86 a). -/
def offeredFrame (f : Frame) (v : Classified) : FrameRec :=
  { octets := f, urgency := v.urgency, map := v.map, order := 0, resetReply := false }

/-- The state right after the offer of a trunk frame. -/
def frameOffered (f : Frame) (s : State) : State :=
  offerFrame (classification s f).cls (offeredFrame f (classification s f)) (frameCounted f (classification s f).winner s)

theorem trunkFrameIn_classified (some : f ≠ []) (short : f.length ≤ 1600) (goesOn : GoesOn f s) :
    trunkFrameIn f s = settle (frameOffered f s) := by
  have counted : classifyFrame f (countTrunk (fun n => { n with
      trunkIn := n.trunkIn + 1, trunkOctetIn := n.trunkOctetIn + BitVec.ofNat 32 f.length }) s) =
      settle (frameOffered f s) := rfl
  unfold trunkFrameIn
  dsimp only
  rw [if_neg some, if_neg (not_lt.2 short)]
  split
  · next mine =>
    obtain ⟨long, reply⟩ := goesOn.resolve_left (not_not.2 (toManagement_iff.1 mine))
    have holds : (!holdsFixedPart f) = false := by simp [holdsFixedPart, long]
    rw [holds, if_neg (by simp), if_pos reply]
    exact counted
  · exact counted

end Classification

section Admission

variable {f : Frame} {s : State}

theorem agent_eta {a b : Agent} (requests : a.requests = b.requests) (reset : a.reset = b.reset) : a = b := by
  cases a; cases b
  cases requests; cases reset
  rfl

/-- What a frame leaves that goes to its class. -/
theorem frame_settled (f : Frame) (reset : s.agent.reset = none) (aside : NoticesAside s) :
    (frameOffered f s).agent = s.agent ∧
      AdmissionTaken (classification s f).cls (classification s f).urgency s (settle (frameOffered f s)) ∧
      (QueuesByUrgency s → OfferDecided (classification s f).cls (offeredFrame f (classification s f)) s (frameOffered f s)) ∧
      AllLeft s (settle (frameOffered f s)) ∧ ContextsLeft s (settle (frameOffered f s)) ∧
      BondLeft s (settle (frameOffered f s)) ∧ EngineLeft s (settle (frameOffered f s)) ∧
      (settle (frameOffered f s)).agent = s.agent ∧
      (settle (frameOffered f s)).classifier = (frameCounted f (classification s f).winner s).classifier ∧
      Ensues (frameCounted f (classification s f).winner s) (settle (frameOffered f s)) := by
  unfold frameOffered
  generalize classification s f = v
  obtain ⟨n, cl, nt, counted, path, destination⟩ := frameCounted_leaves f v.winner s
  have source : (frameCounted f v.winner s).source .queueDrop = s.source .queueDrop := by
    unfold frameCounted countClassified
    cases v.winner with
    | none => rfl
    | some i =>
      dsimp only
      rw [countMatch_eq]
      dsimp only
      split
      · exact (modSource_source _ _ _ _).trans (if_neg (by decide))
      · rfl
  generalize frameCounted f v.winner s = r at counted source
  have agent : (offerFrame v.cls (offeredFrame f v) r).agent = s.agent := by
    rw [offerFrame_agent rfl, counted]
  have taken := offerFrame_admission v.cls (offeredFrame f v) r
  have noReset : (offerFrame v.cls (offeredFrame f v) r).agent.reset = none := by rw [agent, reset]
  have quiet : Noticed (offerFrame v.cls (offeredFrame f v) r) (settle (offerFrame v.cls (offeredFrame f v) r)) := by
    refine settle_noticed ?_ noReset
    obtain ⟨destination', path'⟩ := offerFrame_notices v.cls (offeredFrame f v) r
    rw [NoticesAside, destination', path', counted]
    dsimp only
    rw [path, destination]
    exact aside
  have follows := (offerFrame_follows v.cls (offeredFrame f v) r).trans (settle_follows noReset)
  have ensues := (offerFrame_ensues v.cls (offeredFrame f v) r).trans (settle_ensues noReset)
  have decided := fun sorted : QueuesByUrgency r => offerFrame_decided v.cls (offeredFrame f v) sorted
  generalize offerFrame v.cls (offeredFrame f v) r = u at agent taken noReset quiet follows ensues decided ⊢
  generalize settle u = t at quiet follows ensues ⊢
  have counts := quiet.counts v.cls
  have admitted : AdmissionTaken v.cls v.urgency r t :=
    AdmissionTaken.kept taken ⟨congrArg Prod.fst counts, congrArg Prod.snd counts⟩ (quiet.unraised .queueDrop)
  have sameAgent : t.agent = s.agent := agent_eta
    (follows.requests.trans (by rw [counted])) ((follows.reset (by rw [counted]; exact reset)).trans reset.symm)
  refine ⟨agent, ?_, fun sorted => ?_, ?_, ?_, ?_, ?_, sameAgent, follows.classifier, ensues⟩
  · have unraised : Unraised .queueDrop s r := unraised_of_source source
    rw [counted] at admitted unraised
    unfold AdmissionTaken at admitted ⊢
    split at admitted
    · next room => exact (if_pos room).mpr admitted
    · next full =>
      obtain ⟨drop, raised, more⟩ := admitted
      exact (if_neg full).mpr ⟨drop, raisedOnce_after unraised raised, more⟩
  · rw [counted] at decided
    exact OfferDecided.of_start (decided sorted) rfl rfl rfl rfl rfl
  · have pairs := follows.pairs
    rw [counted] at pairs
    exact pairs
  · have contexts := follows.contexts
    rw [counted] at contexts
    exact contexts
  · have bond := follows.bond
    rw [counted] at bond
    exact bond
  · have engine := follows.engine
    rw [counted] at engine
    exact engine

end Admission

/-- Settles O39, by the winner of the frame. -/
theorem frameAdmitted : Obligations.FrameAdmitted := by
  unfold Obligations.FrameAdmitted
  intro f s opened some short aside mine goesOn
  obtain ⟨taking, reset⟩ := opened
  have exec : Machine.exec (.trunkFrameIn f) s = .next (settle (frameOffered f s.silent)) := by
    rw [← trunkFrameIn_classified (s := s.silent) some short goesOn]
    exact exec_trunkFrameIn f taking
  obtain ⟨agent, admission, decided, pairs, contexts, bond, engine, sameAgent, classifier, ensues⟩ :=
    frame_settled (s := s.silent) f reset aside
  obtain ⟨t, run, settings⟩ := settingsByRequestsAlone (.trunkFrameIn f) s ⟨taking, reset⟩ rfl rfl
  obtain rfl : settle (frameOffered f s.silent) = t := Host.Outcome.next.inj (exec.symm.trans run)
  generalize same : settle (frameOffered f s.silent) = t at *
  generalize frameOffered f s.silent = u at *
  have trunk := ensues.trunk
  obtain ⟨trunkIn, classified, mgmtIn, noWinner⟩ := frameCounted_trunk f (classification s.silent f).winner s.silent
  have trunkIn' := congrArg TrunkCounters.trunkIn trunk
  have classified' := congrArg TrunkCounters.classified trunk
  have mgmtIn' := congrArg TrunkCounters.mgmtIn trunk
  have noWinner' := congrArg TrunkCounters.noWinner trunk
  refine ⟨t, u, (classification s.silent f).cls, (classification s.silent f).urgency,
    (classification s.silent f).map, exec, same.symm, agent, admission, decided, trunkIn'.trans trunkIn,
    classified'.trans classified, mgmtIn'.trans mgmtIn, pairs, settings, contexts, bond, engine, sameAgent, ?_⟩
  have left := ensues.unraised .tableMatch (by decide)
  have counts := noWinner'.trans noWinner
  rcases classification_cases s.silent f with ⟨lost, e⟩ | ⟨i, won, e⟩
  · have lost' : winner s.classifier.table (readFields f) = none := lost
    rw [e] at counts classifier ⊢
    rw [lost']
    exact ⟨counts, classifier, rfl, rfl, rfl⟩
  · have won' : winner s.classifier.table (readFields f) = Option.some i := won
    rw [e] at counts classifier left ⊢
    rw [won']
    have winnerCounted := (frameCounted_winner f i s.silent).kept classifier left
    refine ⟨counts.trans (BitVec.add_zero _), actionClass_val, ?_, ?_, ?_, ?_⟩
    · rfl
    · exact actionMap_holds _ _
    · exact winnerCounted.1
    · exact winnerCounted.2

end Sys2Proof.Proofs
end


-- ==== Sys2Proof/Proofs/NoticeSender.lean ====
section
/-! SUPPORT. The notice sender (R198, R199): the source that it takes, the frame that it forms, what a notice leaves, and
that it goes on until no source is sendable. -/

namespace Sys2Proof.Proofs
open Sys2Proof Sys2Proof.Machine Sys2Proof.Laws

variable {s t u : State} {src : Source} {d : Addr}

/-! ## The choice of a source -/

theorem mem_allSources (src : Source) : src ∈ allSources := by cases src <;> decide

theorem sourceIndex_inj {a b : Source} (h : (sourceIndex a).val = (sourceIndex b).val) : a = b := by
  revert h
  cases a <;> cases b <;> decide

theorem allSources_ordered : allSources.Pairwise fun a b => (sourceIndex a).val < (sourceIndex b).val := by decide

/-- The first element of an ordered list that passes a test is the least that passes it. -/
theorem find_least {l : List Source} {test : Source → Bool}
    (ordered : l.Pairwise fun a b => (sourceIndex a).val < (sourceIndex b).val) (found : l.find? test = some src) :
    test src = true ∧ ∀ x ∈ l, test x = true → x ≠ src → (sourceIndex src).val < (sourceIndex x).val := by
  induction l with
  | nil => simp at found
  | cons y l ih =>
    obtain ⟨first, rest⟩ := List.pairwise_cons.1 ordered
    cases passes : test y with
    | true =>
      rw [List.find?_cons_of_pos passes] at found
      obtain rfl := Option.some.inj found
      refine ⟨passes, fun x m _ other => ?_⟩
      exact first x ((List.mem_cons.1 m).resolve_left other)
    | false =>
      rw [List.find?_cons_of_neg (by simp [passes])] at found
      obtain ⟨own, least⟩ := ih rest found
      refine ⟨own, fun x m tested other => ?_⟩
      rcases List.mem_cons.1 m with same | m
      · rw [same, passes] at tested
        cases tested
      · exact least x m tested other

theorem sendable_iff : sendable s src = true ↔ Sendable s src := by
  simp [sendable, Sendable, Option.isSome_iff_ne_none, and_assoc]

theorem level_cases (l : Level) : l = .urgent ∨ l = .routine := by cases l <;> simp

theorem sentBefore_asymm {a b : Source} (h : SentBefore s a b) : ¬ SentBefore s b a := by
  rintro (⟨urgent, routine⟩ | ⟨level, lower⟩)
  · rcases h with ⟨urgent', -⟩ | ⟨level, -⟩
    · rw [routine] at urgent'; cases urgent'
    · rw [urgent, routine] at level; cases level
  · rcases h with ⟨urgent, routine⟩ | ⟨-, lower'⟩
    · rw [urgent, routine] at level; cases level
    · omega

theorem nextNotice_none : nextNotice s = none ↔ ∀ src : Source, ¬ Sendable s src := by
  constructor
  · intro none src can
    unfold nextNotice at none
    split at none
    · cases none
    · exact List.find?_eq_none.1 none src (mem_allSources src) (sendable_iff.2 can)
  · intro none
    have no : ∀ src, sendable s src = false := fun src => by
      rw [← Bool.not_eq_true, sendable_iff]
      exact none src
    have first : (allSources.find? fun src => sendable s src && decide ((s.source src).level = .urgent)) = Option.none :=
      List.find?_eq_none.2 (by simp [no])
    unfold nextNotice
    rw [first]
    exact List.find?_eq_none.2 (by simp [no])

theorem nextNotice_first (next : nextNotice s = some src) :
    Sendable s src ∧ ∀ x : Source, Sendable s x → x ≠ src → SentBefore s src x := by
  unfold nextNotice at next
  split at next
  · next y urgent =>
    obtain rfl := Option.some.inj next
    obtain ⟨own, least⟩ := find_least allSources_ordered urgent
    simp only [Bool.and_eq_true, decide_eq_true_eq, sendable_iff] at own least
    refine ⟨own.1, fun x can other => ?_⟩
    rcases level_cases (s.source x).level with same | routine
    · exact .inr ⟨own.2.trans same.symm, least x (mem_allSources x) ⟨can, same⟩ other⟩
    · exact .inl ⟨own.2, routine⟩
  · next no =>
    obtain ⟨own, least⟩ := find_least allSources_ordered next
    simp only [sendable_iff] at own least
    have routine : ∀ x, Sendable s x → (s.source x).level = .routine := fun x can => by
      have := List.find?_eq_none.1 no x (mem_allSources x)
      simp only [Bool.and_eq_true, decide_eq_true_eq, sendable_iff, not_and] at this
      exact (level_cases _).resolve_left (this can)
    exact ⟨own, fun x can other => .inr ⟨(routine src own).trans (routine x can).symm,
      least x (mem_allSources x) can other⟩⟩

theorem nextNotice_iff : nextNotice s = some src ↔
    Sendable s src ∧ ∀ x : Source, Sendable s x → x ≠ src → SentBefore s src x := by
  refine ⟨nextNotice_first, fun ⟨can, first⟩ => ?_⟩
  cases next : nextNotice s with
  | none => exact absurd can (nextNotice_none.1 next src)
  | some x =>
    obtain ⟨can', first'⟩ := nextNotice_first next
    by_cases same : x = src
    · rw [same]
    · exact absurd (first' src can (Ne.symm same)) (sentBefore_asymm (first x can' same))

/-! ## A notice -/

/-- The octets of a notice frame (R196, R198). -/
theorem noticeFrame_octets (src : Source) (d : Addr) (s : State) : noticeFrame s src d =
    octets48 d ++ octets48 s.cfg.stationAddress ++
      [0x9C, 0x5B, 1, if s.notices.path = .bond then 0xC0 else 0x80, 32, 0] ++
      octets16 s.notices.number ++ [0, 10, BitVec.ofNat 8 ((sourceIndex src).val + 1),
        if (s.source src).level = .urgent then 0 else 1,
        ((s.source src).arg.getD ⟨0, 0⟩).hi, ((s.source src).arg.getD ⟨0, 0⟩).lo,
        BitVec.ofNat 8 (s.source src).repeats, BitVec.ofNat 8 (causeCode s.notices.record.last),
        BitVec.ofNat 8 s.notices.record.powerOn, BitVec.ofNat 8 s.notices.record.supplyLow,
        BitVec.ofNat 8 s.notices.record.pin, BitVec.ofNat 8 s.notices.record.management] := by
  have length : octets16 (BitVec.ofNat 16 (noticeBody s src).length) = [0, 10] := by
    simp [noticeBody, octets16]
  rw [noticeFrame, ownFrame, length]
  simp [mgmtType, noticeBody]

theorem sendNotice_out (src : Source) (d : Addr) (s : State) :
    Output.notice src (noticeFrame s src d) ∈ (sendNotice src d s).out := by
  have put : Output.notice src (noticeFrame s src d) ∈ (noticeFormed src d s).out :=
    List.mem_append_right _ (List.mem_singleton_self _)
  cases path : s.notices.path with
  | trunk =>
    rw [sendNotice_trunk path]
    exact (offerEgress_outward _ _).out.subset put
  | bond =>
    rw [sendNotice_bond path]
    exact ((offerFrame_outward 0 _ _).trans (distribute_outward _)).out.subset put

theorem offerFrame_number (c : ClassNo) (f : FrameRec) (s : State) :
    (offerFrame c f s).notices.number = s.notices.number := by
  by_cases room : HasRoom c s
  · rw [offerFrame_admitted room]; rfl
  · by_cases yields : YieldsTo c f.urgency s
    · rw [offerFrame_displaces room yields]; rfl
    · rw [offerFrame_refused room yields]
      split
      · rw [(reportReset_unoffered _).notices]; rfl
      · rfl

theorem sendNotice_number (src : Source) (d : Addr) (s : State) :
    (sendNotice src d s).notices.number = s.notices.number + 1 := by
  cases path : s.notices.path with
  | trunk =>
    rw [sendNotice_trunk path, (offerEgress_unoffered _ _).notices]
    rfl
  | bond =>
    rw [sendNotice_bond path, (distribute_unoffered _).notices]
    exact offerFrame_number 0 _ _

/-- What a notice on path TRUNK leaves (R198, R199). -/
theorem sendNotice_onTrunk (d : Addr) (path : s.notices.path = .trunk) :
    (sendNotice src d s).source src = { s.source src with due := false } ∧
      (∀ x : Source, x ≠ src → (sendNotice src d s).source x = s.source x) ∧
      (if s.trunk.egress.length < 64 then
        (sendNotice src d s).trunk.egress = s.trunk.egress ++
          [{ frame := noticeFrame s src d, source := .notice, resetReply := false }]
      else (sendNotice src d s).trunk.egress = s.trunk.egress ∧
        (sendNotice src d s).trunk.n.egressFull = s.trunk.n.egressFull + 1) ∧
      (sendNotice src d s).classes = s.classes ∧ (sendNotice src d s).pairs = s.pairs := by
  have source := (offerEgress_unoffered { frame := noticeFrame s src d, source := .notice, resetReply := false }
    (noticeFormed src d s)).source
  rw [sendNotice_trunk path]
  refine ⟨?_, fun x other => ?_, ?_, ?_⟩
  · rw [source, noticeFormed_source, if_pos rfl]
    rfl
  · rw [source, noticeFormed_source, if_neg other]
  · have length : (noticeFormed src d s).trunk = s.trunk := rfl
    unfold offerEgress
    rw [length]
    split
    · rfl
    · exact ⟨rfl, rfl⟩
  · unfold offerEgress
    split <;> exact ⟨rfl, rfl⟩

/-- A notice on path BOND is offered to class 0, and selections follow (R87, R199). -/
theorem sendNotice_onBond (d : Addr) (path : s.notices.path = .bond) (sorted : QueuesByUrgency s) :
    ∃ u, sendNotice src d s = distribute u ∧ OfferDecided 0 {
      octets := noticeFrame s src d, urgency := 7, map := everyPair, order := 0, resetReply := false } s u := by
  refine ⟨_, sendNotice_bond path, ?_⟩
  exact OfferDecided.of_start (offerFrame_decided (s := noticeFormed src d s) 0 _ sorted) rfl rfl rfl rfl rfl

/-! ## Nothing stays sendable -/

/-- How many notices a source may still give rise to: one where it is due and enabled, and one more where QUEUE-DROP has
not been raised (R88, R197). -/
def noticesLeft (src : Source) (u : SourceUnit) : Nat :=
  (if u.due = true ∧ u.enable = true then 1 else 0) + (if src = .queueDrop ∧ u.isPending = false then 1 else 0)

theorem noticesLeft_cleared (src : Source) (u : SourceUnit) : noticesLeft src (dueCleared u) ≤ noticesLeft src u := by
  unfold noticesLeft dueCleared
  simp

theorem noticesLeft_sent (src : Source) {u : SourceUnit} (due : u.due = true) (enabled : u.enable = true) :
    noticesLeft src (dueCleared u) < noticesLeft src u := by
  unfold noticesLeft dueCleared
  simp [due, enabled]

theorem noticesLeft_raised (a : NoticeArg) (u : SourceUnit) :
    noticesLeft .queueDrop (u.raised a) ≤ noticesLeft .queueDrop u := by
  unfold noticesLeft SourceUnit.raised
  cases u.isPending <;> cases u.due <;> cases u.enable <;> simp

/-- No source may give rise to more notices than before, and the notices go where they went. -/
structure Fewer (s t : State) : Prop where
  left : ∀ src : Source, noticesLeft src (t.source src) ≤ noticesLeft src (s.source src)
  destination : t.notices.destination = s.notices.destination

theorem Fewer.trans (h : Fewer s t) (k : Fewer t u) : Fewer s u :=
  ⟨fun src => (k.left src).trans (h.left src), k.destination.trans h.destination⟩

theorem Unoffered.fewer (h : Unoffered s t) : Fewer s t := by
  refine ⟨fun src => ?_, by rw [h.notices]⟩
  rw [h.source src]

theorem countQueueDrop_fewer (c : ClassNo) (s : State) : Fewer s (countQueueDrop c s) := by
  refine ⟨fun src => ?_, rfl⟩
  have source : (countQueueDrop c s).source src = if src = .queueDrop then (s.source .queueDrop).raised (valueArg c.val)
      else s.source src := modSource_source s .queueDrop (SourceUnit.raised (valueArg c.val)) src
  rw [source]
  split
  · next drop =>
    rw [drop]
    exact noticesLeft_raised _ _
  · exact le_rfl

theorem offerFrame_fewer (c : ClassNo) (f : FrameRec) (s : State) : Fewer s (offerFrame c f s) := by
  have slot (r : State) : Fewer r (takeSlot c f r) := ⟨fun _ => le_rfl, rfl⟩
  have gone : Fewer s (victimGone c s) := ⟨fun _ => le_rfl, rfl⟩
  by_cases room : HasRoom c s
  · rw [offerFrame_admitted room]
    exact slot s
  · by_cases yields : YieldsTo c f.urgency s
    · rw [offerFrame_displaces room yields]
      exact (gone.trans (countQueueDrop_fewer c _)).trans (slot _)
    · rw [offerFrame_refused room yields]
      split
      · exact (countQueueDrop_fewer c s).trans (reportReset_unoffered _).fewer
      · exact countQueueDrop_fewer c s

theorem noticeFormed_fewer (src : Source) (d : Addr) (s : State) : Fewer s (noticeFormed src d s) := by
  refine ⟨fun x => ?_, rfl⟩
  rw [noticeFormed_source]
  split
  · next same =>
    rw [same]
    exact noticesLeft_cleared src _
  · exact le_rfl

theorem sendNotice_after (src : Source) (d : Addr) (s : State) : Fewer (noticeFormed src d s) (sendNotice src d s) := by
  cases path : s.notices.path with
  | trunk =>
    rw [sendNotice_trunk path]
    exact (offerEgress_unoffered _ _).fewer
  | bond =>
    rw [sendNotice_bond path]
    exact (offerFrame_fewer 0 _ _).trans (distribute_unoffered _).fewer

/-- How many notices may still be sent. -/
def noticesTotal (s : State) : Nat := (allSources.map fun src => noticesLeft src (s.source src)).sum

theorem noticesTotal_bound (s : State) : noticesTotal s ≤ 12 := by
  have one (src : Source) (other : src ≠ .queueDrop) : noticesLeft src (s.source src) ≤ 1 := by
    unfold noticesLeft
    simp only [other, false_and, if_false]
    split <;> omega
  have two : noticesLeft .queueDrop (s.source .queueDrop) ≤ 2 := by
    unfold noticesLeft
    split <;> split <;> omega
  have a := one .restarted (by decide)
  have b := one .pairDown (by decide)
  have c := one .pairBarred (by decide)
  have d := one .pairUp (by decide)
  have e := one .provingDone (by decide)
  have f := one .strike (by decide)
  have g := one .wakeError (by decide)
  have h := one .tableMatch (by decide)
  have i := one .epochChanged (by decide)
  have j := one .gapLoss (by decide)
  simp only [noticesTotal, allSources, List.map_cons, List.map_nil, List.sum_cons, List.sum_nil]
  omega

theorem noticesLeft_total (s : State) (src : Source) : noticesLeft src (s.source src) ≤ noticesTotal s :=
  List.single_le_sum (by simp) _ (List.mem_map_of_mem (mem_allSources src))

/-- A notice that is sent is one fewer to send. -/
theorem sendNotice_spends (d : Addr) (can : Sendable s src) : noticesTotal (sendNotice src d s) < noticesTotal s := by
  obtain ⟨due, enabled, -⟩ := can
  have after := sendNotice_after src d s
  have formed := noticeFormed_fewer src d s
  refine List.sum_lt_sum _ _ (fun x _ => (after.left x).trans (formed.left x)) ⟨src, mem_allSources src, ?_⟩
  refine (after.left src).trans_lt ?_
  rw [noticeFormed_source, if_pos rfl]
  exact noticesLeft_sent src due enabled

theorem sendUpTo_exhausts {n : Nat} (enough : noticesTotal s ≤ n) (src : Source) : ¬ Sendable (sendUpTo n s) src := by
  induction n generalizing s with
  | zero =>
    rintro ⟨due, enabled, -⟩
    have left := (noticesLeft_total s src).trans enough
    rw [sendUpTo] at due enabled
    simp [noticesLeft, due, enabled] at left
  | succ n ih =>
    cases next : nextNotice s with
    | none =>
      have stays : sendUpTo (n + 1) s = s := by rw [sendUpTo, next]
      rw [stays]
      exact nextNotice_none.1 next src
    | some x =>
      obtain ⟨can, -⟩ := nextNotice_first next
      obtain ⟨d, destination⟩ := Option.ne_none_iff_exists'.1 can.2.2
      have sends : sendUpTo (n + 1) s = sendUpTo n (sendNotice x d s) := by rw [sendUpTo, next, destination]
      rw [sends]
      exact ih (Nat.le_of_lt_succ ((sendNotice_spends d can).trans_le enough))

theorem sendNotices_exhausts (s : State) (src : Source) : ¬ Sendable (sendNotices s) src :=
  sendUpTo_exhausts (noticesTotal_bound s) src

/-! ## The other sources -/

/-- Every source but QUEUE-DROP is as it was, or its notice has been sent (R198). -/
def Sourced (s t : State) : Prop :=
  ∀ src : Source, src ≠ .queueDrop → t.source src = s.source src ∨ t.source src = dueCleared (s.source src)

theorem Sourced.trans (h : Sourced s t) (k : Sourced t u) : Sourced s u := fun src other =>
  dueCleared_trans (h src other) (k src other)

theorem Unoffered.sourced (h : Unoffered s t) : Sourced s t := fun src _ => .inl (h.source src)

theorem countQueueDrop_sourced (c : ClassNo) (s : State) : Sourced s (countQueueDrop c s) := fun src other =>
  .inl ((modSource_source s .queueDrop (SourceUnit.raised (valueArg c.val)) src).trans (if_neg other))

theorem offerFrame_sourced (c : ClassNo) (f : FrameRec) (s : State) : Sourced s (offerFrame c f s) := by
  have slot (r : State) : Sourced r (takeSlot c f r) := fun _ _ => .inl rfl
  have gone : Sourced s (victimGone c s) := fun _ _ => .inl rfl
  by_cases room : HasRoom c s
  · rw [offerFrame_admitted room]
    exact slot s
  · by_cases yields : YieldsTo c f.urgency s
    · rw [offerFrame_displaces room yields]
      exact (gone.trans (countQueueDrop_sourced c _)).trans (slot _)
    · rw [offerFrame_refused room yields]
      split
      · exact (countQueueDrop_sourced c s).trans (reportReset_unoffered _).sourced
      · exact countQueueDrop_sourced c s

theorem sendNotice_sourced (src : Source) (d : Addr) (s : State) : Sourced s (sendNotice src d s) := by
  have formed : Sourced s (noticeFormed src d s) := fun x _ => (noticeFormed_noticed src d s).sources x
  cases path : s.notices.path with
  | trunk =>
    rw [sendNotice_trunk path]
    exact formed.trans (offerEgress_unoffered _ _).sourced
  | bond =>
    rw [sendNotice_bond path]
    exact (formed.trans (offerFrame_sourced 0 _ _)).trans (distribute_unoffered _).sourced

theorem sendUpTo_sourced (n : Nat) (s : State) : Sourced s (sendUpTo n s) := by
  induction n generalizing s with
  | zero => exact (Unoffered.refl s).sourced
  | succ n ih =>
    rw [sendUpTo]
    split
    · exact (sendNotice_sourced _ _ s).trans (ih _)
    · exact (Unoffered.refl s).sourced

theorem settle_sourced (reset : s.agent.reset = none) : Sourced s (settle s) := by
  have before := (chooseHandovers_unoffered s).trans (distribute_unoffered _)
  have reset' := ((chooseHandovers_follows s).trans (distribute_follows _)).reset reset
  rw [settle, finish_unreset reset']
  exact (before.sourced.trans (sendUpTo_sourced 12 _)).trans
    ((chooseHandovers_unoffered _).trans (beginSend_unoffered _)).sourced

end Sys2Proof.Proofs
end


-- ==== Sys2Proof/Proofs/CountersAndNotices.lean ====
section
/-! PROOF. READ-COUNTERS with clear-after-read (R190), CLEAR-NOTICES (R200) and the notice sender (R198, R199). Settles
O51. -/

namespace Sys2Proof.Proofs
open Sys2Proof Sys2Proof.Machine Sys2Proof.Laws

/-! ## What a reply leaves -/

section Replies

variable {q : ReqHead} {b : ReqBody} {c : Instr} {v : Served} {s : State}

/-- A reply on path TRUNK to a request that starts no event is offered to the egress queue, and a send may begin
(R148, R186). -/
def repliedOnTrunk (r : Reply) (s : State) : State :=
  beginSend (offerEgress { frame := replyFrame r, source := .reply, resetReply := false } (emit (.reply r) s))

/-- A served request, with its state exactly (R183-R188). -/
theorem exec_takes (h : s.open) (request : requestOf c = some (q, b)) (a : Admits q b s) (plain : b ≠ .resetPart)
    (served : serveBody b (counted s) = v) :
    exec c s = .next (afterReply q.path b v.status (offerReply (replyTo q b v) false v.state)) := by
  obtain ⟨taking, noReset⟩ := h
  obtain ⟨-, -, noneWaits⟩ := id a
  have serving : serve q b s.silent = v := (serve_admitted a).trans served
  rw [exec_request request, takeCommand_taking _ taking, ← State.silent, requestArrives_taken q b (s := s.silent) noneWaits,
    ← serving]
  simp [takeRequest, show s.silent.agent.reset = none from noReset, answer, plain]

theorem reply_onTrunk (path : q.path = .trunk) (quiet : startsEvents b v.status = false) :
    afterReply q.path b v.status (offerReply (replyTo q b v) false v.state) = repliedOnTrunk (replyTo q b v) v.state := by
  have own : (replyTo q b v).path = .trunk := path
  unfold afterReply offerReply
  simp only [path, quiet, own, reduceCtorEq, decide_false, Bool.or_false, Bool.false_eq_true, if_false]
  rfl

theorem reply_onBond (path : q.path = .bond) :
    afterReply q.path b v.status (offerReply (replyTo q b v) false v.state) =
      settle (offerOwnFrame (replyFrame (replyTo q b v)) false (emit (.reply (replyTo q b v)) v.state)) := by
  have own : (replyTo q b v).path = .bond := path
  unfold afterReply offerReply
  simp only [path, own, decide_true, Bool.true_or, if_true]

theorem repliedOnTrunk_only (r : Reply) (s : State) : OnlyTrunk s (repliedOnTrunk r s) :=
  OnlyTrunk_trans (OnlyTrunk_trans (t := emit (.reply r) s) rfl (offerEgress_onlyTrunk _ _ rfl)) (beginSend_onlyTrunk _)

/-- What the trunk port counts for a reply (R147). -/
theorem repliedOnTrunk_counters (r : Reply) (s : State) : (repliedOnTrunk r s).trunk.n = { s.trunk.n with
    egressFull := s.trunk.n.egressFull + if 64 ≤ s.trunk.egress.length then 1 else 0 } := by
  have begun (t : State) : (beginSend t).trunk.n = t.trunk.n := by
    unfold beginSend
    split
    · rfl
    · split <;> rfl
  have length : (emit (.reply r) s).trunk = s.trunk := rfl
  rw [repliedOnTrunk, begun]
  unfold offerEgress
  rw [length]
  by_cases room : s.trunk.egress.length < 64
  · rw [if_pos room, if_neg (not_le.2 room)]
    exact congrArg (fun n => { s.trunk.n with egressFull := n }) (BitVec.add_zero _).symm
  · rw [if_neg room, if_pos (not_lt.1 room)]
    rfl

theorem onlyTrunk_cls {s t : State} (h : OnlyTrunk s t) (c : ClassNo) : t.cls c = s.cls c := by
  have classes := congrArg State.classes h
  exact congrArg (Vector.get · c) classes

theorem onlyTrunk_source {s t : State} (h : OnlyTrunk s t) (src : Source) : t.source src = s.source src := by
  have notices := congrArg State.notices h
  exact congrArg (fun n => n.sources.get (sourceIndex src)) notices

end Replies

/-! ## READ-COUNTERS -/

section Counters

variable {q : ReqHead} {g : CounterGroup} {r : ReplyBody} {s : State}

theorem pairIndex_number (p : PairNo) : pairIndex (BitVec.ofNat 8 p.val) = some p := by
  revert p
  decide

theorem classIndex_number (c : ClassNo) : classIndex (BitVec.ofNat 8 c.val) = some c := by
  revert c
  decide

/-- The state with the counters of a group at 0 (R190). -/
def groupCleared (g : CounterGroup) (s : State) : State :=
  match g with
  | .trunk => countTrunk (fun _ => {}) s
  | .cls o => match classIndex o with
    | some c => countClass c (fun _ => {}) s
    | none => s
  | .pair o => match pairIndex o with
    | some p => countPair p (fun _ => {}) s
    | none => s
  | .unknown _ => s

theorem serveBody_clears (report : reportOf s (.readCounters g true) = some r) :
    serveBody (.readCounters g true) (counted s) = ⟨.ok, r, groupCleared g (counted s)⟩ := by
  cases g with
  | trunk =>
    obtain rfl := Option.some.inj report
    rfl
  | cls o =>
    obtain ⟨c, named, rfl⟩ := Option.map_eq_some_iff.1 report
    simp only [serveBody, serveReadCounters, groupCleared, named]
    rfl
  | pair o =>
    obtain ⟨p, named, rfl⟩ := Option.map_eq_some_iff.1 report
    simp only [serveBody, serveReadCounters, groupCleared, named]
    rfl
  | unknown o => simp [reportOf] at report

/-- Clearing a group leaves the settings, the contexts, the sort table and the rest. -/
theorem groupCleared_keeps (g : CounterGroup) (s : State) : SettingsKept s (groupCleared g s) ∧
    ContextsLeft s (groupCleared g s) ∧ (groupCleared g s).classifier = s.classifier ∧
    (groupCleared g s).agent = s.agent ∧ (groupCleared g s).trunk.egress = s.trunk.egress := by
  have same : SettingsKept s s ∧ ContextsLeft s s ∧ s.classifier = s.classifier ∧ s.agent = s.agent ∧
      s.trunk.egress = s.trunk.egress := ⟨(Follows.refl s).settings, fun _ => rfl, rfl, rfl, rfl⟩
  unfold groupCleared
  split
  · exact ⟨(Follows.refl s).settings, fun _ => rfl, rfl, rfl, rfl⟩
  · split
    · next c _ =>
      have follows := countClass_follows c (fun _ => {}) s
      exact ⟨follows.settings, follows.contexts, rfl, rfl, rfl⟩
    · exact same
  · split
    · next p _ => exact ⟨modPair_settingsKept p _ s rfl, fun _ => rfl, rfl, rfl, rfl⟩
    · exact same
  · exact same

theorem unplaced_cleared {n : ClassCounters} (h : unplaced n = unplaced {}) : n = {
    admitted := n.admitted, queueDrop := n.queueDrop, noPath := n.noPath, spill := n.spill
    wakeAsk := n.wakeAsk, fragPlaced := n.fragPlaced } := by
  obtain ⟨admitted, queueDrop, noPath, spill, wakeAsk, fragPlaced⟩ := n
  simp only [unplaced, ClassCounters.mk.injEq] at h ⊢
  simp only [h, and_self]

theorem unfilled_cleared {n : TrunkCounters} (h : unfilled n = unfilled {}) : n = { egressFull := n.egressFull } := by
  cases n
  simp only [unfilled, TrunkCounters.mk.injEq] at h ⊢
  simp only [h, and_self]

theorem leftBy_counters {u v : PairUnit} (h : u.LeftBy v) : v.n = u.n := by
  rcases h with same | ⟨-, -, -, -, n, -⟩
  · exact steady_counters same
  · exact n

theorem readCounters_clears (h : s.open) (a : Admits q (.readCounters g true) s)
    (report : reportOf s (.readCounters g true) = some r) :
    ∃ t o, exec (.readCounters q g true) s = .next t ∧ Answers q 12 .ok r s.cfg.stationAddress t ∧
      Follows (groupCleared g (counted s)) t ∧ Ensues (emit o (groupCleared g (counted s))) t ∧
      (q.path = .trunk → OnlyTrunk (groupCleared g (counted s)) t ∧ t.trunk.n.egressFull =
        (groupCleared g (counted s)).trunk.n.egressFull + if 64 ≤ s.trunk.egress.length then 1 else 0) := by
  have served := serveBody_clears report
  obtain ⟨settings, -, -, agent, egress⟩ := groupCleared_keeps g (counted s)
  have noReset : (groupCleared g (counted s)).agent.reset = none := by rw [agent]; exact h.2
  obtain ⟨t, run, answered, ensues⟩ := exec_served (c := .readCounters q g true) h rfl a (by simp) served noReset
  have taken := exec_takes (c := .readCounters q g true) h rfl a (by simp) served
  have station : (groupCleared g (counted s)).cfg = s.cfg := settingsKept_cfg settings
  have reply := answered.reply
  simp only [replyTo, station] at reply
  refine ⟨t, _, run, reply, answered.follows, ensues, fun path => ⟨answered.trunk path rfl, ?_⟩⟩
  rw [reply_onTrunk path rfl] at taken
  obtain rfl := Host.Outcome.next.inj (taken.symm.trans run)
  rw [repliedOnTrunk_counters, egress]
  rfl

theorem follows_of_start {x t : State} (h : Follows x t) (settings : SettingsKept s x) (contexts : ContextsLeft s x)
    (classifier : x.classifier = s.classifier) :
    SettingsKept s t ∧ ContextsLeft s t ∧ t.classifier = s.classifier :=
  ⟨SettingsKept_trans settings h.settings, fun c => (h.contexts c).trans (contexts c), h.classifier.trans classifier⟩

/-- READ-COUNTERS with clear-after-read (R190). -/
theorem countersRead (h : s.open) (a : Admits q (.readCounters g true) s)
    (report : reportOf s (.readCounters g true) = some r) :
    ∃ t, exec (.readCounters q g true) s = .next t ∧ Answers q 12 .ok r s.cfg.stationAddress t ∧
      SettingsKept s t ∧ ContextsLeft s t ∧ t.classifier = s.classifier ∧
      (∀ p : PairNo, g = .pair (BitVec.ofNat 8 p.val) → (t.pair p).n = {} ∧ OthersLeft p s t) ∧
      (∀ c : ClassNo, g = .cls (BitVec.ofNat 8 c.val) → AllLeft s t ∧
        (q.path = .trunk → (t.cls c).n = {} ∧ (t.cls c).queue = (s.cls c).queue ∧
          ∀ d : ClassNo, d ≠ c → t.cls d = s.cls d) ∧
        (t.cls c).n = {
          admitted := (t.cls c).n.admitted, queueDrop := (t.cls c).n.queueDrop
          noPath := (t.cls c).n.noPath, spill := (t.cls c).n.spill
          wakeAsk := (t.cls c).n.wakeAsk, fragPlaced := (t.cls c).n.fragPlaced }) ∧
      (g = .trunk → AllLeft s t ∧ t.trunk.n = { egressFull := t.trunk.n.egressFull } ∧
        (q.path = .trunk → t.trunk.n.egressFull = if 64 ≤ s.trunk.egress.length then 1 else 0) ∧
        s.trunk.egress <+: t.trunk.egress) := by
  obtain ⟨t, o, run, reply, follows, ensues, onTrunk⟩ := readCounters_clears h a report
  obtain ⟨settings, contexts, classifier, -, egress⟩ := groupCleared_keeps g (counted s)
  obtain ⟨settings', contexts', classifier'⟩ := follows_of_start follows
    (SettingsKept_trans (countTrunk_aside _ s.silent).settings settings) contexts classifier
  refine ⟨t, run, reply, settings', contexts', classifier', fun p named => ?_, fun c named => ?_, fun named => ?_⟩
  · subst named
    have cleared : groupCleared (.pair (BitVec.ofNat 8 p.val)) (counted s) = countPair p (fun _ => {}) (counted s) := by
      simp only [groupCleared, pairIndex_number]
    have left := follows.pairs
    rw [cleared] at left
    refine ⟨?_, fun x other => ?_⟩
    · have counters := leftBy_counters (left p)
      rw [counters, countPair, modPair_pair_same]
    · have own := left x
      rwa [countPair, modPair_pair_other _ _ _ other] at own
  · subst named
    have cleared : groupCleared (.cls (BitVec.ofNat 8 c.val)) (counted s) = countClass c (fun _ => {}) (counted s) := by
      simp only [groupCleared, classIndex_number]
    rw [cleared] at follows ensues onTrunk
    have unit : (countClass c (fun _ => {}) (counted s)).cls c = { s.cls c with n := {} } := modClass_cls_same _ c _
    refine ⟨follows.pairs, fun path => ?_, ?_⟩
    · obtain ⟨only, -⟩ := onTrunk path
      refine ⟨by rw [onlyTrunk_cls only, unit], by rw [onlyTrunk_cls only, unit], fun d other => ?_⟩
      rw [onlyTrunk_cls only]
      exact modClass_cls_other _ c _ other
    · refine unplaced_cleared ((ensues.counters c).trans ?_)
      rw [emit_cls, unit]
  · subst named
    refine ⟨follows.pairs, unfilled_cleared ensues.trunk, fun path => ?_, follows.egress⟩
    rw [(onTrunk path).2]
    exact BitVec.zero_add _

end Counters

/-! ## CLEAR-NOTICES -/

section Notices

variable {q : ReqHead} {ns : List Nat} {s : State}

/-- A source is cleared where it is named (R200). -/
def clearNamed (ns : List Nat) (s : State) (src : Source) : State :=
  if ns.contains ((sourceIndex src).val + 1) then modSource src SourceUnit.cleared s else s

theorem clearNamed_source (src x : Source) : (clearNamed ns s src).source x =
    if x = src ∧ (sourceIndex src).val + 1 ∈ ns then (s.source src).cleared else s.source x := by
  unfold clearNamed
  by_cases named : (sourceIndex src).val + 1 ∈ ns
  · rw [if_pos (List.contains_iff_mem.2 named), modSource_source]
    simp only [named, and_true]
  · rw [if_neg fun m => named (List.contains_iff_mem.1 m)]
    simp only [named, and_false, if_false]

theorem clearNamed_follows (ns : List Nat) (s : State) (src : Source) : Follows s (clearNamed ns s src) := by
  unfold clearNamed
  split
  · exact modSource_follows src _ s fun _ => ⟨rfl, rfl⟩
  · exact Follows.refl s

theorem clearEach_follows (l : List Source) (s : State) : Follows s (l.foldl (clearNamed ns) s) := by
  induction l generalizing s with
  | nil => exact Follows.refl s
  | cons y l ih => exact (clearNamed_follows ns s y).trans (ih _)

theorem cleared_twice (u : SourceUnit) : u.cleared.cleared = u.cleared := rfl

theorem clearEach_source (l : List Source) (s : State) (x : Source) : (l.foldl (clearNamed ns) s).source x =
    if x ∈ l ∧ (sourceIndex x).val + 1 ∈ ns then (s.source x).cleared else s.source x := by
  induction l generalizing s with
  | nil => simp
  | cons y l ih =>
    rw [List.foldl_cons, ih, clearNamed_source]
    by_cases named : (sourceIndex x).val + 1 ∈ ns
    · by_cases same : x = y
      · subst same
        simp [named, cleared_twice]
      · simp [named, same]
    · have other : ¬ (x = y ∧ (sourceIndex y).val + 1 ∈ ns) := by
        rintro ⟨rfl, m⟩
        exact named m
      simp only [named, and_false, if_false, if_neg other]

/-- The state with the named sources cleared (R200). -/
def noticesCleared (ns : List Nat) (s : State) : State := allSources.foldl (clearNamed ns) s

theorem noticesCleared_source (x : Source) : (noticesCleared ns s).source x =
    if (sourceIndex x).val + 1 ∈ ns then (s.source x).cleared else s.source x := by
  rw [noticesCleared, clearEach_source]
  simp only [mem_allSources, true_and]

theorem serveClearNotices_known (known : ∀ n ∈ ns, 1 ≤ n ∧ n ≤ 11) :
    serveClearNotices ns s = ⟨.ok, .empty, noticesCleared ns s⟩ :=
  if_pos (by simpa using known)

theorem serveClearNotices_unknown (unknown : ∃ n ∈ ns, n = 0 ∨ 11 < n) : serveClearNotices ns s = badValue .source s := by
  refine if_neg fun all => ?_
  obtain ⟨n, m, out⟩ := unknown
  have within := List.all_eq_true.1 all n m
  simp only [Bool.and_eq_true, decide_eq_true_eq] at within
  omega

/-- What a source named, or not named, comes to (R200). -/
theorem source_after {x u : SourceUnit} (named : Prop) [Decidable named] (after : u = x ∨ u = dueCleared x) (y : SourceUnit)
    (was : x = if named then y.cleared else y) :
    if named then u.isPending = false ∧ u.due = false ∧ u.repeats = 0 ∧ u.arg = none
    else u.isPending = y.isPending ∧ u.repeats = y.repeats ∧ u.arg = y.arg := by
  split
  · next is =>
    rw [if_pos is] at was
    subst was
    rcases after with rfl | rfl <;> exact ⟨rfl, rfl, rfl, rfl⟩
  · next is =>
    rw [if_neg is] at was
    subst was
    rcases after with rfl | rfl <;> exact ⟨rfl, rfl, rfl⟩

/-- CLEAR-NOTICES of sources that there are (R200). -/
theorem noticesAreCleared (h : s.open) (a : Admits q (.clearNotices ns) s) (known : ∀ n ∈ ns, 1 ≤ n ∧ n ≤ 11) :
    ∃ t, exec (.clearNotices q ns) s = .next t ∧ Answers q 14 .ok .empty s.cfg.stationAddress t ∧
      AllLeft s t ∧ SettingsKept s t ∧ ContextsLeft s t ∧
      (∀ src : Source, q.path = .trunk ∨ src ≠ .queueDrop →
        if (sourceIndex src).val + 1 ∈ ns then
          (t.source src).isPending = false ∧ (t.source src).due = false ∧ (t.source src).repeats = 0 ∧
            (t.source src).arg = none
        else Unraised src s t ∧ (q.path = .trunk → (t.source src).due = (s.source src).due)) := by
  have served : serveBody (.clearNotices ns) (counted s) = ⟨.ok, .empty, noticesCleared ns (counted s)⟩ :=
    serveClearNotices_known known
  have clears : Follows (counted s) (noticesCleared ns (counted s)) := clearEach_follows allSources _
  have noReset := clears.reset h.2
  obtain ⟨t, run, answered⟩ := exec_answered (c := .clearNotices q ns) h rfl a (by simp) served noReset
  have taken := exec_takes (c := .clearNotices q ns) h rfl a (by simp) served
  have was : ∀ src, (noticesCleared ns (counted s)).source src =
      if (sourceIndex src).val + 1 ∈ ns then (s.source src).cleared else s.source src := fun src => noticesCleared_source src
  have station : (noticesCleared ns (counted s)).cfg = s.cfg := settingsKept_cfg clears.settings
  have follows := clears.trans answered.follows
  have reply := answered.reply
  simp only [replyTo, station] at reply
  refine ⟨t, run, reply, follows.pairs, SettingsKept_trans (countTrunk_aside _ s.silent).settings follows.settings,
    follows.contexts, fun src which => ?_⟩
  by_cases path : q.path = .trunk
  · have same := onlyTrunk_source (answered.trunk path rfl) src
    have fields := source_after _ (.inl same) (s.source src) (was src)
    split at fields
    · next named => exact (if_pos named).mpr fields
    · next other =>
      refine (if_neg other).mpr ⟨fields, fun _ => ?_⟩
      rw [same, was src, if_neg other]
  · have bond : q.path = .bond := by cases e : q.path <;> simp_all
    have plain := which.resolve_left path
    have after : Sourced (noticesCleared ns (counted s)) t := by
      rw [reply_onBond bond] at taken
      obtain rfl := Host.Outcome.next.inj (taken.symm.trans run)
      have offered : (offerOwnFrame (replyFrame (replyTo q (.clearNotices ns) ⟨.ok, .empty, noticesCleared ns (counted s)⟩))
          false (emit (.reply (replyTo q (.clearNotices ns) ⟨.ok, .empty, noticesCleared ns (counted s)⟩))
            (noticesCleared ns (counted s)))).agent.reset = none := (offerFrame_follows 0 _ _).reset noReset
      exact Sourced.trans (t := emit _ (noticesCleared ns (counted s))) (fun _ _ => .inl rfl)
        ((offerFrame_sourced 0 _ _).trans (settle_sourced offered))
    have fields := source_after _ (after src plain) (s.source src) (was src)
    split at fields
    · next named => exact (if_pos named).mpr fields
    · next other => exact (if_neg other).mpr ⟨fields, fun on => absurd on path⟩

/-- CLEAR-NOTICES of a source that there is not (R200). -/
theorem noticesNotCleared (h : s.open) (a : Admits q (.clearNotices ns) s) (unknown : ∃ n ∈ ns, n = 0 ∨ 11 < n) :
    ∃ t, exec (.clearNotices q ns) s = .next t ∧ OnlyReply q s t ∧
      Answers q 14 .badValue (.refused .source) s.cfg.stationAddress t := by
  have served : serve q (.clearNotices ns) s.silent = ⟨.badValue, .refused .source, counted s⟩ :=
    (serve_admitted a).trans (serveClearNotices_unknown unknown)
  obtain ⟨-, -, noneWaits⟩ := a
  obtain ⟨t, run, reply, only⟩ := exec_refused (c := .clearNotices q ns) h rfl noneWaits served (by simp)
  exact ⟨t, run, only, reply⟩

end Notices

/-- Settles O51, command by command, and the notice sender's part by the lemmas about it. -/
theorem countersAndNoticesServed : Obligations.CountersAndNoticesServed := by
  unfold Obligations.CountersAndNoticesServed
  intro q g r ns s opened
  exact ⟨countersRead opened, fun a => ⟨noticesAreCleared opened a, noticesNotCleared opened a⟩,
    nextNotice_none, fun src => nextNotice_iff, sendNotices_exhausts s, fun src d =>
      ⟨noticeFrame_octets src d s, sendNotice_out src d s, sendNotice_number src d s,
        sendNotice_onTrunk d, sendNotice_onBond d⟩⟩

end Sys2Proof.Proofs
end


-- ==== Sys2Proof/Proofs/AgentQueue.lean ====
section
/-! SUPPORT. What the service of a request leaves of the agent (R183): the requests that wait stay in their order and may
grow at the tail, none but the one being served is counted MGMT-SERVED, and no command is put in the queue. -/

namespace Sys2Proof.Proofs
open Sys2Proof Sys2Proof.Machine Sys2Proof.Laws

/-- The requests that wait stand where they stood, no request has been counted as served, and neither a command nor a
RESET-PART has come to wait. -/
structure Onto (s t : State) : Prop where
  served : t.trunk.n.mgmtServed = s.trunk.n.mgmtServed
  queued : s.agent.requests <+: t.agent.requests
  commands : t.pending = s.pending
  reset : t.agent.reset = s.agent.reset

section Onto

variable {p : PairNo} {c : ClassNo} {s t u : State}

theorem Onto.trans (h : Onto s t) (k : Onto t u) : Onto s u :=
  ⟨k.served.trans h.served, h.queued.trans k.queued, k.commands.trans h.commands, k.reset.trans h.reset⟩

theorem onto_of_eq (trunk : t.trunk.n = s.trunk.n) (agent : t.agent = s.agent) (commands : t.pending = s.pending) :
    Onto s t :=
  ⟨congrArg TrunkCounters.mgmtServed trunk, by rw [agent], commands, by rw [agent]⟩

theorem Onto.refl (s : State) : Onto s s := onto_of_eq rfl rfl rfl

theorem modPair_onto (p : PairNo) (f : PairUnit → PairUnit) (s : State) : Onto s (modPair p f s) := onto_of_eq rfl rfl rfl

theorem modClass_onto (c : ClassNo) (f : ClassUnit → ClassUnit) (s : State) : Onto s (modClass c f s) :=
  onto_of_eq rfl rfl rfl

theorem tell_onto (p : PairNo) (x : Control) (s : State) : Onto s (Machine.tell p x s) := onto_of_eq rfl rfl rfl

theorem raiseCtl_onto (k : Ctl) (p : PairNo) (s : State) : Onto s (raiseCtl k p s) := modPair_onto p _ s

theorem raiseNotice_onto (src : Source) (a : NoticeArg) (s : State) : Onto s (raiseNotice src a s) :=
  onto_of_eq rfl rfl rfl

theorem eachPair_onto {f : PairNo → State → State} (h : ∀ p s, Onto s (f p s)) (ps : List PairNo) (s : State) :
    Onto s (eachPair ps f s) :=
  eachPair_kept (I := Onto s) (fun p t i => i.trans (h p t)) ps (.refl s)

theorem eachClass_onto {f : ClassNo → State → State} (h : ∀ c s, Onto s (f c s)) (s : State) : Onto s (eachClass f s) :=
  eachClass_collected (R := Onto) Onto.trans h s

/-! ## The collector and the pair states -/

theorem Collected.onto (h : Collected c s t) : Onto s t := by
  obtain ⟨-, -, -, -, pending, -⟩ := h.settings
  exact ⟨h.served, h.queued, pending, h.pending⟩

theorem pairExit_onto (p : PairNo) (s : State) : Onto s (pairExit p s) :=
  eachClass_onto (fun c s => ((setHorizon_collected c p none s).trans (testLosses_collected c _)).onto) s

theorem clearHorizons_onto (p : PairNo) (s : State) : Onto s (clearHorizons p s) :=
  eachClass_onto (fun c s => (setHorizon_collected c p none s).onto) s

theorem cutHandover_onto (b : Bool) (p : PairNo) (s : State) : Onto s (cutHandover b p s) := by
  unfold cutHandover
  split
  · exact .refl s
  · exact onto_of_eq rfl rfl rfl

theorem giveBackAll_onto (p : PairNo) (es : List Desc) (s : State) : Onto s (giveBackAll p es s) := by
  rw [(giveBackAll_given p es s).rest]
  exact onto_of_eq rfl rfl rfl

theorem emptied_onto (p : PairNo) (st : PairState) (s : State) : Onto s (emptied p st s) :=
  ((modPair_onto p _ s).trans (cutHandover_onto true p _)).trans (modPair_onto p _ _)

theorem departed_onto (p : PairNo) (st : PairState) (s : State) : Onto s (departed p st s) := by
  unfold departed
  split
  · rw [withdrawTo_eq]
    exact ((emptied_onto p st s).trans (giveBackAll_onto p _ _)).trans (pairExit_onto p _)
  · split
    · exact cutHandover_onto false p s
    · exact .refl s

theorem moveTo_onto (p : PairNo) (st : PairState) (s : State) : Onto s (moveTo p st s) :=
  (departed_onto p st s).trans (modPair_onto p _ _)

theorem testOffers_onto (ps : List PairNo) (s : State) : Onto s (testOffers ps s) := by
  have event := testOffers_pairEvent 0 ps s
  obtain ⟨-, -, -, -, pending, -⟩ := event.settings
  exact onto_of_eq (by rw [testOffers_trunk]) event.agent pending

/-! ## The proving engine -/

theorem startRun_onto (p : PairNo) (s : State) : Onto s (startRun p s) := by
  rw [startRun_eq]
  exact (moveTo_onto p .proving s).trans (onto_of_eq rfl rfl rfl)

theorem freeEngine_onto (s : State) : Onto s (freeEngine s) := by
  have free : Onto s { s with engine := none } := onto_of_eq rfl rfl rfl
  unfold freeEngine
  dsimp only
  split
  · exact free.trans (startRun_onto _ _)
  · exact free

theorem abortRun_onto (p : PairNo) (cause : AbortCause) (s : State) : Onto s (abortRun p cause s) := by
  have left : Onto s (abandoned p cause s) := by
    rw [abandoned, aborted_eq]
    have recorded : Onto s (modPair p (abortUnit cause) { s with engine := none }) := onto_of_eq rfl rfl rfl
    exact (recorded.trans (moveTo_onto p _ _)).trans (raiseNotice_onto _ _ _)
  exact left.trans (freeEngine_onto _)

/-! ## The pair commands -/

theorem barPair_onto (p : PairNo) (s : State) : Onto s (barPair p s) := by
  unfold barPair
  dsimp only
  split
  · exact .refl s
  · have told : Onto s (if (s.pair p).state = .quiet then Machine.tell p .wake s else s) := by
      split
      · exact tell_onto p .wake s
      · exact .refl s
    have moved := told.trans (moveTo_onto p .barred _)
    split
    · exact (moved.trans (modPair_onto p _ _)).trans (raiseNotice_onto _ _ _)
    · exact moved.trans (raiseNotice_onto _ _ _)

theorem applyAction_onto (a : PairAction) (p : PairNo) (s : State) : Onto s (applyAction a p s) := by
  cases a with
  | admitPair => exact moveTo_onto p .joining s
  | withdraw =>
    have told : Onto s (if (s.pair p).state = .quiet then Machine.tell p .wake s else s) := by
      split
      · exact tell_onto p .wake s
      · exact .refl s
    exact told.trans (moveTo_onto p .standby _)
  | bar => exact barPair_onto p s
  | prove => exact startRun_onto p s
  | release => exact Onto.trans (t := raiseEnd p .released 0 s) (onto_of_eq rfl rfl rfl) (moveTo_onto p .standby _)
  | wake => exact onto_of_eq rfl rfl rfl
  | clear =>
    have moved : Onto s (cleared p s) := (moveTo_onto p _ s).trans (modPair_onto p _ _)
    rw [applyAction, clearPair_eq]
    split
    · exact moved.trans (testOffers_onto _ _)
    · exact moved
  | reset =>
    have moved : Onto s (restored p s) :=
      (((moveTo_onto p .down s).trans (modPair_onto p _ _)).trans (clearHorizons_onto p _)).trans (tell_onto p _ _)
    rw [applyAction, resetPair_eq]
    split
    · exact moved.trans (testOffers_onto _ _)
    · exact moved

/-! ## The settings -/

theorem applyItems_onto {α : Type} {name : α → SettingName} {apply : α → State → State} (tests : α → Bool)
    (h : ∀ x s, Onto s (apply x s)) (xs : List α) (s : State) : Onto s (applyItems name apply tests xs s) :=
  KeptByRequests.applyItems_kept (J := Onto s) (fun x t i => i.trans (h x t)) (fun t i => i.trans (testOffers_onto _ t)) xs (.refl s)

theorem applyBond_onto (x : BondItem) (s : State) : Onto s (applyBond x s) := by
  cases x with
  | gateWindow v =>
    obtain ⟨⟨pairs, e⟩, -⟩ := writeGateWindow_eq (v.getD s.cfg.gateWindow) s
    rw [applyBond, e]
    exact onto_of_eq rfl rfl rfl
  | _ => exact onto_of_eq rfl rfl rfl

theorem applyClass_onto (c : ClassNo) (x : ClassItem) (s : State) : Onto s (applyClass c x s) := by
  rw [applyClass_modClass]
  exact onto_of_eq rfl rfl rfl

theorem writeAllotment_onto (p : PairNo) (a : Allotment) (s : State) : Onto s (writeAllotment p a s) := by
  have written : Onto s (modPairCfg p (fun b => { b with allotment := a }) s) := modPair_onto p _ s
  rcases writeAllotment_cases p a s with ⟨-, e⟩ | ⟨-, -, e⟩ | ⟨-, -, e⟩ <;> rw [e]
  · exact written
  · exact (written.trans (moveTo_onto p .absent _)).trans (tell_onto p _ _)
  · exact (written.trans (moveTo_onto p .down _)).trans (tell_onto p _ _)

theorem applyPair_onto (p : PairNo) (x : PairItem) (s : State) : Onto s (applyPair p x s) := by
  cases x with
  | allotment v => exact writeAllotment_onto p _ s
  | _ => exact onto_of_eq rfl rfl rfl

theorem applyNotice_onto (x : NoticeItem) (s : State) : Onto s (applyNotice x s) := by
  obtain ⟨notices, e⟩ := (applyNotice_written x s).rest
  rw [e]
  exact onto_of_eq rfl rfl rfl

theorem serveItems_onto {α : Type} {check : α → Checked α} {name : α → SettingName} {apply : α → State → State}
    (tests : α → Bool) (h : ∀ x s, Onto s (apply x s)) (xs : List α) (s : State) :
    Onto s (serveItems check name apply tests xs s).state := by
  unfold serveItems
  split
  · exact .refl s
  · exact applyItems_onto tests h _ s

/-! ## The bond controller -/

theorem reportReset_onto (none : s.agent.reset = none) : Onto s (reportReset s) := by
  unfold reportReset
  rw [none]
  exact .refl s

theorem restartPair_onto (p : PairNo) (s : State) : Onto s (restartPair p s) := by
  unfold restartPair
  dsimp only
  split
  · have cut := (cutHandover_onto true p s).trans (modPair_onto p (fun u => { u with
      n := { u.n with flushed := u.n.flushed + BitVec.ofNat 32 u.queue.length }
      queue := [], ctl := [] }) _)
    split
    · exact (cut.trans (tell_onto p .wake _)).trans (modPair_onto p _ _)
    · exact cut.trans (modPair_onto p _ _)
  · exact .refl s

theorem restartDistributor_onto (c : ClassNo) (none : s.agent.reset = none) : Onto s (restartDistributor c s) := by
  unfold restartDistributor
  split
  · exact onto_of_eq rfl rfl rfl
  · dsimp only
    split
    · exact Onto.trans (t := modClass c _ s) (onto_of_eq rfl rfl rfl) (reportReset_onto none)
    · exact onto_of_eq rfl rfl rfl

theorem localRestart_onto (none : s.agent.reset = none) : Onto s (localRestart s) := by
  have pairs := eachPair_onto restartPair_onto allPairs s
  have distributors : Onto s (eachClass restartDistributor (eachPair allPairs restartPair s)) :=
    eachClass_kept (I := Onto s) (fun c t i => i.trans (restartDistributor_onto c (i.reset.trans none))) pairs
  have classes := distributors.trans (eachClass_onto (f := restartClass) (fun c t => modClass_onto c _ t) _)
  unfold localRestart
  dsimp only
  generalize eachClass restartClass _ = t at classes ⊢
  exact classes.trans (onto_of_eq rfl rfl rfl)

theorem bondRestart_onto (none : s.agent.reset = none) : Onto s (bondRestart s) := by
  have turned : Onto s (setEpoch (s.bond.epoch.map (· + 1)) s) := onto_of_eq rfl rfl rfl
  exact (turned.trans (localRestart_onto none)).trans (eachPair_onto (raiseCtl_onto .restart) _ _)

theorem serveBondRestart_onto (none : s.agent.reset = none) : Onto s (serveBondRestart s).state := by
  unfold serveBondRestart
  split
  · exact bondRestart_onto none
  · dsimp only
    split
    · exact .refl s
    · exact (eachPair_onto (raiseCtl_onto .restartAsk) _ s).trans (onto_of_eq rfl rfl rfl)

end Onto

/-! ## The service of a request -/

section Service

variable {s : State}

theorem serveWriteSettings_onto (w : SettingsWrite) (s : State) : Onto s (serveWriteSettings w s).state := by
  unfold serveWriteSettings
  split
  · exact serveItems_onto bondTests applyBond_onto _ s
  · split
    · exact serveItems_onto (fun _ => false) (applyClass_onto _) _ s
    · exact .refl s
  · split
    · split
      · exact abortRun_onto _ .write s
      · exact serveItems_onto pairTests (applyPair_onto _) _ s
    · exact .refl s
  · exact serveItems_onto (fun _ => false) applyNotice_onto _ s
  · exact .refl s

theorem servePairCommand_onto (o : Octet) (a : Option PairAction) (s : State) : Onto s (servePairCommand o a s).state := by
  unfold servePairCommand
  split
  · exact .refl s
  · split
    · split
      · exact .refl s
      · exact abortRun_onto _ .write s
    · split
      · exact .refl s
      · split
        · exact applyAction_onto _ _ s
        · exact .refl s

theorem serveReadCounters_onto {g : CounterGroup} {clear : Bool} (other : ¬ (g = .trunk ∧ clear = true)) (s : State) :
    Onto s (serveReadCounters g clear s).state := by
  cases g with
  | trunk =>
    have kept : clear = false := by simpa using other
    rw [serveReadCounters, kept]
    exact .refl s
  | cls o =>
    unfold serveReadCounters
    dsimp only
    split
    · cases clear <;> exact onto_of_eq rfl rfl rfl
    · exact .refl s
  | pair o =>
    unfold serveReadCounters
    dsimp only
    split
    · cases clear <;> exact onto_of_eq rfl rfl rfl
    · exact .refl s
  | unknown o => exact .refl s

theorem serveReadSettings_state (g : SettingsGroup) (s : State) : (serveReadSettings g s).state = s := by
  unfold serveReadSettings
  split
  · rfl
  · split <;> rfl
  · split <;> rfl
  · rfl
  · rfl

theorem serveTable_onto (b : ReqBody) (table : (∃ xs, b = .tableStage xs) ∨ (∃ o, b = .tableCommit o) ∨
    (∃ o, b = .tableFetch o) ∨ ∃ o, b = .tableClear o) (s : State) : Onto s (serveBody b s).state := by
  rcases table with ⟨xs, rfl⟩ | ⟨o, rfl⟩ | ⟨o, rfl⟩ | ⟨o, rfl⟩
  · unfold serveBody serveTableStage
    dsimp only
    split <;> exact onto_of_eq rfl rfl rfl
  · unfold serveBody serveTableCommit
    dsimp only
    split
    · exact .refl s
    · split <;> exact onto_of_eq rfl rfl rfl
  · unfold serveBody serveTableFetch
    dsimp only
    split <;> exact onto_of_eq rfl rfl rfl
  · unfold serveBody serveTableClear
    dsimp only
    split <;> exact onto_of_eq rfl rfl rfl

theorem clearEach_onto (ns : List Nat) (l : List Source) (s : State) : Onto s (l.foldl (clearNamed ns) s) := by
  induction l generalizing s with
  | nil => exact .refl s
  | cons y l ih =>
    have one : Onto s (clearNamed ns s y) := by
      unfold clearNamed
      split <;> exact onto_of_eq rfl rfl rfl
    exact one.trans (ih _)

/-- Every request but READ-COUNTERS of the TRUNK group with clear-after-read (R183, R190). -/
theorem serveBody_onto {b : ReqBody} (other : b ≠ .readCounters .trunk true) (none : s.agent.reset = none) :
    Onto s (serveBody b s).state := by
  cases b with
  | readSettings g =>
    rw [show (serveBody (.readSettings g) s).state = s from serveReadSettings_state g s]
    exact .refl s
  | writeSettings w => exact serveWriteSettings_onto w s
  | readPair o =>
    unfold serveBody serveReadPair
    dsimp only
    split <;> exact .refl s
  | pairCommand o a => exact servePairCommand_onto o a s
  | tableStage xs => exact serveTable_onto _ (.inl ⟨xs, rfl⟩) s
  | tableCommit o => exact serveTable_onto _ (.inr (.inl ⟨o, rfl⟩)) s
  | tableFetch o => exact serveTable_onto _ (.inr (.inr (.inl ⟨o, rfl⟩))) s
  | tableClear o => exact serveTable_onto _ (.inr (.inr (.inr ⟨o, rfl⟩))) s
  | readCounters g clear =>
    refine serveReadCounters_onto ?_ s
    rintro ⟨rfl, rfl⟩
    exact other rfl
  | clearNotices ns =>
    unfold serveBody serveClearNotices
    dsimp only
    split
    · exact clearEach_onto ns allSources s
    · exact .refl s
  | bondRestart => exact serveBondRestart_onto none
  | readIdentity | readStage | readTableCounters | readNotices | resetPart | raw => exact .refl s

/-- A request is served, and counted MGMT-SERVED (R183). -/
theorem serve_onto {b : ReqBody} (q : ReqHead) (other : b ≠ .readCounters .trunk true) (none : s.agent.reset = none) :
    Onto (countTrunk (fun n => { n with mgmtServed := n.mgmtServed + 1 }) s) (serve q b s).state := by
  unfold serve serveTested
  split
  · exact .refl _
  · split
    · exact .refl _
    · exact serveBody_onto other none

end Service

end Sys2Proof.Proofs
end


-- ==== Sys2Proof/Proofs/AgentSteps.lean ====
section
/-! PROOF. Requests as commands, and the steps that take no command (R144, R183; log entries 15, 18, 21). -/

namespace Sys2Proof.Proofs
open Sys2Proof Sys2Proof.Machine Sys2Proof.Laws

variable {r : Request} {rs : List Request} {s : State}

/-- The state in which the agent takes a request: the requests behind it wait, and no output has been made. -/
def tookFirst (rs : List Request) (s : State) : State := { s.silent with agent := { s.agent with requests := rs } }

theorem requestOf_arrives {c : Instr} {q : ReqHead} {b : ReqBody} (request : requestOf c = some (q, b)) (opened : s.open) :
    if s.agent.requests = [] then exec c s = .next (takeRequest q b s.silent)
    else exec c s = .next { s.silent with agent := { s.agent with requests := s.agent.requests ++ [.fields q b] } } := by
  obtain ⟨taking, noReset⟩ := opened
  rw [exec_request request, takeCommand_taking _ taking, ← State.silent]
  split
  · next noneWaits => rw [requestArrives_taken q b (s := s.silent) noneWaits]
  · next waits =>
    rw [requestArrives_waits q b (s := s.silent) waits noReset]
    rfl

theorem step_passes (noCommand : s.pending = []) (rests : s.resets.held = true ∨ s.agent.requests = []) :
    step s = .next { s.silent with now := s.now + 1 } := by
  rw [step_idle noCommand, idle, if_neg]
  · rfl
  · rcases rests with held | noneWaits
    · simp [held]
    · simp [noneWaits]

theorem takeRequest_discarded {q : ReqHead} {b : ReqBody} (pends : s.agent.reset ≠ none) :
    takeRequest q b s = countTrunk (fun n => { n with mgmtDiscard := n.mgmtDiscard + 1 }) s :=
  if_pos (Option.isSome_iff_ne_none.2 pends)

theorem forwardRequest_discarded {f : Frame} (pends : s.agent.reset ≠ none) :
    forwardRequest f s = countTrunk (fun n => { n with mgmtDiscard := n.mgmtDiscard + 1 }) s :=
  if_pos (Option.isSome_iff_ne_none.2 pends)

/-- A request is discarded while a RESET-PART is pending, whichever part it is for (R183; log entry 15). -/
theorem step_discards (taking : s.taking) (noCommand : s.pending = []) (waits : s.agent.requests = r :: rs)
    (pends : s.agent.reset ≠ none) :
    step s = .next (countTrunk (fun n => { n with mgmtDiscard := n.mgmtDiscard + 1 }) (tookFirst rs s)) := by
  rw [step_idle noCommand, idle_serves taking (by simp [waits])]
  unfold serveNext
  rw [show s.silent.agent.requests = r :: rs from waits]
  dsimp only
  split
  · exact congrArg Host.Outcome.next (forwardRequest_discarded (s := tookFirst rs s) pends)
  · exact congrArg Host.Outcome.next (takeRequest_discarded (s := tookFirst rs s) pends)

theorem step_forwards {f : Frame} (taking : s.taking) (noCommand : s.pending = [])
    (waits : s.agent.requests = .framed .trunk f :: rs) (far : targetFar f = true) (noReset : s.agent.reset = none) :
    step s = .next (settle (offerOwnFrame f false (tookFirst rs s))) := by
  rw [step_idle noCommand, idle_serves taking (by simp [waits]),
    serveNext_forwarded (s := s.silent) waits (farFrame_eq_some.2 ⟨rfl, far⟩)]
  have unreset : ¬ (tookFirst rs s).agent.reset.isSome = true := by simp [tookFirst, noReset]
  exact congrArg Host.Outcome.next (if_neg unreset)

/-- What a request for the far part leaves (R144 b): it is offered to class 0 unserved. -/
theorem forwarded (f : Frame) (rs : List Request) (noReset : s.agent.reset = none) :
    let u := offerOwnFrame f false (tookFirst rs s)
    u.agent = { s.agent with requests := rs } ∧ (settle u).trunk.n.mgmtServed = s.trunk.n.mgmtServed ∧
      SettingsKept s (settle u) ∧ AllLeft s (settle u) ∧ ContextsLeft s (settle u) ∧
      (QueuesByUrgency s → OfferDecided 0 {
        octets := f, urgency := 7, map := everyPair, order := 0, resetReply := false } s u) := by
  have offered := offerOwnFrame_follows f false (tookFirst rs s)
  have sent := offerOwnFrame_outward f false (tookFirst rs s)
  have agent : (offerOwnFrame f false (tookFirst rs s)).agent = { s.agent with requests := rs } := offerFrame_agent rfl
  have decided := fun sorted : QueuesByUrgency s => OfferDecided.of_start (r := s) (offerFrame_decided 0 {
    octets := f, urgency := 7, map := everyPair, order := 0, resetReply := false } (s := tookFirst rs s) sorted)
      rfl rfl rfl rfl rfl
  dsimp only
  change _ → OfferDecided _ _ s (offerOwnFrame f false (tookFirst rs s)) at decided
  generalize offerOwnFrame f false (tookFirst rs s) = u at offered sent agent decided ⊢
  have unreset : u.agent.reset = none := by rw [agent, noReset]
  have follows := offered.trans (settle_follows unreset)
  have outward := sent.trans (settle_outward unreset)
  exact ⟨agent, outward.mgmtServed, follows.settings, follows.pairs, follows.contexts, decided⟩

/-- A request that is served is counted MGMT-SERVED once, and leaves those that wait in their order (R183). -/
theorem takeRequest_onto {q : ReqHead} {b : ReqBody} (noReset : s.agent.reset = none) (unreset : b ≠ .resetPart)
    (other : b ≠ .readCounters .trunk true) :
    (takeRequest q b s).trunk.n.mgmtServed = s.trunk.n.mgmtServed + 1 ∧
      s.agent.requests <+: (takeRequest q b s).agent.requests ∧ (takeRequest q b s).pending = s.pending := by
  have served := serve_onto q other (s := s) noReset
  have answered := takeRequest_answered q b noReset (fun h => unreset h.1) (served.reset.trans noReset)
  obtain ⟨-, -, -, -, pending, -⟩ := answered.follows.settings
  refine ⟨answered.outward.mgmtServed.trans served.served, ?_, pending.trans served.commands⟩
  rw [answered.follows.requests]
  exact served.queued

/-- Settles O2. -/
theorem idleStep : Obligations.IdleStep := by
  refine fun s => ⟨fun c q b request opened => requestOf_arrives request opened,
    fun noCommand rests => step_passes noCommand rests, fun r rs noCommand waits taking => ⟨fun pends =>
      step_discards taking noCommand waits pends, ?_, fun noReset near => ?_⟩⟩
  · rintro f noReset rfl far
    exact ⟨_, step_forwards taking noCommand waits far noReset, forwarded f rs noReset⟩
  · have next := step_serves taking noCommand waits (farFrame_none near)
    refine ⟨next, fun c request noneWaits => ?_, fun unreset other => ?_⟩
    · subst noneWaits
      have ran := takeCommand_taking (requestArrives (readRequest r).1 (readRequest r).2)
        (s := { s with agent := { s.agent with requests := [] } }) taking
      rw [next, exec_request (q := (readRequest r).1) (b := (readRequest r).2) request, ran, requestArrives_taken _ _ rfl]
      rfl
    · obtain ⟨counted, queued, commands⟩ := takeRequest_onto (q := (readRequest r).1) (s := tookFirst rs s) noReset unreset other
      exact ⟨_, next, counted, queued, commands.trans noCommand⟩

end Sys2Proof.Proofs
end


-- ==== Sys2Proof/Proofs/PendingReset.lean ====
section
/-! SUPPORT. The reply of a RESET-PART through what follows its admission (R193 b): every pair is in its map and it yields
to no frame, so that it leaves the distributor as fragments in the transmit queues alone. -/

namespace Sys2Proof.Proofs
open Sys2Proof Sys2Proof.Machine Sys2Proof.Laws

variable {c : ClassNo} {p : PairNo} {m : PairMap} {k : ClassUnit} {s t u v : State}

/-! ## The reply in a class and in the transmit queues -/

/-- A reply of a RESET-PART that waits in a class may go on every pair and stands at the highest urgency (R86). -/
def ReplyOpen (k : ClassUnit) : Prop :=
  (∀ f ∈ k.queue, f.resetReply = true → f.map = everyPair ∧ 7 ≤ f.urgency) ∧
    ∀ g, k.current = some g → g.frame.resetReply = true → g.frame.map = everyPair

/-- A reply of a RESET-PART, or a fragment of it, waits on the pair. -/
def holdsFragment (u : PairUnit) : Bool := u.queue.any (·.resetReply)

theorem resetReplyHeld_iff : resetReplyHeld s = true ↔
    (∃ c : ClassNo, (s.cls c).holdsResetReply = true) ∨ ∃ p : PairNo, holdsFragment (s.pair p) = true := by
  simp only [resetReplyHeld, Bool.or_eq_true, List.any_eq_true, mem_allClasses, mem_allPairs, true_and, holdsFragment]

theorem resetReplyHeld_congr (classes : ∀ c : ClassNo, (t.cls c).holdsResetReply = (s.cls c).holdsResetReply)
    (pairs : ∀ p : PairNo, holdsFragment (t.pair p) = holdsFragment (s.pair p)) :
    resetReplyHeld t = resetReplyHeld s := by
  rw [Bool.eq_iff_iff, resetReplyHeld_iff, resetReplyHeld_iff]
  simp only [classes, pairs]

/-- A step that neither loses nor makes a reply of a RESET-PART, nor ends the pending one. -/
structure ReplyCarried (s t : State) : Prop where
  waits : ∀ c : ClassNo, ReplyOpen (t.cls c)
  held : resetReplyHeld t = resetReplyHeld s
  agent : t.agent = s.agent

theorem ReplyCarried.trans (h : ReplyCarried s t) (k : ReplyCarried t u) : ReplyCarried s u :=
  ⟨k.waits, k.held.trans h.held, k.agent.trans h.agent⟩

section Steps

variable (waits : ∀ c : ClassNo, ReplyOpen (s.cls c))
include waits

theorem ReplyCarried.refl : ReplyCarried s s := ⟨waits, rfl, rfl⟩

theorem replyCarried_of_queues (classes : t.classes = s.classes) (agent : t.agent = s.agent)
    (queues : ∀ p : PairNo, (t.pair p).queue = (s.pair p).queue) : ReplyCarried s t := by
  have same : ∀ c : ClassNo, t.cls c = s.cls c := fun c => by rw [State.cls, classes]; rfl
  exact ⟨fun c => same c ▸ waits c, resetReplyHeld_congr (fun c => by rw [same])
    (fun p => by rw [holdsFragment, queues]; rfl), agent⟩

theorem replyCarried_of_eq (classes : t.classes = s.classes) (agent : t.agent = s.agent) (pairs : t.pairs = s.pairs) :
    ReplyCarried s t :=
  replyCarried_of_queues waits classes agent fun p => by rw [State.pair, pairs]; rfl

theorem modClass_replyCarried {f : ClassUnit → ClassUnit} (after : ReplyOpen (f (s.cls c)))
    (held : (f (s.cls c)).holdsResetReply = (s.cls c).holdsResetReply) : ReplyCarried s (modClass c f s) := by
  refine ⟨fun d => ?_, resetReplyHeld_congr (fun d => ?_) fun _ => rfl, rfl⟩
  all_goals
    rw [modClass_cls]
    split
  · exact after
  · exact waits d
  · next same => rw [same]; exact held
  · rfl

end Steps

/-! ## Handovers and wakes -/

theorem chooseHandover_queue (p : PairNo) (s : State) : ((chooseHandover p s).pair p).queue = (s.pair p).queue := by
  unfold chooseHandover
  dsimp only
  split
  · split
    · rw [beginCtl_pair]
      rfl
    · rw [beginProve_pair]
    · split
      · rw [startHandover_pair]
      · rfl
    · rfl
  · rfl

section Steps

variable (waits : ∀ c : ClassNo, ReplyOpen (s.cls c))
include waits

theorem onlyPair_replyCarried (only : OnlyPair p s t) (queue : (t.pair p).queue = (s.pair p).queue) : ReplyCarried s t := by
  obtain ⟨others, classes, -, -, -, -, agent, -⟩ := only
  refine replyCarried_of_queues waits classes agent fun q => ?_
  by_cases same : q = p
  · rw [same, queue]
  · rw [others q same]

theorem chooseHandovers_replyCarried : ReplyCarried s (chooseHandovers s) := by
  unfold chooseHandovers eachPair
  generalize allPairs = ps
  induction ps generalizing s with
  | nil => exact .refl waits
  | cons p ps ih =>
    have first := onlyPair_replyCarried waits (chooseHandover_onlyPair p s) (chooseHandover_queue p s)
    exact first.trans (ih first.waits)

theorem wakeRequest_replyCarried (p : PairNo) : ReplyCarried s (wakeRequest p s) := by
  by_cases quiet : (s.pair p).state = .quiet
  · refine onlyPair_replyCarried waits (wakeRequest_asked quiet).1 ?_
    obtain ⟨-, -, -, -, -, -, -, queue, -⟩ := enter_kept s.now s.cfg .waking (s.pair p)
    have entered : ((enterState p .waking s).pair p).queue = (s.pair p).queue := by
      rw [enterState, modPair_pair_same, queue]
    rw [wakeRequest, if_pos quiet]
    simp only [enterWaking, Machine.tell, reduceCtorEq, ↓reduceIte, emit_pair, modPair_pair_same, entered]
  · rw [wakeRequest, if_neg quiet]
    exact .refl waits

theorem demandWake_replyCarried : ReplyCarried s (demandWake s) := by
  unfold demandWake
  split
  · split
    · exact wakeRequest_replyCarried waits _
    · exact .refl waits
  · exact .refl waits

theorem countClass_replyCarried (c : ClassNo) (f : ClassCounters → ClassCounters) : ReplyCarried s (countClass c f s) :=
  modClass_replyCarried waits (waits c) rfl

theorem askWake_replyCarried (c : ClassNo) (m : PairMap) : ReplyCarried s (askWake c m s) := by
  unfold askWake
  split
  · exact .refl waits
  · split
    · have counted := countClass_replyCarried waits c (fun n => { n with wakeAsk := n.wakeAsk + 1 })
      exact counted.trans (wakeRequest_replyCarried counted.waits _)
    · exact .refl waits

/-! ## The path decision -/

omit waits in
/-- The frame that a path decision looks at is no reply of a RESET-PART. -/
def DecidesPlain (k : ClassUnit) : Prop :=
  (∀ g, k.current = some g → g.frame.resetReply = false) ∧
    (k.current = none → ∀ f fs, k.queue = f :: fs → f.resetReply = false)

omit waits in
theorem decidesPlain_or_everyPair (open' : ReplyOpen k) (looks : k.decisionMap = some m) : DecidesPlain k ∨ m = everyPair := by
  obtain ⟨queued, started⟩ := open'
  unfold ClassUnit.decisionMap at looks
  split at looks
  · next g current =>
    cases looks
    cases flag : g.frame.resetReply with
    | true => exact .inr (started g current flag)
    | false => 
      refine .inl ⟨fun x e => ?_, fun e => by cases current.symm.trans e⟩
      cases current.symm.trans e
      exact flag
  · next f fs current queue =>
    cases looks
    cases flag : f.resetReply with
    | true => exact .inr (queued f (by rw [queue]; exact List.mem_cons_self) flag).1
    | false =>
      refine .inl ⟨fun x e => (Option.some_ne_none x (e.symm.trans current)).elim, fun _ x xs e => ?_⟩
      cases queue.symm.trans e
      exact flag
  · cases looks

omit waits in
theorem holdsResetReply_eq (k : ClassUnit) :
    k.holdsResetReply = (k.queue.any (·.resetReply) || k.current.any (·.frame.resetReply)) := rfl

theorem spillFrame_replyCarried (plain : DecidesPlain (s.cls c)) : ReplyCarried s (spillFrame c s) := by
  have same : ∀ m : PairMap, ReplyOpen ((s.cls c).setDecisionMap m) ∧
      ((s.cls c).setDecisionMap m).holdsResetReply = (s.cls c).holdsResetReply := fun m => by
    obtain ⟨queued, started⟩ := waits c
    obtain ⟨current, head⟩ := plain
    unfold ClassUnit.setDecisionMap
    split
    · next g e =>
      refine ⟨⟨queued, ?_⟩, by simp [holdsResetReply_eq, e]⟩
      rintro x ⟨⟩ flag
      cases (current g e).symm.trans flag
    · next f fs idle e =>
      rw [e] at queued
      refine ⟨⟨fun x mem flag => ?_, started⟩, by simp [holdsResetReply_eq, e, idle]⟩
      rcases List.mem_cons.1 mem with rfl | mem
      · cases (head idle f fs e).symm.trans flag
      · exact queued x (List.mem_cons_of_mem _ mem) flag
    · exact ⟨⟨queued, started⟩, rfl⟩
  unfold spillFrame
  exact modClass_replyCarried waits (same _).1 (same _).2

omit waits in
theorem dropNoPath_plain (plain : DecidesPlain (s.cls c)) : dropNoPath c s = modClass c (fun k => { k with
    current := none
    queue := if k.current.isSome then k.queue else k.queue.tail
    n := { k.n with noPath := k.n.noPath + 1 } }) s := by
  obtain ⟨current, head⟩ := plain
  unfold dropNoPath
  dsimp only
  split
  · next g e => rw [if_neg (by simp [current g e])]
  · next f fs idle e => rw [if_neg (by simp [head idle f fs e])]
  · rfl

theorem dropNoPath_replyCarried (plain : DecidesPlain (s.cls c)) : ReplyCarried s (dropNoPath c s) := by
  rw [dropNoPath_plain plain]
  obtain ⟨current, head⟩ := plain
  obtain ⟨queued, started⟩ := waits c
  cases idle : (s.cls c).current with
  | some g =>
    refine modClass_replyCarried waits ⟨?_, by simp⟩ ?_
    · simpa [idle] using queued
    · simp [holdsResetReply_eq, idle, current g idle]
  | none =>
    refine modClass_replyCarried waits ⟨?_, by simp⟩ ?_
    · simp only [idle, Option.isSome_none, Bool.false_eq_true, ↓reduceIte]
      exact fun f mem => queued f (List.mem_of_mem_tail mem)
    · cases queue : (s.cls c).queue with
      | nil => simp [holdsResetReply_eq, idle, queue]
      | cons f fs => simp [holdsResetReply_eq, idle, queue, head idle f fs queue]

omit waits in
/-- Some pair is SERVING (R94). -/
def Serviced (s : State) : Prop := ∃ p : PairNo, (s.pair p).state = .serving

omit waits in
theorem Serviced.kept (h : Serviced s) (left : AllLeft s t) : Serviced t := by
  obtain ⟨p, serving⟩ := h
  refine ⟨p, ?_⟩
  rcases left p with same | ⟨quiet, -⟩
  · exact (steady_state same).trans serving
  · cases serving.symm.trans quiet

omit waits in
theorem everyPair_holds (p : PairNo) : PairMap.holds everyPair p = true := by
  revert p
  decide

/-- A path decision drops and spills no reply of a RESET-PART while a pair is in service (R97-R101). -/
theorem pathDecision_replyCarried (n : Nat) (c : ClassNo) (service : Serviced s) :
    ReplyCarried s (pathDecision n c s).2 := by
  induction n generalizing s with
  | zero => exact .refl waits
  | succ n ih =>
    cases looks : (s.cls c).decisionMap with
    | none =>
      unfold pathDecision
      rw [looks]
      exact .refl waits
    | some m =>
      rw [pathDecision_succ n c looks]
      split
      · exact .refl waits
      · split
        · exact .refl waits
        · next _ unserved =>
          have plain : DecidesPlain (s.cls c) := by
            refine (decidesPlain_or_everyPair (waits c) looks).resolve_right ?_
            rintro rfl
            obtain ⟨p, serving⟩ := service
            exact unserved ⟨p, everyPair_holds p, serving⟩
          split
          · exact askWake_replyCarried waits c m
          · split
            · have spilled := spillFrame_replyCarried waits plain
              exact spilled.trans (ih (s := spillFrame c s) spilled.waits (service.kept (spillFrame_follows c s).pairs))
            · have dropped := dropNoPath_replyCarried waits plain
              exact dropped.trans (ih (s := dropNoPath c s) dropped.waits (service.kept (dropNoPath_follows c s).pairs))

/-! ## Placement and selection -/

theorem startFrame_replyCarried (c : ClassNo) : ReplyCarried s (modClass c ClassUnit.startFrame s) := by
  obtain ⟨queued, started⟩ := waits c
  cases current : (s.cls c).current with
  | some g =>
    refine modClass_replyCarried waits ?_ ?_ <;> rw [startFrame_current current]
    exact waits c
  | none =>
    cases queue : (s.cls c).queue with
    | nil =>
      have same : (s.cls c).startFrame = s.cls c := by simp [ClassUnit.startFrame, current, queue]
      refine modClass_replyCarried waits ?_ ?_ <;> rw [same]
      exact waits c
    | cons f fs =>
      rw [queue] at queued
      refine modClass_replyCarried waits ?_ ?_ <;> rw [startFrame_head current queue]
      · refine ⟨fun x mem => queued x (List.mem_cons_of_mem _ mem), ?_⟩
        rintro g ⟨⟩ flag
        exact (queued f List.mem_cons_self flag).1
      · simp [holdsResetReply_eq, current, queue, Bool.or_comm]

omit waits in
theorem advance_frame {g x : InProgress} {n : Nat} (e : g.advance n = some x) : x.frame = g.frame := by
  unfold InProgress.advance at e
  split at e
  · cases e
  · cases e
    rfl

/-- A fragment of the reply goes to a transmit queue (R93). -/
theorem placed_replyCarried {g : InProgress} {e : Desc} {n : Nat} {f : ClassUnit → ClassUnit} (p : PairNo)
    (current : (s.cls c).current = some g) (fragment : e.resetReply = g.frame.resetReply)
    (queue : (f (s.cls c)).queue = (s.cls c).queue) (after : (f (s.cls c)).current = g.advance n) :
    ReplyCarried s (append p e (setCarried (modClass c f s))) := by
  have appended (q : PairNo) : holdsFragment ((append p e (setCarried (modClass c f s))).pair q) =
      (holdsFragment (s.pair q) || (decide (q = p) && e.resetReply)) := by
    rw [append, modPair_pair, holdsFragment]
    by_cases same : q = p
    · subst same
      simp [holdsFragment]
    · simp [same, holdsFragment]
  obtain ⟨queued, started⟩ := waits c
  refine ⟨fun d => ?_, ?_, rfl⟩
  · rw [append, modPair_cls, setCarried_cls, modClass_cls]
    split
    · refine ⟨by rwa [queue], fun x left => ?_⟩
      rw [advance_frame (after ▸ left)]
      exact started g current
    · exact waits d
  · cases flag : g.frame.resetReply with
    | true =>
      rw [resetReplyHeld_iff.2 (.inr ⟨p, by simp [appended, fragment, flag]⟩),
        resetReplyHeld_iff.2 (.inl ⟨c, by simp [holdsResetReply_eq, current, flag]⟩)]
    | false =>
      refine resetReplyHeld_congr (fun d => ?_) fun q => by simp [appended, fragment, flag]
      rw [append, modPair_cls, setCarried_cls, modClass_cls]
      split
      · next same =>
        have plain : (g.advance n).any (·.frame.resetReply) = false := by
          cases left : g.advance n with
          | none => rfl
          | some x => simp [advance_frame left, flag]
        rw [same, holdsResetReply_eq, holdsResetReply_eq, queue, after, current, plain]
        simp [flag]
      · rfl

theorem placeFragment_replyCarried (c : ClassNo) : ReplyCarried s (placeFragment c s) := by
  have begun := startFrame_replyCarried waits c
  unfold placeFragment
  dsimp only
  generalize modClass c ClassUnit.startFrame s = t at begun ⊢
  split
  · exact begun
  · next g current =>
    split
    · exact begun
    · next p _ => exact begun.trans (placed_replyCarried begun.waits p current rfl rfl rfl)

theorem selectFrom_replyCarried (cs : List ClassNo) (service : Serviced s) : ReplyCarried s (selectFrom cs s).2 := by
  induction cs generalizing s with
  | nil => exact .refl waits
  | cons c cs ih =>
    have decided := pathDecision_replyCarried waits (decisionsOf (s.cls c)) c service
    have still := service.kept (pathDecision_follows (decisionsOf (s.cls c)) c s).pairs
    unfold selectFrom
    generalize pathDecision (decisionsOf (s.cls c)) c s = r at decided still ⊢
    obtain ⟨placed, u⟩ := r
    cases placed with
    | true => exact decided.trans (placeFragment_replyCarried decided.waits c)
    | false => exact decided.trans (ih decided.waits still)

theorem selectUpTo_replyCarried (n : Nat) : ReplyCarried s (selectUpTo n s) := by
  induction n generalizing s with
  | zero => exact .refl waits
  | succ n ih =>
    rw [selectUpTo_succ]
    split
    · next runs =>
      obtain ⟨⟨p, serving, -⟩, -⟩ := runs
      have selected := selectFrom_replyCarried waits (classOrder s.cfg.classOrder) ⟨p, serving⟩
      have woken := selected.trans (demandWake_replyCarried selected.waits)
      split
      · exact woken.trans (ih woken.waits)
      · exact woken
    · exact .refl waits

theorem distribute_replyCarried : ReplyCarried s (distribute s) := by
  have woken := demandWake_replyCarried waits
  exact woken.trans (selectUpTo_replyCarried woken.waits 257)

/-! ## Admission and the notice sender -/

omit waits in
theorem insertFrame_any (f : FrameRec) (q : List FrameRec) :
    (insertFrame f q).any (·.resetReply) = (f.resetReply || q.any (·.resetReply)) := by
  rw [Bool.eq_iff_iff]
  simp [List.any_eq_true, mem_insertFrame]

theorem takeSlot_replyCarried (c : ClassNo) {f : FrameRec} (plain : f.resetReply = false) :
    ReplyCarried s (takeSlot c f s) := by
  obtain ⟨queued, started⟩ := waits c
  have inserted : ReplyCarried s (modClass c (fun k => { k with
      queue := insertFrame { f with order := s.nextOrder } k.queue, n := { k.n with admitted := k.n.admitted + 1 } }) s) := by
    refine modClass_replyCarried waits ⟨fun x mem flag => ?_, started⟩ ?_
    · rcases mem_insertFrame.1 mem with rfl | mem
      · cases plain.symm.trans flag
      · exact queued x mem flag
    · rw [holdsResetReply_eq, holdsResetReply_eq, insertFrame_any, plain, Bool.false_or]
  exact ⟨inserted.waits, inserted.held, rfl⟩

theorem countQueueDrop_replyCarried (c : ClassNo) : ReplyCarried s (countQueueDrop c s) := by
  have counted := countClass_replyCarried waits c (fun n => { n with queueDrop := n.queueDrop + 1 })
  exact counted.trans (replyCarried_of_eq counted.waits rfl rfl rfl)

/-- No frame displaces the reply (R88). -/
theorem victimGone_replyCarried {victim : FrameRec} (last : (s.cls c).queue.getLast? = some victim)
    (low : victim.urgency < 7) : ReplyCarried s (victimGone c s) := by
  obtain ⟨queued, started⟩ := waits c
  have split : (s.cls c).queue = (s.cls c).queue.dropLast ++ [victim] := (List.dropLast_append_getLast? victim last).symm
  have plain : victim.resetReply = false := by
    by_contra flagged
    obtain ⟨-, high⟩ := queued victim (by rw [split]; simp) (by simpa using flagged)
    omega
  refine modClass_replyCarried waits ⟨fun x mem => queued x (List.dropLast_subset _ mem), started⟩ ?_
  rw [holdsResetReply_eq, holdsResetReply_eq]
  conv_rhs => rw [split]
  simp [plain]

theorem offerFrame_replyCarried (c : ClassNo) {f : FrameRec} (plain : f.resetReply = false) (urgency : f.urgency ≤ 7) :
    ReplyCarried s (offerFrame c f s) := by
  by_cases room : HasRoom c s
  · rw [offerFrame_admitted room]
    exact takeSlot_replyCarried waits c plain
  · by_cases yields : YieldsTo c f.urgency s
    · rw [offerFrame_displaces room yields]
      obtain ⟨victim, last, low⟩ := (Option.any_eq_true _ _).1 yields
      have gone := victimGone_replyCarried waits last ((of_decide_eq_true low).trans_le urgency)
      have counted := gone.trans (countQueueDrop_replyCarried gone.waits c)
      exact counted.trans (takeSlot_replyCarried counted.waits c plain)
    · rw [offerFrame_refused room yields, plain]
      exact countQueueDrop_replyCarried waits c

theorem sendNotice_replyCarried (src : Source) (d : Addr) : ReplyCarried s (sendNotice src d s) := by
  have formed : ReplyCarried s (noticeFormed src d s) := replyCarried_of_eq waits rfl rfl rfl
  cases path : s.notices.path with
  | trunk =>
    rw [sendNotice_trunk path]
    refine formed.trans ?_
    unfold offerEgress
    split
    · exact replyCarried_of_eq formed.waits rfl rfl rfl
    · exact replyCarried_of_eq formed.waits rfl rfl rfl
  | bond =>
    rw [sendNotice_bond path]
    have offered := offerFrame_replyCarried formed.waits 0 (f := {
      octets := noticeFrame s src d, urgency := 7, map := everyPair, order := 0, resetReply := false }) rfl le_rfl
    exact formed.trans (offered.trans (distribute_replyCarried offered.waits))

theorem sendUpTo_replyCarried (n : Nat) : ReplyCarried s (sendUpTo n s) := by
  induction n generalizing s with
  | zero => exact .refl waits
  | succ n ih =>
    rw [sendUpTo]
    split
    · next src d _ _ =>
      have sent := sendNotice_replyCarried waits src d
      exact sent.trans (ih sent.waits)
    · exact .refl waits

theorem beginSend_replyCarried : ReplyCarried s (beginSend s) := by
  unfold beginSend
  split
  · exact .refl waits
  · split
    · exact replyCarried_of_eq waits rfl rfl rfl
    · exact .refl waits

end Steps

/-! ## What follows an event while a RESET-PART is pending -/

/-- What follows an event of R94, up to the test of the pending RESET-PART (R193). -/
def settledUntested (s : State) : State :=
  beginSend (chooseHandovers (sendNotices (distribute (chooseHandovers s))))

theorem settle_checks (s : State) : settle s = checkReset (settledUntested s) := rfl

theorem settledUntested_follows (s : State) : Follows s (settledUntested s) :=
  ((((chooseHandovers_follows s).trans (distribute_follows _)).trans (sendNotices_follows _)).trans
    (chooseHandovers_follows _)).trans (beginSend_follows _)

theorem settledUntested_outward (s : State) : Outward s (settledUntested s) :=
  ((((chooseHandovers_outward s).trans (distribute_outward _)).trans (sendUpTo_outward 12 _)).trans
    (chooseHandovers_outward _)).trans (beginSend_outward _)

theorem settledUntested_replyCarried (waits : ∀ c : ClassNo, ReplyOpen (s.cls c)) : ReplyCarried s (settledUntested s) := by
  have chosen := chooseHandovers_replyCarried waits
  have distributed := chosen.trans (distribute_replyCarried chosen.waits)
  have sent := distributed.trans (sendUpTo_replyCarried distributed.waits 12)
  have again := sent.trans (chooseHandovers_replyCarried sent.waits)
  exact again.trans (beginSend_replyCarried again.waits)

end Sys2Proof.Proofs
end


-- ==== Sys2Proof/Proofs/ResetPart.lean ====
section
/-! PROOF. RESET-PART: its answer, its reply's way out on either path, and the full reset (R183, R193, R194, R201). -/

namespace Sys2Proof.Proofs
open Sys2Proof Sys2Proof.Machine Sys2Proof.Laws

variable {p : PairNo} {q : ReqHead} {r : PendingReset} {f : FrameRec} {s t u v : State}

/-! ## The full reset of cause MANAGEMENT -/

/-- What a MANAGEMENT reset reads of the part is as it was: the straps, the cause record and the commands (R194, R201). -/
def ResetInputsKept (s v : State) : Prop :=
  v.strapReads = s.strapReads ∧ v.notices.record = s.notices.record ∧ v.pending = s.pending

theorem SettingsKept_inputs (kept : SettingsKept s v) : ResetInputsKept s v := by
  obtain ⟨-, -, reads, -, commands, -, -, -, -, -, -, record, -⟩ := kept
  exact ⟨reads, record, commands⟩

theorem ResetInputsKept.trans (h : ResetInputsKept s u) (k : ResetInputsKept u v) : ResetInputsKept s v := by
  obtain ⟨reads, record, commands⟩ := h
  obtain ⟨reads', record', commands'⟩ := k
  exact ⟨reads'.trans reads, record'.trans record, commands'.trans commands⟩

/-- A MANAGEMENT reset of a part (R194, R201 b; log entries 4 and 17). -/
theorem managementReset (kept : ResetInputsKept s v) : ManagementReset s (completeReset .management (cutAll v)) := by
  obtain ⟨reads, record, commands⟩ := kept
  obtain ⟨cutPairs, cutOut, cut, -⟩ := cutAll_eq v
  obtain ⟨pairs, out, whole, -⟩ := completeReset_eq .management (cutAll v)
  have reset := completeReset_fullyReset .management (cutAll v)
  obtain ⟨recorded, left⟩ := completeReset_recorded .management (cutAll v)
  have role : (completeReset .management (cutAll v)).strapRole = (readStraps .management (cutAll v)).strapRole := by
    rw [whole]; rfl
  have straps : (completeReset .management (cutAll v)).straps = (readStraps .management (cutAll v)).straps := by
    rw [whole]; rfl
  have count : (completeReset .management (cutAll v)).strapReads = (cutAll v).strapReads + 1 := by
    rw [whole]; rfl
  rw [← role, ← straps] at reset
  have cutReads : (cutAll v).strapReads = s.strapReads := by rw [cut]; exact reads
  have cutRecord : (cutAll v).notices.record = s.notices.record := by rw [cut]; exact record
  have cutCommands : (cutAll v).pending = s.pending := by rw [cut]; exact commands
  refine ⟨reset, ?_, ?_, ?_, cutRecord ▸ recorded, left.trans cutCommands⟩
  · rw [role, readStraps, cutReads]
  · rw [straps, readStraps, cutReads]
  · rw [count, cutReads]

/-! ## The outputs of a reset -/

theorem tell_out (p : PairNo) (x : Control) (s : State) : s.out <+: (Machine.tell p x s).out := List.prefix_append _ _

theorem cutHandover_out (b : Bool) (p : PairNo) (s : State) : s.out <+: (cutHandover b p s).out := by
  unfold cutHandover
  split
  · exact List.prefix_rfl
  · exact List.prefix_append _ _

theorem eachPair_out {f : PairNo → State → State} (h : ∀ p s, s.out <+: (f p s).out) (ps : List PairNo) (s : State) :
    s.out <+: (eachPair ps f s).out :=
  eachPair_kept (I := fun t => s.out <+: t.out) (fun p t i => i.trans (h p t)) ps List.prefix_rfl

theorem cutAll_out (s : State) : s.out <+: (cutAll s).out := by
  have cut := eachPair_out (cutHandover_out false) allPairs s
  unfold cutAll
  dsimp only
  generalize eachPair allPairs (cutHandover false) s = t at cut ⊢
  split
  · exact cut.trans (List.prefix_append _ _)
  · exact cut

theorem completeReset_out (cause : ResetCause) (s : State) : s.out <+: (completeReset cause s).out := by
  have read : (readStraps cause s).out = s.out := by cases cause <;> rfl
  unfold completeReset
  dsimp only
  refine List.IsPrefix.trans ?_ (eachPair_out (fun p t => tell_out p .train t) allPairs _)
  rw [raiseNotice_out, read]

/-! ## The test of the pending reset -/

theorem checkReset_waits (pends : s.agent.reset = some r) (unreported : r.reported = false)
    (stays : r.path = .trunk ∨ resetReplyHeld s = true) : checkReset s = s := by
  unfold checkReset
  rw [pends]
  refine if_neg ?_
  rcases stays with path | held <;> simp [*]

theorem checkReset_performs (pends : s.agent.reset = some r)
    (due : r.reported = true ∨ r.path = .bond ∧ resetReplyHeld s = false) :
    checkReset s = completeReset .management (cutAll s) := by
  unfold checkReset
  rw [pends]
  refine if_pos ?_
  rcases due with reported | ⟨path, gone⟩ <;> simp [*]

theorem replyOpen_of_gone (gone : resetReplyHeld s = false) (c : ClassNo) : ReplyOpen (s.cls c) := by
  obtain ⟨classes, -⟩ := resetReplyHeld_eq_false.1 gone
  obtain ⟨queue, current⟩ := classes c
  exact ⟨fun f mem flag => (Bool.false_ne_true ((queue f mem).symm.trans flag)).elim,
    fun g e flag => (Bool.false_ne_true ((current g e).symm.trans flag)).elim⟩

/-- While its report is awaited the reset stays pending through what follows an event (R193). -/
theorem settle_waits (waits : ∀ c : ClassNo, ReplyOpen (s.cls c)) (pends : s.agent.reset = some r)
    (unreported : r.reported = false) (stays : r.path = .trunk ∨ resetReplyHeld s = true) :
    settle s = settledUntested s ∧ (settledUntested s).agent = s.agent := by
  have carried := settledUntested_replyCarried waits
  refine ⟨?_, carried.agent⟩
  rw [settle_checks]
  exact checkReset_waits (by rw [carried.agent, pends]) unreported (by rwa [carried.held])

/-- With its report, or with its reply gone from the bond, the reset is performed after the event (R193 a and b). -/
theorem settle_performs (waits : ∀ c : ClassNo, ReplyOpen (s.cls c)) (pends : s.agent.reset = some r)
    (due : r.reported = true ∨ r.path = .bond ∧ resetReplyHeld s = false) :
    settle s = completeReset .management (cutAll (settledUntested s)) := by
  have carried := settledUntested_replyCarried waits
  rw [settle_checks]
  exact checkReset_performs (by rw [carried.agent, pends]) (by rwa [carried.held])

theorem settle_managementReset (waits : ∀ c : ClassNo, ReplyOpen (u.cls c)) (kept : ResetInputsKept s u)
    (pends : u.agent.reset = some r) (due : r.reported = true ∨ r.path = .bond ∧ resetReplyHeld u = false) :
    ManagementReset s (settle u) ∧ u.out ⊆ (settle u).out := by
  rw [settle_performs waits pends due]
  refine ⟨managementReset (kept.trans (SettingsKept_inputs (settledUntested_follows u).settings)), ?_⟩
  exact (((settledUntested_outward u).out.trans (cutAll_out _)).trans (completeReset_out _ _)).subset

theorem reportReset_reports (pends : s.agent.reset = some r) :
    reportReset s = { s with agent := { s.agent with reset := some { r with reported := true } } } := by
  unfold reportReset
  rw [pends]

/-! ## The answer -/

/-- The reply to a RESET-PART (R193). -/
def resetAnswer (q : ReqHead) (s : State) : Reply := replyTo q .resetPart ⟨.ok, .empty, counted s⟩

/-- The reset is pending, with its wait, and the reply is out (R193). -/
def resetPended (q : ReqHead) (s : State) : State := emit (.reply (resetAnswer q s)) (pendReset q.path (counted s))

/-- What is pending after the answer (R193). -/
def awaitedReset (path : ServicePath) (s : State) : PendingReset := { path := path, wait := ⟨s.now, 1000000⟩, reported := false }

theorem resetPended_agent (q : ReqHead) (s : State) : (resetPended q s).agent.reset = some (awaitedReset q.path s) := rfl

/-- The state after the answer and the offer of its reply (R186, R193). -/
def resetOffered (q : ReqHead) (s : State) : State := offerReply (resetAnswer q s) true (pendReset q.path (counted s))

theorem exec_resetPart (opened : s.open) (a : Admits q .resetPart s) : exec (.resetPart q) s =
    .next (settle (resetOffered q s)) := by
  obtain ⟨taking, noReset⟩ := opened
  obtain ⟨-, -, noneWaits⟩ := id a
  have serving : serve q .resetPart s.silent = ⟨.ok, .empty, counted s⟩ := serve_admitted a
  rw [exec_request (c := .resetPart q) rfl, takeCommand_taking _ taking, ← State.silent,
    requestArrives_taken q .resetPart (s := s.silent) noneWaits, takeRequest,
    if_neg (by simp [show s.silent.agent.reset = none from noReset])]
  simp only [serving, answer, afterReply, startsEvents, decide_true, Bool.and_self, Bool.or_true, if_true]
  rfl

/-! ## The reply on path TRUNK -/

/-- The entry of the reply in the egress queue (R193). -/
def resetEntry (q : ReqHead) (s : State) : EgressEntry :=
  { frame := replyFrame (resetAnswer q s), source := .reply, resetReply := true }

theorem resetOffered_answers (q : ReqHead) (s : State) : Output.reply (resetAnswer q s) ∈ (resetOffered q s).out :=
  mem_offerReply _ _ _

theorem resetOffered_inputs (q : ReqHead) (s : State) : ResetInputsKept s (resetOffered q s) :=
  SettingsKept_inputs (offerReply_follows (resetAnswer q s) true (pendReset q.path (counted s))).settings

theorem resetPended_waits (gone : resetReplyHeld s = false) (c : ClassNo) : ReplyOpen ((resetPended q s).cls c) :=
  replyOpen_of_gone gone c

theorem resetOffered_trunk (path : q.path = .trunk) : resetOffered q s = offerEgress (resetEntry q s) (resetPended q s) := by
  have own : (resetAnswer q s).path = .trunk := path
  unfold resetOffered offerReply
  simp only [own]
  rfl

theorem resetPart_onTrunk (path : q.path = .trunk) (gone : resetReplyHeld s = false) (room : s.trunk.egress.length < 64) :
    Output.reply (resetAnswer q s) ∈ (settle (resetOffered q s)).out ∧
      (settle (resetOffered q s)).agent.reset = some (awaitedReset .trunk s) ∧
      AllLeft s (settle (resetOffered q s)) ∧ SettingsKept s (settle (resetOffered q s)) ∧
      ContextsLeft s (settle (resetOffered q s)) ∧
      s.trunk.egress ++ [resetEntry q s] <+: (settle (resetOffered q s)).trunk.egress := by
  have answered := resetOffered_answers q s
  have offered := offerReply_follows (resetAnswer q s) true (pendReset q.path (counted s))
  have taken : resetOffered q s = { resetPended q s with
      trunk := { s.trunk with n := (counted s).trunk.n, egress := s.trunk.egress ++ [resetEntry q s] } } := by
    rw [resetOffered_trunk path]
    exact if_pos room
  have egress : (resetOffered q s).trunk.egress = s.trunk.egress ++ [resetEntry q s] := by rw [taken]
  have pends : (resetOffered q s).agent.reset = some (awaitedReset .trunk s) := by rw [taken, ← path]; rfl
  have waits : ∀ c : ClassNo, ReplyOpen ((resetOffered q s).cls c) := fun c => by
    rw [taken]
    exact resetPended_waits (q := q) gone c
  change Follows _ (resetOffered q s) at offered
  generalize resetOffered q s = u at answered offered egress pends waits ⊢
  obtain ⟨rests, agent⟩ := settle_waits waits pends rfl (.inl rfl)
  rw [rests]
  have follows := offered.trans (settledUntested_follows u)
  exact ⟨(settledUntested_outward u).out.subset answered, by rw [agent, pends], follows.pairs, follows.settings,
    follows.contexts, egress ▸ (settledUntested_follows u).egress⟩

theorem resetPart_trunkFull (path : q.path = .trunk) (gone : resetReplyHeld s = false) (full : 64 ≤ s.trunk.egress.length) :
    ManagementReset s (settle (resetOffered q s)) := by
  have kept := resetOffered_inputs q s
  have dropped : resetOffered q s =
      reportReset (countTrunk (fun n => { n with egressFull := n.egressFull + 1 }) (resetPended q s)) := by
    rw [resetOffered_trunk path]
    exact if_neg (Nat.not_lt.2 full)
  rw [reportReset_reports (r := awaitedReset q.path s) rfl] at dropped
  refine (settle_managementReset (r := { awaitedReset q.path s with reported := true }) (fun c => ?_) kept ?_ (.inl rfl)).1
  · rw [dropped]
    exact resetPended_waits (q := q) gone c
  · rw [dropped]

/-! ## The reply on path BOND -/

/-- The frame of the reply in the distributor (R86, R193). -/
def resetFrame (q : ReqHead) (s : State) : FrameRec :=
  { octets := replyFrame (resetAnswer q s), urgency := 7, map := everyPair, order := 0, resetReply := true }

theorem resetOffered_bond (path : q.path = .bond) : resetOffered q s = offerFrame 0 (resetFrame q s) (resetPended q s) := by
  have own : (resetAnswer q s).path = .bond := path
  unfold resetOffered offerReply
  simp only [own]
  rfl

/-- A reply of a RESET-PART that is admitted is in the distributor from then on (R84, R193 b). -/
theorem takeSlot_holds {c : ClassNo} (waits : ∀ c : ClassNo, ReplyOpen (s.cls c)) (flag : f.resetReply = true)
    (map : f.map = everyPair) (urgency : f.urgency = 7) :
    (∀ d : ClassNo, ReplyOpen ((takeSlot c f s).cls d)) ∧ resetReplyHeld (takeSlot c f s) = true := by
  refine ⟨fun d => ?_, resetReplyHeld_iff.2 (.inl ⟨c, ?_⟩)⟩
  · rw [takeSlot_cls]
    split
    · obtain ⟨queued, started⟩ := waits c
      refine ⟨fun x mem flagged => ?_, started⟩
      rcases mem_insertFrame.1 mem with rfl | mem
      · exact ⟨map, urgency.ge⟩
      · exact queued x mem flagged
    · exact waits d
  · rw [takeSlot_cls_same, frameTaken, holdsResetReply_eq, insertFrame_any, flag]
    simp

/-- The reply is admitted, and the reset stays pending (R193 b). -/
theorem resetPart_admitted (path : q.path = .bond) (carried : ReplyCarried (resetPended q s) v)
    (taken : resetOffered q s = takeSlot 0 (resetFrame q s) v) :
    Output.reply (resetAnswer q s) ∈ (settle (resetOffered q s)).out ∧
      (settle (resetOffered q s)).agent.reset = some (awaitedReset .bond s) := by
  obtain ⟨waits, held⟩ := takeSlot_holds (c := 0) (f := resetFrame q s) carried.waits rfl rfl rfl
  have pends : (takeSlot 0 (resetFrame q s) v).agent.reset = some (awaitedReset .bond s) := by
    rw [← path, ← resetPended_agent, ← carried.agent]
    rfl
  have answered := resetOffered_answers q s
  rw [taken] at answered ⊢
  obtain ⟨rests, agent⟩ := settle_waits waits pends rfl (.inr held)
  rw [rests]
  exact ⟨(settledUntested_outward _).out.subset answered, by rw [agent, pends]⟩

theorem resetPart_onBond (path : q.path = .bond) (gone : resetReplyHeld s = false) (room : HasRoom 0 s) :
    Output.reply (resetAnswer q s) ∈ (settle (resetOffered q s)).out ∧
      (settle (resetOffered q s)).agent.reset = some (awaitedReset .bond s) :=
  resetPart_admitted path (.refl (resetPended_waits gone))
    ((resetOffered_bond path).trans (offerFrame_admitted (s := resetPended q s) room))

theorem resetPart_displaces (path : q.path = .bond) (gone : resetReplyHeld s = false) (full : ¬ HasRoom 0 s)
    (yields : YieldsTo 0 7 s) : Output.reply (resetAnswer q s) ∈ (settle (resetOffered q s)).out ∧
      (settle (resetOffered q s)).agent.reset = some (awaitedReset .bond s) := by
  obtain ⟨victim, last, low⟩ := (Option.any_eq_true _ _).1 yields
  have left := victimGone_replyCarried (resetPended_waits (q := q) gone) last (of_decide_eq_true low)
  exact resetPart_admitted path (left.trans (countQueueDrop_replyCarried left.waits 0))
    ((resetOffered_bond path).trans (offerFrame_displaces (s := resetPended q s) full yields))

theorem resetPart_refused (path : q.path = .bond) (gone : resetReplyHeld s = false) (full : ¬ HasRoom 0 s)
    (stays : ¬ YieldsTo 0 7 s) : Output.reply (resetAnswer q s) ∈ (settle (resetOffered q s)).out ∧
      ManagementReset s (settle (resetOffered q s)) := by
  have kept := resetOffered_inputs q s
  have answered := resetOffered_answers q s
  have dropped : resetOffered q s = reportReset (countQueueDrop 0 (resetPended q s)) :=
    (resetOffered_bond path).trans (offerFrame_refused (s := resetPended q s) full stays)
  have counted := countQueueDrop_replyCarried (resetPended_waits (q := q) gone) 0
  rw [reportReset_reports (r := awaitedReset q.path s) rfl] at dropped
  have waits : ∀ c : ClassNo, ReplyOpen ((resetOffered q s).cls c) := fun c => by
    rw [dropped]
    exact counted.waits c
  obtain ⟨reset, out⟩ := settle_managementReset (r := { awaitedReset q.path s with reported := true }) waits kept
    (by rw [dropped]) (.inl rfl)
  exact ⟨out answered, reset⟩

/-! ## While the reset is pending -/

theorem requestArrives_discarded {b : ReqBody} (pends : s.agent.reset = some r) :
    requestArrives q b s = countTrunk (fun n => { n with mgmtDiscard := n.mgmtDiscard + 1 }) s := by
  rw [requestArrives, if_neg (by simp [pends]), takeRequest_discarded (by simp [pends])]

theorem resetWaitExpiry_performs (taking : s.taking) (pends : s.agent.reset = some r) :
    ∃ t, exec .resetWaitExpiry s = .next t ∧ ManagementReset s t := by
  have running : s.silent.agent.reset.map (·.wait) = some r.wait := by rw [show s.silent.agent.reset = some r from pends]; rfl
  have ran : exec .resetWaitExpiry s = .next (expire (s.silent.agent.reset.map (·.wait))
      (fun s => completeReset .management (cutAll s)) s.silent) := takeCommand_taking _ taking
  rw [running] at ran
  exact ⟨_, ran, managementReset ⟨rfl, rfl, rfl⟩⟩

/-- The handover of the last fragment of the reply completes (R193 b). -/
theorem handoverComplete_performs {h : Handover} {e : Desc} {es : List Desc} (pends : s.agent.reset = some r)
    (path : r.path = .bond) (busy : (s.pair p).handover = some h) (data : h.frag.kind = 0)
    (queue : (s.pair p).queue = e :: es) (rest : ∀ d ∈ es, d.resetReply = false)
    (others : ∀ o : PairNo, o ≠ p → ∀ d ∈ (s.pair o).queue, d.resetReply = false)
    (classes : ∀ k : ClassNo, (s.cls k).holdsResetReply = false) : ManagementReset s (handoverComplete p s) := by
  have completes : handoverComplete p s = settle (modPair p (PairUnit.handedOver s.now h.frag) s) := by
    simp [handoverComplete, busy, data]
  have unit : ((modPair p (PairUnit.handedOver s.now h.frag) s).pair p).queue = es := by
    rw [modPair_pair_same, handedOver_data _ _ data, PairUnit.restartIdle]
    split <;> simp [sentData, sentUnit, queue]
  have gone : resetReplyHeld (modPair p (PairUnit.handedOver s.now h.frag) s) = false := by
    refine resetReplyHeld_eq_false.2 ⟨fun c => ?_, fun o d mem => ?_⟩
    · have held := classes c
      rw [holdsResetReply_eq, Bool.or_eq_false_iff, List.any_eq_false, Option.any_eq_false] at held
      simpa using held
    · by_cases same : o = p
      · subst same
        rw [unit] at mem
        exact rest d mem
      · rw [modPair_pair, if_neg same] at mem
        exact others o same d mem
  rw [completes]
  exact (settle_managementReset (replyOpen_of_gone gone) ⟨rfl, rfl, rfl⟩ pends (.inr ⟨path, gone⟩)).1

theorem beginSend_agent (s : State) : (beginSend s).agent = s.agent := by
  unfold beginSend
  split
  · rfl
  · split <;> rfl

/-- The trunk port reports the reply sent (R193 a). -/
theorem trunkSendComplete_performs {e : EgressEntry} {es : List EgressEntry} (ready : Bool) (taking : s.taking)
    (pends : s.agent.reset = some r) (egress : s.trunk.egress = e :: es) (sending : s.trunk.sending = true)
    (flag : e.resetReply = true) : ∃ t, exec (.trunkSendComplete ready) s = .next t ∧ ManagementReset s t := by
  have ran : exec (.trunkSendComplete ready) s = .next (trunkSendComplete ready s.silent) := takeCommand_taking _ taking
  refine ⟨_, ran, ?_⟩
  unfold trunkSendComplete
  rw [show s.silent.trunk.sending = true from sending, show s.silent.trunk.egress = e :: es from egress]
  dsimp only
  rw [if_pos flag]
  generalize sent : setReady ready _ = u
  have kept : ResetInputsKept s u ∧ u.agent = s.agent := by
    subst sent
    exact ⟨⟨rfl, rfl, rfl⟩, rfl⟩
  obtain ⟨inputs, agent⟩ := kept
  have reported := reportReset_reports (agent ▸ pends : u.agent.reset = some r)
  have begun := (reportReset_follows u).trans (beginSend_follows (reportReset u))
  rw [checkReset_performs (r := { r with reported := true }) (by rw [beginSend_agent, reported]) (.inl rfl)]
  exact managementReset (inputs.trans (SettingsKept_inputs begun.settings))

/-- Settles O52. -/
theorem resetPartServed : Obligations.ResetPartServed := by
  refine fun c q b ready s taking => ⟨fun noReset replies admission => ?_, fun r pends => ⟨fun request => ?_,
    resetWaitExpiry_performs taking pends, fun p h e es path busy data queue _ rest others classes =>
      ⟨_, exec_handoverComplete taking, handoverComplete_performs (s := s.silent) pends path busy data queue rest others classes⟩,
    fun e es egress sending flag => trunkSendComplete_performs ready taking pends egress sending flag⟩⟩
  · have next := exec_resetPart ⟨taking, noReset⟩ admission
    obtain ⟨gone, -⟩ := replies ⟨taking, noReset⟩
    refine ⟨fun path room => ?_, fun path full => ⟨_, next, resetPart_trunkFull path gone full⟩, fun path full => ?_,
      fun path limit slots => ?_⟩
    · obtain ⟨answered, reset, left, kept, contexts, egress⟩ := resetPart_onTrunk path gone room
      exact ⟨_, next, answered, reset, left, kept, contexts, resetEntry q s, rfl, rfl, egress⟩
    · split
      · next yields => exact ⟨_, next, resetPart_displaces path gone full yields⟩
      · next stays => exact ⟨_, next, resetPart_refused path gone full stays⟩
    · have room : HasRoom 0 s := ⟨limit, slots⟩
      obtain ⟨answered, reset⟩ := resetPart_onBond path gone room
      exact ⟨_, next, answered, reset⟩
  · rw [exec_request request, takeCommand_taking _ taking, ← State.silent, requestArrives_discarded (s := s.silent) pends]
    rfl

end Sys2Proof.Proofs
end
